-- ==== Sys2Proof/Word.lean ====
section
/-! DEFINITION. The machine's word types and their plainest arithmetic (spec/00_scope.md R5, R7). -/

namespace Sys2Proof

/-- One byte. -/
abbrev Byte := BitVec 8

/-- A lane register, a stage slot, a gang register (R9, R12): 32 bits. -/
abbrev Word := BitVec 32

/-- A pair of registers, an instruction word, a virtual address: 64 bits. -/
abbrev DWord := BitVec 64

/-- A 16-byte operand (R116). -/
abbrev QWord := BitVec 128

/-- The number a list of bytes holds, the byte at the lowest address first (R5). -/
def leNat : List Byte → Nat
  | [] => 0
  | b :: bs => b.toNat + 256 * leNat bs

/-- The `n` lowest bytes of a number, the lowest first (R5). -/
def leBytes : Nat → Nat → List Byte
  | 0, _ => []
  | n + 1, v => BitVec.ofNat 8 v :: leBytes n (v / 256)

/-- `bits[hi:lo]` of a number (R7), given by its low bit and its width. -/
def bitsOf (v lo w : Nat) : Nat := v / 2 ^ lo % 2 ^ w

/-- `sext(x, n)`: the low `n` bits of a number read as two's complement (R7). -/
def sextNat (x n : Nat) : Int :=
  let y := x % 2 ^ n
  if n = 0 then 0 else if 2 ^ (n - 1) ≤ y then (y : Int) - 2 ^ n else y

/-- The low 32-bit half of a pair: the even register (R116). -/
def loW (x : DWord) : Word := x.setWidth 32

/-- The high 32-bit half of a pair: the odd register (R116). -/
def hiW (x : DWord) : Word := (x >>> 32).setWidth 32

/-- A pair from its low and its high half (R116). -/
def pairW (lo hi : Word) : DWord := hi ++ lo

end Sys2Proof
end

