-- ==== Sys2Proof/Config.lean ====
section
/-! DEFINITION. What is fixed for the machine and what the manual leaves free. A free value is a constant with no body,
applied to the counter `State.free` (or to operands): nothing can be proved of its value. -/

namespace Sys2Proof.Config

/-- Dies of a package (R2, R24). -/
def dies : Nat := 8
/-- Cores of a package (R2, R161). -/
def cores : Nat := 1536
/-- Cores of a die (R161). -/
def coresPerDie : Nat := 192
/-- Cores of a cluster (R23). -/
def coresPerCluster : Nat := 4
/-- Channels of package memory (R24). -/
def channels : Nat := 384
/-- Lane registers of a core's register file, in slice rows of four (R17, R314). -/
def sliceRows : Nat := 49152
/-- Gangs that a core holds at once (R18). -/
def slots : Nat := 32
/-- Slices that a core holds at once (R17). -/
def residentSlices : Nat := 256
/-- KiB of scratchpad of a core (R17). -/
def scratchKiB : Nat := 512
/-- Sectors of 32 bytes that a core's L1 of 1024 KiB holds (R17). -/
def l1Sectors : Nat := 32768
/-- Bytes of a cluster's operand buffer (R23, R245). -/
def opbufBytes : Nat := 0x200000
/-- Units ahead of DONE that may be dispatched (R318). -/
def window : Nat := 256
/-- Triggers that a die queues (R311). -/
def trigQueue : Nat := 64
/-- Entries of a reservation table (R262). -/
def tableEntries : Nat := 32
/-- Commands that a gang may hold under one tag (R232). -/
def tagLimit : Nat := 65535
/-- Translator version XVER; the manual gives no number (R302): a constant of the implementation. -/
opaque xver : BitVec 16

/-- Queues of a queue map (R327). -/
def qmapQueues : Nat := 64
/-- Bytes of a spill region (R413). -/
def spillBytes : Nat := 0x80000
/-- The unit of a growable area's base and size (R413). -/
def growUnit : Nat := 0x200000
/-- Bytes of a save area before its first block (R350). -/
def saveHeader : Nat := 4096

/-- What a save block is reserved beyond its regions without ranges and log: the manual gives no worst case for those (R350, R352). It
is less than the 2^52 bytes that addresses reach. DESIGN CHOICE, log 39. -/
opaque blockSlack : BitVec 52

/-- A free choice between two courses that the manual allows. DESIGN CHOICE, log 6. -/
opaque freeBit : Nat → Bool
/-- A free count: clocks that pass, bytes that a command had written, an entry that is chosen. DESIGN CHOICE, log 6. -/
opaque freeNat : Nat → Nat
/-- A free word: a result that the manual does not state. -/
opaque freeWord : Nat → BitVec 32
/-- A free doubleword. -/
opaque freeDWord : Nat → BitVec 64

/-- A value of FEXP2, FLOG2, FSIN or FCOS (by opcode and argument) that the bounds of the model do not decide (R197). -/
opaque freeTrans : BitVec 8 → BitVec 32 → BitVec 32

/-- SHA-384 of the stage 0 mask ROM (R372). -/
opaque romDigest : List Byte
/-- The device's certificate chain (R372). -/
opaque certChain : List Byte
/-- The device identity key's private part (R372). -/
opaque identityKey : Nat
/-- The per-signature secret of the boot and security core's signer. -/
opaque signNonce : Nat → Nat
/-- The key under which the translator cache is tagged (R373). -/
opaque cacheKey : List Byte

/-- The hashes fused in the three key slots (R371). DESIGN CHOICE, log 26. -/
opaque slotHash : Nat → List Byte
/-- The revocation fuse of a slot is blown at manufacture (R371). DESIGN CHOICE, log 26. -/
opaque slotRevoked : Nat → Bool
/-- The least security version of an image kind that is fused at manufacture (R371). DESIGN CHOICE, log 26. -/
opaque minSvn : Nat → Nat
/-- A debug unlock is fused (R372). -/
opaque debugUnlock : Bool
/-- The measurement of the fuse state, by the slots revoked and the SVN minima blown since manufacture; the manual does not give its form
(R372). -/
opaque fuseMeasurement : List Nat → List (Nat × Nat) → List Byte
/-- The measurement of the debug state where a debug unlock is fused (R372). -/
opaque debugMeasurement : List Byte
/-- What a CHALLENGE with a nonce has signed: the SPDM transcript, whose form the manual does not give (R372). -/
opaque transcript : List Byte → List Byte
/-- What a signed measurement has signed: the SPDM transcript for an index, its digest and a nonce, whose form the manual does not give
(R372). -/
opaque measureTranscript : Nat → List Byte → List Byte → List Byte
/-- The 240 payload bytes of a flit, whose layout the manual does not give (R358). DESIGN CHOICE, log 103. -/
opaque freePayload : Nat → BitVec 1920

end Sys2Proof.Config
end

