-- ==== Sys2Proof/Machine/Store.lean ====
section
/-! DEFINITION. Maps as lists of keys and values, and memory as a sorted list of cells in one canonical form. -/

namespace Sys2Proof.Machine

/-- A finite map: the first pair of a key counts. -/
abbrev Map (κ α : Type) := List (κ × α)

/-- A list with one element put before the first that it comes before. -/
def insertBy {α : Type} (le : α → α → Bool) (x : α) : List α → List α
  | [] => [x]
  | y :: ys => if le x y then x :: y :: ys else y :: insertBy le x ys

/-- A list in order; elements that come before each other keep their order. -/
def sortBy {α : Type} (le : α → α → Bool) : List α → List α
  | [] => []
  | x :: xs => insertBy le x (sortBy le xs)

namespace Map
variable {κ α : Type} [DecidableEq κ]

/-- The value of a key, if it has one. -/
def find? (m : Map κ α) (k : κ) : Option α :=
  match m with
  | [] => none
  | (k', v) :: m' => if k' = k then some v else find? m' k

/-- The value of a key, `d` where it has none. -/
def get (m : Map κ α) (k : κ) (d : α) : α := (find? m k).getD d

/-- The map without a key. -/
def erase (m : Map κ α) (k : κ) : Map κ α := m.filter (fun p => ! decide (p.1 = k))

/-- The map with a key's value set. -/
def set (m : Map κ α) (k : κ) (v : α) : Map κ α := (k, v) :: erase m k

/-- The map with a key's value changed. -/
def modify (m : Map κ α) (k : κ) (d : α) (f : α → α) : Map κ α := set m k (f (get m k d))

end Map

/-- Memory: cells with strictly rising addresses, none holding 0, which is what an unlisted address reads as (log 2). -/
structure Memory where
  cells : List Host.Cell := []
  deriving DecidableEq, Repr, Inhabited

namespace Memory

/-- The byte at an address in a list of cells. -/
def readCells : List Host.Cell → Nat → Byte
  | [], _ => 0
  | (b, v) :: cs, a => if b = a then v else readCells cs a

/-- One byte. -/
def read (m : Memory) (a : Nat) : Byte := readCells m.cells a

/-- A cell put in its place, after the cells of lower addresses. -/
def insertCell (c : Host.Cell) : List Host.Cell → List Host.Cell
  | [] => [c]
  | d :: cs => if d.1 < c.1 then d :: insertCell c cs else c :: d :: cs

/-- The memory with one byte written; a byte of 0 removes its cell. -/
def write (m : Memory) (a : Nat) (v : Byte) : Memory :=
  let cs := m.cells.filter (fun c => ! decide (c.1 = a))
  ⟨if v = 0 then cs else insertCell (a, v) cs⟩

/-- The `n` bytes from an address upward. -/
def readN (m : Memory) (a : Nat) : Nat → List Byte
  | 0 => []
  | n + 1 => m.read a :: readN m (a + 1) n

/-- The memory with bytes written from an address upward. -/
def writeN (m : Memory) (a : Nat) : List Byte → Memory
  | [] => m
  | b :: bs => writeN (m.write a b) (a + 1) bs

/-- The memory with a list of cells written in order. -/
def writeAll (m : Memory) : List Host.Cell → Memory
  | [] => m
  | (a, v) :: cs => writeAll (m.write a v) cs

/-- The canonical form: addresses strictly rise and no cell holds 0. -/
def sortedCells : List Host.Cell → Bool
  | [] => true
  | [c] => c.2 != 0
  | c :: d :: cs => c.2 != 0 && decide (c.1 < d.1) && sortedCells (d :: cs)

/-- The canonical form holds. -/
def wf (m : Memory) : Bool := sortedCells m.cells

end Memory

end Sys2Proof.Machine
end

