-- ==== Sys2Proof/Fields.lean ====
section
/-! DEFINITION. The fields of the instruction words (spec/06_formats.md, spec/07_opcode_map.md) and the data that
the device's event rows carry (spec/95_what_each_step_holds.md): what a word or an outside agent hands to a step. -/

namespace Sys2Proof

/-- RM, the rounding modifier (R139). -/
inductive Round where
  | rn  -- nearest, ties to even
  | rz  -- toward zero
  | ru  -- toward plus infinity
  | rd  -- toward minus infinity
  | rna  -- nearest, ties away from zero
  deriving DecidableEq, Repr, Inhabited

/-- The code of a `Round`. -/
def Round.bits : Round → BitVec 3
  | .rn => 0
  | .rz => 1
  | .ru => 2
  | .rd => 3
  | .rna => 4

/-- The `Round` a code names; the other codes are reserved. -/
def Round.of (c : BitVec 3) : Option Round :=
  match c.toNat with
  | 0 => some .rn
  | 1 => some .rz
  | 2 => some .ru
  | 3 => some .rd
  | 4 => some .rna
  | _ => none

/-- COND, the comparison field (R139). -/
inductive Cond where
  | eq
  | ne
  | lt
  | le
  | gt
  | ge
  | ltu  -- unsigned
  | leu  -- unsigned
  | gtu  -- unsigned
  | geu  -- unsigned
  | un  -- unordered
  | ord  -- ordered
  deriving DecidableEq, Repr, Inhabited

/-- The code of a `Cond`. -/
def Cond.bits : Cond → BitVec 4
  | .eq => 0
  | .ne => 1
  | .lt => 2
  | .le => 3
  | .gt => 4
  | .ge => 5
  | .ltu => 6
  | .leu => 7
  | .gtu => 8
  | .geu => 9
  | .un => 10
  | .ord => 11

/-- The `Cond` a code names; the other codes are reserved. -/
def Cond.of (c : BitVec 4) : Option Cond :=
  match c.toNat with
  | 0 => some .eq
  | 1 => some .ne
  | 2 => some .lt
  | 3 => some .le
  | 4 => some .gt
  | 5 => some .ge
  | 6 => some .ltu
  | 7 => some .leu
  | 8 => some .gtu
  | 9 => some .geu
  | 10 => some .un
  | 11 => some .ord
  | _ => none

/-- OP, the operation field of ATOM, RED, SCATTER add, GREDUX, SCAN and HRET (R139). -/
inductive AluOp where
  | add
  | fadd
  | min
  | max
  | minu
  | maxu
  | fmin
  | fmax
  | and
  | or
  | xor
  | xchg
  | cas
  | dadd
  deriving DecidableEq, Repr, Inhabited

/-- The code of a `AluOp`. -/
def AluOp.bits : AluOp → BitVec 5
  | .add => 0
  | .fadd => 1
  | .min => 2
  | .max => 3
  | .minu => 4
  | .maxu => 5
  | .fmin => 6
  | .fmax => 7
  | .and => 8
  | .or => 9
  | .xor => 10
  | .xchg => 11
  | .cas => 12
  | .dadd => 13

/-- The `AluOp` a code names; the other codes are reserved. -/
def AluOp.of (c : BitVec 5) : Option AluOp :=
  match c.toNat with
  | 0 => some .add
  | 1 => some .fadd
  | 2 => some .min
  | 3 => some .max
  | 4 => some .minu
  | 5 => some .maxu
  | 6 => some .fmin
  | 7 => some .fmax
  | 8 => some .and
  | 9 => some .or
  | 10 => some .xor
  | 11 => some .xchg
  | 12 => some .cas
  | 13 => some .dadd
  | _ => none

/-- The space field of the M format (R121). -/
inductive Space where
  | gl  -- global
  | sc  -- scratch
  | sk  -- stack
  | ob  -- operand buffer
  deriving DecidableEq, Repr, Inhabited

/-- The code of a `Space`. -/
def Space.bits : Space → BitVec 2
  | .gl => 0
  | .sc => 1
  | .sk => 2
  | .ob => 3

/-- The `Space` a code names; the other codes are reserved. -/
def Space.of (c : BitVec 2) : Option Space :=
  match c.toNat with
  | 0 => some .gl
  | 1 => some .sc
  | 2 => some .sk
  | 3 => some .ob
  | _ => none

/-- The width field of the M format (R121). -/
inductive Width where
  | b1
  | b2
  | b4
  | b8
  | b16
  deriving DecidableEq, Repr, Inhabited

/-- The code of a `Width`. -/
def Width.bits : Width → BitVec 3
  | .b1 => 0
  | .b2 => 1
  | .b4 => 2
  | .b8 => 3
  | .b16 => 4

/-- The `Width` a code names; the other codes are reserved. -/
def Width.of (c : BitVec 3) : Option Width :=
  match c.toNat with
  | 0 => some .b1
  | 1 => some .b2
  | 2 => some .b4
  | 3 => some .b8
  | 4 => some .b16
  | _ => none

/-- The hint field (R121, R213). -/
inductive Hint where
  | none
  | ef  -- evict-first
  | el  -- evict-last
  | sm  -- stream
  deriving DecidableEq, Repr, Inhabited

/-- The code of a `Hint`. -/
def Hint.bits : Hint → BitVec 2
  | .none => 0
  | .ef => 1
  | .el => 2
  | .sm => 3

/-- The `Hint` a code names; the other codes are reserved. -/
def Hint.of (c : BitVec 2) : Option Hint :=
  match c.toNat with
  | 0 => some .none
  | 1 => some .ef
  | 2 => some .el
  | 3 => some .sm
  | _ => none

/-- TYPE, the packed type (R139), and the 16-bit type of PACKH and UNPKH (R200). -/
inductive PkType where
  | bf16
  | fp16
  deriving DecidableEq, Repr, Inhabited

/-- The code of a `PkType`. -/
def PkType.bits : PkType → BitVec 1
  | .bf16 => 0
  | .fp16 => 1

/-- The `PkType` a code names; the other codes are reserved. -/
def PkType.of (c : BitVec 1) : Option PkType :=
  match c.toNat with
  | 0 => some .bf16
  | 1 => some .fp16
  | _ => none

/-- FT, a float type of the conversions (R200). -/
inductive FType where
  | f32
  | f64
  | f16
  | bf16
  deriving DecidableEq, Repr, Inhabited

/-- The code of a `FType`. -/
def FType.bits : FType → BitVec 2
  | .f32 => 0
  | .f64 => 1
  | .f16 => 2
  | .bf16 => 3

/-- The `FType` a code names; the other codes are reserved. -/
def FType.of (c : BitVec 2) : Option FType :=
  match c.toNat with
  | 0 => some .f32
  | 1 => some .f64
  | 2 => some .f16
  | 3 => some .bf16
  | _ => none

/-- An integer width of the conversions (R200). -/
inductive IWidth where
  | w32
  | w64
  | w16
  | w8
  deriving DecidableEq, Repr, Inhabited

/-- The code of a `IWidth`. -/
def IWidth.bits : IWidth → BitVec 2
  | .w32 => 0
  | .w64 => 1
  | .w16 => 2
  | .w8 => 3

/-- The `IWidth` a code names; the other codes are reserved. -/
def IWidth.of (c : BitVec 2) : Option IWidth :=
  match c.toNat with
  | 0 => some .w32
  | 1 => some .w64
  | 2 => some .w16
  | 3 => some .w8
  | _ => none

/-- The mode of XLANE (R178). -/
inductive XMode where
  | src  -- .FROM
  | below
  | above
  | mirror
  deriving DecidableEq, Repr, Inhabited

/-- The code of a `XMode`. -/
def XMode.bits : XMode → BitVec 2
  | .src => 0
  | .below => 1
  | .above => 2
  | .mirror => 3

/-- The `XMode` a code names; the other codes are reserved. -/
def XMode.of (c : BitVec 2) : Option XMode :=
  match c.toNat with
  | 0 => some .src
  | 1 => some .below
  | 2 => some .above
  | 3 => some .mirror
  | _ => none

/-- The mode of VOTE (R178). -/
inductive VMode where
  | all
  | any
  | mask
  | same
  deriving DecidableEq, Repr, Inhabited

/-- The code of a `VMode`. -/
def VMode.bits : VMode → BitVec 2
  | .all => 0
  | .any => 1
  | .mask => 2
  | .same => 3

/-- The `VMode` a code names; the other codes are reserved. -/
def VMode.of (c : BitVec 2) : Option VMode :=
  match c.toNat with
  | 0 => some .all
  | 1 => some .any
  | 2 => some .mask
  | 3 => some .same
  | _ => none

/-- An access path (R75, R226). -/
inductive APath where
  | ls  -- load and store
  | cp  -- copy engine
  | mx  -- matrix engine
  | lk  -- link engine
  deriving DecidableEq, Repr, Inhabited

/-- The code of a `APath`. -/
def APath.bits : APath → BitVec 2
  | .ls => 0
  | .cp => 1
  | .mx => 2
  | .lk => 3

/-- The `APath` a code names; the other codes are reserved. -/
def APath.of (c : BitVec 2) : Option APath :=
  match c.toNat with
  | 0 => some .ls
  | 1 => some .cp
  | 2 => some .mx
  | 3 => some .lk
  | _ => none

/-- A space field that accepts global and scratch only (R220, R228, R248). -/
inductive GS where
  | gl
  | sc
  deriving DecidableEq, Repr, Inhabited

/-- The code of a `GS`. -/
def GS.bits : GS → BitVec 2
  | .gl => 0
  | .sc => 1

/-- The `GS` a code names; the other codes are reserved. -/
def GS.of (c : BitVec 2) : Option GS :=
  match c.toNat with
  | 0 => some .gl
  | 1 => some .sc
  | _ => none

/-- cw, the coordinate width of a fibre (R237). -/
inductive CWidth where
  | c2
  | c4
  deriving DecidableEq, Repr, Inhabited

/-- The code of a `CWidth`. -/
def CWidth.bits : CWidth → BitVec 2
  | .c2 => 0
  | .c4 => 1

/-- The `CWidth` a code names; the other codes are reserved. -/
def CWidth.of (c : BitVec 2) : Option CWidth :=
  match c.toNat with
  | 0 => some .c2
  | 1 => some .c4
  | _ => none

/-- vw, the value width of a fibre (R237). -/
inductive VWidth where
  | v2
  | v4
  | v8
  deriving DecidableEq, Repr, Inhabited

/-- The code of a `VWidth`. -/
def VWidth.bits : VWidth → BitVec 2
  | .v2 => 0
  | .v4 => 1
  | .v8 => 2

/-- The `VWidth` a code names; the other codes are reserved. -/
def VWidth.of (c : BitVec 2) : Option VWidth :=
  match c.toNat with
  | 0 => some .v2
  | 1 => some .v4
  | 2 => some .v8
  | _ => none

/-- p of MGATH (R248). -/
inductive RowPart where
  | p0
  | p1
  | p2
  deriving DecidableEq, Repr, Inhabited

/-- The code of a `RowPart`. -/
def RowPart.bits : RowPart → BitVec 2
  | .p0 => 0
  | .p1 => 1
  | .p2 => 2

/-- The `RowPart` a code names; the other codes are reserved. -/
def RowPart.of (c : BitVec 2) : Option RowPart :=
  match c.toNat with
  | 0 => some .p0
  | 1 => some .p1
  | 2 => some .p2
  | _ => none

/-- The issue-priority class of a gang (R163). -/
inductive Role where
  | cm  -- computer
  | st  -- storer
  | ld  -- loader
  deriving DecidableEq, Repr, Inhabited

/-- The code of a `Role`. -/
def Role.bits : Role → BitVec 2
  | .cm => 0
  | .st => 1
  | .ld => 2

/-- The `Role` a code names; the other codes are reserved. -/
def Role.of (c : BitVec 2) : Option Role :=
  match c.toNat with
  | 0 => some .cm
  | 1 => some .st
  | 2 => some .ld
  | _ => none

/-- A special register of GETS and SETS (R161). -/
inductive SReg where
  | lane
  | slice
  | gang
  | unitx
  | unity
  | unitz
  | nunitx
  | nunity
  | nunitz
  | core
  | cluster
  | die
  | clock  -- 64 bits
  | launchid
  | helpidx
  | pairside
  | mark
  | evtag
  deriving DecidableEq, Repr, Inhabited

/-- The code of a `SReg`. -/
def SReg.bits : SReg → BitVec 8
  | .lane => 0
  | .slice => 1
  | .gang => 2
  | .unitx => 3
  | .unity => 4
  | .unitz => 5
  | .nunitx => 6
  | .nunity => 7
  | .nunitz => 8
  | .core => 9
  | .cluster => 10
  | .die => 11
  | .clock => 12
  | .launchid => 13
  | .helpidx => 14
  | .pairside => 15
  | .mark => 16
  | .evtag => 17

/-- The `SReg` a code names; the other codes are reserved. -/
def SReg.of (c : BitVec 8) : Option SReg :=
  match c.toNat with
  | 0 => some .lane
  | 1 => some .slice
  | 2 => some .gang
  | 3 => some .unitx
  | 4 => some .unity
  | 5 => some .unitz
  | 6 => some .nunitx
  | 7 => some .nunity
  | 8 => some .nunitz
  | 9 => some .core
  | 10 => some .cluster
  | 11 => some .die
  | 12 => some .clock
  | 13 => some .launchid
  | 14 => some .helpidx
  | 15 => some .pairside
  | 16 => some .mark
  | 17 => some .evtag
  | _ => none
/-- What an 8-bit operand field names (R113). -/
inductive Opnd where
  | slot (n : BitVec 5)
  | echo (n : BitVec 2)
  | zero
  | const (k : BitVec 4)
  | gang (n : BitVec 6)
  deriving DecidableEq, Repr, Inhabited

/-- The operand code of an operand (R113). -/
def Opnd.code : Opnd → BitVec 8
  | .slot n => n.setWidth 8
  | .echo n => 0x20 + n.setWidth 8
  | .zero => 0x24
  | .const k => 0x30 + k.setWidth 8
  | .gang n => 0x40 + n.setWidth 8

/-- The operand a code names; 0x25 to 0x2F and 0x80 upward are reserved (R113). -/
def Opnd.of (c : BitVec 8) : Option Opnd :=
  if c.toNat < 0x20 then some (.slot (c.setWidth 5))
  else if c.toNat < 0x24 then some (.echo ((c - 0x20).setWidth 2))
  else if c.toNat = 0x24 then some .zero
  else if c.toNat < 0x30 then none
  else if c.toNat < 0x40 then some (.const ((c - 0x30).setWidth 4))
  else if c.toNat < 0x80 then some (.gang ((c - 0x40).setWidth 6))
  else none

/-- The size of an operand: one register, a pair, a quad (R116). -/
inductive Size where
  | w32
  | w64
  | w128
  deriving DecidableEq, Repr, Inhabited

/-- A source position of an instruction accepts this operand (R113, R116, R118). -/
def Opnd.okSrc (u : Bool) (sz : Size) : Opnd → Bool
  | .zero => true
  | .const _ => true
  | .slot n => !u && (match sz with | .w32 => true | .w64 => n.toNat % 2 == 0 | .w128 => n.toNat % 4 == 0)
  | .gang n => match sz with | .w32 => true | .w64 => n.toNat % 2 == 0 | .w128 => n.toNat % 4 == 0
  | .echo n => !u && (match sz with | .w32 => true | .w64 => n.toNat == 0 | .w128 => false)

/-- A destination position accepts this operand: a slot without G, a gang register with it, and ZERO (R113, R116, R118). -/
def Opnd.okDst (u : Bool) (sz : Size) : Opnd → Bool
  | .zero => true
  | .const _ => false
  | .echo _ => false
  | .slot n => !u && (match sz with | .w32 => true | .w64 => n.toNat % 2 == 0 | .w128 => n.toNat % 4 == 0)
  | .gang n => u && (match sz with | .w32 => true | .w64 => n.toNat % 2 == 0 | .w128 => n.toNat % 4 == 0)

/-- The operand names an even pair, S or G (R122, R228). -/
def Opnd.okPair (u : Bool) : Opnd → Bool
  | .slot n => !u && n.toNat % 2 == 0
  | .gang n => n.toNat % 2 == 0
  | _ => false

/-- A memory base: an even pair in the global and stack spaces, any 32-bit source in the others (R118, R122). -/
def Opnd.okBase (u : Bool) (sp : Space) (o : Opnd) : Bool :=
  match sp with
  | .gl => o.okPair u
  | .sk => o.okPair u
  | .sc => o.okSrc u .w32
  | .ob => o.okSrc u .w32

/-- An address in a global or scratch space: an even pair in the global space, any 32-bit source in the scratch space (R122, R228, R248). -/
def Opnd.okAddr (u : Bool) (sp : GS) (o : Opnd) : Bool :=
  match sp with
  | .gl => o.okPair u
  | .sc => o.okSrc u .w32

/-- A gang-register result of an instruction without uniform form: a G code or ZERO (R248, R271). -/
def Opnd.okStatus : Opnd → Bool
  | .gang _ => true
  | .zero => true
  | _ => false

/-- A destination of JOIN: an S or G code, or ZERO (R271). -/
def Opnd.okJoin : Opnd → Bool
  | .slot _ => true
  | .gang _ => true
  | .zero => true
  | _ => false

/-- A count operand of BAR, BARL and ARRIVE: a G code, a constant or ZERO (R142). -/
def Opnd.okCount : Opnd → Bool
  | .gang _ => true
  | .const _ => true
  | .zero => true
  | _ => false

/-- The data of RELST: an even pair, a constant or ZERO (R224, R118). -/
def Opnd.okRel (u : Bool) : Opnd → Bool
  | .slot n => !u && n.toNat % 2 == 0
  | .gang n => n.toNat % 2 == 0
  | .const _ => true
  | .zero => true
  | .echo _ => false

/-- Bytes of an element (R121). -/
def Width.bytes : Width → Nat
  | .b1 => 1
  | .b2 => 2
  | .b4 => 4
  | .b8 => 8
  | .b16 => 16

/-- The operand size that a memory data operand of this width has (R116, R122). -/
def Width.size : Width → Size
  | .b8 => .w64
  | .b16 => .w128
  | _ => .w32

/-- Bits of an integer type (R200). -/
def IWidth.n : IWidth → Nat
  | .w32 => 32
  | .w64 => 64
  | .w16 => 16
  | .w8 => 8

/-- The operand size of an integer type (R201). -/
def IWidth.size : IWidth → Size
  | .w64 => .w64
  | _ => .w32

/-- The operand size of a float type (R187). -/
def FType.size : FType → Size
  | .f64 => .w64
  | _ => .w32

/-- The size of an operand that a `.D` modifier doubles (R168). -/
def dblSize (d : Bool) : Size := if d then .w64 else .w32

/-- The operand size of GREDUX and SCAN: a pair with `.DADD` (R178). -/
def AluOp.size : AluOp → Size
  | .dadd => .w64
  | _ => .w32

/-- ICMP accepts this comparison (R172). -/
def Cond.isInt : Cond → Bool
  | .un => false
  | .ord => false
  | _ => true

/-- FCMP and DCMP accept this comparison (R192). -/
def Cond.isFloat : Cond → Bool
  | .ltu => false
  | .leu => false
  | .gtu => false
  | .geu => false
  | _ => true

/-- RED, GREDUX and SCAN accept this operation (R139). -/
def AluOp.isRed : AluOp → Bool
  | .xchg => false
  | .cas => false
  | _ => true

/-- The add form of SCATTER accepts this operation (R133). -/
def AluOp.isAdd : AluOp → Bool
  | .add => true
  | .fadd => true
  | .dadd => true
  | _ => false

/-- HRET accepts this operation: codes 00000 to 01010 (R139). -/
def AluOp.isHret : AluOp → Bool
  | .xchg => false
  | .cas => false
  | .dadd => false
  | _ => true

/-- The operation accepts this width (R221). -/
def AluOp.okWidth (op : AluOp) (w : Width) : Bool :=
  match op with
  | .fadd => w == .b4
  | .fmin => w == .b4
  | .fmax => w == .b4
  | .dadd => w == .b8
  | _ => w == .b4 || w == .b8

/-- The spaces that the L1 caches, and so accept a hint: global and stack (R121, R218). -/
def Space.cached : Space → Bool
  | .gl => true
  | .sk => true
  | _ => false

/-- The space of a two-space field. -/
def GS.space : GS → Space
  | .gl => .gl
  | .sc => .sc

/-- GETS has a uniform form for this register (R161). -/
def SReg.uniform : SReg → Bool
  | .lane => false
  | .slice => false
  | .helpidx => false
  | _ => true

/-- SETS writes this register (R161). -/
def SReg.writable : SReg → Bool
  | .mark => true
  | .evtag => true
  | _ => false

/-- The size of a special register (R161). -/
def SReg.size : SReg → Size
  | .clock => .w64
  | _ => .w32

/-! ### What outside agents hand to the device's events -/

/-- Which lane context a thread is: a slice of a gang of a unit, on its own counter or its helper context (R9, R268). -/
structure ThreadId where
  u : Nat
  g : Nat
  j : Nat
  h : Bool
  deriving DecidableEq, Repr, Inhabited

/-- A 64-byte line that a monitor is armed on: a physical line of memory, or a line of a unit's scratchpad (R86, R157). -/
inductive MonLine where
  | mem (pa : Nat)
  | scr (u off : Nat)
  deriving DecidableEq, Repr, Inhabited

/-- The storage a soft error falls on (R346). -/
inductive SoftTarget where
  | mainReg (u g l n : Nat)
  | gangReg (u g n : Nat)
  | traceState (t : ThreadId)
  | l1Clean (core pa : Nat)
  | l1Written (core pa : Nat)
  | scratchWord (u off : Nat)
  | opbufGranule (cluster off : Nat)
  | accElement (core row col : Nat)
  | l2Clean (pa : Nat)
  | memSector (pa : Nat)
  | tlbEntry (core va : Nat)
  | tlbCluster (cluster va : Nat)
  | control (u : Nat)
  | schedMem (gid node : Nat)
  deriving DecidableEq, Repr, Inhabited

/-- A register that the host writes: an offset of BAR 0 of the physical function, of a context's doorbell page or fault page, or a
class quota of a die, to which the manual gives no offset (R308, R329, R330, R343, R363, R364, R375, R378). -/
inductive RegAddr where
  | pf (off : Nat)
  | doorbell (ctx off : Nat)
  | faultPage (ctx off : Nat)
  | quota (die cls : Nat)
  deriving DecidableEq, Repr, Inhabited

/-- Where a symbol of a module lies (R296, R297). -/
inductive SymPlace where
  | code (word : Nat)
  | data (off : Nat)
  | token (n : Nat)
  | extern (name : String)
  deriving DecidableEq, Repr, Inhabited

/-- The place a relocation writes (R297): a word of the code, a data word, or FUNC of a frame record (R298). -/
inductive RelocSite where
  | code (word : Nat)
  | data (off : Nat)
  | frame (record : Nat)
  deriving DecidableEq, Repr, Inhabited

/-- A relocation of Elf64_Rela form (R297). -/
structure Reloc where
  kind : Nat
  site : RelocSite
  sym : SymPlace
  addend : Int
  deriving DecidableEq, Repr, Inhabited

/-- A kernel description (R66); ranges are data offsets and byte counts. -/
structure KernelDesc where
  entry : Nat
  gangs : Nat
  slices : Nat
  pair : Bool
  regBase : Nat
  regMax : Nat
  scratch : Nat
  stack : Nat
  leases : List (Nat × Nat)
  demands : List (Nat × Nat)
  binds : List (Nat × Nat × Nat)
  deriving DecidableEq, Repr, Inhabited

/-- A section of a module file (R296): SHF_EXECINSTR, the alignment and the size in bytes. -/
structure Section where
  exec : Bool
  align : Nat
  size : Nat
  deriving DecidableEq, Repr, Inhabited

/-- A symbol of a module file (R296): its name, type and binding as ELF numbers them, and what its value names. -/
structure Symbol where
  name : String
  typ : Nat
  bind : Nat
  value : SymPlace
  deriving DecidableEq, Repr, Inhabited

/-- A module file as delivered, with the parts its ELF structure holds (R296 to R301). DEDUCED, log 23. -/
structure ModuleFile where
  file : List Byte
  sections : List Section
  symbols : List Symbol
  code : List DWord
  data : List Byte
  frames : List (BitVec 256)
  relocs : List Reloc
  kernels : List KernelDesc
  codeBase : Nat
  dataBase : Nat
  deriving DecidableEq, Repr, Inhabited

/-- A flit of a Carr link: 256 bytes, as a number (R358). DEDUCED, log 29. -/
structure Flit where
  bits : BitVec 2048
  deriving DecidableEq, Repr, Inhabited

/-- What a data flit asks of the receiving Carr agent (R366, R367); the manual gives no payload layout, so it comes as data. DEDUCED, log 29. -/
inductive RemoteOp where
  | none
  | write (pkg asid ctx va : Nat) (bytes : List (Byte × Bool))
  | read (pkg asid ctx va n : Nat)
  /-- An answer to the device's own command that the link carries: bytes that the peer has written, and bytes read in order, none for a byte
  refused (R366). -/
  | answer (n : Nat) (data : List (Option (Byte × Bool)))
  deriving DecidableEq, Repr, Inhabited

/-- An image offered at boot (R371): its 512-byte header and its body. -/
structure Image where
  header : List Byte
  body : List Byte
  deriving DecidableEq, Repr, Inhabited

/-- A GET_MEASUREMENTS request (R372): an index, and a nonce where a signed measurement is asked for. -/
structure MeasureReq where
  index : Nat
  nonce : Option (List Byte)
  deriving DecidableEq, Repr, Inhabited

/-- What a signed command blows (R371): the revocation fuse of a key slot, or the SVN minimum of an image kind. -/
inductive FuseOp where
  | revoke (slot : Nat)
  | svn (kind least : Nat)
  deriving DecidableEq, Repr, Inhabited

/-- A signed fuse command: what it blows, the bytes that are signed, the key slot, the public key and the signature. The manual does not
give its form. DESIGN CHOICE, log 26. -/
structure FuseCmd where
  op : FuseOp
  body : List Byte
  slot : Nat
  key : List Byte
  r : Nat
  s : Nat
  deriving DecidableEq, Repr, Inhabited

/-- What a boot finds (R370, R371): the copies in flash, the management firmware and the translator in each NVMe namespace, by its name,
and the signed fuse commands that stage 1 applies. -/
structure BootImages where
  copyA : Image
  copyB : Image
  store : List (List Byte × Image × Image)
  fuses : List FuseCmd
  deriving DecidableEq, Repr, Inhabited

/-- A Redfish request (R374). -/
inductive Redfish where
  | inventory
  | health
  | powerLimit (watts : Nat)
  | linkEnable (link : Nat) (on : Bool)
  | linkRetrain (link : Nat)
  | firmwareUpdate (img : Image)
  /-- The NVMe namespace that the flash configuration block names (R370). -/
  | bootNamespace (name : List Byte)
  deriving DecidableEq, Repr, Inhabited

end Sys2Proof
end

