-- ==== Sys2Proof/Syntax.lean ====
section
/-! DEFINITION. The instructions: one constructor per row of spec/opcode_table.json, in the table's order but for
three events that stand earlier. An instruction word carries operands and modifiers as decoded; an event of the device carries the data an outside agent hands over. -/

namespace Sys2Proof

/-- The rows of the opcode table. `u` is the uniform form (R118); a `k1` field holds a count less one. DEDUCED, log 29. -/
inductive Instr where
  /-- NOP (R149). -/
  | nop
  /-- TRACE (R143). -/
  | trace (stages : BitVec 6) (guards : BitVec 4)
  /-- STG (R30). -/
  | stg (d : BitVec 5) (n : BitVec 8) (k1 : BitVec 5)
  /-- WBIND (R30). -/
  | wbind (d : BitVec 5) (n : BitVec 8) (k1 : BitVec 5)
  /-- GUARD (R32). -/
  | guard (z : Bool) (g : BitVec 3) (a : Opnd)
  /-- SETTLE (R35). -/
  | settle
  /-- TEND (R146). -/
  | tend (tok : BitVec 16) (off : BitVec 32)
  /-- TENDI (R146). -/
  | tendi (tok : BitVec 16) (a : BitVec 5)
  /-- CALL (R146). -/
  | call (tok : BitVec 16) (off : BitVec 32)
  /-- CALLI (R146). -/
  | calli (tok : BitVec 16) (a : BitVec 5)
  /-- RET (R146). -/
  | ret (tok : BitVec 16)
  /-- MERGE (R45). -/
  | merge (tok : BitVec 16)
  /-- REGANG (R50). -/
  | regang
  /-- EXIT (R147). -/
  | exit
  /-- YIELD (R152). -/
  | yield
  /-- TRAP (R150). -/
  | trap (imm : BitVec 32)
  /-- BKPT (R151). -/
  | bkpt (code : BitVec 16)
  /-- IADD (R169). -/
  | iadd (u : Bool) (sat : Bool) (d : Opnd) (a : Opnd) (b : Opnd)
  /-- IADD_I (R169). -/
  | iaddI (u : Bool) (sat : Bool) (d : Opnd) (a : Opnd) (imm : BitVec 32)
  /-- ISUB (R169). -/
  | isub (u : Bool) (sat : Bool) (d : Opnd) (a : Opnd) (b : Opnd)
  /-- ISUB_I (R169). -/
  | isubI (u : Bool) (sat : Bool) (d : Opnd) (a : Opnd) (imm : BitVec 32)
  /-- IADDC (R169). -/
  | iaddc (u : Bool) (d : Opnd) (a : Opnd) (b : Opnd) (c : Opnd)
  /-- ISUBB (R169). -/
  | isubb (u : Bool) (d : Opnd) (a : Opnd) (b : Opnd) (c : Opnd)
  /-- IADD64 (R169). -/
  | iadd64 (u : Bool) (d : Opnd) (a : Opnd) (b : Opnd)
  /-- IADD64_I (R169). -/
  | iadd64I (u : Bool) (d : Opnd) (a : Opnd) (imm : BitVec 32)
  /-- ISUB64 (R169). -/
  | isub64 (u : Bool) (d : Opnd) (a : Opnd) (b : Opnd)
  /-- ISUB64_I (R169). -/
  | isub64I (u : Bool) (d : Opnd) (a : Opnd) (imm : BitVec 32)
  /-- IMUL (R170). -/
  | imul (u : Bool) (sat : Bool) (d : Opnd) (a : Opnd) (b : Opnd)
  /-- IMUL_I (R170). -/
  | imulI (u : Bool) (sat : Bool) (d : Opnd) (a : Opnd) (imm : BitVec 32)
  /-- IMULH (R170). -/
  | imulh (u : Bool) (d : Opnd) (a : Opnd) (b : Opnd)
  /-- IMULH_I (R170). -/
  | imulhI (u : Bool) (d : Opnd) (a : Opnd) (imm : BitVec 32)
  /-- IMULHU (R170). -/
  | imulhu (u : Bool) (d : Opnd) (a : Opnd) (b : Opnd)
  /-- IMULHU_I (R170). -/
  | imulhuI (u : Bool) (d : Opnd) (a : Opnd) (imm : BitVec 32)
  /-- IMAD (R170). -/
  | imad (u : Bool) (sat : Bool) (d : Opnd) (a : Opnd) (b : Opnd) (c : Opnd)
  /-- IMAD64 (R170). -/
  | imad64 (u : Bool) (zx : Bool) (d : Opnd) (a : Opnd) (b : Opnd) (c : Opnd)
  /-- DIVS (R171). -/
  | divs (u : Bool) (d : Opnd) (a : Opnd) (b : Opnd)
  /-- DIVS_I (R171). -/
  | divsI (u : Bool) (d : Opnd) (a : Opnd) (imm : BitVec 32)
  /-- DIVU (R171). -/
  | divu (u : Bool) (d : Opnd) (a : Opnd) (b : Opnd)
  /-- DIVU_I (R171). -/
  | divuI (u : Bool) (d : Opnd) (a : Opnd) (imm : BitVec 32)
  /-- REMS (R171). -/
  | rems (u : Bool) (d : Opnd) (a : Opnd) (b : Opnd)
  /-- REMS_I (R171). -/
  | remsI (u : Bool) (d : Opnd) (a : Opnd) (imm : BitVec 32)
  /-- REMU (R171). -/
  | remu (u : Bool) (d : Opnd) (a : Opnd) (b : Opnd)
  /-- REMU_I (R171). -/
  | remuI (u : Bool) (d : Opnd) (a : Opnd) (imm : BitVec 32)
  /-- IABS (R172). -/
  | iabs (u : Bool) (sat : Bool) (d : Opnd) (a : Opnd)
  /-- INEG (R172). -/
  | ineg (u : Bool) (sat : Bool) (d : Opnd) (a : Opnd)
  /-- IMIN (R172). -/
  | imin (u : Bool) (d : Opnd) (a : Opnd) (b : Opnd)
  /-- IMIN_I (R172). -/
  | iminI (u : Bool) (d : Opnd) (a : Opnd) (imm : BitVec 32)
  /-- IMAX (R172). -/
  | imax (u : Bool) (d : Opnd) (a : Opnd) (b : Opnd)
  /-- IMAX_I (R172). -/
  | imaxI (u : Bool) (d : Opnd) (a : Opnd) (imm : BitVec 32)
  /-- IMINU (R172). -/
  | iminu (u : Bool) (d : Opnd) (a : Opnd) (b : Opnd)
  /-- IMINU_I (R172). -/
  | iminuI (u : Bool) (d : Opnd) (a : Opnd) (imm : BitVec 32)
  /-- IMAXU (R172). -/
  | imaxu (u : Bool) (d : Opnd) (a : Opnd) (b : Opnd)
  /-- IMAXU_I (R172). -/
  | imaxuI (u : Bool) (d : Opnd) (a : Opnd) (imm : BitVec 32)
  /-- ISAT (R172). -/
  | isat (u : Bool) (zx : Bool) (d : Opnd) (a : Opnd) (b : Opnd)
  /-- ISAT_I (R172). -/
  | isatI (u : Bool) (zx : Bool) (d : Opnd) (a : Opnd) (imm : BitVec 32)
  /-- ICMP (R172). -/
  | icmp (u : Bool) (cond : Cond) (dbl : Bool) (d : Opnd) (a : Opnd) (b : Opnd)
  /-- ICMP_I (R172). -/
  | icmpI (u : Bool) (cond : Cond) (dbl : Bool) (d : Opnd) (a : Opnd) (imm : BitVec 32)
  /-- SEL (R172). -/
  | sel (u : Bool) (d : Opnd) (a : Opnd) (b : Opnd) (c : Opnd)
  /-- AND (R173). -/
  | and (u : Bool) (d : Opnd) (a : Opnd) (b : Opnd)
  /-- AND_I (R173). -/
  | andI (u : Bool) (d : Opnd) (a : Opnd) (imm : BitVec 32)
  /-- OR (R173). -/
  | or (u : Bool) (d : Opnd) (a : Opnd) (b : Opnd)
  /-- OR_I (R173). -/
  | orI (u : Bool) (d : Opnd) (a : Opnd) (imm : BitVec 32)
  /-- XOR (R173). -/
  | xor (u : Bool) (d : Opnd) (a : Opnd) (b : Opnd)
  /-- XOR_I (R173). -/
  | xorI (u : Bool) (d : Opnd) (a : Opnd) (imm : BitVec 32)
  /-- ANDN (R173). -/
  | andn (u : Bool) (d : Opnd) (a : Opnd) (b : Opnd)
  /-- ANDN_I (R173). -/
  | andnI (u : Bool) (d : Opnd) (a : Opnd) (imm : BitVec 32)
  /-- NOT (R173). -/
  | not (u : Bool) (d : Opnd) (a : Opnd)
  /-- SHL (R173). -/
  | shl (u : Bool) (d : Opnd) (a : Opnd) (b : Opnd)
  /-- SHL_I (R173). -/
  | shlI (u : Bool) (d : Opnd) (a : Opnd) (imm : BitVec 32)
  /-- SHR (R173). -/
  | shr (u : Bool) (d : Opnd) (a : Opnd) (b : Opnd)
  /-- SHR_I (R173). -/
  | shrI (u : Bool) (d : Opnd) (a : Opnd) (imm : BitVec 32)
  /-- SAR (R173). -/
  | sar (u : Bool) (d : Opnd) (a : Opnd) (b : Opnd)
  /-- SAR_I (R173). -/
  | sarI (u : Bool) (d : Opnd) (a : Opnd) (imm : BitVec 32)
  /-- SHF (R173). -/
  | shf (u : Bool) (left : Bool) (d : Opnd) (a : Opnd) (b : Opnd) (c : Opnd)
  /-- BFX (R174). -/
  | bfx (u : Bool) (d : Opnd) (a : Opnd) (b : Opnd) (c : Opnd)
  /-- BFXU (R174). -/
  | bfxu (u : Bool) (d : Opnd) (a : Opnd) (b : Opnd) (c : Opnd)
  /-- BFI (R174). -/
  | bfi (u : Bool) (d : Opnd) (a : Opnd) (b : Opnd) (c : Opnd)
  /-- POPC (R174). -/
  | popc (u : Bool) (d : Opnd) (a : Opnd)
  /-- CLZ (R174). -/
  | clz (u : Bool) (d : Opnd) (a : Opnd)
  /-- CTZ (R174). -/
  | ctz (u : Bool) (d : Opnd) (a : Opnd)
  /-- BREV (R174). -/
  | brev (u : Bool) (d : Opnd) (a : Opnd)
  /-- BYSEL (R175). -/
  | bysel (u : Bool) (d : Opnd) (a : Opnd) (b : Opnd) (c : Opnd)
  /-- LEA (R169). -/
  | lea (u : Bool) (k : BitVec 3) (zx : Bool) (d : Opnd) (a : Opnd) (b : Opnd)
  /-- MOVI (R176). -/
  | movi (u : Bool) (d : Opnd) (imm : BitVec 32)
  /-- MOV (R176). -/
  | mov (u : Bool) (dbl : Bool) (d : Opnd) (a : Opnd)
  /-- FADD (R194). -/
  | fadd (u : Bool) (rm : Round) (ftz : Bool) (d : Opnd) (a : Opnd) (b : Opnd)
  /-- FADD_I (R194). -/
  | faddI (u : Bool) (rm : Round) (ftz : Bool) (d : Opnd) (a : Opnd) (imm : BitVec 32)
  /-- FSUB (R194). -/
  | fsub (u : Bool) (rm : Round) (ftz : Bool) (d : Opnd) (a : Opnd) (b : Opnd)
  /-- FSUB_I (R194). -/
  | fsubI (u : Bool) (rm : Round) (ftz : Bool) (d : Opnd) (a : Opnd) (imm : BitVec 32)
  /-- FMUL (R194). -/
  | fmul (u : Bool) (rm : Round) (ftz : Bool) (d : Opnd) (a : Opnd) (b : Opnd)
  /-- FMUL_I (R194). -/
  | fmulI (u : Bool) (rm : Round) (ftz : Bool) (d : Opnd) (a : Opnd) (imm : BitVec 32)
  /-- FFMA (R194). -/
  | ffma (u : Bool) (rm : Round) (ftz : Bool) (d : Opnd) (a : Opnd) (b : Opnd) (c : Opnd)
  /-- FMIN (R195). -/
  | fmin (u : Bool) (ftz : Bool) (d : Opnd) (a : Opnd) (b : Opnd)
  /-- FMIN_I (R195). -/
  | fminI (u : Bool) (ftz : Bool) (d : Opnd) (a : Opnd) (imm : BitVec 32)
  /-- FMAX (R195). -/
  | fmax (u : Bool) (ftz : Bool) (d : Opnd) (a : Opnd) (b : Opnd)
  /-- FMAX_I (R195). -/
  | fmaxI (u : Bool) (ftz : Bool) (d : Opnd) (a : Opnd) (imm : BitVec 32)
  /-- FCMP (R196). -/
  | fcmp (u : Bool) (cond : Cond) (ftz : Bool) (d : Opnd) (a : Opnd) (b : Opnd)
  /-- FCMP_I (R196). -/
  | fcmpI (u : Bool) (cond : Cond) (ftz : Bool) (d : Opnd) (a : Opnd) (imm : BitVec 32)
  /-- FRCP (R197). -/
  | frcp (ftz : Bool) (d : Opnd) (a : Opnd)
  /-- FRSQ (R197). -/
  | frsq (ftz : Bool) (d : Opnd) (a : Opnd)
  /-- FSQRT (R197). -/
  | fsqrt (ftz : Bool) (d : Opnd) (a : Opnd)
  /-- FEXP2 (R197). -/
  | fexp2 (ftz : Bool) (d : Opnd) (a : Opnd)
  /-- FLOG2 (R197). -/
  | flog2 (ftz : Bool) (d : Opnd) (a : Opnd)
  /-- FSIN (R197). -/
  | fsin (ftz : Bool) (d : Opnd) (a : Opnd)
  /-- FCOS (R197). -/
  | fcos (ftz : Bool) (d : Opnd) (a : Opnd)
  /-- FRND (R198). -/
  | frnd (rm : Round) (ftz : Bool) (d : Opnd) (a : Opnd)
  /-- FCLASS (R199). -/
  | fclass (ftz : Bool) (d : Opnd) (a : Opnd)
  /-- PKADD (R194). -/
  | pkadd (ty : PkType) (rm : Round) (ftz : Bool) (d : Opnd) (a : Opnd) (b : Opnd)
  /-- PKADD_I (R194). -/
  | pkaddI (ty : PkType) (rm : Round) (ftz : Bool) (d : Opnd) (a : Opnd) (imm : BitVec 32)
  /-- PKMUL (R194). -/
  | pkmul (ty : PkType) (rm : Round) (ftz : Bool) (d : Opnd) (a : Opnd) (b : Opnd)
  /-- PKMUL_I (R194). -/
  | pkmulI (ty : PkType) (rm : Round) (ftz : Bool) (d : Opnd) (a : Opnd) (imm : BitVec 32)
  /-- PKFMA (R194). -/
  | pkfma (ty : PkType) (rm : Round) (ftz : Bool) (d : Opnd) (a : Opnd) (b : Opnd) (c : Opnd)
  /-- DADD (R194). -/
  | dadd (rm : Round) (ftz : Bool) (d : Opnd) (a : Opnd) (b : Opnd)
  /-- DADD_I (R194). -/
  | daddI (rm : Round) (ftz : Bool) (d : Opnd) (a : Opnd) (imm : BitVec 32)
  /-- DSUB (R194). -/
  | dsub (rm : Round) (ftz : Bool) (d : Opnd) (a : Opnd) (b : Opnd)
  /-- DSUB_I (R194). -/
  | dsubI (rm : Round) (ftz : Bool) (d : Opnd) (a : Opnd) (imm : BitVec 32)
  /-- DMUL (R194). -/
  | dmul (rm : Round) (ftz : Bool) (d : Opnd) (a : Opnd) (b : Opnd)
  /-- DMUL_I (R194). -/
  | dmulI (rm : Round) (ftz : Bool) (d : Opnd) (a : Opnd) (imm : BitVec 32)
  /-- DFMA (R194). -/
  | dfma (rm : Round) (ftz : Bool) (d : Opnd) (a : Opnd) (b : Opnd) (c : Opnd)
  /-- DMIN (R195). -/
  | dmin (ftz : Bool) (d : Opnd) (a : Opnd) (b : Opnd)
  /-- DMIN_I (R195). -/
  | dminI (ftz : Bool) (d : Opnd) (a : Opnd) (imm : BitVec 32)
  /-- DMAX (R195). -/
  | dmax (ftz : Bool) (d : Opnd) (a : Opnd) (b : Opnd)
  /-- DMAX_I (R195). -/
  | dmaxI (ftz : Bool) (d : Opnd) (a : Opnd) (imm : BitVec 32)
  /-- DCMP (R196). -/
  | dcmp (cond : Cond) (ftz : Bool) (d : Opnd) (a : Opnd) (b : Opnd)
  /-- DCMP_I (R196). -/
  | dcmpI (cond : Cond) (ftz : Bool) (d : Opnd) (a : Opnd) (imm : BitVec 32)
  /-- DRCP (R197). -/
  | drcp (ftz : Bool) (d : Opnd) (a : Opnd)
  /-- DRSQ (R197). -/
  | drsq (ftz : Bool) (d : Opnd) (a : Opnd)
  /-- CVTIF (R202). -/
  | cvtif (u : Bool) (ft : FType) (uns : Bool) (iw : IWidth) (rm : Round) (d : Opnd) (a : Opnd)
  /-- CVTFI (R203). -/
  | cvtfi (u : Bool) (uns : Bool) (iw : IWidth) (ft : FType) (rm : Round) (ftz : Bool) (d : Opnd) (a : Opnd)
  /-- CVTFF (R204). -/
  | cvtff (ftd : FType) (fta : FType) (rm : Round) (ftz : Bool) (d : Opnd) (a : Opnd)
  /-- CVTII (R205). -/
  | cvtii (u : Bool) (wd : IWidth) (ud : Bool) (wa : IWidth) (ua : Bool) (sat : Bool) (d : Opnd) (a : Opnd)
  /-- PACKH (R206). -/
  | packh (ty : PkType) (rm : Round) (ftz : Bool) (d : Opnd) (a : Opnd) (b : Opnd)
  /-- UNPKH (R206). -/
  | unpkh (ty : PkType) (hi : Bool) (d : Opnd) (a : Opnd)
  /-- XLANE (R179). -/
  | xlane (mode : XMode) (dbl : Bool) (d : Opnd) (a : Opnd) (b : Opnd)
  /-- VOTE (R180). -/
  | vote (mode : VMode) (d : Opnd) (a : Opnd)
  /-- GREDUX (R181). -/
  | gredux (op : AluOp) (d : Opnd) (a : Opnd)
  /-- SCAN (R183). -/
  | scan (op : AluOp) (ex : Bool) (seg : Bool) (d : Opnd) (a : Opnd) (b : Opnd)
  /-- LD (R216). -/
  | ld (sp : Space) (w : Width) (hint : Hint) (off : BitVec 24) (d : Opnd) (a : Opnd)
  /-- ST (R216). -/
  | st (sp : Space) (w : Width) (hint : Hint) (off : BitVec 24) (s : Opnd) (a : Opnd)
  /-- GATHER (R216). -/
  | gather (sp : Space) (w : Width) (hint : Hint) (off : BitVec 24) (d : Opnd) (a : Opnd) (i : Opnd)
  /-- SCATTER (R216). -/
  | scatter (sp : Space) (w : Width) (hint : Hint) (off : BitVec 24) (s : Opnd) (a : Opnd) (i : Opnd)
  /-- SCATTER_ADD (R222). -/
  | scatterAdd (sp : GS) (w : Width) (op : AluOp) (hint : Hint) (a : Opnd) (i : Opnd) (c : Opnd)
  /-- ATOM (R222). -/
  | atom (u : Bool) (sp : GS) (w : Width) (op : AluOp) (hint : Hint) (d : Opnd) (a : Opnd) (b : Opnd) (c : Opnd)
  /-- RED (R222). -/
  | red (u : Bool) (sp : GS) (w : Width) (op : AluOp) (hint : Hint) (a : Opnd) (b : Opnd)
  /-- ACQ (R224). -/
  | acq (u : Bool) (sp : GS) (hint : Hint) (off : BitVec 24) (a : Opnd)
  /-- REL (R224). -/
  | rel (u : Bool) (sp : GS) (hint : Hint) (off : BitVec 24) (a : Opnd)
  /-- ACQLD (R224). -/
  | acqld (u : Bool) (sp : GS) (hint : Hint) (off : BitVec 24) (d : Opnd) (a : Opnd)
  /-- RELST (R224). -/
  | relst (u : Bool) (sp : GS) (hint : Hint) (off : BitVec 24) (s : Opnd) (a : Opnd)
  /-- FENCE (R225). -/
  | fence
  /-- XFENCE (R76). -/
  | xfence (p : APath) (q : APath)
  /-- BIND (R227). -/
  | bind (d : Opnd) (a : Opnd) (b : Opnd) (c : Opnd)
  /-- UNBIND (R227). -/
  | unbind (d : Opnd) (a : Opnd)
  /-- PREF (R217). -/
  | pref (w : Width) (hint : Hint) (off : BitVec 24) (a : Opnd) (i : Opnd)
  /-- SPILL (R219). -/
  | spill (sp : Space) (hint : Hint) (off : BitVec 24) (n : BitVec 8) (k1 : BitVec 5) (a : Opnd)
  /-- FILL (R219). -/
  | fill (sp : Space) (hint : Hint) (off : BitVec 24) (n : BitVec 8) (k1 : BitVec 5) (a : Opnd)
  /-- CPY (R229). -/
  | cpy (tag : BitVec 3) (lk : Bool) (n1 : BitVec 5) (dsp : GS) (ssp : GS) (hint : Hint) (d : Opnd) (a : Opnd) (b : Opnd)
  /-- CPY2D (R230). -/
  | cpy2d (tag : BitVec 3) (lk : Bool) (dsp : GS) (ssp : GS) (hint : Hint) (d : Opnd) (a : Opnd) (b : Opnd) (ga : BitVec 6) (gb : BitVec 6) (gc : BitVec 6)
  /-- CSEAL (R232). -/
  | cseal (tag : BitVec 3) (d : BitVec 6)
  /-- CDEC (R231). -/
  | cdec (tag : BitVec 3) (hint : Hint) (d : Opnd) (a : Opnd) (ga : BitVec 6) (gb : BitVec 6)
  /-- FOPEN (R238). -/
  | fopen (k : BitVec 3) (cw : CWidth) (vw : VWidth) (a : Opnd) (b : Opnd) (c : Opnd)
  /-- FNEXT (R238). -/
  | fnext (k : BitVec 3) (dbl : Bool) (hint : Hint) (d : Opnd) (c : Opnd)
  /-- FTEST (R238). -/
  | ftest (k : BitVec 3) (d : Opnd)
  /-- FCLOSE (R238). -/
  | fclose (k : BitVec 3)
  /-- ORSV (R246). -/
  | orsv (d : Opnd) (ga : BitVec 6)
  /-- ORLS (R246). -/
  | orls (d : Opnd) (ga : BitVec 6)
  /-- MGATH (R250). -/
  | mgath (p : RowPart) (a : Opnd)
  /-- MMA (R251). -/
  | mma (spf : Bool) (co : Bool) (x : Opnd) (b : Opnd) (o : Opnd) (ga : BitVec 6) (gb : BitVec 6) (gc : BitVec 6)
  /-- MMAP (R255). -/
  | mmap (spf : Bool) (t : BitVec 8) (x : Opnd) (b : Opnd) (o : Opnd) (ga : BitVec 6) (gb : BitVec 6) (gc : BitVec 6)
  /-- GUIDE (R257). -/
  | guide (d : Opnd) (o : Opnd) (ga : BitVec 6) (gb : BitVec 6) (gc : BitVec 6)
  /-- MZERO (R258). -/
  | mzero (o : Opnd) (ga : BitVec 6) (gb : BitVec 6)
  /-- MST (R258). -/
  | mst (sp : GS) (bf : Bool) (hint : Hint) (a : Opnd) (o : Opnd) (ga : BitVec 6) (gb : BitVec 6) (gc : BitVec 6)
  /-- MLD (R258). -/
  | mld (sp : GS) (bf : Bool) (hint : Hint) (a : Opnd) (o : Opnd) (ga : BitVec 6) (gb : BitVec 6) (gc : BitVec 6)
  /-- MSPSEL (R259). -/
  | mspsel (d : Opnd) (a : Opnd) (x : Opnd) (ga : BitVec 6) (gb : BitVec 6)
  /-- SPST (R260). -/
  | spst (sp : GS) (hint : Hint) (a : Opnd) (o : Opnd) (ga : BitVec 6) (gb : BitVec 6)
  /-- MCLAIM (R265). -/
  | mclaim
  /-- MPASS (R265). -/
  | mpass (ga : BitVec 6)
  /-- RECRUIT (R272). -/
  | recruit (d : Opnd) (w : BitVec 5) (k1 : BitVec 3) (n : BitVec 7) (off : BitVec 32)
  /-- HREAD (R274). -/
  | hread (d : Opnd) (i : BitVec 7)
  /-- HRET (R274). -/
  | hret (op : AluOp) (a : Opnd)
  /-- HEND (R274). -/
  | hend
  /-- JOIN (R275). -/
  | join (nt : Bool) (d : Opnd) (m : Opnd) (c : Opnd)
  /-- DISMISS (R276). -/
  | dismiss
  /-- BAR (R153). -/
  | bar (b : BitVec 4) (a : Opnd)
  /-- BARL (R155). -/
  | barl (d : Opnd) (b : BitVec 4) (a : Opnd)
  /-- ARRIVE (R153). -/
  | arrive (b : BitVec 4) (a : Opnd)
  /-- MON (R157). -/
  | mon (sp : GS) (off : BitVec 24) (a : Opnd)
  /-- WAITMON (R158). -/
  | waitmon (d : Opnd)
  /-- QPUSH (R160). -/
  | qpush (u : Bool) (q : BitVec 6) (d : Opnd) (a : Opnd)
  /-- QPOP (R160). -/
  | qpop (u : Bool) (q : BitVec 6) (d : Opnd) (s : Opnd)
  /-- QLEN (R160). -/
  | qlen (u : Bool) (q : BitVec 6) (d : Opnd)
  /-- GETS (R161). -/
  | gets (u : Bool) (r : SReg) (d : Opnd)
  /-- SETS (R162). -/
  | sets (r : SReg) (a : Opnd)
  /-- ROLE (R163). -/
  | role (r : Role)
  /-- GROW (R54). -/
  | grow (n8 : BitVec 6) (d : Opnd)
  /-- SHRINK (R55). -/
  | shrink (n8 : BitVec 6)
  /-- GUARDED_COMMAND_RESOLUTION (R51). -/
  | guardedCommandResolution (id : Nat)
  /-- COPY_COMMAND_COMPLETE (R229). -/
  | copyCommandComplete (id : Nat)
  /-- MATRIX_ENGINE_GRANT (R264). -/
  | matrixEngineGrant (cluster : Nat)
  /-- MATRIX_COMMAND_COMPLETE (R262). -/
  | matrixCommandComplete (id : Nat)
  /-- PAIR_WAIT_EXPIRY (R256). -/
  | pairWaitExpiry (id : Nat)
  /-- COOPERATIVE_MATCH_TIMEOUT (R254). -/
  | cooperativeMatchTimeout (id : Nat)
  /-- GROW_GRANT (R56). -/
  | growGrant (core : Nat)
  /-- GROW_STUCK_DENIAL (R57). -/
  | growStuckDenial (core : Nat)
  /-- MONITOR_EVICTION (R86). -/
  | monitorEviction (core : Nat) (line : MonLine)
  /-- WAITMON_TIMER_EXPIRY (R86). -/
  | waitmonTimerExpiry (t : ThreadId)
  /-- SLUICE_RELEASE (R92). -/
  | sluiceRelease (u : Nat)
  /-- WATCHDOG_EXPIRY (R326). -/
  | watchdogExpiry (u : Nat)
  /-- TRIGGER (R311). -/
  | trigger (ctx : Nat) (v : DWord)
  /-- TRIGGER_BEGIN (R311). -/
  | triggerBegin (ctx : Nat) (gid : Nat)
  /-- GLOAD (R307). -/
  | gload (ctx : Nat) (v : DWord)
  /-- LAUNCH_START (R312). -/
  | launchStart (gid : Nat) (node : Nat)
  /-- UNIT_DISPATCH (R315). -/
  | unitDispatch (launch : Nat) (idx : Nat) (core : Nat)
  /-- UNIT_DESCHEDULE (R316). -/
  | unitDeschedule (u : Nat)
  /-- QUANTUM_EXPIRY (R316). -/
  | quantumExpiry (u : Nat)
  /-- CANCEL_UNIT (R322). -/
  | cancelUnit (ctx : Nat) (v : DWord)
  /-- CANCEL_LAUNCH (R322). -/
  | cancelLaunch (ctx : Nat) (v : DWord)
  /-- CANCEL_GRAPH (R322). -/
  | cancelGraph (ctx : Nat) (v : DWord)
  /-- CANCEL_PHASE (R322). -/
  | cancelPhase (ctx : Nat) (v : DWord)
  /-- CANCEL_JOB (R322). -/
  | cancelJob (ctx : Nat) (v : DWord)
  /-- CTXCMD_PREEMPT (R348). -/
  | ctxcmdPreempt (ctx : Nat)
  /-- PREEMPT_SAVE_COMPLETE (R348). -/
  | preemptSaveComplete (ctx : Nat)
  /-- CTXCMD_RESUME (R353). -/
  | ctxcmdResume (ctx : Nat)
  /-- RESUME_COMPLETE (R353). -/
  | resumeComplete (ctx : Nat)
  /-- CTXCMD_INVAL (R335). -/
  | ctxcmdInval (ctx : Nat)
  /-- INVAL_COMPLETE (R335). -/
  | invalComplete (ctx : Nat)
  /-- FIRMWARE_PAGE_GROW (R338). -/
  | firmwarePageGrow (id : Nat)
  /-- FCMD_REPLAY (R344). -/
  | fcmdReplay (ctx : Nat) (v : DWord)
  /-- FCMD_CANCEL (R344). -/
  | fcmdCancel (ctx : Nat) (v : DWord)
  /-- FCMD_INVALID (R344). -/
  | fcmdInvalid (ctx : Nat) (v : DWord)
  /-- FQTAIL_WRITE (R343). -/
  | fqtailWrite (ctx : Nat) (v : DWord)
  /-- SOFT_ERROR_CORRECTABLE (R346). -/
  | softErrorCorrectable (t : SoftTarget)
  /-- SOFT_ERROR_UNCORRECTABLE (R346). -/
  | softErrorUncorrectable (t : SoftTarget)
  /-- MODULE_LOAD (R301). -/
  | moduleLoad (ctx : Nat) (m : ModuleFile)
  /-- ACCESS_PERFORMED (R80). -/
  | accessPerformed (core : Nat) (k : Nat)
  /-- GRAPH_LOAD_COMPLETE (R307). -/
  | graphLoadComplete (ctx : Nat)
  /-- CARR_BLOCK_TRANSMIT (R356). -/
  | carrBlockTransmit (link : Nat)
  /-- CARRCTL_EN (R360). -/
  | carrctlEn (link : Nat) (on : Bool)
  /-- CARRCTL_RETRAIN (R361). -/
  | carrctlRetrain (link : Nat)
  /-- LINK_TRAINING_COMPLETE (R360). -/
  | linkTrainingComplete (link : Nat) (lanes : BitVec 16) (peer : BitVec 16)
  /-- LINK_TRAINING_TIMEOUT (R360). -/
  | linkTrainingTimeout (link : Nat)
  /-- LANE_LOSS (R361). -/
  | laneLoss (link : Nat) (lane : Nat)
  /-- DATA_FLIT_RECEIVE (R359). -/
  | dataFlitReceive (link : Nat) (f : Flit) (op : RemoteOp)
  /-- IDLE_FLIT_RECEIVE (R359). -/
  | idleFlitReceive (link : Nat) (f : Flit)
  /-- NAK_FLIT_RECEIVE (R359). -/
  | nakFlitReceive (link : Nat) (f : Flit)
  /-- ACK_TIMEOUT_RESEND (R359). -/
  | ackTimeoutResend (link : Nat)
  /-- LINK_COMMAND_COMPLETE (R366). -/
  | linkCommandComplete (id : Nat) (n : Nat) (data : (List (Option (Byte × Bool))))
  /-- CXL_COMPLETION_TIMEOUT (R368). -/
  | cxlCompletionTimeout (die : Nat)
  /-- PCIE_ATOMICOP_RECEIVED (R369). -/
  | pcieAtomicopReceived (addr : Nat)
  /-- BOOT (R370). -/
  | boot (imgs : BootImages) (failed : (List Nat))
  /-- GET_MEASUREMENTS (R372). -/
  | getMeasurements (index : MeasureReq)
  /-- GET_CERTIFICATE (R372). -/
  | getCertificate
  /-- NEGOTIATE_ALGORITHMS (R372). -/
  | negotiateAlgorithms
  /-- CHALLENGE (R372). -/
  | challenge (nonce : (List Byte))
  /-- REDFISH_REQUEST (R374). -/
  | redfishRequest (r : Redfish)
  /-- HEALTHCMD_ACK (R375). -/
  | healthcmdAck (v : DWord)
  /-- CORE_FENCE (R376). -/
  | coreFence (core : Nat)
  /-- CHANNEL_DRAIN (R376). -/
  | channelDrain (ch : Nat)
  /-- MGMT_HEARTBEAT_MISS (R376). -/
  | mgmtHeartbeatMiss (die : Nat)
  /-- THERMAL_TRIP (R380). -/
  | thermalTrip
  /-- POWER_THROTTLE (R381). -/
  | powerThrottle
  /-- REGISTER_WRITE (R6). -/
  | registerWrite (a : RegAddr) (v : DWord)
  /-- DIE_TO_DIE_LINK_FAILURE (R377). -/
  | dieToDieLinkFailure
  /-- BOOT_SECURITY_CORE_FAILURE (R377). -/
  | bootSecurityCoreFailure
  deriving DecidableEq, Repr

end Sys2Proof
end

