-- ==== Sys2Proof/WellFormed.lean ====
section
/-! DEFINITION. Well-formed instructions (R118, R128): the values that are reserved for an opcode, and the operands that
are not permitted where they stand. -/

namespace Sys2Proof

/-- No field holds a value that is reserved for the opcode, and no unused operand field is anything but 0x24 (R117, R128). -/
def Instr.valuesOk : Instr → Bool
  | .nop => true
  | .trace stages guards => decide (stages.toNat ≤ 32) && decide (guards.toNat ≤ 8)
  | .stg _ n k1 => decide (n.toNat + k1.toNat ≤ 255)
  | .wbind _ n k1 => decide (n.toNat + k1.toNat ≤ 255)
  | .guard _ _ _ => true
  | .settle => true
  | .tend _ _ => true
  | .tendi _ _ => true
  | .call _ _ => true
  | .calli _ _ => true
  | .ret _ => true
  | .merge tok => tok.toNat ≠ 0
  | .regang => true
  | .exit => true
  | .yield => true
  | .trap _ => true
  | .bkpt _ => true
  | .iadd _ _ _ _ _ => true
  | .iaddI _ _ _ _ _ => true
  | .isub _ _ _ _ _ => true
  | .isubI _ _ _ _ _ => true
  | .iaddc _ _ _ _ _ => true
  | .isubb _ _ _ _ _ => true
  | .iadd64 _ _ _ _ => true
  | .iadd64I _ _ _ _ => true
  | .isub64 _ _ _ _ => true
  | .isub64I _ _ _ _ => true
  | .imul _ _ _ _ _ => true
  | .imulI _ _ _ _ _ => true
  | .imulh _ _ _ _ => true
  | .imulhI _ _ _ _ => true
  | .imulhu _ _ _ _ => true
  | .imulhuI _ _ _ _ => true
  | .imad _ _ _ _ _ _ => true
  | .imad64 _ _ _ _ _ _ => true
  | .divs _ _ _ _ => true
  | .divsI _ _ _ _ => true
  | .divu _ _ _ _ => true
  | .divuI _ _ _ _ => true
  | .rems _ _ _ _ => true
  | .remsI _ _ _ _ => true
  | .remu _ _ _ _ => true
  | .remuI _ _ _ _ => true
  | .iabs _ _ _ _ => true
  | .ineg _ _ _ _ => true
  | .imin _ _ _ _ => true
  | .iminI _ _ _ _ => true
  | .imax _ _ _ _ => true
  | .imaxI _ _ _ _ => true
  | .iminu _ _ _ _ => true
  | .iminuI _ _ _ _ => true
  | .imaxu _ _ _ _ => true
  | .imaxuI _ _ _ _ => true
  | .isat _ _ _ _ _ => true
  | .isatI _ _ _ _ _ => true
  | .icmp _ cond _ _ _ _ => cond.isInt
  | .icmpI _ cond _ _ _ _ => cond.isInt
  | .sel _ _ _ _ _ => true
  | .and _ _ _ _ => true
  | .andI _ _ _ _ => true
  | .or _ _ _ _ => true
  | .orI _ _ _ _ => true
  | .xor _ _ _ _ => true
  | .xorI _ _ _ _ => true
  | .andn _ _ _ _ => true
  | .andnI _ _ _ _ => true
  | .not _ _ _ => true
  | .shl _ _ _ _ => true
  | .shlI _ _ _ _ => true
  | .shr _ _ _ _ => true
  | .shrI _ _ _ _ => true
  | .sar _ _ _ _ => true
  | .sarI _ _ _ _ => true
  | .shf _ _ _ _ _ _ => true
  | .bfx _ _ _ _ _ => true
  | .bfxu _ _ _ _ _ => true
  | .bfi _ _ _ _ _ => true
  | .popc _ _ _ => true
  | .clz _ _ _ => true
  | .ctz _ _ _ => true
  | .brev _ _ _ => true
  | .bysel _ _ _ _ _ => true
  | .lea _ k _ _ _ _ => decide (k.toNat ≤ 4)
  | .movi _ _ _ => true
  | .mov _ _ _ _ => true
  | .fadd _ _ _ _ _ _ => true
  | .faddI _ _ _ _ _ _ => true
  | .fsub _ _ _ _ _ _ => true
  | .fsubI _ _ _ _ _ _ => true
  | .fmul _ _ _ _ _ _ => true
  | .fmulI _ _ _ _ _ _ => true
  | .ffma _ _ _ _ _ _ _ => true
  | .fmin _ _ _ _ _ => true
  | .fminI _ _ _ _ _ => true
  | .fmax _ _ _ _ _ => true
  | .fmaxI _ _ _ _ _ => true
  | .fcmp _ cond _ _ _ _ => cond.isFloat
  | .fcmpI _ cond _ _ _ _ => cond.isFloat
  | .frcp _ _ _ => true
  | .frsq _ _ _ => true
  | .fsqrt _ _ _ => true
  | .fexp2 _ _ _ => true
  | .flog2 _ _ _ => true
  | .fsin _ _ _ => true
  | .fcos _ _ _ => true
  | .frnd _ _ _ _ => true
  | .fclass _ _ _ => true
  | .pkadd _ _ _ _ _ _ => true
  | .pkaddI _ _ _ _ _ _ => true
  | .pkmul _ _ _ _ _ _ => true
  | .pkmulI _ _ _ _ _ _ => true
  | .pkfma _ _ _ _ _ _ _ => true
  | .dadd _ _ _ _ _ => true
  | .daddI _ _ _ _ _ => true
  | .dsub _ _ _ _ _ => true
  | .dsubI _ _ _ _ _ => true
  | .dmul _ _ _ _ _ => true
  | .dmulI _ _ _ _ _ => true
  | .dfma _ _ _ _ _ _ => true
  | .dmin _ _ _ _ => true
  | .dminI _ _ _ _ => true
  | .dmax _ _ _ _ => true
  | .dmaxI _ _ _ _ => true
  | .dcmp cond _ _ _ _ => cond.isFloat
  | .dcmpI cond _ _ _ _ => cond.isFloat
  | .drcp _ _ _ => true
  | .drsq _ _ _ => true
  | .cvtif _ _ _ _ _ _ _ => true
  | .cvtfi _ _ _ _ _ _ _ _ => true
  | .cvtff ftd fta _ _ _ _ => decide (ftd ≠ fta)
  | .cvtii _ wd ud wa ua _ _ _ => decide (¬(wd = wa ∧ ud = ua))
  | .packh _ _ _ _ _ _ => true
  | .unpkh _ _ _ _ => true
  | .xlane _ _ _ _ _ => true
  | .vote _ _ _ => true
  | .gredux op _ _ => op.isRed
  | .scan op _ seg _ _ b => op.isRed && decide (seg = true ∨ b = .zero)
  | .ld sp _ hint _ _ _ => decide (sp.cached = true ∨ hint = .none)
  | .st sp _ hint _ _ _ => decide (sp.cached = true ∨ hint = .none)
  | .gather sp _ hint _ _ _ _ => decide (sp.cached = true ∨ hint = .none)
  | .scatter sp _ hint _ _ _ _ => decide (sp.cached = true ∨ hint = .none)
  | .scatterAdd sp w op hint _ _ _ => op.isAdd && op.okWidth w && decide (sp = .gl ∨ hint = .none)
  | .atom _ sp w op hint _ _ _ c => op.okWidth w && decide (sp = .gl ∨ hint = .none) && decide (op = .cas ∨ c = .zero)
  | .red _ sp w op hint _ _ => op.isRed && op.okWidth w && decide (sp = .gl ∨ hint = .none)
  | .acq _ sp hint _ _ => decide (sp = .gl ∨ hint = .none)
  | .rel _ sp hint _ _ => decide (sp = .gl ∨ hint = .none)
  | .acqld _ sp hint _ _ _ => decide (sp = .gl ∨ hint = .none)
  | .relst _ sp hint _ _ _ => decide (sp = .gl ∨ hint = .none)
  | .fence => true
  | .xfence p q => decide (p ≠ q)
  | .bind _ _ _ _ => true
  | .unbind _ _ => true
  | .pref _ _ _ _ _ => true
  | .spill sp _ _ n k1 _ => sp.cached && decide (n.toNat + k1.toNat ≤ 255)
  | .fill sp _ _ n k1 _ => sp.cached && decide (n.toNat + k1.toNat ≤ 255)
  | .cpy _ lk _ dsp ssp hint _ _ _ => decide (lk = false ∨ (dsp = .gl ∧ ssp = .gl)) && decide (ssp = .gl ∨ hint = .none)
  | .cpy2d _ lk dsp ssp hint _ _ _ _ _ _ => decide (lk = false ∨ (dsp = .gl ∧ ssp = .gl)) && decide (ssp = .gl ∨ hint = .none)
  | .cseal _ _ => true
  | .cdec _ _ _ _ _ _ => true
  | .fopen _ _ _ _ _ _ => true
  | .fnext _ _ _ _ _ => true
  | .ftest _ _ => true
  | .fclose _ => true
  | .orsv _ _ => true
  | .orls _ _ => true
  | .mgath _ _ => true
  | .mma spf co x _ _ _ _ _ => decide (¬(spf = true ∧ co = true)) && decide (spf = true ∨ co = true ∨ x = .zero)
  | .mmap spf _ x _ _ _ _ _ => decide (spf = true ∨ x = .zero)
  | .guide _ _ _ _ _ => true
  | .mzero _ _ _ => true
  | .mst sp _ hint _ _ _ _ _ => decide (sp = .gl ∨ hint = .none)
  | .mld sp _ hint _ _ _ _ _ => decide (sp = .gl ∨ hint = .none)
  | .mspsel _ _ _ _ _ => true
  | .spst sp hint _ _ _ _ => decide (sp = .gl ∨ hint = .none)
  | .mclaim => true
  | .mpass _ => true
  | .recruit _ _ _ n _ => decide (1 ≤ n.toNat ∧ n.toNat ≤ 30)
  | .hread _ i => decide (i.toNat < 8 ∨ 64 ≤ i.toNat)
  | .hret op _ => op.isHret
  | .hend => true
  | .join _ _ _ _ => true
  | .dismiss => true
  | .bar _ _ => true
  | .barl _ _ _ => true
  | .arrive _ _ => true
  | .mon _ _ _ => true
  | .waitmon _ => true
  | .qpush _ _ _ _ => true
  | .qpop _ _ _ _ => true
  | .qlen _ _ _ => true
  | .gets u r _ => decide (u = false ∨ r.uniform = true)
  | .sets r _ => r.writable
  | .role _ => true
  | .grow n8 _ => decide (8 ≤ n8.toNat ∧ n8.toNat ≤ 32)
  | .shrink n8 => decide (8 ≤ n8.toNat ∧ n8.toNat ≤ 32)
  | .guardedCommandResolution _ => true
  | .copyCommandComplete _ => true
  | .matrixEngineGrant _ => true
  | .matrixCommandComplete _ => true
  | .pairWaitExpiry _ => true
  | .cooperativeMatchTimeout _ => true
  | .growGrant _ => true
  | .growStuckDenial _ => true
  | .monitorEviction _ _ => true
  | .waitmonTimerExpiry _ => true
  | .sluiceRelease _ => true
  | .watchdogExpiry _ => true
  | .trigger _ _ => true
  | .triggerBegin _ _ => true
  | .gload _ _ => true
  | .launchStart _ _ => true
  | .unitDispatch _ _ _ => true
  | .unitDeschedule _ => true
  | .quantumExpiry _ => true
  | .cancelUnit _ _ => true
  | .cancelLaunch _ _ => true
  | .cancelGraph _ _ => true
  | .cancelPhase _ _ => true
  | .cancelJob _ _ => true
  | .ctxcmdPreempt _ => true
  | .preemptSaveComplete _ => true
  | .ctxcmdResume _ => true
  | .resumeComplete _ => true
  | .ctxcmdInval _ => true
  | .invalComplete _ => true
  | .firmwarePageGrow _ => true
  | .fcmdReplay _ _ => true
  | .fcmdCancel _ _ => true
  | .fcmdInvalid _ _ => true
  | .fqtailWrite _ _ => true
  | .softErrorCorrectable _ => true
  | .softErrorUncorrectable _ => true
  | .moduleLoad _ _ => true
  | .accessPerformed _ _ => true
  | .graphLoadComplete _ => true
  | .carrBlockTransmit _ => true
  | .carrctlEn _ _ => true
  | .carrctlRetrain _ => true
  | .linkTrainingComplete _ _ _ => true
  | .linkTrainingTimeout _ => true
  | .laneLoss _ _ => true
  | .dataFlitReceive _ _ _ => true
  | .idleFlitReceive _ _ => true
  | .nakFlitReceive _ _ => true
  | .ackTimeoutResend _ => true
  | .linkCommandComplete _ _ _ => true
  | .cxlCompletionTimeout _ => true
  | .pcieAtomicopReceived _ => true
  | .boot _ _ => true
  | .getMeasurements _ => true
  | .getCertificate => true
  | .negotiateAlgorithms => true
  | .challenge _ => true
  | .redfishRequest _ => true
  | .healthcmdAck _ => true
  | .coreFence _ => true
  | .channelDrain _ => true
  | .mgmtHeartbeatMiss _ => true
  | .thermalTrip => true
  | .powerThrottle => true
  | .registerWrite _ _ => true
  | .dieToDieLinkFailure => true
  | .bootSecurityCoreFailure => true

/-- Every operand is permitted where it stands (R113, R116, R118). -/
def Instr.operandsOk : Instr → Bool
  | .nop => true
  | .trace _ _ => true
  | .stg _ _ _ => true
  | .wbind _ _ _ => true
  | .guard _ _ a => a.okSrc false .w32
  | .settle => true
  | .tend _ _ => true
  | .tendi _ a => decide (a.toNat % 2 == 0)
  | .call _ _ => true
  | .calli _ a => decide (a.toNat % 2 == 0)
  | .ret _ => true
  | .merge _ => true
  | .regang => true
  | .exit => true
  | .yield => true
  | .trap _ => true
  | .bkpt _ => true
  | .iadd u _ d a b => d.okDst u .w32 && a.okSrc u .w32 && b.okSrc u .w32
  | .iaddI u _ d a _ => d.okDst u .w32 && a.okSrc u .w32
  | .isub u _ d a b => d.okDst u .w32 && a.okSrc u .w32 && b.okSrc u .w32
  | .isubI u _ d a _ => d.okDst u .w32 && a.okSrc u .w32
  | .iaddc u d a b c => d.okDst u .w32 && a.okSrc u .w32 && b.okSrc u .w32 && c.okSrc u .w32
  | .isubb u d a b c => d.okDst u .w32 && a.okSrc u .w32 && b.okSrc u .w32 && c.okSrc u .w32
  | .iadd64 u d a b => d.okDst u .w64 && a.okSrc u .w64 && b.okSrc u .w64
  | .iadd64I u d a _ => d.okDst u .w64 && a.okSrc u .w64
  | .isub64 u d a b => d.okDst u .w64 && a.okSrc u .w64 && b.okSrc u .w64
  | .isub64I u d a _ => d.okDst u .w64 && a.okSrc u .w64
  | .imul u _ d a b => d.okDst u .w32 && a.okSrc u .w32 && b.okSrc u .w32
  | .imulI u _ d a _ => d.okDst u .w32 && a.okSrc u .w32
  | .imulh u d a b => d.okDst u .w32 && a.okSrc u .w32 && b.okSrc u .w32
  | .imulhI u d a _ => d.okDst u .w32 && a.okSrc u .w32
  | .imulhu u d a b => d.okDst u .w32 && a.okSrc u .w32 && b.okSrc u .w32
  | .imulhuI u d a _ => d.okDst u .w32 && a.okSrc u .w32
  | .imad u _ d a b c => d.okDst u .w32 && a.okSrc u .w32 && b.okSrc u .w32 && c.okSrc u .w32
  | .imad64 u _ d a b c => d.okDst u .w64 && a.okSrc u .w32 && b.okSrc u .w32 && c.okSrc u .w64
  | .divs u d a b => d.okDst u .w32 && a.okSrc u .w32 && b.okSrc u .w32
  | .divsI u d a _ => d.okDst u .w32 && a.okSrc u .w32
  | .divu u d a b => d.okDst u .w32 && a.okSrc u .w32 && b.okSrc u .w32
  | .divuI u d a _ => d.okDst u .w32 && a.okSrc u .w32
  | .rems u d a b => d.okDst u .w32 && a.okSrc u .w32 && b.okSrc u .w32
  | .remsI u d a _ => d.okDst u .w32 && a.okSrc u .w32
  | .remu u d a b => d.okDst u .w32 && a.okSrc u .w32 && b.okSrc u .w32
  | .remuI u d a _ => d.okDst u .w32 && a.okSrc u .w32
  | .iabs u _ d a => d.okDst u .w32 && a.okSrc u .w32
  | .ineg u _ d a => d.okDst u .w32 && a.okSrc u .w32
  | .imin u d a b => d.okDst u .w32 && a.okSrc u .w32 && b.okSrc u .w32
  | .iminI u d a _ => d.okDst u .w32 && a.okSrc u .w32
  | .imax u d a b => d.okDst u .w32 && a.okSrc u .w32 && b.okSrc u .w32
  | .imaxI u d a _ => d.okDst u .w32 && a.okSrc u .w32
  | .iminu u d a b => d.okDst u .w32 && a.okSrc u .w32 && b.okSrc u .w32
  | .iminuI u d a _ => d.okDst u .w32 && a.okSrc u .w32
  | .imaxu u d a b => d.okDst u .w32 && a.okSrc u .w32 && b.okSrc u .w32
  | .imaxuI u d a _ => d.okDst u .w32 && a.okSrc u .w32
  | .isat u _ d a b => d.okDst u .w32 && a.okSrc u .w32 && b.okSrc u .w32
  | .isatI u _ d a _ => d.okDst u .w32 && a.okSrc u .w32
  | .icmp u _ dbl d a b => d.okDst u .w32 && a.okSrc u (dblSize dbl) && b.okSrc u (dblSize dbl)
  | .icmpI u _ dbl d a _ => d.okDst u .w32 && a.okSrc u (dblSize dbl)
  | .sel u d a b c => d.okDst u .w32 && a.okSrc u .w32 && b.okSrc u .w32 && c.okSrc u .w32
  | .and u d a b => d.okDst u .w32 && a.okSrc u .w32 && b.okSrc u .w32
  | .andI u d a _ => d.okDst u .w32 && a.okSrc u .w32
  | .or u d a b => d.okDst u .w32 && a.okSrc u .w32 && b.okSrc u .w32
  | .orI u d a _ => d.okDst u .w32 && a.okSrc u .w32
  | .xor u d a b => d.okDst u .w32 && a.okSrc u .w32 && b.okSrc u .w32
  | .xorI u d a _ => d.okDst u .w32 && a.okSrc u .w32
  | .andn u d a b => d.okDst u .w32 && a.okSrc u .w32 && b.okSrc u .w32
  | .andnI u d a _ => d.okDst u .w32 && a.okSrc u .w32
  | .not u d a => d.okDst u .w32 && a.okSrc u .w32
  | .shl u d a b => d.okDst u .w32 && a.okSrc u .w32 && b.okSrc u .w32
  | .shlI u d a _ => d.okDst u .w32 && a.okSrc u .w32
  | .shr u d a b => d.okDst u .w32 && a.okSrc u .w32 && b.okSrc u .w32
  | .shrI u d a _ => d.okDst u .w32 && a.okSrc u .w32
  | .sar u d a b => d.okDst u .w32 && a.okSrc u .w32 && b.okSrc u .w32
  | .sarI u d a _ => d.okDst u .w32 && a.okSrc u .w32
  | .shf u _ d a b c => d.okDst u .w32 && a.okSrc u .w32 && b.okSrc u .w32 && c.okSrc u .w32
  | .bfx u d a b c => d.okDst u .w32 && a.okSrc u .w32 && b.okSrc u .w32 && c.okSrc u .w32
  | .bfxu u d a b c => d.okDst u .w32 && a.okSrc u .w32 && b.okSrc u .w32 && c.okSrc u .w32
  | .bfi u d a b c => d.okDst u .w32 && a.okSrc u .w32 && b.okSrc u .w32 && c.okSrc u .w32
  | .popc u d a => d.okDst u .w32 && a.okSrc u .w32
  | .clz u d a => d.okDst u .w32 && a.okSrc u .w32
  | .ctz u d a => d.okDst u .w32 && a.okSrc u .w32
  | .brev u d a => d.okDst u .w32 && a.okSrc u .w32
  | .bysel u d a b c => d.okDst u .w32 && a.okSrc u .w32 && b.okSrc u .w32 && c.okSrc u .w32
  | .lea u _ _ d a b => d.okDst u .w64 && a.okSrc u .w64 && b.okSrc u .w32
  | .movi u d _ => d.okDst u .w32
  | .mov u dbl d a => d.okDst u (dblSize dbl) && a.okSrc u (dblSize dbl)
  | .fadd u _ _ d a b => d.okDst u .w32 && a.okSrc u .w32 && b.okSrc u .w32
  | .faddI u _ _ d a _ => d.okDst u .w32 && a.okSrc u .w32
  | .fsub u _ _ d a b => d.okDst u .w32 && a.okSrc u .w32 && b.okSrc u .w32
  | .fsubI u _ _ d a _ => d.okDst u .w32 && a.okSrc u .w32
  | .fmul u _ _ d a b => d.okDst u .w32 && a.okSrc u .w32 && b.okSrc u .w32
  | .fmulI u _ _ d a _ => d.okDst u .w32 && a.okSrc u .w32
  | .ffma u _ _ d a b c => d.okDst u .w32 && a.okSrc u .w32 && b.okSrc u .w32 && c.okSrc u .w32
  | .fmin u _ d a b => d.okDst u .w32 && a.okSrc u .w32 && b.okSrc u .w32
  | .fminI u _ d a _ => d.okDst u .w32 && a.okSrc u .w32
  | .fmax u _ d a b => d.okDst u .w32 && a.okSrc u .w32 && b.okSrc u .w32
  | .fmaxI u _ d a _ => d.okDst u .w32 && a.okSrc u .w32
  | .fcmp u _ _ d a b => d.okDst u .w32 && a.okSrc u .w32 && b.okSrc u .w32
  | .fcmpI u _ _ d a _ => d.okDst u .w32 && a.okSrc u .w32
  | .frcp _ d a => d.okDst false .w32 && a.okSrc false .w32
  | .frsq _ d a => d.okDst false .w32 && a.okSrc false .w32
  | .fsqrt _ d a => d.okDst false .w32 && a.okSrc false .w32
  | .fexp2 _ d a => d.okDst false .w32 && a.okSrc false .w32
  | .flog2 _ d a => d.okDst false .w32 && a.okSrc false .w32
  | .fsin _ d a => d.okDst false .w32 && a.okSrc false .w32
  | .fcos _ d a => d.okDst false .w32 && a.okSrc false .w32
  | .frnd _ _ d a => d.okDst false .w32 && a.okSrc false .w32
  | .fclass _ d a => d.okDst false .w32 && a.okSrc false .w32
  | .pkadd _ _ _ d a b => d.okDst false .w32 && a.okSrc false .w32 && b.okSrc false .w32
  | .pkaddI _ _ _ d a _ => d.okDst false .w32 && a.okSrc false .w32
  | .pkmul _ _ _ d a b => d.okDst false .w32 && a.okSrc false .w32 && b.okSrc false .w32
  | .pkmulI _ _ _ d a _ => d.okDst false .w32 && a.okSrc false .w32
  | .pkfma _ _ _ d a b c => d.okDst false .w32 && a.okSrc false .w32 && b.okSrc false .w32 && c.okSrc false .w32
  | .dadd _ _ d a b => d.okDst false .w64 && a.okSrc false .w64 && b.okSrc false .w64
  | .daddI _ _ d a _ => d.okDst false .w64 && a.okSrc false .w64
  | .dsub _ _ d a b => d.okDst false .w64 && a.okSrc false .w64 && b.okSrc false .w64
  | .dsubI _ _ d a _ => d.okDst false .w64 && a.okSrc false .w64
  | .dmul _ _ d a b => d.okDst false .w64 && a.okSrc false .w64 && b.okSrc false .w64
  | .dmulI _ _ d a _ => d.okDst false .w64 && a.okSrc false .w64
  | .dfma _ _ d a b c => d.okDst false .w64 && a.okSrc false .w64 && b.okSrc false .w64 && c.okSrc false .w64
  | .dmin _ d a b => d.okDst false .w64 && a.okSrc false .w64 && b.okSrc false .w64
  | .dminI _ d a _ => d.okDst false .w64 && a.okSrc false .w64
  | .dmax _ d a b => d.okDst false .w64 && a.okSrc false .w64 && b.okSrc false .w64
  | .dmaxI _ d a _ => d.okDst false .w64 && a.okSrc false .w64
  | .dcmp _ _ d a b => d.okDst false .w32 && a.okSrc false .w64 && b.okSrc false .w64
  | .dcmpI _ _ d a _ => d.okDst false .w32 && a.okSrc false .w64
  | .drcp _ d a => d.okDst false .w64 && a.okSrc false .w64
  | .drsq _ d a => d.okDst false .w64 && a.okSrc false .w64
  | .cvtif u ft _ iw _ d a => d.okDst u ft.size && a.okSrc u iw.size
  | .cvtfi u _ iw ft _ _ d a => d.okDst u iw.size && a.okSrc u ft.size
  | .cvtff ftd fta _ _ d a => d.okDst false ftd.size && a.okSrc false fta.size
  | .cvtii u wd _ wa _ _ d a => d.okDst u wd.size && a.okSrc u wa.size
  | .packh _ _ _ d a b => d.okDst false .w32 && a.okSrc false .w32 && b.okSrc false .w32
  | .unpkh _ _ d a => d.okDst false .w32 && a.okSrc false .w32
  | .xlane _ dbl d a b => d.okDst false (dblSize dbl) && a.okSrc false (dblSize dbl) && b.okSrc false .w32
  | .vote _ d a => d.okDst false .w32 && a.okSrc false .w32
  | .gredux op d a => d.okDst false op.size && a.okSrc false op.size
  | .scan op _ _ d a b => d.okDst false op.size && a.okSrc false op.size && b.okSrc false .w32
  | .ld sp w _ _ d a => d.okDst false w.size && a.okBase false sp
  | .st sp w _ _ s a => s.okSrc false w.size && a.okBase false sp
  | .gather sp w _ _ d a i => d.okDst false w.size && a.okBase false sp && i.okSrc false .w32
  | .scatter sp w _ _ s a i => s.okSrc false w.size && a.okBase false sp && i.okSrc false .w32
  | .scatterAdd sp w _ _ a i c => a.okAddr false sp && i.okSrc false .w32 && c.okSrc false w.size
  | .atom u sp w _ _ d a b c => d.okDst u w.size && a.okAddr u sp && b.okSrc u w.size && c.okSrc u w.size
  | .red u sp w _ _ a b => a.okAddr u sp && b.okSrc u w.size
  | .acq u sp _ _ a => a.okAddr u sp
  | .rel u sp _ _ a => a.okAddr u sp
  | .acqld u sp _ _ d a => d.okDst u .w64 && a.okAddr u sp
  | .relst u sp _ _ s a => s.okRel u && a.okAddr u sp
  | .fence => true
  | .xfence _ _ => true
  | .bind d a b c => d.okDst false .w32 && a.okPair false && b.okSrc false .w32 && c.okPair false
  | .unbind d a => d.okDst false .w32 && a.okSrc false .w32
  | .pref _ _ _ a i => a.okPair false && i.okSrc false .w32
  | .spill _ _ _ _ _ a => a.okPair false
  | .fill _ _ _ _ _ a => a.okPair false
  | .cpy _ _ _ dsp ssp _ d a b => d.okAddr false dsp && a.okAddr false ssp && b.okSrc false .w32
  | .cpy2d _ _ dsp ssp _ d a b _ _ _ => d.okAddr false dsp && a.okAddr false ssp && b.okSrc false .w32
  | .cseal _ _ => true
  | .cdec _ _ d a _ _ => d.okSrc false .w32 && a.okPair false
  | .fopen _ _ _ a b c => a.okSrc false .w64 && b.okSrc false .w64 && c.okSrc false .w32
  | .fnext _ dbl _ d c => d.okDst false (dblSize dbl) && c.okDst false .w32
  | .ftest _ d => d.okDst false .w32
  | .fclose _ => true
  | .orsv d _ => d.okStatus
  | .orls d _ => d.okStatus
  | .mgath _ a => a.okSrc false .w32
  | .mma _ _ x b o _ _ _ => x.okSrc false .w32 && b.okSrc false .w32 && o.okSrc false .w32
  | .mmap _ _ x b o _ _ _ => x.okSrc false .w32 && b.okSrc false .w32 && o.okSrc false .w32
  | .guide d o _ _ _ => d.okStatus && o.okSrc false .w32
  | .mzero o _ _ => o.okSrc false .w32
  | .mst sp _ _ a o _ _ _ => a.okAddr false sp && o.okSrc false .w32
  | .mld sp _ _ a o _ _ _ => a.okAddr false sp && o.okSrc false .w32
  | .mspsel d a x _ _ => d.okSrc false .w32 && a.okSrc false .w32 && x.okSrc false .w32
  | .spst sp _ a o _ _ => a.okAddr false sp && o.okSrc false .w32
  | .mclaim => true
  | .mpass _ => true
  | .recruit d _ _ _ _ => d.okStatus
  | .hread d _ => d.okDst false .w32
  | .hret _ a => a.okSrc false .w32
  | .hend => true
  | .join _ d m c => d.okJoin && m.okJoin && c.okSrc false .w32
  | .dismiss => true
  | .bar _ a => a.okCount
  | .barl d _ a => d.okDst false .w32 && a.okCount
  | .arrive _ a => a.okCount
  | .mon sp _ a => a.okAddr false sp
  | .waitmon d => d.okDst false .w32
  | .qpush u _ d a => d.okDst u .w32 && a.okSrc u .w128
  | .qpop u _ d s => d.okDst u .w128 && s.okDst u .w32
  | .qlen u _ d => d.okDst u .w32
  | .gets u r d => d.okDst u r.size
  | .sets _ a => a.okSrc false .w32
  | .role _ => true
  | .grow _ d => d.okDst false .w32
  | .shrink _ => true
  | .guardedCommandResolution _ => true
  | .copyCommandComplete _ => true
  | .matrixEngineGrant _ => true
  | .matrixCommandComplete _ => true
  | .pairWaitExpiry _ => true
  | .cooperativeMatchTimeout _ => true
  | .growGrant _ => true
  | .growStuckDenial _ => true
  | .monitorEviction _ _ => true
  | .waitmonTimerExpiry _ => true
  | .sluiceRelease _ => true
  | .watchdogExpiry _ => true
  | .trigger _ _ => true
  | .triggerBegin _ _ => true
  | .gload _ _ => true
  | .launchStart _ _ => true
  | .unitDispatch _ _ _ => true
  | .unitDeschedule _ => true
  | .quantumExpiry _ => true
  | .cancelUnit _ _ => true
  | .cancelLaunch _ _ => true
  | .cancelGraph _ _ => true
  | .cancelPhase _ _ => true
  | .cancelJob _ _ => true
  | .ctxcmdPreempt _ => true
  | .preemptSaveComplete _ => true
  | .ctxcmdResume _ => true
  | .resumeComplete _ => true
  | .ctxcmdInval _ => true
  | .invalComplete _ => true
  | .firmwarePageGrow _ => true
  | .fcmdReplay _ _ => true
  | .fcmdCancel _ _ => true
  | .fcmdInvalid _ _ => true
  | .fqtailWrite _ _ => true
  | .softErrorCorrectable _ => true
  | .softErrorUncorrectable _ => true
  | .moduleLoad _ _ => true
  | .accessPerformed _ _ => true
  | .graphLoadComplete _ => true
  | .carrBlockTransmit _ => true
  | .carrctlEn _ _ => true
  | .carrctlRetrain _ => true
  | .linkTrainingComplete _ _ _ => true
  | .linkTrainingTimeout _ => true
  | .laneLoss _ _ => true
  | .dataFlitReceive _ _ _ => true
  | .idleFlitReceive _ _ => true
  | .nakFlitReceive _ _ => true
  | .ackTimeoutResend _ => true
  | .linkCommandComplete _ _ _ => true
  | .cxlCompletionTimeout _ => true
  | .pcieAtomicopReceived _ => true
  | .boot _ _ => true
  | .getMeasurements _ => true
  | .getCertificate => true
  | .negotiateAlgorithms => true
  | .challenge _ => true
  | .redfishRequest _ => true
  | .healthcmdAck _ => true
  | .coreFence _ => true
  | .channelDrain _ => true
  | .mgmtHeartbeatMiss _ => true
  | .thermalTrip => true
  | .powerThrottle => true
  | .registerWrite _ _ => true
  | .dieToDieLinkFailure => true
  | .bootSecurityCoreFailure => true

/-- A well-formed instruction (R128). DEDUCED, log 49. DEDUCED, log 69. -/
def Instr.wf (i : Instr) : Bool := i.valuesOk && i.operandsOk

end Sys2Proof
end

