-- ==== Sys2Proof/Decode.lean ====
section
/-! DEFINITION. Decoding a word (R110 to R129) in the order that R129 gives, and encoding an instruction. -/

namespace Sys2Proof

/-- What is wrong with an ill-formed word: its fault class (R129). -/
inductive Bad where
  /-- The opcode, G, a reserved bit or value, or an unused field: fault class ILLOP. -/
  | illop
  /-- An operand code: fault class ILLOPND. -/
  | illopnd
  deriving DecidableEq, Repr

/-- The V format (R111). -/
structure V where
  op : BitVec 8
  g : Bool
  d : BitVec 8
  a : BitVec 8
  b : BitVec 8
  c : BitVec 8
  mods : BitVec 23
  deriving DecidableEq, Repr

/-- The I format (R111). -/
structure I where
  op : BitVec 8
  g : Bool
  d : BitVec 8
  a : BitVec 8
  mods : BitVec 6
  imm : BitVec 32
  deriving DecidableEq, Repr

/-- The M format (R111, R121). -/
structure M where
  op : BitVec 8
  g : Bool
  d : BitVec 8
  a : BitVec 8
  b : BitVec 8
  space : BitVec 2
  width : BitVec 3
  hint : BitVec 2
  off : BitVec 24
  deriving DecidableEq, Repr

/-- The T format (R111, R124). -/
structure T where
  op : BitVec 8
  g : Bool
  h : BitVec 16
  l : BitVec 7
  target : BitVec 32
  deriving DecidableEq, Repr

/-- The X format (R111, R127). -/
structure X where
  op : BitVec 8
  g : Bool
  d : BitVec 8
  a : BitVec 8
  b : BitVec 8
  ga : BitVec 6
  gb : BitVec 6
  gc : BitVec 6
  mods : BitVec 13
  deriving DecidableEq, Repr

/-- The V-format fields of a word. -/
def V.of (w : DWord) : V :=
  ⟨w.extractLsb' 56 8, w.getLsbD 55, w.extractLsb' 47 8, w.extractLsb' 39 8, w.extractLsb' 31 8, w.extractLsb' 23 8,
   w.extractLsb' 0 23⟩

/-- The word of V-format fields. -/
def V.word (v : V) : DWord := v.op ++ BitVec.ofBool v.g ++ v.d ++ v.a ++ v.b ++ v.c ++ v.mods

/-- The I-format fields of a word. -/
def I.of (w : DWord) : I :=
  ⟨w.extractLsb' 56 8, w.getLsbD 55, w.extractLsb' 47 8, w.extractLsb' 39 8, w.extractLsb' 32 6, w.extractLsb' 0 32⟩

/-- The word of I-format fields; the form bit [38] is 1 (R112). -/
def I.word (v : I) : DWord := v.op ++ BitVec.ofBool v.g ++ v.d ++ v.a ++ (1 : BitVec 1) ++ v.mods ++ v.imm

/-- The M-format fields of a word. -/
def M.of (w : DWord) : M :=
  ⟨w.extractLsb' 56 8, w.getLsbD 55, w.extractLsb' 47 8, w.extractLsb' 39 8, w.extractLsb' 31 8, w.extractLsb' 29 2,
   w.extractLsb' 26 3, w.extractLsb' 24 2, w.extractLsb' 0 24⟩

/-- The word of M-format fields. -/
def M.word (v : M) : DWord :=
  v.op ++ BitVec.ofBool v.g ++ v.d ++ v.a ++ v.b ++ v.space ++ v.width ++ v.hint ++ v.off

/-- The T-format fields of a word. -/
def T.of (w : DWord) : T :=
  ⟨w.extractLsb' 56 8, w.getLsbD 55, w.extractLsb' 39 16, w.extractLsb' 32 7, w.extractLsb' 0 32⟩

/-- The word of T-format fields. -/
def T.word (v : T) : DWord := v.op ++ BitVec.ofBool v.g ++ v.h ++ v.l ++ v.target

/-- The X-format fields of a word. -/
def X.of (w : DWord) : X :=
  ⟨w.extractLsb' 56 8, w.getLsbD 55, w.extractLsb' 47 8, w.extractLsb' 39 8, w.extractLsb' 31 8, w.extractLsb' 25 6,
   w.extractLsb' 19 6, w.extractLsb' 13 6, w.extractLsb' 0 13⟩

/-- The word of X-format fields. -/
def X.word (v : X) : DWord :=
  v.op ++ BitVec.ofBool v.g ++ v.d ++ v.a ++ v.b ++ v.ga ++ v.gb ++ v.gc ++ v.mods

/-- A check of reserved bits, values or unused fields: its failure is ILLOP (R129). -/
def need (b : Bool) (k : Except Bad Instr) : Except Bad Instr := if b then k else .error .illop

/-- A check of an operand code: its failure is ILLOPND (R129). -/
def opnd (b : Bool) (k : Except Bad Instr) : Except Bad Instr := if b then k else .error .illopnd

/-- A field value, reserved where there is none (R128). -/
def val {α : Type} (o : Option α) (k : α → Except Bad Instr) : Except Bad Instr :=
  match o with
  | none => .error .illop
  | some x => k x

/-- An operand code, reserved where it names nothing (R113). -/
def operand (c : BitVec 8) (k : Opnd → Except Bad Instr) : Except Bad Instr :=
  match Opnd.of c with
  | none => .error .illopnd
  | some o => k o

/-- The decoded instruction, when its operands are permitted where they stand (R129). -/
def accept (i : Instr) : Except Bad Instr := if i.wf then .ok i else .error .illopnd


/-- NOP (R149). -/
def decNop (w : DWord) : Except Bad Instr :=
  let v := V.of w
  need (!v.g) <|
  need (v.mods &&& 0x7fffff == 0) <|
  need (v.d == 0x24) <|
  need (v.a == 0x24) <|
  need (v.b == 0x24) <|
  need (v.c == 0x24) <|
  accept (.nop)

/-- TRACE (R143). -/
def decTrace (w : DWord) : Except Bad Instr :=
  let v := T.of w
  need (!v.g) <|
  need (v.h.extractLsb' 0 6 == 0 && v.l == 0 && v.target == 0) <|
  need (decide ((v.h.extractLsb' 10 6).toNat ≤ 32)) <|
  need (decide ((v.h.extractLsb' 6 4).toNat ≤ 8)) <|
  accept (.trace (v.h.extractLsb' 10 6) (v.h.extractLsb' 6 4))

/-- STG (R30). -/
def decStg (w : DWord) : Except Bad Instr :=
  let v := V.of w
  need (!v.g) <|
  need (v.mods &&& 0x7fe000 == 0) <|
  need (v.a == 0x24) <|
  need (v.b == 0x24) <|
  need (v.c == 0x24) <|
  need (decide ((v.mods.extractLsb' 0 8).toNat + (v.mods.extractLsb' 8 5).toNat ≤ 255)) <|
  opnd (decide (v.d.toNat < 0x20)) <|
  accept (.stg (v.d.extractLsb' 0 5) (v.mods.extractLsb' 0 8) (v.mods.extractLsb' 8 5))

/-- WBIND (R30). -/
def decWbind (w : DWord) : Except Bad Instr :=
  let v := V.of w
  need (!v.g) <|
  need (v.mods &&& 0x7fe000 == 0) <|
  need (v.a == 0x24) <|
  need (v.b == 0x24) <|
  need (v.c == 0x24) <|
  need (decide ((v.mods.extractLsb' 0 8).toNat + (v.mods.extractLsb' 8 5).toNat ≤ 255)) <|
  opnd (decide (v.d.toNat < 0x20)) <|
  accept (.wbind (v.d.extractLsb' 0 5) (v.mods.extractLsb' 0 8) (v.mods.extractLsb' 8 5))

/-- GUARD (R32). -/
def decGuard (w : DWord) : Except Bad Instr :=
  let v := V.of w
  need (!v.g) <|
  need (v.mods &&& 0x7ffff0 == 0) <|
  need (v.d == 0x24) <|
  need (v.b == 0x24) <|
  need (v.c == 0x24) <|
  operand v.a fun a =>
  accept (.guard (v.mods.getLsbD 3) (v.mods.extractLsb' 0 3) a)

/-- SETTLE (R35). -/
def decSettle (w : DWord) : Except Bad Instr :=
  let v := V.of w
  need (!v.g) <|
  need (v.mods &&& 0x7fffff == 0) <|
  need (v.d == 0x24) <|
  need (v.a == 0x24) <|
  need (v.b == 0x24) <|
  need (v.c == 0x24) <|
  accept (.settle)

/-- TEND (R146). -/
def decTend (w : DWord) : Except Bad Instr :=
  let v := T.of w
  need (!v.g) <|
  need (v.l == 0) <|
  accept (.tend v.h v.target)

/-- TENDI (R146). -/
def decTendi (w : DWord) : Except Bad Instr :=
  let v := T.of w
  need (!v.g) <|
  need (v.l == 0 && v.target.extractLsb' 0 24 == 0) <|
  opnd (decide ((v.target.extractLsb' 24 8).toNat < 0x20)) <|
  accept (.tendi v.h (v.target.extractLsb' 24 5))

/-- CALL (R146). -/
def decCall (w : DWord) : Except Bad Instr :=
  let v := T.of w
  need (!v.g) <|
  need (v.l == 0) <|
  accept (.call v.h v.target)

/-- CALLI (R146). -/
def decCalli (w : DWord) : Except Bad Instr :=
  let v := T.of w
  need (!v.g) <|
  need (v.l == 0 && v.target.extractLsb' 0 24 == 0) <|
  opnd (decide ((v.target.extractLsb' 24 8).toNat < 0x20)) <|
  accept (.calli v.h (v.target.extractLsb' 24 5))

/-- RET (R146). -/
def decRet (w : DWord) : Except Bad Instr :=
  let v := T.of w
  need (!v.g) <|
  need (v.l == 0 && v.target == 0) <|
  accept (.ret v.h)

/-- MERGE (R45). -/
def decMerge (w : DWord) : Except Bad Instr :=
  let v := T.of w
  need (!v.g) <|
  need (v.l == 0 && v.target == 0) <|
  need (v.h.toNat ≠ 0) <|
  accept (.merge v.h)

/-- REGANG (R50). -/
def decRegang (w : DWord) : Except Bad Instr :=
  let v := T.of w
  need (!v.g) <|
  need (v.h == 0 && v.l == 0 && v.target == 0) <|
  accept (.regang)

/-- EXIT (R147). -/
def decExit (w : DWord) : Except Bad Instr :=
  let v := V.of w
  need (!v.g) <|
  need (v.mods &&& 0x7fffff == 0) <|
  need (v.d == 0x24) <|
  need (v.a == 0x24) <|
  need (v.b == 0x24) <|
  need (v.c == 0x24) <|
  accept (.exit)

/-- YIELD (R152). -/
def decYield (w : DWord) : Except Bad Instr :=
  let v := V.of w
  need (!v.g) <|
  need (v.mods &&& 0x7fffff == 0) <|
  need (v.d == 0x24) <|
  need (v.a == 0x24) <|
  need (v.b == 0x24) <|
  need (v.c == 0x24) <|
  accept (.yield)

/-- TRAP (R150). -/
def decTrap (w : DWord) : Except Bad Instr :=
  let v := I.of w
  need (!v.g) <|
  need (v.mods &&& 0x3f == 0) <|
  need (v.d == 0x24) <|
  need (v.a == 0x24) <|
  accept (.trap v.imm)

/-- BKPT (R151). -/
def decBkpt (w : DWord) : Except Bad Instr :=
  let v := V.of w
  need (!v.g) <|
  need (v.mods &&& 0x7f0000 == 0) <|
  need (v.d == 0x24) <|
  need (v.a == 0x24) <|
  need (v.b == 0x24) <|
  need (v.c == 0x24) <|
  accept (.bkpt (v.mods.extractLsb' 0 16))

/-- IADD (R169). -/
def decIadd (w : DWord) : Except Bad Instr :=
  let v := V.of w
  need (v.mods &&& 0x7ffdff == 0) <|
  need (v.c == 0x24) <|
  operand v.d fun d =>
  operand v.a fun a =>
  operand v.b fun b =>
  accept (.iadd v.g (v.mods.getLsbD 9) d a b)

/-- IADD_I (R169). -/
def decIaddI (w : DWord) : Except Bad Instr :=
  let v := I.of w
  need (v.mods &&& 0x2f == 0) <|
  operand v.d fun d =>
  operand v.a fun a =>
  accept (.iaddI v.g (v.mods.getLsbD 4) d a v.imm)

/-- ISUB (R169). -/
def decIsub (w : DWord) : Except Bad Instr :=
  let v := V.of w
  need (v.mods &&& 0x7ffdff == 0) <|
  need (v.c == 0x24) <|
  operand v.d fun d =>
  operand v.a fun a =>
  operand v.b fun b =>
  accept (.isub v.g (v.mods.getLsbD 9) d a b)

/-- ISUB_I (R169). -/
def decIsubI (w : DWord) : Except Bad Instr :=
  let v := I.of w
  need (v.mods &&& 0x2f == 0) <|
  operand v.d fun d =>
  operand v.a fun a =>
  accept (.isubI v.g (v.mods.getLsbD 4) d a v.imm)

/-- IADDC (R169). -/
def decIaddc (w : DWord) : Except Bad Instr :=
  let v := V.of w
  need (v.mods &&& 0x7fffff == 0) <|
  operand v.d fun d =>
  operand v.a fun a =>
  operand v.b fun b =>
  operand v.c fun c =>
  accept (.iaddc v.g d a b c)

/-- ISUBB (R169). -/
def decIsubb (w : DWord) : Except Bad Instr :=
  let v := V.of w
  need (v.mods &&& 0x7fffff == 0) <|
  operand v.d fun d =>
  operand v.a fun a =>
  operand v.b fun b =>
  operand v.c fun c =>
  accept (.isubb v.g d a b c)

/-- IADD64 (R169). -/
def decIadd64 (w : DWord) : Except Bad Instr :=
  let v := V.of w
  need (v.mods &&& 0x7fffff == 0) <|
  need (v.c == 0x24) <|
  operand v.d fun d =>
  operand v.a fun a =>
  operand v.b fun b =>
  accept (.iadd64 v.g d a b)

/-- IADD64_I (R169). -/
def decIadd64I (w : DWord) : Except Bad Instr :=
  let v := I.of w
  need (v.mods &&& 0x3f == 0) <|
  operand v.d fun d =>
  operand v.a fun a =>
  accept (.iadd64I v.g d a v.imm)

/-- ISUB64 (R169). -/
def decIsub64 (w : DWord) : Except Bad Instr :=
  let v := V.of w
  need (v.mods &&& 0x7fffff == 0) <|
  need (v.c == 0x24) <|
  operand v.d fun d =>
  operand v.a fun a =>
  operand v.b fun b =>
  accept (.isub64 v.g d a b)

/-- ISUB64_I (R169). -/
def decIsub64I (w : DWord) : Except Bad Instr :=
  let v := I.of w
  need (v.mods &&& 0x3f == 0) <|
  operand v.d fun d =>
  operand v.a fun a =>
  accept (.isub64I v.g d a v.imm)

/-- IMUL (R170). -/
def decImul (w : DWord) : Except Bad Instr :=
  let v := V.of w
  need (v.mods &&& 0x7ffdff == 0) <|
  need (v.c == 0x24) <|
  operand v.d fun d =>
  operand v.a fun a =>
  operand v.b fun b =>
  accept (.imul v.g (v.mods.getLsbD 9) d a b)

/-- IMUL_I (R170). -/
def decImulI (w : DWord) : Except Bad Instr :=
  let v := I.of w
  need (v.mods &&& 0x2f == 0) <|
  operand v.d fun d =>
  operand v.a fun a =>
  accept (.imulI v.g (v.mods.getLsbD 4) d a v.imm)

/-- IMULH (R170). -/
def decImulh (w : DWord) : Except Bad Instr :=
  let v := V.of w
  need (v.mods &&& 0x7fffff == 0) <|
  need (v.c == 0x24) <|
  operand v.d fun d =>
  operand v.a fun a =>
  operand v.b fun b =>
  accept (.imulh v.g d a b)

/-- IMULH_I (R170). -/
def decImulhI (w : DWord) : Except Bad Instr :=
  let v := I.of w
  need (v.mods &&& 0x3f == 0) <|
  operand v.d fun d =>
  operand v.a fun a =>
  accept (.imulhI v.g d a v.imm)

/-- IMULHU (R170). -/
def decImulhu (w : DWord) : Except Bad Instr :=
  let v := V.of w
  need (v.mods &&& 0x7fffff == 0) <|
  need (v.c == 0x24) <|
  operand v.d fun d =>
  operand v.a fun a =>
  operand v.b fun b =>
  accept (.imulhu v.g d a b)

/-- IMULHU_I (R170). -/
def decImulhuI (w : DWord) : Except Bad Instr :=
  let v := I.of w
  need (v.mods &&& 0x3f == 0) <|
  operand v.d fun d =>
  operand v.a fun a =>
  accept (.imulhuI v.g d a v.imm)

/-- IMAD (R170). -/
def decImad (w : DWord) : Except Bad Instr :=
  let v := V.of w
  need (v.mods &&& 0x7ffdff == 0) <|
  operand v.d fun d =>
  operand v.a fun a =>
  operand v.b fun b =>
  operand v.c fun c =>
  accept (.imad v.g (v.mods.getLsbD 9) d a b c)

/-- IMAD64 (R170). -/
def decImad64 (w : DWord) : Except Bad Instr :=
  let v := V.of w
  need (v.mods &&& 0x7ffbff == 0) <|
  operand v.d fun d =>
  operand v.a fun a =>
  operand v.b fun b =>
  operand v.c fun c =>
  accept (.imad64 v.g (v.mods.getLsbD 10) d a b c)

/-- DIVS (R171). -/
def decDivs (w : DWord) : Except Bad Instr :=
  let v := V.of w
  need (v.mods &&& 0x7fffff == 0) <|
  need (v.c == 0x24) <|
  operand v.d fun d =>
  operand v.a fun a =>
  operand v.b fun b =>
  accept (.divs v.g d a b)

/-- DIVS_I (R171). -/
def decDivsI (w : DWord) : Except Bad Instr :=
  let v := I.of w
  need (v.mods &&& 0x3f == 0) <|
  operand v.d fun d =>
  operand v.a fun a =>
  accept (.divsI v.g d a v.imm)

/-- DIVU (R171). -/
def decDivu (w : DWord) : Except Bad Instr :=
  let v := V.of w
  need (v.mods &&& 0x7fffff == 0) <|
  need (v.c == 0x24) <|
  operand v.d fun d =>
  operand v.a fun a =>
  operand v.b fun b =>
  accept (.divu v.g d a b)

/-- DIVU_I (R171). -/
def decDivuI (w : DWord) : Except Bad Instr :=
  let v := I.of w
  need (v.mods &&& 0x3f == 0) <|
  operand v.d fun d =>
  operand v.a fun a =>
  accept (.divuI v.g d a v.imm)

/-- REMS (R171). -/
def decRems (w : DWord) : Except Bad Instr :=
  let v := V.of w
  need (v.mods &&& 0x7fffff == 0) <|
  need (v.c == 0x24) <|
  operand v.d fun d =>
  operand v.a fun a =>
  operand v.b fun b =>
  accept (.rems v.g d a b)

/-- REMS_I (R171). -/
def decRemsI (w : DWord) : Except Bad Instr :=
  let v := I.of w
  need (v.mods &&& 0x3f == 0) <|
  operand v.d fun d =>
  operand v.a fun a =>
  accept (.remsI v.g d a v.imm)

/-- REMU (R171). -/
def decRemu (w : DWord) : Except Bad Instr :=
  let v := V.of w
  need (v.mods &&& 0x7fffff == 0) <|
  need (v.c == 0x24) <|
  operand v.d fun d =>
  operand v.a fun a =>
  operand v.b fun b =>
  accept (.remu v.g d a b)

/-- REMU_I (R171). -/
def decRemuI (w : DWord) : Except Bad Instr :=
  let v := I.of w
  need (v.mods &&& 0x3f == 0) <|
  operand v.d fun d =>
  operand v.a fun a =>
  accept (.remuI v.g d a v.imm)

/-- IABS (R172). -/
def decIabs (w : DWord) : Except Bad Instr :=
  let v := V.of w
  need (v.mods &&& 0x7ffdff == 0) <|
  need (v.b == 0x24) <|
  need (v.c == 0x24) <|
  operand v.d fun d =>
  operand v.a fun a =>
  accept (.iabs v.g (v.mods.getLsbD 9) d a)

/-- INEG (R172). -/
def decIneg (w : DWord) : Except Bad Instr :=
  let v := V.of w
  need (v.mods &&& 0x7ffdff == 0) <|
  need (v.b == 0x24) <|
  need (v.c == 0x24) <|
  operand v.d fun d =>
  operand v.a fun a =>
  accept (.ineg v.g (v.mods.getLsbD 9) d a)

/-- IMIN (R172). -/
def decImin (w : DWord) : Except Bad Instr :=
  let v := V.of w
  need (v.mods &&& 0x7fffff == 0) <|
  need (v.c == 0x24) <|
  operand v.d fun d =>
  operand v.a fun a =>
  operand v.b fun b =>
  accept (.imin v.g d a b)

/-- IMIN_I (R172). -/
def decIminI (w : DWord) : Except Bad Instr :=
  let v := I.of w
  need (v.mods &&& 0x3f == 0) <|
  operand v.d fun d =>
  operand v.a fun a =>
  accept (.iminI v.g d a v.imm)

/-- IMAX (R172). -/
def decImax (w : DWord) : Except Bad Instr :=
  let v := V.of w
  need (v.mods &&& 0x7fffff == 0) <|
  need (v.c == 0x24) <|
  operand v.d fun d =>
  operand v.a fun a =>
  operand v.b fun b =>
  accept (.imax v.g d a b)

/-- IMAX_I (R172). -/
def decImaxI (w : DWord) : Except Bad Instr :=
  let v := I.of w
  need (v.mods &&& 0x3f == 0) <|
  operand v.d fun d =>
  operand v.a fun a =>
  accept (.imaxI v.g d a v.imm)

/-- IMINU (R172). -/
def decIminu (w : DWord) : Except Bad Instr :=
  let v := V.of w
  need (v.mods &&& 0x7fffff == 0) <|
  need (v.c == 0x24) <|
  operand v.d fun d =>
  operand v.a fun a =>
  operand v.b fun b =>
  accept (.iminu v.g d a b)

/-- IMINU_I (R172). -/
def decIminuI (w : DWord) : Except Bad Instr :=
  let v := I.of w
  need (v.mods &&& 0x3f == 0) <|
  operand v.d fun d =>
  operand v.a fun a =>
  accept (.iminuI v.g d a v.imm)

/-- IMAXU (R172). -/
def decImaxu (w : DWord) : Except Bad Instr :=
  let v := V.of w
  need (v.mods &&& 0x7fffff == 0) <|
  need (v.c == 0x24) <|
  operand v.d fun d =>
  operand v.a fun a =>
  operand v.b fun b =>
  accept (.imaxu v.g d a b)

/-- IMAXU_I (R172). -/
def decImaxuI (w : DWord) : Except Bad Instr :=
  let v := I.of w
  need (v.mods &&& 0x3f == 0) <|
  operand v.d fun d =>
  operand v.a fun a =>
  accept (.imaxuI v.g d a v.imm)

/-- ISAT (R172). -/
def decIsat (w : DWord) : Except Bad Instr :=
  let v := V.of w
  need (v.mods &&& 0x7ffbff == 0) <|
  need (v.c == 0x24) <|
  operand v.d fun d =>
  operand v.a fun a =>
  operand v.b fun b =>
  accept (.isat v.g (v.mods.getLsbD 10) d a b)

/-- ISAT_I (R172). -/
def decIsatI (w : DWord) : Except Bad Instr :=
  let v := I.of w
  need (v.mods &&& 0x1f == 0) <|
  operand v.d fun d =>
  operand v.a fun a =>
  accept (.isatI v.g (v.mods.getLsbD 5) d a v.imm)

/-- ICMP (R172). -/
def decIcmp (w : DWord) : Except Bad Instr :=
  let v := V.of w
  need (v.mods &&& 0x7ffa1f == 0) <|
  val (Cond.of (v.mods.extractLsb' 5 4)) fun cond =>
  need (v.c == 0x24) <|
  need (cond.isInt) <|
  operand v.d fun d =>
  operand v.a fun a =>
  operand v.b fun b =>
  accept (.icmp v.g cond (v.mods.getLsbD 10) d a b)

/-- ICMP_I (R172). -/
def decIcmpI (w : DWord) : Except Bad Instr :=
  let v := I.of w
  need (v.mods &&& 0x10 == 0) <|
  val (Cond.of (v.mods.extractLsb' 0 4)) fun cond =>
  need (cond.isInt) <|
  operand v.d fun d =>
  operand v.a fun a =>
  accept (.icmpI v.g cond (v.mods.getLsbD 5) d a v.imm)

/-- SEL (R172). -/
def decSel (w : DWord) : Except Bad Instr :=
  let v := V.of w
  need (v.mods &&& 0x7fffff == 0) <|
  operand v.d fun d =>
  operand v.a fun a =>
  operand v.b fun b =>
  operand v.c fun c =>
  accept (.sel v.g d a b c)

/-- AND (R173). -/
def decAnd (w : DWord) : Except Bad Instr :=
  let v := V.of w
  need (v.mods &&& 0x7fffff == 0) <|
  need (v.c == 0x24) <|
  operand v.d fun d =>
  operand v.a fun a =>
  operand v.b fun b =>
  accept (.and v.g d a b)

/-- AND_I (R173). -/
def decAndI (w : DWord) : Except Bad Instr :=
  let v := I.of w
  need (v.mods &&& 0x3f == 0) <|
  operand v.d fun d =>
  operand v.a fun a =>
  accept (.andI v.g d a v.imm)

/-- OR (R173). -/
def decOr (w : DWord) : Except Bad Instr :=
  let v := V.of w
  need (v.mods &&& 0x7fffff == 0) <|
  need (v.c == 0x24) <|
  operand v.d fun d =>
  operand v.a fun a =>
  operand v.b fun b =>
  accept (.or v.g d a b)

/-- OR_I (R173). -/
def decOrI (w : DWord) : Except Bad Instr :=
  let v := I.of w
  need (v.mods &&& 0x3f == 0) <|
  operand v.d fun d =>
  operand v.a fun a =>
  accept (.orI v.g d a v.imm)

/-- XOR (R173). -/
def decXor (w : DWord) : Except Bad Instr :=
  let v := V.of w
  need (v.mods &&& 0x7fffff == 0) <|
  need (v.c == 0x24) <|
  operand v.d fun d =>
  operand v.a fun a =>
  operand v.b fun b =>
  accept (.xor v.g d a b)

/-- XOR_I (R173). -/
def decXorI (w : DWord) : Except Bad Instr :=
  let v := I.of w
  need (v.mods &&& 0x3f == 0) <|
  operand v.d fun d =>
  operand v.a fun a =>
  accept (.xorI v.g d a v.imm)

/-- ANDN (R173). -/
def decAndn (w : DWord) : Except Bad Instr :=
  let v := V.of w
  need (v.mods &&& 0x7fffff == 0) <|
  need (v.c == 0x24) <|
  operand v.d fun d =>
  operand v.a fun a =>
  operand v.b fun b =>
  accept (.andn v.g d a b)

/-- ANDN_I (R173). -/
def decAndnI (w : DWord) : Except Bad Instr :=
  let v := I.of w
  need (v.mods &&& 0x3f == 0) <|
  operand v.d fun d =>
  operand v.a fun a =>
  accept (.andnI v.g d a v.imm)

/-- NOT (R173). -/
def decNot (w : DWord) : Except Bad Instr :=
  let v := V.of w
  need (v.mods &&& 0x7fffff == 0) <|
  need (v.b == 0x24) <|
  need (v.c == 0x24) <|
  operand v.d fun d =>
  operand v.a fun a =>
  accept (.not v.g d a)

/-- SHL (R173). -/
def decShl (w : DWord) : Except Bad Instr :=
  let v := V.of w
  need (v.mods &&& 0x7fffff == 0) <|
  need (v.c == 0x24) <|
  operand v.d fun d =>
  operand v.a fun a =>
  operand v.b fun b =>
  accept (.shl v.g d a b)

/-- SHL_I (R173). -/
def decShlI (w : DWord) : Except Bad Instr :=
  let v := I.of w
  need (v.mods &&& 0x3f == 0) <|
  operand v.d fun d =>
  operand v.a fun a =>
  accept (.shlI v.g d a v.imm)

/-- SHR (R173). -/
def decShr (w : DWord) : Except Bad Instr :=
  let v := V.of w
  need (v.mods &&& 0x7fffff == 0) <|
  need (v.c == 0x24) <|
  operand v.d fun d =>
  operand v.a fun a =>
  operand v.b fun b =>
  accept (.shr v.g d a b)

/-- SHR_I (R173). -/
def decShrI (w : DWord) : Except Bad Instr :=
  let v := I.of w
  need (v.mods &&& 0x3f == 0) <|
  operand v.d fun d =>
  operand v.a fun a =>
  accept (.shrI v.g d a v.imm)

/-- SAR (R173). -/
def decSar (w : DWord) : Except Bad Instr :=
  let v := V.of w
  need (v.mods &&& 0x7fffff == 0) <|
  need (v.c == 0x24) <|
  operand v.d fun d =>
  operand v.a fun a =>
  operand v.b fun b =>
  accept (.sar v.g d a b)

/-- SAR_I (R173). -/
def decSarI (w : DWord) : Except Bad Instr :=
  let v := I.of w
  need (v.mods &&& 0x3f == 0) <|
  operand v.d fun d =>
  operand v.a fun a =>
  accept (.sarI v.g d a v.imm)

/-- SHF (R173). -/
def decShf (w : DWord) : Except Bad Instr :=
  let v := V.of w
  need (v.mods &&& 0x7ffbff == 0) <|
  operand v.d fun d =>
  operand v.a fun a =>
  operand v.b fun b =>
  operand v.c fun c =>
  accept (.shf v.g (v.mods.getLsbD 10) d a b c)

/-- BFX (R174). -/
def decBfx (w : DWord) : Except Bad Instr :=
  let v := V.of w
  need (v.mods &&& 0x7fffff == 0) <|
  operand v.d fun d =>
  operand v.a fun a =>
  operand v.b fun b =>
  operand v.c fun c =>
  accept (.bfx v.g d a b c)

/-- BFXU (R174). -/
def decBfxu (w : DWord) : Except Bad Instr :=
  let v := V.of w
  need (v.mods &&& 0x7fffff == 0) <|
  operand v.d fun d =>
  operand v.a fun a =>
  operand v.b fun b =>
  operand v.c fun c =>
  accept (.bfxu v.g d a b c)

/-- BFI (R174). -/
def decBfi (w : DWord) : Except Bad Instr :=
  let v := V.of w
  need (v.mods &&& 0x7fffff == 0) <|
  operand v.d fun d =>
  operand v.a fun a =>
  operand v.b fun b =>
  operand v.c fun c =>
  accept (.bfi v.g d a b c)

/-- POPC (R174). -/
def decPopc (w : DWord) : Except Bad Instr :=
  let v := V.of w
  need (v.mods &&& 0x7fffff == 0) <|
  need (v.b == 0x24) <|
  need (v.c == 0x24) <|
  operand v.d fun d =>
  operand v.a fun a =>
  accept (.popc v.g d a)

/-- CLZ (R174). -/
def decClz (w : DWord) : Except Bad Instr :=
  let v := V.of w
  need (v.mods &&& 0x7fffff == 0) <|
  need (v.b == 0x24) <|
  need (v.c == 0x24) <|
  operand v.d fun d =>
  operand v.a fun a =>
  accept (.clz v.g d a)

/-- CTZ (R174). -/
def decCtz (w : DWord) : Except Bad Instr :=
  let v := V.of w
  need (v.mods &&& 0x7fffff == 0) <|
  need (v.b == 0x24) <|
  need (v.c == 0x24) <|
  operand v.d fun d =>
  operand v.a fun a =>
  accept (.ctz v.g d a)

/-- BREV (R174). -/
def decBrev (w : DWord) : Except Bad Instr :=
  let v := V.of w
  need (v.mods &&& 0x7fffff == 0) <|
  need (v.b == 0x24) <|
  need (v.c == 0x24) <|
  operand v.d fun d =>
  operand v.a fun a =>
  accept (.brev v.g d a)

/-- BYSEL (R175). -/
def decBysel (w : DWord) : Except Bad Instr :=
  let v := V.of w
  need (v.mods &&& 0x7fffff == 0) <|
  operand v.d fun d =>
  operand v.a fun a =>
  operand v.b fun b =>
  operand v.c fun c =>
  accept (.bysel v.g d a b c)

/-- LEA (R169). -/
def decLea (w : DWord) : Except Bad Instr :=
  let v := V.of w
  need (v.mods &&& 0x43ffff == 0) <|
  need (v.c == 0x24) <|
  need (decide ((v.mods.extractLsb' 18 3).toNat ≤ 4)) <|
  operand v.d fun d =>
  operand v.a fun a =>
  operand v.b fun b =>
  accept (.lea v.g (v.mods.extractLsb' 18 3) (v.mods.getLsbD 21) d a b)

/-- MOVI (R176). -/
def decMovi (w : DWord) : Except Bad Instr :=
  let v := I.of w
  need (v.mods &&& 0x3f == 0) <|
  need (v.a == 0x24) <|
  operand v.d fun d =>
  accept (.movi v.g d v.imm)

/-- MOV (R176). -/
def decMov (w : DWord) : Except Bad Instr :=
  let v := V.of w
  need (v.mods &&& 0x7ffbff == 0) <|
  need (v.b == 0x24) <|
  need (v.c == 0x24) <|
  operand v.d fun d =>
  operand v.a fun a =>
  accept (.mov v.g (v.mods.getLsbD 10) d a)

/-- FADD (R194). -/
def decFadd (w : DWord) : Except Bad Instr :=
  let v := V.of w
  need (v.mods &&& 0x7ffff0 == 0) <|
  val (Round.of (v.mods.extractLsb' 0 3)) fun rm =>
  need (v.c == 0x24) <|
  operand v.d fun d =>
  operand v.a fun a =>
  operand v.b fun b =>
  accept (.fadd v.g rm (v.mods.getLsbD 3) d a b)

/-- FADD_I (R194). -/
def decFaddI (w : DWord) : Except Bad Instr :=
  let v := I.of w
  need (v.mods &&& 0x18 == 0) <|
  val (Round.of (v.mods.extractLsb' 0 3)) fun rm =>
  operand v.d fun d =>
  operand v.a fun a =>
  accept (.faddI v.g rm (v.mods.getLsbD 5) d a v.imm)

/-- FSUB (R194). -/
def decFsub (w : DWord) : Except Bad Instr :=
  let v := V.of w
  need (v.mods &&& 0x7ffff0 == 0) <|
  val (Round.of (v.mods.extractLsb' 0 3)) fun rm =>
  need (v.c == 0x24) <|
  operand v.d fun d =>
  operand v.a fun a =>
  operand v.b fun b =>
  accept (.fsub v.g rm (v.mods.getLsbD 3) d a b)

/-- FSUB_I (R194). -/
def decFsubI (w : DWord) : Except Bad Instr :=
  let v := I.of w
  need (v.mods &&& 0x18 == 0) <|
  val (Round.of (v.mods.extractLsb' 0 3)) fun rm =>
  operand v.d fun d =>
  operand v.a fun a =>
  accept (.fsubI v.g rm (v.mods.getLsbD 5) d a v.imm)

/-- FMUL (R194). -/
def decFmul (w : DWord) : Except Bad Instr :=
  let v := V.of w
  need (v.mods &&& 0x7ffff0 == 0) <|
  val (Round.of (v.mods.extractLsb' 0 3)) fun rm =>
  need (v.c == 0x24) <|
  operand v.d fun d =>
  operand v.a fun a =>
  operand v.b fun b =>
  accept (.fmul v.g rm (v.mods.getLsbD 3) d a b)

/-- FMUL_I (R194). -/
def decFmulI (w : DWord) : Except Bad Instr :=
  let v := I.of w
  need (v.mods &&& 0x18 == 0) <|
  val (Round.of (v.mods.extractLsb' 0 3)) fun rm =>
  operand v.d fun d =>
  operand v.a fun a =>
  accept (.fmulI v.g rm (v.mods.getLsbD 5) d a v.imm)

/-- FFMA (R194). -/
def decFfma (w : DWord) : Except Bad Instr :=
  let v := V.of w
  need (v.mods &&& 0x7ffff0 == 0) <|
  val (Round.of (v.mods.extractLsb' 0 3)) fun rm =>
  operand v.d fun d =>
  operand v.a fun a =>
  operand v.b fun b =>
  operand v.c fun c =>
  accept (.ffma v.g rm (v.mods.getLsbD 3) d a b c)

/-- FMIN (R195). -/
def decFmin (w : DWord) : Except Bad Instr :=
  let v := V.of w
  need (v.mods &&& 0x7ffff7 == 0) <|
  need (v.c == 0x24) <|
  operand v.d fun d =>
  operand v.a fun a =>
  operand v.b fun b =>
  accept (.fmin v.g (v.mods.getLsbD 3) d a b)

/-- FMIN_I (R195). -/
def decFminI (w : DWord) : Except Bad Instr :=
  let v := I.of w
  need (v.mods &&& 0x1f == 0) <|
  operand v.d fun d =>
  operand v.a fun a =>
  accept (.fminI v.g (v.mods.getLsbD 5) d a v.imm)

/-- FMAX (R195). -/
def decFmax (w : DWord) : Except Bad Instr :=
  let v := V.of w
  need (v.mods &&& 0x7ffff7 == 0) <|
  need (v.c == 0x24) <|
  operand v.d fun d =>
  operand v.a fun a =>
  operand v.b fun b =>
  accept (.fmax v.g (v.mods.getLsbD 3) d a b)

/-- FMAX_I (R195). -/
def decFmaxI (w : DWord) : Except Bad Instr :=
  let v := I.of w
  need (v.mods &&& 0x1f == 0) <|
  operand v.d fun d =>
  operand v.a fun a =>
  accept (.fmaxI v.g (v.mods.getLsbD 5) d a v.imm)

/-- FCMP (R196). -/
def decFcmp (w : DWord) : Except Bad Instr :=
  let v := V.of w
  need (v.mods &&& 0x7ffe17 == 0) <|
  val (Cond.of (v.mods.extractLsb' 5 4)) fun cond =>
  need (v.c == 0x24) <|
  need (cond.isFloat) <|
  operand v.d fun d =>
  operand v.a fun a =>
  operand v.b fun b =>
  accept (.fcmp v.g cond (v.mods.getLsbD 3) d a b)

/-- FCMP_I (R196). -/
def decFcmpI (w : DWord) : Except Bad Instr :=
  let v := I.of w
  need (v.mods &&& 0x10 == 0) <|
  val (Cond.of (v.mods.extractLsb' 0 4)) fun cond =>
  need (cond.isFloat) <|
  operand v.d fun d =>
  operand v.a fun a =>
  accept (.fcmpI v.g cond (v.mods.getLsbD 5) d a v.imm)

/-- FRCP (R197). -/
def decFrcp (w : DWord) : Except Bad Instr :=
  let v := V.of w
  need (!v.g) <|
  need (v.mods &&& 0x7ffff7 == 0) <|
  need (v.b == 0x24) <|
  need (v.c == 0x24) <|
  operand v.d fun d =>
  operand v.a fun a =>
  accept (.frcp (v.mods.getLsbD 3) d a)

/-- FRSQ (R197). -/
def decFrsq (w : DWord) : Except Bad Instr :=
  let v := V.of w
  need (!v.g) <|
  need (v.mods &&& 0x7ffff7 == 0) <|
  need (v.b == 0x24) <|
  need (v.c == 0x24) <|
  operand v.d fun d =>
  operand v.a fun a =>
  accept (.frsq (v.mods.getLsbD 3) d a)

/-- FSQRT (R197). -/
def decFsqrt (w : DWord) : Except Bad Instr :=
  let v := V.of w
  need (!v.g) <|
  need (v.mods &&& 0x7ffff7 == 0) <|
  need (v.b == 0x24) <|
  need (v.c == 0x24) <|
  operand v.d fun d =>
  operand v.a fun a =>
  accept (.fsqrt (v.mods.getLsbD 3) d a)

/-- FEXP2 (R197). -/
def decFexp2 (w : DWord) : Except Bad Instr :=
  let v := V.of w
  need (!v.g) <|
  need (v.mods &&& 0x7ffff7 == 0) <|
  need (v.b == 0x24) <|
  need (v.c == 0x24) <|
  operand v.d fun d =>
  operand v.a fun a =>
  accept (.fexp2 (v.mods.getLsbD 3) d a)

/-- FLOG2 (R197). -/
def decFlog2 (w : DWord) : Except Bad Instr :=
  let v := V.of w
  need (!v.g) <|
  need (v.mods &&& 0x7ffff7 == 0) <|
  need (v.b == 0x24) <|
  need (v.c == 0x24) <|
  operand v.d fun d =>
  operand v.a fun a =>
  accept (.flog2 (v.mods.getLsbD 3) d a)

/-- FSIN (R197). -/
def decFsin (w : DWord) : Except Bad Instr :=
  let v := V.of w
  need (!v.g) <|
  need (v.mods &&& 0x7ffff7 == 0) <|
  need (v.b == 0x24) <|
  need (v.c == 0x24) <|
  operand v.d fun d =>
  operand v.a fun a =>
  accept (.fsin (v.mods.getLsbD 3) d a)

/-- FCOS (R197). -/
def decFcos (w : DWord) : Except Bad Instr :=
  let v := V.of w
  need (!v.g) <|
  need (v.mods &&& 0x7ffff7 == 0) <|
  need (v.b == 0x24) <|
  need (v.c == 0x24) <|
  operand v.d fun d =>
  operand v.a fun a =>
  accept (.fcos (v.mods.getLsbD 3) d a)

/-- FRND (R198). -/
def decFrnd (w : DWord) : Except Bad Instr :=
  let v := V.of w
  need (!v.g) <|
  need (v.mods &&& 0x7ffff0 == 0) <|
  val (Round.of (v.mods.extractLsb' 0 3)) fun rm =>
  need (v.b == 0x24) <|
  need (v.c == 0x24) <|
  operand v.d fun d =>
  operand v.a fun a =>
  accept (.frnd rm (v.mods.getLsbD 3) d a)

/-- FCLASS (R199). -/
def decFclass (w : DWord) : Except Bad Instr :=
  let v := V.of w
  need (!v.g) <|
  need (v.mods &&& 0x7ffff7 == 0) <|
  need (v.b == 0x24) <|
  need (v.c == 0x24) <|
  operand v.d fun d =>
  operand v.a fun a =>
  accept (.fclass (v.mods.getLsbD 3) d a)

/-- PKADD (R194). -/
def decPkadd (w : DWord) : Except Bad Instr :=
  let v := V.of w
  need (!v.g) <|
  need (v.mods &&& 0x7fffe0 == 0) <|
  val (Round.of (v.mods.extractLsb' 0 3)) fun rm =>
  val (PkType.of (v.mods.extractLsb' 4 1)) fun ty =>
  need (v.c == 0x24) <|
  operand v.d fun d =>
  operand v.a fun a =>
  operand v.b fun b =>
  accept (.pkadd ty rm (v.mods.getLsbD 3) d a b)

/-- PKADD_I (R194). -/
def decPkaddI (w : DWord) : Except Bad Instr :=
  let v := I.of w
  need (!v.g) <|
  need (v.mods &&& 0x8 == 0) <|
  val (Round.of (v.mods.extractLsb' 0 3)) fun rm =>
  val (PkType.of (v.mods.extractLsb' 4 1)) fun ty =>
  operand v.d fun d =>
  operand v.a fun a =>
  accept (.pkaddI ty rm (v.mods.getLsbD 5) d a v.imm)

/-- PKMUL (R194). -/
def decPkmul (w : DWord) : Except Bad Instr :=
  let v := V.of w
  need (!v.g) <|
  need (v.mods &&& 0x7fffe0 == 0) <|
  val (Round.of (v.mods.extractLsb' 0 3)) fun rm =>
  val (PkType.of (v.mods.extractLsb' 4 1)) fun ty =>
  need (v.c == 0x24) <|
  operand v.d fun d =>
  operand v.a fun a =>
  operand v.b fun b =>
  accept (.pkmul ty rm (v.mods.getLsbD 3) d a b)

/-- PKMUL_I (R194). -/
def decPkmulI (w : DWord) : Except Bad Instr :=
  let v := I.of w
  need (!v.g) <|
  need (v.mods &&& 0x8 == 0) <|
  val (Round.of (v.mods.extractLsb' 0 3)) fun rm =>
  val (PkType.of (v.mods.extractLsb' 4 1)) fun ty =>
  operand v.d fun d =>
  operand v.a fun a =>
  accept (.pkmulI ty rm (v.mods.getLsbD 5) d a v.imm)

/-- PKFMA (R194). -/
def decPkfma (w : DWord) : Except Bad Instr :=
  let v := V.of w
  need (!v.g) <|
  need (v.mods &&& 0x7fffe0 == 0) <|
  val (Round.of (v.mods.extractLsb' 0 3)) fun rm =>
  val (PkType.of (v.mods.extractLsb' 4 1)) fun ty =>
  operand v.d fun d =>
  operand v.a fun a =>
  operand v.b fun b =>
  operand v.c fun c =>
  accept (.pkfma ty rm (v.mods.getLsbD 3) d a b c)

/-- DADD (R194). -/
def decDadd (w : DWord) : Except Bad Instr :=
  let v := V.of w
  need (!v.g) <|
  need (v.mods &&& 0x7ffff0 == 0) <|
  val (Round.of (v.mods.extractLsb' 0 3)) fun rm =>
  need (v.c == 0x24) <|
  operand v.d fun d =>
  operand v.a fun a =>
  operand v.b fun b =>
  accept (.dadd rm (v.mods.getLsbD 3) d a b)

/-- DADD_I (R194). -/
def decDaddI (w : DWord) : Except Bad Instr :=
  let v := I.of w
  need (!v.g) <|
  need (v.mods &&& 0x18 == 0) <|
  val (Round.of (v.mods.extractLsb' 0 3)) fun rm =>
  operand v.d fun d =>
  operand v.a fun a =>
  accept (.daddI rm (v.mods.getLsbD 5) d a v.imm)

/-- DSUB (R194). -/
def decDsub (w : DWord) : Except Bad Instr :=
  let v := V.of w
  need (!v.g) <|
  need (v.mods &&& 0x7ffff0 == 0) <|
  val (Round.of (v.mods.extractLsb' 0 3)) fun rm =>
  need (v.c == 0x24) <|
  operand v.d fun d =>
  operand v.a fun a =>
  operand v.b fun b =>
  accept (.dsub rm (v.mods.getLsbD 3) d a b)

/-- DSUB_I (R194). -/
def decDsubI (w : DWord) : Except Bad Instr :=
  let v := I.of w
  need (!v.g) <|
  need (v.mods &&& 0x18 == 0) <|
  val (Round.of (v.mods.extractLsb' 0 3)) fun rm =>
  operand v.d fun d =>
  operand v.a fun a =>
  accept (.dsubI rm (v.mods.getLsbD 5) d a v.imm)

/-- DMUL (R194). -/
def decDmul (w : DWord) : Except Bad Instr :=
  let v := V.of w
  need (!v.g) <|
  need (v.mods &&& 0x7ffff0 == 0) <|
  val (Round.of (v.mods.extractLsb' 0 3)) fun rm =>
  need (v.c == 0x24) <|
  operand v.d fun d =>
  operand v.a fun a =>
  operand v.b fun b =>
  accept (.dmul rm (v.mods.getLsbD 3) d a b)

/-- DMUL_I (R194). -/
def decDmulI (w : DWord) : Except Bad Instr :=
  let v := I.of w
  need (!v.g) <|
  need (v.mods &&& 0x18 == 0) <|
  val (Round.of (v.mods.extractLsb' 0 3)) fun rm =>
  operand v.d fun d =>
  operand v.a fun a =>
  accept (.dmulI rm (v.mods.getLsbD 5) d a v.imm)

/-- DFMA (R194). -/
def decDfma (w : DWord) : Except Bad Instr :=
  let v := V.of w
  need (!v.g) <|
  need (v.mods &&& 0x7ffff0 == 0) <|
  val (Round.of (v.mods.extractLsb' 0 3)) fun rm =>
  operand v.d fun d =>
  operand v.a fun a =>
  operand v.b fun b =>
  operand v.c fun c =>
  accept (.dfma rm (v.mods.getLsbD 3) d a b c)

/-- DMIN (R195). -/
def decDmin (w : DWord) : Except Bad Instr :=
  let v := V.of w
  need (!v.g) <|
  need (v.mods &&& 0x7ffff7 == 0) <|
  need (v.c == 0x24) <|
  operand v.d fun d =>
  operand v.a fun a =>
  operand v.b fun b =>
  accept (.dmin (v.mods.getLsbD 3) d a b)

/-- DMIN_I (R195). -/
def decDminI (w : DWord) : Except Bad Instr :=
  let v := I.of w
  need (!v.g) <|
  need (v.mods &&& 0x1f == 0) <|
  operand v.d fun d =>
  operand v.a fun a =>
  accept (.dminI (v.mods.getLsbD 5) d a v.imm)

/-- DMAX (R195). -/
def decDmax (w : DWord) : Except Bad Instr :=
  let v := V.of w
  need (!v.g) <|
  need (v.mods &&& 0x7ffff7 == 0) <|
  need (v.c == 0x24) <|
  operand v.d fun d =>
  operand v.a fun a =>
  operand v.b fun b =>
  accept (.dmax (v.mods.getLsbD 3) d a b)

/-- DMAX_I (R195). -/
def decDmaxI (w : DWord) : Except Bad Instr :=
  let v := I.of w
  need (!v.g) <|
  need (v.mods &&& 0x1f == 0) <|
  operand v.d fun d =>
  operand v.a fun a =>
  accept (.dmaxI (v.mods.getLsbD 5) d a v.imm)

/-- DCMP (R196). -/
def decDcmp (w : DWord) : Except Bad Instr :=
  let v := V.of w
  need (!v.g) <|
  need (v.mods &&& 0x7ffe17 == 0) <|
  val (Cond.of (v.mods.extractLsb' 5 4)) fun cond =>
  need (v.c == 0x24) <|
  need (cond.isFloat) <|
  operand v.d fun d =>
  operand v.a fun a =>
  operand v.b fun b =>
  accept (.dcmp cond (v.mods.getLsbD 3) d a b)

/-- DCMP_I (R196). -/
def decDcmpI (w : DWord) : Except Bad Instr :=
  let v := I.of w
  need (!v.g) <|
  need (v.mods &&& 0x10 == 0) <|
  val (Cond.of (v.mods.extractLsb' 0 4)) fun cond =>
  need (cond.isFloat) <|
  operand v.d fun d =>
  operand v.a fun a =>
  accept (.dcmpI cond (v.mods.getLsbD 5) d a v.imm)

/-- DRCP (R197). -/
def decDrcp (w : DWord) : Except Bad Instr :=
  let v := V.of w
  need (!v.g) <|
  need (v.mods &&& 0x7ffff7 == 0) <|
  need (v.b == 0x24) <|
  need (v.c == 0x24) <|
  operand v.d fun d =>
  operand v.a fun a =>
  accept (.drcp (v.mods.getLsbD 3) d a)

/-- DRSQ (R197). -/
def decDrsq (w : DWord) : Except Bad Instr :=
  let v := V.of w
  need (!v.g) <|
  need (v.mods &&& 0x7ffff7 == 0) <|
  need (v.b == 0x24) <|
  need (v.c == 0x24) <|
  operand v.d fun d =>
  operand v.a fun a =>
  accept (.drsq (v.mods.getLsbD 3) d a)

/-- CVTIF (R202). -/
def decCvtif (w : DWord) : Except Bad Instr :=
  let v := V.of w
  need (v.mods &&& 0x3fff8 == 0) <|
  val (Round.of (v.mods.extractLsb' 0 3)) fun rm =>
  val (IWidth.of (v.mods.extractLsb' 18 2)) fun iw =>
  val (FType.of (v.mods.extractLsb' 21 2)) fun ft =>
  need (v.b == 0x24) <|
  need (v.c == 0x24) <|
  operand v.d fun d =>
  operand v.a fun a =>
  accept (.cvtif v.g ft (v.mods.getLsbD 20) iw rm d a)

/-- CVTFI (R203). -/
def decCvtfi (w : DWord) : Except Bad Instr :=
  let v := V.of w
  need (v.mods &&& 0x3fff0 == 0) <|
  val (Round.of (v.mods.extractLsb' 0 3)) fun rm =>
  val (IWidth.of (v.mods.extractLsb' 18 2)) fun iw =>
  val (FType.of (v.mods.extractLsb' 21 2)) fun ft =>
  need (v.b == 0x24) <|
  need (v.c == 0x24) <|
  operand v.d fun d =>
  operand v.a fun a =>
  accept (.cvtfi v.g (v.mods.getLsbD 20) iw ft rm (v.mods.getLsbD 3) d a)

/-- CVTFF (R204). -/
def decCvtff (w : DWord) : Except Bad Instr :=
  let v := V.of w
  need (!v.g) <|
  need (v.mods &&& 0x13fff0 == 0) <|
  val (Round.of (v.mods.extractLsb' 0 3)) fun rm =>
  val (FType.of (v.mods.extractLsb' 18 2)) fun ftd =>
  val (FType.of (v.mods.extractLsb' 21 2)) fun fta =>
  need (v.b == 0x24) <|
  need (v.c == 0x24) <|
  need (decide (ftd ≠ fta)) <|
  operand v.d fun d =>
  operand v.a fun a =>
  accept (.cvtff ftd fta rm (v.mods.getLsbD 3) d a)

/-- CVTII (R205). -/
def decCvtii (w : DWord) : Except Bad Instr :=
  let v := V.of w
  need (v.mods &&& 0x3f3ff == 0) <|
  val (IWidth.of (v.mods.extractLsb' 18 2)) fun wa =>
  val (IWidth.of (v.mods.extractLsb' 21 2)) fun wd =>
  need (v.b == 0x24) <|
  need (v.c == 0x24) <|
  need (decide (¬(wd = wa ∧ (v.mods.getLsbD 11) = (v.mods.getLsbD 20)))) <|
  operand v.d fun d =>
  operand v.a fun a =>
  accept (.cvtii v.g wd (v.mods.getLsbD 11) wa (v.mods.getLsbD 20) (v.mods.getLsbD 10) d a)

/-- PACKH (R206). -/
def decPackh (w : DWord) : Except Bad Instr :=
  let v := V.of w
  need (!v.g) <|
  need (v.mods &&& 0x7ffbf0 == 0) <|
  val (Round.of (v.mods.extractLsb' 0 3)) fun rm =>
  val (PkType.of (v.mods.extractLsb' 10 1)) fun ty =>
  need (v.c == 0x24) <|
  operand v.d fun d =>
  operand v.a fun a =>
  operand v.b fun b =>
  accept (.packh ty rm (v.mods.getLsbD 3) d a b)

/-- UNPKH (R206). -/
def decUnpkh (w : DWord) : Except Bad Instr :=
  let v := V.of w
  need (!v.g) <|
  need (v.mods &&& 0x7ff3ff == 0) <|
  val (PkType.of (v.mods.extractLsb' 10 1)) fun ty =>
  need (v.b == 0x24) <|
  need (v.c == 0x24) <|
  operand v.d fun d =>
  operand v.a fun a =>
  accept (.unpkh ty (v.mods.getLsbD 11) d a)

/-- XLANE (R179). -/
def decXlane (w : DWord) : Except Bad Instr :=
  let v := V.of w
  need (!v.g) <|
  need (v.mods &&& 0x7ffbfc == 0) <|
  val (XMode.of (v.mods.extractLsb' 0 2)) fun mode =>
  need (v.c == 0x24) <|
  operand v.d fun d =>
  operand v.a fun a =>
  operand v.b fun b =>
  accept (.xlane mode (v.mods.getLsbD 10) d a b)

/-- VOTE (R180). -/
def decVote (w : DWord) : Except Bad Instr :=
  let v := V.of w
  need (!v.g) <|
  need (v.mods &&& 0x7ffffc == 0) <|
  val (VMode.of (v.mods.extractLsb' 0 2)) fun mode =>
  need (v.b == 0x24) <|
  need (v.c == 0x24) <|
  operand v.d fun d =>
  operand v.a fun a =>
  accept (.vote mode d a)

/-- GREDUX (R181). -/
def decGredux (w : DWord) : Except Bad Instr :=
  let v := V.of w
  need (!v.g) <|
  need (v.mods &&& 0x7e0fff == 0) <|
  val (AluOp.of (v.mods.extractLsb' 12 5)) fun op =>
  need (v.b == 0x24) <|
  need (v.c == 0x24) <|
  need (op.isRed) <|
  operand v.d fun d =>
  operand v.a fun a =>
  accept (.gredux op d a)

/-- SCAN (R183). -/
def decScan (w : DWord) : Except Bad Instr :=
  let v := V.of w
  need (!v.g) <|
  need (v.mods &&& 0x7e03ff == 0) <|
  val (AluOp.of (v.mods.extractLsb' 12 5)) fun op =>
  need (v.c == 0x24) <|
  need (op.isRed) <|
  need (decide ((v.mods.getLsbD 11) = true ∨ v.b = 0x24)) <|
  operand v.d fun d =>
  operand v.a fun a =>
  operand v.b fun b =>
  accept (.scan op (v.mods.getLsbD 10) (v.mods.getLsbD 11) d a b)

/-- LD (R216). -/
def decLd (w : DWord) : Except Bad Instr :=
  let v := M.of w
  need (!v.g) <|
  val (Space.of v.space) fun sp =>
  val (Width.of v.width) fun wd =>
  val (Hint.of v.hint) fun hint =>
  need (v.b == 0x24) <|
  need (decide (sp.cached = true ∨ hint = .none)) <|
  operand v.d fun d =>
  operand v.a fun a =>
  accept (.ld sp wd hint v.off d a)

/-- ST (R216). -/
def decSt (w : DWord) : Except Bad Instr :=
  let v := M.of w
  need (!v.g) <|
  val (Space.of v.space) fun sp =>
  val (Width.of v.width) fun wd =>
  val (Hint.of v.hint) fun hint =>
  need (v.b == 0x24) <|
  need (decide (sp.cached = true ∨ hint = .none)) <|
  operand v.d fun s =>
  operand v.a fun a =>
  accept (.st sp wd hint v.off s a)

/-- GATHER (R216). -/
def decGather (w : DWord) : Except Bad Instr :=
  let v := M.of w
  need (!v.g) <|
  val (Space.of v.space) fun sp =>
  val (Width.of v.width) fun wd =>
  val (Hint.of v.hint) fun hint =>
  need (decide (sp.cached = true ∨ hint = .none)) <|
  operand v.d fun d =>
  operand v.a fun a =>
  operand v.b fun i =>
  accept (.gather sp wd hint v.off d a i)

/-- SCATTER (R216). -/
def decScatter (w : DWord) : Except Bad Instr :=
  let v := M.of w
  need (!v.g) <|
  val (Space.of v.space) fun sp =>
  val (Width.of v.width) fun wd =>
  val (Hint.of v.hint) fun hint =>
  need (decide (sp.cached = true ∨ hint = .none)) <|
  operand v.d fun s =>
  operand v.a fun a =>
  operand v.b fun i =>
  accept (.scatter sp wd hint v.off s a i)

/-- SCATTER_ADD (R222). -/
def decScatterAdd (w : DWord) : Except Bad Instr :=
  let v := V.of w
  need (!v.g) <|
  need (v.mods &&& 0x3ff == 0) <|
  val (GS.of (v.mods.extractLsb' 21 2)) fun sp =>
  val (Width.of (v.mods.extractLsb' 18 3)) fun w =>
  val (AluOp.of (v.mods.extractLsb' 12 5)) fun op =>
  val (Hint.of (v.mods.extractLsb' 10 2)) fun hint =>
  need (v.mods.getLsbD 17) <|
  need (v.d == 0x24) <|
  need (op.isAdd) <|
  need (op.okWidth w) <|
  need (decide (sp = .gl ∨ hint = .none)) <|
  operand v.a fun a =>
  operand v.b fun i =>
  operand v.c fun c =>
  accept (.scatterAdd sp w op hint a i c)

/-- ATOM (R222). -/
def decAtom (w : DWord) : Except Bad Instr :=
  let v := V.of w
  need (v.mods &&& 0x203ff == 0) <|
  val (GS.of (v.mods.extractLsb' 21 2)) fun sp =>
  val (Width.of (v.mods.extractLsb' 18 3)) fun w =>
  val (AluOp.of (v.mods.extractLsb' 12 5)) fun op =>
  val (Hint.of (v.mods.extractLsb' 10 2)) fun hint =>
  need (op.okWidth w) <|
  need (decide (sp = .gl ∨ hint = .none)) <|
  need (decide (op = .cas ∨ v.c = 0x24)) <|
  operand v.d fun d =>
  operand v.a fun a =>
  operand v.b fun b =>
  operand v.c fun c =>
  accept (.atom v.g sp w op hint d a b c)

/-- RED (R222). -/
def decRed (w : DWord) : Except Bad Instr :=
  let v := V.of w
  need (v.mods &&& 0x203ff == 0) <|
  val (GS.of (v.mods.extractLsb' 21 2)) fun sp =>
  val (Width.of (v.mods.extractLsb' 18 3)) fun w =>
  val (AluOp.of (v.mods.extractLsb' 12 5)) fun op =>
  val (Hint.of (v.mods.extractLsb' 10 2)) fun hint =>
  need (v.d == 0x24) <|
  need (v.c == 0x24) <|
  need (op.isRed) <|
  need (op.okWidth w) <|
  need (decide (sp = .gl ∨ hint = .none)) <|
  operand v.a fun a =>
  operand v.b fun b =>
  accept (.red v.g sp w op hint a b)

/-- ACQ (R224). -/
def decAcq (w : DWord) : Except Bad Instr :=
  let v := M.of w
  val (GS.of v.space) fun sp =>
  need (v.width == 3) <|
  val (Hint.of v.hint) fun hint =>
  need (v.d == 0x24) <|
  need (v.b == 0x24) <|
  need (decide (sp = .gl ∨ hint = .none)) <|
  operand v.a fun a =>
  accept (.acq v.g sp hint v.off a)

/-- REL (R224). -/
def decRel (w : DWord) : Except Bad Instr :=
  let v := M.of w
  val (GS.of v.space) fun sp =>
  need (v.width == 3) <|
  val (Hint.of v.hint) fun hint =>
  need (v.d == 0x24) <|
  need (v.b == 0x24) <|
  need (decide (sp = .gl ∨ hint = .none)) <|
  operand v.a fun a =>
  accept (.rel v.g sp hint v.off a)

/-- ACQLD (R224). -/
def decAcqld (w : DWord) : Except Bad Instr :=
  let v := M.of w
  val (GS.of v.space) fun sp =>
  need (v.width == 3) <|
  val (Hint.of v.hint) fun hint =>
  need (v.b == 0x24) <|
  need (decide (sp = .gl ∨ hint = .none)) <|
  operand v.d fun d =>
  operand v.a fun a =>
  accept (.acqld v.g sp hint v.off d a)

/-- RELST (R224). -/
def decRelst (w : DWord) : Except Bad Instr :=
  let v := M.of w
  val (GS.of v.space) fun sp =>
  need (v.width == 3) <|
  val (Hint.of v.hint) fun hint =>
  need (v.b == 0x24) <|
  need (decide (sp = .gl ∨ hint = .none)) <|
  operand v.d fun s =>
  operand v.a fun a =>
  accept (.relst v.g sp hint v.off s a)

/-- FENCE (R225). -/
def decFence (w : DWord) : Except Bad Instr :=
  let v := V.of w
  need (!v.g) <|
  need (v.mods &&& 0x7fffff == 0) <|
  need (v.d == 0x24) <|
  need (v.a == 0x24) <|
  need (v.b == 0x24) <|
  need (v.c == 0x24) <|
  accept (.fence)

/-- XFENCE (R76). -/
def decXfence (w : DWord) : Except Bad Instr :=
  let v := V.of w
  need (!v.g) <|
  need (v.mods &&& 0x7ffff0 == 0) <|
  val (APath.of (v.mods.extractLsb' 0 2)) fun p =>
  val (APath.of (v.mods.extractLsb' 2 2)) fun q =>
  need (v.d == 0x24) <|
  need (v.a == 0x24) <|
  need (v.b == 0x24) <|
  need (v.c == 0x24) <|
  need (decide (p ≠ q)) <|
  accept (.xfence p q)

/-- BIND (R227). -/
def decBind (w : DWord) : Except Bad Instr :=
  let v := V.of w
  need (!v.g) <|
  need (v.mods &&& 0x7fffff == 0) <|
  operand v.d fun d =>
  operand v.a fun a =>
  operand v.b fun b =>
  operand v.c fun c =>
  accept (.bind d a b c)

/-- UNBIND (R227). -/
def decUnbind (w : DWord) : Except Bad Instr :=
  let v := V.of w
  need (!v.g) <|
  need (v.mods &&& 0x7fffff == 0) <|
  need (v.b == 0x24) <|
  need (v.c == 0x24) <|
  operand v.d fun d =>
  operand v.a fun a =>
  accept (.unbind d a)

/-- PREF (R217). -/
def decPref (w : DWord) : Except Bad Instr :=
  let v := M.of w
  need (!v.g) <|
  need (v.space == 0) <|
  val (Width.of v.width) fun wd =>
  val (Hint.of v.hint) fun hint =>
  need (v.d == 0x24) <|
  operand v.a fun a =>
  operand v.b fun i =>
  accept (.pref wd hint v.off a i)

/-- SPILL (R219). -/
def decSpill (w : DWord) : Except Bad Instr :=
  let v := M.of w
  need (!v.g) <|
  val (Space.of v.space) fun sp =>
  need (v.width == 2) <|
  val (Hint.of v.hint) fun hint =>
  need (v.b.extractLsb' 5 3 == 0) <|
  need (sp.cached) <|
  need (decide (v.d.toNat + (v.b.extractLsb' 0 5).toNat ≤ 255)) <|
  operand v.a fun a =>
  accept (.spill sp hint v.off v.d (v.b.extractLsb' 0 5) a)

/-- FILL (R219). -/
def decFill (w : DWord) : Except Bad Instr :=
  let v := M.of w
  need (!v.g) <|
  val (Space.of v.space) fun sp =>
  need (v.width == 2) <|
  val (Hint.of v.hint) fun hint =>
  need (v.b.extractLsb' 5 3 == 0) <|
  need (sp.cached) <|
  need (decide (v.d.toNat + (v.b.extractLsb' 0 5).toNat ≤ 255)) <|
  operand v.a fun a =>
  accept (.fill sp hint v.off v.d (v.b.extractLsb' 0 5) a)

/-- CPY (R229). -/
def decCpy (w : DWord) : Except Bad Instr :=
  let v := V.of w
  need (!v.g) <|
  need (v.mods &&& 0x7f8000 == 0) <|
  val (GS.of (v.mods.extractLsb' 9 2)) fun dsp =>
  val (GS.of (v.mods.extractLsb' 11 2)) fun ssp =>
  val (Hint.of (v.mods.extractLsb' 13 2)) fun hint =>
  need (v.c == 0x24) <|
  need (decide ((v.mods.getLsbD 3) = false ∨ (dsp = .gl ∧ ssp = .gl))) <|
  need (decide (ssp = .gl ∨ hint = .none)) <|
  operand v.d fun d =>
  operand v.a fun a =>
  operand v.b fun b =>
  accept (.cpy (v.mods.extractLsb' 0 3) (v.mods.getLsbD 3) (v.mods.extractLsb' 4 5) dsp ssp hint d a b)

/-- CPY2D (R230). -/
def decCpy2d (w : DWord) : Except Bad Instr :=
  let v := X.of w
  need (!v.g) <|
  need (v.mods &&& 0x1c00 == 0) <|
  val (GS.of (v.mods.extractLsb' 4 2)) fun dsp =>
  val (GS.of (v.mods.extractLsb' 6 2)) fun ssp =>
  val (Hint.of (v.mods.extractLsb' 8 2)) fun hint =>
  need (decide ((v.mods.getLsbD 3) = false ∨ (dsp = .gl ∧ ssp = .gl))) <|
  need (decide (ssp = .gl ∨ hint = .none)) <|
  operand v.d fun d =>
  operand v.a fun a =>
  operand v.b fun b =>
  accept (.cpy2d (v.mods.extractLsb' 0 3) (v.mods.getLsbD 3) dsp ssp hint d a b v.ga v.gb v.gc)

/-- CSEAL (R232). -/
def decCseal (w : DWord) : Except Bad Instr :=
  let v := V.of w
  need (!v.g) <|
  need (v.mods &&& 0x7ffff8 == 0) <|
  need (v.a == 0x24) <|
  need (v.b == 0x24) <|
  need (v.c == 0x24) <|
  opnd (decide (0x40 ≤ v.d.toNat ∧ v.d.toNat < 0x80)) <|
  accept (.cseal (v.mods.extractLsb' 0 3) (v.d.extractLsb' 0 6))

/-- CDEC (R231). -/
def decCdec (w : DWord) : Except Bad Instr :=
  let v := X.of w
  need (!v.g) <|
  need (v.mods &&& 0x1fe0 == 0) <|
  val (Hint.of (v.mods.extractLsb' 3 2)) fun hint =>
  need (v.b == 0x24) <|
  need (v.gc == 0) <|
  operand v.d fun d =>
  operand v.a fun a =>
  accept (.cdec (v.mods.extractLsb' 0 3) hint d a v.ga v.gb)

/-- FOPEN (R238). -/
def decFopen (w : DWord) : Except Bad Instr :=
  let v := V.of w
  need (!v.g) <|
  need (v.mods &&& 0x7fff80 == 0) <|
  val (CWidth.of (v.mods.extractLsb' 3 2)) fun cw =>
  val (VWidth.of (v.mods.extractLsb' 5 2)) fun vw =>
  need (v.d == 0x24) <|
  operand v.a fun a =>
  operand v.b fun b =>
  operand v.c fun c =>
  accept (.fopen (v.mods.extractLsb' 0 3) cw vw a b c)

/-- FNEXT (R238). -/
def decFnext (w : DWord) : Except Bad Instr :=
  let v := V.of w
  need (!v.g) <|
  need (v.mods &&& 0x7fffc0 == 0) <|
  val (Hint.of (v.mods.extractLsb' 3 2)) fun hint =>
  need (v.b == 0x24) <|
  need (v.c == 0x24) <|
  operand v.d fun d =>
  operand v.a fun c =>
  accept (.fnext (v.mods.extractLsb' 0 3) (v.mods.getLsbD 5) hint d c)

/-- FTEST (R238). -/
def decFtest (w : DWord) : Except Bad Instr :=
  let v := V.of w
  need (!v.g) <|
  need (v.mods &&& 0x7ffff8 == 0) <|
  need (v.a == 0x24) <|
  need (v.b == 0x24) <|
  need (v.c == 0x24) <|
  operand v.d fun d =>
  accept (.ftest (v.mods.extractLsb' 0 3) d)

/-- FCLOSE (R238). -/
def decFclose (w : DWord) : Except Bad Instr :=
  let v := V.of w
  need (!v.g) <|
  need (v.mods &&& 0x7ffff8 == 0) <|
  need (v.d == 0x24) <|
  need (v.a == 0x24) <|
  need (v.b == 0x24) <|
  need (v.c == 0x24) <|
  accept (.fclose (v.mods.extractLsb' 0 3))

/-- ORSV (R246). -/
def decOrsv (w : DWord) : Except Bad Instr :=
  let v := X.of w
  need (!v.g) <|
  need (v.mods &&& 0x1fff == 0) <|
  need (v.a == 0x24) <|
  need (v.b == 0x24) <|
  need (v.gb == 0) <|
  need (v.gc == 0) <|
  operand v.d fun d =>
  accept (.orsv d v.ga)

/-- ORLS (R246). -/
def decOrls (w : DWord) : Except Bad Instr :=
  let v := X.of w
  need (!v.g) <|
  need (v.mods &&& 0x1fff == 0) <|
  need (v.a == 0x24) <|
  need (v.b == 0x24) <|
  need (v.gb == 0) <|
  need (v.gc == 0) <|
  operand v.d fun d =>
  accept (.orls d v.ga)

/-- MGATH (R250). -/
def decMgath (w : DWord) : Except Bad Instr :=
  let v := X.of w
  need (!v.g) <|
  need (v.mods &&& 0x1ffc == 0) <|
  val (RowPart.of (v.mods.extractLsb' 0 2)) fun p =>
  need (v.d == 0x24) <|
  need (v.b == 0x24) <|
  need (v.ga == 0) <|
  need (v.gb == 0) <|
  need (v.gc == 0) <|
  operand v.a fun a =>
  accept (.mgath p a)

/-- MMA (R251). -/
def decMma (w : DWord) : Except Bad Instr :=
  let v := X.of w
  need (!v.g) <|
  need (v.mods &&& 0x1ffc == 0) <|
  need (decide (¬((v.mods.getLsbD 0) = true ∧ (v.mods.getLsbD 1) = true))) <|
  need (decide ((v.mods.getLsbD 0) = true ∨ (v.mods.getLsbD 1) = true ∨ v.d = 0x24)) <|
  operand v.d fun x =>
  operand v.a fun b =>
  operand v.b fun o =>
  accept (.mma (v.mods.getLsbD 0) (v.mods.getLsbD 1) x b o v.ga v.gb v.gc)

/-- MMAP (R255). -/
def decMmap (w : DWord) : Except Bad Instr :=
  let v := X.of w
  need (!v.g) <|
  need (v.mods &&& 0x1e == 0) <|
  need (decide ((v.mods.getLsbD 0) = true ∨ v.d = 0x24)) <|
  operand v.d fun x =>
  operand v.a fun b =>
  operand v.b fun o =>
  accept (.mmap (v.mods.getLsbD 0) (v.mods.extractLsb' 5 8) x b o v.ga v.gb v.gc)

/-- GUIDE (R257). -/
def decGuide (w : DWord) : Except Bad Instr :=
  let v := X.of w
  need (!v.g) <|
  need (v.mods &&& 0x1fff == 0) <|
  need (v.a == 0x24) <|
  operand v.d fun d =>
  operand v.b fun o =>
  accept (.guide d o v.ga v.gb v.gc)

/-- MZERO (R258). -/
def decMzero (w : DWord) : Except Bad Instr :=
  let v := X.of w
  need (!v.g) <|
  need (v.mods &&& 0x1fff == 0) <|
  need (v.d == 0x24) <|
  need (v.a == 0x24) <|
  need (v.gc == 0) <|
  operand v.b fun o =>
  accept (.mzero o v.ga v.gb)

/-- MST (R258). -/
def decMst (w : DWord) : Except Bad Instr :=
  let v := X.of w
  need (!v.g) <|
  need (v.mods &&& 0x1fe0 == 0) <|
  val (GS.of (v.mods.extractLsb' 0 2)) fun sp =>
  val (Hint.of (v.mods.extractLsb' 3 2)) fun hint =>
  need (v.d == 0x24) <|
  need (decide (sp = .gl ∨ hint = .none)) <|
  operand v.a fun a =>
  operand v.b fun o =>
  accept (.mst sp (v.mods.getLsbD 2) hint a o v.ga v.gb v.gc)

/-- MLD (R258). -/
def decMld (w : DWord) : Except Bad Instr :=
  let v := X.of w
  need (!v.g) <|
  need (v.mods &&& 0x1fe0 == 0) <|
  val (GS.of (v.mods.extractLsb' 0 2)) fun sp =>
  val (Hint.of (v.mods.extractLsb' 3 2)) fun hint =>
  need (v.d == 0x24) <|
  need (decide (sp = .gl ∨ hint = .none)) <|
  operand v.a fun a =>
  operand v.b fun o =>
  accept (.mld sp (v.mods.getLsbD 2) hint a o v.ga v.gb v.gc)

/-- MSPSEL (R259). -/
def decMspsel (w : DWord) : Except Bad Instr :=
  let v := X.of w
  need (!v.g) <|
  need (v.mods &&& 0x1fff == 0) <|
  need (v.gc == 0) <|
  operand v.d fun d =>
  operand v.a fun a =>
  operand v.b fun x =>
  accept (.mspsel d a x v.ga v.gb)

/-- SPST (R260). -/
def decSpst (w : DWord) : Except Bad Instr :=
  let v := X.of w
  need (!v.g) <|
  need (v.mods &&& 0x1fe4 == 0) <|
  val (GS.of (v.mods.extractLsb' 0 2)) fun sp =>
  val (Hint.of (v.mods.extractLsb' 3 2)) fun hint =>
  need (v.d == 0x24) <|
  need (v.gc == 0) <|
  need (decide (sp = .gl ∨ hint = .none)) <|
  operand v.a fun a =>
  operand v.b fun o =>
  accept (.spst sp hint a o v.ga v.gb)

/-- MCLAIM (R265). -/
def decMclaim (w : DWord) : Except Bad Instr :=
  let v := X.of w
  need (!v.g) <|
  need (v.mods &&& 0x1fff == 0) <|
  need (v.d == 0x24) <|
  need (v.a == 0x24) <|
  need (v.b == 0x24) <|
  need (v.ga == 0) <|
  need (v.gb == 0) <|
  need (v.gc == 0) <|
  accept (.mclaim)

/-- MPASS (R265). -/
def decMpass (w : DWord) : Except Bad Instr :=
  let v := X.of w
  need (!v.g) <|
  need (v.mods &&& 0x1fff == 0) <|
  need (v.d == 0x24) <|
  need (v.a == 0x24) <|
  need (v.b == 0x24) <|
  need (v.gb == 0) <|
  need (v.gc == 0) <|
  accept (.mpass v.ga)

/-- RECRUIT (R272). -/
def decRecruit (w : DWord) : Except Bad Instr :=
  let v := T.of w
  need (!v.g) <|
  need (decide (1 ≤ v.l.toNat ∧ v.l.toNat ≤ 30)) <|
  operand (v.h.extractLsb' 8 8) fun d =>
  accept (.recruit d (v.h.extractLsb' 3 5) (v.h.extractLsb' 0 3) v.l v.target)

/-- HREAD (R274). -/
def decHread (w : DWord) : Except Bad Instr :=
  let v := V.of w
  need (!v.g) <|
  need (v.mods &&& 0x7fff80 == 0) <|
  need (v.a == 0x24) <|
  need (v.b == 0x24) <|
  need (v.c == 0x24) <|
  need (decide ((v.mods.extractLsb' 0 7).toNat < 8 ∨ 64 ≤ (v.mods.extractLsb' 0 7).toNat)) <|
  operand v.d fun d =>
  accept (.hread d (v.mods.extractLsb' 0 7))

/-- HRET (R274). -/
def decHret (w : DWord) : Except Bad Instr :=
  let v := V.of w
  need (!v.g) <|
  need (v.mods &&& 0x7e0fff == 0) <|
  val (AluOp.of (v.mods.extractLsb' 12 5)) fun op =>
  need (v.d == 0x24) <|
  need (v.b == 0x24) <|
  need (v.c == 0x24) <|
  need (op.isHret) <|
  operand v.a fun a =>
  accept (.hret op a)

/-- HEND (R274). -/
def decHend (w : DWord) : Except Bad Instr :=
  let v := V.of w
  need (!v.g) <|
  need (v.mods &&& 0x7fffff == 0) <|
  need (v.d == 0x24) <|
  need (v.a == 0x24) <|
  need (v.b == 0x24) <|
  need (v.c == 0x24) <|
  accept (.hend)

/-- JOIN (R275). -/
def decJoin (w : DWord) : Except Bad Instr :=
  let v := V.of w
  need (!v.g) <|
  need (v.mods &&& 0x7ffffe == 0) <|
  need (v.c == 0x24) <|
  operand v.d fun d =>
  operand v.b fun m =>
  operand v.a fun c =>
  accept (.join (v.mods.getLsbD 0) d m c)

/-- DISMISS (R276). -/
def decDismiss (w : DWord) : Except Bad Instr :=
  let v := V.of w
  need (!v.g) <|
  need (v.mods &&& 0x7fffff == 0) <|
  need (v.d == 0x24) <|
  need (v.a == 0x24) <|
  need (v.b == 0x24) <|
  need (v.c == 0x24) <|
  accept (.dismiss)

/-- BAR (R153). -/
def decBar (w : DWord) : Except Bad Instr :=
  let v := V.of w
  need (!v.g) <|
  need (v.mods &&& 0x7ffff0 == 0) <|
  need (v.d == 0x24) <|
  need (v.b == 0x24) <|
  need (v.c == 0x24) <|
  operand v.a fun a =>
  accept (.bar (v.mods.extractLsb' 0 4) a)

/-- BARL (R155). -/
def decBarl (w : DWord) : Except Bad Instr :=
  let v := V.of w
  need (!v.g) <|
  need (v.mods &&& 0x7ffff0 == 0) <|
  need (v.b == 0x24) <|
  need (v.c == 0x24) <|
  operand v.d fun d =>
  operand v.a fun a =>
  accept (.barl d (v.mods.extractLsb' 0 4) a)

/-- ARRIVE (R153). -/
def decArrive (w : DWord) : Except Bad Instr :=
  let v := V.of w
  need (!v.g) <|
  need (v.mods &&& 0x7ffff0 == 0) <|
  need (v.d == 0x24) <|
  need (v.b == 0x24) <|
  need (v.c == 0x24) <|
  operand v.a fun a =>
  accept (.arrive (v.mods.extractLsb' 0 4) a)

/-- MON (R157). -/
def decMon (w : DWord) : Except Bad Instr :=
  let v := M.of w
  need (!v.g) <|
  val (GS.of v.space) fun sp =>
  need (v.width == 0) <|
  need (v.hint == 0) <|
  need (v.d == 0x24) <|
  need (v.b == 0x24) <|
  operand v.a fun a =>
  accept (.mon sp v.off a)

/-- WAITMON (R158). -/
def decWaitmon (w : DWord) : Except Bad Instr :=
  let v := V.of w
  need (!v.g) <|
  need (v.mods &&& 0x7fffff == 0) <|
  need (v.a == 0x24) <|
  need (v.b == 0x24) <|
  need (v.c == 0x24) <|
  operand v.d fun d =>
  accept (.waitmon d)

/-- QPUSH (R160). -/
def decQpush (w : DWord) : Except Bad Instr :=
  let v := V.of w
  need (v.mods &&& 0x7fffc0 == 0) <|
  need (v.b == 0x24) <|
  need (v.c == 0x24) <|
  operand v.d fun d =>
  operand v.a fun a =>
  accept (.qpush v.g (v.mods.extractLsb' 0 6) d a)

/-- QPOP (R160). -/
def decQpop (w : DWord) : Except Bad Instr :=
  let v := V.of w
  need (v.mods &&& 0x7fffc0 == 0) <|
  need (v.b == 0x24) <|
  need (v.c == 0x24) <|
  operand v.d fun d =>
  operand v.a fun s =>
  accept (.qpop v.g (v.mods.extractLsb' 0 6) d s)

/-- QLEN (R160). -/
def decQlen (w : DWord) : Except Bad Instr :=
  let v := V.of w
  need (v.mods &&& 0x7fffc0 == 0) <|
  need (v.a == 0x24) <|
  need (v.b == 0x24) <|
  need (v.c == 0x24) <|
  operand v.d fun d =>
  accept (.qlen v.g (v.mods.extractLsb' 0 6) d)

/-- GETS (R161). -/
def decGets (w : DWord) : Except Bad Instr :=
  let v := V.of w
  need (v.mods &&& 0x7fff00 == 0) <|
  val (SReg.of (v.mods.extractLsb' 0 8)) fun r =>
  need (v.a == 0x24) <|
  need (v.b == 0x24) <|
  need (v.c == 0x24) <|
  need (decide (v.g = false ∨ r.uniform = true)) <|
  operand v.d fun d =>
  accept (.gets v.g r d)

/-- SETS (R162). -/
def decSets (w : DWord) : Except Bad Instr :=
  let v := V.of w
  need (!v.g) <|
  need (v.mods &&& 0x7fff00 == 0) <|
  val (SReg.of (v.mods.extractLsb' 0 8)) fun r =>
  need (v.d == 0x24) <|
  need (v.b == 0x24) <|
  need (v.c == 0x24) <|
  need (r.writable) <|
  operand v.a fun a =>
  accept (.sets r a)

/-- ROLE (R163). -/
def decRole (w : DWord) : Except Bad Instr :=
  let v := V.of w
  need (!v.g) <|
  need (v.mods &&& 0x7ffffc == 0) <|
  val (Role.of (v.mods.extractLsb' 0 2)) fun r =>
  need (v.d == 0x24) <|
  need (v.a == 0x24) <|
  need (v.b == 0x24) <|
  need (v.c == 0x24) <|
  accept (.role r)

/-- GROW (R54). -/
def decGrow (w : DWord) : Except Bad Instr :=
  let v := V.of w
  need (!v.g) <|
  need (v.mods &&& 0x7fffc0 == 0) <|
  need (v.a == 0x24) <|
  need (v.b == 0x24) <|
  need (v.c == 0x24) <|
  need (decide (8 ≤ (v.mods.extractLsb' 0 6).toNat ∧ (v.mods.extractLsb' 0 6).toNat ≤ 32)) <|
  operand v.d fun d =>
  accept (.grow (v.mods.extractLsb' 0 6) d)

/-- SHRINK (R55). -/
def decShrink (w : DWord) : Except Bad Instr :=
  let v := V.of w
  need (!v.g) <|
  need (v.mods &&& 0x7fffc0 == 0) <|
  need (v.d == 0x24) <|
  need (v.a == 0x24) <|
  need (v.b == 0x24) <|
  need (v.c == 0x24) <|
  need (decide (8 ≤ (v.mods.extractLsb' 0 6).toNat ∧ (v.mods.extractLsb' 0 6).toNat ≤ 32)) <|
  accept (.shrink (v.mods.extractLsb' 0 6))

/-- The opcodes 0x00 to 0x0F (R132). -/
def decodeRow0 (lo : Nat) (w : DWord) : Except Bad Instr :=
  match lo with
  | 0x0 => decNop w
  | 0x1 => decTrace w
  | 0x2 => decStg w
  | 0x3 => decWbind w
  | 0x4 => decGuard w
  | 0x5 => decSettle w
  | 0x6 => decTend w
  | 0x7 => decTendi w
  | 0x8 => decCall w
  | 0x9 => decCalli w
  | 0xA => decRet w
  | 0xB => decMerge w
  | 0xC => decRegang w
  | 0xD => decExit w
  | 0xE => decYield w
  | 0xF => need (w.getLsbD 38) <| decTrap w
  | _ => .error .illop

/-- The opcodes 0x10 to 0x1F (R132). -/
def decodeRow1 (lo : Nat) (w : DWord) : Except Bad Instr :=
  match lo with
  | 0x0 => decBkpt w
  | _ => .error .illop

/-- The opcodes 0x20 to 0x2F (R132). -/
def decodeRow2 (lo : Nat) (w : DWord) : Except Bad Instr :=
  match lo with
  | 0x0 => if w.getLsbD 38 then decIaddI w else decIadd w
  | 0x1 => if w.getLsbD 38 then decIsubI w else decIsub w
  | 0x2 => decIaddc w
  | 0x3 => decIsubb w
  | 0x4 => if w.getLsbD 38 then decIadd64I w else decIadd64 w
  | 0x5 => if w.getLsbD 38 then decIsub64I w else decIsub64 w
  | 0x6 => if w.getLsbD 38 then decImulI w else decImul w
  | 0x7 => if w.getLsbD 38 then decImulhI w else decImulh w
  | 0x8 => if w.getLsbD 38 then decImulhuI w else decImulhu w
  | 0x9 => decImad w
  | 0xA => decImad64 w
  | 0xB => if w.getLsbD 38 then decDivsI w else decDivs w
  | 0xC => if w.getLsbD 38 then decDivuI w else decDivu w
  | 0xD => if w.getLsbD 38 then decRemsI w else decRems w
  | 0xE => if w.getLsbD 38 then decRemuI w else decRemu w
  | 0xF => decIabs w
  | _ => .error .illop

/-- The opcodes 0x30 to 0x3F (R132). -/
def decodeRow3 (lo : Nat) (w : DWord) : Except Bad Instr :=
  match lo with
  | 0x0 => decIneg w
  | 0x1 => if w.getLsbD 38 then decIminI w else decImin w
  | 0x2 => if w.getLsbD 38 then decImaxI w else decImax w
  | 0x3 => if w.getLsbD 38 then decIminuI w else decIminu w
  | 0x4 => if w.getLsbD 38 then decImaxuI w else decImaxu w
  | 0x5 => if w.getLsbD 38 then decIsatI w else decIsat w
  | 0x6 => if w.getLsbD 38 then decIcmpI w else decIcmp w
  | 0x7 => decSel w
  | 0x8 => if w.getLsbD 38 then decAndI w else decAnd w
  | 0x9 => if w.getLsbD 38 then decOrI w else decOr w
  | 0xA => if w.getLsbD 38 then decXorI w else decXor w
  | 0xB => if w.getLsbD 38 then decAndnI w else decAndn w
  | 0xC => decNot w
  | 0xD => if w.getLsbD 38 then decShlI w else decShl w
  | 0xE => if w.getLsbD 38 then decShrI w else decShr w
  | 0xF => if w.getLsbD 38 then decSarI w else decSar w
  | _ => .error .illop

/-- The opcodes 0x40 to 0x4F (R132). -/
def decodeRow4 (lo : Nat) (w : DWord) : Except Bad Instr :=
  match lo with
  | 0x0 => decShf w
  | 0x1 => decBfx w
  | 0x2 => decBfxu w
  | 0x3 => decBfi w
  | 0x4 => decPopc w
  | 0x5 => decClz w
  | 0x6 => decCtz w
  | 0x7 => decBrev w
  | 0x8 => decBysel w
  | 0x9 => decLea w
  | 0xA => need (w.getLsbD 38) <| decMovi w
  | 0xB => decMov w
  | _ => .error .illop

/-- The opcodes 0x60 to 0x6F (R132). -/
def decodeRow6 (lo : Nat) (w : DWord) : Except Bad Instr :=
  match lo with
  | 0x0 => if w.getLsbD 38 then decFaddI w else decFadd w
  | 0x1 => if w.getLsbD 38 then decFsubI w else decFsub w
  | 0x2 => if w.getLsbD 38 then decFmulI w else decFmul w
  | 0x3 => decFfma w
  | 0x4 => if w.getLsbD 38 then decFminI w else decFmin w
  | 0x5 => if w.getLsbD 38 then decFmaxI w else decFmax w
  | 0x6 => if w.getLsbD 38 then decFcmpI w else decFcmp w
  | 0x7 => decFrcp w
  | 0x8 => decFrsq w
  | 0x9 => decFsqrt w
  | 0xA => decFexp2 w
  | 0xB => decFlog2 w
  | 0xC => decFsin w
  | 0xD => decFcos w
  | 0xE => decFrnd w
  | 0xF => decFclass w
  | _ => .error .illop

/-- The opcodes 0x70 to 0x7F (R132). -/
def decodeRow7 (lo : Nat) (w : DWord) : Except Bad Instr :=
  match lo with
  | 0x0 => if w.getLsbD 38 then decPkaddI w else decPkadd w
  | 0x1 => if w.getLsbD 38 then decPkmulI w else decPkmul w
  | 0x2 => decPkfma w
  | _ => .error .illop

/-- The opcodes 0x80 to 0x8F (R132). -/
def decodeRow8 (lo : Nat) (w : DWord) : Except Bad Instr :=
  match lo with
  | 0x0 => if w.getLsbD 38 then decDaddI w else decDadd w
  | 0x1 => if w.getLsbD 38 then decDsubI w else decDsub w
  | 0x2 => if w.getLsbD 38 then decDmulI w else decDmul w
  | 0x3 => decDfma w
  | 0x4 => if w.getLsbD 38 then decDminI w else decDmin w
  | 0x5 => if w.getLsbD 38 then decDmaxI w else decDmax w
  | 0x6 => if w.getLsbD 38 then decDcmpI w else decDcmp w
  | 0x7 => decDrcp w
  | 0x8 => decDrsq w
  | _ => .error .illop

/-- The opcodes 0x90 to 0x9F (R132). -/
def decodeRow9 (lo : Nat) (w : DWord) : Except Bad Instr :=
  match lo with
  | 0x0 => decCvtif w
  | 0x1 => decCvtfi w
  | 0x2 => decCvtff w
  | 0x3 => decCvtii w
  | 0x4 => decPackh w
  | 0x5 => decUnpkh w
  | 0x6 => decXlane w
  | 0x7 => decVote w
  | 0x8 => decGredux w
  | 0x9 => decScan w
  | _ => .error .illop

/-- The opcodes 0xA0 to 0xAF (R132). -/
def decodeRowA (lo : Nat) (w : DWord) : Except Bad Instr :=
  match lo with
  | 0x0 => decLd w
  | 0x1 => decSt w
  | 0x2 => decGather w
  | 0x3 => decScatter w
  | 0x4 => decAtom w
  | 0x5 => if w.getLsbD 17 then decScatterAdd w else decRed w
  | 0x6 => decAcq w
  | 0x7 => decRel w
  | 0x8 => decAcqld w
  | 0x9 => decRelst w
  | 0xA => decFence w
  | 0xB => decXfence w
  | 0xC => decBind w
  | 0xD => decUnbind w
  | 0xE => decPref w
  | 0xF => decSpill w
  | _ => .error .illop

/-- The opcodes 0xB0 to 0xBF (R132). -/
def decodeRowB (lo : Nat) (w : DWord) : Except Bad Instr :=
  match lo with
  | 0x0 => decFill w
  | 0x1 => decCpy w
  | 0x2 => decCpy2d w
  | 0x3 => decCseal w
  | 0x4 => decCdec w
  | 0x5 => decFopen w
  | 0x6 => decFnext w
  | 0x7 => decFtest w
  | 0x8 => decFclose w
  | _ => .error .illop

/-- The opcodes 0xC0 to 0xCF (R132). -/
def decodeRowC (lo : Nat) (w : DWord) : Except Bad Instr :=
  match lo with
  | 0x0 => decOrsv w
  | 0x1 => decOrls w
  | 0x2 => decMgath w
  | 0x3 => decMma w
  | 0x4 => decMmap w
  | 0x5 => decGuide w
  | 0x6 => decMzero w
  | 0x7 => decMst w
  | 0x8 => decMld w
  | 0x9 => decMspsel w
  | 0xA => decSpst w
  | 0xB => decMclaim w
  | 0xC => decMpass w
  | _ => .error .illop

/-- The opcodes 0xD0 to 0xDF (R132). -/
def decodeRowD (lo : Nat) (w : DWord) : Except Bad Instr :=
  match lo with
  | 0x0 => decRecruit w
  | 0x1 => decHread w
  | 0x2 => decHret w
  | 0x3 => decHend w
  | 0x4 => decJoin w
  | 0x5 => decDismiss w
  | 0x8 => decBar w
  | 0x9 => decBarl w
  | 0xA => decArrive w
  | 0xB => decMon w
  | 0xC => decWaitmon w
  | 0xD => decQpush w
  | 0xE => decQpop w
  | 0xF => decQlen w
  | _ => .error .illop

/-- The opcodes 0xE0 to 0xEF (R132). -/
def decodeRowE (lo : Nat) (w : DWord) : Except Bad Instr :=
  match lo with
  | 0x0 => decGets w
  | 0x1 => decSets w
  | 0x2 => decRole w
  | 0x3 => decGrow w
  | 0x4 => decShrink w
  | _ => .error .illop

/-- The instruction of a word, or the class of its fault (R129). DESIGN CHOICE, log 10. DEDUCED, log 49. DEDUCED, log 69. -/
def decodeWord (w : DWord) : Except Bad Instr :=
  let lo := (w.extractLsb' 56 4).toNat
  match (w.extractLsb' 60 4).toNat with
  | 0x0 => decodeRow0 lo w
  | 0x1 => decodeRow1 lo w
  | 0x2 => decodeRow2 lo w
  | 0x3 => decodeRow3 lo w
  | 0x4 => decodeRow4 lo w
  | 0x6 => decodeRow6 lo w
  | 0x7 => decodeRow7 lo w
  | 0x8 => decodeRow8 lo w
  | 0x9 => decodeRow9 lo w
  | 0xA => decodeRowA lo w
  | 0xB => decodeRowB lo w
  | 0xC => decodeRowC lo w
  | 0xD => decodeRowD lo w
  | 0xE => decodeRowE lo w
  | _ => .error .illop

/-- The instruction that the first `nbits` bits of `w` and zeros above them hold, as the opcode table numbers them. DESIGN CHOICE, log 10. -/
def decodeTableWord (nbits w : Nat) : Option Instr :=
  match decodeWord (BitVec.ofNat 64 (w % 2 ^ nbits)) with
  | .ok i => some i
  | .error _ => none

/-- The word of an instruction; an event of the device has none (R110, R134). DESIGN CHOICE, log 10. -/
def encode : Instr → Option DWord
  | .nop => some (V.word ⟨0x0, false, 0x24, 0x24, 0x24, 0x24, 0⟩)
  | .trace stages guards => some (T.word ⟨0x1, false, (stages.setWidth 16 <<< 10) ||| (guards.setWidth 16 <<< 6), 0, 0⟩)
  | .stg d n k1 => some (V.word ⟨0x2, false, d.setWidth 8, 0x24, 0x24, 0x24, (n.setWidth 23 <<< 0) ||| (k1.setWidth 23 <<< 8)⟩)
  | .wbind d n k1 => some (V.word ⟨0x3, false, d.setWidth 8, 0x24, 0x24, 0x24, (n.setWidth 23 <<< 0) ||| (k1.setWidth 23 <<< 8)⟩)
  | .guard z g a => some (V.word ⟨0x4, false, 0x24, a.code, 0x24, 0x24, (g.setWidth 23 <<< 0) ||| ((BitVec.ofBool z).setWidth 23 <<< 3)⟩)
  | .settle => some (V.word ⟨0x5, false, 0x24, 0x24, 0x24, 0x24, 0⟩)
  | .tend tok off => some (T.word ⟨0x6, false, tok, 0, off⟩)
  | .tendi tok a => some (T.word ⟨0x7, false, tok, 0, a.setWidth 32 <<< 24⟩)
  | .call tok off => some (T.word ⟨0x8, false, tok, 0, off⟩)
  | .calli tok a => some (T.word ⟨0x9, false, tok, 0, a.setWidth 32 <<< 24⟩)
  | .ret tok => some (T.word ⟨0xa, false, tok, 0, 0⟩)
  | .merge tok => some (T.word ⟨0xb, false, tok, 0, 0⟩)
  | .regang => some (T.word ⟨0xc, false, 0, 0, 0⟩)
  | .exit => some (V.word ⟨0xd, false, 0x24, 0x24, 0x24, 0x24, 0⟩)
  | .yield => some (V.word ⟨0xe, false, 0x24, 0x24, 0x24, 0x24, 0⟩)
  | .trap imm => some (I.word ⟨0xf, false, 0x24, 0x24, 0, imm⟩)
  | .bkpt code => some (V.word ⟨0x10, false, 0x24, 0x24, 0x24, 0x24, (code.setWidth 23 <<< 0)⟩)
  | .iadd u sat d a b => some (V.word ⟨0x20, u, d.code, a.code, b.code, 0x24, ((BitVec.ofBool sat).setWidth 23 <<< 9)⟩)
  | .iaddI u sat d a imm => some (I.word ⟨0x20, u, d.code, a.code, ((BitVec.ofBool sat).setWidth 6 <<< 4), imm⟩)
  | .isub u sat d a b => some (V.word ⟨0x21, u, d.code, a.code, b.code, 0x24, ((BitVec.ofBool sat).setWidth 23 <<< 9)⟩)
  | .isubI u sat d a imm => some (I.word ⟨0x21, u, d.code, a.code, ((BitVec.ofBool sat).setWidth 6 <<< 4), imm⟩)
  | .iaddc u d a b c => some (V.word ⟨0x22, u, d.code, a.code, b.code, c.code, 0⟩)
  | .isubb u d a b c => some (V.word ⟨0x23, u, d.code, a.code, b.code, c.code, 0⟩)
  | .iadd64 u d a b => some (V.word ⟨0x24, u, d.code, a.code, b.code, 0x24, 0⟩)
  | .iadd64I u d a imm => some (I.word ⟨0x24, u, d.code, a.code, 0, imm⟩)
  | .isub64 u d a b => some (V.word ⟨0x25, u, d.code, a.code, b.code, 0x24, 0⟩)
  | .isub64I u d a imm => some (I.word ⟨0x25, u, d.code, a.code, 0, imm⟩)
  | .imul u sat d a b => some (V.word ⟨0x26, u, d.code, a.code, b.code, 0x24, ((BitVec.ofBool sat).setWidth 23 <<< 9)⟩)
  | .imulI u sat d a imm => some (I.word ⟨0x26, u, d.code, a.code, ((BitVec.ofBool sat).setWidth 6 <<< 4), imm⟩)
  | .imulh u d a b => some (V.word ⟨0x27, u, d.code, a.code, b.code, 0x24, 0⟩)
  | .imulhI u d a imm => some (I.word ⟨0x27, u, d.code, a.code, 0, imm⟩)
  | .imulhu u d a b => some (V.word ⟨0x28, u, d.code, a.code, b.code, 0x24, 0⟩)
  | .imulhuI u d a imm => some (I.word ⟨0x28, u, d.code, a.code, 0, imm⟩)
  | .imad u sat d a b c => some (V.word ⟨0x29, u, d.code, a.code, b.code, c.code, ((BitVec.ofBool sat).setWidth 23 <<< 9)⟩)
  | .imad64 u zx d a b c => some (V.word ⟨0x2a, u, d.code, a.code, b.code, c.code, ((BitVec.ofBool zx).setWidth 23 <<< 10)⟩)
  | .divs u d a b => some (V.word ⟨0x2b, u, d.code, a.code, b.code, 0x24, 0⟩)
  | .divsI u d a imm => some (I.word ⟨0x2b, u, d.code, a.code, 0, imm⟩)
  | .divu u d a b => some (V.word ⟨0x2c, u, d.code, a.code, b.code, 0x24, 0⟩)
  | .divuI u d a imm => some (I.word ⟨0x2c, u, d.code, a.code, 0, imm⟩)
  | .rems u d a b => some (V.word ⟨0x2d, u, d.code, a.code, b.code, 0x24, 0⟩)
  | .remsI u d a imm => some (I.word ⟨0x2d, u, d.code, a.code, 0, imm⟩)
  | .remu u d a b => some (V.word ⟨0x2e, u, d.code, a.code, b.code, 0x24, 0⟩)
  | .remuI u d a imm => some (I.word ⟨0x2e, u, d.code, a.code, 0, imm⟩)
  | .iabs u sat d a => some (V.word ⟨0x2f, u, d.code, a.code, 0x24, 0x24, ((BitVec.ofBool sat).setWidth 23 <<< 9)⟩)
  | .ineg u sat d a => some (V.word ⟨0x30, u, d.code, a.code, 0x24, 0x24, ((BitVec.ofBool sat).setWidth 23 <<< 9)⟩)
  | .imin u d a b => some (V.word ⟨0x31, u, d.code, a.code, b.code, 0x24, 0⟩)
  | .iminI u d a imm => some (I.word ⟨0x31, u, d.code, a.code, 0, imm⟩)
  | .imax u d a b => some (V.word ⟨0x32, u, d.code, a.code, b.code, 0x24, 0⟩)
  | .imaxI u d a imm => some (I.word ⟨0x32, u, d.code, a.code, 0, imm⟩)
  | .iminu u d a b => some (V.word ⟨0x33, u, d.code, a.code, b.code, 0x24, 0⟩)
  | .iminuI u d a imm => some (I.word ⟨0x33, u, d.code, a.code, 0, imm⟩)
  | .imaxu u d a b => some (V.word ⟨0x34, u, d.code, a.code, b.code, 0x24, 0⟩)
  | .imaxuI u d a imm => some (I.word ⟨0x34, u, d.code, a.code, 0, imm⟩)
  | .isat u zx d a b => some (V.word ⟨0x35, u, d.code, a.code, b.code, 0x24, ((BitVec.ofBool zx).setWidth 23 <<< 10)⟩)
  | .isatI u zx d a imm => some (I.word ⟨0x35, u, d.code, a.code, ((BitVec.ofBool zx).setWidth 6 <<< 5), imm⟩)
  | .icmp u cond dbl d a b => some (V.word ⟨0x36, u, d.code, a.code, b.code, 0x24, (cond.bits.setWidth 23 <<< 5) ||| ((BitVec.ofBool dbl).setWidth 23 <<< 10)⟩)
  | .icmpI u cond dbl d a imm => some (I.word ⟨0x36, u, d.code, a.code, (cond.bits.setWidth 6 <<< 0) ||| ((BitVec.ofBool dbl).setWidth 6 <<< 5), imm⟩)
  | .sel u d a b c => some (V.word ⟨0x37, u, d.code, a.code, b.code, c.code, 0⟩)
  | .and u d a b => some (V.word ⟨0x38, u, d.code, a.code, b.code, 0x24, 0⟩)
  | .andI u d a imm => some (I.word ⟨0x38, u, d.code, a.code, 0, imm⟩)
  | .or u d a b => some (V.word ⟨0x39, u, d.code, a.code, b.code, 0x24, 0⟩)
  | .orI u d a imm => some (I.word ⟨0x39, u, d.code, a.code, 0, imm⟩)
  | .xor u d a b => some (V.word ⟨0x3a, u, d.code, a.code, b.code, 0x24, 0⟩)
  | .xorI u d a imm => some (I.word ⟨0x3a, u, d.code, a.code, 0, imm⟩)
  | .andn u d a b => some (V.word ⟨0x3b, u, d.code, a.code, b.code, 0x24, 0⟩)
  | .andnI u d a imm => some (I.word ⟨0x3b, u, d.code, a.code, 0, imm⟩)
  | .not u d a => some (V.word ⟨0x3c, u, d.code, a.code, 0x24, 0x24, 0⟩)
  | .shl u d a b => some (V.word ⟨0x3d, u, d.code, a.code, b.code, 0x24, 0⟩)
  | .shlI u d a imm => some (I.word ⟨0x3d, u, d.code, a.code, 0, imm⟩)
  | .shr u d a b => some (V.word ⟨0x3e, u, d.code, a.code, b.code, 0x24, 0⟩)
  | .shrI u d a imm => some (I.word ⟨0x3e, u, d.code, a.code, 0, imm⟩)
  | .sar u d a b => some (V.word ⟨0x3f, u, d.code, a.code, b.code, 0x24, 0⟩)
  | .sarI u d a imm => some (I.word ⟨0x3f, u, d.code, a.code, 0, imm⟩)
  | .shf u left d a b c => some (V.word ⟨0x40, u, d.code, a.code, b.code, c.code, ((BitVec.ofBool left).setWidth 23 <<< 10)⟩)
  | .bfx u d a b c => some (V.word ⟨0x41, u, d.code, a.code, b.code, c.code, 0⟩)
  | .bfxu u d a b c => some (V.word ⟨0x42, u, d.code, a.code, b.code, c.code, 0⟩)
  | .bfi u d a b c => some (V.word ⟨0x43, u, d.code, a.code, b.code, c.code, 0⟩)
  | .popc u d a => some (V.word ⟨0x44, u, d.code, a.code, 0x24, 0x24, 0⟩)
  | .clz u d a => some (V.word ⟨0x45, u, d.code, a.code, 0x24, 0x24, 0⟩)
  | .ctz u d a => some (V.word ⟨0x46, u, d.code, a.code, 0x24, 0x24, 0⟩)
  | .brev u d a => some (V.word ⟨0x47, u, d.code, a.code, 0x24, 0x24, 0⟩)
  | .bysel u d a b c => some (V.word ⟨0x48, u, d.code, a.code, b.code, c.code, 0⟩)
  | .lea u k zx d a b => some (V.word ⟨0x49, u, d.code, a.code, b.code, 0x24, (k.setWidth 23 <<< 18) ||| ((BitVec.ofBool zx).setWidth 23 <<< 21)⟩)
  | .movi u d imm => some (I.word ⟨0x4a, u, d.code, 0x24, 0, imm⟩)
  | .mov u dbl d a => some (V.word ⟨0x4b, u, d.code, a.code, 0x24, 0x24, ((BitVec.ofBool dbl).setWidth 23 <<< 10)⟩)
  | .fadd u rm ftz d a b => some (V.word ⟨0x60, u, d.code, a.code, b.code, 0x24, (rm.bits.setWidth 23 <<< 0) ||| ((BitVec.ofBool ftz).setWidth 23 <<< 3)⟩)
  | .faddI u rm ftz d a imm => some (I.word ⟨0x60, u, d.code, a.code, (rm.bits.setWidth 6 <<< 0) ||| ((BitVec.ofBool ftz).setWidth 6 <<< 5), imm⟩)
  | .fsub u rm ftz d a b => some (V.word ⟨0x61, u, d.code, a.code, b.code, 0x24, (rm.bits.setWidth 23 <<< 0) ||| ((BitVec.ofBool ftz).setWidth 23 <<< 3)⟩)
  | .fsubI u rm ftz d a imm => some (I.word ⟨0x61, u, d.code, a.code, (rm.bits.setWidth 6 <<< 0) ||| ((BitVec.ofBool ftz).setWidth 6 <<< 5), imm⟩)
  | .fmul u rm ftz d a b => some (V.word ⟨0x62, u, d.code, a.code, b.code, 0x24, (rm.bits.setWidth 23 <<< 0) ||| ((BitVec.ofBool ftz).setWidth 23 <<< 3)⟩)
  | .fmulI u rm ftz d a imm => some (I.word ⟨0x62, u, d.code, a.code, (rm.bits.setWidth 6 <<< 0) ||| ((BitVec.ofBool ftz).setWidth 6 <<< 5), imm⟩)
  | .ffma u rm ftz d a b c => some (V.word ⟨0x63, u, d.code, a.code, b.code, c.code, (rm.bits.setWidth 23 <<< 0) ||| ((BitVec.ofBool ftz).setWidth 23 <<< 3)⟩)
  | .fmin u ftz d a b => some (V.word ⟨0x64, u, d.code, a.code, b.code, 0x24, ((BitVec.ofBool ftz).setWidth 23 <<< 3)⟩)
  | .fminI u ftz d a imm => some (I.word ⟨0x64, u, d.code, a.code, ((BitVec.ofBool ftz).setWidth 6 <<< 5), imm⟩)
  | .fmax u ftz d a b => some (V.word ⟨0x65, u, d.code, a.code, b.code, 0x24, ((BitVec.ofBool ftz).setWidth 23 <<< 3)⟩)
  | .fmaxI u ftz d a imm => some (I.word ⟨0x65, u, d.code, a.code, ((BitVec.ofBool ftz).setWidth 6 <<< 5), imm⟩)
  | .fcmp u cond ftz d a b => some (V.word ⟨0x66, u, d.code, a.code, b.code, 0x24, (cond.bits.setWidth 23 <<< 5) ||| ((BitVec.ofBool ftz).setWidth 23 <<< 3)⟩)
  | .fcmpI u cond ftz d a imm => some (I.word ⟨0x66, u, d.code, a.code, (cond.bits.setWidth 6 <<< 0) ||| ((BitVec.ofBool ftz).setWidth 6 <<< 5), imm⟩)
  | .frcp ftz d a => some (V.word ⟨0x67, false, d.code, a.code, 0x24, 0x24, ((BitVec.ofBool ftz).setWidth 23 <<< 3)⟩)
  | .frsq ftz d a => some (V.word ⟨0x68, false, d.code, a.code, 0x24, 0x24, ((BitVec.ofBool ftz).setWidth 23 <<< 3)⟩)
  | .fsqrt ftz d a => some (V.word ⟨0x69, false, d.code, a.code, 0x24, 0x24, ((BitVec.ofBool ftz).setWidth 23 <<< 3)⟩)
  | .fexp2 ftz d a => some (V.word ⟨0x6a, false, d.code, a.code, 0x24, 0x24, ((BitVec.ofBool ftz).setWidth 23 <<< 3)⟩)
  | .flog2 ftz d a => some (V.word ⟨0x6b, false, d.code, a.code, 0x24, 0x24, ((BitVec.ofBool ftz).setWidth 23 <<< 3)⟩)
  | .fsin ftz d a => some (V.word ⟨0x6c, false, d.code, a.code, 0x24, 0x24, ((BitVec.ofBool ftz).setWidth 23 <<< 3)⟩)
  | .fcos ftz d a => some (V.word ⟨0x6d, false, d.code, a.code, 0x24, 0x24, ((BitVec.ofBool ftz).setWidth 23 <<< 3)⟩)
  | .frnd rm ftz d a => some (V.word ⟨0x6e, false, d.code, a.code, 0x24, 0x24, (rm.bits.setWidth 23 <<< 0) ||| ((BitVec.ofBool ftz).setWidth 23 <<< 3)⟩)
  | .fclass ftz d a => some (V.word ⟨0x6f, false, d.code, a.code, 0x24, 0x24, ((BitVec.ofBool ftz).setWidth 23 <<< 3)⟩)
  | .pkadd ty rm ftz d a b => some (V.word ⟨0x70, false, d.code, a.code, b.code, 0x24, (rm.bits.setWidth 23 <<< 0) ||| ((BitVec.ofBool ftz).setWidth 23 <<< 3) ||| (ty.bits.setWidth 23 <<< 4)⟩)
  | .pkaddI ty rm ftz d a imm => some (I.word ⟨0x70, false, d.code, a.code, (rm.bits.setWidth 6 <<< 0) ||| ((BitVec.ofBool ftz).setWidth 6 <<< 5) ||| (ty.bits.setWidth 6 <<< 4), imm⟩)
  | .pkmul ty rm ftz d a b => some (V.word ⟨0x71, false, d.code, a.code, b.code, 0x24, (rm.bits.setWidth 23 <<< 0) ||| ((BitVec.ofBool ftz).setWidth 23 <<< 3) ||| (ty.bits.setWidth 23 <<< 4)⟩)
  | .pkmulI ty rm ftz d a imm => some (I.word ⟨0x71, false, d.code, a.code, (rm.bits.setWidth 6 <<< 0) ||| ((BitVec.ofBool ftz).setWidth 6 <<< 5) ||| (ty.bits.setWidth 6 <<< 4), imm⟩)
  | .pkfma ty rm ftz d a b c => some (V.word ⟨0x72, false, d.code, a.code, b.code, c.code, (rm.bits.setWidth 23 <<< 0) ||| ((BitVec.ofBool ftz).setWidth 23 <<< 3) ||| (ty.bits.setWidth 23 <<< 4)⟩)
  | .dadd rm ftz d a b => some (V.word ⟨0x80, false, d.code, a.code, b.code, 0x24, (rm.bits.setWidth 23 <<< 0) ||| ((BitVec.ofBool ftz).setWidth 23 <<< 3)⟩)
  | .daddI rm ftz d a imm => some (I.word ⟨0x80, false, d.code, a.code, (rm.bits.setWidth 6 <<< 0) ||| ((BitVec.ofBool ftz).setWidth 6 <<< 5), imm⟩)
  | .dsub rm ftz d a b => some (V.word ⟨0x81, false, d.code, a.code, b.code, 0x24, (rm.bits.setWidth 23 <<< 0) ||| ((BitVec.ofBool ftz).setWidth 23 <<< 3)⟩)
  | .dsubI rm ftz d a imm => some (I.word ⟨0x81, false, d.code, a.code, (rm.bits.setWidth 6 <<< 0) ||| ((BitVec.ofBool ftz).setWidth 6 <<< 5), imm⟩)
  | .dmul rm ftz d a b => some (V.word ⟨0x82, false, d.code, a.code, b.code, 0x24, (rm.bits.setWidth 23 <<< 0) ||| ((BitVec.ofBool ftz).setWidth 23 <<< 3)⟩)
  | .dmulI rm ftz d a imm => some (I.word ⟨0x82, false, d.code, a.code, (rm.bits.setWidth 6 <<< 0) ||| ((BitVec.ofBool ftz).setWidth 6 <<< 5), imm⟩)
  | .dfma rm ftz d a b c => some (V.word ⟨0x83, false, d.code, a.code, b.code, c.code, (rm.bits.setWidth 23 <<< 0) ||| ((BitVec.ofBool ftz).setWidth 23 <<< 3)⟩)
  | .dmin ftz d a b => some (V.word ⟨0x84, false, d.code, a.code, b.code, 0x24, ((BitVec.ofBool ftz).setWidth 23 <<< 3)⟩)
  | .dminI ftz d a imm => some (I.word ⟨0x84, false, d.code, a.code, ((BitVec.ofBool ftz).setWidth 6 <<< 5), imm⟩)
  | .dmax ftz d a b => some (V.word ⟨0x85, false, d.code, a.code, b.code, 0x24, ((BitVec.ofBool ftz).setWidth 23 <<< 3)⟩)
  | .dmaxI ftz d a imm => some (I.word ⟨0x85, false, d.code, a.code, ((BitVec.ofBool ftz).setWidth 6 <<< 5), imm⟩)
  | .dcmp cond ftz d a b => some (V.word ⟨0x86, false, d.code, a.code, b.code, 0x24, (cond.bits.setWidth 23 <<< 5) ||| ((BitVec.ofBool ftz).setWidth 23 <<< 3)⟩)
  | .dcmpI cond ftz d a imm => some (I.word ⟨0x86, false, d.code, a.code, (cond.bits.setWidth 6 <<< 0) ||| ((BitVec.ofBool ftz).setWidth 6 <<< 5), imm⟩)
  | .drcp ftz d a => some (V.word ⟨0x87, false, d.code, a.code, 0x24, 0x24, ((BitVec.ofBool ftz).setWidth 23 <<< 3)⟩)
  | .drsq ftz d a => some (V.word ⟨0x88, false, d.code, a.code, 0x24, 0x24, ((BitVec.ofBool ftz).setWidth 23 <<< 3)⟩)
  | .cvtif u ft uns iw rm d a => some (V.word ⟨0x90, u, d.code, a.code, 0x24, 0x24, (rm.bits.setWidth 23 <<< 0) ||| (iw.bits.setWidth 23 <<< 18) ||| ((BitVec.ofBool uns).setWidth 23 <<< 20) ||| (ft.bits.setWidth 23 <<< 21)⟩)
  | .cvtfi u uns iw ft rm ftz d a => some (V.word ⟨0x91, u, d.code, a.code, 0x24, 0x24, (rm.bits.setWidth 23 <<< 0) ||| ((BitVec.ofBool ftz).setWidth 23 <<< 3) ||| (iw.bits.setWidth 23 <<< 18) ||| ((BitVec.ofBool uns).setWidth 23 <<< 20) ||| (ft.bits.setWidth 23 <<< 21)⟩)
  | .cvtff ftd fta rm ftz d a => some (V.word ⟨0x92, false, d.code, a.code, 0x24, 0x24, (rm.bits.setWidth 23 <<< 0) ||| ((BitVec.ofBool ftz).setWidth 23 <<< 3) ||| (ftd.bits.setWidth 23 <<< 18) ||| (fta.bits.setWidth 23 <<< 21)⟩)
  | .cvtii u wd ud wa ua sat d a => some (V.word ⟨0x93, u, d.code, a.code, 0x24, 0x24, ((BitVec.ofBool sat).setWidth 23 <<< 10) ||| ((BitVec.ofBool ud).setWidth 23 <<< 11) ||| (wa.bits.setWidth 23 <<< 18) ||| ((BitVec.ofBool ua).setWidth 23 <<< 20) ||| (wd.bits.setWidth 23 <<< 21)⟩)
  | .packh ty rm ftz d a b => some (V.word ⟨0x94, false, d.code, a.code, b.code, 0x24, (rm.bits.setWidth 23 <<< 0) ||| ((BitVec.ofBool ftz).setWidth 23 <<< 3) ||| (ty.bits.setWidth 23 <<< 10)⟩)
  | .unpkh ty hi d a => some (V.word ⟨0x95, false, d.code, a.code, 0x24, 0x24, (ty.bits.setWidth 23 <<< 10) ||| ((BitVec.ofBool hi).setWidth 23 <<< 11)⟩)
  | .xlane mode dbl d a b => some (V.word ⟨0x96, false, d.code, a.code, b.code, 0x24, (mode.bits.setWidth 23 <<< 0) ||| ((BitVec.ofBool dbl).setWidth 23 <<< 10)⟩)
  | .vote mode d a => some (V.word ⟨0x97, false, d.code, a.code, 0x24, 0x24, (mode.bits.setWidth 23 <<< 0)⟩)
  | .gredux op d a => some (V.word ⟨0x98, false, d.code, a.code, 0x24, 0x24, (op.bits.setWidth 23 <<< 12)⟩)
  | .scan op ex seg d a b => some (V.word ⟨0x99, false, d.code, a.code, b.code, 0x24, ((BitVec.ofBool ex).setWidth 23 <<< 10) ||| ((BitVec.ofBool seg).setWidth 23 <<< 11) ||| (op.bits.setWidth 23 <<< 12)⟩)
  | .ld sp w hint off d a => some (M.word ⟨0xa0, false, d.code, a.code, 0x24, sp.bits, w.bits, hint.bits, off⟩)
  | .st sp w hint off s a => some (M.word ⟨0xa1, false, s.code, a.code, 0x24, sp.bits, w.bits, hint.bits, off⟩)
  | .gather sp w hint off d a i => some (M.word ⟨0xa2, false, d.code, a.code, i.code, sp.bits, w.bits, hint.bits, off⟩)
  | .scatter sp w hint off s a i => some (M.word ⟨0xa3, false, s.code, a.code, i.code, sp.bits, w.bits, hint.bits, off⟩)
  | .scatterAdd sp w op hint a i c => some (V.word ⟨0xa5, false, 0x24, a.code, i.code, c.code, (sp.bits.setWidth 23 <<< 21) ||| (w.bits.setWidth 23 <<< 18) ||| (op.bits.setWidth 23 <<< 12) ||| (hint.bits.setWidth 23 <<< 10) ||| (131072 : BitVec 23)⟩)
  | .atom u sp w op hint d a b c => some (V.word ⟨0xa4, u, d.code, a.code, b.code, c.code, (sp.bits.setWidth 23 <<< 21) ||| (w.bits.setWidth 23 <<< 18) ||| (op.bits.setWidth 23 <<< 12) ||| (hint.bits.setWidth 23 <<< 10)⟩)
  | .red u sp w op hint a b => some (V.word ⟨0xa5, u, 0x24, a.code, b.code, 0x24, (sp.bits.setWidth 23 <<< 21) ||| (w.bits.setWidth 23 <<< 18) ||| (op.bits.setWidth 23 <<< 12) ||| (hint.bits.setWidth 23 <<< 10)⟩)
  | .acq u sp hint off a => some (M.word ⟨0xa6, u, 0x24, a.code, 0x24, sp.bits, 3, hint.bits, off⟩)
  | .rel u sp hint off a => some (M.word ⟨0xa7, u, 0x24, a.code, 0x24, sp.bits, 3, hint.bits, off⟩)
  | .acqld u sp hint off d a => some (M.word ⟨0xa8, u, d.code, a.code, 0x24, sp.bits, 3, hint.bits, off⟩)
  | .relst u sp hint off s a => some (M.word ⟨0xa9, u, s.code, a.code, 0x24, sp.bits, 3, hint.bits, off⟩)
  | .fence => some (V.word ⟨0xaa, false, 0x24, 0x24, 0x24, 0x24, 0⟩)
  | .xfence p q => some (V.word ⟨0xab, false, 0x24, 0x24, 0x24, 0x24, (p.bits.setWidth 23 <<< 0) ||| (q.bits.setWidth 23 <<< 2)⟩)
  | .bind d a b c => some (V.word ⟨0xac, false, d.code, a.code, b.code, c.code, 0⟩)
  | .unbind d a => some (V.word ⟨0xad, false, d.code, a.code, 0x24, 0x24, 0⟩)
  | .pref w hint off a i => some (M.word ⟨0xae, false, 0x24, a.code, i.code, 0, w.bits, hint.bits, off⟩)
  | .spill sp hint off n k1 a => some (M.word ⟨0xaf, false, n, a.code, k1.setWidth 8, sp.bits, 2, hint.bits, off⟩)
  | .fill sp hint off n k1 a => some (M.word ⟨0xb0, false, n, a.code, k1.setWidth 8, sp.bits, 2, hint.bits, off⟩)
  | .cpy tag lk n1 dsp ssp hint d a b => some (V.word ⟨0xb1, false, d.code, a.code, b.code, 0x24, (tag.setWidth 23 <<< 0) ||| ((BitVec.ofBool lk).setWidth 23 <<< 3) ||| (n1.setWidth 23 <<< 4) ||| (dsp.bits.setWidth 23 <<< 9) ||| (ssp.bits.setWidth 23 <<< 11) ||| (hint.bits.setWidth 23 <<< 13)⟩)
  | .cpy2d tag lk dsp ssp hint d a b ga gb gc => some (X.word ⟨0xb2, false, d.code, a.code, b.code, ga, gb, gc, (tag.setWidth 13 <<< 0) ||| ((BitVec.ofBool lk).setWidth 13 <<< 3) ||| (dsp.bits.setWidth 13 <<< 4) ||| (ssp.bits.setWidth 13 <<< 6) ||| (hint.bits.setWidth 13 <<< 8)⟩)
  | .cseal tag d => some (V.word ⟨0xb3, false, (0x40 + d.setWidth 8), 0x24, 0x24, 0x24, (tag.setWidth 23 <<< 0)⟩)
  | .cdec tag hint d a ga gb => some (X.word ⟨0xb4, false, d.code, a.code, 0x24, ga, gb, 0, (tag.setWidth 13 <<< 0) ||| (hint.bits.setWidth 13 <<< 3)⟩)
  | .fopen k cw vw a b c => some (V.word ⟨0xb5, false, 0x24, a.code, b.code, c.code, (k.setWidth 23 <<< 0) ||| (cw.bits.setWidth 23 <<< 3) ||| (vw.bits.setWidth 23 <<< 5)⟩)
  | .fnext k dbl hint d c => some (V.word ⟨0xb6, false, d.code, c.code, 0x24, 0x24, (k.setWidth 23 <<< 0) ||| (hint.bits.setWidth 23 <<< 3) ||| ((BitVec.ofBool dbl).setWidth 23 <<< 5)⟩)
  | .ftest k d => some (V.word ⟨0xb7, false, d.code, 0x24, 0x24, 0x24, (k.setWidth 23 <<< 0)⟩)
  | .fclose k => some (V.word ⟨0xb8, false, 0x24, 0x24, 0x24, 0x24, (k.setWidth 23 <<< 0)⟩)
  | .orsv d ga => some (X.word ⟨0xc0, false, d.code, 0x24, 0x24, ga, 0, 0, 0⟩)
  | .orls d ga => some (X.word ⟨0xc1, false, d.code, 0x24, 0x24, ga, 0, 0, 0⟩)
  | .mgath p a => some (X.word ⟨0xc2, false, 0x24, a.code, 0x24, 0, 0, 0, (p.bits.setWidth 13 <<< 0)⟩)
  | .mma spf co x b o ga gb gc => some (X.word ⟨0xc3, false, x.code, b.code, o.code, ga, gb, gc, ((BitVec.ofBool spf).setWidth 13 <<< 0) ||| ((BitVec.ofBool co).setWidth 13 <<< 1)⟩)
  | .mmap spf t x b o ga gb gc => some (X.word ⟨0xc4, false, x.code, b.code, o.code, ga, gb, gc, ((BitVec.ofBool spf).setWidth 13 <<< 0) ||| (t.setWidth 13 <<< 5)⟩)
  | .guide d o ga gb gc => some (X.word ⟨0xc5, false, d.code, 0x24, o.code, ga, gb, gc, 0⟩)
  | .mzero o ga gb => some (X.word ⟨0xc6, false, 0x24, 0x24, o.code, ga, gb, 0, 0⟩)
  | .mst sp bf hint a o ga gb gc => some (X.word ⟨0xc7, false, 0x24, a.code, o.code, ga, gb, gc, (sp.bits.setWidth 13 <<< 0) ||| ((BitVec.ofBool bf).setWidth 13 <<< 2) ||| (hint.bits.setWidth 13 <<< 3)⟩)
  | .mld sp bf hint a o ga gb gc => some (X.word ⟨0xc8, false, 0x24, a.code, o.code, ga, gb, gc, (sp.bits.setWidth 13 <<< 0) ||| ((BitVec.ofBool bf).setWidth 13 <<< 2) ||| (hint.bits.setWidth 13 <<< 3)⟩)
  | .mspsel d a x ga gb => some (X.word ⟨0xc9, false, d.code, a.code, x.code, ga, gb, 0, 0⟩)
  | .spst sp hint a o ga gb => some (X.word ⟨0xca, false, 0x24, a.code, o.code, ga, gb, 0, (sp.bits.setWidth 13 <<< 0) ||| (hint.bits.setWidth 13 <<< 3)⟩)
  | .mclaim => some (X.word ⟨0xcb, false, 0x24, 0x24, 0x24, 0, 0, 0, 0⟩)
  | .mpass ga => some (X.word ⟨0xcc, false, 0x24, 0x24, 0x24, ga, 0, 0, 0⟩)
  | .recruit d w k1 n off => some (T.word ⟨0xd0, false, (d.code.setWidth 16 <<< 8) ||| (w.setWidth 16 <<< 3) ||| k1.setWidth 16, n, off⟩)
  | .hread d i => some (V.word ⟨0xd1, false, d.code, 0x24, 0x24, 0x24, (i.setWidth 23 <<< 0)⟩)
  | .hret op a => some (V.word ⟨0xd2, false, 0x24, a.code, 0x24, 0x24, (op.bits.setWidth 23 <<< 12)⟩)
  | .hend => some (V.word ⟨0xd3, false, 0x24, 0x24, 0x24, 0x24, 0⟩)
  | .join nt d m c => some (V.word ⟨0xd4, false, d.code, c.code, m.code, 0x24, ((BitVec.ofBool nt).setWidth 23 <<< 0)⟩)
  | .dismiss => some (V.word ⟨0xd5, false, 0x24, 0x24, 0x24, 0x24, 0⟩)
  | .bar b a => some (V.word ⟨0xd8, false, 0x24, a.code, 0x24, 0x24, (b.setWidth 23 <<< 0)⟩)
  | .barl d b a => some (V.word ⟨0xd9, false, d.code, a.code, 0x24, 0x24, (b.setWidth 23 <<< 0)⟩)
  | .arrive b a => some (V.word ⟨0xda, false, 0x24, a.code, 0x24, 0x24, (b.setWidth 23 <<< 0)⟩)
  | .mon sp off a => some (M.word ⟨0xdb, false, 0x24, a.code, 0x24, sp.bits, 0, 0, off⟩)
  | .waitmon d => some (V.word ⟨0xdc, false, d.code, 0x24, 0x24, 0x24, 0⟩)
  | .qpush u q d a => some (V.word ⟨0xdd, u, d.code, a.code, 0x24, 0x24, (q.setWidth 23 <<< 0)⟩)
  | .qpop u q d s => some (V.word ⟨0xde, u, d.code, s.code, 0x24, 0x24, (q.setWidth 23 <<< 0)⟩)
  | .qlen u q d => some (V.word ⟨0xdf, u, d.code, 0x24, 0x24, 0x24, (q.setWidth 23 <<< 0)⟩)
  | .gets u r d => some (V.word ⟨0xe0, u, d.code, 0x24, 0x24, 0x24, (r.bits.setWidth 23 <<< 0)⟩)
  | .sets r a => some (V.word ⟨0xe1, false, 0x24, a.code, 0x24, 0x24, (r.bits.setWidth 23 <<< 0)⟩)
  | .role r => some (V.word ⟨0xe2, false, 0x24, 0x24, 0x24, 0x24, (r.bits.setWidth 23 <<< 0)⟩)
  | .grow n8 d => some (V.word ⟨0xe3, false, d.code, 0x24, 0x24, 0x24, (n8.setWidth 23 <<< 0)⟩)
  | .shrink n8 => some (V.word ⟨0xe4, false, 0x24, 0x24, 0x24, 0x24, (n8.setWidth 23 <<< 0)⟩)
  | .guardedCommandResolution _ => none
  | .copyCommandComplete _ => none
  | .matrixEngineGrant _ => none
  | .matrixCommandComplete _ => none
  | .pairWaitExpiry _ => none
  | .cooperativeMatchTimeout _ => none
  | .growGrant _ => none
  | .growStuckDenial _ => none
  | .monitorEviction _ _ => none
  | .waitmonTimerExpiry _ => none
  | .sluiceRelease _ => none
  | .watchdogExpiry _ => none
  | .trigger _ _ => none
  | .triggerBegin _ _ => none
  | .gload _ _ => none
  | .launchStart _ _ => none
  | .unitDispatch _ _ _ => none
  | .unitDeschedule _ => none
  | .quantumExpiry _ => none
  | .cancelUnit _ _ => none
  | .cancelLaunch _ _ => none
  | .cancelGraph _ _ => none
  | .cancelPhase _ _ => none
  | .cancelJob _ _ => none
  | .ctxcmdPreempt _ => none
  | .preemptSaveComplete _ => none
  | .ctxcmdResume _ => none
  | .resumeComplete _ => none
  | .ctxcmdInval _ => none
  | .invalComplete _ => none
  | .firmwarePageGrow _ => none
  | .fcmdReplay _ _ => none
  | .fcmdCancel _ _ => none
  | .fcmdInvalid _ _ => none
  | .fqtailWrite _ _ => none
  | .softErrorCorrectable _ => none
  | .softErrorUncorrectable _ => none
  | .moduleLoad _ _ => none
  | .accessPerformed _ _ => none
  | .graphLoadComplete _ => none
  | .carrBlockTransmit _ => none
  | .carrctlEn _ _ => none
  | .carrctlRetrain _ => none
  | .linkTrainingComplete _ _ _ => none
  | .linkTrainingTimeout _ => none
  | .laneLoss _ _ => none
  | .dataFlitReceive _ _ _ => none
  | .idleFlitReceive _ _ => none
  | .nakFlitReceive _ _ => none
  | .ackTimeoutResend _ => none
  | .linkCommandComplete _ _ _ => none
  | .cxlCompletionTimeout _ => none
  | .pcieAtomicopReceived _ => none
  | .boot _ _ => none
  | .getMeasurements _ => none
  | .getCertificate => none
  | .negotiateAlgorithms => none
  | .challenge _ => none
  | .redfishRequest _ => none
  | .healthcmdAck _ => none
  | .coreFence _ => none
  | .channelDrain _ => none
  | .mgmtHeartbeatMiss _ => none
  | .thermalTrip => none
  | .powerThrottle => none
  | .registerWrite _ _ => none
  | .dieToDieLinkFailure => none
  | .bootSecurityCoreFailure => none

end Sys2Proof
end

