-- ==== Sys2Proof/Names.lean ====
section
/-! DEFINITION. What an instruction names and where it may stand (R113, R116, R136). -/

namespace Sys2Proof

/-- Where an opcode may stand in a trace (R136). -/
inductive Place where
  | head
  | staging
  | body
  | commit
  | settled
  | guarded
  | either
  | final
  | alone
  | event
  deriving DecidableEq, Repr

/-- Registers of an operand of a size (R116). -/
def Size.regs : Size → Nat
  | .w32 => 1
  | .w64 => 2
  | .w128 => 4

/-- The operand is a gang register. -/
def Opnd.isGang : Opnd → Bool
  | .gang _ => true
  | _ => false

/-- Where an instruction may stand in a trace (R136). -/
def Instr.place : Instr → Place
  | .nop => .either
  | .trace _ _ => .head
  | .stg _ _ _ => .staging
  | .wbind _ _ _ => .staging
  | .guard _ _ _ => .body
  | .settle => .commit
  | .tend _ _ => .final
  | .tendi _ _ => .final
  | .call _ _ => .final
  | .calli _ _ => .final
  | .ret _ => .final
  | .merge _ => .alone
  | .regang => .alone
  | .exit => .final
  | .yield => .settled
  | .trap _ => .either
  | .bkpt _ => .either
  | .iadd u _ d _ _ => if u && d.isGang then .settled else .either
  | .iaddI u _ d _ _ => if u && d.isGang then .settled else .either
  | .isub u _ d _ _ => if u && d.isGang then .settled else .either
  | .isubI u _ d _ _ => if u && d.isGang then .settled else .either
  | .iaddc u d _ _ _ => if u && d.isGang then .settled else .either
  | .isubb u d _ _ _ => if u && d.isGang then .settled else .either
  | .iadd64 u d _ _ => if u && d.isGang then .settled else .either
  | .iadd64I u d _ _ => if u && d.isGang then .settled else .either
  | .isub64 u d _ _ => if u && d.isGang then .settled else .either
  | .isub64I u d _ _ => if u && d.isGang then .settled else .either
  | .imul u _ d _ _ => if u && d.isGang then .settled else .either
  | .imulI u _ d _ _ => if u && d.isGang then .settled else .either
  | .imulh u d _ _ => if u && d.isGang then .settled else .either
  | .imulhI u d _ _ => if u && d.isGang then .settled else .either
  | .imulhu u d _ _ => if u && d.isGang then .settled else .either
  | .imulhuI u d _ _ => if u && d.isGang then .settled else .either
  | .imad u _ d _ _ _ => if u && d.isGang then .settled else .either
  | .imad64 u _ d _ _ _ => if u && d.isGang then .settled else .either
  | .divs u d _ _ => if u && d.isGang then .settled else .either
  | .divsI u d _ _ => if u && d.isGang then .settled else .either
  | .divu u d _ _ => if u && d.isGang then .settled else .either
  | .divuI u d _ _ => if u && d.isGang then .settled else .either
  | .rems u d _ _ => if u && d.isGang then .settled else .either
  | .remsI u d _ _ => if u && d.isGang then .settled else .either
  | .remu u d _ _ => if u && d.isGang then .settled else .either
  | .remuI u d _ _ => if u && d.isGang then .settled else .either
  | .iabs u _ d _ => if u && d.isGang then .settled else .either
  | .ineg u _ d _ => if u && d.isGang then .settled else .either
  | .imin u d _ _ => if u && d.isGang then .settled else .either
  | .iminI u d _ _ => if u && d.isGang then .settled else .either
  | .imax u d _ _ => if u && d.isGang then .settled else .either
  | .imaxI u d _ _ => if u && d.isGang then .settled else .either
  | .iminu u d _ _ => if u && d.isGang then .settled else .either
  | .iminuI u d _ _ => if u && d.isGang then .settled else .either
  | .imaxu u d _ _ => if u && d.isGang then .settled else .either
  | .imaxuI u d _ _ => if u && d.isGang then .settled else .either
  | .isat u _ d _ _ => if u && d.isGang then .settled else .either
  | .isatI u _ d _ _ => if u && d.isGang then .settled else .either
  | .icmp u _ _ d _ _ => if u && d.isGang then .settled else .either
  | .icmpI u _ _ d _ _ => if u && d.isGang then .settled else .either
  | .sel u d _ _ _ => if u && d.isGang then .settled else .either
  | .and u d _ _ => if u && d.isGang then .settled else .either
  | .andI u d _ _ => if u && d.isGang then .settled else .either
  | .or u d _ _ => if u && d.isGang then .settled else .either
  | .orI u d _ _ => if u && d.isGang then .settled else .either
  | .xor u d _ _ => if u && d.isGang then .settled else .either
  | .xorI u d _ _ => if u && d.isGang then .settled else .either
  | .andn u d _ _ => if u && d.isGang then .settled else .either
  | .andnI u d _ _ => if u && d.isGang then .settled else .either
  | .not u d _ => if u && d.isGang then .settled else .either
  | .shl u d _ _ => if u && d.isGang then .settled else .either
  | .shlI u d _ _ => if u && d.isGang then .settled else .either
  | .shr u d _ _ => if u && d.isGang then .settled else .either
  | .shrI u d _ _ => if u && d.isGang then .settled else .either
  | .sar u d _ _ => if u && d.isGang then .settled else .either
  | .sarI u d _ _ => if u && d.isGang then .settled else .either
  | .shf u _ d _ _ _ => if u && d.isGang then .settled else .either
  | .bfx u d _ _ _ => if u && d.isGang then .settled else .either
  | .bfxu u d _ _ _ => if u && d.isGang then .settled else .either
  | .bfi u d _ _ _ => if u && d.isGang then .settled else .either
  | .popc u d _ => if u && d.isGang then .settled else .either
  | .clz u d _ => if u && d.isGang then .settled else .either
  | .ctz u d _ => if u && d.isGang then .settled else .either
  | .brev u d _ => if u && d.isGang then .settled else .either
  | .bysel u d _ _ _ => if u && d.isGang then .settled else .either
  | .lea u _ _ d _ _ => if u && d.isGang then .settled else .either
  | .movi u d _ => if u && d.isGang then .settled else .either
  | .mov u _ d _ => if u && d.isGang then .settled else .either
  | .fadd u _ _ d _ _ => if u && d.isGang then .settled else .either
  | .faddI u _ _ d _ _ => if u && d.isGang then .settled else .either
  | .fsub u _ _ d _ _ => if u && d.isGang then .settled else .either
  | .fsubI u _ _ d _ _ => if u && d.isGang then .settled else .either
  | .fmul u _ _ d _ _ => if u && d.isGang then .settled else .either
  | .fmulI u _ _ d _ _ => if u && d.isGang then .settled else .either
  | .ffma u _ _ d _ _ _ => if u && d.isGang then .settled else .either
  | .fmin u _ d _ _ => if u && d.isGang then .settled else .either
  | .fminI u _ d _ _ => if u && d.isGang then .settled else .either
  | .fmax u _ d _ _ => if u && d.isGang then .settled else .either
  | .fmaxI u _ d _ _ => if u && d.isGang then .settled else .either
  | .fcmp u _ _ d _ _ => if u && d.isGang then .settled else .either
  | .fcmpI u _ _ d _ _ => if u && d.isGang then .settled else .either
  | .frcp _ _ _ => .either
  | .frsq _ _ _ => .either
  | .fsqrt _ _ _ => .either
  | .fexp2 _ _ _ => .either
  | .flog2 _ _ _ => .either
  | .fsin _ _ _ => .either
  | .fcos _ _ _ => .either
  | .frnd _ _ _ _ => .either
  | .fclass _ _ _ => .either
  | .pkadd _ _ _ _ _ _ => .either
  | .pkaddI _ _ _ _ _ _ => .either
  | .pkmul _ _ _ _ _ _ => .either
  | .pkmulI _ _ _ _ _ _ => .either
  | .pkfma _ _ _ _ _ _ _ => .either
  | .dadd _ _ _ _ _ => .either
  | .daddI _ _ _ _ _ => .either
  | .dsub _ _ _ _ _ => .either
  | .dsubI _ _ _ _ _ => .either
  | .dmul _ _ _ _ _ => .either
  | .dmulI _ _ _ _ _ => .either
  | .dfma _ _ _ _ _ _ => .either
  | .dmin _ _ _ _ => .either
  | .dminI _ _ _ _ => .either
  | .dmax _ _ _ _ => .either
  | .dmaxI _ _ _ _ => .either
  | .dcmp _ _ _ _ _ => .either
  | .dcmpI _ _ _ _ _ => .either
  | .drcp _ _ _ => .either
  | .drsq _ _ _ => .either
  | .cvtif u _ _ _ _ d _ => if u && d.isGang then .settled else .either
  | .cvtfi u _ _ _ _ _ d _ => if u && d.isGang then .settled else .either
  | .cvtff _ _ _ _ _ _ => .either
  | .cvtii u _ _ _ _ _ d _ => if u && d.isGang then .settled else .either
  | .packh _ _ _ _ _ _ => .either
  | .unpkh _ _ _ _ => .either
  | .xlane _ _ _ _ _ => .either
  | .vote _ _ _ => .either
  | .gredux _ _ _ => .either
  | .scan _ _ _ _ _ _ => .either
  | .ld _ _ _ _ _ _ => .body
  | .st _ _ _ _ _ _ => .body
  | .gather _ _ _ _ _ _ _ => .body
  | .scatter _ _ _ _ _ _ _ => .body
  | .scatterAdd _ _ _ _ _ _ _ => .settled
  | .atom _ _ _ _ _ _ _ _ _ => .settled
  | .red _ _ _ _ _ _ _ => .settled
  | .acq _ _ _ _ _ => .settled
  | .rel _ _ _ _ _ => .settled
  | .acqld _ _ _ _ _ _ => .settled
  | .relst _ _ _ _ _ _ => .settled
  | .fence => .settled
  | .xfence _ _ => .settled
  | .bind _ _ _ _ => .settled
  | .unbind _ _ => .settled
  | .pref _ _ _ _ _ => .body
  | .spill _ _ _ _ _ _ => .body
  | .fill _ _ _ _ _ _ => .body
  | .cpy _ lk _ _ _ _ _ _ _ => if lk then .settled else .guarded
  | .cpy2d _ lk _ _ _ _ _ _ _ _ _ => if lk then .settled else .guarded
  | .cseal _ _ => .settled
  | .cdec _ _ _ _ _ _ => .guarded
  | .fopen _ _ _ _ _ _ => .body
  | .fnext _ _ _ _ _ => .body
  | .ftest _ _ => .body
  | .fclose _ => .body
  | .orsv _ _ => .settled
  | .orls _ _ => .settled
  | .mgath _ _ => .guarded
  | .mma _ _ _ _ _ _ _ _ => .guarded
  | .mmap _ _ _ _ _ _ _ _ => .guarded
  | .guide _ _ _ _ _ => .settled
  | .mzero _ _ _ => .guarded
  | .mst _ _ _ _ _ _ _ _ => .settled
  | .mld _ _ _ _ _ _ _ _ => .settled
  | .mspsel _ _ _ _ _ => .settled
  | .spst _ _ _ _ _ _ => .settled
  | .mclaim => .settled
  | .mpass _ => .settled
  | .recruit _ _ _ _ _ => .settled
  | .hread _ _ => .either
  | .hret _ _ => .settled
  | .hend => .settled
  | .join _ _ _ _ => .settled
  | .dismiss => .settled
  | .bar _ _ => .settled
  | .barl _ _ _ => .settled
  | .arrive _ _ => .settled
  | .mon _ _ _ => .settled
  | .waitmon _ => .settled
  | .qpush _ _ _ _ => .settled
  | .qpop _ _ _ _ => .settled
  | .qlen _ _ _ => .settled
  | .gets u _ d => if u && d.isGang then .settled else .either
  | .sets _ _ => .settled
  | .role _ => .settled
  | .grow _ _ => .settled
  | .shrink _ => .settled
  | .guardedCommandResolution _ => .event
  | .copyCommandComplete _ => .event
  | .matrixEngineGrant _ => .event
  | .matrixCommandComplete _ => .event
  | .pairWaitExpiry _ => .event
  | .cooperativeMatchTimeout _ => .event
  | .growGrant _ => .event
  | .growStuckDenial _ => .event
  | .monitorEviction _ _ => .event
  | .waitmonTimerExpiry _ => .event
  | .sluiceRelease _ => .event
  | .watchdogExpiry _ => .event
  | .trigger _ _ => .event
  | .triggerBegin _ _ => .event
  | .gload _ _ => .event
  | .launchStart _ _ => .event
  | .unitDispatch _ _ _ => .event
  | .unitDeschedule _ => .event
  | .quantumExpiry _ => .event
  | .cancelUnit _ _ => .event
  | .cancelLaunch _ _ => .event
  | .cancelGraph _ _ => .event
  | .cancelPhase _ _ => .event
  | .cancelJob _ _ => .event
  | .ctxcmdPreempt _ => .event
  | .preemptSaveComplete _ => .event
  | .ctxcmdResume _ => .event
  | .resumeComplete _ => .event
  | .ctxcmdInval _ => .event
  | .invalComplete _ => .event
  | .firmwarePageGrow _ => .event
  | .fcmdReplay _ _ => .event
  | .fcmdCancel _ _ => .event
  | .fcmdInvalid _ _ => .event
  | .fqtailWrite _ _ => .event
  | .softErrorCorrectable _ => .event
  | .softErrorUncorrectable _ => .event
  | .moduleLoad _ _ => .event
  | .carrctlEn _ _ => .event
  | .carrctlRetrain _ => .event
  | .linkTrainingComplete _ _ _ => .event
  | .linkTrainingTimeout _ => .event
  | .laneLoss _ _ => .event
  | .dataFlitReceive _ _ _ => .event
  | .idleFlitReceive _ _ => .event
  | .nakFlitReceive _ _ => .event
  | .ackTimeoutResend _ => .event
  | .linkCommandComplete _ _ _ => .event
  | .cxlCompletionTimeout _ => .event
  | .pcieAtomicopReceived _ => .event
  | .boot _ _ => .event
  | .getMeasurements _ => .event
  | .getCertificate => .event
  | .negotiateAlgorithms => .event
  | .challenge _ => .event
  | .redfishRequest _ => .event
  | .healthcmdAck _ => .event
  | .coreFence _ => .event
  | .channelDrain _ => .event
  | .mgmtHeartbeatMiss _ => .event
  | .thermalTrip => .event
  | .powerThrottle => .event
  | .registerWrite _ _ => .event
  | .accessPerformed _ _ => .event
  | .graphLoadComplete _ => .event
  | .carrBlockTransmit _ => .event
  | .dieToDieLinkFailure => .event
  | .bootSecurityCoreFailure => .event

/-- The operands that an instruction names, with the registers that each covers (R113, R116). -/
def Instr.operands : Instr → List (Opnd × Nat)
  | .nop => []
  | .trace _ _ => []
  | .stg _ _ _ => []
  | .wbind _ _ _ => []
  | .guard _ _ a => [(a, (Size.regs .w32))]
  | .settle => []
  | .tend _ _ => []
  | .tendi _ _ => []
  | .call _ _ => []
  | .calli _ _ => []
  | .ret _ => []
  | .merge _ => []
  | .regang => []
  | .exit => []
  | .yield => []
  | .trap _ => []
  | .bkpt _ => []
  | .iadd _ _ d a b => [(d, (Size.regs .w32)), (a, (Size.regs .w32)), (b, (Size.regs .w32))]
  | .iaddI _ _ d a _ => [(d, (Size.regs .w32)), (a, (Size.regs .w32))]
  | .isub _ _ d a b => [(d, (Size.regs .w32)), (a, (Size.regs .w32)), (b, (Size.regs .w32))]
  | .isubI _ _ d a _ => [(d, (Size.regs .w32)), (a, (Size.regs .w32))]
  | .iaddc _ d a b c => [(d, (Size.regs .w32)), (a, (Size.regs .w32)), (b, (Size.regs .w32)), (c, (Size.regs .w32))]
  | .isubb _ d a b c => [(d, (Size.regs .w32)), (a, (Size.regs .w32)), (b, (Size.regs .w32)), (c, (Size.regs .w32))]
  | .iadd64 _ d a b => [(d, (Size.regs .w64)), (a, (Size.regs .w64)), (b, (Size.regs .w64))]
  | .iadd64I _ d a _ => [(d, (Size.regs .w64)), (a, (Size.regs .w64))]
  | .isub64 _ d a b => [(d, (Size.regs .w64)), (a, (Size.regs .w64)), (b, (Size.regs .w64))]
  | .isub64I _ d a _ => [(d, (Size.regs .w64)), (a, (Size.regs .w64))]
  | .imul _ _ d a b => [(d, (Size.regs .w32)), (a, (Size.regs .w32)), (b, (Size.regs .w32))]
  | .imulI _ _ d a _ => [(d, (Size.regs .w32)), (a, (Size.regs .w32))]
  | .imulh _ d a b => [(d, (Size.regs .w32)), (a, (Size.regs .w32)), (b, (Size.regs .w32))]
  | .imulhI _ d a _ => [(d, (Size.regs .w32)), (a, (Size.regs .w32))]
  | .imulhu _ d a b => [(d, (Size.regs .w32)), (a, (Size.regs .w32)), (b, (Size.regs .w32))]
  | .imulhuI _ d a _ => [(d, (Size.regs .w32)), (a, (Size.regs .w32))]
  | .imad _ _ d a b c => [(d, (Size.regs .w32)), (a, (Size.regs .w32)), (b, (Size.regs .w32)), (c, (Size.regs .w32))]
  | .imad64 _ _ d a b c => [(d, (Size.regs .w64)), (a, (Size.regs .w32)), (b, (Size.regs .w32)), (c, (Size.regs .w64))]
  | .divs _ d a b => [(d, (Size.regs .w32)), (a, (Size.regs .w32)), (b, (Size.regs .w32))]
  | .divsI _ d a _ => [(d, (Size.regs .w32)), (a, (Size.regs .w32))]
  | .divu _ d a b => [(d, (Size.regs .w32)), (a, (Size.regs .w32)), (b, (Size.regs .w32))]
  | .divuI _ d a _ => [(d, (Size.regs .w32)), (a, (Size.regs .w32))]
  | .rems _ d a b => [(d, (Size.regs .w32)), (a, (Size.regs .w32)), (b, (Size.regs .w32))]
  | .remsI _ d a _ => [(d, (Size.regs .w32)), (a, (Size.regs .w32))]
  | .remu _ d a b => [(d, (Size.regs .w32)), (a, (Size.regs .w32)), (b, (Size.regs .w32))]
  | .remuI _ d a _ => [(d, (Size.regs .w32)), (a, (Size.regs .w32))]
  | .iabs _ _ d a => [(d, (Size.regs .w32)), (a, (Size.regs .w32))]
  | .ineg _ _ d a => [(d, (Size.regs .w32)), (a, (Size.regs .w32))]
  | .imin _ d a b => [(d, (Size.regs .w32)), (a, (Size.regs .w32)), (b, (Size.regs .w32))]
  | .iminI _ d a _ => [(d, (Size.regs .w32)), (a, (Size.regs .w32))]
  | .imax _ d a b => [(d, (Size.regs .w32)), (a, (Size.regs .w32)), (b, (Size.regs .w32))]
  | .imaxI _ d a _ => [(d, (Size.regs .w32)), (a, (Size.regs .w32))]
  | .iminu _ d a b => [(d, (Size.regs .w32)), (a, (Size.regs .w32)), (b, (Size.regs .w32))]
  | .iminuI _ d a _ => [(d, (Size.regs .w32)), (a, (Size.regs .w32))]
  | .imaxu _ d a b => [(d, (Size.regs .w32)), (a, (Size.regs .w32)), (b, (Size.regs .w32))]
  | .imaxuI _ d a _ => [(d, (Size.regs .w32)), (a, (Size.regs .w32))]
  | .isat _ _ d a b => [(d, (Size.regs .w32)), (a, (Size.regs .w32)), (b, (Size.regs .w32))]
  | .isatI _ _ d a _ => [(d, (Size.regs .w32)), (a, (Size.regs .w32))]
  | .icmp _ _ dbl d a b => [(d, (Size.regs .w32)), (a, (Size.regs (dblSize dbl))), (b, (Size.regs (dblSize dbl)))]
  | .icmpI _ _ dbl d a _ => [(d, (Size.regs .w32)), (a, (Size.regs (dblSize dbl)))]
  | .sel _ d a b c => [(d, (Size.regs .w32)), (a, (Size.regs .w32)), (b, (Size.regs .w32)), (c, (Size.regs .w32))]
  | .and _ d a b => [(d, (Size.regs .w32)), (a, (Size.regs .w32)), (b, (Size.regs .w32))]
  | .andI _ d a _ => [(d, (Size.regs .w32)), (a, (Size.regs .w32))]
  | .or _ d a b => [(d, (Size.regs .w32)), (a, (Size.regs .w32)), (b, (Size.regs .w32))]
  | .orI _ d a _ => [(d, (Size.regs .w32)), (a, (Size.regs .w32))]
  | .xor _ d a b => [(d, (Size.regs .w32)), (a, (Size.regs .w32)), (b, (Size.regs .w32))]
  | .xorI _ d a _ => [(d, (Size.regs .w32)), (a, (Size.regs .w32))]
  | .andn _ d a b => [(d, (Size.regs .w32)), (a, (Size.regs .w32)), (b, (Size.regs .w32))]
  | .andnI _ d a _ => [(d, (Size.regs .w32)), (a, (Size.regs .w32))]
  | .not _ d a => [(d, (Size.regs .w32)), (a, (Size.regs .w32))]
  | .shl _ d a b => [(d, (Size.regs .w32)), (a, (Size.regs .w32)), (b, (Size.regs .w32))]
  | .shlI _ d a _ => [(d, (Size.regs .w32)), (a, (Size.regs .w32))]
  | .shr _ d a b => [(d, (Size.regs .w32)), (a, (Size.regs .w32)), (b, (Size.regs .w32))]
  | .shrI _ d a _ => [(d, (Size.regs .w32)), (a, (Size.regs .w32))]
  | .sar _ d a b => [(d, (Size.regs .w32)), (a, (Size.regs .w32)), (b, (Size.regs .w32))]
  | .sarI _ d a _ => [(d, (Size.regs .w32)), (a, (Size.regs .w32))]
  | .shf _ _ d a b c => [(d, (Size.regs .w32)), (a, (Size.regs .w32)), (b, (Size.regs .w32)), (c, (Size.regs .w32))]
  | .bfx _ d a b c => [(d, (Size.regs .w32)), (a, (Size.regs .w32)), (b, (Size.regs .w32)), (c, (Size.regs .w32))]
  | .bfxu _ d a b c => [(d, (Size.regs .w32)), (a, (Size.regs .w32)), (b, (Size.regs .w32)), (c, (Size.regs .w32))]
  | .bfi _ d a b c => [(d, (Size.regs .w32)), (a, (Size.regs .w32)), (b, (Size.regs .w32)), (c, (Size.regs .w32))]
  | .popc _ d a => [(d, (Size.regs .w32)), (a, (Size.regs .w32))]
  | .clz _ d a => [(d, (Size.regs .w32)), (a, (Size.regs .w32))]
  | .ctz _ d a => [(d, (Size.regs .w32)), (a, (Size.regs .w32))]
  | .brev _ d a => [(d, (Size.regs .w32)), (a, (Size.regs .w32))]
  | .bysel _ d a b c => [(d, (Size.regs .w32)), (a, (Size.regs .w32)), (b, (Size.regs .w32)), (c, (Size.regs .w32))]
  | .lea _ _ _ d a b => [(d, (Size.regs .w64)), (a, (Size.regs .w64)), (b, (Size.regs .w32))]
  | .movi _ d _ => [(d, (Size.regs .w32))]
  | .mov _ dbl d a => [(d, (Size.regs (dblSize dbl))), (a, (Size.regs (dblSize dbl)))]
  | .fadd _ _ _ d a b => [(d, (Size.regs .w32)), (a, (Size.regs .w32)), (b, (Size.regs .w32))]
  | .faddI _ _ _ d a _ => [(d, (Size.regs .w32)), (a, (Size.regs .w32))]
  | .fsub _ _ _ d a b => [(d, (Size.regs .w32)), (a, (Size.regs .w32)), (b, (Size.regs .w32))]
  | .fsubI _ _ _ d a _ => [(d, (Size.regs .w32)), (a, (Size.regs .w32))]
  | .fmul _ _ _ d a b => [(d, (Size.regs .w32)), (a, (Size.regs .w32)), (b, (Size.regs .w32))]
  | .fmulI _ _ _ d a _ => [(d, (Size.regs .w32)), (a, (Size.regs .w32))]
  | .ffma _ _ _ d a b c => [(d, (Size.regs .w32)), (a, (Size.regs .w32)), (b, (Size.regs .w32)), (c, (Size.regs .w32))]
  | .fmin _ _ d a b => [(d, (Size.regs .w32)), (a, (Size.regs .w32)), (b, (Size.regs .w32))]
  | .fminI _ _ d a _ => [(d, (Size.regs .w32)), (a, (Size.regs .w32))]
  | .fmax _ _ d a b => [(d, (Size.regs .w32)), (a, (Size.regs .w32)), (b, (Size.regs .w32))]
  | .fmaxI _ _ d a _ => [(d, (Size.regs .w32)), (a, (Size.regs .w32))]
  | .fcmp _ _ _ d a b => [(d, (Size.regs .w32)), (a, (Size.regs .w32)), (b, (Size.regs .w32))]
  | .fcmpI _ _ _ d a _ => [(d, (Size.regs .w32)), (a, (Size.regs .w32))]
  | .frcp _ d a => [(d, (Size.regs .w32)), (a, (Size.regs .w32))]
  | .frsq _ d a => [(d, (Size.regs .w32)), (a, (Size.regs .w32))]
  | .fsqrt _ d a => [(d, (Size.regs .w32)), (a, (Size.regs .w32))]
  | .fexp2 _ d a => [(d, (Size.regs .w32)), (a, (Size.regs .w32))]
  | .flog2 _ d a => [(d, (Size.regs .w32)), (a, (Size.regs .w32))]
  | .fsin _ d a => [(d, (Size.regs .w32)), (a, (Size.regs .w32))]
  | .fcos _ d a => [(d, (Size.regs .w32)), (a, (Size.regs .w32))]
  | .frnd _ _ d a => [(d, (Size.regs .w32)), (a, (Size.regs .w32))]
  | .fclass _ d a => [(d, (Size.regs .w32)), (a, (Size.regs .w32))]
  | .pkadd _ _ _ d a b => [(d, (Size.regs .w32)), (a, (Size.regs .w32)), (b, (Size.regs .w32))]
  | .pkaddI _ _ _ d a _ => [(d, (Size.regs .w32)), (a, (Size.regs .w32))]
  | .pkmul _ _ _ d a b => [(d, (Size.regs .w32)), (a, (Size.regs .w32)), (b, (Size.regs .w32))]
  | .pkmulI _ _ _ d a _ => [(d, (Size.regs .w32)), (a, (Size.regs .w32))]
  | .pkfma _ _ _ d a b c => [(d, (Size.regs .w32)), (a, (Size.regs .w32)), (b, (Size.regs .w32)), (c, (Size.regs .w32))]
  | .dadd _ _ d a b => [(d, (Size.regs .w64)), (a, (Size.regs .w64)), (b, (Size.regs .w64))]
  | .daddI _ _ d a _ => [(d, (Size.regs .w64)), (a, (Size.regs .w64))]
  | .dsub _ _ d a b => [(d, (Size.regs .w64)), (a, (Size.regs .w64)), (b, (Size.regs .w64))]
  | .dsubI _ _ d a _ => [(d, (Size.regs .w64)), (a, (Size.regs .w64))]
  | .dmul _ _ d a b => [(d, (Size.regs .w64)), (a, (Size.regs .w64)), (b, (Size.regs .w64))]
  | .dmulI _ _ d a _ => [(d, (Size.regs .w64)), (a, (Size.regs .w64))]
  | .dfma _ _ d a b c => [(d, (Size.regs .w64)), (a, (Size.regs .w64)), (b, (Size.regs .w64)), (c, (Size.regs .w64))]
  | .dmin _ d a b => [(d, (Size.regs .w64)), (a, (Size.regs .w64)), (b, (Size.regs .w64))]
  | .dminI _ d a _ => [(d, (Size.regs .w64)), (a, (Size.regs .w64))]
  | .dmax _ d a b => [(d, (Size.regs .w64)), (a, (Size.regs .w64)), (b, (Size.regs .w64))]
  | .dmaxI _ d a _ => [(d, (Size.regs .w64)), (a, (Size.regs .w64))]
  | .dcmp _ _ d a b => [(d, (Size.regs .w32)), (a, (Size.regs .w64)), (b, (Size.regs .w64))]
  | .dcmpI _ _ d a _ => [(d, (Size.regs .w32)), (a, (Size.regs .w64))]
  | .drcp _ d a => [(d, (Size.regs .w64)), (a, (Size.regs .w64))]
  | .drsq _ d a => [(d, (Size.regs .w64)), (a, (Size.regs .w64))]
  | .cvtif _ ft _ iw _ d a => [(d, (Size.regs ft.size)), (a, (Size.regs iw.size))]
  | .cvtfi _ _ iw ft _ _ d a => [(d, (Size.regs iw.size)), (a, (Size.regs ft.size))]
  | .cvtff ftd fta _ _ d a => [(d, (Size.regs ftd.size)), (a, (Size.regs fta.size))]
  | .cvtii _ wd _ wa _ _ d a => [(d, (Size.regs wd.size)), (a, (Size.regs wa.size))]
  | .packh _ _ _ d a b => [(d, (Size.regs .w32)), (a, (Size.regs .w32)), (b, (Size.regs .w32))]
  | .unpkh _ _ d a => [(d, (Size.regs .w32)), (a, (Size.regs .w32))]
  | .xlane _ dbl d a b => [(d, (Size.regs (dblSize dbl))), (a, (Size.regs (dblSize dbl))), (b, (Size.regs .w32))]
  | .vote _ d a => [(d, (Size.regs .w32)), (a, (Size.regs .w32))]
  | .gredux op d a => [(d, (Size.regs op.size)), (a, (Size.regs op.size))]
  | .scan op _ _ d a b => [(d, (Size.regs op.size)), (a, (Size.regs op.size)), (b, (Size.regs .w32))]
  | .ld sp w _ _ d a => [(d, (Size.regs w.size)), (a, (if sp.cached then 2 else 1))]
  | .st sp w _ _ s a => [(s, (Size.regs w.size)), (a, (if sp.cached then 2 else 1))]
  | .gather sp w _ _ d a i => [(d, (Size.regs w.size)), (a, (if sp.cached then 2 else 1)), (i, (Size.regs .w32))]
  | .scatter sp w _ _ s a i => [(s, (Size.regs w.size)), (a, (if sp.cached then 2 else 1)), (i, (Size.regs .w32))]
  | .scatterAdd sp w _ _ a i c => [(a, (if sp = .gl then 2 else 1)), (i, (Size.regs .w32)), (c, (Size.regs w.size))]
  | .atom _ sp w _ _ d a b c => [(d, (Size.regs w.size)), (a, (if sp = .gl then 2 else 1)), (b, (Size.regs w.size)), (c, (Size.regs w.size))]
  | .red _ sp w _ _ a b => [(a, (if sp = .gl then 2 else 1)), (b, (Size.regs w.size))]
  | .acq _ sp _ _ a => [(a, (if sp = .gl then 2 else 1))]
  | .rel _ sp _ _ a => [(a, (if sp = .gl then 2 else 1))]
  | .acqld _ sp _ _ d a => [(d, (Size.regs .w64)), (a, (if sp = .gl then 2 else 1))]
  | .relst _ sp _ _ s a => [(s, 2), (a, (if sp = .gl then 2 else 1))]
  | .fence => []
  | .xfence _ _ => []
  | .bind d a b c => [(d, (Size.regs .w32)), (a, 2), (b, (Size.regs .w32)), (c, 2)]
  | .unbind d a => [(d, (Size.regs .w32)), (a, (Size.regs .w32))]
  | .pref _ _ _ a i => [(a, 2), (i, (Size.regs .w32))]
  | .spill _ _ _ _ _ a => [(a, 2)]
  | .fill _ _ _ _ _ a => [(a, 2)]
  | .cpy _ _ _ dsp ssp _ d a b => [(d, (if dsp = .gl then 2 else 1)), (a, (if ssp = .gl then 2 else 1)), (b, (Size.regs .w32))]
  | .cpy2d _ _ dsp ssp _ d a b _ _ _ => [(d, (if dsp = .gl then 2 else 1)), (a, (if ssp = .gl then 2 else 1)), (b, (Size.regs .w32))]
  | .cseal _ _ => []
  | .cdec _ _ d a _ _ => [(d, (Size.regs .w32)), (a, 2)]
  | .fopen _ _ _ a b c => [(a, (Size.regs .w64)), (b, (Size.regs .w64)), (c, (Size.regs .w32))]
  | .fnext _ dbl _ d c => [(d, (Size.regs (dblSize dbl))), (c, (Size.regs .w32))]
  | .ftest _ d => [(d, (Size.regs .w32))]
  | .fclose _ => []
  | .orsv d _ => [(d, 1)]
  | .orls d _ => [(d, 1)]
  | .mgath _ a => [(a, (Size.regs .w32))]
  | .mma _ _ x b o _ _ _ => [(x, (Size.regs .w32)), (b, (Size.regs .w32)), (o, (Size.regs .w32))]
  | .mmap _ _ x b o _ _ _ => [(x, (Size.regs .w32)), (b, (Size.regs .w32)), (o, (Size.regs .w32))]
  | .guide d o _ _ _ => [(d, 1), (o, (Size.regs .w32))]
  | .mzero o _ _ => [(o, (Size.regs .w32))]
  | .mst sp _ _ a o _ _ _ => [(a, (if sp = .gl then 2 else 1)), (o, (Size.regs .w32))]
  | .mld sp _ _ a o _ _ _ => [(a, (if sp = .gl then 2 else 1)), (o, (Size.regs .w32))]
  | .mspsel d a x _ _ => [(d, (Size.regs .w32)), (a, (Size.regs .w32)), (x, (Size.regs .w32))]
  | .spst sp _ a o _ _ => [(a, (if sp = .gl then 2 else 1)), (o, (Size.regs .w32))]
  | .mclaim => []
  | .mpass _ => []
  | .recruit d _ _ _ _ => [(d, 1)]
  | .hread d _ => [(d, (Size.regs .w32))]
  | .hret _ a => [(a, (Size.regs .w32))]
  | .hend => []
  | .join _ d m c => [(d, 1), (m, 1), (c, (Size.regs .w32))]
  | .dismiss => []
  | .bar _ a => [(a, 1)]
  | .barl d _ a => [(d, (Size.regs .w32)), (a, 1)]
  | .arrive _ a => [(a, 1)]
  | .mon sp _ a => [(a, (if sp = .gl then 2 else 1))]
  | .waitmon d => [(d, (Size.regs .w32))]
  | .qpush _ _ d a => [(d, (Size.regs .w32)), (a, (Size.regs .w128))]
  | .qpop _ _ d s => [(d, (Size.regs .w128)), (s, (Size.regs .w32))]
  | .qlen _ _ d => [(d, (Size.regs .w32))]
  | .gets _ r d => [(d, (Size.regs r.size))]
  | .sets _ a => [(a, (Size.regs .w32))]
  | .role _ => []
  | .grow _ d => [(d, (Size.regs .w32))]
  | .shrink _ => []
  | .guardedCommandResolution _ => []
  | .copyCommandComplete _ => []
  | .matrixEngineGrant _ => []
  | .matrixCommandComplete _ => []
  | .pairWaitExpiry _ => []
  | .cooperativeMatchTimeout _ => []
  | .growGrant _ => []
  | .growStuckDenial _ => []
  | .monitorEviction _ _ => []
  | .waitmonTimerExpiry _ => []
  | .sluiceRelease _ => []
  | .watchdogExpiry _ => []
  | .trigger _ _ => []
  | .triggerBegin _ _ => []
  | .gload _ _ => []
  | .launchStart _ _ => []
  | .unitDispatch _ _ _ => []
  | .unitDeschedule _ => []
  | .quantumExpiry _ => []
  | .cancelUnit _ _ => []
  | .cancelLaunch _ _ => []
  | .cancelGraph _ _ => []
  | .cancelPhase _ _ => []
  | .cancelJob _ _ => []
  | .ctxcmdPreempt _ => []
  | .preemptSaveComplete _ => []
  | .ctxcmdResume _ => []
  | .resumeComplete _ => []
  | .ctxcmdInval _ => []
  | .invalComplete _ => []
  | .firmwarePageGrow _ => []
  | .fcmdReplay _ _ => []
  | .fcmdCancel _ _ => []
  | .fcmdInvalid _ _ => []
  | .fqtailWrite _ _ => []
  | .softErrorCorrectable _ => []
  | .softErrorUncorrectable _ => []
  | .moduleLoad _ _ => []
  | .carrctlEn _ _ => []
  | .carrctlRetrain _ => []
  | .linkTrainingComplete _ _ _ => []
  | .linkTrainingTimeout _ => []
  | .laneLoss _ _ => []
  | .dataFlitReceive _ _ _ => []
  | .idleFlitReceive _ _ => []
  | .nakFlitReceive _ _ => []
  | .ackTimeoutResend _ => []
  | .linkCommandComplete _ _ _ => []
  | .cxlCompletionTimeout _ => []
  | .pcieAtomicopReceived _ => []
  | .boot _ _ => []
  | .getMeasurements _ => []
  | .getCertificate => []
  | .negotiateAlgorithms => []
  | .challenge _ => []
  | .redfishRequest _ => []
  | .healthcmdAck _ => []
  | .coreFence _ => []
  | .channelDrain _ => []
  | .mgmtHeartbeatMiss _ => []
  | .thermalTrip => []
  | .powerThrottle => []
  | .registerWrite _ _ => []
  | .accessPerformed _ _ => []
  | .graphLoadComplete _ => []
  | .carrBlockTransmit _ => []
  | .dieToDieLinkFailure => []
  | .bootSecurityCoreFailure => []

/-- The gang registers that an instruction names by number (R127, R232). -/
def Instr.gangNums : Instr → List Nat
  | .nop => []
  | .trace _ _ => []
  | .stg _ _ _ => []
  | .wbind _ _ _ => []
  | .guard _ _ _ => []
  | .settle => []
  | .tend _ _ => []
  | .tendi _ _ => []
  | .call _ _ => []
  | .calli _ _ => []
  | .ret _ => []
  | .merge _ => []
  | .regang => []
  | .exit => []
  | .yield => []
  | .trap _ => []
  | .bkpt _ => []
  | .iadd _ _ _ _ _ => []
  | .iaddI _ _ _ _ _ => []
  | .isub _ _ _ _ _ => []
  | .isubI _ _ _ _ _ => []
  | .iaddc _ _ _ _ _ => []
  | .isubb _ _ _ _ _ => []
  | .iadd64 _ _ _ _ => []
  | .iadd64I _ _ _ _ => []
  | .isub64 _ _ _ _ => []
  | .isub64I _ _ _ _ => []
  | .imul _ _ _ _ _ => []
  | .imulI _ _ _ _ _ => []
  | .imulh _ _ _ _ => []
  | .imulhI _ _ _ _ => []
  | .imulhu _ _ _ _ => []
  | .imulhuI _ _ _ _ => []
  | .imad _ _ _ _ _ _ => []
  | .imad64 _ _ _ _ _ _ => []
  | .divs _ _ _ _ => []
  | .divsI _ _ _ _ => []
  | .divu _ _ _ _ => []
  | .divuI _ _ _ _ => []
  | .rems _ _ _ _ => []
  | .remsI _ _ _ _ => []
  | .remu _ _ _ _ => []
  | .remuI _ _ _ _ => []
  | .iabs _ _ _ _ => []
  | .ineg _ _ _ _ => []
  | .imin _ _ _ _ => []
  | .iminI _ _ _ _ => []
  | .imax _ _ _ _ => []
  | .imaxI _ _ _ _ => []
  | .iminu _ _ _ _ => []
  | .iminuI _ _ _ _ => []
  | .imaxu _ _ _ _ => []
  | .imaxuI _ _ _ _ => []
  | .isat _ _ _ _ _ => []
  | .isatI _ _ _ _ _ => []
  | .icmp _ _ _ _ _ _ => []
  | .icmpI _ _ _ _ _ _ => []
  | .sel _ _ _ _ _ => []
  | .and _ _ _ _ => []
  | .andI _ _ _ _ => []
  | .or _ _ _ _ => []
  | .orI _ _ _ _ => []
  | .xor _ _ _ _ => []
  | .xorI _ _ _ _ => []
  | .andn _ _ _ _ => []
  | .andnI _ _ _ _ => []
  | .not _ _ _ => []
  | .shl _ _ _ _ => []
  | .shlI _ _ _ _ => []
  | .shr _ _ _ _ => []
  | .shrI _ _ _ _ => []
  | .sar _ _ _ _ => []
  | .sarI _ _ _ _ => []
  | .shf _ _ _ _ _ _ => []
  | .bfx _ _ _ _ _ => []
  | .bfxu _ _ _ _ _ => []
  | .bfi _ _ _ _ _ => []
  | .popc _ _ _ => []
  | .clz _ _ _ => []
  | .ctz _ _ _ => []
  | .brev _ _ _ => []
  | .bysel _ _ _ _ _ => []
  | .lea _ _ _ _ _ _ => []
  | .movi _ _ _ => []
  | .mov _ _ _ _ => []
  | .fadd _ _ _ _ _ _ => []
  | .faddI _ _ _ _ _ _ => []
  | .fsub _ _ _ _ _ _ => []
  | .fsubI _ _ _ _ _ _ => []
  | .fmul _ _ _ _ _ _ => []
  | .fmulI _ _ _ _ _ _ => []
  | .ffma _ _ _ _ _ _ _ => []
  | .fmin _ _ _ _ _ => []
  | .fminI _ _ _ _ _ => []
  | .fmax _ _ _ _ _ => []
  | .fmaxI _ _ _ _ _ => []
  | .fcmp _ _ _ _ _ _ => []
  | .fcmpI _ _ _ _ _ _ => []
  | .frcp _ _ _ => []
  | .frsq _ _ _ => []
  | .fsqrt _ _ _ => []
  | .fexp2 _ _ _ => []
  | .flog2 _ _ _ => []
  | .fsin _ _ _ => []
  | .fcos _ _ _ => []
  | .frnd _ _ _ _ => []
  | .fclass _ _ _ => []
  | .pkadd _ _ _ _ _ _ => []
  | .pkaddI _ _ _ _ _ _ => []
  | .pkmul _ _ _ _ _ _ => []
  | .pkmulI _ _ _ _ _ _ => []
  | .pkfma _ _ _ _ _ _ _ => []
  | .dadd _ _ _ _ _ => []
  | .daddI _ _ _ _ _ => []
  | .dsub _ _ _ _ _ => []
  | .dsubI _ _ _ _ _ => []
  | .dmul _ _ _ _ _ => []
  | .dmulI _ _ _ _ _ => []
  | .dfma _ _ _ _ _ _ => []
  | .dmin _ _ _ _ => []
  | .dminI _ _ _ _ => []
  | .dmax _ _ _ _ => []
  | .dmaxI _ _ _ _ => []
  | .dcmp _ _ _ _ _ => []
  | .dcmpI _ _ _ _ _ => []
  | .drcp _ _ _ => []
  | .drsq _ _ _ => []
  | .cvtif _ _ _ _ _ _ _ => []
  | .cvtfi _ _ _ _ _ _ _ _ => []
  | .cvtff _ _ _ _ _ _ => []
  | .cvtii _ _ _ _ _ _ _ _ => []
  | .packh _ _ _ _ _ _ => []
  | .unpkh _ _ _ _ => []
  | .xlane _ _ _ _ _ => []
  | .vote _ _ _ => []
  | .gredux _ _ _ => []
  | .scan _ _ _ _ _ _ => []
  | .ld _ _ _ _ _ _ => []
  | .st _ _ _ _ _ _ => []
  | .gather _ _ _ _ _ _ _ => []
  | .scatter _ _ _ _ _ _ _ => []
  | .scatterAdd _ _ _ _ _ _ _ => []
  | .atom _ _ _ _ _ _ _ _ _ => []
  | .red _ _ _ _ _ _ _ => []
  | .acq _ _ _ _ _ => []
  | .rel _ _ _ _ _ => []
  | .acqld _ _ _ _ _ _ => []
  | .relst _ _ _ _ _ _ => []
  | .fence => []
  | .xfence _ _ => []
  | .bind _ _ _ _ => []
  | .unbind _ _ => []
  | .pref _ _ _ _ _ => []
  | .spill _ _ _ _ _ _ => []
  | .fill _ _ _ _ _ _ => []
  | .cpy _ _ _ _ _ _ _ _ _ => []
  | .cpy2d _ _ _ _ _ _ _ _ ga gb gc => [ga.toNat, gb.toNat, gc.toNat]
  | .cseal _ d => [d.toNat]
  | .cdec _ _ _ _ ga gb => [ga.toNat, gb.toNat]
  | .fopen _ _ _ _ _ _ => []
  | .fnext _ _ _ _ _ => []
  | .ftest _ _ => []
  | .fclose _ => []
  | .orsv _ ga => (List.range 8).map fun k => (ga.toNat + k) % 64
  | .orls _ ga => [ga.toNat]
  | .mgath _ _ => []
  | .mma _ _ _ _ _ ga gb gc => [ga.toNat, gb.toNat, gc.toNat]
  | .mmap _ _ _ _ _ ga gb gc => [ga.toNat, gb.toNat, gc.toNat]
  | .guide _ _ ga gb gc => [ga.toNat, gb.toNat, gc.toNat]
  | .mzero _ ga gb => [ga.toNat, gb.toNat]
  | .mst _ _ _ _ _ ga gb gc => [ga.toNat, gb.toNat, gc.toNat]
  | .mld _ _ _ _ _ ga gb gc => [ga.toNat, gb.toNat, gc.toNat]
  | .mspsel _ _ _ ga gb => [ga.toNat, gb.toNat]
  | .spst _ _ _ _ ga gb => [ga.toNat, gb.toNat]
  | .mclaim => []
  | .mpass ga => [ga.toNat]
  | .recruit _ _ _ _ _ => []
  | .hread _ _ => []
  | .hret _ _ => []
  | .hend => []
  | .join _ _ _ _ => []
  | .dismiss => []
  | .bar _ _ => []
  | .barl _ _ _ => []
  | .arrive _ _ => []
  | .mon _ _ _ => []
  | .waitmon _ => []
  | .qpush _ _ _ _ => []
  | .qpop _ _ _ _ => []
  | .qlen _ _ _ => []
  | .gets _ _ _ => []
  | .sets _ _ => []
  | .role _ => []
  | .grow _ _ => []
  | .shrink _ => []
  | .guardedCommandResolution _ => []
  | .copyCommandComplete _ => []
  | .matrixEngineGrant _ => []
  | .matrixCommandComplete _ => []
  | .pairWaitExpiry _ => []
  | .cooperativeMatchTimeout _ => []
  | .growGrant _ => []
  | .growStuckDenial _ => []
  | .monitorEviction _ _ => []
  | .waitmonTimerExpiry _ => []
  | .sluiceRelease _ => []
  | .watchdogExpiry _ => []
  | .trigger _ _ => []
  | .triggerBegin _ _ => []
  | .gload _ _ => []
  | .launchStart _ _ => []
  | .unitDispatch _ _ _ => []
  | .unitDeschedule _ => []
  | .quantumExpiry _ => []
  | .cancelUnit _ _ => []
  | .cancelLaunch _ _ => []
  | .cancelGraph _ _ => []
  | .cancelPhase _ _ => []
  | .cancelJob _ _ => []
  | .ctxcmdPreempt _ => []
  | .preemptSaveComplete _ => []
  | .ctxcmdResume _ => []
  | .resumeComplete _ => []
  | .ctxcmdInval _ => []
  | .invalComplete _ => []
  | .firmwarePageGrow _ => []
  | .fcmdReplay _ _ => []
  | .fcmdCancel _ _ => []
  | .fcmdInvalid _ _ => []
  | .fqtailWrite _ _ => []
  | .softErrorCorrectable _ => []
  | .softErrorUncorrectable _ => []
  | .moduleLoad _ _ => []
  | .carrctlEn _ _ => []
  | .carrctlRetrain _ => []
  | .linkTrainingComplete _ _ _ => []
  | .linkTrainingTimeout _ => []
  | .laneLoss _ _ => []
  | .dataFlitReceive _ _ _ => []
  | .idleFlitReceive _ _ => []
  | .nakFlitReceive _ _ => []
  | .ackTimeoutResend _ => []
  | .linkCommandComplete _ _ _ => []
  | .cxlCompletionTimeout _ => []
  | .pcieAtomicopReceived _ => []
  | .boot _ _ => []
  | .getMeasurements _ => []
  | .getCertificate => []
  | .negotiateAlgorithms => []
  | .challenge _ => []
  | .redfishRequest _ => []
  | .healthcmdAck _ => []
  | .coreFence _ => []
  | .channelDrain _ => []
  | .mgmtHeartbeatMiss _ => []
  | .thermalTrip => []
  | .powerThrottle => []
  | .registerWrite _ _ => []
  | .accessPerformed _ _ => []
  | .graphLoadComplete _ => []
  | .carrBlockTransmit _ => []
  | .dieToDieLinkFailure => []
  | .bootSecurityCoreFailure => []

end Sys2Proof
end

