-- ==== Sys2Proof/Machine/State.lean ====
section
/-! DEFINITION. The state of the device: everything the manual gives it, as plain data, and the state after reset. -/

namespace Sys2Proof.Machine

/-! ### Names of places -/

/-- A gang of a unit (R10, R13); units are named by the number of their dispatch. -/
structure GangId where
  u : Nat
  g : Nat
  deriving DecidableEq, Repr, Inhabited

/-- A slice of a gang (R10). -/
structure SliceId where
  u : Nat
  g : Nat
  j : Nat
  deriving DecidableEq, Repr, Inhabited

/-- A lane, numbered in its gang (R10). -/
structure LaneId where
  u : Nat
  g : Nat
  l : Nat
  deriving DecidableEq, Repr, Inhabited

/-- The trace state of a lane: its own, or that of the helper context it is lent to (R269). -/
structure LaneRef where
  u : Nat
  g : Nat
  l : Nat
  h : Bool
  deriving DecidableEq, Repr, Inhabited

/-- An indexed register or slot of something. -/
structure Ix (κ : Type) where
  at_ : κ
  n : Nat
  deriving DecidableEq, Repr, Inhabited

/-! ### Lanes -/

/-- The fault classes (R340). -/
inductive FClass where
  | illop
  | illopnd
  | lease
  | page
  | poison
  | xatom
  | align
  | spovf
  | trap
  | bkpt
  | wdog
  | stack
  | divspill
  | helper
  deriving DecidableEq, Repr, Inhabited

/-- The code of a class in a fault record (R340). -/
def FClass.code : FClass → Nat
  | .illop => 1
  | .illopnd => 2
  | .lease => 3
  | .page => 4
  | .poison => 5
  | .xatom => 6
  | .align => 7
  | .spovf => 8
  | .trap => 9
  | .bkpt => 10
  | .wdog => 11
  | .stack => 12
  | .divspill => 13
  | .helper => 14

/-- A fault held against a lane (R39): class, subcode, fault address, AUX and the address of the faulting word (R341). -/
structure Flt where
  cls : FClass
  sub : Nat
  faddr : Nat
  aux : Nat
  waddr : Nat
  deriving DecidableEq, Repr, Inhabited

/-- A page's sharing scope (R26, R332). -/
inductive Scope where
  | unit
  | core
  | cluster
  | die
  | package
  | fabric
  | system
  deriving DecidableEq, Repr, Inhabited

/-- A buffered store of the trace write area (R38): its space, its address (a virtual address or an offset), the bytes, and for a
virtual address the physical addresses that its translation gave (R212), those of them on pages that take part in deterministic
ownership (R91), and those on pages of unit or core scope (R214). -/
structure Buf where
  sp : Space
  addr : Nat
  bytes : List Byte
  pas : List Nat
  scope : Scope
  det : List Nat
  loc : List Nat
  deriving DecidableEq, Repr, Inhabited

/-- A fibre register (R236). -/
structure Fibre where
  cptr : DWord := 0
  vptr : DWord := 0
  len : Word := 0
  cw : CWidth := .c2
  vw : VWidth := .v2
  pos : Word := 0
  deriving DecidableEq, Repr, Inhabited

/-- A lane's monitor (R86, R157): the armed line, the cause it has fired with, and the lines of the acquire reads since the last MON,
each with whether it has been written or has left tracking since. -/
structure Mon where
  armed : Option MonLine := none
  fired : Option Nat := none
  acq : List (MonLine × Bool × Bool) := []
  deriving DecidableEq, Repr, Inhabited

/-! ### Slices and threads -/

/-- An entry of the fragment stack (R42). -/
structure Frag where
  join : Bool
  mask : BitVec 4
  addr : Nat
  tok : Nat
  deriving DecidableEq, Repr, Inhabited

/-- Where a thread stands (R9, R44, R50). -/
inductive Pos where
  /-- No live lane, or a helper context that is free. -/
  | dead
  /-- About to enter the TRACE, MERGE or REGANG word at an address. -/
  | head (a : Nat)
  /-- At a word of the current trace, by its index from the TRACE word. -/
  | body (i : Nat)
  /-- Waiting at the REGANG at an address. -/
  | regang (a : Nat)
  /-- A pop is pending: it waits for released helpers to exit, or for a refill (R47, R277). -/
  | popping
  deriving DecidableEq, Repr, Inhabited

/-- What the instruction at which a thread stands waits for (R58). DESIGN CHOICE, log 11. -/
inductive Wait where
  | none
  /-- A pending token (R233). -/
  | token
  /-- Instance `n` of barrier `b` (R153). -/
  | barrier (b n : Nat)
  /-- The instance has completed; the gang that holds its role (R154). -/
  | departed (role : Nat)
  /-- WAITMON, since a clock; a cause that woke the whole slice (R158). -/
  | monitor (since : Nat) (woken : Option Nat)
  /-- A GROW to `n` registers (R54). -/
  | grow (n : Nat)
  /-- A GROW answered (R54). -/
  | grown (ok : Bool)
  /-- JOIN (R275). -/
  | join
  /-- The baton (R265). -/
  | baton
  /-- A synchronous command of an engine (R262). -/
  | cmd (id : Nat)
  /-- A synchronous command that has completed (R262). -/
  | done (v : Nat)
  /-- Committed writes to be performed: a release, EXIT, HEND, XFENCE (R72, R76, R89, R274). -/
  | drain
  /-- Commands to complete: XFENCE (R76). -/
  | fence (ids : List Nat)
  /-- Room under a batch tag (R232). -/
  | tagroom
  /-- A DET ATOM (R93). -/
  | det
  /-- Stopped with a record pending: BKPT or SPOVF (R151, R261). -/
  | stopped (seq : Nat)
  /-- The stop has been answered with REPLAY. -/
  | resumed
  /-- YIELD, until the firmware has looked (R152). -/
  | yield
  deriving DecidableEq, Repr, Inhabited

/-- A thread: a slice on its own program counter, or a helper context (R9, R268). -/
structure Thread where
  pos : Pos := .dead
  /-- Active mask (R9). -/
  mask : BitVec 4 := 0
  /-- Trace-head mask (R143). -/
  head : BitVec 4 := 0
  /-- Trace address and the words fetched at the head (R129). -/
  tr : Nat := 0
  words : List DWord := []
  /-- Stage count (R29). -/
  stages : Nat := 0
  /-- Alternative targets, by guard index (R126). -/
  alts : List Nat := []
  /-- Bound slots: slot and main register (R30). -/
  binds : List (Nat × Nat) := []
  /-- Lanes that failed a guard: index and mask (R32). -/
  failed : List (Nat × BitVec 4) := []
  settled : Bool := false
  committed : Bool := false
  wait : Wait := .none
  /-- Faults of a park that await an answer, by park number, and the slices that parked together (R342). -/
  parked : List Nat := []
  parkedWith : List Nat := []
  /-- What the word at the head may be: 0 any of TRACE, MERGE and REGANG, 1 what may follow a MERGE, 2 what may follow a REGANG (R129). -/
  need : Nat := 0
  /-- The clock since which the thread has been ready (R324). -/
  since : Nat := 0
  /-- Issued as part of a joined gang's trace (R46). -/
  grouped : Bool := false
  /-- How many traces the slice has entered (R51). -/
  inst : Nat := 0
  /-- Where the trace stands among the unit's traces that stage entries (R92). -/
  rank : Nat := 0
  deriving DecidableEq, Repr, Inhabited

/-- A slice: its register allocation, a pending SHRINK, the lanes that have exited, and its fragment stack: hardware entries, newest first,
and the count in the spill region (R19, R42, R47, R164). -/
structure Slice where
  nreg : Nat := 0
  shrink : Option Nat := none
  exited : BitVec 4 := 0
  stack : List Frag := []
  spilled : Nat := 0
  deriving DecidableEq, Repr, Inhabited

/-- A helper context in use: the recruiting gang and record, and the helper index of each lent lane (R268, R272). -/
structure Serve where
  g : Nat
  rid : Nat
  lanes : List (Nat × Nat)
  deriving DecidableEq, Repr, Inhabited

/-! ### Gangs -/

/-- A batch of copies under a tag (R232). -/
structure Batch where
  id : Nat
  tag : Nat
  delivered : Nat
  /-- Commands not yet complete. -/
  out : List Nat
  /-- The gang register that CSEAL named, once the batch is closed. -/
  reg : Option Nat
  deriving DecidableEq, Repr, Inhabited

/-- What has become of a helper (R274, R277, R279). -/
inductive HState where
  | running
  | delivered
  | faulted
  | released
  deriving DecidableEq, Repr, Inhabited

/-- A helper of a recruitment: the lane it borrows, its state and its HRET (R272, R274). -/
structure Helper where
  g : Nat
  l : Nat
  st : HState
  ret : Option (AluOp × Word)
  deriving DecidableEq, Repr, Inhabited

/-- An open recruitment record (R272). -/
structure Recr where
  lane : Nat
  asked : Nat
  trace : Nat
  window : List Word
  gsnap : List Word
  helpers : List Helper
  /-- Order of opening. -/
  age : Nat
  deriving DecidableEq, Repr, Inhabited

/-- A gang: its shape and its gang state other than gang registers (R10, R11, R161, R163, R232, R242, R272). -/
structure Gang where
  nslices : Nat := 1
  joined : Bool := true
  role : Role := .cm
  mark : Word := 0
  evtag : Word := 0
  /-- Row list: scratch offsets of the entries that are set (R250). -/
  rows : Map Nat Nat := []
  solo : Bool := false
  /-- Pair-miss counts by token (R256). -/
  miss : Map Nat Nat := []
  /-- By token, MMAPs of the partner that were discarded at resolution or had a zero extent and have met no MMAP yet (R256). -/
  gone : Map Nat Nat := []
  /-- The baton was freed by a save: it is asked for again before anything issues (R266). -/
  rebaton : Bool := false
  batches : List Batch := []
  recs : Map Nat Recr := []
  /-- Bytes of the scratchpad that the matrix engine may still see for the gang as they were before another gang's copy wrote them: offset, old
  and new byte (R75, R79). -/
  mxOld : List (Nat × Byte × Byte) := []
  deriving DecidableEq, Repr, Inhabited

/-- A bind record of a core's slot table, field by field (R314). -/
structure Bind where
  valid : Bool := false
  wdog : Nat := 0
  quantum : Nat := 0
  stkSize : Nat := 0
  stkBase : Nat := 0
  spillBase : Nat := 0
  pairWait : Nat := 0
  scrSize : Nat := 0
  scrBase : Nat := 0
  regMax : Nat := 0
  regN : Nat := 0
  regBase : Nat := 0
  band : Nat := 0
  partner : Nat := 0
  pair : Nat := 0
  mode : Nat := 0
  det : Bool := false
  asid : Nat := 0
  launchId : Nat := 0
  unitIdx : Nat := 0
  gang : Nat := 0
  slices : Nat := 0
  entry : Nat := 0
  deriving DecidableEq, Repr, Inhabited

/-- What a fault record says (R341), field by field. -/
structure RecFields where
  cls : FClass
  sub : Nat := 0
  pend : Bool := false
  hlp : Bool := false
  hrec : Nat := 0
  hidx : Nat := 0
  seq : Nat := 0
  launchId : Nat := 0
  asid : Nat := 0
  mask : BitVec 4 := 0
  slice : Nat := 0
  gang : Nat := 0
  unitIdx : Nat := 0
  core : Nat := 0
  traddr : Nat := 0
  waddr : Nat := 0
  faddr : Nat := 0
  aux : Nat := 0
  mark : Word := 0
  deriving DecidableEq, Repr

/-! ### Units -/

/-- The life of a unit (R313, R316, R348, R412). -/
inductive UStatus where
  | resident
  /-- Ended by a fault or a cancel; committed traces run out (R412). -/
  | ending
  /-- Being saved: traces run out (R348). -/
  | saving
  | saved
  | done
  deriving DecidableEq, Repr, Inhabited

/-- An entry the Sluice holds (R91, R92): a store's cells, or one element of a reduction. -/
inductive Staged where
  | store (cells : List Host.Cell)
  | red (pa : Nat) (w : Nat) (op : AluOp) (v : Nat)
  deriving DecidableEq, Repr, Inhabited

/-- A barrier of a unit: the current instance, its expected count once an arrival has set it, the gangs that have arrived, and the
slices (gang, slice) that have executed an arrival since their gang's last, with the count each read, in order (R153, R154). -/
structure Barrier where
  inst : Nat := 0
  expect : Option Nat := none
  arrived : List Nat := []
  executed : List ((Nat × Nat) × Nat) := []
  deriving DecidableEq, Repr, Inhabited

/-- An operand-buffer range saved with a unit, with the offsets of its poisoned granules (R352). -/
structure SavedRange where
  num : Nat
  words : List Nat
  bytes : List Byte
  bad : List Nat
  deriving DecidableEq, Repr, Inhabited

/-- A unit (R13, R14): its launch, index, core and bind records (one a gang), its status and what its scheduling needs. -/
structure UnitSt where
  launch : Nat := 0
  idx : Nat := 0
  ctx : Nat := 0
  core : Nat := 0
  /-- Slots of the core's slot table, and the bind record of each gang. -/
  slots : List Nat := []
  binds : List Bind := []
  status : UStatus := .resident
  cls : Option FClass := none
  /-- Ended by a cancel or a fault: counts in ERRORS (R319). -/
  failed : Bool := false
  matrix : Bool := false
  /-- Order of dispatch on the device: the lower is the older (R56). -/
  seq : Nat := 0
  quantumUp : Bool := false
  barriers : Map Nat Barrier := []
  /-- The Sluice's entries of the unit in the order of their release, each with the place of its trace: rank, gang, lowest slice (R92). -/
  staged : List ((Nat × Nat × Nat) × Staged) := []
  released : Bool := false
  savedRanges : List SavedRange := []
  /-- Fault records that are written once the unit has ended, with the thread that each concerns (R340). -/
  recs : List (ThreadId × RecFields) := []
  /-- Bytes of the save area that are reserved for the unit, with its index entry (R350). -/
  block : Nat := 0
  deriving DecidableEq, Repr, Inhabited

/-! ### Core and cluster -/

/-- A 32-byte sector that a core's L1 holds (R17, R213). -/
structure Sector where
  core : Nat
  pa : Nat
  bytes : List Byte
  ctx : Nat
  va : Nat
  scope : Scope
  deriving DecidableEq, Repr, Inhabited

/-- A committed write that has not been performed at home (R36, R80): the lane and core, and the widest scope of its pages. -/
structure WEntry where
  core : Nat
  lane : LaneRef
  ctx : Nat
  scope : Scope
  /-- Physical address and byte, and the addresses whose pages have unit or core scope: performed at the L1 already. -/
  cells : List Host.Cell
  loc : List Nat
  /-- The lane has made a release since (R214). -/
  released : Bool := false
  deriving DecidableEq, Repr, Inhabited

/-- A leaf that a walk ended at (R331, R332). -/
structure Leaf where
  /-- Physical address of the page, and log2 of its size. -/
  pa : Nat
  lg : Nat
  devx : Bool
  detp : Bool
  cls : Nat
  scope : Scope
  w : Bool
  x : Bool
  /-- Physical address of the entry (R341). -/
  epa : Nat
  deriving DecidableEq, Repr, Inhabited

/-- How a walk ends (R333). -/
inductive Walk where
  /-- A leaf that maps the page at a virtual base. -/
  | leaf (base : Nat) (l : Leaf)
  /-- An entry not present: growable or not, its physical address, its level and its bits. -/
  | absent (grow : Bool) (epa level entry : Nat)
  /-- A malformed entry, at a physical address. -/
  | bad (epa : Nat)
  deriving DecidableEq, Repr, Inhabited

/-- A TLB entry (R334): the core or cluster that holds it, the context, the page's base and the leaf. -/
structure TlbEnt where
  own : Nat
  ctx : Nat
  va : Nat
  leaf : Leaf
  deriving DecidableEq, Repr, Inhabited

/-- Where an engine command reads or writes. -/
inductive Loc where
  /-- A virtual address of the issuing context. -/
  | mem (va : Nat)
  /-- An offset in the unit's scratchpad allocation. -/
  | scr (off : Nat)
  /-- A peer package's memory, through an entry of the route block (R365). -/
  | far (entry : Nat) (va : Nat)
  /-- An offset in the operand buffer of the core's cluster. -/
  | ob (off : Nat)
  deriving DecidableEq, Repr, Inhabited

/-- What one lane supplies to a copy: source, destination, valid bytes, and the destination stride of a rectangle (R229, R230). -/
structure LaneCopy where
  l : Nat
  src : Loc
  dst : Loc
  n : Nat
  stride : Int := 0
  deriving DecidableEq, Repr, Inhabited

/-- The kinds of copy (R229, R230, R231, R247). -/
inductive CopyKind where
  | lanes (n : Nat)
  | rect (rows rowbytes : Nat) (sstride : Int)
  /-- A conversion under a record (by number), of a count of elements. -/
  | conv (num count : Nat) (desc : List Nat)
  deriving DecidableEq, Repr, Inhabited

/-- A command of a copy or link engine (R51, R228 to R235). Its progress is `done`, the writes of the elements that have been begun, and
`next`, the first element that has not, for a link command the first byte that the peer has not answered (R235, R366). -/
structure CopyCmd where
  id : Nat
  link : Bool
  core : Nat
  u : Nat
  g : Nat
  batch : Nat
  tag : Nat
  kind : CopyKind
  lanes : List LaneCopy
  /-- Pages translated at issue: virtual page number and physical page number (R234). -/
  pages : Map Nat Nat
  /-- Slices whose SETTLE the command awaits, empty once it is resolved, and the lanes found passing (R51). -/
  hold : List Nat
  pass : List Nat
  held : Bool
  done : List (Loc × List (Byte × Bool)) := []
  next : Nat := 0
  /-- Bytes of `done` that have been written since the command began or was replayed. -/
  written : Nat := 0
  /-- It has left its engine, but counts as complete only when the traces that issued it have had their memory commits (R51). -/
  finished : Bool := false
  /-- The traces that issued it: slice, and which of that slice's traces (R51). -/
  insts : List (Nat × Nat) := []
  /-- The lanes that issued it (R89). -/
  issued : List Nat := []
  /-- The link on which it travels, the bytes that the peer has acknowledged, and, once it has been stopped, its flits that are still to be
  acknowledged (R235, R366). -/
  via : Option Nat := none
  acked : Nat := 0
  flits : List (BitVec 16) := []
  deriving DecidableEq, Repr, Inhabited

/-- The kinds of matrix command (R248). -/
inductive MatKind where
  | mgath (p : Nat)
  | mma (sp co : Bool)
  | mmap (sp : Bool) (t : Nat)
  | guide (w : Word)
  | mzero
  | mst (sp : GS) (bf : Bool) (stride : Int)
  | mld (sp : GS) (bf : Bool) (stride : Int)
  | mspsel
  /-- The count and the bound that the header held at the issue (R260). -/
  | spst (sp : GS) (count bound : Nat)
  deriving DecidableEq, Repr, Inhabited

/-- The scalar operands that one lane would supply (R249): origin, and b, x, a or offset as the kind uses them, with the pitches of the
records that hold b, x and a. -/
structure MatLane where
  l : Nat
  o : Nat := 0
  b : Nat := 0
  x : Nat := 0
  a : Nat := 0
  pb : Nat := 1
  px : Nat := 1
  pa : Nat := 1
  deriving DecidableEq, Repr, Inhabited

/-- Why an MMAP is to be performed without its partner (R256). -/
inductive Alone where
  /-- The pair-wait limit ran out. -/
  | late
  /-- It consumed a pair miss. -/
  | missed
  /-- The partner's was discarded, or had a zero extent. -/
  | gone
  /-- The matched commands differ. -/
  | differs
  deriving DecidableEq, Repr, Inhabited

/-- A command of the matrix engine (R262). -/
structure MatCmd where
  id : Nat
  core : Nat
  u : Nat
  g : Nat
  kind : MatKind
  lanes : List MatLane
  m : Nat
  n : Nat
  k : Nat
  /-- Records against which operand-buffer bytes were checked (R246). -/
  recs : List Nat
  pages : Map Nat Nat
  hold : List Nat
  pass : List Nat
  held : Bool
  /-- In the reservation table, since when eligible, performed, and to be performed alone (R254, R256, R262). -/
  table : Bool
  since : Option Nat
  performed : Bool
  alone : Bool
  /-- For an MMAP, why alone (R256). -/
  why : Option Alone := none
  /-- A part of a granted co-operative match that is still to be performed, in the order of the cores (R254, R266). -/
  granted : Bool := false
  /-- Issued by a paired gang, which addresses a half-bank of 48 rows (R241). -/
  half : Bool := false
  /-- The issuing slices, which wait when the command is synchronous (R262), and which of their traces issued it (R51). -/
  js : List Nat
  insts : List (Nat × Nat) := []
  /-- GUIDE's status (R257); the entry that an SPST could not write, once it has met its bound (R261). -/
  res : Nat := 0
  ovf : Bool := false
  deriving DecidableEq, Repr, Inhabited

/-- A reservation record of a cluster's engine: its holder and the eight description words (R245). -/
structure OpRec where
  u : Nat
  words : List Nat
  deriving DecidableEq, Repr, Inhabited

/-! ### Contexts, graphs, launches -/

/-- A region of the binding table (R71, R312). -/
structure Region where
  base : Nat
  size : Nat
  obj : Nat
  deriving DecidableEq, Repr, Inhabited

/-- A queue of a context's map (R159, R327). -/
structure QMap where
  die : Nat
  hwq : Nat
  caplog : Nat
  ring : Nat
  deriving DecidableEq, Repr, Inhabited

/-- A module as loaded: its code base, its data base and size, its words, exported symbols, kernels, directory, frames (R301, R302). -/
structure LoadedModule where
  ctx : Nat
  code : Nat
  data : Nat
  nwords : Nat
  digest : List Byte
  /-- Word index and kind (0 TRACE, 1 MERGE, 2 REGANG) of each directory entry, and whether a RECRUIT names it. -/
  dir : List (Nat × Nat × Bool)
  /-- Token numbers and the word indices of their MERGE words. -/
  toks : List (Nat × Nat)
  matrix : Bool
  kernels : List KernelDesc
  /-- Exported symbols: name, address, and NEED where it is a function. -/
  exports : List (String × Nat × Nat)
  /-- The directory as laid out (R302). -/
  image : List Byte
  deriving DecidableEq, Repr, Inhabited

/-- An entry of the translator cache (R301, R373): the directory that it holds, and its tag. -/
structure CacheEntry where
  image : List Byte
  tag : List Byte
  deriving DecidableEq, Repr, Inhabited

/-- The state of a context in CTXSTAT (R330). -/
inductive CState where
  | running
  | saving
  | saved
  | restoring
  deriving DecidableEq, Repr, Inhabited

/-- A context: its control block, doorbell page, fault page, tables and counters (R71, R308, R327, R330, R343, R364). -/
structure Ctx where
  ptroot : DWord := 0
  savebase : DWord := 0
  savesize : DWord := 0
  state : CState := .running
  invbusy : Bool := false
  resumeHeld : Bool := false
  invaddr : DWord := 0
  invsize : DWord := 0
  /-- INVADDR and INVSIZE as the invalidation in progress took them (R335). -/
  invcur : DWord × DWord := (0, 0)
  /-- CTXCMD writes that wait for INVBUSY to clear (R335). -/
  cmdq : List Nat := []
  poolbase : DWord := 0
  poolcfg : DWord := 0
  poolhead : Word := 0
  pooltail : Word := 0
  growbase : DWord := 0
  growsize : DWord := 0
  trigstat : DWord := 0
  gload : Option Nat := none
  gloadstat : DWord := 0
  cancelunit : DWord := 0
  jobdone : Nat := 0
  gdiesel : DWord := 0
  phasedone : Map Nat Nat := []
  graphdone : Map Nat Nat := []
  fqbase : DWord := 0
  fqcfg : DWord := 0
  fqhead : Word := 0
  fqtail : Word := 0
  fqheld : Bool := false
  fcmdseq : Word := 0
  fcmdbad : Bool := false
  nextRec : Nat := 1
  nextTrig : Nat := 1
  bindtab : Map Nat Region := []
  /-- Regions that the table has held and holds no more: writes to them keep the object to which they were bound (R71). -/
  unbound : List Region := []
  queues : Map Nat QMap := []
  route : Map Nat QWord := []
  deriving DecidableEq, Repr, Inhabited

/-- A graph in scheduler memory (R303, R304): its owner, its node records, its edges, the nodes whose storage an error has spoilt. -/
structure Graph where
  ctx : Nat
  nodes : List (BitVec 1024)
  edges : List (Nat × Nat)
  bad : List Nat
  deriving DecidableEq, Repr, Inhabited

/-- A trigger, queued or running (R309 to R311). -/
structure Trig where
  ctx : Nat
  gid : Nat
  seq : Nat
  phase : Nat
  /-- Node, byte offset, value. -/
  patches : List (Nat × Nat × DWord)
  running : Bool
  deriving DecidableEq, Repr, Inhabited

/-- The states of a launch: waiting for its dependencies, filling its leases, running, cancelled while units of it still run out (R322),
and the final states of R319. -/
inductive LState where
  | waiting
  | filling
  | running
  | cancelling
  | complete
  | errors
  | cancelled
  deriving DecidableEq, Repr, Inhabited

/-- Who owns a line in a DET launch (R91). -/
inductive Owner where
  | priv (u : Nat)
  | shared
  deriving DecidableEq, Repr, Inhabited

/-- A launch of a trigger: its node record as patched, its progress and, in DET mode, its ownership table (R91, R305, R318, R319). -/
structure Launch where
  ctx : Nat
  gid : Nat
  node : Nat
  seq : Nat
  desc : BitVec 1024
  state : LState
  /-- Indices of units that have completed, and of units that have been dispatched or cancelled before dispatch. -/
  completed : List Nat
  begun : List Nat
  errors : Nat
  own : Map Nat Owner := []
  leases : List (Nat × Nat) := []
  /-- Outside quantum mode, the index and the core of the unit descheduled last, until another unit is dispatched there (R316). -/
  justOut : Option (Nat × Nat) := none
  /-- Leased pages that were writable when the launch started (R337). -/
  writable : List Nat := []
  deriving DecidableEq, Repr, Inhabited

/-! ### Faults -/

/-- A fault that parks a slice, awaiting the firmware or an answer (R39, R47, R336, R338). -/
structure Park where
  id : Nat
  ctx : Nat
  /-- The parked thread; none for a lease fill, which names its launch. -/
  thread : Option ThreadId
  launch : Nat
  va : Nat
  sub : Nat
  /-- Sequence number of its pending record; 0 while the firmware has it. -/
  seq : Nat
  /-- Answered with REPLAY while the context was saving or saved (R345). -/
  answered : Bool
  /-- The faulting lanes and the address of the faulting word, as its record says (R341). -/
  lanes : BitVec 4
  word : Nat
  deriving DecidableEq, Repr, Inhabited

/-- A fault record that has been raised (R341): its 64 bytes as a number, whether it is pending, written to the ring or held. -/
structure FRec where
  ctx : Nat
  seq : Nat
  cls : FClass
  image : BitVec 512
  pending : Bool
  written : Bool
  /-- The unit and thread it concerns. -/
  u : Nat
  thread : ThreadId
  /-- The record answers: REPLAY (0) or CANCEL (1), given while the context was saving or saved (R345). -/
  answer : Option Nat
  deriving DecidableEq, Repr, Inhabited

/-! ### Fleet -/

/-- The states of a Carr link (R360). -/
inductive LinkState where
  | down
  | training
  | up16
  | up8lo
  | up8hi
  | failed
  deriving DecidableEq, Repr, Inhabited

/-- A data flit that a link has sent (R358, R359), with the context whose command or answer it carries. -/
structure DataFlit where
  seq : BitVec 16
  len : BitVec 16
  payload : BitVec 1920
  ctx : Nat
  deriving DecidableEq, Repr, Inhabited

/-- A root port (R368): its expander is gone or does not answer; its HDM decoders by number, each with the offset in the port's window and
the size that it maps. With no decoder set the whole window is mapped. DESIGN CHOICE, log 104. -/
structure CxlPort where
  dead : Bool := false
  hdm : Map Nat (Nat × Nat) := []
  deriving DecidableEq, Repr, Inhabited

/-- What the Carr agent answers to a peer's element: the bytes that it wrote, or what it read, none for a byte refused (R366, R367). -/
inductive Reply where
  | wrote (n : Nat)
  | read (bytes : List (Option (Byte × Bool)))
  deriving DecidableEq, Repr, Inhabited

/-- A Carr link (R359 to R363). -/
structure Link where
  en : Bool := false
  state : LinkState := .down
  laneok : BitVec 16 := 0
  peer : BitVec 16 := 0
  next : BitVec 16 := 0
  acked : BitVec 16 := 0
  expect : BitVec 16 := 0
  /-- Data flits sent and not yet acknowledged, oldest first (R359). -/
  replay : List DataFlit := []
  /-- Flits to send again before new ones. -/
  resend : List DataFlit := []
  /-- The E for which a NAK has been sent, and one to be sent. -/
  naked : Option (BitVec 16) := none
  nakDue : Bool := false
  /-- E frozen while the link retrains after a lane loss, and the half it retrains on (R361). -/
  frozen : Option Bool := none
  /-- The state from which RETRAIN started. -/
  former : LinkState := .down
  /-- Package identity in use since the last training (R363). -/
  myid : BitVec 16 := 0
  /-- The block sent last: its header and its flits (R356). -/
  block : Option (BitVec 40 × List Flit) := none
  deriving DecidableEq, Repr, Inhabited

/-- The health of the device (R375). -/
inductive Health where
  | ok
  | degraded
  | failed
  | booting
  deriving DecidableEq, Repr, Inhabited

/-- An event counter: CTRSEL and CTR (R378). -/
structure Counter where
  sel : DWord := 0
  count : BitVec 48 := 0
  ovf : Bool := false
  deriving DecidableEq, Repr, Inhabited

/-- A message that the management port sends (R370, R372, R374). -/
inductive Msg where
  | bootFailed (stage : Nat)
  | measurement (index : Nat) (digest : List Byte) (sig : Option (Nat × Nat))
  | noMeasurement (index : Nat)
  | certificate (bytes : List Byte)
  | algorithms
  | challenge (r s : Nat)
  | health (v : DWord)
  | inventory
  | accepted
  | refused
  | unsupportedRequest (addr : Nat)
  /-- The report of a module load (R301): its reason code, 0 where it has loaded, and the word's offset. -/
  | moduleLoad (code offset : Nat)
  deriving DecidableEq, Repr, Inhabited

/-- The issue in hand: the unit, gang and slices whose thread runs the instruction, own threads or helper contexts (R11, R268). -/
structure Issue where
  u : Nat
  g : Nat
  js : List Nat
  h : Bool
  deriving DecidableEq, Repr, Inhabited

/-- What happens next, when the agenda says: an issue of a thread, or an event of the device. DESIGN CHOICE, log 1. -/
inductive Turn where
  | issue (t : ThreadId)
  | event (i : Instr)
  deriving DecidableEq, Repr

/-! ### The state -/

/-- The device. DESIGN CHOICE, log 5. -/
structure State where
  /-- Inputs and choices to come, the first first; when it is empty the machine arbitrates by itself. -/
  agenda : List Turn := []
  cur : Option Issue := none
  /-- What the instruction in hand has translated, by context and virtual page, and the sectors, each of a core, that it has accessed: each once (R212). -/
  pgs : Map (Nat × Nat) Walk := []
  secs : List (Nat × Nat) := []
  /-- Arithmetic clocks since reset (R161). -/
  clock : Nat := 0
  /-- The counter to which the free values are applied: the model's own. -/
  free : Nat := 0
  /-- Fresh numbers of units, commands, batches, parks: the model's own. -/
  fresh : Nat := 1
  -- lanes
  vreg : Map (Ix LaneId) Word := []
  vpoi : List (Ix LaneId) := []
  fib : Map (Ix LaneId) Fibre := []
  mon : Map LaneId Mon := []
  slot : Map (Ix LaneRef) Word := []
  dirty : List (Ix LaneRef) := []
  echo : Map (Ix LaneRef) Word := []
  buf : Map LaneRef (List Buf) := []
  held : Map LaneRef Flt := []
  shad : Map (Ix LaneRef) Fibre := []
  fill : Map (Ix LaneRef) Word := []
  -- threads, gangs, units
  thr : Map ThreadId Thread := []
  slices : Map SliceId Slice := []
  serve : Map SliceId Serve := []
  greg : Map (Ix GangId) Word := []
  gpoi : List (Ix GangId) := []
  gangs : Map GangId Gang := []
  units : Map Nat UnitSt := []
  /-- Entries that a helper's commit has put into the Sluice, until its recruiter's JOIN (R281): unit, gang, record, helper index. -/
  hstage : List ((Nat × Nat × Nat × Nat) × Staged) := []
  scr : Map Nat Memory := []
  scrpoi : List (Nat × Nat) := []
  -- cores and clusters
  l1 : List Sector := []
  wq : List WEntry := []
  tlbCore : List TlbEnt := []
  tlbCluster : List TlbEnt := []
  copies : List CopyCmd := []
  mats : List MatCmd := []
  /-- The engine logs of saved units (R235, R266, R352). -/
  copyLog : List CopyCmd := []
  matLog : List MatCmd := []
  acc : Map (Nat × Nat × Nat) Word := []
  accpoi : List (Nat × Nat × Nat) := []
  passes : Map (Nat × Nat) Nat := []
  opbuf : Map Nat Memory := []
  oppoi : List (Nat × Nat) := []
  oprecs : Map (Nat × Nat) OpRec := []
  /-- The holder of each cluster's baton and the requests for it in order of arrival (R265). -/
  baton : Map Nat GangId := []
  batonq : List (Nat × GangId) := []
  /-- Cores that are fenced, and cores that are to be once their units are saved (R376). -/
  fenced : List Nat := []
  fencing : List Nat := []
  -- memory
  mem : Memory := {}
  mempoi : List Nat := []
  -- contexts and scheduling
  ctxs : Map Nat Ctx := []
  modules : List LoadedModule := []
  /-- The translator cache (R301, R373). -/
  cache : List CacheEntry := []
  lodes : Map (Nat × Nat) (List QWord) := []
  lodeOwner : Map (Nat × Nat) Nat := []
  graphs : Map Nat Graph := []
  trigs : List Trig := []
  launches : Map Nat Launch := []
  parks : List Park := []
  frecs : List FRec := []
  quota : Map (Nat × Nat) (BitVec 8) := []
  -- fleet
  links : Map Nat Link := []
  pkgid : BitVec 16 := 0
  /-- What peers' commands are to be answered with: the link, the peer context here, and the answer, in order (R366, R367). -/
  replies : List (Nat × Nat × Reply) := []
  /-- Firmware images taken through Redfish, newest first (R374). -/
  updates : List Image := []
  health : Health := .booting
  replaceF : Bool := false
  drain : Option Nat := none
  dieover : List Nat := []
  diedead : List Nat := []
  chanoff : List Nat := []
  coreCtr : Map (Nat × Nat) Counter := []
  dieCtr : Map (Nat × Nat) Counter := []
  measure : Map Nat (List Byte) := []
  booted : Bool := false
  /-- The root ports, by die: whether the expander answers, and the HDM decoders (R368). -/
  cxl : Map Nat CxlPort := []
  /-- The virtual function to which the driver of the physical function has assigned a context (R369); 1 until it does.
  DESIGN CHOICE, log 105. -/
  vfs : Map Nat Nat := []
  /-- Fuses blown since manufacture: the key slots revoked, and the SVN minimum of each image kind (R371). -/
  revoked : List Nat := []
  svn : Map Nat Nat := []
  /-- The NVMe namespace that the flash configuration block names (R370). DESIGN CHOICE, log 28. -/
  flashNs : List Byte := []
  /-- Power limit in watts and arithmetic clock in MHz (R380, R381). -/
  cap : Nat := 3000
  mhz : Nat := 2500
  off : Bool := false
  /-- MSI-X vectors raised, newest first: function (0 physical, 1 to 64 virtual) and vector (R369). -/
  msix : List (Nat × Nat) := []
  out : List Msg := []
  deriving DecidableEq, Repr

/-- Why a run stops with a fault. -/
inductive Fault where
  /-- Raised by `step` when the device has powered itself off (R380): there is no next state. Safe: the machine has stopped. -/
  | poweredOff
  deriving DecidableEq, Repr

/-- Why an instruction is refused. -/
inductive Refusal where
  /-- Raised by an arm of `exec` whose instruction has no meaning in the model. Safe. -/
  | notModelled (mnemonic : String)
  deriving DecidableEq, Repr

/-- The device right after reset: no context, no unit, nothing in memory; HEALTH.STATE is 11 (R375), every quota is 16 (R329) and every
other register is 0; the power limit and the clock are those of R380 and R2. DESIGN CHOICE, log 2. DESIGN CHOICE, log 4. DESIGN CHOICE, log 5. -/
def State.reset : State :=
  { health := .booting, cap := 3000, mhz := 2500,
    quota := [((0, 0), 16), ((0, 1), 16), ((0, 2), 16), ((0, 3), 16), ((1, 0), 16), ((1, 1), 16), ((1, 2), 16), ((1, 3), 16),
      ((2, 0), 16), ((2, 1), 16), ((2, 2), 16), ((2, 3), 16), ((3, 0), 16), ((3, 1), 16), ((3, 2), 16), ((3, 3), 16),
      ((4, 0), 16), ((4, 1), 16), ((4, 2), 16), ((4, 3), 16), ((5, 0), 16), ((5, 1), 16), ((5, 2), 16), ((5, 3), 16),
      ((6, 0), 16), ((6, 1), 16), ((6, 2), 16), ((6, 3), 16), ((7, 0), 16), ((7, 1), 16), ((7, 2), 16), ((7, 3), 16)] }

end Sys2Proof.Machine
end

