-- ==== Sys2Proof/Machine/Mem.lean ====
section
/-! DEFINITION. Memory as cores and engines reach it: the physical map, page tables and TLBs (R24, R331 to R334), the L1 and the
committed writes that have not been performed (R25, R80, R213, R214), poison (R346, R347) and monitors (R86). -/

namespace Sys2Proof.Machine

/-! ### Free values, counters, interrupts -/

/-- A free choice: the choice and the state with the counter advanced. DESIGN CHOICE, log 6. -/
def takeBit (s : State) : Bool × State := (Config.freeBit s.free, { s with free := s.free + 1 })

/-- A free count. -/
def takeNat (s : State) : Nat × State := (Config.freeNat s.free, { s with free := s.free + 1 })

/-- A fresh number. -/
def takeFresh (s : State) : Nat × State := (s.fresh, { s with fresh := s.fresh + 1 })

/-- The virtual function that a context is assigned to (R369). -/
def vfOf (s : State) (ctx : Nat) : Nat := s.vfs.get ctx 1

/-- The context of an event that belongs to none (R378). -/
def noCtx : Nat := 8192

/-- Raise an MSI-X vector of a function (R369): 0 is the physical function, 1 to 64 are the virtual functions. -/
def raiseMsix (fn vec : Nat) (s : State) : State := { s with msix := (fn, vec) :: s.msix }

/-- A counter that counts `n` more events: it sets OVF and may forward vector 3 when it wraps (R378). DEDUCED, log 78. -/
def Counter.add (c : Counter) (n : Nat) : Counter :=
  { c with count := c.count + BitVec.ofNat 48 n, ovf := c.ovf || decide (2 ^ 48 ≤ c.count.toNat + n) }

/-- The counter is enabled for an event of a context and, on a core counter, of a gang with this tag (R378). -/
def Counter.counts (c : Counter) (isCore : Bool) (ev ctx tag : Nat) : Bool :=
  (c.sel.extractLsb' 0 8).toNat == ev && c.sel.getLsbD 8
    && (! (isCore && c.sel.getLsbD 14) || (c.sel.extractLsb' 10 4).toNat == tag)
    && (! c.sel.getLsbD 29 || (c.sel.extractLsb' 16 13).toNat == ctx)

/-- The counters of one core or die after `n` occurrences of an event. -/
def countIn (isCore : Bool) (own ev ctx tag n : Nat) (m : Map (Nat × Nat) Counter) : Map (Nat × Nat) Counter :=
  m.map fun p => if p.1.1 = own && p.2.counts isCore ev ctx tag then (p.1, p.2.add n) else p

/-- A counter of one core or die wraps on `n` more occurrences and asks for vector 3 (R378). -/
def overflows (isCore : Bool) (own ev ctx tag n : Nat) (m : Map (Nat × Nat) Counter) : Bool :=
  m.any fun p => p.1.1 = own && p.2.counts isCore ev ctx tag && p.2.sel.getLsbD 9 && decide (2 ^ 48 ≤ p.2.count.toNat + n)

/-- The EVTAG of the gang whose instruction is in hand (R161, R378). -/
def curTag (s : State) : Nat :=
  match s.cur with
  | none => 0
  | some iss => (s.gangs.get ⟨iss.u, iss.g⟩ {}).evtag.toNat

/-- Count `n` events of a source on a core's counters (R378, R379). DEDUCED, log 78. -/
def countCore (core ev ctx tag n : Nat) (s : State) : State :=
  let s' := { s with coreCtr := countIn true core ev ctx tag n s.coreCtr }
  if overflows true core ev ctx tag n s.coreCtr then raiseMsix 0 3 s' else s'

/-- Count `n` events of a source on a die's counters (R378, R379). DEDUCED, log 32. DEDUCED, log 78. -/
def countDie (die ev ctx n : Nat) (s : State) : State :=
  let s' := { s with dieCtr := countIn false die ev ctx 0 n s.dieCtr }
  if overflows false die ev ctx 0 n s.dieCtr then raiseMsix 0 3 s' else s'

/-! ### The physical map -/

/-- What a physical address names (R333). -/
inductive Target where
  | package
  | cxl (die : Nat)
  | host
  | invalid
  deriving DecidableEq, Repr

/-- The target of a physical address (R333). DEDUCED, log 75. -/
def targetOf (pa : Nat) : Target :=
  if pa < 0x18000000000 then .package
  else if pa < 0x1000000000000 then .invalid
  else if pa < 0x1800000000000 then .cxl ((pa - 0x1000000000000) / 0x100000000000)
  else if pa < 0x8000000000000 then .invalid
  else if pa < 0x10000000000000 then .host
  else .invalid

/-- The channel of a package address (R24). DEDUCED, log 75. -/
def channelOf (pa : Nat) : Nat := pa / 4096 % Config.channels

/-- The die that homes a physical address: that of its channel, or of its root port; the host's is die 0 (R24, R333). DEDUCED, log 75. -/
def homeDie (pa : Nat) : Nat :=
  match targetOf pa with
  | .package => channelOf pa / 48
  | .cxl d => d
  | _ => 0

/-- The L2 slice, of its home die, that caches the line of a package address (R24). -/
def sliceOfL2 (pa : Nat) : Nat := 4 * (channelOf pa % 48) + pa / 64 % 4

/-- The core's cluster (R161). -/
def clusterOf (core : Nat) : Nat := core / Config.coresPerCluster

/-- The core's die (R161). -/
def dieOf (core : Nat) : Nat := core / Config.coresPerDie

/-- The sector of a physical address: its base (R17). -/
def sectorOf (pa : Nat) : Nat := pa / 32 * 32

/-- The window of a root port reaches no memory at an offset: the expander is gone or does not answer (R368), or no decoder maps the
offset. DESIGN CHOICE, log 104. -/
def cxlOff (s : State) (die off : Nat) : Bool :=
  let p := s.cxl.get die {}
  p.dead || (! p.hdm.isEmpty && ! p.hdm.any fun d => decide (d.1 < 16) && decide (d.2.1 ≤ off) && decide (off < d.2.1 + d.2.2))

/-- The offset of a physical address in its port's window (R333). -/
def cxlOffset (pa : Nat) : Nat := (pa - 0x1000000000000) % 0x100000000000

/-- A physical address reads as poisoned: its sector is, its channel is fenced (R376), or its expander does not answer (R368). -/
def poisonedAt (s : State) (pa : Nat) : Bool :=
  s.mempoi.contains (sectorOf pa)
    || (match targetOf pa with
        | .package => s.chanoff.contains (channelOf pa)
        | .cxl d => cxlOff s d (cxlOffset pa)
        | _ => false)

/-! ### Monitors -/

/-- The cause of a wake (R158). -/
def causeWrite : Nat := 0
/-- Eviction (R158). -/
def causeEvict : Nat := 1

/-- A monitor that sees a write to, or the eviction of, a line (R86). -/
def Mon.see (line : MonLine) (evict : Bool) (m : Mon) : Mon :=
  { m with
    fired := if m.armed = some line && m.fired = none then some (if evict then causeEvict else causeWrite) else m.fired,
    acq := m.acq.map fun p => if p.1 = line then (p.1, p.2.1 || ! evict, p.2.2 || evict) else p }

/-- Every monitor sees a line written or evicted (R86). -/
def seeLine (line : MonLine) (evict : Bool) (ms : Map LaneId Mon) : Map LaneId Mon :=
  ms.map fun p => (p.1, p.2.see line evict)

/-- Fire the monitors of lines of memory that are written (R86). -/
def fireMem (pas : List Nat) (s : State) : State :=
  { s with mon := (pas.map (· / 64)).dedup.foldl (fun m ln => seeLine (.mem (ln * 64)) false m) s.mon }

/-- Fire the monitors of lines of a unit's scratchpad that are written (R86). -/
def fireScr (u : Nat) (offs : List Nat) (s : State) : State :=
  { s with mon := (offs.map (· / 64)).dedup.foldl (fun m ln => seeLine (.scr u (ln * 64)) false m) s.mon }

/-! ### Home memory -/

/-- The sectors that a list of addresses covers wholly. DEDUCED, log 88. -/
def wholeSectors (pas : List Nat) : List Nat :=
  ((pas.map sectorOf).dedup).filter fun b => (List.range 32).all fun i => pas.contains (b + i)

/-- Cells that reach memory: those of an expander that does not answer are dropped (R368). DEDUCED, log 74. -/
def reachable (s : State) (cells : List Host.Cell) : List Host.Cell :=
  cells.filter fun c => match targetOf c.1 with
    | .cxl d => ! cxlOff s d (cxlOffset c.1)
    | _ => true

/-- The L1 copies with the bytes of their sectors updated (R214). -/
def patchSector (cells : List Host.Cell) (x : Sector) : Sector :=
  { x with bytes := x.bytes.mapIdx fun i b => (cells.foldl (fun b' c => if c.1 = x.pa + i then c.2 else b') b) }

/-- Write cells at home: memory, and the poison of granules they cover wholly (R347). DEDUCED, log 74. DEDUCED, log 88. -/
def homePut (cells : List Host.Cell) (s : State) : State :=
  let cs := reachable s cells
  let whole := wholeSectors (cs.map (·.1))
  { s with mem := s.mem.writeAll cs, mempoi := s.mempoi.filter fun b => ! whole.contains b }

/-- Write cells at home, and fire the monitors of their lines (R86). -/
def homeWrite (cells : List Host.Cell) (s : State) : State := fireMem (cells.map (·.1)) (homePut cells s)

/-- Bytes at home. -/
def homeRead (s : State) (pas : List Nat) : List Byte := pas.map s.mem.read

/-- The bytes of consecutive physical addresses with their values. -/
def cellsOf (pas : List Nat) (bytes : List Byte) : List Host.Cell := pas.zip bytes

/-! ### Committed writes and the L1 -/

/-- The scope keeps its data in the writing core's L1 until a release (R80, R214). DEDUCED, log 16. -/
def Scope.isLocal : Scope → Bool
  | .unit => true
  | .core => true
  | _ => false

/-- A number that orders scopes from narrow to wide (R26). -/
def Scope.rank : Scope → Nat
  | .unit => 0
  | .core => 1
  | .cluster => 2
  | .die => 3
  | .package => 4
  | .fabric => 5
  | .system => 6

/-- The wider of two scopes. -/
def Scope.max (a b : Scope) : Scope := if a.rank < b.rank then b else a

/-- The wider of the scope of a list of scopes and unit scope. -/
def widest (l : List Scope) : Scope := l.foldl Scope.max .unit

/-- Perform one committed write at home: its cells are written, and its core's L1 keeps the written bytes (R80, R214). Monitors of pages
of unit or core scope have fired when the write was performed at the L1 (R86). DEDUCED, log 14. -/
def performEntry (e : WEntry) (s : State) : State :=
  let s' := fireMem ((e.cells.map (·.1)).filter fun p => ! e.loc.contains p) (homePut e.cells s)
  { s' with l1 := s'.l1.map fun x => if x.core = e.core then patchSector e.cells x else x }

/-- Two writes share a byte. -/
def overlaps (a b : List Host.Cell) : Bool := a.any fun c => b.any fun d => c.1 == d.1

/-- An entry may be performed: no earlier entry of its core shares a byte with it (R81), and one on pages of unit or core scope has been
released, or a later one of wider scope waits for it (R214). DEDUCED, log 14. -/
def mayPerform (before : List WEntry) (e : WEntry) (after : List WEntry) : Bool :=
  (! before.any fun x => x.core == e.core && overlaps x.cells e.cells)
    && (! e.scope.isLocal || e.released || after.any fun x => x.core == e.core && ! x.scope.isLocal && overlaps x.cells e.cells)

/-- Lanes make a release: what they have written to pages of unit or core scope may leave the L1 (R80, R214). -/
def releaseLanes (rs : List LaneRef) (s : State) : State :=
  { s with wq := s.wq.map fun e => if e.scope.isLocal && rs.contains e.lane then { e with released := true } else e }

/-- The committed writes of a core that share a byte with some cells, or with a later such write, in order; and the rest (R81). -/
def entangled (core : Nat) (cells : List Host.Cell) : List WEntry → List WEntry × List WEntry × List Host.Cell
  | [] => ([], [], cells)
  | e :: es =>
    let (hit, rest, cs) := entangled core cells es
    if e.core == core && overlaps e.cells cs then (e :: hit, rest, e.cells ++ cs) else (hit, e :: rest, cs)

/-- Perform the committed writes of a core that come before an access to some addresses (R81). -/
def drainOverlap (core : Nat) (pas : List Nat) (s : State) : State :=
  let (hit, rest, _) := entangled core (pas.map fun p => (p, 0)) s.wq
  hit.foldl (fun s e => performEntry e s) { s with wq := rest }

/-- Add a committed write (R36); what lies on pages of unit or core scope is performed at the L1 with it (R80, R86). -/
def enqueue (e : WEntry) (s : State) : State :=
  if e.cells.isEmpty then s else fireMem ((e.cells.map (·.1)).filter fun p => e.loc.contains p) { s with wq := s.wq ++ [e] }

/-- A lane has committed writes of scope wider than core that have not been performed (R72, R89). DEDUCED, log 16. -/
def undrained (s : State) (r : LaneRef) : Bool := s.wq.any fun e => e.lane == r && ! e.scope.isLocal

/-- The byte that a core sees at a physical address: its own latest committed write, else `d`. -/
def overlay (wq : List WEntry) (core pa : Nat) (d : Byte) : Byte :=
  wq.foldl (fun b e => if e.core = core then e.cells.foldl (fun b' c => if c.1 = pa then c.2 else b') b else b) d

/-- The other sectors that stay when a core's L1 takes one more: at most as many as it holds, the oldest go (R17). -/
def l1Others (core pa : Nat) (l : List Sector) : List Sector :=
  (l.filter fun x => x.core == core && x.pa != pa).take (Config.l1Sectors - 1) ++ l.filter fun x => x.core != core

/-- Bring a sector into a core's L1 from home (R213). DEDUCED, log 15. -/
def fetchSector (core ctx va pa : Nat) (sc : Scope) (s : State) : State :=
  { s with l1 := ⟨core, pa, homeRead s ((List.range 32).map (pa + ·)), ctx, va, sc⟩ :: l1Others core pa s.l1 }

/-- A core accesses a sector: a copy that its L1 still holds stays, else the sector is fetched, and kept unless the access streams (R213).
DEDUCED, log 15. -/
def accessSector (core ctx va pa : Nat) (sc : Scope) (s : State) : State :=
  let s := countCore core 0x0A ctx (curTag s) 1 s
  if s.l1.any fun x => x.core == core && x.pa == pa then
    let (keep, s) := takeBit s
    if keep then s else fetchSector core ctx va pa sc (countCore core 0x0B ctx (curTag s) 1 s)
  else fetchSector core ctx va pa sc (countCore core 0x0B ctx (curTag s) 1 s)

/-- An instruction accesses a sector, once (R212). -/
def touchSector (core ctx va pa : Nat) (sc : Scope) (s : State) : State :=
  if s.secs.contains (core, pa) then s
  else accessSector core ctx va pa sc { s with secs := (core, pa) :: s.secs }

/-- A byte reads as poisoned for a core: a committed write of its own that covers the whole granule has cleared it (R347). DEDUCED, log 74. -/
def poisonSeen (s : State) (core pa : Nat) : Bool :=
  poisonedAt s pa && ! s.wq.any fun e => e.core == core && (wholeSectors (e.cells.map (·.1))).contains (sectorOf pa)

/-- The byte that a core's L1 holds, else home's. -/
def l1Byte (s : State) (core pa : Nat) : Byte :=
  match s.l1.find? fun x => x.core == core && x.pa == sectorOf pa with
  | some x => x.bytes.getD (pa - x.pa) 0
  | none => s.mem.read pa

/-- The L1 without the sectors of these addresses on a core. -/
def dropSectors (core : Nat) (pas : List Nat) (s : State) : State :=
  { s with l1 := s.l1.filter fun x => ! (x.core == core && pas.any fun p => sectorOf p == x.pa) }

/-- The sectors of consecutive bytes: virtual and physical base. -/
def sectorsOf (va : Nat) (pas : List Nat) : List (Nat × Nat) :=
  (pas.mapIdx fun i p => ((va + i) / 32 * 32, sectorOf p)).dedup

/-- Bytes as a core reads them, at the physical addresses of consecutive virtual ones, on pages of this scope (R25, R213, R214). DEDUCED, log 14. -/
def coreRead (core ctx va : Nat) (pas : List Nat) (sc : Scope) (stream : Bool) (s : State) : List Byte × State :=
  let secs := sectorsOf va pas
  let s1 := secs.foldl (fun s p => touchSector core ctx p.1 p.2 sc s) s
  let bs := pas.map fun p => overlay s1.wq core p (l1Byte s1 core p)
  (bs, if stream then { s1 with l1 := s1.l1.filter fun x => ! (x.core == core && secs.any fun p => p.2 == x.pa) } else s1)

/-- Discard a core's L1 sectors that satisfy a predicate: sectors there are clean, since written bytes wait in `wq` (R72, R226). -/
def discardL1 (core : Nat) (p : Sector → Bool) (s : State) : State :=
  { s with l1 := s.l1.filter fun x => ! (x.core == core && p x) }

/-! ### Translation -/

/-- The code of a scope, 111 being reserved (R332). -/
def scopeOf (c : Nat) : Option Scope :=
  match c with
  | 0 => some .unit
  | 1 => some .core
  | 2 => some .cluster
  | 3 => some .die
  | 4 => some .package
  | 5 => some .fabric
  | 6 => some .system
  | _ => none

/-- A table entry (R331). -/
def entryAt (s : State) (pa : Nat) : Nat := leNat (s.mem.readN pa 8)

/-- The leaf that a present entry at a physical address is, mapping 2^lg bytes, or none where it is malformed (R333). -/
def leafOf (e epa lg : Nat) : Option Leaf :=
  match scopeOf (bitsOf e 5 3) with
  | none => none
  | some sc =>
    let pa := bitsOf e 12 40 * 4096
    if pa % 2 ^ lg = 0 && targetOf pa != .invalid then
      some ⟨pa, lg, bitsOf e 52 1 == 1, bitsOf e 11 1 == 1, bitsOf e 8 2, sc, bitsOf e 2 1 == 1, bitsOf e 3 1 == 1, epa⟩
    else none

/-- One level of a walk, from the table at `tbl`; `fuel` levels are left below (R331, R333). -/
def walkFrom (s : State) (va : Nat) : Nat → Nat → Walk
  | fuel, tbl =>
    let shift := 12 + 9 * fuel
    let ix := if fuel = 3 then bitsOf va 39 13 else bitsOf va shift 9
    let epa := tbl + 8 * ix
    let e := entryAt s epa
    match fuel with
    | 0 =>
      let gpa := tbl + 8 * (ix / 16 * 16)
      let ge := entryAt s gpa
      if bitsOf ge 0 1 = 1 && bitsOf ge 4 1 = 1 then
        if bitsOf ge 53 11 = 0 && bitsOf ge 1 1 = 1 then
          match leafOf ge gpa 16 with
          | some l => .leaf (va / 65536 * 65536) l
          | none => .bad gpa
        else .bad gpa
      else if bitsOf e 0 1 = 0 then .absent (bitsOf e 10 1 == 1) epa 0 e
      else if bitsOf e 53 11 = 0 && bitsOf e 1 1 = 1 then
        match leafOf e epa 12 with
        | some l => .leaf (va / 4096 * 4096) l
        | none => .bad epa
      else .bad epa
    | fuel' + 1 =>
      if bitsOf e 0 1 = 0 then .absent (bitsOf e 10 1 == 1) epa fuel e
      else if bitsOf e 53 11 = 0 && bitsOf e 4 1 = 0 then
        if bitsOf e 1 1 = 1 then
          if fuel = 3 then .bad epa
          else match leafOf e epa shift with
            | some l => .leaf (va / 2 ^ shift * 2 ^ shift) l
            | none => .bad epa
        else if targetOf (bitsOf e 12 40 * 4096) = .invalid then .bad epa
        else walkFrom s va fuel' (bitsOf e 12 40 * 4096)
      else .bad epa

/-- A context of the device (R330). -/
def ctxOf (s : State) (c : Nat) : Ctx := s.ctxs.get c {}

/-- Change a context. -/
def modCtx (c : Nat) (f : Ctx → Ctx) (s : State) : State := { s with ctxs := s.ctxs.modify c {} f }

/-- Walk a context's tables; a context that is not enabled maps nothing (R330, R331). -/
def walk (s : State) (ctx va : Nat) : Walk :=
  let root := (ctxOf s ctx).ptroot
  if root.getLsbD 0 then walkFrom s va 3 (bitsOf root.toNat 16 36 * 65536) else .absent false 0 3 0

/-- The TLB entry that maps an address. -/
def tlbFind (t : List TlbEnt) (own ctx va : Nat) : Option TlbEnt :=
  t.find? fun e => e.own == own && e.ctx == ctx && decide (e.va ≤ va) && decide (va < e.va + 2 ^ e.leaf.lg)

/-- A TLB with an entry added, within a number of entries for its owner (R334). -/
def tlbAdd (cap : Nat) (e : TlbEnt) (t : List TlbEnt) : List TlbEnt :=
  let mine := (t.filter (·.own == e.own)).take (cap - 1)
  e :: mine ++ t.filter (·.own != e.own)

/-- Keep a leaf in a core's TLB. -/
def tlbFillCore (core ctx b : Nat) (l : Leaf) (s : State) : State :=
  { s with tlbCore := tlbAdd 128 ⟨core, ctx, b, l⟩ s.tlbCore }

/-- Keep a leaf in the TLB of a core and in that of its cluster (R334). DEDUCED, log 15. -/
def tlbFill (core ctx b : Nat) (l : Leaf) (s : State) : State :=
  tlbFillCore core ctx b l { s with tlbCluster := tlbAdd 8192 ⟨clusterOf core, ctx, b, l⟩ s.tlbCluster }

/-- Walk the tables and keep the leaf (R334). -/
def walkFill (core ctx va : Nat) (s : State) : Walk × State :=
  match walk s ctx va with
  | .leaf b l => (.leaf b l, tlbFill core ctx b l s)
  | r => (r, s)

/-- A walk's leaf is the one that a TLB entry holds. -/
def sameLeaf (e : TlbEnt) (r : Walk) : Bool := r == .leaf e.va e.leaf

/-- Look a page up: a TLB entry that is still held, else a walk, whose leaf both TLBs keep (R334). Whether an entry is still held is a free
choice, which only the count of misses shows where the tables still say what the entry says. -/
def lookupPage (core ctx va : Nat) (s : State) : Walk × State :=
  match tlbFind s.tlbCore core ctx va with
  | some e =>
    let (hit, s) := takeBit s
    if sameLeaf e (walk s ctx va) then (.leaf e.va e.leaf, countCore core 0x0C ctx (curTag s) (if hit then 0 else 1) s)
    else if hit then (.leaf e.va e.leaf, s) else walkFill core ctx va (countCore core 0x0C ctx (curTag s) 1 s)
  | none =>
    let s := countCore core 0x0C ctx (curTag s) 1 s
    match tlbFind s.tlbCluster (clusterOf core) ctx va with
    | some e =>
      let (hit, s) := takeBit s
      if sameLeaf e (walk s ctx va) || hit then (.leaf e.va e.leaf, tlbFillCore core ctx e.va e.leaf s) else walkFill core ctx va s
    | none => walkFill core ctx va s

/-- The translation of a page, once for an instruction (R212). -/
def lookup (core ctx va : Nat) (s : State) : Walk × State :=
  match s.pgs.find? (ctx, va / 4096) with
  | some r => (r, s)
  | none =>
    let (r, s1) := lookupPage core ctx va s
    (r, { s1 with pgs := s1.pgs.set (ctx, va / 4096) r })

/-- An instruction begins: it has translated no page and accessed no sector (R212). -/
def newAccess (s : State) : State := { s with pgs := [], secs := [] }

/-- What the translation of an access to one page gives. -/
inductive Tr where
  /-- The physical address and the leaf. -/
  | ok (pa : Nat) (l : Leaf)
  /-- A fault: class, subcode and AUX (R341). -/
  | flt (cls : FClass) (sub aux : Nat)
  deriving DecidableEq, Repr

/-- The kinds of access that permissions tell apart (R333). -/
inductive Acc where
  | read
  | write
  | fetch
  deriving DecidableEq, Repr

/-- The end of a walk as an access takes it; `leased` says that the page lies in a lease, `open_` that an access outside one may
reach it once it is present, and `narrowed` that it is leased and was writable when the launch started. AUX is the physical address of the
failing entry (R27, R333, R337, R341). -/
def trOf (r : Walk) (va : Nat) (k : Acc) (leased open_ narrowed : Bool) : Tr :=
  match r with
  | .leaf b l =>
    if ! leased && ! open_ then .flt .lease 0 0
    else if narrowed && ! l.w then .flt .lease 0 l.epa
    else match k with
      | .write => if l.w then .ok (l.pa + (va - b)) l else .flt .lease 1 l.epa
      | .fetch => if l.x then .ok (l.pa + (va - b)) l else .flt .lease 2 l.epa
      | .read => .ok (l.pa + (va - b)) l
  | .absent grow epa _ _ => if grow && open_ && ! leased then .flt .page 0 epa else .flt .lease 0 epa
  | .bad epa => .flt .lease 4 epa

end Sys2Proof.Machine
end

