-- ==== Sys2Proof/Machine/Ops.lean ====
section
/-! DEFINITION. The named operations over the state: registers and threads, completion of launches and triggers, fault records and the
fault queue, and TAKING A FAULT: held faults, settled faults, the end of a unit (R39, R40, R339 to R345, R412). -/

namespace Sys2Proof.Machine

/-! ### Accessors -/

/-- The lanes of a slice mask. -/
def lanesOf (m : BitVec 4) : List Nat := [0, 1, 2, 3].filter fun i => m.getLsbD i

/-- The slice mask of one lane. -/
def bit (i : Nat) : BitVec 4 := (1 : BitVec 4) <<< i

/-- The slice mask of a list of lanes of a slice. -/
def maskOf (l : List Nat) : BitVec 4 := l.foldl (fun m i => m ||| bit i) 0

/-- A unit. -/
def unitOf (s : State) (u : Nat) : UnitSt := s.units.get u {}
/-- Change a unit. -/
def modUnit (u : Nat) (f : UnitSt → UnitSt) (s : State) : State := { s with units := s.units.modify u {} f }
/-- A gang. -/
def gangOf (s : State) (i : GangId) : Gang := s.gangs.get i {}
/-- Change a gang. -/
def modGang (i : GangId) (f : Gang → Gang) (s : State) : State := { s with gangs := s.gangs.modify i {} f }
/-- A slice. -/
def sliceOf (s : State) (i : SliceId) : Slice := s.slices.get i {}
/-- Change a slice. -/
def modSlice (i : SliceId) (f : Slice → Slice) (s : State) : State := { s with slices := s.slices.modify i {} f }
/-- A thread. -/
def threadOf (s : State) (i : ThreadId) : Thread := s.thr.get i {}
/-- Change a thread. -/
def modThread (i : ThreadId) (f : Thread → Thread) (s : State) : State := { s with thr := s.thr.modify i {} f }

/-- The bind record of a gang (R314). -/
def bindOf (s : State) (u g : Nat) : Bind := (unitOf s u).binds.getD g {}

/-- The threads of an issue. -/
def Issue.threads (iss : Issue) : List ThreadId := iss.js.map fun j => ⟨iss.u, iss.g, j, iss.h⟩

/-- The gang of an issue. -/
def Issue.gang (iss : Issue) : GangId := ⟨iss.u, iss.g⟩

/-- The lane references of a thread's lanes in a mask. -/
def refsOf (t : ThreadId) (m : BitVec 4) : List LaneRef := (lanesOf m).map fun i => ⟨t.u, t.g, 4 * t.j + i, t.h⟩

/-- The active lanes of an issue, ascending: the issue mask (R36, R177). DEDUCED, log 19. -/
def issueLanes (s : State) (iss : Issue) : List LaneRef :=
  iss.threads.flatMap fun t => refsOf t (threadOf s t).mask

/-- The thread of a lane. -/
def LaneRef.thread (r : LaneRef) : ThreadId := ⟨r.u, r.g, r.l / 4, r.h⟩

/-- The lane as a lane of its gang. -/
def LaneRef.lane (r : LaneRef) : LaneId := ⟨r.u, r.g, r.l⟩

/-- Change every thread of an issue. -/
def modThreads (iss : Issue) (f : Thread → Thread) (s : State) : State :=
  iss.threads.foldl (fun s t => modThread t f s) s

/-- Go on to the next word (R9). -/
def Thread.step (t : Thread) : Thread :=
  { t with wait := .none, pos := match t.pos with
      | .body i => .body (i + 1)
      | p => p }

/-- Every thread of the issue goes on to the next word. DEDUCED, log 19. -/
def advance (iss : Issue) (s : State) : State := modThreads iss Thread.step s

/-- Every thread of the issue waits at its word. DESIGN CHOICE, log 11. -/
def stall (iss : Issue) (w : Wait) (s : State) : State := modThreads iss (fun t => { t with wait := w }) s

/-- The wait of an issue: that of its first thread. -/
def waitOf (s : State) (iss : Issue) : Wait :=
  match iss.threads with
  | [] => .none
  | t :: _ => (threadOf s t).wait

/-- The first thread of an issue. -/
def headThread (s : State) (iss : Issue) : Thread :=
  match iss.threads with
  | [] => {}
  | t :: _ => threadOf s t

/-- The address of a word of a trace. -/
def wordAddr (t : Thread) : Nat :=
  match t.pos with
  | .body i => t.tr + 8 * i
  | .head a => a
  | .regang a => a
  | _ => t.tr

/-- The trace address of a thread (R341): the trace it stands in, or the one at whose head it stands. -/
def traceAddr (t : Thread) : Nat :=
  match t.pos with
  | .head a => a
  | .regang a => a
  | _ => t.tr

/-- The issue stands in the settled part (R33). -/
def isSettled (s : State) (iss : Issue) : Bool := (headThread s iss).settled

/-! ### Registers -/

/-- A main register (R12, R19). -/
def vreg (s : State) (l : LaneId) (n : Nat) : Word := s.vreg.get ⟨l, n⟩ 0
/-- Write a main register; the whole register is written, so its poison is gone (R347). -/
def setVreg (l : LaneId) (n : Nat) (v : Word) (s : State) : State :=
  { s with vreg := s.vreg.set ⟨l, n⟩ v, vpoi := s.vpoi.filter (· != ⟨l, n⟩) }
/-- A stage slot (R30). -/
def slot (s : State) (r : LaneRef) (n : Nat) : Word := s.slot.get ⟨r, n⟩ 0
/-- Write a stage slot, which becomes dirty (R31). -/
def setSlot (r : LaneRef) (n : Nat) (v : Word) (s : State) : State :=
  { s with slot := s.slot.set ⟨r, n⟩ v, dirty := if s.dirty.contains ⟨r, n⟩ then s.dirty else ⟨r, n⟩ :: s.dirty }
/-- Fill a stage slot without making it dirty (R30). -/
def loadSlot (r : LaneRef) (n : Nat) (v : Word) (s : State) : State := { s with slot := s.slot.set ⟨r, n⟩ v }
/-- A slot is dirty (R31). -/
def isDirty (s : State) (r : LaneRef) (n : Nat) : Bool := s.dirty.contains ⟨r, n⟩
/-- An echo, 0 the newest (R115). -/
def echo (s : State) (r : LaneRef) (n : Nat) : Word := s.echo.get ⟨r, n⟩ 0
/-- Shift a lane's echo file by one result (R115). -/
def shiftEcho (r : LaneRef) (v : Word) (s : State) : State :=
  { s with echo := (((s.echo.set ⟨r, 3⟩ (echo s r 2)).set ⟨r, 2⟩ (echo s r 1)).set ⟨r, 1⟩ (echo s r 0)).set ⟨r, 0⟩ v }
/-- A gang register (R12). -/
def greg (s : State) (g : GangId) (n : Nat) : Word := s.greg.get ⟨g, n⟩ 0
/-- Write a gang register; its poison is gone (R12, R347). -/
def setGreg (g : GangId) (n : Nat) (v : Word) (s : State) : State :=
  { s with greg := s.greg.set ⟨g, n⟩ v, gpoi := s.gpoi.filter (· != ⟨g, n⟩) }
/-- A gang register waits for its token (R232, R233). -/
def tokenPending (s : State) (g : GangId) (n : Nat) : Bool := (gangOf s g).batches.any fun b => b.reg == some n

/-- Forget the trace state of a lane (R17, R143). -/
def clearLane (r : LaneRef) (s : State) : State :=
  { s with slot := s.slot.filter (fun p => p.1.at_ != r), dirty := s.dirty.filter (fun p => p.at_ != r),
           echo := s.echo.filter (fun p => p.1.at_ != r), buf := s.buf.erase r, held := s.held.erase r,
           shad := s.shad.filter (fun p => p.1.at_ != r), fill := s.fill.filter (fun p => p.1.at_ != r) }

/-- Drop the trace effects of lanes that leave the trace: buffered stores, dirty slots, held faults (R32). -/
def dropLane (r : LaneRef) (s : State) : State :=
  { s with dirty := s.dirty.filter (fun p => p.at_ != r), buf := s.buf.erase r, held := s.held.erase r,
           shad := s.shad.filter (fun p => p.1.at_ != r), fill := s.fill.filter (fun p => p.1.at_ != r) }

/-- The lanes of a thread, whatever the mask. -/
def threadLanes (t : ThreadId) : List LaneRef := refsOf t 0xF

/-- The device answers its host: not once it has FAILED and its units have run out (R377). DEDUCED, log 35. -/
def answersHost (s : State) : Bool :=
  s.health != .failed || s.units.any fun p => p.2.status == .resident || p.2.status == .ending || p.2.status == .saving

/-- What a host's write does, while the device answers its host (R377). -/
def hostDoes (s : State) (o : Host.Outcome State Fault Refusal) : Host.Outcome State Fault Refusal :=
  if answersHost s then o else .next s

/-- A link (R359). -/
def linkOf (s : State) (l : Nat) : Link := s.links.get l {}

/-- A link carries flits (R360, R366). -/
def LinkState.up : LinkState → Bool
  | .up16 => true
  | .up8lo => true
  | .up8hi => true
  | _ => false

/-! ### Memory of a context, as the device's own agents reach it -/

/-- The physical address at which a context maps an address for writing or reading, if it is mapped. DEDUCED, log 12. -/
def sysAddr (s : State) (ctx va : Nat) : Option Nat :=
  if va < 2 ^ 52 then
    match walk s ctx va with
    | .leaf b l => some (l.pa + (va - b))
    | _ => none
  else none

/-- Bytes of a context's memory, none where a page does not translate. -/
def sysRead (s : State) (ctx va n : Nat) : Option (List Byte) :=
  (List.range n).mapM fun i => (sysAddr s ctx (va + i)).map s.mem.read

/-- Write bytes into a context's memory at system scope; a byte whose page does not translate is not written (log 12). -/
def sysWrite (ctx va : Nat) (bytes : List Byte) (s : State) : State :=
  homeWrite ((bytes.mapIdx fun i b => (sysAddr s ctx (va + i), b)).filterMap fun p => p.1.map fun a => (a, p.2)) s

/-! ### Launches, triggers and their completion -/

/-- A field of a node record (R305). -/
def nodeField (r : BitVec 1024) (lo w : Nat) : Nat := (r.extractLsb' lo w).toNat

/-- Units of a launch (R14). -/
def unitsIn (r : BitVec 1024) : Nat := nodeField r 64 32 * nodeField r 96 16 * nodeField r 112 16

/-- The launch identity of a bind record (R314). -/
def launchIdOf (l : Launch) : Nat := l.seq % 2 ^ 20 * 4096 + l.node

/-- The final states of a launch (R319). -/
def LState.final : LState → Bool
  | .complete => true
  | .errors => true
  | .cancelled => true
  | _ => false

/-- The leading units that have completed: DONE (R318). -/
def doneOf (l : Launch) : Nat :=
  ((List.range (l.completed.length + 1)).find? fun i => ! l.completed.contains i).getD 0

/-- STATE of a completion record (R319). -/
def LState.code : LState → Nat
  | .complete => 1
  | .errors => 2
  | .cancelled => 3
  | _ => 0

/-- The 32 bytes of a completion record (R319). -/
def complBytes (l : Launch) : List Byte :=
  leBytes 32 (doneOf l + l.errors * 2 ^ 64 + (l.seq % 2 ^ 32) * 2 ^ 128 + l.state.code * 2 ^ 160)

/-- Write a launch's completion record, with release semantics: what its units committed is performed first (R319, R90). DEDUCED, log 12. -/
def writeCompl (l : Launch) (s : State) : State := sysWrite l.ctx (nodeField l.desc 448 52) (complBytes l) s

/-- Perform every committed write of a context (R90). -/
def drainCtx (ctx : Nat) (s : State) : State :=
  let mine := s.wq.filter (·.ctx == ctx)
  mine.foldl (fun s e => performEntry e s) { s with wq := s.wq.filter (·.ctx != ctx) }

/-- The nodes that depend on a node, directly or through others, within a number of rounds (R306). -/
def dependants (edges : List (Nat × Nat)) : Nat → List Nat → List Nat
  | 0, ns => ns
  | k + 1, ns => dependants edges k ((ns ++ (edges.filter fun e => ns.contains e.1).map (·.2)).dedup)

/-- The launches of the running trigger of a graph. -/
def launchesOf (s : State) (gid seq ctx : Nat) : List (Nat × Launch) :=
  s.launches.filter fun p => p.2.gid == gid && p.2.seq == seq && p.2.ctx == ctx

/-- A trigger completes when every node has a final state: GRAPHDONE, PHASEDONE and JOBDONE rise (R320). -/
def checkTrigger (gid seq ctx : Nat) (s : State) : State :=
  let t? := s.trigs.find? fun t => t.gid == gid && t.seq == seq && t.ctx == ctx && t.running
  match t? with
  | none => s
  | some t =>
    if (launchesOf s gid seq ctx).all fun p => p.2.state.final then
      let s1 := { s with trigs := s.trigs.filter (fun x => ! (x.gid == gid && x.seq == seq && x.ctx == ctx)) }
      raiseMsix (vfOf s ctx) 0 (modCtx ctx (fun c =>
        { c with graphdone := c.graphdone.modify gid 0 (· + 1), phasedone := c.phasedone.modify t.phase 0 (· + 1),
                 jobdone := c.jobdone + 1 }) s1)
    else s

/-- Give a launch a final state: its STATE is written as a full release; a launch that ends with STATE 11 takes its dependants with it
(R306, R319, R322). -/
def finishLaunch (lid : Nat) (st : LState) (s : State) : State :=
  match s.launches.find? lid with
  | none => s
  | some l =>
    if l.state.final then s
    else
      let l' := { l with state := st }
      let s1 := writeCompl l' (drainCtx l.ctx { s with launches := s.launches.set lid l' })
      let s2 :=
        if st = .cancelled then
          let edges := ((s1.graphs.find? l.gid).map (·.edges)).getD []
          let deps := dependants edges edges.length [l.node]
          (launchesOf s1 l.gid l.seq l.ctx).foldl (fun s p =>
            if deps.contains p.2.node && ! p.2.state.final then
              writeCompl { p.2 with state := .cancelled }
                { s with launches := s.launches.set p.1 { p.2 with state := .cancelled } }
            else s) s1
        else s1
      checkTrigger l.gid l.seq l.ctx s2

/-- Every unit of a DET launch that has been released by the Sluice (R92). -/
def sluiceDone (s : State) (lid : Nat) (l : Launch) : Bool :=
  ! (l.desc.getLsbD 163) || (s.units.filter fun p => p.2.launch == lid).all fun p => p.2.released || p.2.staged.isEmpty

/-- No unit of a launch is on a core or saved any more. -/
def unitsGone (s : State) (lid : Nat) : Bool := (s.units.filter fun p => p.2.launch == lid).all fun p => p.2.status == .done

/-- The launch completes when all its units have (R318, R319); a cancelled one when none of its units runs any more (R322). DEDUCED, log 43. -/
def checkLaunch (lid : Nat) (s : State) : State :=
  match s.launches.find? lid with
  | none => s
  | some l =>
    if l.state = .cancelling then
      if l.completed.length == unitsIn l.desc && unitsGone s lid && sluiceDone s lid l then finishLaunch lid .cancelled s else s
    else if l.completed.length == unitsIn l.desc && sluiceDone s lid l && ! l.state.final then
      finishLaunch lid (if l.errors = 0 then .complete else .errors) s
    else s

/-- Count a unit of a launch as completed, once, and in ERRORS where it failed; DONE is written with release semantics (R319, R323). -/
def countUnit (lid idx : Nat) (failed : Bool) (s : State) : State :=
  match s.launches.find? lid with
  | none => s
  | some l =>
    if l.completed.contains idx then s
    else
      let l' := { l with completed := idx :: l.completed, errors := if failed then l.errors + 1 else l.errors }
      let s1 := { s with launches := s.launches.set lid l' }
      checkLaunch lid (if l.state.final then s1 else writeCompl l' s1)

/-! ### Fault records -/

/-- The 64 bytes of a fault record, as a number (R341). -/
def RecFields.image (r : RecFields) : BitVec 512 :=
  BitVec.ofNat 512 (r.cls.code + r.sub * 2 ^ 8 + (if r.pend then 2 ^ 16 else 0) + (if r.hlp then 2 ^ 17 else 0)
    + r.hrec % 4 * 2 ^ 18 + r.hidx % 32 * 2 ^ 20 + r.seq % 2 ^ 32 * 2 ^ 32 + r.launchId % 2 ^ 32 * 2 ^ 64
    + r.asid % 2 ^ 13 * 2 ^ 96 + r.mask.toNat * 2 ^ 112 + r.slice % 8 * 2 ^ 116 + r.gang % 32 * 2 ^ 119
    + r.unitIdx % 2 ^ 48 * 2 ^ 128 + r.core % 2 ^ 11 * 2 ^ 176 + r.traddr % 2 ^ 64 * 2 ^ 192 + r.waddr % 2 ^ 64 * 2 ^ 256
    + r.faddr % 2 ^ 64 * 2 ^ 320 + r.aux % 2 ^ 64 * 2 ^ 384 + r.mark.toNat * 2 ^ 448)

/-- Records of the ring, 0 where it is not enabled (R343). -/
def ringSize (c : Ctx) : Nat :=
  let lg := (c.fqcfg.extractLsb' 0 5).toNat
  if c.fqcfg.getLsbD 8 && decide (6 ≤ lg) && decide (lg ≤ 16) then 2 ^ lg else 0

/-- Write one record to the ring: the record first, then FQHEAD, then vector 1 where FQHEAD leaves FQTAIL (R343). DEDUCED, log 59. -/
def writeRing (r : FRec) (s : State) : State :=
  let c := ctxOf s r.ctx
  let s1 := sysWrite r.ctx (bitsOf c.fqbase.toNat 12 52 * 4096 + 64 * (c.fqhead.toNat % ringSize c)) (leBytes 64 r.image.toNat) s
  let s2 := modCtx r.ctx (fun c => { c with fqhead := c.fqhead + 1 }) s1
  let s3 := { s2 with frecs := s2.frecs.map fun x => if x.ctx = r.ctx ∧ x.seq = r.seq then { x with written := true } else x }
  if c.fqhead = c.fqtail then raiseMsix (vfOf s r.ctx) 1 s3 else s3

/-- Write the records that are held for room, in order, while there is room (R343). -/
def flushRing (ctx : Nat) (s : State) : State :=
  (s.frecs.filter fun r => r.ctx == ctx && ! r.written).foldl (fun s r =>
    let c := ctxOf s ctx
    if (c.fqhead - c.fqtail).toNat < ringSize c && ! (s.frecs.any fun x => x.ctx == ctx && ! x.written && decide (x.seq < r.seq)
        && decide (r.seq - x.seq < 2 ^ 31))
    then writeRing r s else modCtx ctx (fun c => { c with fqheld := true }) s) s

/-- Raise a fault record of a context: it takes the next SEQ and is written to the ring, or held for room (R341, R343). DEDUCED, log 58. -/
def raiseRecord (ctx u : Nat) (t : ThreadId) (r : RecFields) (s : State) : Nat × State :=
  let c := ctxOf s ctx
  let seq := c.nextRec
  let s1 := modCtx ctx (fun c => { c with nextRec := if seq = 0xFFFFFFFF then 1 else seq + 1 }) s
  let img := { r with seq := seq, asid := ctx }.image
  (seq, flushRing ctx { s1 with frecs := s1.frecs ++ [⟨ctx, seq, r.cls, img, r.pend, false, u, t, none⟩] })

/-- The recruitment that a helper context serves: the recruiting gang, the record and its recruiter lane (R272, R279). -/
def serveOf (s : State) (t : ThreadId) : Option (Serve × Recr) :=
  match s.serve.find? ⟨t.u, t.g, t.j⟩ with
  | none => none
  | some sv => ((gangOf s ⟨t.u, sv.g⟩).recs.find? sv.rid).map fun r => (sv, r)

/-- The record of a fault of a thread, with the lanes that it names (R279, R341). -/
def recOf (s : State) (t : ThreadId) (f : Flt) (mask : BitVec 4) (pend : Bool) : RecFields :=
  let un := unitOf s t.u
  let th := threadOf s t
  let base : RecFields :=
    { cls := f.cls, sub := f.sub, pend := pend, launchId := (bindOf s t.u t.g).launchId, mask := mask, slice := t.j, gang := t.g,
      unitIdx := un.idx, core := un.core, traddr := traceAddr th, waddr := f.waddr, faddr := f.faddr, aux := f.aux,
      mark := (gangOf s ⟨t.u, t.g⟩).mark }
  if t.h then
    match serveOf s t with
    | some (sv, r) =>
      let ix := ((sv.lanes.find? fun p => mask.getLsbD (p.1 % 4)).map (·.2)).getD 0
      { base with hlp := true, hrec := sv.rid, hidx := ix, gang := sv.g, slice := r.lane / 4, mask := bit (r.lane % 4),
                  mark := (gangOf s ⟨t.u, sv.g⟩).mark }
    | none => base
  else base

/-- Note a record that is written once its unit has ended (R340). -/
def noteRecord (t : ThreadId) (r : RecFields) (s : State) : State := modUnit t.u (fun x => { x with recs := x.recs ++ [(t, r)] }) s

/-- Write the records of a unit that has ended, in order (R340, R412). -/
def writeRecords (u : Nat) (s : State) : State :=
  (unitOf s u).recs.foldl (fun s p => (raiseRecord (unitOf s u).ctx u p.1 p.2 s).2) (modUnit u (fun x => { x with recs := [] }) s)

/-- Raise the record of a fault of a thread. -/
def raiseFault (t : ThreadId) (f : Flt) (mask : BitVec 4) (pend : Bool) (s : State) : Nat × State :=
  raiseRecord (unitOf s t.u).ctx t.u t (recOf s t f mask pend) s

/-! ### Engine commands that go away -/

/-- A batch without a command, which belongs to it no more (R232). -/
def dropFromBatches (id : Nat) (g : Gang) : Gang :=
  { g with batches := g.batches.map fun b => { b with out := b.out.filter (· != id) } }

/-- Discard the commands of a gang that a predicate on their numbers names, and take them out of their batches (R51). -/
def discardCmds (u g : Nat) (p : Nat → Bool) (s : State) : State :=
  let ids := (s.copies.filter fun c => c.u == u && c.g == g && p c.id).map (·.id)
  let s1 := { s with copies := s.copies.filter fun c => ! (c.u == u && c.g == g && p c.id),
                     mats := s.mats.filter fun c => ! (c.u == u && c.g == g && p c.id) }
  ids.foldl (fun s i => modGang ⟨u, g⟩ (dropFromBatches i) s) s1

/-- The traces in which the slices of an issue stand (R51). -/
def instsOf (s : State) (iss : Issue) : List (Nat × Nat) := iss.js.map fun j => (j, (threadOf s ⟨iss.u, iss.g, j, iss.h⟩).inst)

/-- One of some traces is still in progress, before its memory commit, on one of some slices (R51, R58). -/
def openInsts (s : State) (u g : Nat) (insts : List (Nat × Nat)) (js : Nat → Bool) : Bool :=
  insts.any fun p =>
    let th := threadOf s ⟨u, g, p.1, false⟩
    js p.1 && th.inst == p.2 && ! th.committed && (match th.pos with
      | .body _ => true
      | _ => false)

/-- The commands of a gang that traces of these slices have issued which have not had their memory commit: held ones, and those that have
been resolved since (R51, R386). -/
def openFor (s : State) (u g : Nat) (js : List Nat) : List Nat :=
  ((s.copies.filter fun c => c.u == u && c.g == g && openInsts s u g c.insts js.contains).map (·.id))
    ++ ((s.mats.filter fun c => c.u == u && c.g == g && openInsts s u g c.insts js.contains).map (·.id))

/-- Write the tokens of closed batches whose commands are all complete (R232). -/
def writeTokens (gi : GangId) (s : State) : State :=
  let g := gangOf s gi
  let ready := g.batches.filter fun b => b.reg.isSome && b.out.isEmpty
  let s1 := ready.foldl (fun s b => setGreg gi (b.reg.getD 0) (BitVec.ofNat 32 b.delivered) s) s
  modGang gi (fun g => { g with batches := g.batches.filter fun b => ! (b.reg.isSome && b.out.isEmpty) }) s1

/-! ### Helpers -/

/-- Change a helper of a record by its index, from 1 (R272). -/
def modHelper (u g rid ix : Nat) (f : Helper → Helper) (s : State) : State :=
  modGang ⟨u, g⟩ (fun gg => { gg with recs := gg.recs.map fun p =>
    if p.1 = rid then (p.1, { p.2 with helpers := p.2.helpers.mapIdx fun i h => if i + 1 = ix then f h else h }) else p }) s

/-- A helper context that has no lane left is free again (R269). -/
def freeHelper (t : ThreadId) (s : State) : State :=
  { s with thr := s.thr.set t {}, serve := s.serve.erase ⟨t.u, t.g, t.j⟩ }

/-- Lanes of a helper context leave it in a state: faulted or released; nothing of their trace takes effect (R277, R279). DEDUCED, log 70. -/
def leaveHelper (t : ThreadId) (lanes : BitVec 4) (st : HState) (s : State) : State :=
  match s.serve.find? ⟨t.u, t.g, t.j⟩ with
  | none => s
  | some sv =>
    let s1 := sv.lanes.foldl (fun s p =>
      if lanes.getLsbD (p.1 % 4) then modHelper t.u sv.g sv.rid p.2 (fun h =>
        if h.g = t.g ∧ h.l = p.1 ∧ h.st = .running then { h with st := st } else h) s else s) s
    let s2 := (refsOf t lanes).foldl (fun s r => clearLane r s) s1
    let s3 := modThread t (fun th => { th with mask := th.mask &&& ~~~lanes, head := th.head &&& ~~~lanes }) s2
    let rest := sv.lanes.filter fun p => ! lanes.getLsbD (p.1 % 4)
    if rest.isEmpty then freeHelper t s3 else { s3 with serve := s3.serve.set ⟨t.u, t.g, t.j⟩ { sv with lanes := rest } }

/-- Release the helpers of a record that have not had their memory commit (R276, R277). DEDUCED, log 70. -/
def releaseRecord (u g rid : Nat) (s : State) : State :=
  match (gangOf s ⟨u, g⟩).recs.find? rid with
  | none => s
  | some r =>
    r.helpers.foldl (fun s h =>
      let t : ThreadId := ⟨u, h.g, h.l / 4, true⟩
      if h.st = .running ∧ (threadOf s t).committed = false then leaveHelper t (bit (h.l % 4)) .released s else s) s

/-! ### The end of a unit -/

/-- The threads of a unit. -/
def unitThreads (s : State) (u : Nat) : List (ThreadId × Thread) := s.thr.filter fun p => p.1.u == u

/-- Give a cluster's baton to the next requester (R265). -/
def giveBaton (cl : Nat) (s : State) : State :=
  match s.batonq.find? (·.1 == cl) with
  | none => s
  | some (_, g) => { s with baton := s.baton.set cl g, batonq := s.batonq.filter fun p => ! (p.1 == cl && p.2 == g) }

/-- Free a cluster's baton (R265). -/
def freeBaton (cl : Nat) (s : State) : State := giveBaton cl { s with baton := s.baton.erase cl }

/-- A unit's gangs hold no baton and ask for none (R265, R266). -/
def dropBatons (u : Nat) (s : State) : State :=
  let s1 := { s with batonq := s.batonq.filter fun p => p.2.u != u }
  (s1.baton.filter fun p => p.2.u == u).foldl (fun s p => freeBaton p.1 s) s1

/-- Records of a unit are no longer pending (R345). -/
def settleRecords (u : Nat) (s : State) : State :=
  { s with frecs := s.frecs.map (fun r => if r.u = u then { r with pending := false } else r),
           parks := s.parks.filter fun p => match p.thread with
             | some t => t.u != u
             | none => true }

/-- One place of a trace among those of its unit does not come after another (R92). -/
def placeLe (a b : Nat × Nat × Nat) : Bool :=
  decide (a.1 < b.1) || (a.1 == b.1 && (decide (a.2.1 < b.2.1) || (a.2.1 == b.2.1 && decide (a.2.2 ≤ b.2.2))))

/-- The Sluice's entries of a unit with some more at the end of those of a trace: released trace by trace (R92). -/
def insertStaged (k : Nat × Nat × Nat) (es : List Staged) (l : List ((Nat × Nat × Nat) × Staged)) : List ((Nat × Nat × Nat) × Staged) :=
  (l.filter fun p => placeLe p.1 k) ++ es.map (fun e => (k, e)) ++ l.filter fun p => ! placeLe p.1 k

/-- The lowest slice that issues with a slice. -/
def headSlice (s : State) (i : SliceId) : Nat :=
  match s.cur with
  | none => i.j
  | some iss => if iss.u = i.u ∧ iss.g = i.g ∧ ! iss.h then iss.js.headD i.j else i.j

/-- The place of the trace of a slice among the traces of its unit that stage entries: its rank, its gang, and the lowest slice that issues
with it. po does not order traces of different gangs or of parted slices: they go by rank, then by gang and slice (R92, R94). DESIGN
CHOICE, log 93. -/
def placeOf (s : State) (i : SliceId) : Nat × Nat × Nat :=
  ((threadOf s ⟨i.u, i.g, headSlice s i, false⟩).rank, i.g, headSlice s i)

/-- Entries of a helper go to its recruiter's unit, at a place and in their order (R281). DEDUCED, log 66. -/
def moveStaged (u : Nat) (k : Nat × Nat × Nat) (p : (Nat × Nat × Nat × Nat) → Bool) (s : State) : State :=
  let mine := s.hstage.filter fun e => e.1.1 == u && p e.1
  modUnit u (fun x => { x with staged := insertStaged k (mine.map (·.2)) x.staged })
    { s with hstage := s.hstage.filter fun e => ! (e.1.1 == u && p e.1) }

/-- The committed writes of a unit are performed: DONE covers them (R319). -/
def drainUnit (u : Nat) (s : State) : State :=
  drainOverlap (unitOf s u).core ((s.wq.filter fun e => e.lane.u == u).flatMap fun e => e.cells.map (·.1)) s

/-- The unit has ended: its registers, scratchpad and engine state are discarded, its records and batons freed, its slots cleared and
its completion counted, once what it has committed is performed (R89, R246, R265, R314, R319, R412). -/
def finishUnit (u : Nat) (s : State) : State :=
  let un := unitOf s u
  if un.status = .done then s
  else
    let s1 := moveStaged u (((unitOf s u).staged.getLast?.map (·.1)).getD (0, 0, 0)) (fun _ => true)
      (drainUnit u (settleRecords u (dropBatons u s)))
    let s2 := { s1 with
      vreg := s1.vreg.filter (fun p => p.1.at_.u != u), vpoi := s1.vpoi.filter (fun p => p.at_.u != u),
      fib := s1.fib.filter (fun p => p.1.at_.u != u), mon := s1.mon.filter (fun p => p.1.u != u),
      slot := s1.slot.filter (fun p => p.1.at_.u != u), dirty := s1.dirty.filter (fun p => p.at_.u != u),
      echo := s1.echo.filter (fun p => p.1.at_.u != u), buf := s1.buf.filter (fun p => p.1.u != u),
      held := s1.held.filter (fun p => p.1.u != u), shad := s1.shad.filter (fun p => p.1.at_.u != u),
      fill := s1.fill.filter (fun p => p.1.at_.u != u), thr := s1.thr.filter (fun p => p.1.u != u),
      slices := s1.slices.filter (fun p => p.1.u != u), serve := s1.serve.filter (fun p => p.1.u != u),
      greg := s1.greg.filter (fun p => p.1.at_.u != u), gpoi := s1.gpoi.filter (fun p => p.at_.u != u),
      gangs := s1.gangs.filter (fun p => p.1.u != u), scr := s1.scr.erase u,
      scrpoi := s1.scrpoi.filter (fun p => p.1 != u), copies := s1.copies.filter (fun c => c.u != u),
      mats := s1.mats.filter (fun c => c.u != u),
      copyLog := s1.copyLog.filter (fun c => c.u != u), matLog := s1.matLog.filter (fun c => c.u != u), acc := s1.acc.filter (fun p => p.1.1 != u),
      accpoi := s1.accpoi.filter (fun p => p.1 != u), passes := s1.passes.filter (fun p => p.1.1 != u),
      oprecs := s1.oprecs.filter (fun p => p.2.u != u) }
    let s3 := modUnit u (fun x => { x with
      status := .done, block := 0, slots := [], binds := x.binds.map fun b => { b with valid := false } }) s2
    countUnit un.launch un.idx un.failed (writeRecords u s3)

/-- A thread that runs on when its unit ends: it is past its memory commit and does not wait (R412). -/
def runsOn (t : Thread) : Bool := t.committed && t.wait == .none && (match t.pos with
  | .body _ => true
  | _ => false)

/-- End a unit as a unit cancel does (R322, R412): traces before their memory commit are abandoned, those past it run on, engine commands
are dropped with their tokens never written, helpers are released. -/
def endUnit (u : Nat) (cls : Option FClass) (s : State) : State :=
  let un := unitOf s u
  if un.status = .done || un.status = .ending then s
  else
    let s1 := modUnit u (fun x => { x with status := .ending, cls := cls, failed := true }) (settleRecords u s)
    let s2 := { s1 with copies := s1.copies.filter (fun c => c.u != u), mats := s1.mats.filter (fun c => c.u != u),
                        copyLog := s1.copyLog.filter (fun c => c.u != u), matLog := s1.matLog.filter (fun c => c.u != u) }
    let s3 := { s2 with thr := s2.thr.map fun p => if p.1.u = u ∧ ! runsOn p.2 then (p.1, { p.2 with pos := .dead, mask := 0 }) else p }
    if (unitThreads s3 u).any fun p => p.2.pos != .dead then s3 else finishUnit u s3

/-- In a unit that is ending, a thread that would wait, or has reached its trace end, is ended there (R412). -/
def reapThread (t : ThreadId) (s : State) : State :=
  if (unitOf s t.u).status = .ending then
    let s1 := modThread t (fun th => { th with pos := .dead, mask := 0 }) s
    if (unitThreads s1 t.u).any fun p => p.2.pos != .dead then s1 else finishUnit t.u s1
  else s

/-! ### Taking a fault -/

/-- Hold a fault against a lane before SETTLE: the earliest in program order is kept (R39). -/
def holdFault (r : LaneRef) (f : Flt) (s : State) : State :=
  match s.held.find? r with
  | some _ => s
  | none => { s with held := s.held.set r f }

/-- A fault that ends a unit, or stops a helper: the end, after which the record is written, or the record of the helper (R40, R279, R340,
R412). In a unit that is ending already, no record is written and the thread is ended. DEDUCED, log 84. -/
def fatal (t : ThreadId) (f : Flt) (mask : BitVec 4) (s : State) : State :=
  if (unitOf s t.u).status = .ending then reapThread t (modThread t (fun th => { th with committed := false }) s)
  else
    if t.h then leaveHelper t mask .faulted (raiseFault t f mask false s).2
    else endUnit t.u (some f.cls) (modThread t (fun th => { th with committed := false }) (noteRecord t (recOf s t f mask false) s))

/-- A fault of the settled part, raised at once for the issue: the lowest of the faulting lanes decides, and the record's MASK names the
lanes of its slice (R39, R40); in a helper context each faulting lane becomes faulted, with a record of its own (R279). DEDUCED, log 58.
DEDUCED, log 84. -/
def settledFault (iss : Issue) (fs : List (LaneRef × Flt)) (s : State) : State :=
  if iss.h then fs.foldl (fun s p => fatal p.1.thread p.2 (bit (p.1.l % 4)) s) (modThreads iss (fun th => { th with wait := .none }) s)
  else match fs with
  | [] => s
  | (r, f) :: _ =>
    let same := fs.filter fun p => p.1.thread == r.thread && p.2.cls == f.cls && p.2.waddr == f.waddr
    fatal r.thread f (maskOf (same.map fun p => p.1.l % 4)) (modThreads iss (fun th => { th with wait := .none }) s)

/-- The page lies in a stack window or spill region that a resident gang's bind record names (R338, R413). -/
def firmwarePage (s : State) (ctx va : Nat) : Bool :=
  s.units.any fun p => p.2.ctx == ctx && (p.2.status == .resident || p.2.status == .saving || p.2.status == .saved) &&
    p.2.binds.any fun b =>
      (decide (b.spillBase ≤ va) && decide (va < b.spillBase + 0x80000))
        || (let n := b.stkSize * 4096
            decide (b.stkBase ≤ va) && decide (va < b.stkBase + 4 * (b.slices + 1) * (n + 4096))
              && decide (4096 ≤ (va - b.stkBase) % (n + 4096)))

/-! ### Ranges that a unit may reach -/

/-- The launch of a unit. -/
def launchOf (s : State) (u : Nat) : Option Launch := s.launches.find? (unitOf s u).launch

/-- The page lies in a lease of the unit's launch; ranges are rounded outward to whole pages (R27, R312). DEDUCED, log 61. -/
def leasedAt (s : State) (u va : Nat) : Bool :=
  match launchOf s u with
  | none => false
  | some l => l.leases.any fun p => decide (p.1 / 4096 * 4096 ≤ va) && decide (va / 4096 * 4096 < p.1 + p.2)

/-- The page lies in a demand range that the launch's kernel description declares (R339). -/
def demandAt (s : State) (u va : Nat) : Bool :=
  match launchOf s u with
  | none => false
  | some l => s.modules.any fun m => m.ctx == l.ctx && m.kernels.any fun k =>
      decide (m.code + 8 * k.entry = nodeField l.desc 0 52)
        && k.demands.any fun d => decide ((m.data + d.1) / 4096 * 4096 ≤ va) && decide (va / 4096 * 4096 < m.data + d.1 + d.2)

/-- An access outside the leases may reach the page once it is present (R27, R338, R339). DEDUCED, log 61. -/
def openAt (s : State) (u va : Nat) : Bool := firmwarePage s (unitOf s u).ctx va || demandAt s u va

/-- The page is leased, and was writable when the launch started (R337). -/
def narrowedAt (s : State) (u va : Nat) : Bool :=
  leasedAt s u va && (match launchOf s u with
    | none => false
    | some l => l.writable.contains (va / 4096 * 4096))

/-! ### Parking -/

/-- Park a thread on a page: the firmware has the fault of a stack or spill page, any other writes a pending record (R39, R338, R339). -/
def parkOn (t : ThreadId) (f : Flt) (mask : BitVec 4) (s : State) : State :=
  let ctx := (unitOf s t.u).ctx
  let (id, s1) := takeFresh s
  let s2 := modThread t (fun th => { th with parked := id :: th.parked }) s1
  if firmwarePage s2 ctx f.faddr then { s2 with parks := s2.parks ++ [⟨id, ctx, some t, 0, f.faddr, f.sub, 0, false, mask, f.waddr⟩] }
  else
    let (seq, s3) := raiseFault t f mask true s2
    { s3 with parks := s3.parks ++ [⟨id, ctx, some t, 0, f.faddr, f.sub, seq, false, mask, f.waddr⟩] }

/-- The record of a breakpoint at which a thread is stopped is discarded: it is pending no more (R151). -/
def dropStop (t : ThreadId) (s : State) : State :=
  match (threadOf s t).wait with
  | .stopped seq => { s with frecs := s.frecs.map fun r =>
      if r.u = t.u ∧ r.seq = seq then { r with pending := false, answer := none } else r }
  | _ => s

/-- Abandon the trace of threads: nothing of it takes effect and they stand at its head again, with the trace-head mask (R39, R58, R59).
DEDUCED, log 79. -/
def abandon (u g : Nat) (js : List Nat) (h : Bool) (s : State) : State :=
  let ids := if h then [] else openFor s u g js
  let s1 := discardCmds u g (fun i => ids.contains i) s
  js.foldl (fun s j =>
    let t : ThreadId := ⟨u, g, j, h⟩
    let s2 := (threadLanes t).foldl (fun s r => clearLane r s) (dropStop t s)
    let s3 := countCore (unitOf s2 u).core 0x05 (unitOf s2 u).ctx (gangOf s2 ⟨u, g⟩).evtag.toNat 1 s2
    modThread t (fun th => { th with pos := .head th.tr, mask := th.head, words := [], failed := [], settled := false,
                                     committed := false, wait := .none, binds := [] }) s3) s1

/-- The class ends the unit at settlement: every class but PAGE on a growable page (R39). -/
def FClass.isFatal : FClass → Bool
  | .page => false
  | _ => true

/-- Every command of the copy and link engines, those of saved units among them. -/
def allCopies (s : State) : List CopyCmd := s.copies ++ s.copyLog

/-- Every matrix command, those of saved units among them. -/
def allMats (s : State) : List MatCmd := s.mats ++ s.matLog

/-- Slices of the issue park at the trace head, each with a record for each of its unique faulting pages (R39, R342); each helper has a
record of its own (R279). -/
def parkIssue (iss : Issue) (fs : List (LaneRef × Flt)) (s : State) : State :=
  let s1 := abandon iss.u iss.g iss.js iss.h s
  let s2 := modThreads iss (fun th => { th with parkedWith := iss.js }) s1
  if iss.h then fs.foldl (fun s p => parkOn p.1.thread p.2 (bit (p.1.l % 4)) s) s2
  else iss.threads.foldl (fun s t =>
    let mine := fs.filter fun p => p.1.thread == t
    ((mine.map fun p => p.2.faddr).dedup).foldl (fun s pg =>
      match mine.find? fun p => p.2.faddr == pg with
      | none => s
      | some (_, f) =>
        parkOn t f (maskOf ((mine.filter fun p => p.2.faddr == pg).map fun p => p.1.l % 4)) s) s) s2

/-- Raise the held faults of the passing set at settlement (R39, R279). The Boolean says that the issue goes on. -/
def raiseHeld (iss : Issue) (s : State) : Bool × State :=
  let fs := (issueLanes s iss).filterMap fun r => (s.held.find? r).map fun f => (r, f)
  let fatals := fs.filter fun p => p.2.cls.isFatal
  if iss.h then
    let s1 := fatals.foldl (fun s p => fatal p.1.thread p.2 (bit (p.1.l % 4)) s) s
    let rest := fs.filter fun p => ! p.2.cls.isFatal
    if rest.isEmpty then (true, s1) else (false, parkIssue iss rest s1)
  else if fs.isEmpty then (true, s)
  else if fatals.isEmpty then (false, parkIssue iss fs s)
  else (false, settledFault iss fatals s)

/-- The slices of the issue have settled: commands held for them wait for them no longer, and the lanes that pass are noted (R35, R51). -/
def noteSettled (iss : Issue) (s : State) : State :=
  if iss.h then s
  else
    let pass := (issueLanes s iss).map (·.l)
    { s with copies := s.copies.map (fun c => if c.u = iss.u ∧ c.g = iss.g ∧ c.held ∧ iss.js.any (fun j => c.hold.contains j) then
                { c with hold := c.hold.filter (fun j => ! iss.js.contains j), pass := c.pass ++ pass } else c),
             mats := s.mats.map (fun c => if c.u = iss.u ∧ c.g = iss.g ∧ c.held ∧ iss.js.any (fun j => c.hold.contains j) then
                { c with hold := c.hold.filter (fun j => ! iss.js.contains j), pass := c.pass ++ pass } else c) }

/-- Settle the trace of an issue, once: raise held faults, fix the passing set, release held commands for resolution (R35, R39). -/
def settle (iss : Issue) (s : State) : Bool × State :=
  if isSettled s iss then (true, s)
  else
    let (ok, s1) := raiseHeld iss s
    if ok then (true, modThreads iss (fun th => { th with settled := true }) (noteSettled iss s1)) else (false, s1)

end Sys2Proof.Machine
end

