-- ==== Sys2Proof/Machine/Trace.lean ====
section
/-! DEFINITION. Traces: fetching and checking one at its head, its memory commit, its write-back, the fragment stack, and joining
(R11, R29 to R50, R129, R143, R146, R147). -/

namespace Sys2Proof.Machine

/-! ### Fetching -/

/-- A walk that has ended at a leaf. -/
def Walk.present : Walk → Bool
  | .leaf _ _ => true
  | _ => false

/-- A word as a core fetches it for a unit, or the fault of its page; a page that is present need lie under no lease (R27, R129, R131, R333,
R337). DEDUCED, log 61. -/
def fetchWord (u va : Nat) (s : State) : Except Flt DWord × State :=
  if 2 ^ 52 ≤ va then (.error ⟨.illop, 0, va, 0, va⟩, s)
  else
    let (r, s1) := lookup (unitOf s u).core (unitOf s u).ctx va s
    match trOf r va .fetch (leasedAt s1 u va) (r.present || openAt s1 u va) (narrowedAt s1 u va) with
    | .flt c sub aux => (.error ⟨c, sub, if c = .page then va / 4096 * 4096 else va, aux, va⟩, s1)
    | .ok pa _ => (.ok (BitVec.ofNat 64 (leNat (s1.mem.readN pa 8))), s1)

/-- The direct target of a word offset in a word at an address (R125). -/
def targetAddr (wa : Nat) (off : BitVec 32) : Nat := (((wa : Int) + 8 * off.toInt) % 2 ^ 64).toNat

/-- How far the check of a trace's shape has come (R129). -/
structure Scan where
  place : Nat := 0
  guards : Nat := 0
  stores : Nat := 0
  cmds : Nat := 0
  deriving DecidableEq, Repr

/-- A main register lies in an allocation of n (R19). -/
def inAlloc (n r : Nat) : Bool := decide (r + 9 ≤ n) || decide (248 ≤ r)

/-- Stage slots and main registers that a word names lie in the stage count and the allocation (R19, R30, R146). -/
def slotsOk (stages nreg : Nat) (i : Instr) : Bool :=
  (i.operands.all fun p => match p.1 with
    | .slot n => decide (n.toNat + p.2 ≤ stages)
    | _ => true)
  && (match i with
    | .stg d n k1 => decide (d.toNat + k1.toNat + 1 ≤ stages) && (List.range (k1.toNat + 1)).all fun x => inAlloc nreg (n.toNat + x)
    | .wbind d n k1 => decide (d.toNat + k1.toNat + 1 ≤ stages) && (List.range (k1.toNat + 1)).all fun x => inAlloc nreg (n.toNat + x)
    | .spill _ _ _ n k1 _ => (List.range (k1.toNat + 1)).all fun x => inAlloc nreg (n.toNat + x)
    | .fill _ _ _ n k1 _ => (List.range (k1.toNat + 1)).all fun x => inAlloc nreg (n.toNat + x)
    | .tendi _ a => decide (a.toNat + 2 ≤ stages)
    | .calli _ a => decide (a.toNat + 2 ≤ stages)
    | .recruit _ w k1 _ _ => decide (w.toNat + k1.toNat + 1 ≤ stages)
    | _ => true)

/-- Store instructions that a word counts for (R41). -/
def storesOf : Instr → Nat
  | .st _ _ _ _ _ _ => 1
  | .scatter _ _ _ _ _ _ _ => 1
  | .spill _ _ _ _ k1 _ => (4 * (k1.toNat + 1) + 15) / 16
  | _ => 0

/-- HRET and HEND, which stand in helper traces only (R136). -/
def helperOnly : Instr → Bool
  | .hret _ _ => true
  | .hend => true
  | _ => false

/-- One word of the shape check: none where the shape is broken, else the scan after it and whether the trace ends there
(R29, R32 to R34, R41, R136); `h` says that a helper runs it. The place is 0 in the staging, 1 in the body, 2 in the settled part. -/
def Scan.word (h : Bool) (gd : Nat) (i : Instr) (c : Scan) : Option (Scan × Bool) :=
  match i.place with
  | .head => none
  | .alone => none
  | .event => none
  | .staging => if c.place = 0 then some (c, false) else none
  | .commit => if c.place ≤ 1 then some ({ c with place := 2 }, false) else none
  | .settled => if c.place = 2 ∧ (h ∨ ! helperOnly i) then some (c, false) else none
  | .final => if c.guards = gd then some (c, true) else none
  | .either => some ({ c with place := max c.place 1 }, false)
  | .guarded =>
    if c.place ≤ 1 then
      if c.cmds < 8 then some ({ c with place := 1, cmds := c.cmds + 1 }, false) else none
    else some (c, false)
  | .body =>
    if c.place ≤ 1 then
      let c' := { c with place := 1, stores := c.stores + storesOf i }
      match i with
      | .guard _ g _ =>
        if g.toNat = c.guards ∧ g.toNat < gd then some ({ c' with guards := c.guards + 1 }, false) else none
      | _ => if c'.stores ≤ 16 then some (c', false) else none
    else none

/-- What the head of a trace finds (R129). -/
inductive Head where
  /-- The words from TRACE to the trace end. -/
  | ok (ws : List DWord)
  /-- A fault at the head; its address is the page for PAGE. -/
  | flt (f : Flt)
  deriving DecidableEq, Repr

/-- Fetch and check the words after the alternative-trace table, in ascending order; `fuel` words may follow (R41, R129). DEDUCED, log 21. -/
def scanWords (h : Bool) (u a gd stages nreg : Nat) : Nat → Scan → List DWord → State → Head × State
  | fuel, c, acc, s =>
    let wa := a + 8 * acc.length
    match fetchWord u wa s with
    | (.error f, s1) => (.flt f, s1)
    | (.ok w, s1) =>
      match fuel with
      | 0 => (.flt ⟨.illop, 0, 0, w.toNat, wa⟩, s1)
      | k + 1 =>
        match decodeWord w with
        | .error .illop => (.flt ⟨.illop, 0, 0, w.toNat, wa⟩, s1)
        | .error .illopnd => (.flt ⟨.illopnd, 0, 0, 0, wa⟩, s1)
        | .ok i =>
          match c.word h gd i with
          | none => (.flt ⟨.illop, 0, 0, w.toNat, wa⟩, s1)
          | some (c', fin) =>
            if ! slotsOk stages nreg i then (.flt ⟨.illopnd, 0, 0, 0, wa⟩, s1)
            else if fin then (.ok (acc ++ [w]), s1)
            else scanWords h u a gd stages nreg k c' (acc ++ [w]) s1

/-- Fetch the table words of a head (R126). A table word with a reserved bit set is ill-formed. DEDUCED, log 21. -/
def fetchTable (u a : Nat) : Nat → List DWord → State → Head × State
  | 0, acc, s => (.ok acc, s)
  | k + 1, acc, s =>
    let wa := a + 8 * acc.length
    match fetchWord u wa s with
    | (.error f, s1) => (.flt f, s1)
    | (.ok w, s1) =>
      if (w >>> 32) != 0 then (.flt ⟨.illop, 0, 0, w.toNat, wa⟩, s1) else fetchTable u a k (acc ++ [w]) s1

/-- Fetch and check a whole trace whose TRACE word stands at `a` (R129, R143). DEDUCED, log 21. -/
def fetchTrace (h : Bool) (u a stages gd nreg : Nat) (w0 : DWord) (s : State) : Head × State :=
  match fetchTable u a gd [w0] s with
  | (.flt f, s1) => (.flt f, s1)
  | (.ok ws, s1) => scanWords h u a gd stages nreg (255 - gd) {} ws s1

/-! ### The fragment stack -/

/-- The 16 bytes of a spilled entry (R48). -/
def Frag.bytes (f : Frag) : List Byte :=
  leBytes 16 (f.addr % 2 ^ 52 + f.mask.toNat * 2 ^ 52 + (if f.join then 2 ^ 56 else 0) + f.tok % 2 ^ 16 * 2 ^ 64)

/-- The entry of 16 spilled bytes (R48). -/
def fragOf (n : Nat) : Frag := ⟨bitsOf n 56 1 == 1, BitVec.ofNat 4 (bitsOf n 52 4), bitsOf n 0 52, bitsOf n 64 16⟩

/-- The address of a slice's spilled entry i (R48). -/
def spillAddr (s : State) (i : SliceId) (k : Nat) : Nat := (bindOf s i.u i.g).spillBase + i.j * 0x10000 + 16 * k

/-- Hardware entries of the fragment stack (R47). -/
def hwEntries : Nat := 8

/-- Spill a slice's oldest hardware entries until five are free: none where a page of the region is absent (R47). The result is a fault
of the slice, or the state. -/
def spillStack (t : ThreadId) : Nat → State → Option Flt × State
  | 0, s => (none, s)
  | k + 1, s =>
    let i : SliceId := ⟨t.u, t.g, t.j⟩
    let sl := sliceOf s i
    if sl.stack.length + 5 ≤ hwEntries then (none, s)
    else match sl.stack.getLast? with
      | none => (none, s)
      | some f =>
        if 4096 ≤ sl.spilled then (some ⟨.divspill, 0, 0, 0, wordAddr (threadOf s t)⟩, s)
        else
          let a := spillAddr s i sl.spilled
          let (r, s1) := lookup (unitOf s t.u).core (unitOf s t.u).ctx a s
          match trOf r a .write false true false with
          | .flt c sub aux =>
            (some ⟨c, if c = .page then 1 else sub, if c = .page then a / 4096 * 4096 else a, aux, wordAddr (threadOf s t)⟩, s1)
          | .ok pa _ =>
            let s2 := homeWrite (cellsOf ((List.range 16).map (pa + ·)) f.bytes) s1
            let s3 := countCore (unitOf s t.u).core 0x07 (unitOf s t.u).ctx (gangOf s ⟨t.u, t.g⟩).evtag.toNat 1 s2
            spillStack t k (modSlice i (fun x => { x with stack := x.stack.dropLast, spilled := x.spilled + 1 }) s3)

/-- Refill up to four entries from the spill region, the newest first (R47). -/
def refillStack (t : ThreadId) : Nat → State → Option Flt × State
  | 0, s => (none, s)
  | k + 1, s =>
    let i : SliceId := ⟨t.u, t.g, t.j⟩
    let sl := sliceOf s i
    if sl.spilled = 0 then (none, s)
    else
      let a := spillAddr s i (sl.spilled - 1)
      let (r, s1) := lookup (unitOf s t.u).core (unitOf s t.u).ctx a s
      match trOf r a .read false true false with
      | .flt c sub aux =>
        (some ⟨c, if c = .page then 2 else sub, if c = .page then a / 4096 * 4096 else a, aux, wordAddr (threadOf s t)⟩, s1)
      | .ok pa _ =>
        let f := fragOf (leNat (s1.mem.readN pa 16))
        refillStack t k (modSlice i (fun x => { x with stack := x.stack ++ [f], spilled := x.spilled - 1 }) s1)

/-- Push a fragment, or join its mask to a top fragment of the same address and token (R43). -/
def pushFrag (f : Frag) (st : List Frag) : List Frag :=
  if f.mask = 0 then st
  else match st with
    | [] => [f]
    | x :: r => if x.join = false ∧ x.addr = f.addr ∧ x.tok = f.tok then { x with mask := x.mask ||| f.mask } :: r else f :: x :: r

/-- The stack after a trace end: the join entry, the failed groups in descending guard index, then the passing groups that are queued
(R43). -/
def pushGroups (tok joinAddr : Nat) (joinMask : BitVec 4) (failed queued : List (BitVec 4 × Nat)) (st : List Frag) : List Frag :=
  let any := (failed ++ queued).any fun p => p.1 != 0
  let top := match st with
    | x :: _ => x.tok == tok
    | [] => false
  let st1 := if tok ≠ 0 ∧ any ∧ top = false then ⟨true, joinMask, joinAddr, tok⟩ :: st else st
  (failed ++ queued).foldl (fun st p => pushFrag ⟨false, p.1, p.2, tok⟩ st) st1

/-- Helpers that a slice lends from among these lanes (R277). -/
def lentLanes (s : State) (i : SliceId) (m : BitVec 4) : List (Nat × Nat) :=
  match s.serve.find? i with
  | none => []
  | some sv => sv.lanes.filter fun p => m.getLsbD (p.1 % 4)

/-- Pop the fragment stack of a slice (R44): its lent lanes that the new mask holds are released first (R277), and a refill may have to
come first (R47). A slice that finds its stack empty is no longer live. Each round pops an entry or refills an empty hardware stack. -/
def popSlice (t : ThreadId) (s : State) : State :=
  let i : SliceId := ⟨t.u, t.g, t.j⟩
  let ht : ThreadId := { t with h := true }
  let rec go : Nat → State → State
    | 0, s => s
    | k + 1, s =>
      let sl := sliceOf s i
      match sl.stack with
      | [] =>
        if sl.spilled = 0 then modThread t (fun th => { th with pos := .dead, mask := 0 }) s
        else match refillStack t 4 s with
          | (none, s1) => go k s1
          | (some f, s1) =>
            if (sliceOf s1 i).stack.isEmpty then
              let s2 := modThread t (fun th => { th with pos := .popping, parkedWith := [t.j] }) s1
              if f.cls.isFatal then fatal t f ((threadOf s t).mask) s2 else parkOn t f (threadOf s t).mask s2
            else go k s1
      | f :: rest =>
        let m := f.mask &&& ~~~sl.exited
        let lent := lentLanes s i m
        let s1 := if (threadOf s ht).committed then s else leaveHelper ht (maskOf (lent.map fun p => p.1 % 4)) .released s
        if ! (lentLanes s1 i m).isEmpty then modThread t (fun th => { th with pos := .popping }) s1
        else
          let s2 := modSlice i (fun x => { x with stack := rest }) s1
          if m = 0 then go k s2
          else modThread t (fun th => { th with
            pos := .head (if f.join then f.addr + 8 else f.addr), need := if f.join then 1 else 0, mask := m, head := m, wait := .none,
            since := s.clock }) s2
  go (2 * ((sliceOf s i).stack.length + (sliceOf s i).spilled) + 3) s

/-! ### Joining -/

/-- The live slices of a gang. DEDUCED, log 56. -/
def liveSlices (s : State) (g : GangId) : List Nat :=
  (List.range (gangOf s g).nslices).filter fun j => (threadOf s ⟨g.u, g.g, j, false⟩).pos != .dead

/-- The issue that a thread belongs to: every live slice of a joined gang together, else the thread alone (R11). -/
def issueOf (s : State) (t : ThreadId) : Issue :=
  if t.h then ⟨t.u, t.g, [t.j], true⟩
  else if (gangOf s ⟨t.u, t.g⟩).joined then ⟨t.u, t.g, liveSlices s ⟨t.u, t.g⟩, false⟩
  else ⟨t.u, t.g, [t.j], false⟩

/-- A gang parts when two live slices stand at different places (R11). DEDUCED, log 56. -/
def updateJoined (g : GangId) (s : State) : State :=
  let ps := (liveSlices s g).map fun j => (threadOf s ⟨g.u, g.g, j, false⟩).pos
  if (gangOf s g).joined && ! (ps.all fun p => p == ps.headD .dead) then modGang g (fun x => { x with joined := false }) s else s

/-- Every live slice of the gang waits at the REGANG at an address: the gang is joined and goes on to the next word (R50). -/
def tryRegang (g : GangId) (s : State) : State :=
  let js := liveSlices s g
  match js.map fun j => (threadOf s ⟨g.u, g.g, j, false⟩).pos with
  | .regang a :: rest =>
    if rest.all (· == .regang a) then
      let rank := (js.map fun j => (threadOf s ⟨g.u, g.g, j, false⟩).rank).foldl max 0
      js.foldl (fun s j => modThread ⟨g.u, g.g, j, false⟩ (fun th => { th with pos := .head (a + 8), need := 2, rank := rank, since := s.clock }) s)
        (modGang g (fun x => { x with joined := true }) s)
    else s
  | _ => s

/-! ### Barriers, as far as exits complete them (R153, R154) -/

/-- Gangs of a unit, and those with a live slice. -/
def gangsIn (s : State) (u : Nat) : List Nat := List.range (unitOf s u).binds.length

/-- The gang has a live slice. -/
def gangLive (s : State) (u g : Nat) : Bool := ! (liveSlices s ⟨u, g⟩).isEmpty

/-- The current instance of a barrier is complete (R154). -/
def barrierDone (s : State) (u : Nat) (b : Barrier) : Bool :=
  match b.expect with
  | none => false
  | some a =>
    if a = 0 then ((gangsIn s u).filter fun g => gangLive s u g).all fun g => b.arrived.contains g
    else decide (min (min a 32) (gangsIn s u).length ≤ b.arrived.length)

/-- The gangs that have executed an arrival in every live slice and have not arrived at the current instance, in the order in which
their arrivals were completed, each with the count that the last of its live slices to execute read (R153, R154). -/
def arriving (s : State) (u : Nat) (b : Barrier) : List (Nat × Nat) :=
  let all := fun g => (liveSlices s ⟨u, g⟩).all fun j => b.executed.any fun p => p.1 == (g, j)
  let order := (b.executed.map fun p => p.1.1).dedup
  (order.filter fun g => ! b.arrived.contains g && gangLive s u g && all g).map fun g =>
    (g, ((b.executed.filter fun p => p.1.1 == g && (liveSlices s ⟨u, g⟩).contains p.1.2).getLast?.map (·.2)).getD 0)

/-- Bring a barrier up to date: gangs arrive, a complete instance lets its waiters depart with the role, and the arrivals that were made
in advance count for the next instance (R153, R154). A waiting slice departs with its instance although its gang has not arrived. DEDUCED, log 81.
DESIGN CHOICE, log 91. -/
def updateBarrier (u n : Nat) : Nat → State → State
  | 0, s => s
  | k + 1, s =>
    let b := (unitOf s u).barriers.get n {}
    let new := arriving s u b
    let b1 := { b with
      expect := if b.arrived.isEmpty then b.expect.or (new.head?.map (·.2)) else b.expect,
      arrived := b.arrived ++ new.map (·.1), executed := b.executed.filter fun p => ! new.any fun q => q.1 == p.1.1 }
    let s1 := modUnit u (fun x => { x with barriers := x.barriers.set n b1 }) s
    if ! b1.arrived.isEmpty && barrierDone s1 u b1 then
      let role := b1.arrived.foldl max 0
      let s2 := modUnit u (fun x => { x with barriers := x.barriers.set n { inst := b1.inst + 1, executed := b1.executed } }) s1
      let rank := ((unitThreads s2 u).map fun p => if b1.arrived.contains p.1.g then p.2.rank else 0).foldl max 0
      updateBarrier u n k { s2 with thr := s2.thr.map fun p =>
        if p.1.u = u ∧ p.2.wait = .barrier n b1.inst then (p.1, { p.2 with wait := .departed role, rank := rank }) else p }
    else s1

/-- A slice executes an arrival with a count; the instance that its gang's arrival is for (R153). A further arrival in advance takes the
place of the slice's earlier one. DEDUCED, log 81. DESIGN CHOICE, log 91. -/
def noteArrival (u g n a : Nat) (js : List Nat) (s : State) : Nat × State :=
  let b := (unitOf s u).barriers.get n {}
  let keep := b.executed.filter fun p => ! (p.1.1 == g && js.contains p.1.2)
  (if b.arrived.contains g then b.inst + 1 else b.inst,
   modUnit u (fun x => { x with barriers := x.barriers.set n { b with executed := keep ++ js.map fun j => ((g, j), a) } }) s)

/-- An exit may complete a gang's arrival and an instance (R153, R154). -/
def exitBarriers (u : Nat) (s : State) : State :=
  ((unitOf s u).barriers.map (·.1)).dedup.foldl (fun s n => updateBarrier u n 34 s) s

/-! ### The memory commit -/

/-- The owner that a DET launch's table gives a line after unit u touches it (R91). -/
def ownerAfter (o : Option Owner) (u : Nat) : Owner :=
  match o with
  | none => .priv u
  | some (.priv v) => if u = v then .priv v else .shared
  | some .shared => .shared

/-- The unit's launch is deterministic (R91). -/
def isDet (s : State) (u : Nat) : Bool := (bindOf s u 0).det

/-- A unit touches lines of participating pages (R91). -/
def touchLines (u : Nat) (pas : List Nat) (s : State) : State :=
  match s.launches.find? (unitOf s u).launch with
  | none => s
  | some l =>
    let own := ((pas.map (· / 64)).dedup).foldl (fun m ln => m.set ln (ownerAfter (m.find? ln) u)) l.own
    { s with launches := s.launches.set (unitOf s u).launch { l with own := own } }

/-- A line is shared between units of a DET launch (R91). -/
def lineShared (s : State) (u pa : Nat) : Bool :=
  match s.launches.find? (unitOf s u).launch with
  | none => false
  | some l => l.own.find? (pa / 64) == some .shared

/-- Put entries into the Sluice for a unit, or with a helper until its recruiter's JOIN (R92, R281). DEDUCED, log 66. -/
def stageEntry (r : LaneRef) (e : Staged) (s : State) : State :=
  let s1 := countDie (dieOf (unitOf s r.u).core) 0x06 (unitOf s r.u).ctx 1 s
  if r.h then
    match s1.serve.find? ⟨r.u, r.g, r.l / 4⟩ with
    | none => s1
    | some sv =>
      let ix := ((sv.lanes.find? fun p => p.1 == r.l).map (·.2)).getD 0
      { s1 with hstage := s1.hstage ++ [((r.u, sv.g, sv.rid, ix), e)] }
  else modUnit r.u (fun x => { x with staged := insertStaged (placeOf s1 ⟨r.u, r.g, r.l / 4⟩) [e] x.staged }) s1

/-- Write bytes of the scratchpad of a unit: whole words lose their poison, monitors fire (R22, R86, R347). -/
def writeScratch (u off : Nat) (bytes : List Byte) (s : State) : State :=
  let offs := (List.range bytes.length).map (off + ·)
  fireScr u offs { s with scr := s.scr.set u ((s.scr.get u {}).writeN off bytes),
                          scrpoi := s.scrpoi.filter fun p => ! (p.1 == u && (List.range 4).all fun i => offs.contains (p.2 + i)) }

/-- Write bytes of a cluster's operand buffer; whole 8-byte granules lose their poison (R346, R347). -/
def writeOpbuf (cl off : Nat) (bytes : List Byte) (s : State) : State :=
  let offs := (List.range bytes.length).map (off + ·)
  { s with opbuf := s.opbuf.set cl ((s.opbuf.get cl {}).writeN off bytes),
           oppoi := s.oppoi.filter fun p => ! (p.1 == cl && (List.range 8).all fun i => offs.contains (p.2 + i)) }

/-- The commit of one lane: its buffered stores take effect at one event, in program order (R36, R68). Stores to single-homed spaces land
at once; those to memory wait to be performed, those on pages of unit or core scope in the L1 (R214), but for stores to shared lines of a DET launch, which the Sluice holds (R91). -/
def commitLane (r : LaneRef) (s : State) : State :=
  let bufs := s.buf.get r []
  let un := unitOf s r.u
  let s1 := { s with buf := s.buf.erase r }
  let s2 := bufs.foldl (fun s b => match b.sp with
    | .sc => writeScratch r.u b.addr b.bytes s
    | .ob => writeOpbuf (clusterOf un.core) b.addr b.bytes s
    | _ => s) s1
  let gl := bufs.filter fun b => b.sp.cached
  let det := isDet s r.u
  let s3 := if det then gl.foldl (fun s b => touchLines r.u b.det s) s2 else s2
  let goes := fun (b : Buf) (pa : Nat) => ! (det && b.det.contains pa && lineShared s3 r.u pa)
  let cells := gl.flatMap fun b => (cellsOf b.pas b.bytes).filter fun c => goes b c.1
  let staged := gl.flatMap fun b => (cellsOf b.pas b.bytes).filter fun c => ! goes b c.1
  let s4 := if staged.isEmpty then s3 else stageEntry r (.store staged) s3
  let loc := gl.flatMap (·.loc)
  enqueue ⟨un.core, r, un.ctx, widest (gl.map (·.scope)), cells.filter fun c => ! loc.contains c.1, [], false⟩
    (enqueue ⟨un.core, r, un.ctx, .core, cells.filter fun c => loc.contains c.1, loc, false⟩ s4)

/-- The memory commit of an issue's trace, once: lane by lane, ascending (R36). -/
def commit (iss : Issue) (s : State) : State :=
  if (headThread s iss).committed then s
  else modThreads iss (fun th => { th with committed := true }) ((issueLanes s iss).foldl (fun s r => commitLane r s) s)

/-! ### The trace end -/

/-- Write back the dirty bound slots, FILL's registers and the fibres of a lane (R37, R219, R236). -/
def writeBack (binds : List (Nat × Nat)) (r : LaneRef) (s : State) : State :=
  let s1 := binds.foldl (fun s b => if isDirty s r b.1 then setVreg r.lane b.2 (slot s r b.1) s else s) s
  let s2 := (s.fill.filter fun p => p.1.at_ == r).foldr (fun p s => setVreg r.lane p.1.n p.2 s) s1
  { s2 with fib := (s.shad.filter fun p => p.1.at_ == r).foldr (fun p m => m.set ⟨r.lane, p.1.n⟩ p.2) s2.fib }

/-- A slice's allocation becomes n: the registers that it gives up are lost, those that it gains read zero (R54, R55). -/
def setAlloc (i : SliceId) (n : Nat) (s : State) : State :=
  let old := (sliceOf s i).nreg
  let lo := min n old - 8
  let gone := fun (k : Ix LaneId) =>
    k.at_.u == i.u && k.at_.g == i.g && k.at_.l / 4 == i.j && decide (lo ≤ k.n) && decide (k.n < 248)
  let s1 := { s with vreg := s.vreg.filter (fun p => ! gone p.1), vpoi := s.vpoi.filter fun p => ! gone p }
  modSlice i (fun x => { x with nreg := n }) s1

/-- The SHRINKs of the trace take effect at its end, the least count last (R55, R164). -/
def applyShrink (t : ThreadId) (s : State) : State :=
  let i : SliceId := ⟨t.u, t.g, t.j⟩
  match (sliceOf s i).shrink with
  | none => s
  | some n => modSlice i (fun x => { x with shrink := none }) (if n < (sliceOf s i).nreg then setAlloc i n s else s)

/-- The groups of lanes with one next address, in ascending order of their lowest lane. -/
def groupsOf (l : List (Nat × Nat)) : List (BitVec 4 × Nat) :=
  sortBy (fun x y => decide ((lanesOf x.1).headD 0 ≤ (lanesOf y.1).headD 0))
    ((l.map (·.2)).dedup.map fun a => (maskOf ((l.filter fun p => p.2 == a).map (·.1)), a))

/-- The address of the MERGE of a token, in the module that holds an address (R42, R302). -/
def mergeAddr (s : State) (ctx a tok : Nat) : Nat :=
  match s.modules.find? fun m => m.ctx == ctx && decide (m.code ≤ a) && decide (a < m.code + 8 * m.nwords) with
  | none => 0
  | some m => match m.toks.find? fun p => p.1 == tok with
    | some p => m.code + 8 * p.2
    | none => 0

/-- The failed groups of a trace with the targets of their guards, in descending guard index (R43). -/
def failedGroups (th : Thread) : List (BitVec 4 × Nat) :=
  ((List.range th.alts.length).reverse.map fun g =>
    (th.failed.foldl (fun m p => if p.1 = g then m ||| p.2 else m) 0, th.alts.getD g 0)).filter fun p => p.1 != 0

/-- A slice whose stack's top entry lies in the spill region has it in hardware again before a trace end compares with it (R43, R47). Where
its page no longer translates nothing compares. DEDUCED, log 89. -/
def exposeTop (t : ThreadId) (s : State) : State :=
  if (sliceOf s ⟨t.u, t.g, t.j⟩).stack.isEmpty then (refillStack t 1 s).2 else s

/-- One slice leaves a trace: its failed and queued groups are pushed, and it goes on with its first passing group, or pops (R43, R44).
`next` gives each passing lane's next address; EXIT gives none. -/
def leaveTrace (t : ThreadId) (tok : Nat) (next : List (Nat × Nat)) (s0 : State) : State :=
  let i : SliceId := ⟨t.u, t.g, t.j⟩
  let th := threadOf s0 t
  let un := unitOf s0 t.u
  let gs := groupsOf next
  let queued := (gs.drop 1).reverse
  let failed := failedGroups th
  let joinMask := th.head
  let s := if (failed ++ queued).isEmpty then s0 else exposeTop t s0
  let rank := if un.staged.any fun p => p.1 == (th.rank, i.g, headSlice s0 i) then th.rank + 1 else th.rank
  let st := pushGroups tok (mergeAddr s un.ctx th.tr tok) joinMask failed queued (sliceOf s i).stack
  let pushes := st.length - (sliceOf s i).stack.length
  let s1 := modSlice i (fun x => { x with stack := st }) s
  let s2 := countCore un.core 0x06 un.ctx (gangOf s ⟨t.u, t.g⟩).evtag.toNat pushes s1
  let s3 := (threadLanes t).foldl (fun s r => clearLane r s) s2
  let s4 := modThread t (fun x => { x with rank := rank, words := [], failed := [], binds := [], alts := [],
                                           settled := false, committed := false, wait := .none }) s3
  match gs with
  | [] => popSlice t s4
  | (m, a) :: _ => modThread t (fun x => { x with pos := .head a, need := 0, mask := m, head := m, since := s.clock }) s4

/-- The ways in which a trace ends, but for EXIT (R146). -/
inductive EndKind where
  | direct (a : Nat)
  | indirect (sl : Nat)
  | ret
  deriving DecidableEq, Repr

/-- The next address of a lane (R146). -/
def nextAddr (k : EndKind) (s : State) (r : LaneRef) : Nat :=
  match k with
  | .direct a => a
  | .indirect n => (pairW (slot s r n) (slot s r (n + 1))).toNat
  | .ret => (pairW (vreg s r.lane 254) (vreg s r.lane 255)).toNat

/-- End a trace that is settled: commit, write back, link, SHRINK, and leave (R36, R37, R146). -/
def endTrace (iss : Issue) (tok : Nat) (k : EndKind) (link : Option Nat) (s : State) : State :=
  let s1 := commit iss s
  let s2 := iss.threads.foldl (fun s t =>
    let th := threadOf s t
    let rs := refsOf t th.mask
    let tgt := rs.map fun r => (r, nextAddr k s r)
    let sa := rs.foldl (fun s r => writeBack th.binds r s) s
    let sb := match link with
      | none => sa
      | some a => rs.foldl (fun s r => setVreg r.lane 255 (hiW (BitVec.ofNat 64 a)) (setVreg r.lane 254 (loW (BitVec.ofNat 64 a)) s)) sa
    let sc := applyShrink t sb
    let next := match k with
      | .ret => rs.map fun r => (r.l % 4, nextAddr .ret sc r)
      | _ => tgt.map fun p => (p.1.l % 4, p.2)
    let un := unitOf sc t.u
    let sd := if rs.isEmpty then sc else countCore un.core 0x03 un.ctx (gangOf sc ⟨t.u, t.g⟩).evtag.toNat 1 sc
    if un.status = .ending then modThread t (fun x => { x with pos := .dead, mask := 0 }) sd
    else leaveTrace t tok next sd) s1
  if (unitOf s2 iss.u).status = .ending then
    (if (unitThreads s2 iss.u).any fun p => p.2.pos != .dead then s2 else finishUnit iss.u s2)
  else s2

/-- A trace end as an instruction: settlement first, which may park the issue or end the unit (R35, R39, R46). -/
def traceEnd (iss : Issue) (tok : Nat) (k : EndKind) (link : Option Nat) (s : State) : State :=
  match settle iss s with
  | (true, s1) => endTrace iss tok k link s1
  | (false, s1) => s1

/-- Slices whose mask has become empty: commands held for them wait no longer; when no lane of the issue is left, the issue goes
straight to the trace end (R46, R51). An empty slice of a joined gang stays in the issue meanwhile. DESIGN CHOICE, log 90. -/
def skipEmpty (iss : Issue) (s : State) : State :=
  let empty := iss.js.filter fun j => (threadOf s ⟨iss.u, iss.g, j, iss.h⟩).mask == 0
  let s1 := if empty.isEmpty then s else noteSettled { iss with js := empty } s
  if empty.length = iss.js.length then
    modThreads iss (fun th => { th with pos := .body (th.words.length - 1) }) s1
  else s1

end Sys2Proof.Machine
end

