-- ==== Sys2Proof/Machine/Operands.lean ====
section
/-! DEFINITION. Operands: reading a source in the type in which an instruction reads it, writing a destination and the echo file, stalling
on pending tokens, and faulting on poisoned gang registers (R113 to R116, R118, R119, R165, R166, R233, R347). -/

namespace Sys2Proof.Machine

/-- The type in which a constant code reads (R114). -/
inductive KType where
  | int
  | f32
  | f64
  | f16
  | bf16
  | pk16
  | pkbf
  deriving DecidableEq, Repr

/-- The bit pattern of k.0 in a format of `f` fraction bits and a bias, for k from 0 to 15 (R114, R186). -/
def smallFloat (f bias k : Nat) : Nat :=
  if k = 0 then 0
  else
    let e := Nat.log2 k
    (e + bias) * 2 ^ f + (k - 2 ^ e) * 2 ^ (f - e)

/-- The value that a constant code reads as, in 64 bits (R114). -/
def kValue (t : KType) (k : Nat) : DWord :=
  BitVec.ofNat 64 (match t with
    | .int => k
    | .f32 => smallFloat 23 127 k
    | .f64 => smallFloat 52 1023 k
    | .f16 => smallFloat 10 15 k
    | .bf16 => smallFloat 7 127 k
    | .pk16 => smallFloat 10 15 k * 65537
    | .pkbf => smallFloat 7 127 k * 65537)

/-- A 32-bit source of a lane (R113, R165). -/
def src32 (s : State) (r : LaneRef) (t : KType) (o : Opnd) : Word :=
  match o with
  | .slot n => slot s r n.toNat
  | .echo n => echo s r n.toNat
  | .zero => 0
  | .const k => loW (kValue t k.toNat)
  | .gang n => greg s ⟨r.u, r.g⟩ n.toNat

/-- A 64-bit source of a lane (R116). -/
def src64 (s : State) (r : LaneRef) (t : KType) (o : Opnd) : DWord :=
  match o with
  | .slot n => pairW (slot s r n.toNat) (slot s r (n.toNat + 1))
  | .echo _ => pairW (echo s r 1) (echo s r 0)
  | .zero => 0
  | .const k => kValue t k.toNat
  | .gang n => pairW (greg s ⟨r.u, r.g⟩ n.toNat) (greg s ⟨r.u, r.g⟩ (n.toNat + 1))

/-- A source of one or two registers, in 64 bits. -/
def srcW (s : State) (r : LaneRef) (t : KType) (sz : Size) (o : Opnd) : DWord :=
  match sz with
  | .w64 => src64 s r t o
  | _ => (src32 s r t o).setWidth 64

/-- A 16-byte source of a lane, its words from the lowest (R116). -/
def src128 (s : State) (r : LaneRef) (o : Opnd) : List Word :=
  match o with
  | .slot n => (List.range 4).map fun i => slot s r (n.toNat + i)
  | .gang n => (List.range 4).map fun i => greg s ⟨r.u, r.g⟩ (n.toNat + i)
  | .const k => [BitVec.ofNat 32 k.toNat, 0, 0, 0]
  | _ => [0, 0, 0, 0]

/-- The words of a source of a size, from the lowest. -/
def srcWords (s : State) (r : LaneRef) (sz : Size) (o : Opnd) : List Word :=
  match sz with
  | .w32 => [src32 s r .int o]
  | .w64 => [loW (src64 s r .int o), hiW (src64 s r .int o)]
  | .w128 => src128 s r o

/-- Write consecutive slots of a lane. -/
def setSlots (r : LaneRef) (n : Nat) (ws : List Word) (s : State) : State :=
  match ws with
  | [] => s
  | w :: ws => setSlots r (n + 1) ws (setSlot r n w s)

/-- Write consecutive gang registers. -/
def setGregs (g : GangId) (n : Nat) (ws : List Word) (s : State) : State :=
  match ws with
  | [] => s
  | w :: ws => setGregs g (n + 1) ws (setGreg g n w s)

/-- Write a destination of a lane: slots, gang registers, or nothing (R113). -/
def writeDst (r : LaneRef) (o : Opnd) (ws : List Word) (s : State) : State :=
  match o with
  | .slot n => setSlots r n.toNat ws s
  | .gang n => setGregs ⟨r.u, r.g⟩ n.toNat ws s
  | _ => s

/-- Shift a lane's echo file once for each of several results, in order (R115). -/
def shiftEchoes (r : LaneRef) (ws : List Word) (s : State) : State :=
  match ws with
  | [] => s
  | w :: ws => shiftEchoes r ws (shiftEcho r w s)

/-- What an instruction delivers to a lane: the words of its destination and the results that enter the echo file, in order. -/
structure Res where
  d : List Word
  e : List Word
  deriving DecidableEq, Repr

/-- A 32-bit result. -/
def res32 (w : Word) : Res := ⟨[w], [w]⟩

/-- A 64-bit result: the echo file takes the low half first (R165). -/
def res64 (x : DWord) : Res := ⟨[loW x, hiW x], [loW x, hiW x]⟩

/-- A result of a size. -/
def resW (sz : Size) (x : DWord) : Res :=
  match sz with
  | .w64 => res64 x
  | _ => res32 (loW x)

/-- The lanes of the issuing slices that are not active: they receive 0 as each new echo (R115, R166). -/
def idleLanes (s : State) (iss : Issue) : List LaneRef :=
  iss.threads.flatMap fun t => if (threadOf s t).mask = 0 then [] else refsOf t (~~~(threadOf s t).mask)

/-- Deliver a result to each active lane, and zeros to the echo files of the others. -/
def deliver (iss : Issue) (d : Opnd) (rs : List (LaneRef × Res)) (n : Nat) (s : State) : State :=
  let idle := idleLanes s iss
  let s1 := rs.foldl (fun s p => shiftEchoes p.1 p.2.e (writeDst p.1 d p.2.d s)) s
  idle.foldl (fun s r => shiftEchoes r (List.replicate n 0) s) s1

/-- Deliver the one result of a uniform issue: a gang register takes it, and the echo file of every lane of each issuing slice (R115, R166). -/
def deliverUniform (iss : Issue) (d : Opnd) (x : Res) (s : State) : State :=
  let all := iss.threads.flatMap fun t => if (threadOf s t).mask = 0 then [] else threadLanes t
  let s1 := match d with
    | .gang n => setGregs iss.gang n.toNat x.d s
    | _ => s
  all.foldl (fun s r => shiftEchoes r x.e s) s1

/-- Deliver results to the destination that an instruction has, if it has one: lane by lane, or the first of them uniformly (R222, R224). -/
def deliverOpt (u : Bool) (iss : Issue) (d : Option Opnd) (rs : List (LaneRef × Res)) (n : Nat) (s : State) : State :=
  match d with
  | none => s
  | some o => if u then (match rs with
      | (_, x) :: _ => deliverUniform iss o x s
      | [] => s) else deliver iss o rs n s

/-- The gang registers that operands name. -/
def gangRegs (ops : List (Opnd × Nat)) : List Nat :=
  ops.flatMap fun p => match p.1 with
    | .gang n => (List.range p.2).map (n.toNat + ·)
    | _ => []

/-- The reference through which a uniform issue reads its operands: its gang's registers. -/
def uniRef (iss : Issue) : LaneRef := ⟨iss.u, iss.g, 0, iss.h⟩

/-- Run a meaning for the issue in hand, once its gang registers hold no pending token (R233); an issue without an active lane has no
effect but to go on (R46). A poisoned gang register that is read faults as a load would: held before SETTLE, at once after it (R347). -/
def withIssue (reads : List Nat) (writes : List Nat) (s : State) (f : Issue → State → State) :
    Host.Outcome State Fault Refusal :=
  match s.cur with
  | none => .next s
  | some iss =>
    if (issueLanes s iss).isEmpty then .next (advance iss s)
    else if (reads ++ writes).any fun n => tokenPending s iss.gang n then .next (reapThreads iss (stall iss .token s))
    else
      match reads.find? fun n => s.gpoi.contains ⟨iss.gang, n⟩ with
      | none => .next (f iss s)
      | some _ =>
        let flt : Flt := ⟨.poison, 2, 0, 0, wordAddr (headThread s iss)⟩
        if isSettled s iss then .next (settledFault iss ((issueLanes s iss).map fun r => (r, flt)) s)
        else .next (f iss ((issueLanes s iss).foldl (fun s r => holdFault r flt s) s))
where
  /-- In a unit that is ending, threads that would wait are ended (R412). -/
  reapThreads (iss : Issue) (s : State) : State :=
    if (unitOf s iss.u).status = .ending then iss.threads.foldl (fun s t => reapThread t s) s else s

/-- Stall an issue at its instruction; in a unit that is ending it is ended there (R58, R412). -/
def block (iss : Issue) (w : Wait) (s : State) : State :=
  let s1 := stall iss w s
  if (unitOf s1 iss.u).status = .ending then iss.threads.foldl (fun s t => reapThread t s) s1 else s1

/-- The gang registers that an instruction reads: its sources and those it names by number. -/
def readsOf (srcs : List (Opnd × Size)) (nums : List Nat := []) : List Nat :=
  gangRegs (srcs.map fun p => (p.1, p.2.regs)) ++ nums

/-- The shared meaning of every instruction that computes a result from sources, lane by lane or once for the issue (R166): `srcs` with the
types in which their constants read, and a function of their values. A uniform write of a gang register is a commit point (R36, R53). -/
def compute (u : Bool) (d : Opnd) (dsz : Size) (srcs : List (Opnd × Size × KType)) (f : List DWord → Res) (s : State) :
    Host.Outcome State Fault Refusal :=
  withIssue (readsOf (srcs.map fun p => (p.1, p.2.1))) (gangRegs [(d, dsz.regs)]) s fun iss s =>
    let vals := fun (r : LaneRef) => srcs.map fun p => srcW s r p.2.2 p.2.1 p.1
    if u then
      let s1 := if d.isGang && isSettled s iss then commit iss s else s
      advance iss (deliverUniform iss d (f (vals (uniRef iss))) s1)
    else
      let rs := (issueLanes s iss).map fun r => (r, f (vals r))
      advance iss (deliver iss d rs ((rs.head?.map fun p => p.2.e.length).getD 0) s)

/-- One source. -/
def compute1 (u : Bool) (d : Opnd) (dsz : Size) (a : Opnd × Size × KType) (f : DWord → Res) (s : State) :
    Host.Outcome State Fault Refusal := compute u d dsz [a] (fun l => f (l.getD 0 0)) s

/-- Two sources. -/
def compute2 (u : Bool) (d : Opnd) (dsz : Size) (a b : Opnd × Size × KType) (f : DWord → DWord → Res) (s : State) :
    Host.Outcome State Fault Refusal := compute u d dsz [a, b] (fun l => f (l.getD 0 0) (l.getD 1 0)) s

/-- Three sources. -/
def compute3 (u : Bool) (d : Opnd) (dsz : Size) (a b c : Opnd × Size × KType) (f : DWord → DWord → DWord → Res) (s : State) :
    Host.Outcome State Fault Refusal := compute u d dsz [a, b, c] (fun l => f (l.getD 0 0) (l.getD 1 0) (l.getD 2 0)) s

/-- A 32-bit integer source. -/
def i32 (o : Opnd) : Opnd × Size × KType := (o, .w32, .int)
/-- A 64-bit integer source. -/
def i64 (o : Opnd) : Opnd × Size × KType := (o, .w64, .int)
/-- A binary32 source. -/
def f32 (o : Opnd) : Opnd × Size × KType := (o, .w32, .f32)
/-- A binary64 source. -/
def f64 (o : Opnd) : Opnd × Size × KType := (o, .w64, .f64)

end Sys2Proof.Machine
end

