-- ==== Sys2Proof/Machine/Flags.lean ====
section
/-! DEFINITION. Conditions, carries and saturation. The device keeps no flags (R169, R191): a comparison writes a result, and a carry or
borrow is a second result that enters the echo file. -/

namespace Sys2Proof.Machine

/-- A truth value as a 32-bit result (R172). -/
def ofTruth (b : Bool) : Word := if b then 1 else 0

/-- The integer conditions, at a width (R172). -/
def intCond {w : Nat} (c : Cond) (a b : BitVec w) : Bool :=
  match c with
  | .eq => a == b
  | .ne => a != b
  | .lt => decide (a.toInt < b.toInt)
  | .le => decide (a.toInt ≤ b.toInt)
  | .gt => decide (b.toInt < a.toInt)
  | .ge => decide (b.toInt ≤ a.toInt)
  | .ltu => decide (a.toNat < b.toNat)
  | .leu => decide (a.toNat ≤ b.toNat)
  | .gtu => decide (b.toNat < a.toNat)
  | .geu => decide (b.toNat ≤ a.toNat)
  | .un => false
  | .ord => true

/-- An exact integer clamped to the signed range of 32 bits where saturation is asked for, else its low bits (R169, R170). -/
def sat32 (sat : Bool) (t : Int) : Word :=
  if sat then
    if t < -2147483648 then 0x80000000 else if 2147483647 < t then 0x7FFFFFFF else BitVec.ofInt 32 t
  else BitVec.ofInt 32 t

/-- An exact integer clamped to a range (R172, R205). -/
def clampInt (lo hi t : Int) : Int := if t < lo then lo else if hi < t then hi else t

/-- The carry of an addition with carry in (R169). -/
def carryOf (a b : Word) (c : Bool) : Word := ofTruth (decide (2 ^ 32 ≤ a.toNat + b.toNat + c.toNat))

/-- The borrow of a subtraction with borrow in (R169). -/
def borrowOf (a b : Word) (c : Bool) : Word := ofTruth (decide (a.toNat < b.toNat + c.toNat))

end Sys2Proof.Machine
end

