-- ==== Sys2Proof/Machine/Float.lean ====
section
/-! DEFINITION. The floating-point formats, reading a value (R186 to R188), rounding a result once (R189, R190), and the functions of
the floating-point instructions. A finite value is a sign, a natural number and a power of two, so every sum and product is exact. -/

namespace Sys2Proof.Machine

/-- A format: its width, its fraction width and its bias (R186). -/
structure Fmt where
  w : Nat
  f : Nat
  bias : Nat
  deriving DecidableEq, Repr

/-- binary64 (R186). -/
def binary64 : Fmt := ⟨64, 52, 1023⟩
/-- binary32 (R186). -/
def binary32 : Fmt := ⟨32, 23, 127⟩
/-- binary16 (R186). -/
def binary16 : Fmt := ⟨16, 10, 15⟩
/-- BF16 (R186). -/
def bfloat16 : Fmt := ⟨16, 7, 127⟩

/-- The format of a conversion type (R200). -/
def fmtOf : FType → Fmt
  | .f32 => binary32
  | .f64 => binary64
  | .f16 => binary16
  | .bf16 => bfloat16

/-- The format of a packed type (R139). -/
def pkFmt : PkType → Fmt
  | .bf16 => bfloat16
  | .fp16 => binary16

/-- The largest biased exponent: 2 bias + 1. -/
def Fmt.emax (t : Fmt) : Nat := 2 * t.bias + 1
/-- The bit pattern of +∞. -/
def Fmt.infBits (t : Fmt) : Nat := t.emax * 2 ^ t.f
/-- The canonical NaN (R186). -/
def Fmt.nanBits (t : Fmt) : Nat := t.infBits + 2 ^ (t.f - 1)
/-- The sign bit's weight. -/
def Fmt.signBit (t : Fmt) : Nat := 2 ^ (t.w - 1)

/-- A value: a NaN, an infinity, or (−1)^neg × m × 2^e, which is a zero where m is 0. -/
inductive Val where
  | nan
  | inf (neg : Bool)
  | num (neg : Bool) (m : Nat) (e : Int)
  deriving DecidableEq, Repr

/-- The value of a bit pattern, `in()` (R186, R188). -/
def Fmt.read (t : Fmt) (ftz : Bool) (x : Nat) : Val :=
  let x := x % 2 ^ t.w
  let neg := decide (t.signBit ≤ x)
  let ex := x / 2 ^ t.f % (t.emax + 1)
  let fr := x % 2 ^ t.f
  if ex = t.emax then if fr = 0 then .inf neg else .nan
  else if ex = 0 then if ftz then .num neg 0 0 else .num neg fr (1 - (t.bias : Int) - (t.f : Int))
  else .num neg (2 ^ t.f + fr) ((ex : Int) - (t.bias : Int) - (t.f : Int))

/-- A pattern with a sign. -/
def Fmt.signed (t : Fmt) (neg : Bool) (x : Nat) : Nat := if neg then x + t.signBit else x

/-- Whether a magnitude q + r / 2^n rounds away from zero to q + 1 (R139, R189). -/
def roundsUp (rm : Round) (neg : Bool) (q r n : Nat) : Bool :=
  match rm with
  | .rn => decide (2 ^ n < 2 * r) || (decide (2 * r = 2 ^ n) && q % 2 == 1)
  | .rna => decide (2 ^ n ≤ 2 * r)
  | .rz => false
  | .ru => ! neg && r != 0
  | .rd => neg && r != 0

/-- The magnitude m × 2^e rounded to a multiple of 2^x: the multiple. -/
def roundTo (rm : Round) (neg : Bool) (m : Nat) (e x : Int) : Nat :=
  if x ≤ e then m * 2 ^ (e - x).toNat
  else
    let n := (x - e).toNat
    let q := m / 2 ^ n
    let r := m % 2 ^ n
    if roundsUp rm neg q r n then q + 1 else q

/-- What a finite result too large for the format gives (R189). -/
def Fmt.overflow (t : Fmt) (rm : Round) (neg : Bool) : Nat :=
  let big := match rm with
    | .rn => true
    | .rna => true
    | .rz => false
    | .ru => ! neg
    | .rd => neg
  t.signed neg (if big then t.infBits else t.infBits - 1)

/-- `out()` of a nonzero finite value: rounded once, the subnormal range honoured, flushed under .FTZ (R189). -/
def Fmt.round (t : Fmt) (rm : Round) (ftz neg : Bool) (m : Nat) (e : Int) : Nat :=
  let lead : Int := (Nat.log2 m : Int) + e
  let least : Int := 1 - (t.bias : Int) - (t.f : Int)
  let x : Int := max (lead - (t.f : Int)) least
  let q := roundTo rm neg m e x
  if q < 2 ^ t.f then t.signed neg (if ftz then 0 else q)
  else
    let bits := (x - least).toNat * 2 ^ t.f + q
    if t.infBits ≤ bits then t.overflow rm neg else t.signed neg bits

/-- `out()` (R189, R190). -/
def Fmt.out (t : Fmt) (rm : Round) (ftz : Bool) (v : Val) : Nat :=
  match v with
  | .nan => t.nanBits
  | .inf neg => t.signed neg t.infBits
  | .num neg m e => if m = 0 then t.signed neg 0 else t.round rm ftz neg m e

/-- A finite value as an integer multiple of 2^e, for e not above its own exponent. -/
def scaled (neg : Bool) (m : Nat) (e e0 : Int) : Int :=
  let x : Int := (m * 2 ^ (e - e0).toNat : Nat)
  if neg then -x else x

/-- The exact sum; an exact zero of opposite signs takes the sign that the rounding gives (R190). -/
def Val.add (rm : Round) (a b : Val) : Val :=
  match a, b with
  | .nan, _ => .nan
  | _, .nan => .nan
  | .inf x, .inf y => if x = y then .inf x else .nan
  | .inf x, _ => .inf x
  | _, .inf y => .inf y
  | .num x m e, .num y n f =>
    let e0 := min e f
    let t := scaled x m e e0 + scaled y n f e0
    if t = 0 then .num (if x = y then x else rm == .rd) 0 0 else .num (decide (t < 0)) t.natAbs e0

/-- A value with its sign inverted. -/
def Val.neg : Val → Val
  | .nan => .nan
  | .inf x => .inf (! x)
  | .num x m e => .num (! x) m e

/-- The exact product (R190). -/
def Val.mul (a b : Val) : Val :=
  match a, b with
  | .nan, _ => .nan
  | _, .nan => .nan
  | .inf x, .inf y => .inf (x != y)
  | .inf x, .num y n _ => if n = 0 then .nan else .inf (x != y)
  | .num x m _, .inf y => if m = 0 then .nan else .inf (x != y)
  | .num x m e, .num y n f => .num (x != y) (m * n) (e + f)

/-- a < b, for values that are no NaN. -/
def Val.lt (a b : Val) : Bool :=
  match a, b with
  | .nan, _ => false
  | _, .nan => false
  | .inf x, .inf y => x && ! y
  | .inf x, _ => x
  | _, .inf y => ! y
  | .num x m e, .num y n f =>
    let e0 := min e f
    decide (scaled x m e e0 < scaled y n f e0)

/-- The value is a NaN. -/
def Val.isNan : Val → Bool
  | .nan => true
  | _ => false

/-- The value is a zero. -/
def Val.isZero : Val → Bool
  | .num _ m _ => m == 0
  | _ => false

/-- The sign. -/
def Val.sign : Val → Bool
  | .nan => false
  | .inf x => x
  | .num x _ _ => x

/-- minimumNumber (R195): −0 is below +0, and a number is taken before a NaN. -/
def Val.minNum (a b : Val) : Val :=
  if a.isNan then b else if b.isNan then a
  else if a.isZero && b.isZero then if a.sign then a else b
  else if b.lt a then b else a

/-- maximumNumber (R195). -/
def Val.maxNum (a b : Val) : Val :=
  if a.isNan then b else if b.isNan then a
  else if a.isZero && b.isZero then if a.sign then b else a
  else if a.lt b then b else a

/-- The floating-point conditions (R196). -/
def Val.cond (c : Cond) (a b : Val) : Bool :=
  let un := a.isNan || b.isNan
  let lt := a.lt b
  let gt := b.lt a
  match c with
  | .eq => ! un && ! lt && ! gt
  | .ne => un || lt || gt
  | .lt => ! un && lt
  | .le => ! un && ! gt
  | .gt => ! un && gt
  | .ge => ! un && ! lt
  | .un => un
  | .ord => ! un
  | _ => false

/-! ### Functions of two and three bit patterns -/

/-- Addition (R194). -/
def Fmt.addF (t : Fmt) (rm : Round) (ftz : Bool) (a b : Nat) : Nat := t.out rm ftz ((t.read ftz a).add rm (t.read ftz b))
/-- Subtraction: addition with the sign of b inverted (R194). -/
def Fmt.subF (t : Fmt) (rm : Round) (ftz : Bool) (a b : Nat) : Nat := t.out rm ftz ((t.read ftz a).add rm (t.read ftz b).neg)
/-- Multiplication (R194). -/
def Fmt.mulF (t : Fmt) (rm : Round) (ftz : Bool) (a b : Nat) : Nat := t.out rm ftz ((t.read ftz a).mul (t.read ftz b))
/-- Fused multiply-add (R194). -/
def Fmt.fmaF (t : Fmt) (rm : Round) (ftz : Bool) (a b c : Nat) : Nat :=
  t.out rm ftz (((t.read ftz a).mul (t.read ftz b)).add rm (t.read ftz c))
/-- Minimum (R195). -/
def Fmt.minF (t : Fmt) (ftz : Bool) (a b : Nat) : Nat := t.out .rn ftz ((t.read ftz a).minNum (t.read ftz b))
/-- Maximum (R195). -/
def Fmt.maxF (t : Fmt) (ftz : Bool) (a b : Nat) : Nat := t.out .rn ftz ((t.read ftz a).maxNum (t.read ftz b))
/-- Comparison (R196). -/
def Fmt.cmpF (t : Fmt) (c : Cond) (ftz : Bool) (a b : Nat) : Word := ofTruth ((t.read ftz a).cond c (t.read ftz b))

/-! ### Reciprocals and roots -/

/-- ⌊√n⌋ by its bits: `r` is the root so far, of bits above those left. -/
def rootFrom (n : Nat) : Nat → Nat → Nat
  | 0, r => r
  | k + 1, r => let r' := r + 2 ^ k; rootFrom n k (if r' * r' ≤ n then r' else r)

/-- ⌊√n⌋. -/
def root (n : Nat) : Nat := rootFrom n (Nat.log2 n / 2 + 1) 0

/-- A magnitude with a lowest bit that says whether it is more than `q`. -/
def jam (q : Nat) (more : Bool) : Nat := 2 * q + more.toNat

/-- 1 ÷ a (R197). -/
def Val.recip (a : Val) : Val :=
  match a with
  | .nan => .nan
  | .inf x => .num x 0 0
  | .num x m e =>
    if m = 0 then .inf x
    else
      let k := Nat.log2 m + 70
      .num x (jam (2 ^ k / m) (2 ^ k % m != 0)) (-(k : Int) - e - 1)

/-- √a (R197). -/
def Val.sqrt (a : Val) : Val :=
  match a with
  | .nan => .nan
  | .inf x => if x then .nan else .inf false
  | .num x m e =>
    if m = 0 then .num x 0 0
    else if x then .nan
    else
      let m' := if e % 2 = 0 then m else 2 * m
      let e' := if e % 2 = 0 then e else e - 1
      let n := m' * 2 ^ 140
      .num false (jam (root n) (root n * root n != n)) (e' / 2 - 71)

/-- 1 ÷ √a (R197). -/
def Val.rsqrt (a : Val) : Val :=
  match a with
  | .nan => .nan
  | .inf x => if x then .nan else .num false 0 0
  | .num x m e =>
    if m = 0 then .inf x
    else if x then .nan
    else
      let m' := if e % 2 = 0 then m else 2 * m
      let e' := if e % 2 = 0 then e else e - 1
      let k := Nat.log2 m' + 70
      let q := root (2 ^ (2 * k) / m')
      .num false (jam q (q * q * m' != 2 ^ (2 * k))) (-(k : Int) - e' / 2 - 1)

/-! ### FEXP2, FLOG2, FSIN, FCOS by bounds

A fixed-point number counts units of 2^−320. Each series is summed in integers with errors far below `slack` units, so the exact value lies
within `slack` of the sum. Where both ends round alike, that is the result (R197); where they do not, it is a free value. -/

/-- Fraction bits of the fixed-point numbers. -/
def fix : Nat := 320
/-- A bound of the errors of a sum. -/
def slack : Int := 2 ^ 40

/-- ln 2 = Σ 1 ÷ (k 2^k). -/
def ln2Sum : Nat → Nat
  | 0 => 0
  | k + 1 => 2 ^ fix / ((k + 1) * 2 ^ (k + 1)) + ln2Sum k

/-- ln 2. -/
def ln2 : Int := (ln2Sum 330 : Nat)

/-- arctan(1 ÷ d) by its series, from term `k`; `p` is 2^fix ÷ d^(2k+1). -/
def atanSum (d : Nat) : Nat → Nat → Nat → Int
  | 0, _, _ => 0
  | n + 1, k, p => (if k % 2 = 0 then ((p / (2 * k + 1) : Nat) : Int) else -((p / (2 * k + 1) : Nat) : Int)) + atanSum d n (k + 1) (p / (d * d))

/-- π = 16 arctan(1 ÷ 5) − 4 arctan(1 ÷ 239). -/
def piFix : Int := 16 * atanSum 5 80 0 (2 ^ fix / 5) - 4 * atanSum 239 30 0 (2 ^ fix / 239)

/-- Σ of x^k ÷ k! from a term on, for a fixed-point x of at least 0. -/
def expSum (x : Int) : Nat → Nat → Int → Int
  | 0, _, _ => 0
  | n + 1, k, t => t + expSum x n (k + 1) (t * x / 2 ^ fix / ((k : Int) + 1))

/-- The alternating sum of every second term of x^k ÷ k!, from a term on (sine and cosine). -/
def altSum (x2 : Int) : Nat → Nat → Int → Int
  | 0, _, _ => 0
  | n + 1, k, t => t - altSum x2 n (k + 2) (t * x2 / 2 ^ fix / (((k : Int) + 1) * ((k : Int) + 2)))

/-- ln of a number from 1 to 2, given as m ÷ 2^l: 2 artanh of z = (m − 2^l) ÷ (m + 2^l). -/
def lnSum (z2 : Int) : Nat → Nat → Int → Int
  | 0, _, _ => 0
  | n + 1, k, p => p / ((2 * k + 1 : Nat) : Int) + lnSum z2 n (k + 1) (p * z2 / 2 ^ fix)

/-- The result that an exact value within `slack` of `v` units of 2^−fix × 2^s rounds to, if both ends agree. -/
def pickF (ftz : Bool) (v : Int) (s : Int) : Option Nat :=
  let go := fun (x : Int) =>
    if x = 0 then none else some (binary32.round .rn ftz (decide (x < 0)) x.natAbs (s - fix))
  if go (v - slack) = go (v + slack) then go (v - slack) else none

/-- The opcodes of the functions whose values are bounded (R192). -/
def transCode (k : Nat) : BitVec 8 := BitVec.ofNat 8 (0x6A + k)

/-- The picked result, else the free value of the function at the argument. -/
def decided (code : BitVec 8) (a : Word) (r : Option Nat) : Nat := r.getD (Config.freeTrans code a).toNat

/-- 2^a (R197). DEDUCED, log 18. -/
def exp2F (ftz : Bool) (x : Word) : Nat :=
  match binary32.read ftz x.toNat with
  | .nan => binary32.nanBits
  | .inf neg => if neg then 0 else binary32.infBits
  | .num neg m e =>
    let v : Val := .num neg m e
    if m = 0 then 0x3F800000
    else if ! v.lt (.num false 128 0) then binary32.infBits
    else if ! (Val.num true 150 0).lt v then 0
    else
      let a := scaled neg m e (min e 0)
      let n := (-(min e 0)).toNat
      let whole := a / 2 ^ n
      let frac := a % 2 ^ n
      if frac = 0 then binary32.round .rn ftz false 1 whole
      else decided (transCode 0) x (pickF ftz (expSum (frac * ln2 / 2 ^ n) 120 0 (2 ^ fix)) whole)

/-- log2(a) (R197). DEDUCED, log 18. -/
def log2F (ftz : Bool) (x : Word) : Nat :=
  match binary32.read ftz x.toNat with
  | .nan => binary32.nanBits
  | .inf neg => if neg then binary32.nanBits else binary32.infBits
  | .num neg m e =>
    if m = 0 then binary32.signed true binary32.infBits
    else if neg then binary32.nanBits
    else
      let l := Nat.log2 m
      let whole : Int := (l : Int) + e
      if m = 2 ^ l then
        if whole = 0 then 0 else binary32.round .rn ftz (decide (whole < 0)) whole.natAbs 0
      else
        let z : Int := ((m - 2 ^ l) * 2 ^ fix / (m + 2 ^ l) : Nat)
        decided (transCode 1) x (pickF ftz (whole * 2 ^ fix + 2 * lnSum (z * z / 2 ^ fix) 110 0 z * 2 ^ fix / ln2) 0)

/-- sin(π r) and cos(π r) for r = p ÷ 2^n from 0 to 1/2, in fixed point. -/
def sinSum (p n : Nat) : Int := let y := (p : Int) * piFix / 2 ^ n; altSum (y * y / 2 ^ fix) 60 1 y
/-- cos(π r). -/
def cosSum (p n : Nat) : Int := let y := (p : Int) * piFix / 2 ^ n; altSum (y * y / 2 ^ fix) 60 0 (2 ^ fix)

/-- The quarter of the circle in which t = p ÷ 2^n half-turns lie, and the rest of t within it (a numerator over 2^n); n is at least 1. -/
def quarter (p n : Nat) : Nat × Nat := (p / 2 ^ (n - 1) % 4, p % 2 ^ (n - 1))

/-- sin(π a) (R197). DEDUCED, log 18. -/
def sinF (ftz : Bool) (x : Word) : Nat :=
  match binary32.read ftz x.toNat with
  | .nan => binary32.nanBits
  | .inf _ => binary32.nanBits
  | .num neg m e =>
    let n := (-(min e (-1))).toNat
    let p := m * 2 ^ (e + n).toNat
    if p % 2 ^ n = 0 then binary32.signed neg 0
    else
      let (q, r) := quarter p n
      let flip := neg != decide (2 ≤ q)
      if r = 0 then binary32.signed flip 0x3F800000
      else
        let y := if q % 2 = 0 then sinSum r n else cosSum r n
        decided (transCode 2) x (pickF ftz (if flip then -y else y) 0)

/-- cos(π a) (R197). -/
def cosF (ftz : Bool) (x : Word) : Nat :=
  match binary32.read ftz x.toNat with
  | .nan => binary32.nanBits
  | .inf _ => binary32.nanBits
  | .num _ m e =>
    let n := (-(min e (-1))).toNat
    let p := m * 2 ^ (e + n).toNat
    let (q, r) := quarter p n
    if r = 0 then if q % 2 = 1 then 0 else binary32.signed (decide (q = 2)) 0x3F800000
    else
      let flip := decide (q = 1) || decide (q = 2)
      let y := if q % 2 = 0 then cosSum r n else sinSum r n
      decided (transCode 3) x (pickF ftz (if flip then -y else y) 0)

/-! ### Rounding to an integer, classes, conversions -/

/-- Rounding to an integral value under RM (R198). -/
def Val.integral (rm : Round) (v : Val) : Val :=
  match v with
  | .num neg m e => if 0 ≤ e then .num neg m e else .num neg (roundTo rm neg m e 0) 0
  | v => v

/-- The class mask of a binary32 pattern (R199). -/
def classF (ftz : Bool) (x : Word) : Word :=
  let neg := x.getLsbD 31
  let ex := bitsOf x.toNat 23 8
  let fr := bitsOf x.toNat 0 23
  let k :=
    if ex = 255 then
      if fr = 0 then (if neg then 2 else 9) else if x.getLsbD 22 then 1 else 0
    else if ex = 0 then
      if fr = 0 || ftz then (if neg then 5 else 6) else if neg then 4 else 7
    else if neg then 3 else 8
  BitVec.ofNat 32 (2 ^ k)

/-- A finite value that is an integer. -/
def Val.toInt : Val → Int
  | .num neg m e => scaled neg m (max e 0) 0
  | _ => 0

/-- The least and the greatest value of an integer type (R203). -/
def intMin (w : IWidth) (uns : Bool) : Int := if uns then 0 else -(2 ^ (w.n - 1))
/-- The greatest value of an integer type (R203). -/
def intMax (w : IWidth) (uns : Bool) : Int := if uns then 2 ^ w.n - 1 else 2 ^ (w.n - 1) - 1

/-- An integer source of a type (R201). -/
def intSrc (w : IWidth) (uns : Bool) (x : DWord) : Int :=
  if uns then (x.toNat % 2 ^ w.n : Nat) else sextNat x.toNat w.n

/-- An integer value written in a type, as 64 bits whose low 32 are written where the type is narrower (R201). -/
def intDst (w : IWidth) (uns : Bool) (v : Int) : DWord :=
  BitVec.ofInt 64 (intSrc w uns (BitVec.ofInt 64 v))

/-- A floating-point value converted to an integer type (R203). -/
def toIntF (t : Fmt) (rm : Round) (ftz : Bool) (w : IWidth) (uns : Bool) (x : Nat) : DWord :=
  match (t.read ftz x).integral rm with
  | .nan => 0
  | .inf neg => intDst w uns (if neg then intMin w uns else intMax w uns)
  | .num neg m e => intDst w uns (clampInt (intMin w uns) (intMax w uns) (scaled neg m (max e 0) 0))

/-- An integer converted to a format (R202). -/
def fromInt (t : Fmt) (rm : Round) (v : Int) : Nat := t.out rm false (.num (decide (v < 0)) v.natAbs 0)

/-- A value converted between formats (R204). -/
def convF (a d : Fmt) (rm : Round) (ftz : Bool) (x : Nat) : Nat := d.out rm ftz (a.read ftz x)

/-- Both halves of a packed operation (R187, R194). -/
def packed2 (f : Nat → Nat → Nat) (a b : Word) : Word :=
  BitVec.ofNat 32 (f (a.toNat % 65536) (b.toNat % 65536) + 65536 * f (a.toNat / 65536) (b.toNat / 65536))

/-- Both halves of a packed operation of three sources. -/
def packed3 (f : Nat → Nat → Nat → Nat) (a b c : Word) : Word :=
  BitVec.ofNat 32 (f (a.toNat % 65536) (b.toNat % 65536) (c.toNat % 65536)
    + 65536 * f (a.toNat / 65536) (b.toNat / 65536) (c.toNat / 65536))

/-! ### The operations that reductions share -/

/-- A 32-bit operation of an OP that combines two words (R139, R182, R223); the exchange forms give the second word. -/
def alu32 (op : AluOp) (a b : Word) : Word :=
  match op with
  | .add => a + b
  | .fadd => BitVec.ofNat 32 (binary32.addF .rn false a.toNat b.toNat)
  | .min => if b.slt a then b else a
  | .max => if a.slt b then b else a
  | .minu => if b.ult a then b else a
  | .maxu => if a.ult b then b else a
  | .fmin => BitVec.ofNat 32 (binary32.minF false a.toNat b.toNat)
  | .fmax => BitVec.ofNat 32 (binary32.maxF false a.toNat b.toNat)
  | .and => a &&& b
  | .or => a ||| b
  | .xor => a ^^^ b
  | .xchg => b
  | .cas => b
  | .dadd => b

/-- A 64-bit operation of an OP (R139, R182, R223). -/
def alu64 (op : AluOp) (a b : DWord) : DWord :=
  match op with
  | .add => a + b
  | .fadd => b
  | .min => if b.slt a then b else a
  | .max => if a.slt b then b else a
  | .minu => if b.ult a then b else a
  | .maxu => if a.ult b then b else a
  | .fmin => b
  | .fmax => b
  | .and => a &&& b
  | .or => a ||| b
  | .xor => a ^^^ b
  | .xchg => b
  | .cas => b
  | .dadd => BitVec.ofNat 64 (binary64.addF .rn false a.toNat b.toNat)

/-- An operation of an OP at its width: .DADD in 64 bits, the others in 32 (R182). -/
def aluOp (op : AluOp) (a b : DWord) : DWord :=
  match op with
  | .dadd => alu64 .dadd a b
  | _ => (alu32 op (loW a) (loW b)).setWidth 64

/-- The identity of an OP (R183). -/
def aluId (op : AluOp) : DWord :=
  match op with
  | .and => 0xFFFFFFFF
  | .minu => 0xFFFFFFFF
  | .min => 0x7FFFFFFF
  | .max => 0x80000000
  | .fadd => 0x80000000
  | .dadd => 0x8000000000000000
  | .fmin => 0x7F800000
  | .fmax => 0xFF800000
  | _ => 0

/-- The type in which constants of a reduction's source read (R114). -/
def opType (op : AluOp) : KType :=
  match op with
  | .fadd => .f32
  | .fmin => .f32
  | .fmax => .f32
  | .dadd => .f64
  | _ => .int

end Sys2Proof.Machine
end

