-- ==== Sys2Proof/Machine/Access.lean ====
section
/-! DEFINITION. One element of a memory instruction: its address, its checks and translation, its read and its write (R27, R38, R39, R66,
R82, R91, R209 to R214, R337, R339, R347). -/

namespace Sys2Proof.Machine

/-! ### Guard pages and records -/

/-- The page is the guard page of a lane of a resident gang of the context (R210, R314). -/
def guardAt (s : State) (ctx va : Nat) : Bool :=
  s.units.any fun p => p.2.ctx == ctx && p.2.status != .done && p.2.binds.any fun b =>
    let n := b.stkSize * 4096
    n != 0 && decide (b.stkBase ≤ va) && decide (va < b.stkBase + 4 * (b.slices + 1) * (n + 4096))
      && decide ((va - b.stkBase) % (n + 4096) < 4096)

/-- The stack window of a lane: from `top - n` up to `top` (R210). -/
def stackTop (b : Bind) (l : Nat) : Nat := b.stkBase + (l + 1) * (b.stkSize * 4096 + 4096)

/-- The range of a reservation record (R245). -/
def recRange (words : List Nat) : Nat × Nat := (words.getD 1 0, words.getD 2 0)

/-- The element lies wholly in a range that a record of the unit holds (R209). -/
def reserved (s : State) (u a n : Nat) : Bool :=
  let cl := clusterOf (unitOf s u).core
  s.oprecs.any fun p => p.1.1 == cl && p.2.u == u &&
    decide ((recRange p.2.words).1 ≤ a) && decide (a + n ≤ (recRange p.2.words).1 + (recRange p.2.words).2)

/-! ### Addresses -/

/-- ea(L): base + sext(off, 24) + sext(idx, 32) × w; modulo 2^64 where the base is a pair, unbounded where it is 32-bit (R209). -/
def eaOf (s : State) (r : LaneRef) (sp : Space) (base : Opnd) (off : BitVec 24) (idx : Word) (w : Nat) : Int :=
  if sp.cached then ((src64 s r .int base).toNat + off.toInt + idx.toInt * w) % 2 ^ 64
  else (src32 s r .int base).toNat + off.toInt + idx.toInt * w

/-- The fault address of an element (R341). DEDUCED, log 84. -/
def faddrOf (ea : Int) : Nat := (ea % 2 ^ 64).toNat

/-! ### Translation of an element -/

/-- A translated element: the physical address of each byte, the widest scope of its pages, the addresses on pages that take part in
deterministic ownership and on pages of unit or core scope, and whether every page is device-exclusive (R332). -/
structure Hit where
  pas : List Nat := []
  scope : Scope := .unit
  det : List Nat := []
  loc : List Nat := []
  devx : Bool := true
  deriving DecidableEq, Repr

/-- One page's part of a range: its first virtual address, its bytes, their first physical address, and the page's leaf. -/
structure Piece where
  va : Nat
  n : Nat
  pa : Nat
  leaf : Leaf
  deriving DecidableEq, Repr

/-- A hit with the bytes of one more page. -/
def Hit.more (h : Hit) (p : Piece) : Hit :=
  let pas := (List.range p.n).map (p.pa + ·)
  { pas := h.pas ++ pas, scope := h.scope.max p.leaf.scope, det := if p.leaf.detp then h.det ++ pas else h.det,
    loc := if p.leaf.scope.isLocal then h.loc ++ pas else h.loc, devx := h.devx && p.leaf.devx }

/-- Translate the pages of a range of `n` bytes from `va` (R212, R333, R337): `fuel` pages at most are left. A growable page that is not
present is PAGE before SETTLE and LEASE subcode 6 after it (R39, R40, R339). DEDUCED, log 61. -/
def translate (u : Nat) (k : Acc) (settled : Bool) (wa ea : Nat) : Nat → Nat → Nat → List Piece → State → Except Flt (List Piece) × State
  | 0, _, _, ps, s => (.ok ps, s)
  | fuel + 1, va, n, ps, s =>
    if n = 0 then (.ok ps, s)
    else if 2 ^ 52 ≤ va then (.error ⟨.lease, 5, ea, 0, wa⟩, s)
    else if guardAt s (unitOf s u).ctx va then (.error ⟨.stack, 0, ea, 0, wa⟩, s)
    else
      let m := min n (4096 - va % 4096)
      let (r, s1) := lookup (unitOf s u).core (unitOf s u).ctx va s
      match trOf r va k (leasedAt s1 u va) (openAt s1 u va) (narrowedAt s1 u va) with
      | .flt .page _ aux =>
        if settled then (.error ⟨.lease, 6, ea, aux, wa⟩, s1) else (.error ⟨.page, 0, va / 4096 * 4096, aux, wa⟩, s1)
      | .flt c sub aux => (.error ⟨c, sub, ea, aux, wa⟩, s1)
      | .ok pa l => translate u k settled wa ea fuel (va + m) (n - m) (ps ++ [⟨va, m, pa, l⟩]) s1

/-- Where an element lies. -/
inductive At where
  | mem (va : Nat) (h : Hit)
  | scr (off : Nat)
  | ob (off : Nat)
  deriving DecidableEq, Repr

/-- Check one element of `n` bytes of a lane: its bounds or its window, and its translation (R209, R210, R212). -/
def checkElem (r : LaneRef) (sp : Space) (ea : Int) (n : Nat) (k : Acc) (settled : Bool) (wa : Nat) (s : State) : Except Flt At × State :=
  let mem := fun (s : State) =>
    match translate r.u k settled wa (faddrOf ea) (n / 4096 + 2) ea.toNat n [] s with
    | (.ok ps, s1) => (.ok (.mem ea.toNat (ps.foldl Hit.more {})), s1)
    | (.error f, s1) => (.error f, s1)
  match sp with
  | .gl => mem s
  | .sk =>
    let b := bindOf s r.u r.g
    if ((stackTop b r.l : Nat) : Int) - b.stkSize * 4096 ≤ ea ∧ ea + n ≤ (stackTop b r.l : Nat) then mem s
    else (.error ⟨.stack, 0, faddrOf ea, 0, wa⟩, s)
  | .sc =>
    if 0 ≤ ea ∧ ea + n ≤ ((bindOf s r.u 0).scrSize * 1024 : Nat) then (.ok (.scr ea.toNat), s)
    else (.error ⟨.lease, 3, faddrOf ea, 0, wa⟩, s)
  | .ob =>
    if 0 ≤ ea ∧ reserved s r.u ea.toNat n then (.ok (.ob ea.toNat), s) else (.error ⟨.lease, 3, faddrOf ea, 0, wa⟩, s)

/-! ### Poison -/

/-- The POISON fault of reading an element, if a granule of a byte that it reads is poisoned (R346, R347): subcode 0, the address of the
byte, and the physical address of its granule. -/
def poisonOf (s : State) (u : Nat) (own : Nat → Bool) (at_ : At) (n wa : Nat) : Option Flt :=
  let un := unitOf s u
  match at_ with
  | .mem va h => ((h.pas.mapIdx fun i p => (va + i, p)).find? fun p => ! own p.2 && poisonSeen s un.core p.2).map fun p =>
      ⟨.poison, 0, p.1, sectorOf p.2, wa⟩
  | .scr off => (((List.range n).map (off + ·)).find? fun a => ! own a && s.scrpoi.contains (u, a / 4 * 4)).map fun a =>
      ⟨.poison, 0, a, 0, wa⟩
  | .ob off => (((List.range n).map (off + ·)).find? fun a => ! own a && s.oppoi.contains (clusterOf un.core, a / 8 * 8)).map fun a =>
      ⟨.poison, 0, a, 0, wa⟩

/-! ### Reading -/

/-- Byte `p` of a lane's buffered stores of this trace to a space, the latest first (R38). -/
def bufByte (bufs : List Buf) (mem : Bool) (sp : Space) (p : Nat) : Option Byte :=
  bufs.foldl (fun b x =>
    if mem then
      if x.sp.cached then match x.pas.idxOf? p with
        | some i => some (x.bytes.getD i 0)
        | none => b
      else b
    else if x.sp = sp ∧ x.addr ≤ p ∧ p < x.addr + x.bytes.length then some (x.bytes.getD (p - x.addr) 0) else b) none

/-- The bytes that an instruction on a word of `w` bytes leaves (R221, R222). -/
def aluBytes (op : AluOp) (w : Nat) (old : List Byte) (v : Nat) : List Byte :=
  if w = 8 then leBytes 8 (alu64 op (BitVec.ofNat 64 (leNat old)) (BitVec.ofNat 64 v)).toNat
  else leBytes 4 (alu32 op (BitVec.ofNat 32 (leNat old)) (BitVec.ofNat 32 v)).toNat

/-- A view of memory with entries that the Sluice holds laid over it, in order (R79, R91). DEDUCED, log 87. -/
def stagedView (es : List Staged) (f : Nat → Byte) : Nat → Byte :=
  es.foldl (fun f e => match e with
    | .store cells => fun p => (cells.foldl (fun b c => if c.1 = p then c.2 else b) (f p))
    | .red pa w op v =>
      let new := aluBytes op w ((List.range w).map fun i => f (pa + i)) v
      fun p => if pa ≤ p ∧ p < pa + w then new.getD (p - pa) 0 else f p) f

/-- The entries of the Sluice that a lane's own reads see: those of its unit, and those of its own helper (R79, R92, R281). DEDUCED, log 87. -/
def ownStaged (s : State) (r : LaneRef) : List Staged :=
  (unitOf s r.u).staged.map (·.2) ++
    (if r.h then match s.serve.find? ⟨r.u, r.g, r.l / 4⟩ with
      | none => []
      | some sv =>
        let ix := ((sv.lanes.find? fun p => p.1 == r.l).map (·.2)).getD 0
        (s.hstage.filter fun e => e.1 == (r.u, sv.g, sv.rid, ix)).map (·.2)
    else [])

/-- Read the bytes of an element as a lane sees them: memory, or a single-homed space, under its own buffered stores (R38, R216). A load touches
its lines in the ownership table at once, also for a lane that fails later; engine commands touch none (R91). DEDUCED, log 87. DESIGN CHOICE,
log 96. -/
def readAt (r : LaneRef) (at_ : At) (n : Nat) (stream : Bool) (s : State) : List Byte × State :=
  let un := unitOf s r.u
  let bufs := s.buf.get r []
  match at_ with
  | .mem va h =>
    let s0 := if isDet s r.u then touchLines r.u h.det s else s
    let (bs, s1) := coreRead un.core un.ctx va h.pas h.scope stream s0
    let es := ownStaged s1 r
    let base := if es.isEmpty then bs else
      h.pas.mapIdx fun i p => stagedView es (fun q => match h.pas.idxOf? q with
        | some j => bs.getD j 0
        | none => s1.mem.read q) (if i < h.pas.length then p else 0)
    (h.pas.mapIdx fun i p => (bufByte bufs true .gl p).getD (base.getD i 0), s1)
  | .scr off =>
    let m := s.scr.get r.u {}
    (((List.range n).map (off + ·)).map fun a => (bufByte bufs false .sc a).getD (m.read a), s)
  | .ob off =>
    let m := s.opbuf.get (clusterOf un.core) {}
    (((List.range n).map (off + ·)).map fun a => (bufByte bufs false .ob a).getD (m.read a), s)

/-- The byte at an address of an element's space has been written by the lane in this trace. -/
def isOwn (s : State) (r : LaneRef) (at_ : At) : Nat → Bool :=
  let bufs := s.buf.get r []
  match at_ with
  | .mem _ _ => fun p => (bufByte bufs true .gl p).isSome
  | .scr _ => fun p => (bufByte bufs false .sc p).isSome
  | .ob _ => fun p => (bufByte bufs false .ob p).isSome

/-- Check and read one element before SETTLE: its bytes, or the fault to hold (R39, R216). -/
def loadElem (r : LaneRef) (sp : Space) (ea : Int) (n : Nat) (stream : Bool) (wa : Nat) (s : State) : Except Flt (List Byte) × State :=
  match checkElem r sp ea n .read false wa s with
  | (.error f, s1) => (.error f, s1)
  | (.ok a, s1) =>
    match poisonOf s1 r.u (isOwn s1 r a) a n wa with
    | some f => (.error f, s1)
    | none => let (bs, s2) := readAt r a n stream s1; (.ok bs, s2)

/-- Check one element and buffer its bytes: the lane's store, or the fault to hold (R38, R39, R216). -/
def storeElem (r : LaneRef) (sp : Space) (ea : Int) (bytes : List Byte) (wa : Nat) (s : State) : State :=
  match checkElem r sp ea bytes.length .write false wa s with
  | (.error f, s1) => holdFault r f s1
  | (.ok a, s1) =>
    let b : Buf := match a with
      | .mem va h => ⟨.gl, va, bytes, h.pas, h.scope, h.det, h.loc⟩
      | .scr off => ⟨.sc, off, bytes, [], .unit, [], []⟩
      | .ob off => ⟨.ob, off, bytes, [], .unit, [], []⟩
    { s1 with buf := s1.buf.set r (s1.buf.get r [] ++ [b]) }

/-! ### Writes of the settled part -/

/-- The core's L1 copies of a sector take the bytes that a lane of the core has read or written at home (R81, R214). -/
def patchL1 (core : Nat) (cells : List Host.Cell) (s : State) : State :=
  { s with l1 := s.l1.map fun x => if x.core = core then patchSector cells x else x }

/-- The latest bytes of an element at the place where a read-modify-write or an acquire read of it is performed (R223). An agent outside the
page's scope, which may read any write of co (R80), is given the newest performed one too. DESIGN CHOICE, log 97. -/
def readHome (r : LaneRef) (at_ : At) (n : Nat) (s : State) : List Byte × State :=
  let un := unitOf s r.u
  match at_ with
  | .mem va h =>
    if h.scope.isLocal then coreRead un.core un.ctx va h.pas h.scope false s
    else
      let s1 := drainOverlap un.core h.pas s
      let bs := homeRead s1 h.pas
      (bs, patchL1 un.core (cellsOf h.pas bs) s1)
  | .scr off => ((s.scr.get r.u {}).readN off n, s)
  | .ob off => ((s.opbuf.get (clusterOf un.core) {}).readN off n, s)

/-- Write the bytes of an element where a read-modify-write of it is performed, at once (R222, R223). -/
def writeHome (r : LaneRef) (at_ : At) (bytes : List Byte) (s : State) : State :=
  let un := unitOf s r.u
  match at_ with
  | .mem _ h =>
    if h.scope.isLocal then enqueue ⟨un.core, r, un.ctx, h.scope, cellsOf h.pas bytes, h.loc, false⟩ s
    else
      let s1 := drainOverlap un.core h.pas s
      patchL1 un.core (cellsOf h.pas bytes) (homeWrite (cellsOf h.pas bytes) s1)
  | .scr off => writeScratch r.u off bytes s
  | .ob off => writeOpbuf (clusterOf un.core) off bytes s

/-- The lanes that a settled memory instruction acts for: the active lanes, or one for the uniform form (R222, R224). -/
def actsFor (u : Bool) (s : State) (iss : Issue) : List LaneRef :=
  if u then (match issueLanes s iss with
    | [] => []
    | r :: _ => [r]) else issueLanes s iss

/-- The reference through which a lane's operands are read: the gang for a uniform form. -/
def opRef (u : Bool) (iss : Issue) (r : LaneRef) : LaneRef := if u then uniRef iss else r

/-- The faults of a settled instruction: those of a uniform form name every active lane (R40, R341). -/
def raiseAll (u : Bool) (iss : Issue) (fs : List (LaneRef × Flt)) (s : State) : State :=
  if u then match fs with
    | [] => s
    | (_, f) :: _ => settledFault iss ((issueLanes s iss).map fun r => (r, f)) s
  else settledFault iss fs s

/-- Check elements of a settled instruction one after the other: the places, and the faults (R40). -/
def checkAll (k : Acc) (n wa : Nat) (align : Nat) (sp : Space) (es : List (LaneRef × Int)) (s : State) :
    List (LaneRef × At) × List (LaneRef × Flt) × State :=
  es.foldl (fun (acc : List (LaneRef × At) × List (LaneRef × Flt) × State) p =>
    let (as, fs, s) := acc
    if p.2 % (align : Int) ≠ 0 then (as, fs ++ [(p.1, ⟨.align, 0, faddrOf p.2, 0, wa⟩)], s)
    else match checkElem p.1 sp p.2 n k true wa s with
      | (.error f, s1) => (as, fs ++ [(p.1, f)], s1)
      | (.ok a, s1) => (as ++ [(p.1, a)], fs, s1)) ([], [], s)

end Sys2Proof.Machine
end

