-- ==== Sys2Proof/Machine/Acquire.lean ====
section
/-! DEFINITION. Acquires, releases, fences, the binding table and MON (R70 to R77, R80, R86, R87, R157, R224 to R227). -/

namespace Sys2Proof.Machine

/-- The line of an element (R86). -/
def lineOf (u : Nat) (at_ : At) : Option MonLine :=
  match at_ with
  | .mem _ h => some (.mem (h.pas.headD 0 / 64 * 64))
  | .scr off => some (.scr u (off / 64 * 64))
  | .ob _ => none

/-- A lane has made an acquire read of a line: a later MON of the line is armed as of it (R86). A helper does not touch the monitor of the
lane that it borrows (R269). A uniform acquire is that of the lowest active lane alone. DESIGN CHOICE, log 95. -/
def noteAcquire (r : LaneRef) (at_ : At) (s : State) : State :=
  if r.h then s
  else match lineOf r.u at_ with
  | none => s
  | some ln => { s with mon := s.mon.modify r.lane {} fun m => { m with acq := (ln, false, false) :: m.acq.filter fun p => p.1 != ln } }

/-- The regions whose writes an object covers: those of the table that name it, and those that did when writes to them may have been bound
(R71). DEDUCED, log 94. -/
def regionsOf (c : Ctx) (obj : Nat) : List Region := (c.bindtab.map (·.2) ++ c.unbound).filter fun g => g.obj == obj

/-- A sector lies in a region of a context: it was fetched at an address of the region, or a page of the region maps it now (R72). -/
def sectorIn (s : State) (ctx : Nat) (x : Sector) (g : Region) : Bool :=
  (x.ctx == ctx && decide (g.base < x.va + 32) && decide (x.va < g.base + g.size))
    || (List.range ((g.base % 4096 + g.size + 4095) / 4096)).any fun i =>
      let va := (g.base / 4096 + i) * 4096
      match sysAddr s ctx va with
      | none => false
      | some pa => decide (pa ≤ x.pa) && decide (x.pa < pa + 4096)
          && decide (g.base < va + (x.pa - pa) + 32) && decide (va + (x.pa - pa) < g.base + g.size)

/-- An acquire of the object at an element discards the L1 lines of the regions bound to it, where both pages have scope cluster or wider
(R72, R80). -/
def acquireObject (r : LaneRef) (at_ : At) (s : State) : State :=
  match at_ with
  | .mem va h =>
    if h.scope.isLocal then s
    else
      let un := unitOf s r.u
      discardL1 un.core (fun x => ! x.scope.isLocal && (regionsOf (ctxOf s un.ctx) va).any fun g => sectorIn s un.ctx x g) s
  | _ => s

/-- An acquire of the context object discards every L1 line whose page has scope cluster or wider (R72). -/
def acquireContext (core : Nat) (s : State) : State := discardL1 core (fun x => ! x.scope.isLocal) s

/-- The releasing lanes have writes that are not yet performed at the scope of their pages (R72). -/
def mustDrain (s : State) (rs : List LaneRef) : Bool := rs.any fun r => undrained s r

/-- The lanes whose writes an instruction's release covers: every active lane, in the uniform form too. -/
def releasers (s : State) (iss : Issue) : List LaneRef := issueLanes s iss

/-- The kinds of the four instructions on an object. -/
inductive ObjOp where
  | acq
  | acqld (d : Opnd)
  | rel
  | relst (x : Opnd)
  deriving DecidableEq, Repr

/-- The instruction releases. -/
def ObjOp.releases : ObjOp → Bool
  | .rel => true
  | .relst _ => true
  | _ => false

/-- One lane's event on its object: the value read (R72, R224). -/
def objectOne (r q : LaneRef) (at_ : At) (op : ObjOp) (s : State) : List Byte × State :=
  let (old, s1) := readHome r at_ 8 s
  match op with
  | .acq => (old, acquireObject r at_ (noteAcquire r at_ s1))
  | .acqld _ => (old, acquireObject r at_ (noteAcquire r at_ s1))
  | .rel => (old, writeHome r at_ old s1)
  | .relst x => (old, writeHome r at_ (leBytes 8 (src64 s q .int x).toNat) s1)

/-- The destination that an instruction on an object has. -/
def ObjOp.dst : ObjOp → Option Opnd
  | .acqld d => some d
  | _ => none

/-- The data source that an instruction on an object has. -/
def ObjOp.src : ObjOp → Option Opnd
  | .relst x => some x
  | _ => none

/-- An instruction on an object reads it (R224). -/
def ObjOp.reads : ObjOp → Bool
  | .relst _ => false
  | _ => true

/-- The events of some lanes on their objects, in lane order: what each found (R87, R224). -/
def objectLoop (u : Bool) (iss : Issue) (op : ObjOp) (as : List (LaneRef × At)) (s : State) : List (LaneRef × Res) × State :=
  as.foldl (fun (acc : List (LaneRef × Res) × State) p =>
    let q := objectOne p.1 (opRef u iss p.1) p.2 op acc.2
    (acc.1 ++ [(p.1, res64 (BitVec.ofNat 64 (leNat q.1)))], q.2)) ([], s)

/-- The shared meaning of ACQ, ACQLD, REL and RELST (R40, R70, R72, R87, R224). -/
def objectAll (u : Bool) (sp : GS) (off : BitVec 24) (a : Opnd) (op : ObjOp) (s : State) : Host.Outcome State Fault Refusal :=
  withIssue (gangRegs ((a, if sp.space.cached then 2 else 1) :: op.src.toList.map fun x => (x, 2))) (gangRegs (op.dst.toList.map fun x => (x, 2)))
    s fun iss s =>
    let wa := wordAddr (headThread s iss)
    let s1 := commit iss s
    let rs := actsFor u s1 iss
    let (as, fs, s2) := checkAll (if op.releases then .write else .read) 8 wa 8 sp.space
      (rs.map fun r => (r, eaOf s1 (opRef u iss r) sp.space a off 0 8)) s1
    let poisoned := if op.reads then as.filterMap (fun p => (poisonOf s2 iss.u (fun _ => false) p.2 8 wa).map fun f => (p.1, f)) else []
    let faults := rs.filterMap fun r => (fs ++ poisoned).find? fun p => p.1 == r
    if ! faults.isEmpty then raiseAll u iss faults s2
    else if op.releases && mustDrain s2 (releasers s2 iss) then block iss .drain s2
    else
      let q := objectLoop u iss op as (if op.releases then releaseLanes (releasers s2 iss) s2 else s2)
      advance iss (deliverOpt u iss op.dst q.1 2 q.2)

/-- ACQ (R224). -/
def execAcq (u : Bool) (sp : GS) (_hint : Hint) (off : BitVec 24) (a : Opnd) (s : State) : Host.Outcome State Fault Refusal :=
  objectAll u sp off a .acq s

/-- ACQLD (R224). -/
def execAcqld (u : Bool) (sp : GS) (_hint : Hint) (off : BitVec 24) (d a : Opnd) (s : State) : Host.Outcome State Fault Refusal :=
  objectAll u sp off a (.acqld d) s

/-- REL (R224). -/
def execRel (u : Bool) (sp : GS) (_hint : Hint) (off : BitVec 24) (a : Opnd) (s : State) : Host.Outcome State Fault Refusal :=
  objectAll u sp off a .rel s

/-- RELST (R224). -/
def execRelst (u : Bool) (sp : GS) (_hint : Hint) (off : BitVec 24) (x a : Opnd) (s : State) : Host.Outcome State Fault Refusal :=
  objectAll u sp off a (.relst x) s

/-- FENCE: a release and then an acquire of the context object (R72, R225). -/
def execFence (s : State) : Host.Outcome State Fault Refusal :=
  withIssue [] [] s fun iss s =>
    let s1 := commit iss s
    if mustDrain s1 (issueLanes s1 iss) then block iss .drain s1
    else advance iss (acquireContext (unitOf s1 iss.u).core (releaseLanes (issueLanes s1 iss) s1))

/-- The commands of a gang on a path that have not completed (R75, R76). -/
def pathCmds (s : State) (iss : Issue) (p : APath) : List Nat :=
  match p with
  | .ls => []
  | .cp => ((allCopies s).filter fun c => c.u == iss.u && c.g == iss.g && ! c.link).map (·.id)
  | .lk => ((allCopies s).filter fun c => c.u == iss.u && c.g == iss.g && c.link).map (·.id)
  | .mx => ((allMats s).filter fun c => c.u == iss.u && c.g == iss.g).map (·.id)

/-- The matrix engine sees the scratchpad for a gang as it stands (R76). -/
def seePad (g : GangId) (s : State) : State := modGang g (fun x => { x with mxOld := [] }) s

/-- XFENCE waits for what was issued on path p before it; when q is LS it discards the L1's clean lines, and when q is MX the engine sees the
scratchpad for the gang as it stands (R76, R226). -/
def execXfence (p q : APath) (s : State) : Host.Outcome State Fault Refusal :=
  withIssue [] [] s fun iss s =>
    let s1 := commit iss s
    let ids := match waitOf s iss with
      | .fence ids => ids
      | _ => pathCmds s1 iss p
    let open_ := (pathCmds s1 iss p).any fun i => ids.contains i
    if open_ || (p == .ls && mustDrain s1 (issueLanes s1 iss)) then block iss (.fence ids) s1
    else advance iss (match q with
      | .ls => discardL1 (unitOf s1 iss.u).core (fun _ => true) s1
      | .mx => seePad iss.gang s1
      | _ => s1)

/-! ### The binding table -/

/-- The lowest free entry of a binding table (R227). -/
def freeEntry (t : Map Nat Region) : Option Nat := (List.range 1024).find? fun i => (t.find? i).isNone

/-- BIND (R71, R227). DEDUCED, log 49. -/
def execBind (d a b c : Opnd) (s : State) : Host.Outcome State Fault Refusal :=
  withIssue (gangRegs [(a, 2), (b, 1), (c, 2)]) [] s fun iss s =>
    let s1 := commit iss s
    let rs := issueLanes s1 iss
    match rs with
    | [] => advance iss s1
    | r :: _ =>
      let base := (src64 s1 r .int a).toNat
      let size := (src32 s1 r .int b).toNat
      let obj := (src64 s1 r .int c).toNat
      let bad := if base % 64 ≠ 0 then some base else if size % 64 ≠ 0 ∨ size = 0 then some size
        else if obj % 8 ≠ 0 then some obj else none
      match bad with
      | some f => settledFault iss [(r, ⟨.align, 0, f, 0, wordAddr (headThread s1 iss)⟩)] s1
      | none =>
        if mustDrain s1 [r] then block iss .drain s1
        else
          let ctx := (unitOf s1 iss.u).ctx
          match freeEntry (ctxOf s1 ctx).bindtab with
          | none => advance iss (deliver iss d (rs.map fun x => (x, res32 0xFFFFFFFF)) 1 s1)
          | some i =>
            let s2 := modCtx ctx (fun x => { x with bindtab := x.bindtab.set i ⟨base, size, obj⟩ }) (releaseLanes [r] s1)
            advance iss (deliver iss d (rs.map fun x => (x, res32 (BitVec.ofNat 32 i))) 1 s2)

/-- Take an entry out of a context's binding table; writes to its region keep the object that it named (R71). -/
def unbind (ctx i : Nat) (s : State) : State :=
  modCtx ctx (fun x => { x with bindtab := x.bindtab.erase i, unbound := (x.bindtab.find? i).toList ++ x.unbound }) s

/-- UNBIND (R71, R227). -/
def execUnbind (d a : Opnd) (s : State) : Host.Outcome State Fault Refusal :=
  withIssue (gangRegs [(a, 1)]) [] s fun iss s =>
    let s1 := commit iss s
    let rs := issueLanes s1 iss
    match rs with
    | [] => advance iss s1
    | r :: _ =>
      let i := (src32 s1 r .int a).toNat
      let ctx := (unitOf s1 iss.u).ctx
      if mustDrain s1 [r] then block iss .drain s1
      else
        let used := decide (i < 1024) && ((ctxOf s1 ctx).bindtab.find? i).isSome
        let s2 := if used then unbind ctx i (releaseLanes [r] s1) else s1
        advance iss (deliver iss d (rs.map fun x => (x, res32 (ofTruth used))) 1 s2)

/-! ### MON -/

/-- A monitor is armed on a line: as of the lane's acquire read of it since its last MON, if there was one (R86, R157). A line that has been
both written and evicted since fires with the cause of the write. DESIGN CHOICE, log 95. -/
def Mon.arm (m : Mon) (line : MonLine) : Mon :=
  { armed := some line, acq := [],
    fired := match m.acq.find? fun p => p.1 == line with
      | none => none
      | some p => if p.2.1 then some causeWrite else if p.2.2 then some causeEvict else none }

/-- MON (R157). -/
def execMon (sp : GS) (off : BitVec 24) (a : Opnd) (s : State) : Host.Outcome State Fault Refusal :=
  withIssue (gangRegs [(a, if sp.space.cached then 2 else 1)]) [] s fun iss s =>
    let wa := wordAddr (headThread s iss)
    let s1 := commit iss s
    let rs := issueLanes s1 iss
    let (as, fs, s2) := checkAll .read 1 wa 1 sp.space (rs.map fun r => (r, eaOf s1 r sp.space a off 0 1)) s1
    if ! fs.isEmpty then settledFault iss fs s2
    else advance iss (as.foldl (fun s p => match lineOf iss.u p.2 with
      | none => s
      | some ln => { s with mon := s.mon.modify p.1.lane {} fun m => m.arm ln }) s2)

end Sys2Proof.Machine
end

