-- ==== Sys2Proof/Machine/Memory.lean ====
section
/-! DEFINITION. Loads, stores, gathers, scatters, prefetch, spill and fill (R215 to R219). -/

namespace Sys2Proof.Machine

/-- The words that a load of `w` bytes delivers (R216). -/
def loadWords (w : Nat) (bytes : List Byte) : List Word :=
  if w ≤ 4 then [BitVec.ofNat 32 (leNat bytes)]
  else (List.range (w / 4)).map fun i => BitVec.ofNat 32 (leNat ((bytes.drop (4 * i)).take 4))

/-- The bytes that a store of `w` bytes takes from its data words (R216). -/
def storeBytes (w : Nat) (ws : List Word) : List Byte := (ws.flatMap fun x => leBytes 4 x.toNat).take w

/-- The index of a lane (R209). -/
def idxOf (s : State) (r : LaneRef) (i : Option Opnd) : Word :=
  match i with
  | none => 0
  | some o => src32 s r .int o

/-- The gang registers that a base and an index read. -/
def addrReads (sp : Space) (a : Opnd) (i : Option Opnd) : List Nat :=
  gangRegs [(a, if sp.cached then 2 else 1)] ++ (match i with
    | none => []
    | some o => gangRegs [(o, 1)])

/-- LD and GATHER, lane by lane: a faulting element reads as zero and its fault is held (R39, R216). -/
def loadAll (sp : Space) (w : Width) (hint : Hint) (off : BitVec 24) (d a : Opnd) (i : Option Opnd) (s : State) :
    Host.Outcome State Fault Refusal :=
  withIssue (addrReads sp a i) [] s fun iss s =>
    let wa := wordAddr (headThread s iss)
    let rs := issueLanes s iss
    let step := fun (acc : List (LaneRef × Res) × State) (r : LaneRef) =>
      let ea := eaOf acc.2 r sp a off (idxOf acc.2 r i) w.bytes
      match loadElem r sp ea w.bytes (hint == .sm) wa acc.2 with
      | (.ok bs, s1) => (acc.1 ++ [(r, ⟨loadWords w.bytes bs, loadWords w.bytes bs⟩)], s1)
      | (.error f, s1) =>
        let z := loadWords w.bytes (List.replicate w.bytes 0)
        (acc.1 ++ [(r, ⟨z, z⟩)], holdFault r f s1)
    let (res, s1) := rs.foldl step ([], s)
    advance iss (deliver iss d res w.size.regs s1)

/-- ST and SCATTER, lane by lane (R216). -/
def storeAll (sp : Space) (w : Width) (off : BitVec 24) (x a : Opnd) (i : Option Opnd) (s : State) :
    Host.Outcome State Fault Refusal :=
  withIssue (addrReads sp a i ++ gangRegs [(x, w.size.regs)]) [] s fun iss s =>
    let wa := wordAddr (headThread s iss)
    advance iss ((issueLanes s iss).foldl (fun s r =>
      storeElem r sp (eaOf s r sp a off (idxOf s r i) w.bytes) (storeBytes w.bytes (srcWords s r w.size x)) wa s) s)

/-- LD (R216). -/
def execLd (sp : Space) (w : Width) (hint : Hint) (off : BitVec 24) (d a : Opnd) (s : State) : Host.Outcome State Fault Refusal :=
  loadAll sp w hint off d a none s

/-- ST (R216). -/
def execSt (sp : Space) (w : Width) (_hint : Hint) (off : BitVec 24) (x a : Opnd) (s : State) : Host.Outcome State Fault Refusal :=
  storeAll sp w off x a none s

/-- GATHER (R216). -/
def execGather (sp : Space) (w : Width) (hint : Hint) (off : BitVec 24) (d a i : Opnd) (s : State) :
    Host.Outcome State Fault Refusal := loadAll sp w hint off d a (some i) s

/-- SCATTER (R216). -/
def execScatter (sp : Space) (w : Width) (_hint : Hint) (off : BitVec 24) (x a i : Opnd) (s : State) :
    Host.Outcome State Fault Refusal := storeAll sp w off x a (some i) s

/-- The parts of `n` bytes, no more than a page, on each page that they touch: the first address of each and its bytes (R212). -/
def pageParts (va n : Nat) : List (Nat × Nat) :=
  let m := min n (4096 - va % 4096)
  [(va, m), (va + m, n - m)].filter fun p => p.2 != 0

/-- The sectors of a part of an element on one page enter a core's L1; a page that lies outside a lease or does not translate is skipped
(R217). -/
def prefetchPart (u : Nat) (hint : Hint) (s : State) (p : Nat × Nat) : State :=
  if leasedAt s u p.1 then
    match translate u .read false 0 p.1 1 p.1 p.2 [] s with
    | (.ok ps, s1) =>
      let h := ps.foldl Hit.more {}
      if hint = .sm then s1
      else (sectorsOf p.1 h.pas).foldl (fun s q => touchSector (unitOf s u).core (unitOf s u).ctx q.1 q.2 h.scope s) s1
    | (.error _, s1) => s1
  else s

/-- PREF: the sectors of each element enter the L1, or only the L2 under the stream hint (R217). -/
def execPref (w : Width) (hint : Hint) (off : BitVec 24) (a i : Opnd) (s : State) : Host.Outcome State Fault Refusal :=
  withIssue (addrReads .gl a (some i)) [] s fun iss s =>
    advance iss ((issueLanes s iss).foldl (fun s r =>
      (pageParts (eaOf s r .gl a off (idxOf s r (some i)) w.bytes).toNat w.bytes).foldl (prefetchPart iss.u hint) s) s)

/-- SPILL: main registers as they stood at the trace head are buffered (R211, R219, R347). -/
def execSpill (sp : Space) (_hint : Hint) (off : BitVec 24) (n : BitVec 8) (k1 : BitVec 5) (a : Opnd) (s : State) :
    Host.Outcome State Fault Refusal :=
  withIssue (addrReads sp a none) [] s fun iss s =>
    let wa := wordAddr (headThread s iss)
    let regs := (List.range (k1.toNat + 1)).map (n.toNat + ·)
    advance iss ((issueLanes s iss).foldl (fun s r =>
      let ea := eaOf s r sp a off 0 4
      if ea % 4 ≠ 0 then holdFault r ⟨.align, 0, faddrOf ea, 0, wa⟩ s
      else if regs.any fun x => s.vpoi.contains ⟨r.lane, x⟩ then holdFault r ⟨.poison, 1, 0, 0, wa⟩ s
      else storeElem r sp ea (storeBytes (4 * regs.length) (regs.map fun x => vreg s r.lane x)) wa s) s)

/-- FILL: values wait for the trace end (R211, R219). -/
def execFill (sp : Space) (hint : Hint) (off : BitVec 24) (n : BitVec 8) (k1 : BitVec 5) (a : Opnd) (s : State) :
    Host.Outcome State Fault Refusal :=
  withIssue (addrReads sp a none) [] s fun iss s =>
    let wa := wordAddr (headThread s iss)
    let k := k1.toNat + 1
    advance iss ((issueLanes s iss).foldl (fun s r =>
      let ea := eaOf s r sp a off 0 4
      if ea % 4 ≠ 0 then holdFault r ⟨.align, 0, faddrOf ea, 0, wa⟩ s
      else match loadElem r sp ea (4 * k) (hint == .sm) wa s with
        | (.error f, s1) => holdFault r f s1
        | (.ok bs, s1) =>
          { s1 with fill := ((loadWords (4 * k) bs).mapIdx fun i x => (i, x)).foldl (fun m p => m.set ⟨r, n.toNat + p.1⟩ p.2) s1.fill }) s)

end Sys2Proof.Machine
end

