-- ==== Sys2Proof/Machine/Atomics.lean ====
section
/-! DEFINITION. Read-modify-write: ATOM, RED and the add forms of SCATTER (R87, R88, R91 to R93, R220 to R223). -/

namespace Sys2Proof.Machine

/-- The new value of an element (R222). -/
def rmwBytes (op : AluOp) (w : Nat) (old : List Byte) (b c : DWord) : List Byte :=
  match op with
  | .xchg => leBytes w b.toNat
  | .cas => if leNat old = c.toNat % 2 ^ (8 * w) then leBytes w b.toNat else old
  | _ => aluBytes op w old b.toNat

/-- The operations that PCIe carries to host memory (R88). DEDUCED, log 65. -/
def carriedByHost (op : AluOp) : Bool :=
  match op with
  | .add => true
  | .xchg => true
  | .cas => true
  | _ => false

/-- Whether the target of a read-modify-write refuses it (R88): the physical address to record. The host or a switch may answer any
request with Unsupported Request: a free choice. DEDUCED, log 65. -/
def refusedAt (op : AluOp) (at_ : At) (s : State) : Option Nat × State :=
  match at_ with
  | .mem _ h =>
    let pa := h.pas.headD 0
    match targetOf pa with
    | .host => if carriedByHost op then let (no, s1) := takeBit s; (if no then some pa else none, s1) else (some pa, s)
    | .cxl _ => (if h.devx then none else some pa, s)
    | _ => (none, s)
  | _ => (none, s)

/-- An element of participating pages in a DET launch is staged, or stalls an ATOM (R91, R93). DEDUCED, log 77. -/
def detAt (s : State) (u : Nat) (at_ : At) : Bool :=
  isDet s u && (match at_ with
    | .mem _ h => ! h.det.isEmpty
    | _ => false)

/-- Every unit of the launch with a lower index has exited and has had its staged entries released (R93). DEDUCED, log 77. -/
def lowerDone (s : State) (u : Nat) : Bool :=
  let un := unitOf s u
  match launchOf s u with
  | none => true
  | some l => (List.range un.idx).all fun i => l.completed.contains i &&
      (s.units.filter fun p => p.2.launch == un.launch && p.2.idx == i).all fun p => p.2.staged.isEmpty

/-- Whether an entry of the Sluice concerns one of some lines (R91). -/
def Staged.onLines (lines : List Nat) : Staged → Bool
  | .store cells => cells.any fun c => lines.contains (c.1 / 64)
  | .red pa _ _ _ => lines.contains (pa / 64)

/-- Cells are written at home for a core: after the earlier committed writes of the core to their bytes, and into its L1 copies (R81). -/
def writeThrough (core : Nat) (cells : List Host.Cell) (s : State) : State :=
  patchL1 core cells (homeWrite cells (drainOverlap core (cells.map (·.1)) s))

/-- An entry of the Sluice takes effect at home for the core of its unit (R81, R91, R92). -/
def applyStaged (core : Nat) (e : Staged) (s : State) : State :=
  match e with
  | .store cells => writeThrough core cells s
  | .red pa w op v =>
    let pas := (List.range w).map (pa + ·)
    writeThrough core (cellsOf pas (aluBytes op w (homeRead (drainOverlap core pas s) pas) v)) s

/-- Drain a unit's staged entries for some lines, in order (R93). DEDUCED, log 77. -/
def drainLines (u : Nat) (lines : List Nat) (s : State) : State :=
  let es := (unitOf s u).staged
  let s1 := modUnit u (fun x => { x with staged := es.filter fun e => ! e.2.onLines lines }) s
  (es.filter fun e => e.2.onLines lines).foldl (fun s e => applyStaged (unitOf s u).core e.2 s) s1

/-- The core of a unit discards its L1 sectors of the lines that its launch's ownership table tracks: loads after an ATOM see what every
lower-indexed unit has had released (R93). -/
def discardTracked (u : Nat) (s : State) : State :=
  match launchOf s u with
  | none => s
  | some l => discardL1 (unitOf s u).core (fun x => (l.own.find? (x.pa / 64)).isSome) s

/-- The place of a read-modify-write outside package memory is the target memory, at system scope whatever the page says (R88, R223). -/
def rmwPlace (at_ : At) : At :=
  match at_ with
  | .mem va h => if h.pas.all fun p => targetOf p == .package then at_ else .mem va { h with scope := .system, loc := [] }
  | x => x

/-- One read-modify-write of a lane: the old bytes (R222). DEDUCED, log 16. -/
def rmwOne (r : LaneRef) (at_ : At) (w : Nat) (op : AluOp) (b c : DWord) (s : State) : List Byte × State :=
  let (old, s1) := readHome r (rmwPlace at_) w s
  (old, writeHome r (rmwPlace at_) (rmwBytes op w old b c) s1)

/-- The line numbers of an element. -/
def linesOf (at_ : At) : List Nat :=
  match at_ with
  | .mem _ h => (h.pas.map (· / 64)).dedup
  | _ => []

/-- Perform or stage the element of one lane. -/
def rmwLane (r : LaneRef) (at_ : At) (w : Nat) (op : AluOp) (b c : DWord) (stage : Bool) (s : State) : List Byte × State :=
  if detAt s r.u at_ then
    let s1 := match at_ with
      | .mem _ h => touchLines r.u h.det s
      | _ => s
    if stage then
      match at_ with
      | .mem _ h => ([], stageEntry r (.red (h.pas.headD 0) w op b.toNat) s1)
      | _ => ([], s1)
    else rmwOne r at_ w op b c (discardTracked r.u (drainLines r.u (linesOf at_) s1))
  else rmwOne r at_ w op b c s

/-- The size of a data operand of width `w`. -/
def rmwSize (w : Width) : Size := if w = .b8 then .w64 else .w32

/-- The refusals of some elements, in lane order (R88). DEDUCED, log 65. -/
def refuseAll (op : AluOp) (wa : Nat) (as : List (LaneRef × At)) (s : State) : List (LaneRef × Flt) × State :=
  as.foldl (fun (acc : List (LaneRef × Flt) × State) p =>
    match refusedAt op p.2 acc.2, p.2 with
    | (some pa, s), .mem va _ => (acc.1 ++ [(p.1, ⟨.xatom, 0, va, pa, wa⟩)], s)
    | (_, s), _ => (acc.1, s)) ([], s)

/-- Perform or stage the elements of some lanes, in lane order: what each found (R87, R222). -/
def rmwLoop (w : Nat) (op : AluOp) (b c : State → LaneRef → DWord) (stage : Bool) (as : List (LaneRef × At)) (s : State) :
    List (LaneRef × Res) × State :=
  as.foldl (fun (acc : List (LaneRef × Res) × State) p =>
    let q := rmwLane p.1 p.2 w op (b acc.2 p.1) (c acc.2 p.1) stage acc.2
    (acc.1 ++ [(p.1, ⟨loadWords w q.1, loadWords w q.1⟩)], q.2)) ([], s)

/-- The shared meaning of the read-modify-write instructions: the memory commit, every check, and then one event an element, in ascending
lane order (R40, R87, R88, R222); `stage` says that a DET launch stages them. -/
def rmwAll (u : Bool) (sp : GS) (w : Width) (op : AluOp) (stage : Bool) (d : Option Opnd) (a b : Opnd) (i c : Option Opnd) (s : State) :
    Host.Outcome State Fault Refusal :=
  let sz := rmwSize w
  let ty := opType op
  withIssue (addrReads sp.space a i ++ readsOf ((b, sz) :: c.toList.map fun o => (o, sz))) (gangRegs (d.toList.map fun o => (o, sz.regs)))
    s fun iss s =>
    let wa := wordAddr (headThread s iss)
    let s1 := commit iss s
    let rs := actsFor u s1 iss
    let (as, fs, s2) := checkAll .write w.bytes wa w.bytes sp.space
      (rs.map fun r => (r, eaOf s1 (opRef u iss r) sp.space a 0 (idxOf s1 (opRef u iss r) i) w.bytes)) s1
    let poisoned := as.filterMap fun p => (poisonOf s2 iss.u (fun _ => false) p.2 w.bytes wa).map fun f => (p.1, f)
    let (refused, s3) := refuseAll op wa as s2
    let faults := rs.filterMap fun r => (fs ++ refused ++ poisoned).find? fun p => p.1 == r
    if ! faults.isEmpty then raiseAll u iss faults s3
    else if ! stage && (as.any fun p => detAt s3 iss.u p.2) && ! lowerDone s3 iss.u then block iss .det s3
    else
      let q := rmwLoop w.bytes op (fun s r => srcW s (opRef u iss r) ty sz b)
        (fun s r => (c.map fun o => srcW s (opRef u iss r) ty sz o).getD 0) stage as s3
      advance iss (deliverOpt u iss d q.1 sz.regs q.2)

/-- ATOM (R222). -/
def execAtom (u : Bool) (sp : GS) (w : Width) (op : AluOp) (_hint : Hint) (d a b c : Opnd) (s : State) :
    Host.Outcome State Fault Refusal := rmwAll u sp w op false (some d) a b none (some c) s

/-- RED (R222). -/
def execRed (u : Bool) (sp : GS) (w : Width) (op : AluOp) (_hint : Hint) (a b : Opnd) (s : State) : Host.Outcome State Fault Refusal :=
  rmwAll u sp w op true none a b none none s

/-- SCATTER with an operation (R222). -/
def execScatterAdd (sp : GS) (w : Width) (op : AluOp) (_hint : Hint) (a i c : Opnd) (s : State) : Host.Outcome State Fault Refusal :=
  rmwAll false sp w op true none a c (some i) none s

end Sys2Proof.Machine
end

