-- ==== Sys2Proof/Machine/Flow.lean ====
section
/-! DEFINITION. The instructions that build, end and join traces, and the traps (R29 to R50, R143 to R152). -/

namespace Sys2Proof.Machine

/-! ### Building a trace -/

/-- NOP has no effect but to go on (R149). -/
def execNop (s : State) : Host.Outcome State Fault Refusal := withIssue [] [] s fun iss s => advance iss s

/-- The targets of a table's words, by guard index (R126). -/
def tableTargets (a : Nat) (ws : List DWord) : List Nat :=
  ws.mapIdx fun g w => targetAddr (a + 8 * (1 + g)) (w.setWidth 32)

/-- Registers that every slice of an issue may name: its least allocation; a helper names none (R19, R270). -/
def leastAlloc (s : State) (iss : Issue) : Nat :=
  if iss.h then 256 else iss.js.foldl (fun n j => min n (sliceOf s ⟨iss.u, iss.g, j⟩).nreg) 256

/-- The window of a helper's recruitment enters its first slots (R272). -/
def loadWindow (t : ThreadId) (s : State) : State :=
  match serveOf s t with
  | none => s
  | some (_, r) => (refsOf t (threadOf s t).mask).foldl (fun s l =>
      (r.window.mapIdx fun i w => (i, w)).foldl (fun s p => loadSlot l p.1 p.2 s) s) s

/-- One thread enters a trace that has been fetched and checked: fragment entries are spilled, the trace state is cleared, and the entering
mask becomes the trace-head mask (R143). A thread whose spill faults stays at the head. -/
def enterTrace (a stages gd : Nat) (ws : List DWord) (grp : Bool) (t : ThreadId) (s : State) : State :=
  match (if t.h then (none, s) else spillStack t 8 s) with
  | (some f, s1) =>
    let m := (threadOf s1 t).mask
    if f.cls.isFatal then fatal t f m s1 else parkOn t f m (modThread t (fun th => { th with parkedWith := [t.j] }) s1)
  | (none, s1) =>
    let s2 := (threadLanes t).foldl (fun s r => clearLane r s) s1
    let s3 := modThread t (fun th => { th with
      pos := .body (1 + gd), head := th.mask, tr := a, words := ws, stages := stages,
      alts := tableTargets a ((ws.drop 1).take gd), binds := [], failed := [], settled := false, committed := false,
      wait := .none, grouped := grp, inst := th.inst + 1 }) s2
    if t.h then loadWindow t s3 else s3

/-- TRACE, the whole head of a trace (R129, R143). -/
def execTrace (stages : BitVec 6) (guards : BitVec 4) (s : State) : Host.Outcome State Fault Refusal :=
  match s.cur with
  | none => .next s
  | some iss =>
    match (headThread s iss).pos with
    | .head a =>
      let w0 := (encode (.trace stages guards)).getD 0
      match fetchTrace iss.h iss.u a stages.toNat guards.toNat (leastAlloc s iss) w0 s with
      | (.flt f, s1) =>
        let fs := (issueLanes s1 iss).map fun r => (r, f)
        .next (if f.cls.isFatal then settledFault iss fs s1
               else parkIssue iss fs (modThreads iss (fun th => { th with tr := a, head := th.mask }) s1))
      | (.ok ws, s1) =>
        .next (iss.threads.foldl (fun s t =>
          enterTrace a stages.toNat guards.toNat ws (decide (1 < iss.js.length)) t s) s1)
    | _ => .next s

/-- Slots bound to main registers, for each slice of the issue (R30). -/
def bindSlots (iss : Issue) (d n k : Nat) (s : State) : State :=
  modThreads iss (fun th => { th with binds := th.binds ++ (List.range k).map fun i => (d + i, n + i) }) s

/-- A main register is poisoned (R347). -/
def regPoisoned (s : State) (l : LaneId) (n : Nat) : Bool := s.vpoi.contains ⟨l, n⟩

/-- STG copies main registers into slots and binds them; a poisoned register holds POISON against the lane (R30, R347). -/
def execStg (d : BitVec 5) (n : BitVec 8) (k1 : BitVec 5) (s : State) : Host.Outcome State Fault Refusal :=
  withIssue [] [] s fun iss s =>
    let k := k1.toNat + 1
    let wa := wordAddr (headThread s iss)
    let s1 := (issueLanes s iss).foldl (fun s r =>
      let sa := (List.range k).foldl (fun s i => loadSlot r (d.toNat + i) (vreg s r.lane (n.toNat + i)) s) s
      if (List.range k).any fun i => regPoisoned s r.lane (n.toNat + i) then holdFault r ⟨.poison, 1, 0, 0, wa⟩ sa else sa) s
    advance iss (bindSlots iss d.toNat n.toNat k s1)

/-- WBIND binds slots and copies nothing (R30). -/
def execWbind (d : BitVec 5) (n : BitVec 8) (k1 : BitVec 5) (s : State) : Host.Outcome State Fault Refusal :=
  withIssue [] [] s fun iss s => advance iss (bindSlots iss d.toNat n.toNat (k1.toNat + 1) s)

/-- Lanes of a thread fail a guard: they leave the mask, and what they have of the trace is dropped (R32). -/
def failLanes (t : ThreadId) (g : Nat) (m : BitVec 4) (s : State) : State :=
  let s1 := (refsOf t m).foldl (fun s r => dropLane r s) s
  modThread t (fun th => { th with mask := th.mask &&& ~~~m, failed := th.failed ++ [(g, m)] }) s1

/-- GUARD (R32, R144). -/
def execGuard (z : Bool) (g : BitVec 3) (a : Opnd) (s : State) : Host.Outcome State Fault Refusal :=
  withIssue (gangRegs [(a, 1)]) [] s fun iss s =>
    let fails := (issueLanes s iss).filter fun r => (src32 s r .int a == 0) != z
    let s1 := iss.threads.foldl (fun s t =>
      let m := maskOf ((fails.filter fun r => r.thread == t).map fun r => r.l % 4)
      if m = 0 then s else failLanes t g.toNat m s) s
    let un := unitOf s1 iss.u
    skipEmpty iss (advance iss (countCore un.core 0x04 un.ctx (curTag s1) fails.length s1))

/-- SETTLE (R35, R39, R145). -/
def execSettle (s : State) : Host.Outcome State Fault Refusal :=
  withIssue [] [] s fun iss s =>
    match settle iss s with
    | (true, s1) => advance iss s1
    | (false, s1) => s1

/-! ### Ending a trace -/

/-- A trace end of an issue, whatever its mask (R43, R46). -/
def atEnd (tok : BitVec 16) (k : Nat → EndKind) (link : Bool) (s : State) : Host.Outcome State Fault Refusal :=
  match s.cur with
  | none => .next s
  | some iss =>
    let wa := wordAddr (headThread s iss)
    .next (traceEnd iss tok.toNat (k wa) (if link then some (wa + 8) else none) s)

/-- TEND (R146). -/
def execTend (tok : BitVec 16) (off : BitVec 32) (s : State) : Host.Outcome State Fault Refusal :=
  atEnd tok (fun wa => .direct (targetAddr wa off)) false s

/-- TENDI (R146). -/
def execTendi (tok : BitVec 16) (a : BitVec 5) (s : State) : Host.Outcome State Fault Refusal :=
  atEnd tok (fun _ => .indirect a.toNat) false s

/-- CALL (R146). -/
def execCall (tok : BitVec 16) (off : BitVec 32) (s : State) : Host.Outcome State Fault Refusal :=
  atEnd tok (fun wa => .direct (targetAddr wa off)) true s

/-- CALLI (R146). -/
def execCalli (tok : BitVec 16) (a : BitVec 5) (s : State) : Host.Outcome State Fault Refusal :=
  atEnd tok (fun _ => .indirect a.toNat) true s

/-- RET (R146). -/
def execRet (tok : BitVec 16) (s : State) : Host.Outcome State Fault Refusal := atEnd tok (fun _ => .ret) false s

/-! ### Exit -/

/-- Helpers of open records of a recruiter's lanes that still run (R276, R277). -/
def runningHelpers (s : State) (iss : Issue) (ls : List Nat) : Bool :=
  (gangOf s iss.gang).recs.any fun p => ls.contains p.2.lane && p.2.helpers.any fun h => h.st == .running

/-- Release the helpers of every open record of a recruiter's lanes (R276). -/
def dismissAll (iss : Issue) (ls : List Nat) (s : State) : State :=
  ((gangOf s iss.gang).recs.filter fun p => ls.contains p.2.lane).foldl (fun s p => releaseRecord iss.u iss.g p.1 s) s

/-- The numbers of a gang's open records of some lanes, the oldest first. -/
def recordsOf (s : State) (i : GangId) (ls : List Nat) : List Nat :=
  (sortBy (fun a b => decide (a.2.age ≤ b.2.age)) ((gangOf s i).recs.filter fun p => ls.contains p.2.lane)).map (·.1)

/-- Close the records of some lanes: what their helpers have staged stays, in order of helper (R276, R281). -/
def closeRecords (iss : Issue) (ls : List Nat) (s : State) : State :=
  (recordsOf s iss.gang ls).foldl (fun s rid =>
    let at_ := placeOf s ⟨iss.u, iss.g, iss.js.headD 0⟩
    let s1 := (List.range 31).foldl (fun s i => moveStaged iss.u at_ (fun k => k.2 == (iss.g, rid, i)) s) s
    modGang iss.gang (fun g => { g with recs := g.recs.erase rid }) s1) s

/-- The lanes have no committed write left to perform and no engine command left to complete (R89). -/
def laneDone (s : State) (r : LaneRef) : Bool :=
  ! (s.wq.any fun e => e.lane == r)
    && ! ((allCopies s).any fun c => c.u == r.u && c.g == r.g && c.issued.contains r.l)
    && ! ((allMats s).any fun c => c.u == r.u && c.g == r.g && c.lanes.any fun x => x.l == r.l)

/-- The lanes of one slice leave for good: the failed groups are pushed with token 0, and the slice pops (R147). -/
def exitSlice (t : ThreadId) (s : State) : State :=
  let m := (threadOf s t).mask
  leaveTrace t 0 [] (applyShrink t (modSlice ⟨t.u, t.g, t.j⟩ (fun x => { x with exited := x.exited ||| m }) s))

/-- A gang has ended: VALID of its bind record clears (R314). -/
def endBind (g : GangId) (s : State) : State :=
  modUnit g.u (fun x => { x with binds := x.binds.mapIdx fun i b => if i = g.g then { b with valid := false } else b }) s

/-- What a gang's exits let happen: a gang without a live slice frees the baton, others may pass REGANG and barriers, and the unit ends with
its last lane (R50, R147, R153, R265, R318). -/
def afterExit (g : GangId) (s : State) : State :=
  let s1 := if (liveSlices s g).isEmpty then
      endBind g ((s.baton.filter fun p => p.2 == g).foldl (fun s p => freeBaton p.1 s) { s with batonq := s.batonq.filter fun p => p.2 != g })
    else tryRegang g s
  let s3 := exitBarriers g.u s1
  if (gangsIn s3 g.u).all fun k => (liveSlices s3 ⟨g.u, k⟩).isEmpty then finishUnit g.u s3 else s3

/-- EXIT of a helper: the lanes go back to their lender (R269, R274). -/
def helperExit (iss : Issue) (s : State) : State :=
  iss.threads.foldl (fun s t => leaveHelper t 0xF .delivered s) s

/-- EXIT (R89, R147, R276). -/
def execExit (s : State) : Host.Outcome State Fault Refusal :=
  match s.cur with
  | none => .next s
  | some iss =>
    match settle iss s with
    | (false, s1) => .next s1
    | (true, s1) =>
      let s2 := commit iss s1
      if iss.h then .next (helperExit iss s2)
      else if (unitOf s2 iss.u).status = .ending then .next (iss.threads.foldl (fun s t => reapThread t s) s2)
      else
        let rs := issueLanes s2 iss
        let s3 := dismissAll iss (rs.map (·.l)) (releaseLanes rs s2)
        if runningHelpers s3 iss (rs.map (·.l)) then .next (block iss .join s3)
        else if rs.all fun r => laneDone s3 r then
          let s4 := closeRecords iss (rs.map (·.l)) s3
          .next (afterExit iss.gang (iss.threads.foldl (fun s t => exitSlice t s) s4))
        else .next (block iss .drain s3)

/-! ### Merging and ganging -/

/-- A slice arrives at a MERGE (R45): it waits where a fragment of the token, or the join entry, is on top of its stack. -/
def mergeSlice (tok a : Nat) (t : ThreadId) (s : State) : State :=
  let i : SliceId := ⟨t.u, t.g, t.j⟩
  match (if (sliceOf s i).stack.isEmpty then refillStack t 4 s else (none, s)) with
  | (some f, s1) =>
    if (sliceOf s1 i).stack.isEmpty then
      let m := (threadOf s1 t).mask
      if f.cls.isFatal then fatal t f m s1 else parkOn t f m (modThread t (fun th => { th with parkedWith := [t.j] }) s1)
    else goOn s1
  | (none, s1) => goOn s1
where
  goOn (s : State) : State :=
    match (sliceOf s ⟨t.u, t.g, t.j⟩).stack with
    | f :: _ =>
      if f.tok = tok then popSlice t s
      else modThread t (fun th => { th with pos := .head (a + 8), need := 1, since := s.clock }) s
    | [] => modThread t (fun th => { th with pos := .head (a + 8), need := 1, since := s.clock }) s

/-- MERGE (R45, R148). -/
def execMerge (tok : BitVec 16) (s : State) : Host.Outcome State Fault Refusal :=
  match s.cur with
  | none => .next s
  | some iss =>
    match (headThread s iss).pos with
    | .head a => .next (iss.threads.foldl (fun s t => mergeSlice tok.toNat a t s) s)
    | _ => .next s

/-- REGANG (R50, R148). -/
def execRegang (s : State) : Host.Outcome State Fault Refusal :=
  match s.cur with
  | none => .next s
  | some iss =>
    match (headThread s iss).pos with
    | .head a => .next (tryRegang iss.gang (modThreads iss (fun th => { th with pos := .regang a }) s))
    | _ => .next s

/-! ### Yielding, traps and breakpoints -/

/-- YIELD (R152): a point after the memory commit at which the firmware may deschedule the unit; it completes at the next issue. DEDUCED, log 47. -/
def execYield (s : State) : Host.Outcome State Fault Refusal :=
  withIssue [] [] s fun iss s =>
    if waitOf s iss = .yield ∨ (unitOf s iss.u).status = .ending then advance iss (commit iss s)
    else stall iss .yield (commit iss s)

/-- TRAP (R150). -/
def execTrap (imm : BitVec 32) (s : State) : Host.Outcome State Fault Refusal :=
  withIssue [] [] s fun iss s =>
    let f : Flt := ⟨.trap, 0, imm.toNat, 0, wordAddr (headThread s iss)⟩
    if isSettled s iss then settledFault iss ((issueLanes s iss).map fun r => (r, f)) s
    else advance iss ((issueLanes s iss).foldl (fun s r => holdFault r f s) s)

/-- One slice stops at a BKPT with its record pending; a slice whose mask is empty goes to its trace end (R46, R151). DEDUCED, log 57.
DESIGN CHOICE, log 90. -/
def stopAt (code : BitVec 16) (t : ThreadId) (s : State) : State :=
  let th := threadOf s t
  if th.mask = 0 then modThread t (fun th => { th with pos := .body (th.words.length - 1) }) s
  else
    let (seq, s1) := raiseFault t ⟨.bkpt, 0, code.toNat, 0, wordAddr th⟩ th.mask true s
    modThread t (fun th => { th with wait := .stopped seq }) s1

/-- BKPT (R151): each slice stops until its record is answered. -/
def execBkpt (code : BitVec 16) (s : State) : Host.Outcome State Fault Refusal :=
  withIssue [] [] s fun iss s =>
    match waitOf s iss with
    | .stopped _ => s
    | _ =>
      if (unitOf s iss.u).status = .ending then iss.threads.foldl (fun s t => reapThread t s) s
      else iss.threads.foldl (fun s t => stopAt code t s) s

end Sys2Proof.Machine
end

