-- ==== Sys2Proof/Machine/Copy.lean ====
section
/-! DEFINITION. The copy and link engines: issuing commands, batches and tokens, and performing a command (R51, R228 to R235, R247, R365). -/

namespace Sys2Proof.Machine

/-! ### What engines reach -/

/-- Virtual page number and physical page number of pieces that have been translated. -/
def pagesOf (ps : List Piece) : Map Nat Nat := ps.map fun p => (p.va / 4096, p.pa / 4096)

/-- The physical address of a byte of a command, by the pages translated at its issue (R234). -/
def physOf (pages : Map Nat Nat) (va : Nat) : Nat := pages.get (va / 4096) 0 * 4096 + va % 4096

/-- Check a range of an engine command at issue: its pages, or its fault (R209, R234, R249). -/
def checkRange (r : LaneRef) (sp : GS) (ea : Int) (n : Nat) (k : Acc) (settled : Bool) (wa : Nat) (s : State) :
    Except Flt (Map Nat Nat) × State :=
  if n = 0 then (.ok [], s)
  else match sp with
    | .gl => match translate r.u k settled wa (faddrOf ea) (n / 4096 + 2) (faddrOf ea) n [] s with
      | (.ok ps, s1) => (.ok (pagesOf ps), s1)
      | (.error f, s1) => (.error f, s1)
    | .sc =>
      if 0 ≤ ea ∧ ea + n ≤ ((bindOf s r.u 0).scrSize * 1024 : Nat) then (.ok [], s)
      else (.error ⟨.lease, 3, faddrOf ea, 0, wa⟩, s)

/-- The place that an address of a space names. -/
def locOf (sp : GS) (ea : Int) : Loc :=
  match sp with
  | .gl => .mem (faddrOf ea)
  | .sc => .scr ea.toNat

/-- A place some bytes further on. -/
def Loc.at_ (l : Loc) (i : Int) : Loc :=
  match l with
  | .mem va => .mem (faddrOf (va + i))
  | .scr off => .scr (off + i).toNat
  | .far e va => .far e (faddrOf (va + i))
  | .ob off => .ob (off + i).toNat

/-- A byte of the operand buffer of a unit's cluster, and whether it is poisoned. DESIGN CHOICE, log 3. -/
def obByte (s : State) (u a : Nat) : Byte × Bool :=
  let cl := clusterOf (unitOf s u).core
  ((s.opbuf.get cl {}).read a, s.oppoi.contains (cl, a / 8 * 8))

/-- Bytes as an engine reads them, each with whether it is poisoned (R25, R234). -/
def engRead (u : Nat) (pages : Map Nat Nat) (l : Loc) (n : Nat) (s : State) : List (Byte × Bool) :=
  (List.range n).map fun i => match l with
    | .mem va => let p := physOf pages (va + i); (s.mem.read p, poisonedAt s p)
    | .scr off => ((s.scr.get u {}).read (off + i), s.scrpoi.contains (u, (off + i) / 4 * 4))
    | .far _ _ => (0, false)
    | .ob off => obByte s u (off + i)

/-- Write bytes as an engine does: the granules of poisoned bytes become poisoned (R234, R347). DEDUCED, log 88. -/
def engWrite (u : Nat) (pages : Map Nat Nat) (l : Loc) (bs : List (Byte × Bool)) (s : State) : State :=
  let bad := (bs.mapIdx fun i b => (i, b.2)).filter (·.2)
  match l with
  | .mem va =>
    let s1 := homeWrite (bs.mapIdx fun i b => (physOf pages (va + i), b.1)) s
    { s1 with mempoi := (bad.map fun p => sectorOf (physOf pages (va + p.1))).foldl (fun l x => l.insert x) s1.mempoi }
  | .scr off =>
    let s1 := writeScratch u off (bs.map (·.1)) s
    { s1 with scrpoi := (bad.map fun p => (u, (off + p.1) / 4 * 4)).foldl (fun l x => l.insert x) s1.scrpoi }
  | .far _ _ => s
  | .ob off =>
    let cl := clusterOf (unitOf s u).core
    let s1 := writeOpbuf cl off (bs.map (·.1)) s
    { s1 with oppoi := (bad.map fun p => (cl, (off + p.1) / 8 * 8)).foldl (fun l x => l.insert x) s1.oppoi }

/-! ### Batches and tokens -/

/-- A gang holds as many uncompleted commands under a tag as it may (R232). -/
def tagFull (s : State) (g : GangId) (tag : Nat) : Bool :=
  decide (Config.tagLimit ≤ (((gangOf s g).batches.filter fun b => b.tag == tag).map fun b => b.out.length).sum)

/-- A command joins the open batch of its tag, or opens one (R232). -/
def joinBatch (id fresh tag : Nat) (g : Gang) : Gang :=
  if g.batches.any fun b => b.tag == tag && b.reg.isNone then
    { g with batches := g.batches.map fun b => if b.tag == tag && b.reg.isNone then { b with out := b.out ++ [id] } else b }
  else { g with batches := g.batches ++ [⟨fresh, tag, 0, [id], none⟩] }

/-- A command of a batch has completed with a count of delivered bytes (R229, R232). -/
def creditBatch (id n : Nat) (g : Gang) : Gang :=
  { g with batches := g.batches.map fun b =>
      if b.out.contains id then { b with delivered := b.delivered + n, out := b.out.filter (· != id) } else b }

/-- Put a command into its core's queue (R51). -/
def enqueueCopy (iss : Issue) (link : Bool) (tag : Nat) (kind : CopyKind) (lanes : List LaneCopy) (pages : Map Nat Nat)
    (settled : Bool) (s : State) : State :=
  let (id, s1) := takeFresh s
  let (b, s2) := takeFresh s1
  let s3 := modGang iss.gang (joinBatch id b tag) s2
  { s3 with copies := s3.copies ++ [{
      id := id, link := link, core := (unitOf s3 iss.u).core, u := iss.u, g := iss.g, batch := b, tag := tag, kind := kind, lanes := lanes,
      pages := pages, hold := if settled then [] else iss.js, pass := [], held := ! settled, insts := instsOf s3 iss,
      issued := (issueLanes s3 iss).map (·.l) }] }

/-! ### Remote windows -/

/-- The window of a route entry: base, size, whether it may be written; none where the entry is not valid (R364). -/
def windowOf (e : QWord) : Option (Nat × Nat × Bool) :=
  if e.getLsbD 0 then some ((e.extractLsb' 66 31).toNat * 2 ^ 21, (e.extractLsb' 46 20).toNat * 2 ^ 21, e.getLsbD 1) else none

/-- The valid route entry whose window holds an address (R365). -/
def routeOf (s : State) (ctx va : Nat) : Option (Nat × Nat × Nat × Bool) :=
  (List.range 16).findSome? fun i => match windowOf ((ctxOf s ctx).route.get i 0) with
    | none => none
    | some (b, n, w) => if b ≤ va ∧ va < b + n then some (i, b, n, w) else none

/-- Check one end of a link command: a remote place, or a local one with its pages (R365). -/
def checkEnd (r : LaneRef) (ea : Int) (n : Nat) (k : Acc) (settled : Bool) (wa : Nat) (s : State) :
    Except Flt (Loc × Map Nat Nat) × State :=
  match routeOf s (unitOf s r.u).ctx (faddrOf ea) with
  | some (i, b, m, w) =>
    if b + m < faddrOf ea + n then (.error ⟨.lease, 3, faddrOf ea, 0, wa⟩, s)
    else if k = .write ∧ w = false then (.error ⟨.lease, 1, faddrOf ea, 0, wa⟩, s)
    else (.ok (.far i (faddrOf ea), []), s)
  | none => match checkRange r .gl ea n k settled wa s with
    | (.ok ps, s1) => (.ok (.mem (faddrOf ea), ps), s1)
    | (.error f, s1) => (.error f, s1)

/-- A place is remote. -/
def Loc.isFar : Loc → Bool
  | .far _ _ => true
  | _ => false

/-- Check both ends of one element of a copy: the places and pages (R229, R365). -/
def checkEnds (lk : Bool) (r : LaneRef) (ssp dsp : GS) (src dst : Int) (n m : Nat) (settled : Bool) (wa : Nat) (s : State) :
    Except Flt (Loc × Loc × Map Nat Nat) × State :=
  let one := fun (sp : GS) (ea : Int) (n : Nat) (k : Acc) (s : State) =>
    if lk then checkEnd r ea n k settled wa s
    else match checkRange r sp ea n k settled wa s with
      | (.ok ps, s1) => (.ok (locOf sp ea, ps), s1)
      | (.error f, s1) => (.error f, s1)
  match one ssp src n .read s with
  | (.error f, s1) => (.error f, s1)
  | (.ok (a, ps), s1) => match one dsp dst m .write s1 with
    | (.error f, s2) => (.error f, s2)
    | (.ok (b, qs), s2) =>
      if lk && a.isFar == b.isFar then (.error ⟨.lease, 3, faddrOf (if a.isFar then dst else src), 0, wa⟩, s2)
      else (.ok (a, b, ps ++ qs), s2)

/-- The address that an operand of a lane names in a space (R228). -/
def addrIn (s : State) (r : LaneRef) (sp : GS) (o : Opnd) : Int :=
  match sp with
  | .gl => (src64 s r .int o).toNat
  | .sc => (src32 s r .int o).toNat

/-- The gang registers that an address operand reads. -/
def addrGregs (sp : GS) (o : Opnd) : List Nat := gangRegs [(o, if sp = .gl then 2 else 1)]

/-! ### Issuing -/

/-- What the lanes of an issue supply to a command: their elements, the faults found, the pages translated. -/
structure Supply (α : Type) where
  lanes : List α := []
  faults : List (LaneRef × Flt) := []
  pages : Map Nat Nat := []

/-- Issue a copy command once its lanes have been checked: before SETTLE a fault is held by its lane, after it the lanes that fault end the
unit (R39, R40, R234, R365). -/
def issueCopy (iss : Issue) (link : Bool) (tag : Nat) (kind : CopyKind) (sup : Supply LaneCopy) (settled : Bool) (s : State) : State :=
  if settled && ! sup.faults.isEmpty then settledFault iss sup.faults s
  else advance iss (enqueueCopy iss link tag kind sup.lanes sup.pages settled (sup.faults.foldl (fun s p => holdFault p.1 p.2 s) s))

/-- CPY (R228, R229). -/
def execCpy (tag : BitVec 3) (lk : Bool) (n1 : BitVec 5) (dsp ssp : GS) (_hint : Hint) (d a b : Opnd) (s : State) :
    Host.Outcome State Fault Refusal :=
  withIssue (addrGregs dsp d ++ addrGregs ssp a ++ gangRegs [(b, 1)]) [] s fun iss s =>
    let settled := isSettled s iss
    let s1 := if settled then commit iss s else s
    if tagFull s1 iss.gang tag.toNat then block iss .tagroom s1
    else
      let wa := wordAddr (headThread s1 iss)
      let m := n1.toNat + 1
      let step := fun (acc : Supply LaneCopy × State) (r : LaneRef) =>
        let (p, s) := acc
        let n := min (src32 s r .int b).toNat m
        match checkEnds lk r ssp dsp (addrIn s r ssp a) (addrIn s r dsp d) n m settled wa s with
        | (.ok (x, y, ps), s') => ({ p with lanes := p.lanes ++ [⟨r.l, x, y, n, 0⟩], pages := p.pages ++ ps }, s')
        | (.error f, s') => ({ p with faults := p.faults ++ [(r, f)] }, s')
      let (sup, s2) := (issueLanes s1 iss).foldl step ({}, s1)
      issueCopy iss lk tag.toNat (.lanes m) sup settled s2

/-- The lanes whose operands a gang-wide command is checked for: every one before SETTLE, the lowest after it (R234, R249). -/
def suppliers (s : State) (iss : Issue) (settled : Bool) : List LaneRef :=
  if settled then (issueLanes s iss).take 1 else issueLanes s iss

/-- Check the rows of a rectangle (R230, R234): `fuel` rows are left, from row `i`. -/
def checkRows (lk : Bool) (r : LaneRef) (ssp dsp : GS) (src dst sst dst' : Int) (nb : Nat) (settled : Bool) (wa : Nat) :
    Nat → Nat → Map Nat Nat → State → Except Flt (Map Nat Nat) × State
  | 0, _, ps, s => (.ok ps, s)
  | k + 1, i, ps, s =>
    match checkEnds lk r ssp dsp (src + i * sst) (dst + i * dst') nb nb settled wa s with
    | (.ok (_, _, qs), s1) => checkRows lk r ssp dsp src dst sst dst' nb settled wa k (i + 1) (ps ++ qs) s1
    | (.error f, s1) => (.error f, s1)

/-- Check a rectangle without a byte: a link command names one remote and one local address all the same (R230, R365). -/
def checkEmpty (lk : Bool) (r : LaneRef) (ssp dsp : GS) (src dst : Int) (settled : Bool) (wa : Nat) (s : State) :
    Except Flt (Map Nat Nat) × State :=
  if ! lk then (.ok [], s)
  else match checkEnds lk r ssp dsp src dst 0 0 settled wa s with
    | (.ok (_, _, ps), s1) => (.ok ps, s1)
    | (.error f, s1) => (.error f, s1)

/-- The place that a link or copy command's address names. -/
def endLoc (lk : Bool) (s : State) (ctx : Nat) (sp : GS) (ea : Int) : Loc :=
  if lk then match routeOf s ctx (faddrOf ea) with
    | some (i, _) => .far i (faddrOf ea)
    | none => .mem (faddrOf ea)
  else locOf sp ea

/-- CPY2D (R230): each lane that may come to be the lowest of the copying set supplies its addresses and its destination stride. -/
def execCpy2d (tag : BitVec 3) (lk : Bool) (dsp ssp : GS) (_hint : Hint) (d a b : Opnd) (ga gb gc : BitVec 6) (s : State) :
    Host.Outcome State Fault Refusal :=
  withIssue (addrGregs dsp d ++ addrGregs ssp a ++ gangRegs [(b, 1)] ++ [ga.toNat, gb.toNat, gc.toNat]) [] s fun iss s =>
    let settled := isSettled s iss
    let s1 := if settled then commit iss s else s
    if tagFull s1 iss.gang tag.toNat then block iss .tagroom s1
    else
      let wa := wordAddr (headThread s1 iss)
      let rows := (greg s1 iss.gang ga.toNat).toNat % 65536
      let nb := (greg s1 iss.gang gb.toNat).toNat % 65536
      let sst := (greg s1 iss.gang gc.toNat).toInt
      let step := fun (acc : Supply LaneCopy × State) (r : LaneRef) =>
        let (p, s) := acc
        let x := addrIn s r ssp a
        let y := addrIn s r dsp d
        let ctx := (unitOf s r.u).ctx
        let st := (src32 s r .int b).toInt
        let me : LaneCopy := ⟨r.l, endLoc lk s ctx ssp x, endLoc lk s ctx dsp y, nb, st⟩
        match (if nb = 0 ∨ rows = 0 then checkEmpty lk r ssp dsp x y settled wa s
               else checkRows lk r ssp dsp x y sst st nb settled wa rows 0 [] s) with
        | (.ok ps, s') => ({ p with lanes := p.lanes ++ [me], pages := p.pages ++ ps }, s')
        | (.error f, s') => ({ p with lanes := p.lanes ++ [me], faults := p.faults ++ [(r, f)] }, s')
      let (sup, s2) := (suppliers s1 iss settled).foldl step ({}, s1)
      issueCopy iss lk tag.toNat (.rect rows nb sst) sup settled s2

/-! ### CDEC -/

/-- The format of a record description (R245). -/
inductive EFmt where
  | flt (t : Fmt)
  | bx8
  | bx4
  deriving DecidableEq, Repr

/-- The fields of a record description (R245). -/
def descFmt (d : List Nat) : Option EFmt :=
  match bitsOf (d.getD 0 0) 8 3 with
  | 0 => some (.flt bfloat16)
  | 1 => some (.flt binary16)
  | 2 => some (.flt binary32)
  | 3 => some .bx8
  | 4 => some .bx4
  | _ => none

/-- Block length (R245). -/
def descBlk (d : List Nat) : Nat :=
  match bitsOf (d.getD 0 0) 12 2 with
  | 0 => 32
  | 1 => 16
  | _ => 64

/-- The bytes of the element array of `n` elements (R243). -/
def elemBytes (f : EFmt) (n : Nat) : Nat :=
  match f with
  | .flt t => n * (t.w / 8)
  | .bx8 => n
  | .bx4 => (n + 1) / 2

/-- The ranges of source bytes that a conversion reads: byte offset from its base, and length (R243, R247). -/
def convReads (d : List Nat) (n : Nat) : List (Nat × Nat) :=
  match descFmt d with
  | none => []
  | some f =>
    let blocks := (n + descBlk d - 1) / descBlk d
    let rows := (n + d.getD 4 1 - 1) / d.getD 4 1
    [(0, elemBytes f n)]
      ++ (match f with
          | .flt _ => []
          | _ => [(d.getD 5 0, 2 * blocks)])
      ++ (if bitsOf (d.getD 0 0) 17 1 = 1 then [(d.getD 6 0, 4 * rows)] else [])

/-- The offset of element e's result from the destination (R247). -/
def convOff (d : List Nat) (e : Nat) : Nat :=
  let i := e / d.getD 4 1
  let c := e % d.getD 4 1
  if bitsOf (d.getD 0 0) 16 1 = 0 then 2 * (i * d.getD 3 0 + c) else 2 * (c * d.getD 3 0 + i)

/-- The greatest offset of a result among `n` elements: at the last element, or at the last one of the row before, or of the last column. -/
def convTop (d : List Nat) (n : Nat) : Nat :=
  let lr := d.getD 4 1
  let cand := [n - 1, (n - 1) / lr * lr - 1, min n lr - 1 + (n - 1 - (min n lr - 1)) / lr * lr]
  ((cand.filter (· < n)).map (convOff d)).foldl max 0

/-- The value of a BX element with its selected exponent (R244). -/
def bxVal (neg : Bool) (m e : Nat) (frac : Nat) : Val :=
  if e = 255 then .nan else if e = 0 then .num neg 0 0 else .num neg m ((e : Int) - 127 - frac)

/-- The bytes of consecutive source bytes with their poison, as a function of the offset from the base. -/
abbrev Bytes := Nat → Byte × Bool

/-- Element e of a source, and whether a byte that it needs is poisoned (R243, R244, R247). -/
def convElem (d : List Nat) (b : Bytes) (e : Nat) : Val × Bool :=
  let ex := fun (sel : Bool) => b (d.getD 5 0 + 2 * (e / descBlk d) + sel.toNat)
  match descFmt d with
  | none => (.nan, false)
  | some (.flt t) =>
    let bs := (List.range (t.w / 8)).map fun i => b (e * (t.w / 8) + i)
    (t.read false (leNat (bs.map (·.1))), bs.any (·.2))
  | some .bx8 =>
    let (x, p) := b e
    let (v, q) := ex (x.getLsbD 7)
    (bxVal (x.getLsbD 6) (x.toNat % 64) v.toNat 5, p || q)
  | some .bx4 =>
    let (y, p) := b (e / 2)
    let x := if e % 2 = 0 then y.toNat % 16 else y.toNat / 16
    let (v, q) := ex (decide (8 ≤ x))
    (bxVal (decide (4 ≤ x % 8)) (x % 4) v.toNat 1, p || q)

/-- The BF16 that CDEC writes for element e, and whether it is poisoned (R247). -/
def convResult (d : List Nat) (b : Bytes) (e : Nat) : Nat × Bool :=
  let (x, p) := convElem d b e
  if bitsOf (d.getD 0 0) 17 1 = 1 then
    let bs := (List.range 4).map fun i => b (d.getD 6 0 + 4 * (e / d.getD 4 1) + i)
    (bfloat16.out .rn false (x.mul (binary32.read false (leNat (bs.map (·.1))))), p || bs.any (·.2))
  else (bfloat16.out .rn false x, p)

/-- Check one lane's supply to a CDEC (R231): the record, the destination range, and the source bytes. -/
def checkConv (r : LaneRef) (num count : Nat) (a : Int) (dst : Nat) (settled : Bool) (wa : Nat) (s : State) :
    Except Flt (List Nat × Map Nat Nat) × State :=
  let bad : Flt := ⟨.lease, 3, dst, 0, wa⟩
  match s.oprecs.find? (clusterOf (unitOf s r.u).core, num) with
  | none => (.error bad, s)
  | some rc =>
    if num ≥ 64 ∨ rc.u ≠ r.u then (.error bad, s)
    else if count = 0 then (.ok (rc.words, []), s)
    else
      let (b, n) := recRange rc.words
      if dst < b ∨ b + n < dst + convTop rc.words count + 2 then (.error bad, s)
      else
        let (res, s1) := (convReads rc.words count).foldl (fun (acc : Except Flt (Map Nat Nat) × State) p =>
          match acc with
          | (.error f, s) => (.error f, s)
          | (.ok ps, s) => match checkRange r .gl (a + p.1) p.2 .read settled wa s with
            | (.ok qs, s') => (.ok (ps ++ qs), s')
            | (.error f, s') => (.error f, s')) (.ok [], s)
        (match res with
          | .ok ps => .ok (rc.words, ps)
          | .error f => .error f, s1)

/-- CDEC (R231). -/
def execCdec (tag : BitVec 3) (_hint : Hint) (d a : Opnd) (ga gb : BitVec 6) (s : State) : Host.Outcome State Fault Refusal :=
  withIssue (gangRegs [(d, 1), (a, 2)] ++ [ga.toNat, gb.toNat]) [] s fun iss s =>
    let settled := isSettled s iss
    let s1 := if settled then commit iss s else s
    if tagFull s1 iss.gang tag.toNat then block iss .tagroom s1
    else
      let wa := wordAddr (headThread s1 iss)
      let num := (greg s1 iss.gang ga.toNat).toNat
      let count := (greg s1 iss.gang gb.toNat).toNat
      let step := fun (acc : Supply LaneCopy × List Nat × State) (r : LaneRef) =>
        let (p, ds, s) := acc
        let x := addrIn s r .gl a
        let dst := (src32 s r .int d).toNat
        let me : LaneCopy := ⟨r.l, .mem (faddrOf x), .ob dst, count, 0⟩
        match checkConv r num count x dst settled wa s with
        | (.ok (ws, ps), s') => ({ p with lanes := p.lanes ++ [me], pages := p.pages ++ ps }, ws, s')
        | (.error f, s') => ({ p with lanes := p.lanes ++ [me], faults := p.faults ++ [(r, f)] }, ds, s')
      let (sup, ds, s2) := (suppliers s1 iss settled).foldl step ({}, [], s1)
      issueCopy iss false tag.toNat (.conv num count ds) sup settled s2

/-- CSEAL closes the open batch of a tag: its token is written at once, or when its last command completes (R232). -/
def execCseal (tag : BitVec 3) (d : BitVec 6) (s : State) : Host.Outcome State Fault Refusal :=
  withIssue [] [d.toNat] s fun iss s =>
    let s1 := commit iss s
    let now := fun (v : Nat) (s : State) =>
      advance iss (deliver iss (.gang d) ((issueLanes s iss).map fun r => (r, res32 (BitVec.ofNat 32 v))) 1 s)
    match (gangOf s1 iss.gang).batches.find? fun b => b.tag == tag.toNat && b.reg.isNone with
    | none => now 0 s1
    | some b =>
      if b.out.isEmpty then now b.delivered (modGang iss.gang (fun g => { g with batches := g.batches.filter fun x => x.id != b.id }) s1)
      else
        let s2 := modGang iss.gang (fun g => { g with
          batches := g.batches.map fun x => if x.id = b.id then { x with reg := some d.toNat } else x }) s1
        advance iss (deliver iss .zero ((issueLanes s2 iss).map fun r => (r, res32 0)) 1 s2)

/-! ### Performing a command -/

/-- The engines serve the unit: it is not being saved (R235, R266). -/
def served (s : State) (u : Nat) : Bool := (unitOf s u).status != .saving

/-- The commands of one queue that have not left it, oldest first: those of a core and engine (R52). -/
def engineQueue (s : State) (c : CopyCmd) : List CopyCmd :=
  s.copies.filter fun x => x.core == c.core && x.link == c.link && ! x.finished && served s x.u

/-- The command at the head of its queue: the oldest of its core and engine that has not left it (R52). -/
def isHeadCopy (s : State) (c : CopyCmd) : Bool := (engineQueue s c).head?.map CopyCmd.id == some c.id

/-- Some bytes in one space: memory by its physical addresses, a unit's scratchpad; the first, and how many. -/
structure Stretch where
  scr : Option Nat
  at_ : Nat
  n : Nat

/-- Two stretches share a byte. -/
def Stretch.meets (x y : Stretch) : Bool := x.scr == y.scr && decide (x.at_ < y.at_ + y.n) && decide (y.at_ < x.at_ + x.n)

/-- The stretches of the bytes at a place, in memory one for each page. -/
def stretches (c : CopyCmd) (l : Loc) (n : Nat) : List Stretch :=
  match l with
  | .mem va => (List.range ((va % 4096 + n + 4095) / 4096)).map fun i =>
      let lo := max va ((va / 4096 + i) * 4096)
      ⟨none, physOf c.pages lo, min (va + n) ((va / 4096 + i + 1) * 4096) - lo⟩
  | .scr off => [⟨some c.u, off, n⟩]
  | _ => []

/-- A CPY's source and destination bytes (R229); none for another command. -/
def copyBytes (c : CopyCmd) : Option (List Stretch × List Stretch) :=
  match c.kind with
  | .lanes n => some (c.lanes.flatMap fun l => stretches c l.src l.n, c.lanes.flatMap fun l => stretches c l.dst n)
  | _ => none

/-- Two CPYs of a queue have no byte in common that one of them writes, so that they may be under way together (R52, R232). DEDUCED, log 64. -/
def apart (a b : CopyCmd) : Bool :=
  match copyBytes a, copyBytes b with
  | some (ra, wa), some (rb, wb) => ! (wa.any fun x => (rb ++ wb).any x.meets) && ! ra.any fun x => wb.any x.meets
  | _, _ => false

/-- The command is under way: it heads its queue, or every command before it is resolved and has no byte with it (R52, R229, R232, R387).
DEDUCED, log 64. -/
def underWay (s : State) (c : CopyCmd) : Bool :=
  isHeadCopy s c || (! c.link && served s c.u && ((engineQueue s c).takeWhile fun x => x.id != c.id).all fun x => ! x.held && apart x c)

/-- A trace that issued the command has yet to have its memory commit (R51). -/
def isOpenCopy (s : State) (c : CopyCmd) : Bool := openInsts s c.u c.g c.insts (fun _ => true)

/-- Change a command in its queue. -/
def modCopy (id : Nat) (f : CopyCmd → CopyCmd) (s : State) : State := { s with copies := s.copies.map fun c => if c.id = id then f c else c }

/-- The bytes that an engine writes at a place. -/
abbrev EngWr := Loc × List (Byte × Bool)

/-- What one lane's element of a CPY writes: all its source bytes, and zeros (R229). -/
def laneWrite (c : CopyCmd) (n : Nat) (l : LaneCopy) (s : State) : EngWr :=
  (l.dst, engRead c.u c.pages l.src l.n s ++ List.replicate (n - l.n) (0, false))

/-- What row `i` of a rectangle writes (R230). -/
def rowWrite (c : CopyCmd) (l : LaneCopy) (nb : Nat) (sst : Int) (i : Nat) (s : State) : EngWr :=
  (l.dst.at_ (i * l.stride), engRead c.u c.pages (l.src.at_ (i * sst)) nb s)

/-- What element `e` of a conversion writes (R247). -/
def convWrite (c : CopyCmd) (l : LaneCopy) (d : List Nat) (e : Nat) (s : State) : EngWr :=
  let rd : Bytes := fun i => (engRead c.u c.pages (l.src.at_ i) 1 s).headD (0, false)
  let (v, p) := convResult d rd e
  (l.dst.at_ (convOff d e : Nat), (leBytes 2 v).map fun b => (b, p))

/-- Elements of a CPY, rows of a CPY2D, or elements of a conversion (R229 to R231). -/
def elemCount (c : CopyCmd) : Nat :=
  match c.kind, c.lanes with
  | .lanes _, ls => ls.length
  | .rect rows nb _, _ :: _ => if nb = 0 then 0 else rows
  | .conv _ count _, _ :: _ => count
  | _, _ => 0

/-- What element `i` of a copy writes, by what its source holds now: each element is read before it is written (R229, R230, R247). -/
def elemWrite (c : CopyCmd) (i : Nat) (s : State) : Option EngWr :=
  match c.kind, c.lanes with
  | .lanes n, ls => (ls[i]?).map fun l => laneWrite c n l s
  | .rect _ nb sst, l :: _ => some (rowWrite c l nb sst i s)
  | .conv _ _ d, l :: _ => some (convWrite c l d i s)
  | _, _ => none

/-- Perform `k` elements from element `i` on, in order, with what each writes. -/
def copyElems (c : CopyCmd) : Nat → Nat → State → List EngWr × State
  | 0, _, s => ([], s)
  | k + 1, i, s =>
    match elemWrite c i s with
    | none => copyElems c k (i + 1) s
    | some w =>
      let (ws, s1) := copyElems c k (i + 1) (engWrite c.u c.pages w.1 w.2 s)
      (w :: ws, s1)

/-- Write some writes but for their first `k` bytes. -/
def writeRest (u : Nat) (pages : Map Nat Nat) : Nat → List EngWr → State → State
  | _, [], s => s
  | k, w :: ws, s =>
    writeRest u pages (k - w.2.length) ws (if w.2.length ≤ k then s else engWrite u pages (w.1.at_ (min k w.2.length : Nat)) (w.2.drop k) s)

/-- The bytes that a command delivers (R229 to R231). -/
def deliveredBy (c : CopyCmd) : Nat :=
  match c.kind, c.lanes with
  | .lanes _, ls => (ls.map (·.n)).sum
  | .rect rows nb _, _ :: _ => rows * nb
  | .conv _ count _, _ :: _ => 2 * count
  | _, [] => 0

/-- The granules of `g` bytes that some bytes cover wholly, the last byte at each address being clean. -/
def cleanGranules (g : Nat) (bs : List (Nat × Bool)) : List Nat :=
  ((bs.map fun p => p.1 / g * g).dedup).filter fun a =>
    (List.range g).all fun i => (bs.reverse.find? fun p => p.1 == a + i).map (·.2) == some false

/-- A command that has covered a granule with clean bytes has cleared its poison, however it wrote them (R347). DEDUCED, log 88. -/
def healCopy (c : CopyCmd) (ws : List EngWr) (s : State) : State :=
  let cl := clusterOf (unitOf s c.u).core
  let at_ := fun (f : Loc → Option Nat) => ws.flatMap fun w => w.2.mapIdx (fun i b => (w.1.at_ (i : Nat), b.2)) |>.filterMap fun p =>
    (f p.1).map fun a => (a, p.2)
  let mem := cleanGranules 32 (at_ fun l => match l with
    | .mem va => some (physOf c.pages va)
    | _ => none)
  let scr := cleanGranules 4 (at_ fun l => match l with
    | .scr off => some off
    | _ => none)
  let ob := cleanGranules 8 (at_ fun l => match l with
    | .ob off => some off
    | _ => none)
  { s with mempoi := s.mempoi.filter (fun a => ! mem.contains a), scrpoi := s.scrpoi.filter (fun p => ! (p.1 == c.u && scr.contains p.2)),
           oppoi := s.oppoi.filter fun p => ! (p.1 == cl && ob.contains p.2) }

/-- Perform what is left of a copy-engine command: the rest of the elements that have been begun, and the others (R229 to R231, R235, R247).
DEDUCED, log 64. -/
def performCopy (c : CopyCmd) (s : State) : State :=
  let (ws, s1) := copyElems c (elemCount c - c.next) c.next (writeRest c.u c.pages c.written c.done s)
  healCopy c (c.done ++ ws) s1

/-- A command has completed: it leaves its queue, and its batch counts what it delivered (R229, R232). -/
def completeCopy (c : CopyCmd) (n : Nat) (s : State) : State :=
  let s1 := { s with copies := s.copies.filter fun x => x.id != c.id }
  writeTokens ⟨c.u, c.g⟩ (modGang ⟨c.u, c.g⟩ (creditBatch c.id n) s1)

/-- A command has left its engine with `n` bytes delivered: it completes once the traces that issued it have had their memory commits (R51).
DESIGN CHOICE, log 100. -/
def leaveEngine (c : CopyCmd) (n : Nat) (s : State) : State :=
  if isOpenCopy s c then modCopy c.id (fun x => { x with finished := true, acked := n }) s else completeCopy c n s

/-- COPY_COMMAND_COMPLETE: a command that is under way in a copy engine's queue, once it is not held, performs and completes (R51, R52, R229,
R232); one that waited for its trace's memory commit completes after it. -/
def execCopyCommandComplete (id : Nat) (s : State) : Host.Outcome State Fault Refusal :=
  match s.copies.find? fun c => c.id == id with
  | none => .next s
  | some c =>
    if c.finished then .next (if isOpenCopy s c then s else completeCopy c c.acked s)
    else if c.link || c.held || ! underWay s c then .next s
    else .next (leaveEngine c (deliveredBy c) (performCopy c s))

/-! ### Progress -/

/-- One step of a copy that is under way: it writes one byte more of what it has begun, or begins its next element, which it reads (R229,
R230, R235). -/
def copyStep (id : Nat) (s : State) : State :=
  match s.copies.find? fun c => c.id == id with
  | none => s
  | some c =>
    let bs := c.done.flatMap fun w => w.2.mapIdx fun i b => (w.1.at_ (i : Nat), b)
    match bs[c.written]? with
    | some (l, b) => modCopy id (fun x => { x with written := x.written + 1 }) (engWrite c.u c.pages l [b] s)
    | none =>
      if c.next < elemCount c then match elemWrite c c.next s with
        | none => s
        | some w => modCopy id (fun x => { x with done := x.done ++ [w], next := x.next + 1 }) s
      else s

/-- `n` steps of a copy. -/
def copySteps (id : Nat) : Nat → State → State
  | 0, s => s
  | n + 1, s => copySteps id n (copyStep id s)

/-- A byte that a copy is to write in memory, by a number. -/
def destByte (c : CopyCmd) (k : Nat) : Option Nat :=
  match c.kind, c.lanes with
  | .lanes n, ls => match ls[k % max ls.length 1]? with
    | some ⟨_, _, .mem va, _, _⟩ => if n = 0 then none else some (va + k / max ls.length 1 % n)
    | _ => none
  | .rect rows nb _, ⟨_, _, .mem va, _, st⟩ :: _ =>
    if nb = 0 ∨ rows = 0 then none else some (faddrOf (va + (k % rows : Nat) * st + (k / rows % nb : Nat)))
  | _, _ => none

/-- The core's L1 may hold a sector of a copy's destination that came before the bytes are written: by a free choice it has one more, so that
a load after the token alone may return old bytes (R77, R102, R387). DEDUCED, log 97. -/
def staleSector (c : CopyCmd) (s : State) : State :=
  let (n, s1) := takeNat s
  match destByte c (n / 2) with
  | none => s1
  | some va =>
    let pa := sectorOf (physOf c.pages va)
    let ctx := (unitOf s1 c.u).ctx
    if n % 2 = 0 ∨ s1.l1.any fun x => x.core == c.core && x.pa == pa then s1
    else match walk s1 ctx va with
      | .leaf b l => if sectorOf (l.pa + (va - b)) = pa then fetchSector c.core ctx (va / 32 * 32) pa l.scope s1 else s1
      | _ => s1

/-- The bytes of the scratchpad that a copy has read and is to write, with what stands there now. -/
def comingBytes (c : CopyCmd) (s : State) : List (Nat × Byte × Byte) :=
  let m := s.scr.get c.u {}
  ((c.done.flatMap fun w => w.2.mapIdx fun i b => (w.1.at_ (i : Nat), b.1)).drop c.written).filterMap fun p => match p.1 with
    | .scr off => some (off, m.read off, p.2)
    | _ => none

/-- The matrix engine may go on seeing, for another gang of the unit, what stood in the scratchpad before a copy's bytes: by a free choice for each
gang, until its XFENCE to MX (R75, R76, R79, R404). DEDUCED, log 97. -/
def stalePads (id : Nat) (s : State) : State :=
  match s.copies.find? fun c => c.id == id with
  | none => s
  | some c =>
    let new := comingBytes c s
    if new.isEmpty || ! (unitOf s c.u).matrix then s
    else
      let (n, s1) := takeNat s
      ((gangsIn s1 c.u).filter fun g => g != c.g && n.testBit g).foldl (fun s g =>
        modGang ⟨c.u, g⟩ (fun x => { x with mxOld := new ++ x.mxOld.filter fun e => ! new.any fun b => b.1 == e.1 }) s) s1

/-- The copies under way go on, each as far as a free choice says (R235, R412). DEDUCED, log 64. -/
def progressCopies (s : State) : State :=
  ((s.copies.filter fun c => ! c.link && ! c.held && ! c.finished && underWay s c)).foldl (fun s c =>
    let (n, s1) := takeNat (staleSector c s)
    stalePads c.id (copySteps c.id n s1)) s

/-! ### Link commands -/

/-- The route entry that a link command goes through, with its context (R365). -/
def routeEntry (c : CopyCmd) : Option Nat :=
  (c.lanes.filterMap fun x => match x.src, x.dst with
    | .far e _, _ => some e
    | _, .far e _ => some e
    | _, _ => none).head?

/-- The link that a command is to travel on: the lowest-numbered of its entry's links that is up (R366). -/
def linkFor (s : State) (c : CopyCmd) : Option Nat :=
  match routeEntry c with
  | none => none
  | some e => (List.range 12).find? fun l =>
      (((ctxOf s (unitOf s c.u).ctx).route.get e 0).getLsbD (34 + l)) && ((linkOf s l).state.up)

/-- A link command that is being performed, at the head of its queue (R52). -/
def linkRuns (s : State) (c : CopyCmd) : Bool := c.link && ! c.held && ! c.finished && isHeadCopy s c

/-- Link commands that come to be performed take their link, which they keep (R366). -/
def chooseLinks (s : State) : State :=
  { s with copies := s.copies.map fun c => if linkRuns s c && c.via.isNone then { c with via := linkFor s c } else c }

/-- Link commands take their link; one for which none is usable leaves the engine with no byte more delivered (R366). -/
def startLinks (s : State) : State :=
  let s1 := chooseLinks s
  (s1.copies.filter fun c => linkRuns s1 c && c.via.isNone).foldl (fun s c => leaveEngine c c.acked s) s1

/-- The parts that a link command carries, in order: each with its place of source and destination, its bytes, and the zeros that follow
(R229, R230). DEDUCED, log 33. -/
def linkParts (c : CopyCmd) : List (LaneCopy × Nat) :=
  match c.kind, c.lanes with
  | .lanes n, ls => ls.map fun l => (l, n - l.n)
  | .rect rows nb sst, l :: _ => (List.range rows).map fun (i : Nat) =>
      ({ l with src := l.src.at_ ((i : Int) * sst), dst := l.dst.at_ ((i : Int) * l.stride), n := nb }, 0)
  | _, _ => []

/-- The destinations of the bytes that a link command carries, in order. -/
def linkPlaces (c : CopyCmd) : List Loc := (linkParts c).flatMap fun p => (List.range p.1.n).map fun (i : Nat) => p.1.dst.at_ i

/-- The link command reads from the peer (R365). -/
def readsPeer (c : CopyCmd) : Bool := c.lanes.any fun x => x.src.isFar

/-- What some answered bytes of a peer write, from the first byte not answered before; a byte refused writes nothing (R366). -/
def landWrites (c : CopyCmd) (data : List (Option (Byte × Bool))) : List EngWr :=
  (((linkPlaces c).drop c.next).zip data).filterMap fun p => p.2.map fun b => (p.1, [b])

/-- The peer answers a command that a link carries: bytes that it has written, or bytes read, which land (R366). DEDUCED, log 33. -/
def landAnswer (c : CopyCmd) (n : Nat) (data : List (Option (Byte × Bool))) (s : State) : State :=
  let left := (linkPlaces c).length - c.next
  if readsPeer c then
    let ws := landWrites c data
    modCopy c.id (fun x => { x with next := x.next + min data.length left, acked := x.acked + ws.length, done := x.done ++ ws,
                                    written := x.written + ws.length })
      (ws.foldl (fun s w => engWrite c.u c.pages w.1 w.2 s) s)
  else modCopy c.id (fun x => { x with next := x.next + min n left, acked := x.acked + min n left }) s

/-- An answer that comes on a link is for the command that the link carries (R366). -/
def linkAnswer (l n : Nat) (data : List (Option (Byte × Bool))) (s : State) : State :=
  match s.copies.find? fun c => linkRuns s c && c.via == some l with
  | none => s
  | some c => landAnswer c n data s

/-- The zeros that a link command writes after its pieces, where they are local (R229, R366). DEDUCED, log 33. -/
def linkPads (c : CopyCmd) : List EngWr :=
  (linkParts c).filterMap fun p => if p.1.dst.isFar || p.2 = 0 then none else some (p.1.dst.at_ (p.1.n : Nat), List.replicate p.2 (0, false))

/-- LINK_COMMAND_COMPLETE: the last answers of the peer come for a link command, which completes with the bytes acknowledged; one without a
usable link completes with none (R229, R365, R366). DEDUCED, log 33. -/
def execLinkCommandComplete (id n : Nat) (data : List (Option (Byte × Bool))) (s : State) : Host.Outcome State Fault Refusal :=
  match (chooseLinks s).copies.find? fun c => c.id == id with
  | none => .next s
  | some c =>
    let s0 := chooseLinks s
    if c.finished then .next (if isOpenCopy s c then s else completeCopy c c.acked s)
    else if ! linkRuns s c then .next s
    else if c.via.isNone then .next (leaveEngine c c.acked s0)
    else
      let s1 := landAnswer c n data s0
      let c1 := (s1.copies.find? fun x => x.id == id).getD c
      .next (leaveEngine c1 c1.acked ((linkPads c).foldl (fun s w => engWrite c.u c.pages w.1 w.2 s) (writeRest c.u c.pages c1.written c1.done s1)))

end Sys2Proof.Machine
end

