-- ==== Sys2Proof/Machine/Matrix.lean ====
section
/-! DEFINITION. Matrix commands as they issue: their shapes, checks and places in the queue, reservation records, and the baton
(R240 to R250, R262, R265). -/

namespace Sys2Proof.Machine

/-! ### Shapes -/

/-- PAIRSIDE of a gang: 0 unpaired, 1 conditional, 2 unconditional (R241, R314). -/
def pairSide (s : State) (u g : Nat) : Nat := (bindOf s u g).pair

/-- The command is a co-operative pass (R254). -/
def MatKind.isCo : MatKind → Bool
  | .mma _ co => co
  | _ => false

/-- The command is a pass, whose K is limited (R249). -/
def MatKind.isPass : MatKind → Bool
  | .mma _ _ => true
  | .mmap _ _ => true
  | _ => false

/-- The pass reads B compressed (R252). -/
def MatKind.isSp : MatKind → Bool
  | .mma sp _ => sp
  | .mmap sp _ => sp
  | _ => false

/-- The command has a zero extent: it changes nothing and takes no engine cycle (R249). DEDUCED, log 53. -/
def MatCmd.isZero (c : MatCmd) : Bool :=
  match c.kind with
  | .mgath _ => false
  | .mspsel => c.k == 0 || c.n == 0
  | k => c.m == 0 || c.n == 0 || (k.isPass && c.k == 0)

/-- The command takes no engine cycle (R253, R262). -/
def MatCmd.isFree (c : MatCmd) : Bool :=
  c.isZero || (match c.kind with
    | .mgath _ => true
    | _ => false)

/-- row0 and col0 of an origin (R249). -/
def originOf (o : Nat) : Nat × Nat := (o % 512, o / 65536 % 512)

/-- The limits of row0 + M and col0 + N (R249). -/
def shapeLimits (s : State) (c : MatCmd) : Nat × Nat :=
  if c.kind.isCo then (192, 384) else if pairSide s c.u c.g ≠ 0 then (48, 192) else (96, 192)

/-- The shape of a command lies in its limits, from one lane's origin (R249). -/
def shapeOk (s : State) (c : MatCmd) (x : MatLane) : Bool :=
  match c.kind with
  | .mgath _ => true
  | .mspsel => true
  | k => decide ((originOf x.o).1 + c.m ≤ (shapeLimits s c).1) && decide ((originOf x.o).2 + c.n ≤ (shapeLimits s c).2)
      && (! k.isPass || decide (c.k ≤ 256))

/-- The tile's rows that fall into the bank of the command's core, each with its row there: all of them, or those of the core's quadrant,
as far as the half-bank of a paired gang reaches (R241, R251, R254). DEDUCED, log 99. -/
def bankRows (c : MatCmd) (o : Nat) : List (Nat × Nat) :=
  let q := if c.kind.isCo then 96 * (c.core % 4 / 2) else 0
  let top := if c.kind.isCo then q + (if c.half then 48 else 96) else 512
  ((List.range c.m).map fun i => (i, (originOf o).1 + i)).filterMap fun p =>
    if q ≤ p.2 ∧ p.2 < top then some (p.1, p.2 - q) else none

/-- The tile's columns that fall into the bank of the command's core, each with its column there. -/
def bankCols (c : MatCmd) (o : Nat) : List (Nat × Nat) :=
  let q := if c.kind.isCo then 192 * (c.core % 4 % 2) else 0
  let top := if c.kind.isCo then q + 192 else 512
  ((List.range c.n).map fun j => (j, (originOf o).2 + j)).filterMap fun p =>
    if q ≤ p.2 ∧ p.2 < top then some (p.1, p.2 - q) else none

/-- The rows of a command whose owner lanes lie in its performing set: the owner of a row is the lane of its number modulo 32 (R241, R249). -/
def ownRows (c : MatCmd) (o : Nat) : List (Nat × Nat) :=
  (bankRows c o).filter fun p => c.lanes.any fun x => x.l == p.2 % 32

/-! ### Records -/

/-- The lowest-numbered record of a unit that holds a byte of the operand buffer. -/
def recHolding (s : State) (u a : Nat) : Option (Nat × OpRec) :=
  (List.range 64).findSome? fun i => match s.oprecs.find? (clusterOf (unitOf s u).core, i) with
    | none => none
    | some rc => if rc.u = u ∧ (recRange rc.words).1 ≤ a ∧ a < (recRange rc.words).1 + (recRange rc.words).2 then some (i, rc) else none

/-- PITCH of the record that holds a byte (R245). DEDUCED, log 52. -/
def pitchAt (s : State) (u a : Nat) : Nat := ((recHolding s u a).map fun p => p.2.words.getD 3 1).getD 1

/-- The records that together hold `n` bytes from `a`, or the first byte that none holds; `fuel` records at most are met. -/
def covers (s : State) (u : Nat) : Nat → Nat → Nat → List Nat → Except Nat (List Nat)
  | 0, a, n, acc => if n = 0 then .ok acc else .error a
  | fuel + 1, a, n, acc =>
    if n = 0 then .ok acc
    else match recHolding s u a with
      | none => .error a
      | some (i, rc) =>
        let m := min n ((recRange rc.words).1 + (recRange rc.words).2 - a)
        covers s u fuel (a + m) (n - m) (if acc.contains i then acc else acc ++ [i])

/-- Check ranges of the operand buffer: the records that hold them, or LEASE (R249). -/
def checkOb (s : State) (u wa : Nat) (rs : List (Nat × Nat)) : Except Flt (List Nat) :=
  rs.foldl (fun acc p => match acc with
    | .error f => .error f
    | .ok l => match covers s u 65 p.1 p.2 l with
      | .ok l' => .ok l'
      | .error a => .error ⟨.lease, 3, a, 0, wa⟩) (.ok [])

/-! ### Checks at issue -/

/-- Groups of four k values (R252). -/
def quads (k : Nat) : Nat := (k + 3) / 4

/-- The columns of B that a pass reads, those of its core's quadrant where it is co-operative: the first, and how many (R251, R254). -/
def bCols (c : MatCmd) (x : MatLane) : Nat × Nat :=
  let js := (bankCols c x.o).map (·.1)
  (js.headD 0, js.length)

/-- The ranges of B that a pass reads (R251, R252, R254). -/
def bRanges (c : MatCmd) (x : MatLane) : List (Nat × Nat) :=
  let (j, n) := bCols c x
  if n = 0 then []
  else (List.range (if c.kind.isSp then 2 * quads c.k else c.k)).map fun k => (x.b + 2 * (k * x.pb + j), 2 * n)

/-- The ranges of metadata of a K × N region at x (R252). -/
def xRanges (c : MatCmd) (x : MatLane) : List (Nat × Nat) :=
  (List.range (quads c.k)).map fun q => (x.x + q * x.px / 2, (q * x.px + c.n - 1) / 2 - q * x.px / 2 + 1)

/-- An odd offset of BF16 data (R249). -/
def oddFault (wa a : Nat) : Option Flt := if a % 2 = 1 then some ⟨.align, 0, a, 0, wa⟩ else none

/-- Check a list of ranges of a command's memory side, and gather the pages (R249). -/
def checkMem (r : LaneRef) (sp : GS) (k : Acc) (align wa : Nat) (rs : List (Int × Nat)) (s : State) : Except Flt (Map Nat Nat) × State :=
  rs.foldl (fun (acc : Except Flt (Map Nat Nat) × State) p =>
    match acc with
    | (.error f, s) => (.error f, s)
    | (.ok ps, s) =>
      if p.1 % (align : Int) ≠ 0 then (.error ⟨.align, 0, faddrOf p.1, 0, wa⟩, s)
      else match checkRange r sp p.1 p.2 k true wa s with
        | (.ok qs, s') => (.ok (ps ++ qs), s')
        | (.error f, s') => (.error f, s')) (.ok [], s)

/-- The rows of a tile in memory: element (i, 0) stands at a + i × S (R258). -/
def tileRanges (c : MatCmd) (x : MatLane) (w : Nat) (stride : Int) : List (Int × Nat) :=
  (ownRows c x.o).map fun p => ((x.a : Int) + p.1 * stride, c.n * w)

/-- The ranges that an SPST touches: its header, and the entries that it may write (R260). -/
def spstRanges (c : MatCmd) (x : MatLane) (count bound : Nat) : List (Int × Nat) :=
  let top := min bound (c.m * c.n)
  [((x.a : Int), 8)] ++ (if count < top then [((x.a : Int) + 16 + 8 * count, 8 * (top - count))] else [])

/-- Bytes of an element (R258). -/
def elemW (bf : Bool) : Nat := if bf then 2 else 4

/-- The checks of one lane's scalar operands (R249): the records and pages that the command uses, or the fault. -/
def checkScalars (c : MatCmd) (r : LaneRef) (x : MatLane) (wa : Nat) (s : State) : Except Flt (List Nat × Map Nat Nat) × State :=
  let shape : Flt := ⟨.illopnd, 0, 0, 0, wa⟩
  let ob := fun (odd : List Nat) (rs : List (Nat × Nat)) => match odd.findSome? (oddFault wa) with
    | some f => (Except.error f : Except Flt (List Nat × Map Nat Nat))
    | none => (checkOb s c.u wa rs).map fun l => (l, [])
  let mem := fun (sp : GS) (k : Acc) (al : Nat) (rs : List (Int × Nat)) => match checkMem r sp k al wa rs s with
    | (.ok ps, s1) => ((Except.ok ([], ps) : Except Flt (List Nat × Map Nat Nat)), s1)
    | (.error f, s1) => (.error f, s1)
  match c.kind with
  | .mmap _ _ =>
    if pairSide s c.u c.g = 0 then (.error shape, s)
    else if c.isZero then (.ok ([], []), s)
    else if ! shapeOk s c x then (.error shape, s)
    else (ob [x.b] (bRanges c x ++ if c.kind.isSp then xRanges c x else []), s)
  | .mma _ _ =>
    if c.isZero then (.ok ([], []), s)
    else if ! shapeOk s c x then (.error shape, s)
    else (ob [x.b] (bRanges c x ++ if c.kind.isSp then xRanges c x else []), s)
  | .guide _ => if pairSide s c.u c.g ≠ 1 ∨ (! c.isZero && ! shapeOk s c x) then (.error shape, s) else (.ok ([], []), s)
  | .mzero => if ! c.isZero && ! shapeOk s c x then (.error shape, s) else (.ok ([], []), s)
  | .mst sp bf st =>
    if c.isZero then (.ok ([], []), s)
    else if ! shapeOk s c x then (.error shape, s) else mem sp .write (elemW bf) (tileRanges c x (elemW bf) st)
  | .mld sp bf st =>
    if c.isZero then (.ok ([], []), s)
    else if ! shapeOk s c x then (.error shape, s) else mem sp .read (elemW bf) (tileRanges c x (elemW bf) st)
  | .mspsel =>
    if c.isZero then (.ok ([], []), s)
    else (ob [x.a, x.b] (((List.range c.k).map fun k => (x.a + 2 * (k * x.pa), 2 * c.n))
      ++ ((List.range (2 * quads c.k)).map fun k => (x.b + 2 * (k * x.pb), 2 * c.n)) ++ xRanges c x), s)
  | .spst sp count bound =>
    if c.isZero then (.ok ([], []), s)
    else if ! shapeOk s c x then (.error shape, s) else mem sp .write 1 (spstRanges c x count bound)
  | .mgath _ => (.ok ([], []), s)

/-- Every offset that a gang's row-list entry may hold when a command issued now is performed (R249). -/
def rowOffsets (s : State) (u g r : Nat) : List Nat :=
  ((gangOf s ⟨u, g⟩).rows.find? r).toList
    ++ (s.mats.filter fun c => c.u == u && c.g == g).flatMap fun c => match c.kind with
      | .mgath p => (c.lanes.filter fun x => 32 * p + x.l == r).map (·.a)
      | _ => []

/-- The fault of one offset of an A row (R249). -/
def rowFault (s : State) (u wa k off : Nat) : Option Flt :=
  match oddFault wa off with
  | some f => some f
  | none =>
    let size := (bindOf s u 0).scrSize * 1024
    if off + 2 * k ≤ size then none else some ⟨.lease, 3, max off size, 0, wa⟩

/-- The faults of the A rows of a pass from one lane's origin, each with the owner lane that holds it (R249). -/
def rowFaults (c : MatCmd) (wa : Nat) (o : Nat) (s : State) : List (LaneRef × Flt) :=
  if ! c.kind.isPass || c.isZero then []
  else (ownRows c o).filterMap fun p =>
    ((rowOffsets s c.u c.g p.2).findSome? (rowFault s c.u wa c.k)).map fun f => (⟨c.u, c.g, p.2 % 32, false⟩, f)

/-- The lanes whose scalar operands are checked: every issuing one before SETTLE, the lowest after it (R249). -/
def suppliersOf (c : MatCmd) (settled : Bool) : List MatLane := if settled then c.lanes.take 1 else c.lanes

/-- All checks of a command: faults in ascending order of the lanes, records, and pages (R249). DEDUCED, log 53. -/
def checkMat (iss : Issue) (c : MatCmd) (settled : Bool) (wa : Nat) (s : State) :
    List (LaneRef × Flt) × List Nat × Map Nat Nat × State :=
  (suppliersOf c settled).foldl (fun acc x =>
    let (fs, rs, ps, s) := acc
    let r : LaneRef := ⟨c.u, c.g, x.l, iss.h⟩
    match checkScalars c r x wa s with
    | (.error f, s1) => (fs ++ (if settled then (issueLanes s1 iss).map fun q => (q, f) else [(r, f)]), rs, ps, s1)
    | (.ok (l, qs), s1) => (fs ++ rowFaults c wa x.o s1, (rs ++ l).dedup, ps ++ qs, s1)) ([], [], [], s)

/-- A command of the issue in hand, before its checks. -/
def newMat (iss : Issue) (kind : MatKind) (lanes : List MatLane) (m n k : Nat) (settled : Bool) (s : State) : MatCmd :=
  { id := 0, core := (unitOf s iss.u).core, u := iss.u, g := iss.g, kind := kind, lanes := lanes, m := m, n := n, k := k, recs := [],
    pages := [], hold := if settled then [] else iss.js, pass := [], held := ! settled, table := false, since := none, performed := false,
    alone := false, half := pairSide s iss.u iss.g != 0, js := iss.js, insts := instsOf s iss }

/-- Put a command into its core's queue (R262): its number. -/
def enqueueMat (c : MatCmd) (s : State) : Nat × State :=
  let (id, s1) := takeFresh s
  (id, { s1 with mats := s1.mats ++ [{ c with id := id }] })

/-- Issue an asynchronous command: before SETTLE its faults are held and it waits for the settlement, after it they end the unit
(R39, R40, R51, R249, R262). -/
def issueAsync (iss : Issue) (mk : State → MatCmd) (s : State) : State :=
  let settled := isSettled s iss
  let s1 := if settled then commit iss s else s
  let wa := wordAddr (headThread s1 iss)
  let c := mk s1
  let (fs, rs, ps, s2) := checkMat iss c settled wa s1
  if settled && ! fs.isEmpty then settledFault iss fs s2
  else
    let s3 := fs.foldl (fun s p => holdFault p.1 p.2 s) s2
    advance iss (enqueueMat { c with recs := rs, pages := ps } s3).2

/-- Issue a synchronous command and wait for it; when it has completed, go on with its status (R40, R262). -/
def issueSync (iss : Issue) (mk : State → MatCmd) (done : Nat → State → State) (s : State) : State :=
  match waitOf s iss with
  | .cmd _ => s
  | .done v => advance iss (done v s)
  | _ =>
    let s1 := commit iss s
    let c := mk s1
    let (fs, rs, ps, s2) := checkMat iss c true (wordAddr (headThread s1 iss)) s1
    if ! fs.isEmpty then settledFault iss fs s2
    else
      let (id, s3) := enqueueMat { c with recs := rs, pages := ps } s2
      block iss (.cmd id) s3

/-- The lanes of an issue with the scalar operands that each would supply. -/
def matLanes (s : State) (iss : Issue) (f : LaneRef → MatLane) : List MatLane := (issueLanes s iss).map f

/-- A gang register as a number, read at issue (R249). -/
def gNat (s : State) (iss : Issue) (n : BitVec 6) : Nat := (greg s iss.gang n.toNat).toNat

/-- A 32-bit source as a number. -/
def srcNat (s : State) (r : LaneRef) (o : Opnd) : Nat := (src32 s r .int o).toNat

/-- The 32-bit gang registers that operands read. -/
def words32 (os : List Opnd) : List Nat := gangRegs (os.map fun o => (o, 1))

/-! ### The asynchronous commands -/

/-- MGATH (R250). -/
def execMgath (p : RowPart) (a : Opnd) (s : State) : Host.Outcome State Fault Refusal :=
  withIssue (words32 [a]) [] s fun iss s =>
    issueAsync iss (fun s => newMat iss (.mgath p.bits.toNat) (matLanes s iss fun r => { l := r.l, a := srcNat s r a }) 0 0 0
      (isSettled s iss) s) s

/-- A pass of the issue in hand. -/
def newPass (iss : Issue) (kind : MatKind) (x b o : Opnd) (ga gb gc : BitVec 6) (s : State) : MatCmd :=
  newMat iss kind (matLanes s iss fun r =>
    { l := r.l, o := srcNat s r o, b := srcNat s r b, x := srcNat s r x,
      pb := pitchAt s iss.u (srcNat s r b), px := pitchAt s iss.u (srcNat s r x) }) (gNat s iss ga) (gNat s iss gb) (gNat s iss gc)
    (isSettled s iss) s

/-- MMA (R251, R252, R254). -/
def execMma (sp co : Bool) (x b o : Opnd) (ga gb gc : BitVec 6) (s : State) : Host.Outcome State Fault Refusal :=
  withIssue (words32 ([b, o] ++ if sp || co then [x] else []) ++ [ga.toNat, gb.toNat, gc.toNat]) [] s fun iss s =>
    issueAsync iss (newPass iss (.mma sp co) x b o ga gb gc) s

/-- MMAP (R255). -/
def execMmap (sp : Bool) (t : BitVec 8) (x b o : Opnd) (ga gb gc : BitVec 6) (s : State) : Host.Outcome State Fault Refusal :=
  withIssue (words32 ([b, o] ++ if sp then [x] else []) ++ [ga.toNat, gb.toNat, gc.toNat]) [] s fun iss s =>
    issueAsync iss (newPass iss (.mmap sp t.toNat) x b o ga gb gc) s

/-- A command on a tile of accumulators. -/
def newTile (iss : Issue) (kind : MatKind) (o : Opnd) (ga gb : BitVec 6) (settled : Bool) (s : State) : MatCmd :=
  newMat iss kind (matLanes s iss fun r => { l := r.l, o := srcNat s r o }) (gNat s iss ga) (gNat s iss gb) 0 settled s

/-- MZERO (R258). -/
def execMzero (o : Opnd) (ga gb : BitVec 6) (s : State) : Host.Outcome State Fault Refusal :=
  withIssue (words32 [o] ++ [ga.toNat, gb.toNat]) [] s fun iss s =>
    issueAsync iss (fun s => newTile iss .mzero o ga gb (isSettled s iss) s) s

/-! ### The synchronous commands -/

/-- GUIDE (R257). -/
def execGuide (d o : Opnd) (ga gb gc : BitVec 6) (s : State) : Host.Outcome State Fault Refusal :=
  withIssue (words32 [o] ++ [ga.toNat, gb.toNat, gc.toNat]) (gangRegs [(d, 1)]) s fun iss s =>
    issueSync iss (fun s => newTile iss (.guide (greg s iss.gang gc.toNat)) o ga gb true s)
      (fun v s => deliver iss d ((issueLanes s iss).map fun r => (r, res32 (BitVec.ofNat 32 v))) 1 s) s

/-- A command that moves a tile to or from memory. -/
def newMove (iss : Issue) (kind : MatKind) (sp : GS) (a o : Opnd) (ga gb : BitVec 6) (s : State) : MatCmd :=
  newMat iss kind (matLanes s iss fun r => { l := r.l, o := srcNat s r o, a := (addrIn s r sp a).toNat }) (gNat s iss ga) (gNat s iss gb) 0
    true s

/-- MST (R258). -/
def execMst (sp : GS) (bf : Bool) (_hint : Hint) (a o : Opnd) (ga gb gc : BitVec 6) (s : State) : Host.Outcome State Fault Refusal :=
  withIssue (addrGregs sp a ++ words32 [o] ++ [ga.toNat, gb.toNat, gc.toNat]) [] s fun iss s =>
    issueSync iss (fun s => newMove iss (.mst sp bf (greg s iss.gang gc.toNat).toInt) sp a o ga gb s) (fun _ s => s) s

/-- MLD (R258). -/
def execMld (sp : GS) (bf : Bool) (_hint : Hint) (a o : Opnd) (ga gb gc : BitVec 6) (s : State) : Host.Outcome State Fault Refusal :=
  withIssue (addrGregs sp a ++ words32 [o] ++ [ga.toNat, gb.toNat, gc.toNat]) [] s fun iss s =>
    issueSync iss (fun s => newMove iss (.mld sp bf (greg s iss.gang gc.toNat).toInt) sp a o ga gb s) (fun _ s => s) s

/-- MSPSEL (R259). -/
def execMspsel (d a x : Opnd) (ga gb : BitVec 6) (s : State) : Host.Outcome State Fault Refusal :=
  withIssue (words32 [d, a, x] ++ [ga.toNat, gb.toNat]) [] s fun iss s =>
    issueSync iss (fun s => newMat iss .mspsel (matLanes s iss fun r =>
      { l := r.l, b := srcNat s r d, x := srcNat s r x, a := srcNat s r a, pb := pitchAt s iss.u (srcNat s r d),
        px := pitchAt s iss.u (srcNat s r x), pa := pitchAt s iss.u (srcNat s r a) }) 0 (gNat s iss gb) (gNat s iss ga) true s)
      (fun _ s => s) s

/-- The header of a sparse store as it stands: bound, count, and whether it is poisoned; nothing where it does not translate (R260). -/
def spstHeader (iss : Issue) (sp : GS) (a : Opnd) (s : State) : (Nat × Nat) × Bool :=
  match issueLanes s iss with
  | [] => ((0, 0), false)
  | r :: _ =>
    let x := (addrIn s r sp a)
    match checkRange r sp x 8 .read true 0 s with
    | (.ok ps, s1) =>
      let bs := engRead iss.u ps (locOf sp x) 8 s1
      ((leNat ((bs.take 4).map (·.1)), leNat ((bs.drop 4).map (·.1))), bs.any (·.2))
    | (.error _, _) => ((0, 0), false)

/-- SPST (R260, R261): its starting entry is the header's count at issue, after the trace's memory commit (R36). -/
def execSpst (sp : GS) (_hint : Hint) (a o : Opnd) (ga gb : BitVec 6) (s : State) : Host.Outcome State Fault Refusal :=
  withIssue (addrGregs sp a ++ words32 [o] ++ [ga.toNat, gb.toNat]) [] s fun iss s =>
    match waitOf s iss with
    | .stopped _ => s
    | .cmd _ => s
    | .done _ => advance iss s
    | _ =>
      let s1 := commit iss s
      let ((bound, count), bad) := spstHeader iss sp a s1
      if bad then settledFault iss ((issueLanes s1 iss).map fun r => (r, ⟨.poison, 0, 0, 0, wordAddr (headThread s1 iss)⟩)) s1
      else issueSync iss (fun s => newMove iss (.spst sp count bound) sp a o ga gb s) (fun _ s => s) s1

/-! ### Reservation records -/

/-- A record description is valid (R245). -/
def descValid (d : List Nat) : Bool :=
  let w := d.getD 0 0
  let f := bitsOf w 8 3
  let blk := bitsOf w 12 2
  let bl := descBlk d
  bitsOf w 6 2 == 0 && bitsOf w 11 1 == 0 && bitsOf w 14 2 == 0 && bitsOf w 18 14 == 0 && decide (f ≤ 4) && (decide (f < 3) || decide (blk ≤ 2))
    && d.getD 1 0 % 64 == 0 && d.getD 2 0 % 64 == 0 && d.getD 2 0 != 0 && decide (d.getD 1 0 + d.getD 2 0 ≤ Config.opbufBytes)
    && d.getD 3 0 != 0 && d.getD 4 0 != 0 && (decide (f < 3) || d.getD 4 0 % bl == 0) && d.getD 7 0 == 0

/-- Two ranges of the operand buffer share a byte. -/
def rangesMeet (a b : Nat × Nat) : Bool := decide (a.1 < b.1 + b.2) && decide (b.1 < a.1 + a.2)

/-- What ORSV finds (R246): the status. -/
def orsvStatus (s : State) (u : Nat) (d : List Nat) : Nat :=
  let cl := clusterOf (unitOf s u).core
  if ! descValid d then 3
  else if (s.oprecs.find? (cl, d.getD 0 0 % 64)).any fun r => r.u != u then 1
  else if s.oprecs.any fun p => p.1.1 == cl && p.2.u != u && rangesMeet (recRange p.2.words) (recRange d) then 2
  else 0

/-- A status that an instruction writes once for each issue, with gang-wide effect (R246). -/
def deliverStatus (iss : Issue) (d : Opnd) (v : Nat) (s : State) : State :=
  deliver iss d ((issueLanes s iss).map fun r => (r, res32 (BitVec.ofNat 32 v))) 1 s

/-- ORSV (R245, R246). DESIGN CHOICE, log 3. -/
def execOrsv (d : Opnd) (ga : BitVec 6) (s : State) : Host.Outcome State Fault Refusal :=
  withIssue ((List.range 8).map fun i => (ga.toNat + i) % 64) (gangRegs [(d, 1)]) s fun iss s =>
    let s1 := commit iss s
    let desc := (List.range 8).map fun i => (greg s1 iss.gang ((ga.toNat + i) % 64)).toNat
    let st := orsvStatus s1 iss.u desc
    let s2 := if st = 0 then { s1 with oprecs := s1.oprecs.set (clusterOf (unitOf s1 iss.u).core, desc.getD 0 0 % 64) ⟨iss.u, desc⟩ }
      else s1
    advance iss (deliverStatus iss d st s2)

/-- An uncompleted command of the unit names the record (R246). -/
def recordInUse (s : State) (u num : Nat) : Bool :=
  ((allCopies s).any fun c => c.u == u && (match c.kind with
    | .conv n _ _ => n == num
    | _ => false))
  || (allMats s).any fun c => c.u == u && c.recs.contains num

/-- The gang's matrix commands that an ORLS still waits for: those that were uncompleted when it issued (R262, R263). -/
def earlierMats (iss : Issue) (s : State) : List Nat :=
  let mine := ((allMats s).filter fun c => c.u == iss.u && c.g == iss.g).map (·.id)
  match waitOf s iss with
  | .fence ids => ids.filter mine.contains
  | _ => mine

/-- ORLS waits for the gang's earlier commands, as a synchronous command, and for those of the unit that name the record, and releases it
(R246, R262, R263). -/
def execOrls (d : Opnd) (ga : BitVec 6) (s : State) : Host.Outcome State Fault Refusal :=
  withIssue [ga.toNat] (gangRegs [(d, 1)]) s fun iss s =>
    let s1 := commit iss s
    let num := (greg s1 iss.gang ga.toNat).toNat % 64
    let key := (clusterOf (unitOf s1 iss.u).core, num)
    let held := (s1.oprecs.find? key).any fun rc => rc.u == iss.u
    let left := earlierMats iss s1
    if ! left.isEmpty || (held && recordInUse s1 iss.u num) then block iss (.fence left) s1
    else if held then advance iss (deliverStatus iss d 1 { s1 with oprecs := s1.oprecs.erase key })
    else advance iss (deliverStatus iss d 0 s1)

/-! ### The baton -/

/-- MCLAIM (R265): the gang asks for its cluster's baton, once, and waits until it holds it. -/
def execMclaim (s : State) : Host.Outcome State Fault Refusal :=
  withIssue [] [] s fun iss s =>
    let s1 := commit iss s
    let cl := clusterOf (unitOf s1 iss.u).core
    let asked := if s1.baton.find? cl = some iss.gang ∨ s1.batonq.contains (cl, iss.gang) then s1
      else { s1 with batonq := s1.batonq ++ [(cl, iss.gang)] }
    let s2 := if (asked.baton.find? cl).isNone then giveBaton cl asked else asked
    if s2.baton.find? cl = some iss.gang then advance iss s2 else block iss .baton s2

/-- MPASS (R265). DEDUCED, log 51. -/
def execMpass (ga : BitVec 6) (s : State) : Host.Outcome State Fault Refusal :=
  withIssue [ga.toNat] [] s fun iss s =>
    let s1 := commit iss s
    let cl := clusterOf (unitOf s1 iss.u).core
    let t := (greg s1 iss.gang ga.toNat).toNat
    advance iss (
      if s1.baton.find? cl ≠ some iss.gang then s1
      else if t < (unitOf s1 iss.u).binds.length ∧ gangLive s1 iss.u t then
        { s1 with baton := s1.baton.set cl ⟨iss.u, t⟩, batonq := s1.batonq.filter fun p => ! (p.1 == cl && p.2 == ⟨iss.u, t⟩) }
      else freeBaton cl s1)

end Sys2Proof.Machine
end

