-- ==== Sys2Proof/Machine/Engine.lean ====
section
/-! DEFINITION. The engines at work: resolving held commands, the reservation table, pair and co-operative matches, arbitration, the
passes and the other matrix commands as they are performed and complete (R51, R240 to R266, R347). -/

namespace Sys2Proof.Machine

/-! ### The bank -/

/-- An element of a unit's bank. -/
def accAt (s : State) (u r n : Nat) : Nat := (s.acc.get (u, r, n) 0).toNat

/-- Write an element; `p` says that it is poisoned. -/
def setAcc (u r n : Nat) (v : Nat) (p : Bool) (s : State) : State :=
  { s with acc := s.acc.set (u, r, n) (BitVec.ofNat 32 v),
           accpoi := if p then s.accpoi.insert (u, r, n) else s.accpoi.filter (· != (u, r, n)) }

/-- The bank row of a command's row: half-bank 1 belongs to the unconditional gangs, whatever the command (R241). -/
def bankRow (s : State) (c : MatCmd) (r : Nat) : Nat := if pairSide s c.u c.g = 2 then 48 + r else r

/-- The pass counter of a bank row rises, saturating (R242). -/
def countPass (u r : Nat) (s : State) : State :=
  { s with passes := s.passes.modify (u, r) 0 fun n => min (n + 1) 0xFFFFFFFF }

/-- The scalar operands of a command: those of its lowest lane (R249). -/
def MatCmd.scalars (c : MatCmd) : MatLane := c.lanes.headD { l := 0 }

/-- A BF16 value of the operand buffer. -/
def obHalf (s : State) (u a : Nat) : Nat × Bool :=
  let x := obByte s u a
  let y := obByte s u (a + 1)
  (x.1.toNat + 256 * y.1.toNat, x.2 || y.2)

/-- A byte of the scratchpad as the matrix engine sees it for a command's gang: the old byte where it has not seen a copy's yet (R75, R79). -/
def padByte (s : State) (c : MatCmd) (a : Nat) : Byte :=
  let b := (s.scr.get c.u {}).read a
  match (gangOf s ⟨c.u, c.g⟩).mxOld.find? fun e => e.1 == a && e.2.2 == b with
  | some e => e.2.1
  | none => b

/-- A BF16 value of a unit's scratchpad, for a command. -/
def scHalf (s : State) (c : MatCmd) (a : Nat) : Nat × Bool :=
  ((padByte s c a).toNat + 256 * (padByte s c (a + 1)).toNat, s.scrpoi.contains (c.u, a / 4 * 4) || s.scrpoi.contains (c.u, (a + 1) / 4 * 4))

/-- Bytes as a matrix command reads them. -/
def mxRead (c : MatCmd) (l : Loc) (n : Nat) (s : State) : List (Byte × Bool) :=
  match l with
  | .scr off => (engRead c.u c.pages l n s).mapIdx fun i b => (padByte s c (off + i), b.2)
  | _ => engRead c.u c.pages l n s

/-! ### Passes -/

/-- The A row of a row of the issuing gang: K values, zeros where its entry is not set (R250). -/
def aRow (s : State) (c : MatCmd) (r : Nat) : List (Val × Bool) :=
  match (gangOf s ⟨c.u, c.g⟩).rows.find? r with
  | none => List.replicate c.k (.num false 0 0, false)
  | some off => (List.range c.k).map fun k => let (v, p) := scHalf s c (off + 2 * k); (bfloat16.read false v, p)

/-- The metadata nibble of column j and group q (R252). -/
def nibbleAt (s : State) (u x px q j : Nat) : Nat × Bool :=
  let i := q * px + j
  let (b, p) := obByte s u (x + i / 2)
  (if i % 2 = 0 then b.toNat % 16 else b.toNat / 16, p)

/-- Logical B(k) of column j (R251, R252). -/
def bAt (s : State) (c : MatCmd) (j k : Nat) : Val × Bool :=
  let x := c.scalars
  if c.kind.isSp then
    let (nb, np) := nibbleAt s c.u x.x x.px (k / 4) j
    let (v0, p0) := obHalf s c.u (x.b + 2 * ((2 * (k / 4)) * x.pb + j))
    let (v1, p1) := obHalf s c.u (x.b + 2 * ((2 * (k / 4) + 1) * x.pb + j))
    let h0 := nb % 4 == k % 4
    let h1 := nb / 4 == k % 4
    (if h0 && h1 then (bfloat16.read false v0).add .rn (bfloat16.read false v1)
     else if h0 then bfloat16.read false v0 else if h1 then bfloat16.read false v1 else .num false 0 0, np || p0 || p1)
  else let (v, p) := obHalf s c.u (x.b + 2 * (k * x.pb + j)); (bfloat16.read false v, p)

/-- The B column j: K values. -/
def bCol (s : State) (c : MatCmd) (j : Nat) : List (Val × Bool) := (List.range c.k).map (bAt s c j)

/-- The exact sum of a group of products, which starts from the first (R251). -/
def groupSum : List Val → Val
  | [] => .num true 0 0
  | v :: vs => vs.foldl (fun a b => a.add .rn b) v

/-- An accumulator after the groups of eight products of a pass, each sum rounded once into it; `fuel` groups are left (R251). -/
def accumulate : Nat → List Val → Nat → Nat
  | 0, _, acc => acc
  | fuel + 1, ps, acc =>
    match ps with
    | [] => acc
    | _ => accumulate fuel (ps.drop 8) (binary32.out .rn false ((binary32.read false acc).add .rn (groupSum (ps.take 8))))

/-- The new value of an element of a pass, and whether a value of its sum is poisoned (R251, R347). -/
def passElem (a b : List (Val × Bool)) (acc : Nat) : Nat × Bool :=
  (accumulate ((a.length + 7) / 8) (List.zipWith (fun x y => x.1.mul y.1) a b) acc, a.any (·.2) || b.any (·.2))

/-- Perform one pass over the rows of the performing set; where the tile has no column in the bank, no row is updated and no counter rises
(R242, R251, R252, R254). -/
def performPass (c : MatCmd) (s : State) : State :=
  let o := c.scalars.o
  let cols := (bankCols c o).map fun p => (p.2, bCol s c p.1)
  if cols.isEmpty then s
  else (ownRows c o).foldl (fun s1 p =>
    let r := bankRow s c p.2
    let a := aRow s c p.2
    countPass c.u r (cols.foldl (fun s2 q =>
      let (v, bad) := passElem a q.2 (accAt s2 c.u r q.1)
      setAcc c.u r q.1 v (bad || s2.accpoi.contains (c.u, r, q.1)) s2) s1)) s

/-! ### The other commands -/

/-- An element of a tile read from an accumulator, for MST (R258). -/
def stElem (bf : Bool) (v : Nat) : List Byte :=
  if bf then leBytes 2 (bfloat16.out .rn false (binary32.read false v)) else leBytes 4 v

/-- An element of memory as MLD takes it (R258). -/
def ldElem (bf : Bool) (bs : List Byte) : Nat :=
  if bf then binary32.out .rn false (bfloat16.read false (leNat bs)) else leNat bs

/-- MZERO, MST and MLD on each row of the performing set (R258, R347). DEDUCED, log 51. -/
def performTile (c : MatCmd) (s : State) : State :=
  let x := c.scalars
  (ownRows c x.o).foldl (fun s p =>
    let r := bankRow s c p.2
    let cell := fun (sp : GS) (stride : Int) (w : Nat) (j : Nat) => (locOf sp ((x.a : Int) + p.1 * stride)).at_ (j * w : Nat)
    match c.kind with
    | .mzero =>
      let s1 := (bankCols c x.o).foldl (fun s q => setAcc c.u r q.2 0 false s) s
      { s1 with passes := s1.passes.set (c.u, r) 0 }
    | .mst sp bf st => (bankCols c x.o).foldl (fun s q =>
        engWrite c.u c.pages (cell sp st (elemW bf) q.1)
          ((stElem bf (accAt s c.u r q.2)).map fun b => (b, s.accpoi.contains (c.u, r, q.2))) s) s
    | .mld sp bf st =>
      let s1 := (bankCols c x.o).foldl (fun s q =>
        let bs := mxRead c (cell sp st (elemW bf) q.1) (elemW bf) s
        setAcc c.u r q.2 (ldElem bf (bs.map (·.1))) (bs.any (·.2)) s) s
      { s1 with passes := s1.passes.set (c.u, r) 0 }
    | _ => s) s

/-- What a GUIDE finds on its rows: each guided element with its new value, and the count of rows that it leaves (R257). -/
def guideRows (c : MatCmd) (w : Word) (s : State) : Nat × State :=
  let o := c.scalars.o
  (ownRows c o).foldl (fun acc p =>
    let (n, s) := acc
    if s.passes.get (c.u, p.2) 0 ≠ s.passes.get (c.u, 48 + p.2) 0 then (n + 1, s)
    else (n, (bankCols c o).foldl (fun s q =>
      let u := accAt s c.u (48 + p.2) q.2
      let dd := binary32.subF .rn false (accAt s c.u p.2 q.2) u
      setAcc c.u p.2 q.2 (binary32.fmaF .rn false w.toNat dd u) false s) s)) (0, s)

/-- A GUIDE reads a poisoned element (R347). -/
def guidePoisoned (c : MatCmd) (s : State) : Bool :=
  (ownRows c c.scalars.o).any fun p => s.passes.get (c.u, p.2) 0 == s.passes.get (c.u, 48 + p.2) 0 &&
    (bankCols c c.scalars.o).any fun q => s.accpoi.contains (c.u, p.2, q.2) || s.accpoi.contains (c.u, 48 + p.2, q.2)

/-- The partner gang of a gang of a pair (R255, R328). -/
def partnerOf (g : Nat) : Nat := if g % 2 = 0 then g + 1 else g - 1

/-- Perform a GUIDE: the rows, the pair-solo bits, and the status (R257). -/
def performGuide (c : MatCmd) (w : Word) (s : State) : Nat × State :=
  let (n, s1) := if c.isZero then (0, s) else guideRows c w s
  let solo := (gangOf s1 ⟨c.u, c.g⟩).solo || (gangOf s1 ⟨c.u, partnerOf c.g⟩).solo
  (n + (if solo then 65536 else 0),
    modGang ⟨c.u, c.g⟩ (fun g => { g with solo := false }) (modGang ⟨c.u, partnerOf c.g⟩ (fun g => { g with solo := false }) s1))

/-- The magnitude that orders BF16 values for selection: a NaN is the greatest (R259). -/
def selKey (v : Nat) : Nat := if 0x7F80 < v % 0x8000 then 0x8000 else v % 0x8000

/-- The two offsets of four values that are kept, the lower first (R259). -/
def selPair (vs : List Nat) : Nat × Nat :=
  let best := fun (ks : List Nat) => ks.foldl (fun b k => if selKey (vs.getD b 0) < selKey (vs.getD k 0) then k else b) (ks.headD 0)
  let i := best [0, 1, 2, 3]
  let j := best ([0, 1, 2, 3].filter (· != i))
  (min i j, max i j)

/-- What an MSPSEL reads: for each group and column, the four values, and whether one is poisoned (R259). -/
def selReads (c : MatCmd) (s : State) : List (Nat × Nat × List (Nat × Bool)) :=
  let x := c.scalars
  (List.range (quads c.k)).flatMap fun q => (List.range c.n).map fun j =>
    (q, j, (List.range 4).map fun t => if 4 * q + t < c.k then obHalf s c.u (x.a + 2 * ((4 * q + t) * x.pa + j)) else (0, false))

/-- Perform an MSPSEL: every source is read before any destination is written (R259). -/
def performSel (c : MatCmd) (s : State) : State :=
  let x := c.scalars
  let cl := clusterOf (unitOf s c.u).core
  (selReads c s).foldl (fun s e =>
    let (q, j, vs) := e
    let ns := vs.map (·.1)
    let (i0, i1) := selPair ns
    let s1 := writeOpbuf cl (x.b + 2 * ((2 * q) * x.pb + j)) (leBytes 2 (ns.getD i0 0)) s
    let s2 := writeOpbuf cl (x.b + 2 * ((2 * q + 1) * x.pb + j)) (leBytes 2 (ns.getD i1 0)) s1
    let a := x.x + (q * x.px + j) / 2
    let old := ((s2.opbuf.get cl {}).read a).toNat
    let nb := i0 + 4 * i1
    writeOpbuf cl a [BitVec.ofNat 8 (if (q * x.px + j) % 2 = 0 then old / 16 * 16 + nb else old % 16 + 16 * nb)] s2) s

/-- The entries of a tile that are not ±0, in the order in which an SPST visits them (R260). -/
def sparseEntries (c : MatCmd) (s : State) : List (Nat × Nat × Nat) :=
  (ownRows c c.scalars.o).flatMap fun p => (bankCols c c.scalars.o).filterMap fun q =>
    let v := accAt s c.u (bankRow s c p.2) q.2
    if v % 0x80000000 = 0 then none else some (p.1, q.1, v)

/-- An SPST reads a poisoned element (R347). -/
def sparsePoisoned (c : MatCmd) (s : State) : Bool :=
  (ownRows c c.scalars.o).any fun p => (bankCols c c.scalars.o).any fun q => s.accpoi.contains (c.u, bankRow s c p.2, q.2)

/-- Bytes that are not poisoned. -/
def clean (bs : List Byte) : List (Byte × Bool) := bs.map fun b => (b, false)

/-- Perform an SPST: entries up to the bound, then the count; the entry that it could not write (R260, R261). -/
def performSpst (c : MatCmd) (sp : GS) (count bound : Nat) (s : State) : Option Nat × State :=
  let es := sparseEntries c s
  let base := locOf sp (c.scalars.a : Int)
  let todo := (es.drop count).take (bound - count)
  let s1 := (todo.mapIdx fun i e => (count + i, e)).foldl (fun s p =>
    engWrite c.u c.pages (base.at_ (16 + 8 * p.1 : Nat)) (clean (leBytes 8 (p.2.1 + p.2.2.1 * 2 ^ 16 + p.2.2.2 * 2 ^ 32))) s) s
  let stuck := decide (count + todo.length < es.length)
  let final := if stuck then count + todo.length else es.length
  (if stuck then some (count + todo.length) else none, engWrite c.u c.pages (base.at_ 4) (clean (leBytes 4 final)) s1)

/-- A command that ends its unit when it is performed: GUIDE, SPST and MSPSEL that read poison (R347); the subcode. DEDUCED, log 55. -/
def readsPoison (c : MatCmd) (s : State) : Option Nat :=
  match c.kind with
  | .guide _ => if guidePoisoned c s then some 3 else none
  | .spst _ _ _ => if sparsePoisoned c s then some 3 else none
  | .mspsel => if (selReads c s).any fun e => e.2.2.any (·.2) then some 0 else none
  | _ => none

/-- The issue that waits for a synchronous command. -/
def MatCmd.issue (c : MatCmd) : Issue := ⟨c.u, c.g, c.js, false⟩

/-- Change a command in its queue. -/
def modMat (id : Nat) (f : MatCmd → MatCmd) (s : State) : State := { s with mats := s.mats.map fun c => if c.id = id then f c else c }

/-- Perform a command: what it changes in the engine, the buffers and memory, and its result (R251 to R260). -/
def performMat (c : MatCmd) (s : State) : State :=
  let set := fun (v : Nat) (o : Bool) (s : State) => modMat c.id (fun x => { x with performed := true, res := v, ovf := o }) s
  match c.kind with
  | .mgath _ => set 0 false s
  | .mma _ _ => set 0 false (performPass c s)
  | .mmap _ _ => set 0 false (performPass c s)
  | .guide w => let (v, s1) := performGuide c w s; set v false s1
  | .mspsel => set 0 false (performSel c s)
  | .spst sp count bound => match performSpst c sp count bound s with
      | (none, s1) => set 0 false s1
      | (some n, s1) => set n true s1
  | _ => set 0 false (performTile c s)

/-! ### The reservation table -/

/-- Entries of a cluster's reservation table. -/
def tableCount (s : State) (cl : Nat) : Nat := (s.mats.filter fun c => c.table && clusterOf c.core == cl).length

/-- A command may leave its core's queue: it is resolved, the traces that issued it have had their memory commits, an entry is free, and no
earlier command of its core is still there (R51, R52, R262). DESIGN CHOICE, log 100. -/
def mayEnter (s : State) (c : MatCmd) : Bool :=
  ! c.held && ! openInsts s c.u c.g c.insts (fun _ => true) && ! c.table && served s c.u && decide (tableCount s (clusterOf c.core) < Config.tableEntries)
    && ((s.mats.filter fun x => x.core == c.core && ! x.table && served s x.u).head?.map MatCmd.id) == some c.id

/-- A command is its gang's oldest that has not completed (R262). DEDUCED, log 52. -/
def isOldest (s : State) (c : MatCmd) : Bool := ((s.mats.filter fun x => x.u == c.u && x.g == c.g).head?.map MatCmd.id) == some c.id

/-- The pair-wait limit (R256, R314). DEDUCED, log 54. -/
def pairLimit (s : State) (u : Nat) : Nat := (bindOf s u 0).pairWait

/-- One token's count less one. -/
def useOne (m : Map Nat Nat) (t : Nat) : Map Nat Nat := m.set t (m.get t 0 - 1)

/-- The partner's oldest unmatched MMAP with a token that is waiting in the reservation table (R255). -/
def partnerMmap (s : State) (c : MatCmd) (t : Nat) : Option MatCmd :=
  s.mats.find? fun x => x.u == c.u && x.g == partnerOf c.g && x.table && ! x.performed && ! x.alone && ! x.isZero && (match x.kind with
    | .mmap _ t' => t' == t
    | _ => false)

/-- Matched MMAPs agree: b, N, K and SP (R255). -/
def pairAgree (a b : MatCmd) : Bool := a.scalars.b == b.scalars.b && a.n == b.n && a.k == b.k && a.kind.isSp == b.kind.isSp

/-- A command is to be performed alone (R254, R256). -/
def goAlone (id : Nat) (why : Option Alone) (s : State) : State := modMat id (fun x => { x with alone := true, why := why }) s

/-- An MMAP without its partner's has waited as long as the pair-wait limit allows: it will be performed alone (R256). DEDUCED, log 54. -/
def expirePair (c : MatCmd) (s : State) : State := goAlone c.id (some .late) s

/-- An MMAP that becomes eligible: a pair miss, which it consumes whatever its extent, or a discarded partner makes it go alone at once, as
does a limit of 0 (R256). One that a save has recorded as alone is so still. DEDUCED, log 82. -/
def arriveMmap (c : MatCmd) (t : Nat) (s : State) : State :=
  let gi : GangId := ⟨c.u, c.g⟩
  if c.alone then s
  else if 0 < (gangOf s gi).miss.get t 0 then
    modGang gi (fun g => { g with miss := useOne g.miss t }) (goAlone c.id (some .missed) s)
  else if 0 < (gangOf s gi).gone.get t 0 then
    modGang gi (fun g => { g with gone := useOne g.gone t }) (goAlone c.id (some .gone) s)
  else if pairLimit s c.u = 0 ∧ (partnerMmap s c t).isNone ∧ ! c.isZero then expirePair c s
  else s

/-- A waiting MMAP whose partner's matching one differs goes alone, as does that one (R256). DEDUCED, log 82. -/
def checkPair (c : MatCmd) (t : Nat) (s : State) : State :=
  match partnerMmap s c t with
  | none => s
  | some p => if pairAgree c p then s else goAlone p.id (some .differs) (goAlone c.id (some .differs) s)

/-- The four commands of a complete co-operative match with a command: one from each core of the cluster (R254). DEDUCED, log 54. -/
def coMatch (s : State) (c : MatCmd) : Option (List MatCmd) :=
  (List.range 4).mapM fun i =>
    s.mats.find? fun x => x.core == clusterOf c.core * 4 + i && x.since.isSome && ! x.performed && ! x.alone && ! x.isZero && x.kind.isCo
      && x.scalars.x == c.scalars.x

/-- The commands of a complete match with unequal N or K are all performed alone (R254). DEDUCED, log 54. -/
def checkCo (c : MatCmd) (s : State) : State :=
  match coMatch s c with
  | some cs => if cs.all fun x => x.n == c.n && x.k == c.k then s else cs.foldl (fun s x => goAlone x.id none s) s
  | none => s

/-- A waiting command still looks for a match: it is eligible, has an extent, and is neither performed, nor granted, nor to go alone. -/
def MatCmd.seeks (c : MatCmd) : Bool := c.since.isSome && ! c.alone && ! c.performed && ! c.granted && ! c.isZero

/-- A waiting command whose limit has run out without a match goes alone: an MMAP's pair-wait limit, 1024 engine cycles of an MMA.CO (R254,
R256). DEDUCED, log 54. -/
def expireMat (id : Nat) (s : State) : State :=
  match s.mats.find? fun c => c.id == id with
  | none => s
  | some c =>
    let due := fun (n : Nat) => c.seeks && decide (c.since.getD s.clock + n ≤ s.clock)
    match c.kind with
    | .mmap _ t => if due (pairLimit s c.u) && (partnerMmap s c t).isNone then expirePair c s else s
    | .mma _ true => if due 1024 && (coMatch s c).isNone then goAlone id none s else s
    | _ => s

/-- One command's step into the table, and to being eligible (R262). -/
def tickMat (id : Nat) (s : State) : State :=
  match s.mats.find? fun c => c.id == id with
  | none => s
  | some c0 =>
    let s1 := if mayEnter s c0 then modMat id (fun x => { x with table := true }) s else s
    match s1.mats.find? fun c => c.id == id with
    | none => s1
    | some c =>
      if c.table && c.since.isNone && isOldest s1 c then
        let s2 := modMat id (fun x => { x with since := some s1.clock }) s1
        match c.kind with
        | .mmap _ t => arriveMmap c t s2
        | _ => s2
      else match c.kind with
        | .mmap _ t => if c.seeks then checkPair c t s1 else s1
        | .mma _ true => if c.seeks then checkCo c s1 else s1
        | _ => s1

/-- Bring the reservation tables up to date: what has waited too long goes alone, then every command moves on, the oldest first. -/
def tickEngines (s : State) : State :=
  (s.mats.map MatCmd.id).foldl (fun s i => tickMat i s) ((s.mats.map MatCmd.id).foldl (fun s i => expireMat i s) s)

/-! ### Matches -/

/-- The commands that are granted with a command, itself among them; none where it still waits for a match (R254 to R256). -/
def grantSet (s : State) (c : MatCmd) : Option (List MatCmd) :=
  match c.kind with
  | .mmap _ t =>
    if c.alone then some [c]
    else match partnerMmap s c t with
      | some p => if p.since.isSome && pairAgree c p then some [c, p] else none
      | none => none
  | .mma _ true =>
    if c.alone then some [c]
    else match coMatch s c with
      | some cs => if cs.all fun x => x.n == c.n && x.k == c.k then some cs else none
      | none => none
  | _ => some [c]

/-! ### Arbitration -/

/-- A command holds its engine from its grant to its completion; an MST's writes go on without it (R253, R264). -/
def holdsEngine (c : MatCmd) : Bool :=
  (c.performed || c.granted) && ! c.isFree && (match c.kind with
    | .mst _ _ _ => false
    | _ => true)

/-- The entries of a cluster that may be granted (R264). -/
def grantable (s : State) (cl : Nat) : List MatCmd :=
  s.mats.filter fun c => clusterOf c.core == cl && c.since.isSome && ! c.performed && ! c.granted && ! c.isFree && (grantSet s c).isSome

/-- The order of a gang's class (R163, R264). -/
def classOf (s : State) (c : MatCmd) : Nat :=
  match (gangOf s ⟨c.u, c.g⟩).role with
  | .ld => 0
  | .st => 1
  | .cm => 2

/-- The command that a free engine grants (R264): `mats` is in order of issue, so the first found is the oldest. DEDUCED, log 52. -/
def chooseGrant (s : State) (cl : Nat) : Option MatCmd :=
  let es := grantable s cl
  match es.find? fun c => decide ((c.since.getD s.clock) + 256 < s.clock) with
  | some c => some c
  | none => match es.find? fun c => s.baton.find? cl == some ⟨c.u, c.g⟩ with
    | some c => some c
    | none => match es.find? fun c => classOf s c == 0 with
      | some c => some c
      | none => match es.find? fun c => classOf s c == 1 with
        | some c => some c
        | none => es.head?

/-- The engine of a cluster is free. -/
def engineFree (s : State) (cl : Nat) : Bool := ! s.mats.any fun c => clusterOf c.core == cl && holdsEngine c

/-- A unit ends with POISON at a command that it waits for (R347). DEDUCED, log 55. -/
def poisonEnd (c : MatCmd) (sub : Nat) (s : State) : State :=
  let wa := wordAddr (headThread s c.issue)
  settledFault c.issue ((issueLanes s c.issue).map fun r => (r, ⟨.poison, sub, 0, 0, wa⟩)) s

/-- The engine cycles that a command takes (R253). DESIGN CHOICE, log 7. -/
def cyclesOf (c : MatCmd) : Nat :=
  let up := fun (n k : Nat) => (n + k - 1) / k
  if c.isFree then 0
  else match c.kind with
    | .mspsel => up c.k 16 * up c.n 32
    | k => up c.m 16 * up c.n 32 * (if k.isPass then up c.k (if k.isSp then 16 else 8) else 1)

/-- The events of a die that a performed command counts for: busy cycles, paired passes, MMAPs alone (R379). -/
def countMat (c : MatCmd) (s : State) : State :=
  let die := dieOf c.core
  let ctx := (unitOf s c.u).ctx
  let s1 := countDie die 0x0C ctx (cyclesOf c) s
  match c.kind with
  | .mmap _ _ => if c.alone then countDie die 0x0E ctx 1 s1 else if c.g % 2 = 0 then countDie die 0x0D ctx 1 s1 else s1
  | _ => s1

/-- The partner's MMAP that stands against one performed alone for want of it misses it: the partner's with the same token that waits by now
goes alone, or the partner's miss count rises (R256). DEDUCED, log 54. -/
def countMiss (c : MatCmd) (t : Nat) (s : State) : State :=
  match partnerMmap { s with mats := s.mats.filter MatCmd.seeks } c t with
  | some p => goAlone p.id (some .missed) s
  | none => modGang ⟨c.u, partnerOf c.g⟩ (fun g => { g with miss := g.miss.modify t 0 (· + 1) }) s

/-- An MMAP that has been performed alone sets its gang's pair-solo bit; where its limit had run out, its partner misses it (R256). -/
def afterSolo (c : MatCmd) (s : State) : State :=
  match c.kind with
  | .mmap _ t =>
    if c.alone then
      let s1 := modGang ⟨c.u, c.g⟩ (fun g => { g with solo := true }) s
      if c.why = some .late then countMiss c t s1 else s1
    else s
  | _ => s

/-- Perform some commands in order (R254, R256). DEDUCED, log 51. -/
def performGrant (cs : List MatCmd) (s : State) : State := cs.foldl (fun s c => afterSolo c (countMat c (performMat c s))) s

/-- The part of a granted co-operative match that a cluster's engine performs next: that of the lowest core (R254). -/
def nextPart (s : State) (cl : Nat) : Option MatCmd :=
  (List.range 4).findSome? fun i => s.mats.find? fun c => c.core == 4 * cl + i && c.granted && ! c.performed

/-- Grant a command: a pair as one pass; of a co-operative match the first part, the others to follow (R254, R255, R266). DEDUCED, log 51. -/
def grantMat (s : State) (c : MatCmd) : State :=
  match (grantSet s c).getD [c] with
  | p :: q :: r :: rest => performGrant [p] ((q :: r :: rest).foldl (fun s x => modMat x.id (fun y => { y with granted := true }) s) s)
  | cs => performGrant cs s

/-- MATRIX_ENGINE_GRANT (R264): the engine goes on with the next part of a co-operative match; one that is free grants the next command, and
performs it. -/
def execMatrixEngineGrant (cl : Nat) (s : State) : Host.Outcome State Fault Refusal :=
  let s0 := tickEngines s
  match nextPart s0 cl with
  | some c => .next (performGrant [c] s0)
  | none =>
    if ! engineFree s0 cl then .next s0
    else match chooseGrant s0 cl with
      | none => .next s0
      | some c => match readsPoison c s0 with
        | some sub => .next (poisonEnd c sub s0)
        | none => .next (grantMat s0 c)

/-- PAIR_WAIT_EXPIRY (R256): an MMAP that has waited for its partner as long as the limit allows goes alone. -/
def execPairWaitExpiry (id : Nat) (s : State) : Host.Outcome State Fault Refusal :=
  let s0 := tickEngines s
  match s0.mats.find? fun c => c.id == id with
  | none => .next s0
  | some c => match c.kind, c.since with
    | .mmap _ t, some t0 =>
      if ! c.seeks || (partnerMmap s0 c t).isSome then .next s0
      else .next (expirePair c { s0 with clock := max s0.clock (t0 + pairLimit s0 c.u) })
    | _, _ => .next s0

/-- COOPERATIVE_MATCH_TIMEOUT (R254): an MMA.CO without a complete match 1024 engine cycles after it became eligible goes alone. -/
def execCooperativeMatchTimeout (id : Nat) (s : State) : Host.Outcome State Fault Refusal :=
  let s0 := tickEngines s
  match s0.mats.find? fun c => c.id == id with
  | none => .next s0
  | some c => match c.since with
    | some t0 =>
      if ! c.kind.isCo || ! c.seeks || (coMatch s0 c).isSome then .next s0
      else .next (goAlone id none { s0 with clock := max s0.clock (t0 + 1024) })
    | none => .next s0

/-! ### Completion -/

/-- An MGATH takes effect on its gang's row list (R250). -/
def gatherRows (c : MatCmd) (p : Nat) (s : State) : State :=
  modGang ⟨c.u, c.g⟩ (fun g => { g with rows := c.lanes.foldl (fun m x => m.set (32 * p + x.l) x.a) g.rows }) s

/-- The slices that wait for a command, with a wait that tells them that it has completed (R262). -/
def wakeCmd (c : MatCmd) (v : Nat) (s : State) : State :=
  modThreads c.issue (fun t => if t.wait = .cmd c.id then { t with wait := .done v } else t) s

/-- An SPST has met its bound: its slices stop at it, with a pending record (R261). -/
def stopSpst (c : MatCmd) (s : State) : State :=
  match c.issue.threads.filter fun t => (threadOf s t).mask != 0 with
  | [] => s
  | t :: _ =>
    let (seq, s1) := raiseFault t ⟨.spovf, 0, c.scalars.a, c.res, wordAddr (threadOf s t)⟩ (threadOf s t).mask true s
    modThreads c.issue (fun th => if th.wait = .cmd c.id then { th with wait := .stopped seq } else th) s1

/-- An MMAP of a gang will not be performed: the partner's with the same token goes alone (R256). DEDUCED, log 82. -/
def partnerGone (c : MatCmd) (t : Nat) (s : State) : State :=
  match partnerMmap { s with mats := s.mats.filter fun x => x.since.isSome } c t with
  | some p => goAlone p.id (some .gone) s
  | none => modGang ⟨c.u, partnerOf c.g⟩ (fun g => { g with gone := g.gone.modify t 0 (· + 1) }) s

/-- A command leaves its queue and its table (R262). -/
def removeMat (id : Nat) (s : State) : State := { s with mats := s.mats.filter fun x => x.id != id }

/-- A command completes: what it does in its place in order, and the slices that wait for it (R256, R261, R262). -/
def finishMat (c : MatCmd) (s : State) : State :=
  let s1 := removeMat c.id s
  if c.ovf then stopSpst c s1
  else
    match c.kind with
    | .mgath p => gatherRows c p s1
    | .mmap _ t => if c.isZero && ! c.alone then partnerGone c t s1 else s1
    | .guide w => if c.isZero then let (v, s2) := performGuide c w s1; wakeCmd c v s2 else wakeCmd c c.res s1
    | _ => wakeCmd c c.res s1

/-- MATRIX_COMMAND_COMPLETE (R262): a command that has been performed, or that takes no engine cycle and is eligible, completes. -/
def execMatrixCommandComplete (id : Nat) (s : State) : Host.Outcome State Fault Refusal :=
  let s0 := tickEngines s
  match s0.mats.find? fun c => c.id == id with
  | none => .next s0
  | some c =>
    if c.performed || (c.isFree && c.since.isSome) then .next (tickEngines (finishMat c s0)) else .next s0

/-! ### Resolution -/

/-- A held copy command is resolved (R51). DEDUCED, log 76. -/
def resolveCopy (c : CopyCmd) (s : State) : State :=
  let ls := c.lanes.filter fun (x : LaneCopy) => c.pass.contains x.l
  if ls.isEmpty then
    writeTokens ⟨c.u, c.g⟩ (modGang ⟨c.u, c.g⟩ (dropFromBatches c.id) { s with copies := s.copies.filter fun x => x.id != c.id })
  else modCopy c.id (fun x => { x with lanes := ls, held := false, issued := x.issued.filter c.pass.contains }) s

/-- A held matrix command is resolved (R51, R256). DEDUCED, log 76. -/
def resolveMat (c : MatCmd) (s : State) : State :=
  let ls := c.lanes.filter fun x => c.pass.contains x.l
  if ls.isEmpty then
    let s1 := removeMat c.id s
    match c.kind with
    | .mmap _ t => partnerGone c t s1
    | _ => s1
  else modMat c.id (fun x => { x with lanes := ls, held := false }) s

/-- GUARDED_COMMAND_RESOLUTION (R51): a held command whose issuing slices have all settled proceeds for the passing lanes, or is discarded.
DEDUCED, log 76. -/
def execGuardedCommandResolution (id : Nat) (s : State) : Host.Outcome State Fault Refusal :=
  match s.copies.find? fun c => c.id == id with
  | some c => if c.held && c.hold.isEmpty then .next (resolveCopy c s) else .next s
  | none => match s.mats.find? fun c => c.id == id with
    | some c => if c.held && c.hold.isEmpty then .next (tickEngines (resolveMat c s)) else .next s
    | none => .next s

end Sys2Proof.Machine
end

