-- ==== Sys2Proof/Machine/System.lean ====
section
/-! DEFINITION. Special registers, roles, and the register allocation (R54 to R57, R161 to R164). -/

namespace Sys2Proof.Machine

/-- The special register of a lane (R161). -/
def sregOf (s : State) (r : LaneRef) (x : SReg) : DWord :=
  let un := unitOf s r.u
  let g := gangOf s ⟨r.u, r.g⟩
  let d := ((s.launches.find? un.launch).map (·.desc)).getD 0
  let nx := nodeField d 64 32
  let ny := nodeField d 96 16
  BitVec.ofNat 64 (match x with
    | .lane => r.l
    | .slice => r.l / 4
    | .gang => r.g
    | .unitx => un.idx % nx
    | .unity => un.idx / nx % ny
    | .unitz => un.idx / nx / ny
    | .nunitx => nx
    | .nunity => ny
    | .nunitz => nodeField d 112 16
    | .core => un.core
    | .cluster => clusterOf un.core
    | .die => dieOf un.core
    | .clock => s.clock
    | .launchid => (bindOf s r.u r.g).launchId
    | .helpidx =>
      if r.h then
        match s.serve.find? ⟨r.u, r.g, r.l / 4⟩ with
        | none => 0
        | some sv => ((sv.lanes.find? fun p => p.1 == r.l).map (·.2)).getD 0
      else 0
    | .pairside => (bindOf s r.u r.g).pair
    | .mark => g.mark.toNat
    | .evtag => g.evtag.toNat)

/-- The size of a special register (R161). -/
def sregSize (x : SReg) : Size := if x = .clock then .w64 else .w32

/-- GETS (R161). -/
def execGets (u : Bool) (x : SReg) (d : Opnd) (s : State) : Host.Outcome State Fault Refusal :=
  withIssue [] (gangRegs [(d, (sregSize x).regs)]) s fun iss s =>
    if u then
      let s1 := if d.isGang && isSettled s iss then commit iss s else s
      advance iss (deliverUniform iss d (resW (sregSize x) (sregOf s1 (uniRef iss) x)) s1)
    else advance iss (deliver iss d ((issueLanes s iss).map fun r => (r, resW (sregSize x) (sregOf s r x))) (sregSize x).regs s)

/-- SETS: the value of the lowest active lane becomes gang state (R162). -/
def execSets (x : SReg) (a : Opnd) (s : State) : Host.Outcome State Fault Refusal :=
  withIssue (gangRegs [(a, 1)]) [] s fun iss s =>
    let v := ((issueLanes s iss).head?.map fun r => src32 s r .int a).getD 0
    let s1 := commit iss s
    advance iss (match x with
      | .mark => modGang iss.gang (fun g => { g with mark := v }) s1
      | .evtag => modGang iss.gang (fun g => { g with evtag := v &&& 0xF }) s1
      | _ => s1)

/-- ROLE (R163). -/
def execRole (r : Role) (s : State) : Host.Outcome State Fault Refusal :=
  withIssue [] [] s fun iss s => advance iss (modGang iss.gang (fun g => { g with role := r }) (commit iss s))

/-- The slices of a GROW request: the live slices of a joined gang, or the one slice (R54). -/
def growSlices (s : State) (iss : Issue) : List Nat := if (gangOf s iss.gang).joined then liveSlices s iss.gang else iss.js

/-- A GROW is denied: the core counts it (R379). -/
def countDenial (u : Nat) (s : State) : State := countCore (unitOf s u).core 0x0D (unitOf s u).ctx (curTag s) 1 s

/-- GROW (R54): answered at once where nothing has to be granted, else the issue waits for an answer. -/
def execGrow (n8 : BitVec 6) (d : Opnd) (s : State) : Host.Outcome State Fault Refusal :=
  withIssue [] [] s fun iss s =>
    let n := 8 * n8.toNat
    let answer := fun (ok : Bool) (s : State) =>
      advance iss (deliver iss d ((issueLanes s iss).map fun r => (r, res32 (ofTruth ok))) 1 s)
    match waitOf s iss with
    | .grow _ => s
    | .grown ok => answer ok s
    | _ =>
      let s1 := commit iss s
      if (growSlices s1 iss).all fun j => n ≤ (sliceOf s1 ⟨iss.u, iss.g, j⟩).nreg then answer true s1
      else if 8 * (bindOf s1 iss.u iss.g).regMax < n then answer false (countDenial iss.u s1)
      else block iss (.grow n) s1

/-- The pending count of a slice after a SHRINK to n: the least (R55, R164). -/
def leastShrink (n : Nat) (pending : Option Nat) : Nat :=
  match pending with
  | none => n
  | some m => min n m

/-- SHRINK takes effect at the trace end; of several in one trace the least count stays (R55, R164). -/
def execShrink (n8 : BitVec 6) (s : State) : Host.Outcome State Fault Refusal :=
  withIssue [] [] s fun iss s =>
    advance iss (iss.threads.foldl (fun s t =>
      if (threadOf s t).mask = 0 then s else modSlice ⟨t.u, t.g, t.j⟩ (fun x => { x with shrink := some (leastShrink (8 * n8.toNat) x.shrink) }) s) (commit iss s))

end Sys2Proof.Machine
end

