-- ==== Sys2Proof/Machine/CoreEvents.lean ====
section
/-! DEFINITION. Events of a core: registers granted and denied, monitors, the Sluice, and committed writes being performed (R54 to R57,
R80, R86, R92). -/

namespace Sys2Proof.Machine

/-! ### GROW -/

/-- The units resident on a core, the oldest first (R56). -/
def unitsOn (s : State) (core : Nat) : List Nat :=
  (sortBy (fun a b => decide (a.2.seq ≤ b.2.seq)) (s.units.filter fun p => p.2.core == core &&
    (p.2.status == .resident || p.2.status == .ending || p.2.status == .saving))).map (·.1)

/-- The live slices of a unit. -/
def slicesOf (s : State) (u : Nat) : List SliceId :=
  (gangsIn s u).flatMap fun g => (liveSlices s ⟨u, g⟩).map fun j => ⟨u, g, j⟩

/-- The slices of a unit, live or not: a unit holds its registers until its last gang exits (R13). -/
def allSlices (s : State) (u : Nat) : List SliceId :=
  (gangsIn s u).flatMap fun g => (List.range (gangOf s ⟨u, g⟩).nslices).map fun j => ⟨u, g, j⟩

/-- Slice rows of a core's register file that no unit holds (R13, R17). -/
def freeRows (s : State) (core : Nat) : Nat :=
  Config.sliceRows - (((unitsOn s core).flatMap fun u => allSlices s u).map fun i => (sliceOf s i).nreg).sum

/-- The growth of every live slice of a unit to the launch maximum (R56). -/
def growthOf (s : State) (u : Nat) : Nat :=
  ((slicesOf s u).map fun i => 8 * (bindOf s u i.g).regMax - (sliceOf s i).nreg).sum

/-- The headroom of a core: the growth of its oldest resident unit (R56). -/
def headroom (s : State) (core : Nat) : Nat :=
  match unitsOn s core with
  | [] => 0
  | u :: _ => growthOf s u

/-- A blocked GROW: the gang, its slices and the count (R54). -/
structure GrowReq where
  g : GangId
  js : List Nat
  n : Nat
  deriving DecidableEq, Repr

/-- The count that a slice's blocked GROW asks for. -/
def growOf (s : State) (i : SliceId) : Option Nat :=
  match (threadOf s ⟨i.u, i.g, i.j, false⟩).wait with
  | .grow n => some n
  | _ => none

/-- The blocked requests of a gang: one of a joined gang, one of each slice of a parted one (R54). -/
def gangReqs (s : State) (g : GangId) : List GrowReq :=
  let js := (liveSlices s g).filterMap fun j => (growOf s ⟨g.u, g.g, j⟩).map fun n => (j, n)
  if (gangOf s g).joined then match js with
    | [] => []
    | (_, n) :: _ => [⟨g, js.map (·.1), n⟩]
  else js.map fun p => ⟨g, [p.1], p.2⟩

/-- The blocked requests of a core in age order: the oldest unit first, then the lowest gang (R56). DEDUCED, log 45. -/
def growReqs (s : State) (core : Nat) : List GrowReq :=
  (unitsOn s core).flatMap fun u => (gangsIn s u).flatMap fun g => gangReqs s ⟨u, g⟩

/-- Rows that a request needs. -/
def GrowReq.need (s : State) (r : GrowReq) : Nat := (r.js.map fun j => r.n - (sliceOf s ⟨r.g.u, r.g.g, j⟩).nreg).sum

/-- A request may be granted: its rows are free, and, unless its unit is the oldest, the headroom stays intact (R56). DEDUCED, log 45. -/
def mayGrow (s : State) (core : Nat) (r : GrowReq) : Bool :=
  decide (r.need s ≤ freeRows s core)
    && ((unitsOn s core).head? == some r.g.u || decide (r.need s + headroom s core ≤ freeRows s core))

/-- Answer a request. -/
def answerGrow (r : GrowReq) (ok : Bool) (s : State) : State :=
  r.js.foldl (fun s j =>
    let i : SliceId := ⟨r.g.u, r.g.g, j⟩
    let s1 := if ok && decide ((sliceOf s i).nreg < r.n) then setAlloc i r.n s else s
    modThread ⟨i.u, i.g, i.j, false⟩ (fun t => { t with wait := .grown ok }) s1) s

/-- Grant requests in age order as long as each may be granted. DEDUCED, log 45. -/
def grantGrows (core : Nat) : Nat → State → State
  | 0, s => s
  | fuel + 1, s =>
    match growReqs s core with
    | [] => s
    | r :: _ => if mayGrow s core r then grantGrows core fuel (answerGrow r true s) else s

/-- GROW_GRANT (R56). -/
def execGrowGrant (core : Nat) (s : State) : Host.Outcome State Fault Refusal := .next (grantGrows core Config.residentSlices s)

/-- A slice is blocked at a barrier whose unit has a gang that is blocked in GROW (R57). -/
def waitsForGrow (s : State) (i : SliceId) : Bool :=
  match (threadOf s ⟨i.u, i.g, i.j, false⟩).wait with
  | .barrier _ _ => (gangsIn s i.u).any fun g => ! (gangReqs s ⟨i.u, g⟩).isEmpty
  | .grow _ => true
  | _ => false

/-- A gang is stuck (R57). -/
def isStuck (s : State) (g : GangId) : Bool := (liveSlices s g).all fun j => waitsForGrow s ⟨g.u, g.g, j⟩

/-- Every resident gang of a core is stuck, and some request is blocked that may not be granted (R57). -/
def coreStuck (s : State) (core : Nat) : Bool :=
  ((unitsOn s core).all fun u => (gangsIn s u).all fun g => isStuck s ⟨u, g⟩)
    && (match growReqs s core with
        | [] => false
        | r :: _ => ! mayGrow s core r)

/-- GROW_STUCK_DENIAL (R57): the youngest gang that is blocked in GROW is denied, with every request that it has where it is parted. DESIGN
CHOICE, log 92. -/
def execGrowStuckDenial (core : Nat) (s : State) : Host.Outcome State Fault Refusal :=
  if coreStuck s core then
    match (growReqs s core).getLast? with
    | none => .next s
    | some r => .next ((gangReqs s r.g).foldl (fun s q => answerGrow q false (countDenial r.g.u s)) s)
  else .next s

/-! ### Monitors -/

/-- MONITOR_EVICTION (R86): a line leaves a core's tracking. DEDUCED, log 46. -/
def execMonitorEviction (core : Nat) (line : MonLine) (s : State) : Host.Outcome State Fault Refusal :=
  .next { s with mon := s.mon.map fun p => if (unitOf s p.1.u).core = core then (p.1, p.2.see line true) else p }

/-- WAITMON_TIMER_EXPIRY (R86): 65,536 clocks after the WAITMON began. -/
def execWaitmonTimerExpiry (t : ThreadId) (s : State) : Host.Outcome State Fault Refusal :=
  match (threadOf s t).wait with
  | .monitor since none =>
    .next (modThread t (fun th => { th with wait := .monitor since (some 2) }) { s with clock := max s.clock (since + 65536) })
  | _ => .next s

/-! ### The Sluice, and committed writes -/

/-- A unit's staged entries may be released: it has exited, and so has every lower-indexed unit, released (R92). -/
def sluiceReady (s : State) (u : Nat) : Bool :=
  (unitOf s u).status == .done && ! (unitOf s u).staged.isEmpty && lowerDone s u

/-- SLUICE_RELEASE (R92): a launch whose last unit is released may complete. -/
def execSluiceRelease (u : Nat) (s : State) : Host.Outcome State Fault Refusal :=
  if sluiceReady s u then
    let es := (unitOf s u).staged
    let s1 := modUnit u (fun x => { x with staged := [], released := true }) s
    .next (checkLaunch (unitOf s u).launch (es.foldl (fun s e => applyStaged (unitOf s u).core e.2 s) s1))
  else .next s

/-- The list without its element of an index. -/
def dropAt {α : Type} (i : Nat) (l : List α) : List α := l.take i ++ l.drop (i + 1)

/-- ACCESS_PERFORMED (R80): the k-th committed write of the device's list is performed at home, if no earlier write of its core to one of
its bytes is still waiting (R81) and the L1 need not keep it (R214). -/
def execAccessPerformed (core k : Nat) (s : State) : Host.Outcome State Fault Refusal :=
  match s.wq[k]? with
  | none => .next s
  | some e =>
    if e.core = core ∧ mayPerform (s.wq.take k) e (s.wq.drop (k + 1)) then .next (performEntry e { s with wq := dropAt k s.wq }) else .next s

end Sys2Proof.Machine
end

