-- ==== Sys2Proof/Machine/Save.lean ====
section
/-! DEFINITION. Saving units and bringing them back: pre-emption and deschedule (R58, R156, R157, R235, R266, R277, R316, R348 to R354). -/

namespace Sys2Proof.Machine

/-! ### The start of a save -/

/-- A thread abandons its trace at a pre-emption: it is in one and has not had its memory commit (R58). DEDUCED, log 79. -/
def mustAbandon (t : Thread) : Bool :=
  ! t.committed && (match t.pos with
    | .body _ => true
    | _ => false)

/-- A copy or link command as it is recorded where it stands (R235): what it has begun to write, and the flits that it waits for; when it is
replayed it writes that again and goes on from there, and takes its link anew. DEDUCED, log 64. -/
def stopCopy (s : State) (c : CopyCmd) : CopyCmd :=
  { c with written := 0, flits := match c.via with
      | some l => (linkOf s l).replay.map (·.seq)
      | none => [] }

/-- An MMAP that was to go alone because the matched commands differ, and whose partner's has gone alone already, is alone still when it is
replayed (R256, R266). -/
def staysAlone (s : State) (c : MatCmd) : Bool :=
  match c.kind with
  | .mmap _ t => c.why == some .differs && ! s.mats.any fun x => x.u == c.u && x.g == partnerOf c.g && x.why == some .differs && ! x.performed
      && (match x.kind with
        | .mmap _ t' => t' == t
        | _ => false)
  | _ => c.granted

/-- A recorded MMAP matches again when it is replayed: what had sent it alone is given back (R256, R266). DEDUCED, log 54. -/
def giveBack (c : MatCmd) (s : State) : State :=
  match c.kind, c.why with
  | .mmap _ t, some .missed => modGang ⟨c.u, c.g⟩ (fun g => { g with miss := g.miss.modify t 0 (· + 1) }) s
  | .mmap _ t, some .gone => modGang ⟨c.u, c.g⟩ (fun g => { g with gone := g.gone.modify t 0 (· + 1) }) s
  | _, _ => s

/-- Record a unit's uncompleted matrix commands in order; the parts of a granted co-operative match that are left go alone (R266). -/
def recordMats (u : Nat) (s : State) : State :=
  let mine := s.mats.filter fun c => c.u == u
  let log := mine.map fun c => { c with table := false, since := none, granted := false, alone := staysAlone s c,
                                        why := if staysAlone s c then c.why else none }
  let s1 := mine.foldl (fun s c => giveBack c s) s
  { s1 with matLog := s1.matLog ++ log, mats := s1.mats.filter fun c => c.u != u }

/-- Stop the engine commands of a unit: a pass that has been granted drains, every other command is recorded in order (R235, R266). -/
def stopEngines (u : Nat) (s : State) : State :=
  let s2 : State := { s with copyLog := s.copyLog ++ (s.copies.filter fun c => c.u == u).map (stopCopy s), copies := s.copies.filter fun c => c.u != u }
  recordMats u ((s2.mats.filter fun c => c.u == u && c.performed).foldl (fun s c => finishMat c s) s2)

/-- Pre-emption disarms the monitors of a unit, and wakes its WAITMONs with cause 3 (R86, R157, R158). DEDUCED, log 63. -/
def disarm (u : Nat) (s : State) : State :=
  { s with mon := s.mon.map (fun p => if p.1.u = u then (p.1, { p.2 with armed := none, fired := none, acq := p.2.acq.map fun q => (q.1, q.2.1, true) }) else p),
           thr := s.thr.map fun p => if p.1.u = u then (p.1, match p.2.wait with
             | .monitor t _ => { p.2 with wait := .monitor t (some 3) }
             | _ => p.2) else p }

/-- The batons of a unit's gangs are freed; their holders ask again when they are back (R266). -/
def freeBatons (u : Nat) (s : State) : State :=
  let held := (s.baton.filter fun p => p.2.u == u).map (·.2)
  dropBatons u (held.foldl (fun s g => modGang g (fun x => { x with rebaton := true }) s) s)

/-- A unit begins to be saved (R58, R348): traces before their memory commit are abandoned, engines stopped, helpers released, monitors
disarmed, batons freed. DEDUCED, log 63. DEDUCED, log 79. -/
def beginSave (u : Nat) (s : State) : State :=
  if (unitOf s u).status != .resident then s
  else
    let s1 := modUnit u (fun x => { x with status := .saving }) s
    let s2 := (gangsIn s1 u).foldl (fun s g => ((gangOf s ⟨u, g⟩).recs.map (·.1)).foldl (fun s rid => releaseRecord u g rid s) s) s1
    let s3 := (unitThreads s2 u).foldl (fun s p => if mustAbandon p.2 && ! p.1.h then abandon u p.1.g [p.1.j] false s else s) s2
    freeBatons u (disarm u (stopEngines u s3))

/-! ### The end of a save -/

/-- A thread stands still for a save: at a head, or at an instruction of the settled part on which it waits (R58). -/
def atRest (t : Thread) : Bool :=
  match t.pos with
  | .body _ => t.committed && t.wait != .none
  | _ => true

/-- The flits of a unit's link commands that had been sent when they were stopped are acknowledged, or their link has failed, which discards
them (R235, R362). -/
def flitsDone (s : State) (u : Nat) : Bool :=
  (s.copyLog.filter fun c => c.u == u).all fun c => match c.via with
    | some l => ! c.flits.any fun x => ((linkOf s l).replay.map (·.seq)).contains x
    | none => true

/-- A unit that is being saved has come to rest, its helpers have ended, and its engines have stopped (R58, R235, R277, R348). -/
def quiet (s : State) (u : Nat) : Bool :=
  flitsDone s u && (unitThreads s u).all fun p => if p.1.h then p.2.pos == .dead else atRest p.2

/-- The operand-buffer ranges of a unit's records (R352). -/
def rangesOf (s : State) (u : Nat) : List SavedRange :=
  let cl := clusterOf (unitOf s u).core
  (s.oprecs.filter fun p => p.1.1 == cl && p.2.u == u).map fun p =>
    let (b, n) := recRange p.2.words
    ⟨p.1.2, p.2.words, (s.opbuf.get cl {}).readN b n,
      (s.oppoi.filter fun q => q.1 == cl && decide (b ≤ q.2) && decide (q.2 < b + n)).map (·.2)⟩

/-- A unit is saved (R348): its commands are recorded, its writes performed, its L1 lines discarded, its slots and records freed. DEDUCED, log 13.
DEDUCED, log 63. DEDUCED, log 85. -/
def saveUnit (u : Nat) (s : State) : State :=
  let un := unitOf s u
  let s1 := drainCtx un.ctx (disarm u (stopEngines u s))
  let s2 := discardL1 un.core (fun x => x.ctx == un.ctx && x.scope.isLocal) s1
  let (age, s3) := takeFresh s2
  let s4 := modUnit u (fun x => { x with status := .saved, seq := age, quantumUp := false, savedRanges := rangesOf s2 u, slots := [],
                                         binds := x.binds.map fun b => { b with valid := false } }) s3
  { s4 with oprecs := s4.oprecs.filter fun p => p.2.u != u }

/-! ### Coming back -/

/-- Answer a stop that a record has kept: REPLAY lets a BKPT go on, and an SPST issue again (R151, R261, R344). DEDUCED, log 57. -/
def resumeStop (seq : Nat) (cls : FClass) (t : Thread) : Thread :=
  if t.wait = .stopped seq then (if cls = .spovf then { t with wait := .resumed } else t.step) else t

/-- Answer a park with REPLAY: the thread no longer waits for it (R344). -/
def unpark (id : Nat) (s : State) : State :=
  { s with parks := s.parks.filter fun p => p.id != id,
           thr := s.thr.map fun p =>
             if p.2.parked.contains id then (p.1, { p.2 with parked := p.2.parked.filter (· != id), since := s.clock }) else p }

/-- A record is answered: it is pending no more. -/
def clearRecord (r : FRec) (s : State) : State :=
  { s with frecs := s.frecs.map fun x => if x.ctx = r.ctx ∧ x.seq = r.seq then { x with pending := false, answer := none } else x }

/-- Apply an answer to a record of a slice: REPLAY (R344). DEDUCED, log 57. -/
def replayRecord (r : FRec) (s : State) : State :=
  let s1 := clearRecord r s
  let s2 := ((s1.parks.filter fun p => p.ctx == r.ctx && p.seq == r.seq && p.thread.isSome).map fun p => p.id).foldl (fun s i => unpark i s) s1
  { s2 with thr := s2.thr.map fun p => if p.1.u = r.u then (p.1, resumeStop r.seq r.cls p.2) else p }

/-- Slices whose records have been answered go on: where that leaves a gang's slices at different words, the gang parts (R11, R151). -/
def partAnswered (rs : List FRec) (s : State) : State := rs.foldl (fun s r => updateJoined ⟨r.u, r.thread.g⟩ s) s

/-- Lanes of a helper whose pending fault is cancelled become faulted (R279): those that a record of the context names by their index. -/
def faultHelper (r : FRec) (s : State) : State :=
  match s.serve.find? ⟨r.u, r.thread.g, r.thread.j⟩ with
  | none => s
  | some sv =>
    let ix := (r.image.extractLsb' 20 5).toNat
    let ids := (s.parks.filter fun p => p.ctx == r.ctx && p.seq == r.seq).map fun p => p.id
    let s1 := ids.foldl (fun s i => unpark i s) s
    leaveHelper r.thread (maskOf ((sv.lanes.filter fun p => p.2 == ix).map fun p => p.1 % 4)) .faulted s1

/-- Apply CANCEL to a record of a unit: the unit ends with the record's class, a helper becomes faulted (R344). -/
def cancelRecord (r : FRec) (s : State) : State :=
  let s1 := clearRecord r s
  if r.thread.h then faultHelper r s1
  else if (unitOf s1 r.u).status = .saved then
    finishUnit r.u (modUnit r.u (fun x => { x with cls := some r.cls, failed := true }) s1)
  else endUnit r.u (some r.cls) s1

/-- Apply the answers that were given while a unit was saved (R345). -/
def applyAnswers (u : Nat) (s : State) : State :=
  let rs := s.frecs.filter fun r => r.u == u && r.answer.isSome
  partAnswered rs (rs.foldl (fun s r => if r.answer = some 0 then replayRecord r s else cancelRecord r s) s)

/-- A saved unit's records and ranges are free in a cluster's engine (R353). DEDUCED, log 85. -/
def rangesFree (s : State) (u cl : Nat) : Bool :=
  (unitOf s u).savedRanges.all fun x =>
    (s.oprecs.find? (cl, x.num)).isNone && ! s.oprecs.any fun p => p.1.1 == cl && rangesMeet (recRange p.2.words) (recRange x.words)

/-- Restore the operand-buffer ranges of a unit to a cluster (R353). DEDUCED, log 85. -/
def restoreRanges (u cl : Nat) (s : State) : State :=
  let s1 := (unitOf s u).savedRanges.foldl (fun s x =>
    let s' := writeOpbuf cl (recRange x.words).1 x.bytes s
    { s' with oprecs := s'.oprecs.set (cl, x.num) ⟨u, x.words⟩, oppoi := x.bad.foldl (fun l o => l.insert (cl, o)) s'.oppoi }) s
  modUnit u (fun x => { x with savedRanges := [] }) s1

/-- A gang that held the baton asks for it again (R266). -/
def reclaim (u cl : Nat) (s : State) : State :=
  (gangsIn s u).foldl (fun s g =>
    if (gangOf s ⟨u, g⟩).rebaton then
      let s1 := { s with batonq := s.batonq ++ [(cl, ⟨u, g⟩)] }
      if (s1.baton.find? cl).isNone then giveBaton cl s1 else s1
    else s) s

/-! ### Places on a core -/

/-- A size rounded up to whole units. -/
def roundUp (n k : Nat) : Nat := (n + k - 1) / k * k

/-- Slots of a core's slot table that are free, the lowest first; a unit takes the lowest ones, one a gang (R18, R314). DESIGN CHOICE, log 38. -/
def freeSlots (s : State) (core : Nat) : List Nat :=
  let used := (s.units.filter fun p => p.2.core == core).flatMap fun p => p.2.slots
  (List.range Config.slots).filter fun i => ! used.contains i

/-- Ranges [a, a + n) that leave a place of `n` in [lo, hi) at a multiple of `al` free: the place at a free choice among the aligned ones if
it is free, else the lowest. DESIGN CHOICE, log 38. -/
def placeIn (used : List (Nat × Nat)) (lo hi n al pick : Nat) : Option Nat :=
  let ok := fun (a : Nat) => decide (a + n ≤ hi) && used.all fun r => ! rangesMeet r (a, n)
  let room := if lo + n ≤ hi then (hi - lo - n) / al + 1 else 0
  let first := roundUp lo al
  let a := first + al * (pick % max room 1)
  if n = 0 then some lo
  else if ok a then some a
  else (sortBy (fun a b => decide (a ≤ b)) ((used.map fun r => roundUp (r.1 + r.2) al) ++ [first])).find? fun a => decide (lo ≤ a) && ok a

/-- Scratchpad ranges of a core that are taken, in KiB. -/
def usedScratch (s : State) (core : Nat) : List (Nat × Nat) :=
  (s.units.filter fun p => p.2.core == core && ! p.2.slots.isEmpty).filterMap fun p => p.2.binds.head?.map fun b => (b.scrBase, b.scrSize)

/-- The bind records of a unit that comes back to a core in some slots: its scratchpad range, its registers and its partners' slots are
placed anew, with the allocations that its slices have now (R314, R315, R328, R353). -/
def rebind (s : State) (u core : Nat) (slots : List Nat) : List Bind :=
  let bs := (unitOf s u).binds
  let rows := fun (g : Nat) => ((List.range (gangOf s ⟨u, g⟩).nslices).map fun j => (sliceOf s ⟨u, g, j⟩).nreg).sum
  let scr := (placeIn (usedScratch s core) 0 Config.scratchKiB ((bs.head?.map fun b => b.scrSize).getD 0) 1 0).getD 0
  let row := Config.sliceRows - freeRows s core
  bs.mapIdx fun g b => { b with
    valid := true, scrBase := scr, regBase := row + ((List.range g).map rows).sum,
    partner := if b.pair = 0 then 0 else slots.getD (partnerOf g) 0 }

/-- A saved unit is resident again on a core, in some slots (R349, R353): its ranges and its engine log are back, copies first. DEDUCED, log 13. -/
def restoreUnit (u core : Nat) (slots : List Nat) (s : State) : State :=
  let (age, s0) := takeFresh s
  let s1 := modUnit u (fun x => { x with status := .resident, core := core, slots := slots, seq := age,
                                         binds := rebind s u core slots }) s0
  let s2 := restoreRanges u (clusterOf core) s1
  let s3 := { s2 with
    copies := s2.copies ++ (s2.copyLog.filter fun c => c.u == u).map fun c => { c with core := core, via := none, flits := [] },
    copyLog := s2.copyLog.filter fun c => c.u != u,
    mats := s2.mats ++ (s2.matLog.filter fun c => c.u == u).map fun c => { c with core := core },
    matLog := s2.matLog.filter fun c => c.u != u,
    thr := s2.thr.map fun p => if p.1.u = u then (p.1, { p.2 with since := s2.clock }) else p }
  applyAnswers u (reclaim u (clusterOf core) s3)

/-! ### The save area -/

/-- Bytes of a unit's block with `n` registers for each lane of a slice (R352): regions begin at multiples of 64 bytes. -/
def blockBytes (un : UnitSt) (regs : Nat) (ranges log : Nat) : Nat :=
  let g := un.binds.length
  let lanes := (un.binds.map fun b => 4 * (b.slices + 1)).sum
  let scr := ((un.binds.head?.map fun b => b.scrSize).getD 0) * 1024
  1024 + 4096 * g + 512 * lanes + roundUp (4 * regs) 64 + scr + (if un.matrix then roundUp (73728 + 512 + 512 * g) 64 else 0)
    + (2048 + roundUp ranges 64) + 32 * log

/-- The registers of a unit's lanes as they are allocated (R352). -/
def regsOf (s : State) (u : Nat) : Nat :=
  ((s.slices.filter fun p => p.1.u == u).map fun p => 4 * p.2.nreg).sum

/-- Blocks of 4 KiB that a saved unit takes (R351, R352). -/
def savedBlocks (s : State) (u : Nat) : Nat :=
  let un := unitOf s u
  roundUp (blockBytes un (regsOf s u) ((un.savedRanges.map fun r => r.bytes.length).sum)
    ((s.copyLog.filter fun c => c.u == u).length + (s.matLog.filter fun c => c.u == u).length)) 4096 / 4096

/-- The saved units of a context, in ascending order of launch and then of index (R353). -/
def savedOf (s : State) (ctx : Nat) : List Nat :=
  (sortBy (fun a b => decide (a.2.launch < b.2.launch) || (a.2.launch == b.2.launch && decide (a.2.idx ≤ b.2.idx)))
    (s.units.filter fun p => p.2.ctx == ctx && p.2.status == .saved)).map (·.1)

/-- Offsets and sizes of the blocks that follow one another from an offset (R351). -/
def indexBytes (s : State) : List Nat → Nat → List Byte
  | [], _ => []
  | u :: us, off => leBytes 16 (off + savedBlocks s u * 2 ^ 64) ++ indexBytes s us (off + 4096 * savedBlocks s u)

/-- The header of a save area (R351). -/
def headerBytes (n : Nat) : List Byte :=
  leBytes 4096 (0x56535A55 + 1 * 2 ^ 32 + n * 2 ^ 64 + 4096 * 2 ^ 128)

/-- The main registers of a unit's lanes, in order of gangs and lanes: V0 to V(n − 9) and V248 to V255 of each (R352). DEDUCED, log 13. -/
def registerBytes (s : State) (u : Nat) : List Byte :=
  (gangsIn s u).flatMap fun g => (List.range (4 * (gangOf s ⟨u, g⟩).nslices)).flatMap fun l =>
    let n := (sliceOf s ⟨u, g, l / 4⟩).nreg
    (List.range (n - 8) ++ (List.range 8).map (248 + ·)).flatMap fun k => leBytes 4 (vreg s ⟨u, g, l⟩ k).toNat

/-- The bank and the pass counters of a matrix unit (R352). DEDUCED, log 13. -/
def bankBytes (s : State) (u : Nat) : List Byte :=
  ((List.range 96).flatMap fun r => (List.range 192).flatMap fun n => leBytes 4 (accAt s u r n))
    ++ (List.range 96).flatMap fun r => leBytes 4 (s.passes.get (u, r) 0)

/-- The descriptions of a saved unit's records by number, others free, and the contents of its ranges (R352). DEDUCED, log 13. -/
def rangeBytes (rs : List SavedRange) (f : Nat → Byte) : List Byte :=
  ((List.range 64).flatMap fun k => match rs.find? fun r => r.num == k with
    | some r => r.words.flatMap fun w => leBytes 4 w
    | none => (List.range 32).map fun i => f (32 * k + i)) ++ rs.flatMap (·.bytes)

/-- A block with one more region, from a multiple of 64 bytes on; `f` gives the bytes that the manual leaves open, by their offset (R352). -/
def addRegion (f : Nat → Byte) (b r : List Byte) : List Byte :=
  let p := b ++ r
  p ++ (List.range (roundUp p.length 64 - p.length)).map fun i => f (p.length + i)

/-- A saved unit's block, region by region (R352): `f` gives what the manual does not lay out. DEDUCED, log 13. -/
def unitBlock (s : State) (u : Nat) (f : Nat → Byte) : List Byte :=
  let un := unitOf s u
  let open_ := fun (b : List Byte) (n : Nat) => addRegion f b ((List.range n).map fun i => f (b.length + i))
  let heads := open_ (open_ (open_ [] 1024) (4096 * un.binds.length)) (512 * (un.binds.map fun b => 4 * (b.slices + 1)).sum)
  let scr := addRegion f (addRegion f heads (registerBytes s u))
    ((s.scr.get u {}).readN 0 (((un.binds.head?.map fun b => b.scrSize).getD 0) * 1024))
  let bank := if un.matrix then open_ (addRegion f scr (bankBytes s u)) (128 + 512 * un.binds.length) else scr
  let ob := addRegion f bank (rangeBytes un.savedRanges fun i => f (bank.length + i))
  let all := open_ ob (32 * ((s.copyLog.filter fun c => c.u == u).length + (s.matLog.filter fun c => c.u == u).length))
  all ++ (List.range (4096 * savedBlocks s u - all.length)).map fun i => f (all.length + i)

/-- The blocks of some units one after another, what the manual leaves open in them being free from a number on. -/
def blocksOf (s : State) : List Nat → Nat → List Byte
  | [], _ => []
  | u :: us, n => unitBlock s u (fun i => BitVec.ofNat 8 (Config.freeNat (n + i))) ++ blocksOf s us (n + 4096 * savedBlocks s u)

/-- Write a context's save area: the header, the index, and the blocks of its saved units (R351, R352). DEDUCED, log 13. -/
def writeSaveArea (ctx : Nat) (s : State) : State :=
  let us := savedOf s ctx
  let base := bitsOf (ctxOf s ctx).savebase.toNat 12 40 * 4096
  let first := 4096 + roundUp (16 * us.length) 4096
  let put := fun (a : Nat) (bs : List Byte) (s : State) => homeWrite (cellsOf ((List.range bs.length).map (a + ·)) bs) s
  let blocks := blocksOf s us s.free
  let s1 := put (base + first) blocks (put base (headerBytes us.length ++ indexBytes s us first) s)
  { s1 with free := s.free + blocks.length }

end Sys2Proof.Machine
end

