-- ==== Sys2Proof/Machine/Sched.lean ====
section
/-! DEFINITION. Graphs, triggers, launches, dispatch, deschedule and cancel (R14, R15, R303 to R323, R326 to R328, R350, R413). -/

namespace Sys2Proof.Machine

/-! ### Graph ids -/

/-- The die of a graph (R303). -/
def dieOfGraph (gid : Nat) : Nat := gid / 256 % 8

/-- The graph that a slot of scheduler memory holds. -/
def graphOf (s : State) (gid : Nat) : Option Graph := s.graphs.find? gid

/-- A slot has a running or queued trigger. -/
def slotBusy (s : State) (gid : Nat) : Bool := s.trigs.any fun t => t.gid == gid

/-! ### Checking node records -/

/-- The extents of a node lie in R14's limits. -/
def extentsOk (d : BitVec 1024) : Bool :=
  let x := nodeField d 64 32
  let y := nodeField d 96 16
  let z := nodeField d 112 16
  decide (1 ≤ x) && decide (x ≤ 0x7FFFFFFF) && decide (1 ≤ y) && decide (1 ≤ z) && decide (x * y * z < 2 ^ 48)

/-- The reserved fields of a node record are zero (R305). -/
def reservedZero (d : BitVec 1024) : Bool :=
  [(60, 4), (134, 2), (142, 2), (167, 1), (242, 14), (383, 1), (436, 12), (500, 12)].all fun p => nodeField d p.1 p.2 == 0

/-- A node keeps the limits of R305 and R14 (R307). -/
def limitsOk (d : BitVec 1024) : Bool :=
  let base := nodeField d 128 6
  let top := nodeField d 136 6
  let mode := nodeField d 164 2
  extentsOk d && decide (8 ≤ base) && decide (base ≤ top) && decide (top ≤ 32) && decide (nodeField d 144 10 ≤ 512)
    && decide (4 ≤ nodeField d 154 9) && decide (nodeField d 154 9 ≤ 256) && decide (mode ≤ 1)
    && (mode != 1 || nodeField d 224 16 != 0) && decide (nodeField d 372 11 ≤ 1024) && nodeField d 448 52 % 32 == 0
    && (nodeField d 166 1 == 0 || nodeField d 55 5 % 2 == 1) && (nodeField d 163 1 == 0 || mode == 0)

/-! ### Loading graphs -/

/-- The edges close no cycle: with every round, a node without an edge from one that is left is taken away. -/
def acyclic (edges : List (Nat × Nat)) : Nat → List Nat → Bool
  | 0, left => left.isEmpty
  | k + 1, left =>
    if left.isEmpty then true
    else
      let rest := left.filter fun n => edges.any fun e => e.2 == n && left.contains e.1
      if rest.length = left.length then false else acyclic edges k rest

/-- One edge comes strictly before another (R306). -/
def edgeLt (a b : Nat × Nat) : Bool := decide (a.1 < b.1) || (a.1 == b.1 && decide (a.2 < b.2))

/-- The first edge that names a node that does not exist, is out of order or repeats (R307). -/
def badEdge (n : Nat) (edges : List (Nat × Nat)) : Option Nat :=
  (List.range edges.length).find? fun i =>
    let e := edges.getD i (0, 0)
    decide (n ≤ e.1) || decide (n ≤ e.2) || (decide (0 < i) && ! edgeLt (edges.getD (i - 1) (0, 0)) e)

/-- What GLOAD finds: a code, the failing node or edge, and the graph (R304 to R307). -/
def checkImage (s : State) (ctx addr : Nat) : Nat × Nat × Option (Nat × Option Graph) :=
  match sysRead s ctx addr 64 with
  | none => (6, 0, none)
  | some hb =>
    let h := leNat hb
    let gid := bitsOf h 48 16
    let nn := bitsOf h 32 16
    let ne := bitsOf h 64 32
    if bitsOf h 0 32 ≠ 0x47525A55 ∨ h / 2 ^ 96 ≠ 0 ∨ gid / 2048 ≠ 0 then (1, 0, none)
    else if slotBusy s gid then (2, 0, none)
    else if (graphOf s gid).any fun g => g.ctx != ctx then (3, 0, none)
    else if nn = 0 then (0, 0, some (gid, none))
    else if 4096 < nn then (4, 0, none)
    else if 65536 < ne then (5, 0, none)
    else match sysRead s ctx (addr + 64) (128 * nn), sysRead s ctx (addr + 64 + 128 * nn) (4 * ne) with
      | some nb, some eb =>
        let nodes := (List.range nn).map fun i => BitVec.ofNat 1024 (leNat ((nb.drop (128 * i)).take 128))
        let edges := (List.range ne).map fun i => let w := leNat ((eb.drop (4 * i)).take 4); (w % 65536, w / 65536)
        match (List.range nn).find? fun i => ! reservedZero (nodes.getD i 0) with
        | some i => (1, i, none)
        | none => match (List.range nn).find? fun i => ! limitsOk (nodes.getD i 0) with
          | some i => (4, i, none)
          | none => match badEdge nn edges with
            | some i => (5, i, none)
            | none =>
              if acyclic edges nn (List.range nn) then (0, 0, some (gid, some ⟨ctx, nodes, edges, []⟩)) else (5, 0, none)
      | _, _ => (6, 0, none)

/-- GLOAD (R307, R308): the load begins; a write while a load is busy has no effect. -/
def execGload (ctx : Nat) (v : DWord) (s : State) : Host.Outcome State Fault Refusal := hostDoes s <|
  if (ctxOf s ctx).gload.isSome then .next s
  else .next (modCtx ctx (fun c => { c with gload := some (bitsOf v.toNat 0 52), gloadstat := 1 }) s)

/-- GRAPH_LOAD_COMPLETE (R307): the slot belongs to the writing context; a failed load leaves it as it was. -/
def execGraphLoadComplete (ctx : Nat) (s : State) : Host.Outcome State Fault Refusal :=
  match (ctxOf s ctx).gload with
  | none => .next s
  | some addr =>
    let (code, at_, g) := checkImage s ctx addr
    let s1 := modCtx ctx (fun c => { c with gload := none, gloadstat := BitVec.ofNat 64 (code * 16 + at_ % 65536 * 65536) }) s
    .next (match g with
      | none => s1
      | some (gid, none) => { s1 with graphs := s1.graphs.erase gid }
      | some (gid, some x) =>
        modCtx ctx (fun c => { c with graphdone := c.graphdone.set gid (c.graphdone.get gid 0) }) { s1 with graphs := s1.graphs.set gid x })

/-! ### Triggers -/

/-- A patch list as its header and entries stand (R310). -/
inductive Patches where
  | bad
  | fault
  | ok (phase : Nat) (l : List (Nat × Nat × DWord))
  deriving DecidableEq, Repr

/-- The node record with one patch applied (R310). -/
def patchNode (off : Nat) (v : DWord) (d : BitVec 1024) : BitVec 1024 :=
  BitVec.ofNat 1024 (d.toNat - nodeField d (8 * off) 64 * 2 ^ (8 * off) + v.toNat * 2 ^ (8 * off))

/-- One entry of a patch list, if it keeps R310 (R311). -/
def patchEntry (g : Graph) (n : Nat) : Option (Nat × Nat × DWord) :=
  let node := bitsOf n 0 16
  let off := bitsOf n 16 16
  let v := BitVec.ofNat 64 (bitsOf n 64 64)
  if bitsOf n 32 32 = 0 ∧ node < g.nodes.length ∧ (off = 8 ∨ (64 ≤ off ∧ off ≤ 120 ∧ off % 8 = 0))
    ∧ (off ≠ 8 ∨ extentsOk (patchNode 8 v 0)) then some (node, off, v) else none

/-- Read and check a patch list (R310, R311). -/
def readPatches (s : State) (ctx addr : Nat) (g : Graph) : Patches :=
  if addr = 0 then .ok 0 []
  else match sysRead s ctx addr 16 with
    | none => .fault
    | some hb =>
      let h := leNat hb
      let n := bitsOf h 0 16
      if 256 < n ∨ h / 2 ^ 22 ≠ 0 then .bad
      else match sysRead s ctx (addr + 16) (16 * n) with
        | none => .fault
        | some bs => match (List.range n).mapM fun i => patchEntry g (leNat ((bs.drop (16 * i)).take 16)) with
          | none => .bad
          | some l => .ok (bitsOf h 16 6) l

/-- Set a bit of TRIGSTAT (R311). DEDUCED, log 40. -/
def setTrigstat (ctx i : Nat) (s : State) : State :=
  modCtx ctx (fun c => { c with trigstat := c.trigstat ||| (1 : DWord) <<< i }) s

/-- The causes for which a trigger is dropped (R311). DEDUCED, log 40. -/
def trigCauses (s : State) (ctx gid patch : Nat) : List Nat × Patches :=
  let full := if Config.trigQueue ≤ (s.trigs.filter fun t => ! t.running && dieOfGraph t.gid == dieOfGraph gid).length then [0] else []
  match (if gid / 2048 = 0 then graphOf s gid else none) with
  | none => (full ++ [1], .bad)
  | some g =>
    if g.ctx ≠ ctx then (full ++ [1], .bad)
    else match readPatches s ctx patch g with
      | .ok ph l => (full, .ok ph l)
      | .bad => (full ++ [2], .bad)
      | .fault => (full ++ [3], .fault)

/-- TRIGGER (R309 to R311): accepted with the next sequence number, or dropped with one bit of TRIGSTAT set; where several causes hold, which
bit is a free choice. DEDUCED, log 40. DEDUCED, log 41. -/
def execTrigger (ctx : Nat) (v : DWord) (s : State) : Host.Outcome State Fault Refusal := hostDoes s <|
  let gid := bitsOf v.toNat 48 16
  let (causes, ps) := trigCauses s ctx gid (bitsOf v.toNat 0 48)
  match causes, ps with
  | [], .ok ph l =>
    let seq := (ctxOf s ctx).nextTrig
    let s1 := modCtx ctx (fun c => { c with
      nextTrig := seq + 1, trigstat := BitVec.ofNat 64 (c.trigstat.toNat % 2 ^ 32 + seq % 2 ^ 32 * 2 ^ 32) }) s
    .next { s1 with trigs := s1.trigs ++ [⟨ctx, gid, seq, ph, l, false⟩] }
  | [c], _ => .next (setTrigstat ctx c s)
  | cs, _ =>
    let (n, s1) := takeNat s
    .next (setTrigstat ctx (cs.getD (n % max cs.length 1) 1) s1)

/-- The patches of a trigger on the nodes of a graph, in order (R311). -/
def applyPatches (ps : List (Nat × Nat × DWord)) (nodes : List (BitVec 1024)) : List (BitVec 1024) :=
  ps.foldl (fun ns p => ns.mapIdx fun i d => if i = p.1 then patchNode p.2.1 p.2.2 d else d) nodes

/-- Launches of a trigger that has begun: one a node (R305, R311). -/
def openLaunches (ctx gid seq : Nat) : Nat → List (BitVec 1024) → State → State
  | _, [], s => s
  | i, d :: ds, s =>
    let (lid, s1) := takeFresh s
    let l : Launch :=
      { ctx := ctx, gid := gid, node := i, seq := seq, desc := d, state := .waiting, completed := [], begun := [], errors := 0 }
    openLaunches ctx gid seq (i + 1) ds { s1 with launches := s1.launches.set lid l }

/-- Nodes whose record in scheduler memory is spoilt: their launches fail (R346). -/
def failBad (ctx gid seq : Nat) (bad : List Nat) (s : State) : State :=
  ((launchesOf s gid seq ctx).filter fun p => bad.contains p.2.node).foldl (fun s p => finishLaunch p.1 .cancelled s) s

/-- TRIGGER_BEGIN (R311): the oldest queued trigger of a graph begins when no other of the graph is running. -/
def execTriggerBegin (ctx gid : Nat) (s : State) : Host.Outcome State Fault Refusal :=
  match graphOf s gid, s.trigs.find? fun t => t.gid == gid && t.ctx == ctx with
  | some g, some t =>
    if t.running then .next s
    else
      let nodes := applyPatches t.patches g.nodes
      let s1 := { s with graphs := s.graphs.set gid { g with nodes := nodes },
                         trigs := s.trigs.map fun x => if x = t then { x with running := true } else x }
      .next (failBad ctx gid t.seq g.bad (openLaunches ctx gid t.seq 0 nodes s1))
  | _, _ => .next s

/-! ### The start of a launch -/

/-- Change a launch. -/
def modLaunch (lid : Nat) (f : Launch → Launch) (s : State) : State :=
  match s.launches.find? lid with
  | none => s
  | some l => { s with launches := s.launches.set lid (f l) }

/-- The lease list of a launch: none where it cannot be read, or an entry breaks R312. DEDUCED, log 42. -/
def leaseList (s : State) (l : Launch) : Option (List (Nat × Nat)) :=
  let n := nodeField l.desc 308 12
  match sysRead s l.ctx (nodeField l.desc 256 52) (16 * n) with
  | none => none
  | some bs => (List.range n).mapM fun i =>
      let w := leNat ((bs.drop (16 * i)).take 16)
      let a := bitsOf w 0 64
      let m := bitsOf w 64 64
      if a % 4096 = 0 ∧ m % 4096 = 0 ∧ m ≠ 0 then some (a, m) else none

/-- The pages of a list of leases. -/
def leasePages (ls : List (Nat × Nat)) : List Nat := ls.flatMap fun p => (List.range (p.2 / 4096)).map fun i => p.1 + 4096 * i

/-- The page does not end in a present leaf; the physical address of the entry that the walk ended at (R336). -/
def notPresent (s : State) (ctx va : Nat) : Option Nat :=
  if 2 ^ 52 ≤ va then some 0
  else match walk s ctx va with
    | .leaf _ _ => none
    | .absent _ epa _ _ => some epa
    | .bad epa => some epa

/-- A record of a lease fill of a page: pending, class PAGE, subcode 3 (R336, R341). -/
def fillRecord (lid va epa : Nat) (s : State) : State :=
  match s.launches.find? lid with
  | none => s
  | some l =>
    let (id, s1) := takeFresh s
    let (seq, s2) := raiseRecord l.ctx 0 ⟨0, 0, 0, false⟩
      { cls := .page, sub := 3, pend := true, launchId := launchIdOf l, faddr := va, aux := epa } s1
    { s2 with parks := s2.parks ++ [⟨id, l.ctx, none, lid, va, 3, seq, false, 0, 0⟩] }

/-- Another launch of the context is running or running out. -/
def othersRun (s : State) (lid ctx : Nat) : Bool :=
  s.launches.any fun p => p.1 != lid && p.2.ctx == ctx && (p.2.state == .running || p.2.state == .cancelling)

/-- A launch brings a binding table or a queue map of its own (R312). -/
def Launch.brings (l : Launch) : Bool := nodeField l.desc 320 52 != 0 || nodeField l.desc 384 52 != 0

/-- No other launch of the context that brought a table or a map of its own has still to complete (R312). -/
def unbarred (s : State) (lid ctx : Nat) : Bool :=
  ! s.launches.any fun p => p.1 != lid && p.2.ctx == ctx && p.2.brings && (p.2.state == .running || p.2.state == .cancelling)

/-- A launch may start: its dependencies have completed, and none of its context bars it (R312). -/
def mayStart (s : State) (lid : Nat) (l : Launch) : Bool :=
  let edges := ((graphOf s l.gid).map (·.edges)).getD []
  (edges.filter fun e => e.2 == l.node).all (fun e => (launchesOf s l.gid l.seq l.ctx).all fun p =>
      p.2.node != e.1 || p.2.state == .complete || p.2.state == .errors)
    && unbarred s lid l.ctx

/-- A launch whose leases are resident goes on: one that brings a table or a map waits until no other launch of its context runs (R312). -/
def mayProceed (s : State) (lid : Nat) (l : Launch) : Bool :=
  unbarred s lid l.ctx && (! l.brings || ! othersRun s lid l.ctx)
    && ! s.parks.any fun p => p.thread.isNone && p.launch == lid

/-- A binding-table image: none where it cannot be read, or an entry breaks the checks of BIND (R312). DEDUCED, log 42. -/
def readBindtab (s : State) (l : Launch) : Option (Map Nat Region) :=
  let n := nodeField l.desc 372 11
  match sysRead s l.ctx (nodeField l.desc 320 52) (32 * n) with
  | none => none
  | some bs => (List.range n).mapM fun i =>
      let w := leNat ((bs.drop (32 * i)).take 32)
      let base := bitsOf w 0 64
      let size := bitsOf w 64 64
      let obj := bitsOf w 128 64
      if base % 64 = 0 ∧ size % 64 = 0 ∧ size ≠ 0 ∧ obj % 8 = 0 ∧ w / 2 ^ 192 = 0 then some (i, ⟨base, size, obj⟩) else none

/-- Every page of a range lies in a lease of a launch (R27, R312). -/
def rangeLeased (l : Launch) (a n : Nat) : Bool :=
  (List.range (roundUp n 4096 / 4096)).all fun i => l.leases.any fun p => decide (p.1 ≤ a + 4096 * i) && decide (a + 4096 * i < p.1 + p.2)

/-- One entry of a queue map: a queue, with the items that it starts with; none where it breaks the table, or its ring leaves the leases
(R327). -/
def qmapEntry (s : State) (l : Launch) (w : Nat) : Option (Option (QMap × Nat)) :=
  let ring := bitsOf w 0 52
  let caplog := bitsOf w 83 5
  let die := bitsOf w 80 3
  let hwq := bitsOf w 64 16
  let init := bitsOf w 88 21
  if bitsOf w 52 12 ≠ 0 ∨ w / 2 ^ 109 ≠ 0 ∨ 20 < caplog ∨ 64 ≤ hwq ∨ ring % 4096 ≠ 0 then none
  else if caplog = 0 then (if init = 0 then some none else none)
  else if 2 ^ caplog < init then none
  else if ! rangeLeased l ring (16 * 2 ^ caplog) then none
  else if (s.lodeOwner.find? (die, hwq)).any fun o => o != l.ctx then none
  else some (some (⟨die, hwq, caplog, ring⟩, init))

/-- The entries of the bytes of a queue map, with their queues. -/
def qmapEntries (s : State) (l : Launch) (bs : List Byte) : Option (List (Nat × Option (QMap × Nat))) :=
  (List.range Config.qmapQueues).mapM fun q => (qmapEntry s l (leNat ((bs.drop (16 * q)).take 16))).map fun e => (q, e)

/-- The initial items of a ring. -/
def ringItems (n : Nat) (rb : List Byte) : List QWord := (List.range n).map fun i => BitVec.ofNat 128 (leNat ((rb.drop (16 * i)).take 16))

/-- The mapped queues with their initial items. -/
def qmapItems (s : State) (ctx : Nat) (es : List (Nat × Option (QMap × Nat))) : Option (List (Nat × QMap × List QWord)) :=
  (es.filterMap fun p => p.2.map fun x => (p.1, x)).mapM fun p =>
    (sysRead s ctx p.2.1.ring (16 * p.2.2)).map fun rb => (p.1, p.2.1, ringItems p.2.2 rb)

/-- A queue map: none where it cannot be read, breaks R327, or a ring's initial items cannot be read. DEDUCED, log 71. -/
def readQmap (s : State) (l : Launch) : Option (List (Nat × QMap × List QWord)) :=
  ((sysRead s l.ctx (nodeField l.desc 384 52) (16 * Config.qmapQueues)).bind fun bs => qmapEntries s l bs).bind fun es => qmapItems s l.ctx es

/-- Map the Lode queues of a context: hardware queues that its map names no longer are free for others (R327). -/
def loadQmap (ctx : Nat) (qs : List (Nat × QMap × List QWord)) (s : State) : State :=
  let s1 := modCtx ctx (fun c => { c with queues := qs.map fun q => (q.1, q.2.1) }) { s with lodeOwner := s.lodeOwner.filter fun p => p.2 != ctx }
  qs.foldl (fun s q => { s with lodes := s.lodes.set (q.2.1.die, q.2.1.hwq) q.2.2, lodeOwner := s.lodeOwner.set (q.2.1.die, q.2.1.hwq) ctx }) s1

/-- Step 2 of a launch's start: the binding table (R312). The Boolean says that the launch goes on. -/
def startTable (l : Launch) (s : State) : Bool × State :=
  if nodeField l.desc 320 52 = 0 then (true, s)
  else match readBindtab s l with
    | none => (false, s)
    | some m => (true, modCtx l.ctx (fun c => { c with unbound := c.bindtab.map (·.2) ++ c.unbound, bindtab := m }) s)

/-- Step 3 of a launch's start: the queue map (R312, R327). -/
def startQueues (l : Launch) (s : State) : Bool × State :=
  if nodeField l.desc 384 52 = 0 then (true, s)
  else match readQmap s l with
    | none => (false, s)
    | some m => (true, loadQmap l.ctx m s)

/-- The leased pages of a launch that are writable now (R337). -/
def writablePages (s : State) (l : Launch) : List Nat :=
  (leasePages l.leases).filter fun va => match walk s l.ctx va with
    | .leaf _ x => x.w
    | _ => false

/-- The last steps of a launch's start, in order (R312): binding table, queue map, and the full acquire (R90). -/
def startLaunch (lid : Nat) (l : Launch) (s : State) : State :=
  match startTable l s with
  | (false, s1) => finishLaunch lid .cancelled s1
  | (true, s1) => match startQueues l s1 with
    | (false, s2) => finishLaunch lid .cancelled s2
    | (true, s2) => modLaunch lid (fun x => { x with state := .running, writable := writablePages s2 l }) { s2 with l1 := [] }

/-- The launch of a node of a graph's running trigger. -/
def launchAt (s : State) (gid node : Nat) : Option (Nat × Launch) :=
  match s.trigs.find? fun t => t.gid == gid && t.running with
  | none => none
  | some t => (launchesOf s gid t.seq t.ctx).find? fun p => p.2.node == node

/-- LAUNCH_START (R312, R319, R336). DEDUCED, log 42. -/
def execLaunchStart (gid node : Nat) (s : State) : Host.Outcome State Fault Refusal :=
  match launchAt s gid node with
  | none => .next s
  | some (lid, l) =>
    if ! mayStart s lid l then .next s
    else match l.state with
      | .waiting =>
        let s1 := writeCompl l s
        match leaseList s1 l with
        | none => .next (finishLaunch lid .cancelled s1)
        | some ls =>
          let s2 := modLaunch lid (fun l => { l with state := .filling, leases := ls }) s1
          let s3 := (leasePages ls).foldl (fun s va => match notPresent s l.ctx va with
            | none => s
            | some epa => fillRecord lid va epa s) s2
          .next (if mayProceed s3 lid l then startLaunch lid { l with leases := ls } s3 else s3)
      | .filling => .next (if mayProceed s lid l then startLaunch lid l s else s)
      | _ => .next s

/-! ### Dispatch -/

/-- Gangs of a unit of a launch, and slices of a gang (R305). -/
def gangsOfDesc (d : BitVec 1024) : Nat := nodeField d 55 5 + 1
/-- Slices of a gang of a launch. -/
def slicesOfDesc (d : BitVec 1024) : Nat := nodeField d 52 3 + 1

/-- The entry lies in a matrix module (R240). -/
def isMatrix (s : State) (l : Launch) : Bool :=
  s.modules.any fun m => m.ctx == l.ctx && m.matrix && decide (m.code ≤ nodeField l.desc 0 52) && decide (nodeField l.desc 0 52 < m.code + 8 * m.nwords)

/-- Ranges of a context's growable area that stack windows and spill regions take (R413). -/
def usedGrow (s : State) (ctx : Nat) : List (Nat × Nat) :=
  (s.units.filter fun p => p.2.ctx == ctx && p.2.status != .done).flatMap fun p => p.2.binds.flatMap fun b =>
    [(b.stkBase, 4 * (b.slices + 1) * (b.stkSize * 4096 + 4096)), (b.spillBase, 0x80000)]

/-- Bytes of the save area that are reserved for the units of a context, with their index entries (R350). -/
def reservedBlocks (s : State) (ctx : Nat) : Nat := ((s.units.filter fun p => p.2.ctx == ctx).map fun p => p.2.block).sum

/-- The worst-case save block of a unit with its index entry (R350). DESIGN CHOICE, log 39. -/
def worstBlock (un : UnitSt) : Nat :=
  let lanes := (un.binds.map fun b => 4 * (b.slices + 1) * 8 * b.regMax).sum
  roundUp (blockBytes un lanes 0 0 + Config.blockSlack.toNat) 4096 + 16

/-- The core may run units of a launch: it lies on a die of DIEMASK, or of the graph itself, is not fenced, and its die schedules
(R305, R376). -/
def coreAllowed (s : State) (l : Launch) (core : Nat) : Bool :=
  let m := nodeField l.desc 184 8
  decide (core < Config.cores) && ! s.fenced.contains core && ! s.fencing.contains core && ! s.diedead.contains (dieOf core)
    && (if m = 0 then dieOf core == dieOfGraph l.gid else m / 2 ^ dieOf core % 2 == 1)

/-- Units of a launch that wait for room: those of its window that are not resident (R316). DEDUCED, log 86. -/
def waiting (s : State) (lid : Nat) (l : Launch) : List Nat :=
  let top := min (doneOf l + Config.window) (unitsIn l.desc)
  (List.range top).filter fun i => ! l.completed.contains i &&
    (! l.begun.contains i || s.units.any fun p => p.2.launch == lid && p.2.idx == i && p.2.status == .saved)

/-- The saved unit of an index of a launch. -/
def savedUnit (s : State) (lid idx : Nat) : Option Nat :=
  ((s.units.filter fun p => p.2.launch == lid && p.2.idx == idx && p.2.status == .saved).map (·.1)).head?

/-- Slice rows that a unit takes (R315): those of its saved slices, or its launch's base count for each. -/
def rowsFor (s : State) (lid idx : Nat) (l : Launch) : Nat :=
  match savedUnit s lid idx with
  | some u => ((s.slices.filter fun p => p.1.u == u).map fun p => p.2.nreg).sum
  | none => gangsOfDesc l.desc * slicesOfDesc l.desc * 8 * nodeField l.desc 128 6

/-- The headroom that must stay free once a unit is admitted (R56): that of the oldest resident unit, or of the unit itself. -/
def headroomWith (s : State) (lid idx core : Nat) (l : Launch) : Nat :=
  match unitsOn s core with
  | _ :: _ => headroom s core
  | [] => gangsOfDesc l.desc * slicesOfDesc l.desc * 8 * nodeField l.desc 136 6 - rowsFor s lid idx l

/-- The unit's room on a core: slots, slices, registers, scratchpad, the matrix engine's bank, and its records where it has been saved
(R17, R18, R56, R240, R315, R353). -/
def roomOn (s : State) (lid idx core : Nat) (l : Launch) : Bool :=
  let slicesNow := ((unitsOn s core).map fun u => ((unitOf s u).binds.map fun b => b.slices + 1).sum).sum
  decide (gangsOfDesc l.desc ≤ (freeSlots s core).length)
    && decide (slicesNow + gangsOfDesc l.desc * slicesOfDesc l.desc ≤ Config.residentSlices)
    && decide (rowsFor s lid idx l + headroomWith s lid idx core l ≤ freeRows s core)
    && (placeIn (usedScratch s core) 0 Config.scratchKiB (nodeField l.desc 144 10) 1 0).isSome
    && (! isMatrix s l || (unitsOn s core).all fun u => ! (unitOf s u).matrix)
    && (match savedUnit s lid idx with
        | some u => rangesFree s u (clusterOf core)
        | none => true)

/-- The device dispatches: it has booted and is not in the state FAILED (R377). -/
def dispatches (s : State) : Bool := s.health == .ok || s.health == .degraded

/-- A context that is being restored takes its saved units back first, in ascending order of launch and index (R353). -/
def restoreFirst (s : State) (ctx lid idx : Nat) : Bool :=
  match (ctxOf s ctx).state with
  | .running => true
  | .restoring => (savedOf s ctx).head? == savedUnit s lid idx && (savedUnit s lid idx).isSome
  | _ => false

/-- The bind record of a gang of a unit (R314). -/
def bindFor (l : Launch) (idx g slot scrBase stk spill row : Nat) (slots : List Nat) : Bind :=
  let d := l.desc
  let pair := nodeField d 166 1 == 1
  { valid := true, wdog := nodeField d 192 32, quantum := if nodeField d 164 2 = 1 then nodeField d 224 16 else 0,
    stkSize := nodeField d 154 9, stkBase := stk, spillBase := spill, pairWait := nodeField d 168 16, scrSize := nodeField d 144 10,
    scrBase := scrBase, regMax := nodeField d 136 6, regN := nodeField d 128 6, regBase := row, band := nodeField d 240 2,
    partner := if pair then slots.getD (partnerOf g) slot else 0, pair := if pair then 1 + g % 2 else 0, mode := nodeField d 164 2,
    det := nodeField d 163 1 == 1, asid := l.ctx, launchId := launchIdOf l, unitIdx := idx, gang := g, slices := nodeField d 52 3,
    entry := nodeField d 0 52 }

/-- Bytes of the stack window of a gang of a launch (R413). -/
def stackBytes (d : BitVec 1024) : Nat := 4 * slicesOfDesc d * (nodeField d 154 9 * 4096 + 4096)

/-- Places for the stack window and the spill region of one gang in the growable area of the context (R413): the places are free choices.
DESIGN CHOICE, log 38. -/
def placeStack (c : Ctx) (d : BitVec 1024) (used : List (Nat × Nat)) (s : State) : Option (Nat × Nat) :=
  let lo := bitsOf c.growbase.toNat 21 31 * Config.growUnit
  let hi := lo + c.growsize.toNat / Config.growUnit * Config.growUnit
  (placeIn used lo hi (stackBytes d) 4096 (Config.freeNat s.free)).bind fun a =>
    (placeIn ((a, stackBytes d) :: used) lo hi Config.spillBytes Config.spillBytes (Config.freeNat (s.free + 1))).map fun b => (a, b)

/-- Places for gangs, one after the other. DESIGN CHOICE, log 38. -/
def placeStacks (c : Ctx) (d : BitVec 1024) : Nat → List (Nat × Nat) → State → Option (List (Nat × Nat)) × State
  | 0, _, s => (some [], s)
  | k + 1, used, s =>
    (placeStack c d used s).elim (none, { s with free := s.free + 2 }) fun p =>
      let r := placeStacks c d k ((p.1, stackBytes d) :: (p.2, Config.spillBytes) :: used) { s with free := s.free + 2 }
      (r.1.map fun l => p :: l, r.2)

/-- The save area has no room for the worst block of a unit beside the blocks that are reserved (R350). -/
def saveFull (s : State) (un : UnitSt) : Bool := decide ((ctxOf s un.ctx).savesize.toNat < Config.saveHeader + reservedBlocks s un.ctx + worstBlock un)

/-- A new unit with places for its gangs' stack windows and spill regions: its bind records (R13, R314). -/
def newUnit (lid idx core : Nat) (l : Launch) (places : List (Nat × Nat)) (s : State) : UnitSt :=
  let slots := (freeSlots s core).take (gangsOfDesc l.desc)
  let scr := (placeIn (usedScratch s core) 0 Config.scratchKiB (nodeField l.desc 144 10) 1 0).getD 0
  let row := Config.sliceRows - freeRows s core
  let binds := (List.range (gangsOfDesc l.desc)).map fun g =>
    let p := places.getD g (0, 0)
    bindFor l idx g (slots.getD g 0) scr p.1 p.2 (row + g * slicesOfDesc l.desc * 8 * nodeField l.desc 128 6) slots
  { launch := lid, idx := idx, ctx := l.ctx, core := core, slots := slots, matrix := isMatrix s l, binds := binds }

/-- Places for the gangs of a new unit of a launch, if they fit (R413). -/
def unitPlaces (l : Launch) (s : State) : Option (List (Nat × Nat)) × State :=
  placeStacks (ctxOf s l.ctx) l.desc (gangsOfDesc l.desc) (usedGrow s l.ctx) s

/-- A new unit's stack windows and spill regions fit in the growable area, and its save block in the save area (R350, R413). -/
def unitFits (s : State) (lid idx core : Nat) (l : Launch) : Bool :=
  (savedUnit s lid idx).isSome || ((unitPlaces l s).1.isSome && ! saveFull s (newUnit lid idx core l [] s))

/-- A unit qualifies on a core (R315, R318, R350, R353, R413). DEDUCED, log 44. -/
def qualifies (s : State) (lid idx core : Nat) (l : Launch) : Bool :=
  dispatches s && coreAllowed s l core && restoreFirst s l.ctx lid idx && (waiting s lid l).contains idx && roomOn s lid idx core l
    && unitFits s lid idx core l

/-- The units of a launch that wait for room, in the order in which they come for it: ascending; in quantum mode the descheduled ones first,
the oldest of them first (R315, R316). DEDUCED, log 86. -/
def unitOrder (s : State) (lid : Nat) (l : Launch) : List Nat :=
  let ws := waiting s lid l
  if nodeField l.desc 164 2 = 1 then
    let back := sortBy (fun a b => decide (a.2 ≤ b.2)) (ws.filterMap fun i => (savedUnit s lid i).map fun u => (i, (unitOf s u).seq))
    back.map (·.1) ++ ws.filter fun i => (savedUnit s lid i).isNone
  else ws

/-- The unit of a launch that a core is given next: the first in order that qualifies there; the room that a deschedule has made on the core
goes first to another unit than the one just descheduled (R315, R316). DEDUCED, log 86. -/
def nextUnit (s : State) (lid core : Nat) (l : Launch) : Option Nat :=
  let ok := (unitOrder s lid l).filter fun i => qualifies s lid i core l
  match l.justOut with
  | none => ok.head?
  | some (i, c) => if c = core then (ok.filter (· != i)).head?.or ok.head? else ok.head?

/-- The room that a deschedule has made on a core goes to another unit of the launch first (R316). -/
def claims (s : State) (lid core : Nat) (l : Launch) : Bool :=
  match l.justOut with
  | none => false
  | some (i, c) => c == core && (match nextUnit s lid core l with
      | none => false
      | some k => k != i)

/-- The place of a launch's trigger in the order of acceptance (R315). DEDUCED, log 41. -/
def acceptOrder (s : State) (l : Launch) : Nat :=
  (s.trigs.findIdx? fun t => t.ctx == l.ctx && t.gid == l.gid && t.seq == l.seq).getD s.trigs.length

/-- A launch's units come before another's: by band, then by acceptance of the trigger, then by node (R315). DEDUCED, log 41. -/
def launchBefore (s : State) (a b : Launch) : Bool :=
  let ba := nodeField a.desc 240 2
  let bb := nodeField b.desc 240 2
  if ba ≠ bb then decide (bb < ba)
  else if acceptOrder s a ≠ acceptOrder s b then decide (acceptOrder s a < acceptOrder s b) else decide (a.node < b.node)

/-- A unit of another launch comes first on a core: one for which a deschedule has made room there, or one of a launch that comes before and
that qualifies on some core (R315, R316). DEDUCED, log 44. -/
def outranked (s : State) (lid core : Nat) (l : Launch) : Bool :=
  s.launches.any fun p => p.1 != lid && p.2.state == .running &&
    (claims s p.1 core p.2 || (! claims s lid core l && launchBefore s p.2 l &&
      (List.range Config.cores).any fun c => (nextUnit s p.1 c p.2).isSome))

/-- The gangs of a new unit as they start (R313). -/
def startGangs (u : Nat) (l : Launch) (s : State) : State :=
  let d := l.desc
  let params := (List.range 8).flatMap fun i => let p := BitVec.ofNat 64 (nodeField d (512 + 64 * i) 64); [loW p, hiW p]
  (gangsIn s u).foldl (fun s g =>
    let b := bindOf s u g
    let s1 := { s with gangs := s.gangs.set ⟨u, g⟩ { nslices := slicesOfDesc d } }
    let s2 := (params.mapIdx fun i w => (i, w)).foldl (fun s p => setGreg ⟨u, g⟩ p.1 p.2 s) s1
    (List.range (slicesOfDesc d)).foldl (fun s j =>
      let s3 := { s with slices := s.slices.set ⟨u, g, j⟩ { nreg := 8 * b.regN },
                         thr := s.thr.set ⟨u, g, j, false⟩ { pos := .head b.entry, mask := 0xF, head := 0xF, since := s.clock } }
      (List.range 4).foldl (fun s i =>
        let sp := BitVec.ofNat 64 (stackTop b (4 * j + i))
        setVreg ⟨u, g, 4 * j + i⟩ 253 (hiW sp) (setVreg ⟨u, g, 4 * j + i⟩ 252 (loW sp) s)) s3) s2) s

/-- Dispatch a new unit whose gangs have places (R13, R313, R314): its bind records, and its gangs at the entry trace. -/
def dispatchAt (lid idx core : Nat) (l : Launch) (places : List (Nat × Nat)) (s : State) : State :=
  let un := newUnit lid idx core l places s
  let (u, s2) := takeFresh s
  let (age, s3) := takeFresh s2
  let s4 := { s3 with units := s3.units.set u { un with seq := age, block := worstBlock un } }
  startGangs u l (modLaunch lid (fun l => { l with begun := idx :: l.begun }) s4)

/-- Dispatch a new unit where its stack windows and spill regions find places (R413). -/
def dispatchNew (lid idx core : Nat) (l : Launch) (s : State) : State :=
  let r := unitPlaces l s
  match r.1 with
  | none => s
  | some places => dispatchAt lid idx core l places r.2

/-- The room that a deschedule of a launch has made on a core is taken, once the unit descheduled is saved (R316). -/
def takeRoom (s : State) (lid idx core : Nat) (l : Launch) : Launch :=
  match l.justOut with
  | none => l
  | some (i, c) => if c = core ∧ (i = idx ∨ (savedUnit s lid i).isSome) then { l with justOut := none } else l

/-- Dispatch a unit, a new one or one that comes back. -/
def dispatchUnit (lid idx core : Nat) (l : Launch) (s : State) : State :=
  let s1 := modLaunch lid (takeRoom s lid idx core) s
  match savedUnit s lid idx with
  | some u => restoreUnit u core ((freeSlots s core).take (gangsOfDesc l.desc)) s1
  | none => dispatchNew lid idx core l s1

/-- UNIT_DISPATCH (R313 to R316, R318, R350, R353, R413): a unit that qualifies and that no other outranks. -/
def execUnitDispatch (lid idx core : Nat) (s : State) : Host.Outcome State Fault Refusal :=
  match s.launches.find? lid with
  | none => .next s
  | some l =>
    if l.state == .running && nextUnit s lid core l == some idx && ! outranked s lid core l then .next (dispatchUnit lid idx core l s)
    else .next s

/-! ### Deschedule -/

/-- A unit stands at a YIELD (R152). DEDUCED, log 47. -/
def atYield (s : State) (u : Nat) : Bool := (unitThreads s u).any fun p => p.2.wait == .yield

/-- A unit is blocked in WAITMON: a slice of it waits there, and no other thread of it may issue (R316). -/
def inWaitmon (s : State) (u : Nat) : Bool :=
  let waits := fun (t : Thread) => match t.wait with
    | .monitor _ none => true
    | _ => false
  ((unitThreads s u).any fun p => waits p.2) && (unitThreads s u).all fun p => waits p.2 || p.2.wait != .none || (match p.2.pos with
    | .dead => true
    | .regang _ => true
    | _ => ! p.2.parked.isEmpty)

/-- Some unit waits for room that the deschedule of a unit past its quantum would make (R316). -/
def roomWanted (s : State) (u : Nat) : Bool :=
  let un := unitOf s u
  let gone := { s with units := s.units.modify u {} fun x => { x with status := .saved, slots := [] } }
  let mine := ((s.launches.find? un.launch).map fun l => nodeField l.desc 240 2).getD 0
  s.launches.any fun p => p.2.state == .running && (p.1 == un.launch || decide (mine ≤ nodeField p.2.desc 240 2)) &&
    (waiting s p.1 p.2).any fun i => ! qualifies s p.1 i un.core p.2 && qualifies gone p.1 i un.core p.2

/-- The firmware may deschedule a unit (R316). DEDUCED, log 47. -/
def mayDeschedule (s : State) (u : Nat) : Bool :=
  let un := unitOf s u
  un.status == .resident &&
    (((atYield s u || inWaitmon s u) && (match s.launches.find? un.launch with
        | none => false
        | some l => (waiting s un.launch l).any fun i => i != un.idx))
     || (un.quantumUp && roomWanted s u))

/-- UNIT_DESCHEDULE (R316): the unit begins to be saved. -/
def execUnitDeschedule (u : Nat) (s : State) : Host.Outcome State Fault Refusal :=
  if mayDeschedule s u then
    let un := unitOf s u
    .next (beginSave u (modLaunch un.launch (fun l => { l with
      justOut := if nodeField l.desc 164 2 = 1 then none else some (un.idx, un.core) }) s))
  else .next s

/-- QUANTUM_EXPIRY (R316): a unit in quantum mode has been resident for its quantum. -/
def execQuantumExpiry (u : Nat) (s : State) : Host.Outcome State Fault Refusal :=
  if (unitOf s u).status == .resident && (bindOf s u 0).mode == 1 then .next (modUnit u (fun x => { x with quantumUp := true }) s)
  else .next s

/-- Units that are being saved although their context runs, and have come to rest, are saved into the save area (R316, R348). -/
def finishSaves (s : State) : State :=
  (s.units.filter fun p => p.2.status == .saving && (ctxOf s p.2.ctx).state != .saving).foldl (fun s p =>
    if quiet s p.1 then writeSaveArea p.2.ctx (saveUnit p.1 s) else s) s

/-! ### Cancel -/

/-- Cancel one unit of a launch that is resident or saved (R322, R354). -/
def cancelResident (u : Nat) (s : State) : State :=
  match (unitOf s u).status with
  | .saved => finishUnit u (modUnit u (fun x => { x with failed := true }) (settleRecords u s))
  | _ => endUnit u none s

/-- The unit of an index of a launch that has been dispatched and has not ended. -/
def activeUnit (s : State) (lid idx : Nat) : Option Nat :=
  ((s.units.filter fun p => p.2.launch == lid && p.2.idx == idx && p.2.status != .done).map (·.1)).head?

/-- Cancel a unit of a launch by its index (R322, R323). -/
def cancelIndex (lid idx : Nat) (s : State) : State :=
  match s.launches.find? lid with
  | none => s
  | some l =>
    if l.state.final || decide (unitsIn l.desc ≤ idx) || l.completed.contains idx then s
    else match activeUnit s lid idx with
      | some u => cancelResident u s
      | none => countUnit lid idx true (modLaunch lid (fun l => { l with begun := idx :: l.begun }) s)

/-- The lease-fill records of a launch are pending no more (R336, R345). -/
def dropFills (lid : Nat) (s : State) : State :=
  let mine := fun (k : Park) => k.thread.isNone && k.launch == lid
  { s with
    parks := s.parks.filter (fun k => ! mine k),
    frecs := s.frecs.map fun r =>
      if s.parks.any fun k => mine k && k.ctx == r.ctx && k.seq == r.seq then { r with pending := false } else r }

/-- A launch fails at its start: no unit of it runs (R336). DEDUCED, log 43. -/
def failFill (lid : Nat) (s : State) : State := finishLaunch lid .cancelled (dropFills lid s)

/-- Cancel a launch (R322): every unit of it; STATE is written when its units have run out. DEDUCED, log 43. -/
def cancelLaunchAt (lid : Nat) (s : State) : State :=
  match s.launches.find? lid with
  | none => s
  | some l =>
    if l.state.final then s
    else
      let s1 := modLaunch lid (fun l => { l with state := .cancelling }) (dropFills lid s)
      checkLaunch lid ((List.range (unitsIn l.desc)).foldl (fun s i => cancelIndex lid i s) s1)

/-- CANCEL_UNIT (R321, R322): the unit that CANCELUNIT names, of the graph's running trigger. -/
def execCancelUnit (ctx : Nat) (v : DWord) (s : State) : Host.Outcome State Fault Refusal := hostDoes s <|
  match launchAt s (bitsOf v.toNat 32 16) (bitsOf v.toNat 20 12) with
  | none => .next s
  | some (lid, l) => if l.ctx = ctx then .next (cancelIndex lid (bitsOf (ctxOf s ctx).cancelunit.toNat 0 48) s) else .next s

/-- CANCEL_LAUNCH (R321, R322). -/
def execCancelLaunch (ctx : Nat) (v : DWord) (s : State) : Host.Outcome State Fault Refusal := hostDoes s <|
  match launchAt s (bitsOf v.toNat 32 16) (bitsOf v.toNat 20 12) with
  | none => .next s
  | some (lid, l) => if l.ctx = ctx then .next (cancelLaunchAt lid s) else .next s

/-- A queued trigger is dropped: it completes and counts (R320, R322). -/
def dropTrigger (t : Trig) (s : State) : State :=
  raiseMsix (vfOf s t.ctx) 0 (modCtx t.ctx (fun c =>
    { c with graphdone := c.graphdone.modify t.gid 0 (· + 1), phasedone := c.phasedone.modify t.phase 0 (· + 1), jobdone := c.jobdone + 1 })
    { s with trigs := s.trigs.filter fun x => ! (x.ctx == t.ctx && x.gid == t.gid && x.seq == t.seq) })

/-- Cancel a trigger: the launches of a running one, or the queued one itself (R322). -/
def cancelTrigger (t : Trig) (s : State) : State :=
  if t.running then ((launchesOf s t.gid t.seq t.ctx).map (·.1)).foldl (fun s lid => cancelLaunchAt lid s) s else dropTrigger t s

/-- Cancel the triggers that satisfy a predicate: queued ones are dropped before running ones are cancelled. -/
def cancelTriggers (p : Trig → Bool) (s : State) : State :=
  let ts := s.trigs.filter p
  ((ts.filter fun t => ! t.running) ++ ts.filter fun t => t.running).foldl (fun s t => cancelTrigger t s) s

/-- CANCEL_GRAPH (R322). -/
def execCancelGraph (ctx : Nat) (v : DWord) (s : State) : Host.Outcome State Fault Refusal := hostDoes s <|
  .next (cancelTriggers (fun t => t.ctx == ctx && t.gid == bitsOf v.toNat 32 16) s)

/-- CANCEL_PHASE (R322). -/
def execCancelPhase (ctx : Nat) (v : DWord) (s : State) : Host.Outcome State Fault Refusal := hostDoes s <|
  .next (cancelTriggers (fun t => t.ctx == ctx && t.phase == bitsOf v.toNat 14 6) s)

/-- CANCEL_JOB (R322). -/
def execCancelJob (ctx : Nat) (_v : DWord) (s : State) : Host.Outcome State Fault Refusal := hostDoes s <|
  .next (cancelTriggers (fun t => t.ctx == ctx) s)

/-! ### The watchdog -/

/-- The watchdog of a unit counts: the unit is resident, has a budget, and no slice of it is stopped or parked (R326). -/
def wdogCounts (s : State) (u : Nat) : Bool :=
  (unitOf s u).status == .resident && (bindOf s u 0).wdog != 0xFFFFFFFF && ! (unitThreads s u).any fun p =>
    ! p.2.parked.isEmpty || (match p.2.wait with
      | .stopped _ => true
      | _ => false)

/-- The record of a live slice at the end of its watchdog: its trace, or the word at which it stands between traces (R326). -/
def wdogRecord (t : ThreadId) (s : State) : State :=
  let th := threadOf s t
  let a := wordAddr th
  let (tr, wa) := match th.pos with
    | .body _ => (th.tr, a)
    | _ => (a, a)
  let f : Flt := ⟨.wdog, 0, 0, 0, wa⟩
  noteRecord t { recOf s t f th.mask false with traddr := tr } s

/-- WATCHDOG_EXPIRY (R326): one record for each live slice, written once the unit has ended (R340). -/
def execWatchdogExpiry (u : Nat) (s : State) : Host.Outcome State Fault Refusal :=
  if wdogCounts s u then
    let ts := (unitThreads s u).filter fun p => ! p.1.h && p.2.pos != .dead
    .next (endUnit u (some .wdog) (ts.foldl (fun s p => wdogRecord p.1 s) s))
  else .next s

end Sys2Proof.Machine
end

