-- ==== Sys2Proof/Machine/Faults.lean ====
section
/-! DEFINITION. What drivers, the firmware and the storage do to contexts: pre-emption, resume and invalidation, growing pages, answering
fault records, and soft errors (R59, R330, R335 to R345, R346, R348, R353, R354). -/

namespace Sys2Proof.Machine

/-! ### Pre-emption, resume, invalidation -/

/-- The resident units of a context. -/
def residentOf (s : State) (ctx : Nat) : List Nat := (s.units.filter fun p => p.2.ctx == ctx && p.2.status == .resident).map (·.1)

/-- PREEMPT: every resident unit begins to be saved at once; it has no effect unless the context runs (R58, R348, R354). DEDUCED, log 102. -/
def doPreempt (ctx : Nat) (s : State) : State :=
  if (ctxOf s ctx).state = .running then
    (residentOf s ctx).foldl (fun s u => beginSave u s) (modCtx ctx (fun c => { c with state := .saving }) s)
  else s

/-- RESUME: the saved units are to return; while the context is saving it is held (R353, R354). -/
def doResume (ctx : Nat) (s : State) : State :=
  match (ctxOf s ctx).state with
  | .saved => modCtx ctx (fun c => { c with state := .restoring, resumeHeld := false }) s
  | .saving => modCtx ctx (fun c => { c with resumeHeld := true }) s
  | _ => s

/-- The `n` bytes from a virtual address that an invalidation in progress covers a part of (R330, R335). -/
def invalCovers (c : Ctx) (va n : Nat) : Bool :=
  let b := bitsOf c.invcur.1.toNat 12 40 * 4096
  c.invcur.1.getLsbD 0 || (decide (va < b + c.invcur.2.toNat) && decide (b < va + n))

/-- INVAL: entries leave every TLB, and INVBUSY is set (R335). DEDUCED, log 62. -/
def doInval (ctx : Nat) (s : State) : State :=
  let c := { ctxOf s ctx with invbusy := true, invcur := ((ctxOf s ctx).invaddr, (ctxOf s ctx).invsize) }
  let keep := fun (e : TlbEnt) => ! (e.ctx == ctx && invalCovers c e.va (2 ^ e.leaf.lg))
  modCtx ctx (fun _ => c) { s with tlbCore := s.tlbCore.filter keep, tlbCluster := s.tlbCluster.filter keep }

/-- One command of CTXCMD (R330): other values are ignored. -/
def ctxCommand (ctx op : Nat) (s : State) : State :=
  match op with
  | 1 => doPreempt ctx s
  | 2 => doResume ctx s
  | 3 => doInval ctx s
  | _ => s

/-- A write to CTXCMD: while INVBUSY is 1 it waits (R335). -/
def writeCtxcmd (ctx op : Nat) (s : State) : State :=
  if (ctxOf s ctx).invbusy then modCtx ctx (fun c => { c with cmdq := c.cmdq ++ [op] }) s else ctxCommand ctx op s

/-- CTXCMD_PREEMPT (R348). -/
def execCtxcmdPreempt (ctx : Nat) (s : State) : Host.Outcome State Fault Refusal := hostDoes s <| .next (writeCtxcmd ctx 1 s)

/-- CTXCMD_RESUME (R353). -/
def execCtxcmdResume (ctx : Nat) (s : State) : Host.Outcome State Fault Refusal := hostDoes s <| .next (writeCtxcmd ctx 2 s)

/-- CTXCMD_INVAL (R335). -/
def execCtxcmdInval (ctx : Nat) (s : State) : Host.Outcome State Fault Refusal := hostDoes s <| .next (writeCtxcmd ctx 3 s)

/-- Every unit of a context that is being saved has come to rest (R348). -/
def saveReady (s : State) (ctx : Nat) : Bool :=
  (s.units.filter fun p => p.2.ctx == ctx && p.2.status == .saving).all fun p => quiet s p.1

/-- PREEMPT_SAVE_COMPLETE (R348): the save area is written, the bind records cleared, and STATE is saved; a held RESUME takes effect. -/
def execPreemptSaveComplete (ctx : Nat) (s : State) : Host.Outcome State Fault Refusal :=
  if (ctxOf s ctx).state == .saving && saveReady s ctx then
    let us := (s.units.filter fun p => p.2.ctx == ctx && p.2.status == .saving).map (·.1)
    let s1 := us.foldl (fun s u => saveUnit u s) s
    let s2 := modCtx ctx (fun c => { c with state := .saved }) (writeSaveArea ctx s1)
    .next (if (ctxOf s2 ctx).resumeHeld then doResume ctx s2 else s2)
  else .next s

/-- RESUME_COMPLETE (R353). -/
def execResumeComplete (ctx : Nat) (s : State) : Host.Outcome State Fault Refusal :=
  if (ctxOf s ctx).state == .restoring && (savedOf s ctx).isEmpty then .next (modCtx ctx (fun c => { c with state := .running }) s)
  else .next s

/-- Something that used an affected translation is not through yet: a buffered or committed write, or an engine command (R335). DEDUCED, log 62. -/
def invalPending (s : State) (ctx : Nat) : Bool :=
  let c := ctxOf s ctx
  let mine := fun (u : Nat) => (unitOf s u).ctx == ctx
  (s.buf.any fun p => mine p.1.u && p.2.any fun b => b.sp.cached && invalCovers c b.addr b.bytes.length)
    || (s.wq.any fun e => e.ctx == ctx)
    || ((allCopies s).any fun x => mine x.u && x.pages.any fun p => invalCovers c (p.1 * 4096) 4096)
    || ((allMats s).any fun x => mine x.u && x.pages.any fun p => invalCovers c (p.1 * 4096) 4096)

/-- The commands that have waited for INVBUSY, in order, as far as another invalidation lets them (R335). -/
def runCmdq (ctx : Nat) : List Nat → State → State
  | [], s => s
  | op :: ops, s =>
    if (ctxOf s ctx).invbusy then modCtx ctx (fun c => { c with cmdq := op :: ops }) s else runCmdq ctx ops (ctxCommand ctx op s)

/-- INVAL_COMPLETE (R335). DEDUCED, log 62. -/
def execInvalComplete (ctx : Nat) (s : State) : Host.Outcome State Fault Refusal :=
  if (ctxOf s ctx).invbusy && ! invalPending s ctx then
    .next (runCmdq ctx (ctxOf s ctx).cmdq (modCtx ctx (fun c => { c with invbusy := false, cmdq := [] }) s))
  else .next s

/-! ### Growing a page -/

/-- The frames that a context's pool holds, the next to take first (R338). -/
def poolFrames (s : State) (ctx n : Nat) : Option (List Nat) :=
  let c := ctxOf s ctx
  let lg := (c.poolcfg.extractLsb' 0 4).toNat
  if (c.pooltail - c.poolhead).toNat < n then none
  else some ((List.range n).map fun i =>
    let k := (c.poolhead.toNat + i) % 2 ^ lg
    bitsOf (leNat (s.mem.readN (bitsOf c.poolbase.toNat 12 40 * 4096 + 8 * k) 8)) 12 40 * 4096)

/-- The attributes of a not-present entry that a grown page takes: SCOPE, CLASS, DETP, W and X (R338, R413). DEDUCED, log 60. -/
def entryAttrs (e : Nat) : Nat := bitsOf e 2 2 * 4 + bitsOf e 5 5 * 32 + bitsOf e 11 1 * 2048

/-- Write one table entry. -/
def writeEntry (pa e : Nat) (s : State) : State := homeWrite (cellsOf ((List.range 8).map (pa + ·)) (leBytes 8 e)) s

/-- A frame is written to zero, and no L1 holds a sector of its former use (R338). -/
def zeroFrame (pa : Nat) (s : State) : State :=
  let s1 := homeWrite ((List.range 4096).map fun i => (pa + i, 0)) s
  { s1 with l1 := s1.l1.filter fun x => x.pa / 4096 * 4096 != pa }

/-- A new table below a not-present entry: every entry of it is growable with the same attributes, so that the range stays so (R333).
DEDUCED, log 60. -/
def growTable (pa attrs : Nat) (s : State) : State :=
  (List.range 512).foldl (fun s i => writeEntry (pa + 8 * i) (attrs + 1024) s) (zeroFrame pa s)

/-- Map one page below a not-present entry at a level, with a frame for each missing table and the last for the page (R338). DEDUCED, log 60. -/
def growFrom (va attrs : Nat) : Nat → Nat → List Nat → State → State
  | _, _, [], s => s
  | epa, _, [f], s => writeEntry epa (f + attrs + 3) (zeroFrame f s)
  | epa, level, f :: fs, s =>
    let s1 := writeEntry epa (f + 1) (growTable f attrs s)
    growFrom va attrs (f + 8 * bitsOf va (12 + 9 * (level - 1)) 9) (level - 1) fs s1

/-- FIRMWARE_PAGE_GROW (R338, R354): the firmware serves a parked fault of a stack or spill page; with too few frames it takes none and
writes the record as pending, with subcode 5. DEDUCED, log 83. -/
def execFirmwarePageGrow (id : Nat) (s : State) : Host.Outcome State Fault Refusal :=
  match s.parks.find? fun p => p.id == id with
  | none => .next s
  | some p => match p.thread with
    | none => .next s
    | some t =>
      if p.seq ≠ 0 then .next s
      else match walk s p.ctx p.va with
        | .absent true epa level e =>
          let f : Flt := ⟨.page, 4, p.va, 0, p.word⟩
          match poolFrames s p.ctx (level + 1) with
          | none =>
            let (seq, s1) := raiseFault t { f with sub := 5, aux := epa } p.lanes true s
            .next { s1 with parks := s1.parks.map fun q => if q.id = id then { q with seq := seq } else q }
          | some fs =>
            let s1 := modCtx p.ctx (fun c => { c with poolhead := c.poolhead + BitVec.ofNat 32 (level + 1) }) s
            let s2 := unpark id (growFrom p.va (entryAttrs e) epa level fs s1)
            .next (raiseFault t { f with aux := fs.getLastD 0 } p.lanes false s2).2
        | _ => .next (unpark id s)

/-! ### Answers -/

/-- A record of the context that a SEQ names, among the last 2^31 and pending (R344). DEDUCED, log 59. -/
def pendingRecord (s : State) (ctx seq : Nat) : Option FRec :=
  s.frecs.find? fun r => r.ctx == ctx && r.seq == seq && r.pending && r.answer.isNone && r.written
    && decide (((ctxOf s ctx).nextRec + 2 ^ 32 - 1 - r.seq) % (2 ^ 32 - 1) ≤ 2 ^ 31)

/-- BAD of FCMDSTAT is set (R344). -/
def setBad (ctx : Nat) (s : State) : State := modCtx ctx (fun c => { c with fcmdbad := true }) s

/-- The answer waits until the slice is restored (R345). -/
def answerLater (s : State) (r : FRec) : Bool :=
  let st := (ctxOf s r.ctx).state
  (st == .saving || st == .saved || (unitOf s r.u).status == .saved || (unitOf s r.u).status == .saving) &&
    ! (s.parks.any fun p => p.ctx == r.ctx && p.seq == r.seq && p.thread.isNone)

/-- Record an answer to be applied later. -/
def keepAnswer (r : FRec) (a : Nat) (s : State) : State :=
  { s with frecs := s.frecs.map fun x => if x.ctx = r.ctx ∧ x.seq = r.seq then { x with pending := false, answer := some a } else x }

/-- A lease fill is walked again (R336). -/
def refill (r : FRec) (p : Park) (s : State) : State :=
  let s1 := { clearRecord r s with parks := s.parks.filter fun q => q.id != p.id }
  match notPresent s1 p.ctx p.va with
  | none => s1
  | some epa => fillRecord p.launch p.va epa s1

/-- Answer one record with REPLAY (R344). -/
def replayOne (r : FRec) (s : State) : State :=
  match s.parks.find? fun p => p.ctx == r.ctx && p.seq == r.seq && p.thread.isNone with
  | some p => refill r p s
  | none => if answerLater s r then keepAnswer r 0 s else replayRecord r s

/-- FCMD_REPLAY (R344, R345): every pending record written at or before the named one is answered, in order. DEDUCED, log 59. -/
def execFcmdReplay (ctx : Nat) (v : DWord) (s : State) : Host.Outcome State Fault Refusal := hostDoes s <|
  let seq := bitsOf v.toNat 0 32
  match pendingRecord s ctx seq with
  | none => .next (setBad ctx s)
  | some last =>
    let all := s.frecs.filter fun r => r.ctx == ctx
    let upTo := (all.takeWhile fun r => r.seq != last.seq) ++ [last]
    let rs := upTo.filter fun r => r.pending && r.answer.isNone && r.written
    .next (modCtx ctx (fun c => { c with fcmdseq := BitVec.ofNat 32 seq }) (partAnswered rs (rs.foldl (fun s r => replayOne r s) s)))

/-- FCMD_CANCEL (R344, R345): one pending record is answered. -/
def execFcmdCancel (ctx : Nat) (v : DWord) (s : State) : Host.Outcome State Fault Refusal := hostDoes s <|
  let seq := bitsOf v.toNat 0 32
  match pendingRecord s ctx seq with
  | none => .next (setBad ctx s)
  | some r =>
    let s1 := modCtx ctx (fun c => { c with fcmdseq := BitVec.ofNat 32 seq }) s
    match s1.parks.find? fun p => p.ctx == ctx && p.seq == seq && p.thread.isNone with
    | some p => .next (failFill p.launch (clearRecord r s1))
    | none => .next (if answerLater s1 r then keepAnswer r 1 s1 else cancelRecord r s1)

/-- FCMD_INVALID (R344). -/
def execFcmdInvalid (ctx : Nat) (_v : DWord) (s : State) : Host.Outcome State Fault Refusal := hostDoes s <| .next (setBad ctx s)

/-- FQTAIL_WRITE (R343): records have been consumed, and held ones find room. -/
def execFqtailWrite (ctx : Nat) (v : DWord) (s : State) : Host.Outcome State Fault Refusal := hostDoes s <|
  .next (flushRing ctx (modCtx ctx (fun c => { c with fqtail := loW v }) s))

/-! ### Soft errors -/

/-- The core whose storage a soft error falls on, or the die, with its context (R346, R379). DEDUCED, log 68. -/
def errorPlace (s : State) (t : SoftTarget) : Sum (Nat × Nat) (Nat × Nat) :=
  let unit := fun (u : Nat) => Sum.inl ((unitOf s u).core, (unitOf s u).ctx)
  let line := fun (core pa : Nat) => ((s.l1.find? fun x => x.core == core && x.pa == sectorOf pa).map (·.ctx)).getD noCtx
  let leaf := fun (own va : Nat) (l : List TlbEnt) =>
    ((l.find? fun e => e.own == own && decide (e.va ≤ va) && decide (va < e.va + 2 ^ e.leaf.lg)).map (·.ctx)).getD noCtx
  match t with
  | .mainReg u _ _ _ => unit u
  | .gangReg u _ _ => unit u
  | .traceState x => unit x.u
  | .l1Clean core pa => .inl (core, line core pa)
  | .l1Written core pa => .inl (core, line core pa)
  | .scratchWord u _ => unit u
  | .opbufGranule cl _ => .inr (dieOf (cl * 4), noCtx)
  | .accElement core _ _ => .inr (dieOf core, ((unitsOn s core).find? fun u => (unitOf s u).matrix).elim noCtx fun u => (unitOf s u).ctx)
  | .l2Clean pa => .inr (homeDie pa, noCtx)
  | .memSector pa => .inr (homeDie pa, noCtx)
  | .tlbEntry core va => .inl (core, leaf core va s.tlbCore)
  | .tlbCluster cl va => .inr (dieOf (cl * 4), leaf cl va s.tlbCluster)
  | .control u => unit u
  | .schedMem gid _ => .inr (dieOfGraph gid, ((s.graphs.find? gid).map (·.ctx)).getD noCtx)

/-- SOFT_ERROR_CORRECTABLE (R346): corrected in place and counted (R379). -/
def execSoftErrorCorrectable (t : SoftTarget) (s : State) : Host.Outcome State Fault Refusal :=
  .next (match errorPlace s t with
    | .inl (core, ctx) => countCore core 0x0F ctx 0 1 s
    | .inr (die, ctx) => countDie die 0x11 ctx 1 s)

/-- The die on which an uncorrectable error is counted, and its context (R379). -/
def errorDie (s : State) (t : SoftTarget) : Nat × Nat :=
  match errorPlace s t with
  | .inl (core, ctx) => (dieOf core, ctx)
  | .inr (die, ctx) => (die, ctx)

/-- An error in trace state (R59): a trace before its memory commit is discarded and starts again at its head, for every slice of its issue;
after it, the unit ends with POISON. DEDUCED, log 68. -/
def traceError (t : ThreadId) (s : State) : State :=
  let th := threadOf s t
  match th.pos with
  | .body _ =>
    if th.committed then fatal t ⟨.poison, 5, 0, 0, wordAddr th⟩ th.mask s
    else abandon t.u t.g ((issueOf s t).js.filter fun j => mustAbandon (threadOf s ⟨t.u, t.g, j, t.h⟩)) t.h s
  | _ => s

/-- The first live thread of a unit. -/
def firstLive (s : State) (u : Nat) : Option ThreadId :=
  ((unitThreads s u).filter fun p => ! p.1.h && p.2.pos != .dead).map (·.1) |>.foldl (fun b t => match b with
    | none => some t
    | some x => if t.g < x.g ∨ (t.g = x.g ∧ t.j < x.j) then some t else some x) none

/-- What an uncorrectable error does (R346). DEDUCED, log 68. -/
def hardError (t : SoftTarget) (s : State) : State :=
  match t with
  | .mainReg u g l n => { s with vpoi := s.vpoi.insert ⟨⟨u, g, l⟩, n⟩ }
  | .gangReg u g n => { s with gpoi := s.gpoi.insert ⟨⟨u, g⟩, n⟩ }
  | .traceState x => traceError x s
  | .l1Clean core pa => discardL1 core (fun x => x.pa == sectorOf pa) s
  | .l1Written core pa =>
    let s1 := drainOverlap core ((List.range 32).map (sectorOf pa + ·)) s
    discardL1 core (fun x => x.pa == sectorOf pa) { s1 with mempoi := s1.mempoi.insert (sectorOf pa) }
  | .scratchWord u off => { s with scrpoi := s.scrpoi.insert (u, off / 4 * 4) }
  | .opbufGranule cl off => { s with oppoi := s.oppoi.insert (cl, off / 8 * 8) }
  | .accElement core row col => (unitsOn s core).foldl (fun s u =>
      if (unitOf s u).matrix then { s with accpoi := s.accpoi.insert (u, row, col) } else s) s
  | .l2Clean _ => s
  | .memSector pa => { s with mempoi := s.mempoi.insert (sectorOf pa) }
  | .tlbEntry core va => { s with tlbCore := s.tlbCore.filter fun e =>
      ! (e.own == core && decide (e.va ≤ va) && decide (va < e.va + 2 ^ e.leaf.lg)) }
  | .tlbCluster cl va => { s with tlbCluster := s.tlbCluster.filter fun e =>
      ! (e.own == cl && decide (e.va ≤ va) && decide (va < e.va + 2 ^ e.leaf.lg)) }
  | .control u => match firstLive s u with
      | none => s
      | some x => fatal x ⟨.poison, 4, 0, 0, wordAddr (threadOf s x)⟩ (threadOf s x).mask s
  | .schedMem gid node =>
    let s1 := match s.graphs.find? gid with
      | none => s
      | some g => { s with graphs := s.graphs.set gid { g with bad := g.bad.insert node } }
    match launchAt s1 gid node with
    | none => s1
    | some (lid, _) => cancelLaunchAt lid s1

/-- SOFT_ERROR_UNCORRECTABLE (R346). -/
def execSoftErrorUncorrectable (t : SoftTarget) (s : State) : Host.Outcome State Fault Refusal :=
  .next (hardError t (countDie (errorDie s t).1 0x12 (errorDie s t).2 1 s))

end Sys2Proof.Machine
end

