-- ==== Sys2Proof/Machine/Fleet.lean ====
section
/-! DEFINITION. The device in a fleet: Carr links, the Carr agent, CXL and PCIe, health, fencing, power and the Redfish service
(R355 to R369, R374 to R377, R380, R381). -/

namespace Sys2Proof.Machine

/-! ### Health -/

/-- Cores that are fenced: one by one, or with their die (R375, R376). -/
def coresOff (s : State) : Nat :=
  (s.fenced.filter fun c => ! s.diedead.contains (dieOf c)).length + Config.coresPerDie * s.diedead.length

/-- Change a link. -/
def modLink (l : Nat) (f : Link → Link) (s : State) : State := { s with links := s.links.modify l {} f }

/-- The number of a link that the package has (R355). -/
def isLink (l : Nat) : Bool := decide (l < 12)

/-- The die that hosts a link (R355). -/
def linkDie (l : Nat) : Nat := l % 8

/-- The code of a link state (R363). -/
def LinkState.code : LinkState → Nat
  | .down => 0
  | .training => 1
  | .up16 => 2
  | .up8lo => 3
  | .up8hi => 4
  | .failed => 5

/-- The link counts in LINKDEG (R375). -/
def LinkState.degraded : LinkState → Bool
  | .up8lo => true
  | .up8hi => true
  | .failed => true
  | _ => false

/-- The code of the health state (R375). -/
def Health.code : Health → Nat
  | .ok => 0
  | .degraded => 1
  | .failed => 2
  | .booting => 3

/-- A number with the bits of a list set. -/
def bitSet (l : List Nat) : Nat := (l.dedup.map fun i => 2 ^ i).sum

/-- The register HEALTH (R375). -/
def healthWord (s : State) : DWord :=
  BitVec.ofNat 64 (s.health.code + (if s.replaceF then 4 else 0) + (if s.drain.isSome then 8 else 0) + bitSet s.dieover * 2 ^ 4
    + bitSet ((List.range 12).filter fun l => (linkOf s l).state.degraded) * 2 ^ 12 + coresOff s * 2 ^ 24
    + s.chanoff.length * 2 ^ 35 + s.drain.getD 0 * 2 ^ 44)

/-- A change of health raises vector 2 and is reported through Redfish (R369, R375). -/
def noteHealth (before s : State) : State :=
  if healthWord before = healthWord s then s
  else
    let s1 := raiseMsix 0 2 s
    { s1 with out := .health (healthWord s1) :: s1.out }

/-- The device becomes DEGRADED, and REPLACE is set (R375, R376); a boot under way, and FAILED, stay what they are. -/
def degrade (s : State) : State :=
  { s with health := if s.health = .ok then .degraded else s.health, replaceF := s.replaceF || s.health != .failed }

/-- End every resident unit as a job cancel does (R377); where its memory may be out of reach, that is a free choice for each unit.
DEDUCED, log 35. -/
def endResident (reach : Bool) (s : State) : State :=
  (s.units.filter fun p => p.2.status == .resident || p.2.status == .saving).foldl (fun s p =>
    if reach then cancelResident p.1 s
    else
      let (b, s1) := takeBit s
      if b then cancelResident p.1 s1 else s1) s

/-- Entry to FAILED (R377). DEDUCED, log 35. -/
def enterFailed (reach : Bool) (s : State) : State :=
  if s.health = .failed then s else noteHealth s (endResident reach { s with health := .failed })

/-- Every die is fenced (R377). -/
def checkDies (s : State) : State := if coresOff s = Config.cores then enterFailed true s else s

/-! ### Link states -/

/-- The lanes of a half: 0 to 7, or 8 to 15 (R355). -/
def halfOf (hi : Bool) : BitVec 16 := if hi then 0xFF00 else 0x00FF

/-- A half is trained. -/
def halfOk (lanes : BitVec 16) (hi : Bool) : Bool := lanes &&& halfOf hi == halfOf hi

/-- The state of a link that runs on one half (R360). -/
def halfState (hi : Bool) : LinkState := if hi then .up8hi else .up8lo

/-- The half on which a link runs alone. -/
def LinkState.half : LinkState → Option Bool
  | .up8lo => some false
  | .up8hi => some true
  | _ => none

/-- A link that carries nothing: its replay buffer is discarded (R362), and no lane is healthy. DEDUCED, log 30. -/
def Link.dead (st : LinkState) (l : Link) : Link :=
  { l with state := st, laneok := 0, replay := [], resend := [], nakDue := false, frozen := none }

/-- EN of CARRCTL is written (R360): 1 starts the training of a link that is DOWN, 0 takes a link down. DEDUCED, log 30. -/
def writeEn (l : Nat) (on : Bool) (s : State) : State :=
  if ! isLink l then s
  else noteHealth s (modLink l (fun k =>
    if ! on then { k.dead .down with en := false }
    else if k.state = .down then { k with en := true, state := .training, former := .down } else { k with en := true }) s)

/-- RETRAIN (R360, R361): ignored while the link trains, is DOWN, or retrains after a lane loss. DEDUCED, log 30. -/
def retrain (l : Nat) (s : State) : State :=
  if ! isLink l then s
  else noteHealth s (modLink l (fun k =>
    if k.frozen.isSome then k
    else match k.state with
      | .down => k
      | .training => k
      | st => { k with state := .training, former := st }) s)

/-- CARRCTL_EN (R360). -/
def execCarrctlEn (l : Nat) (on : Bool) (s : State) : Host.Outcome State Fault Refusal := hostDoes s (.next (writeEn l on s))

/-- CARRCTL_RETRAIN (R361). -/
def execCarrctlRetrain (l : Nat) (s : State) : Host.Outcome State Fault Refusal := hostDoes s (.next (retrain l s))

/-- The state that training ends in, by the lanes that have trained in both directions and the state before (R360, R361); none while no
half has trained. -/
def trainedState (former : LinkState) (lanes : BitVec 16) : Option LinkState :=
  if lanes = 0xFFFF then some .up16
  else match former.half with
    | some hi => if halfOk lanes hi then some former else if halfOk lanes (! hi) then some (halfState (! hi)) else none
    | none => if halfOk lanes false then some .up8lo else if halfOk lanes true then some .up8hi else none

/-- Training, or the retraining of a lane loss, ends with some lanes: each sender then resends what is not acknowledged (R360, R361). -/
def Link.trained (lanes peer myid : BitVec 16) (k : Link) : Link :=
  match k.frozen with
  | some hi =>
    if halfOk lanes hi then
      { k with state := halfState hi, laneok := lanes, peer := peer, myid := myid, frozen := none, resend := k.replay }
    else k
  | none =>
    if k.state ≠ .training then k
    else match trainedState k.former lanes with
      | none => k
      | some st => { k with state := st, laneok := lanes, peer := peer, myid := myid, resend := k.replay }

/-- LINK_TRAINING_COMPLETE (R360, R361, R363). -/
def execLinkTrainingComplete (l : Nat) (lanes peer : BitVec 16) (s : State) : Host.Outcome State Fault Refusal :=
  .next (if isLink l then noteHealth s (modLink l (Link.trained lanes peer s.pkgid) s) else s)

/-- LINK_TRAINING_TIMEOUT (R360): no half has trained within 100 ms. -/
def execLinkTrainingTimeout (l : Nat) (s : State) : Host.Outcome State Fault Refusal :=
  .next (if isLink l && (linkOf s l).state == .training then noteHealth s (modLink l (Link.dead .failed) s) else s)

/-- A lane of a link is lost (R360, R361): in a link of 16 lanes E freezes and the other half retrains; in the half that is left, the link
fails. -/
def Link.lose (lane : Nat) (k : Link) : Link :=
  let hi := decide (8 ≤ lane)
  let k1 := { k with laneok := k.laneok &&& ~~~((1 : BitVec 16) <<< lane) }
  match k.frozen with
  | some h => if h = hi then k.dead .failed else k1
  | none => match k.state with
    | .up16 => { k1 with frozen := some (! hi) }
    | .up8lo => if hi then k1 else k.dead .failed
    | .up8hi => if hi then k.dead .failed else k1
    | _ => k

/-- LANE_LOSS (R360, R361, R376, R379). DEDUCED, log 32. -/
def execLaneLoss (l lane : Nat) (s : State) : Host.Outcome State Fault Refusal :=
  .next (if isLink l && decide (lane < 16) && (linkOf s l).state.up then
      noteHealth s (degrade (modLink l (Link.lose lane) (countDie (linkDie l) 0x0A noCtx 1 s)))
    else s)

/-! ### Flits -/

/-- One bit of the CRC-32 of IEEE 802.3, least significant bit first. -/
def crcBit (c : BitVec 32) (b : Bool) : BitVec 32 :=
  let x := c >>> 1
  if c.getLsbD 0 != b then x ^^^ 0xEDB88320 else x

/-- The CRC-32 of IEEE 802.3 over the low bits of a number (R358). -/
def crc32 (n : Nat) (v : BitVec 2048) : BitVec 32 :=
  ~~~((List.range n).foldl (fun c i => crcBit c (v.getLsbD i)) 0xFFFFFFFF)

/-- TYPE of a flit (R358). -/
def flitTy (f : Flit) : Nat := (f.bits.extractLsb' 64 8).toNat
/-- SEQ of a flit (R358). -/
def flitSeq (f : Flit) : BitVec 16 := f.bits.extractLsb' 0 16
/-- ACK of a flit (R358). -/
def flitAck (f : Flit) : BitVec 16 := f.bits.extractLsb' 16 16
/-- LEN of a flit (R358). -/
def flitLen (f : Flit) : Nat := (f.bits.extractLsb' 80 16).toNat
/-- The flit is good: its CRC is right, and its type is one of the three (R358). -/
def flitGood (f : Flit) : Bool := f.bits.extractLsb' 2016 32 == crc32 2016 f.bits && decide (flitTy f ≤ 2)

/-- What the sender has still to keep once a number has been acknowledged (R359). -/
def freeTo (ack : BitVec 16) (l : List DataFlit) : List DataFlit :=
  if l.any fun x => x.seq == ack then (l.dropWhile fun x => x.seq != ack).drop 1 else l

/-- The acknowledgement that a flit carries frees the sender's buffer (R359). -/
def Link.acked_ (ack : BitVec 16) (k : Link) : Link :=
  let keep := freeTo ack k.replay
  { k with acked := ack, replay := keep, resend := k.resend.filter fun x => keep.contains x }

/-- A flit that is discarded asks for a NAK, once for each value of E (R359). DEDUCED, log 31. -/
def Link.nak (k : Link) : Link :=
  if k.naked = some k.expect then k else { k with naked := some k.expect, nakDue := true }

/-- The flit is a duplicate: its SEQ lies in the half of the numbers before E (R359). -/
def isDuplicate (e seq : BitVec 16) : Bool := seq != e && decide ((e - seq).toNat ≤ 32768)

/-- A link receives a flit (R359); the Boolean says that its data are accepted. DEDUCED, log 31. -/
def Link.receive (f : Flit) (k : Link) : Bool × Link :=
  if ! flitGood f then (false, k.nak)
  else
    let k1 := k.acked_ (flitAck f)
    if flitTy f = 2 then (false, { k1 with resend := k1.replay })
    else if flitTy f = 0 then (false, k1)
    else if flitSeq f = k1.expect then (true, { k1 with expect := k1.expect + 1, naked := none })
    else if isDuplicate k1.expect (flitSeq f) then (false, k1)
    else (false, k1.nak)

/-- The link takes flits in and sends blocks: it is up, does not retrain (R360, R361), and the device has not FAILED (R377). -/
def receives (s : State) (l : Nat) : Bool := isLink l && (linkOf s l).state.up && (linkOf s l).frozen.isNone && s.health != .failed

/-- The bytes that a peer's request or answer carries in its flit (R358). -/
def opBytes : RemoteOp → Nat
  | .write _ _ _ _ bytes => bytes.length
  | .answer _ data => data.length
  | _ => 0

/-- The payload of a data flit holds what comes with it: LEN gives its valid bytes, 240 at most (R358). DEDUCED, log 29. -/
def carriesOp (f : Flit) (op : RemoteOp) : Bool := decide (opBytes op ≤ flitLen f) && decide (flitLen f ≤ 240)

/-! ### The Carr agent -/

/-- The context holds a valid entry whose PEERPKG and PEERASID name the sender (R364, R366). -/
def namesSender (s : State) (ctx pkg asid : Nat) : Bool :=
  (ctxOf s ctx).route.any fun p => p.2.getLsbD 0 && bitsOf p.2.toNat 5 16 == pkg && bitsOf p.2.toNat 21 13 == asid
    && bitsOf p.2.toNat 46 20 != 0

/-- The place of a byte that the agent may reach for a peer: its page is present, with scope fabric or system, and writable for a write
(R366). -/
def agentAddr (s : State) (ctx va : Nat) (write : Bool) : Option Nat :=
  if va < 2 ^ 52 then
    match walk s ctx va with
    | .leaf b l => if (l.scope = .fabric ∨ l.scope = .system) ∧ (l.w ∨ ! write) then some (l.pa + (va - b)) else none
    | _ => none
  else none

/-- The agent performs an element of a peer's command as a lane of the peer context on the LK path (R366, R367): a refused byte is not
written and is counted; the bytes that are written, or read, are answered, poison with them (R347, R368). DEDUCED, log 32. -/
def agentDoes (l : Nat) (op : RemoteOp) (s : State) : State :=
  match op with
  | .none => s
  | .write pkg asid ctx va bytes =>
    let ok := namesSender s ctx pkg asid
    let cells := (bytes.mapIdx fun i b => (agentAddr s ctx (va + i) true, b)).filterMap fun p =>
      if ok then p.1.map fun a => (a, p.2) else none
    let bad := ((cells.filter fun c => c.2.2).map fun c => sectorOf c.1).dedup
    let s0 := homeWrite (cells.map fun c => (c.1, c.2.1)) s
    let s1 := countDie (linkDie l) 0x0B ctx (bytes.length - cells.length) { s0 with mempoi := bad.foldl (fun p b => p.insert b) s0.mempoi }
    { s1 with replies := s1.replies ++ [(l, ctx, .wrote cells.length)] }
  | .read pkg asid ctx va n =>
    let ok := namesSender s ctx pkg asid
    let got := (List.range n).map fun i => if ok then (agentAddr s ctx (va + i) false).map fun a => (s.mem.read a, poisonedAt s a) else none
    let s1 := countDie (linkDie l) 0x0B ctx (got.filter (·.isNone)).length s
    { s1 with replies := s1.replies ++ [(l, ctx, .read got)] }
  | .answer n data => linkAnswer l n data s

/-- A flit comes in on a link, with what it asks of the agent where it carries data. -/
def receiveFlit (l : Nat) (f : Flit) (op : RemoteOp) (s : State) : State :=
  if receives s l then
    let (ok, k) := (linkOf s l).receive f
    let s1 := modLink l (fun _ => k) s
    if ok && carriesOp f op then agentDoes l op s1 else s1
  else s

/-- DATA_FLIT_RECEIVE (R359, R366, R367). -/
def execDataFlitReceive (l : Nat) (f : Flit) (op : RemoteOp) (s : State) : Host.Outcome State Fault Refusal :=
  .next (receiveFlit l f op s)

/-- IDLE_FLIT_RECEIVE (R359). -/
def execIdleFlitReceive (l : Nat) (f : Flit) (s : State) : Host.Outcome State Fault Refusal := .next (receiveFlit l f .none s)

/-- NAK_FLIT_RECEIVE (R359): every unacknowledged flit is sent again. -/
def execNakFlitReceive (l : Nat) (f : Flit) (s : State) : Host.Outcome State Fault Refusal := .next (receiveFlit l f .none s)

/-- ACK_TIMEOUT_RESEND (R359): flits are outstanding and ACK has not advanced for 4 µs. -/
def execAckTimeoutResend (l : Nat) (s : State) : Host.Outcome State Fault Refusal :=
  .next (if receives s l && ! (linkOf s l).replay.isEmpty then modLink l (fun k => { k with resend := k.replay }) s else s)

/-! ### Sending -/

/-- A flit as it is laid out, with its CRC (R358). -/
def mkFlit (ty : BitVec 8) (seq ack len : BitVec 16) (payload : BitVec 1920) : Flit :=
  let v : BitVec 2016 := payload ++ len ++ (0 : BitVec 8) ++ ty ++ (0 : BitVec 32) ++ ack ++ seq
  ⟨crc32 2016 (v.setWidth 2048) ++ v⟩

/-- A data flit as a block carries it (R358, R359). -/
def DataFlit.flit (ack : BitVec 16) (d : DataFlit) : Flit := mkFlit 1 d.seq ack d.len d.payload

/-- A free payload. DESIGN CHOICE, log 103. -/
def takePayload (s : State) : BitVec 1920 × State := (Config.freePayload s.free, { s with free := s.free + 1 })

/-- An idle or a NAK flit: SEQ is the next number that its sender will use, no payload byte is valid (R358). DESIGN CHOICE, log 103. -/
def emptyFlit (l : Nat) (ty : BitVec 8) (s : State) : Flit × State :=
  let k := linkOf s l
  let (p, s1) := takePayload s
  (mkFlit ty k.next (k.expect - 1) 0 p, s1)

/-- A link command that is being performed travels on the link (R366). -/
def carries (s : State) (l : Nat) : Bool :=
  s.copies.any fun c => linkRuns s c && c.via == some l

/-- The context of the first link command that travels on the link. -/
def carriedCtx (s : State) (l : Nat) : Nat :=
  ((s.copies.find? fun c => linkRuns s c && c.via == some l).map fun c => (unitOf s c.u).ctx).getD noCtx

/-- The first answer that waits for a link leaves in a flit; 240 bytes at most go with it (R358). -/
def sendReply (l : Nat) : List (Nat × Nat × Reply) → List (Nat × Nat × Reply)
  | [] => []
  | (k, c, r) :: rs =>
    if k = l then match r with
      | .wrote _ => rs
      | .read bs => if bs.length ≤ 240 then rs else (k, c, .read (bs.drop 240)) :: rs
    else (k, c, r) :: sendReply l rs

/-- A new data flit is there to be sent, and its context: an answer, or a part of a command; whether a command has one ready is a free
choice. DEDUCED, log 31. -/
def dataReady (l : Nat) (s : State) : Option Nat × State :=
  match s.replies.find? fun p => p.1 == l with
  | some p => (some p.2.1, { s with replies := sendReply l s.replies })
  | none =>
    if carries s l then
      let (b, s1) := takeBit s
      (if b then some (carriedCtx s l) else none, s1)
    else (none, s)

/-- A new data flit takes the next SEQ and is kept until it is acknowledged (R359). DESIGN CHOICE, log 103. -/
def sendData (l ctx : Nat) (s : State) : Flit × State :=
  let k := linkOf s l
  let (n, s1) := takeNat s
  let (p, s2) := takePayload s1
  let d : DataFlit := ⟨k.next, BitVec.ofNat 16 (n % 241), p, ctx⟩
  (d.flit (k.expect - 1), countDie (linkDie l) 0x07 ctx 1 (modLink l (fun k => { k with next := k.next + 1, replay := k.replay ++ [d] }) s2))

/-- One flit of a block (R359): a NAK that is due, a flit to be sent again, new data while fewer than 4096 are unacknowledged, or idle. -/
def sendFlit (l : Nat) (s : State) : Flit × State :=
  let k := linkOf s l
  if k.nakDue then emptyFlit l 2 (modLink l (fun k => { k with nakDue := false }) s)
  else match k.resend with
    | q :: qs => (q.flit (k.expect - 1), countDie (linkDie l) 0x08 q.ctx 1 (modLink l (fun k => { k with resend := qs }) s))
    | [] =>
      if 4096 ≤ k.replay.length then emptyFlit l 0 s
      else match dataReady l s with
        | (some ctx, s1) => sendData l ctx s1
        | (none, s1) => emptyFlit l 0 s1

/-- Some flits of a block, in order. DEDUCED, log 31. -/
def sendFlits (l : Nat) : Nat → State → List Flit × State
  | 0, s => ([], s)
  | n + 1, s =>
    let (f, s1) := sendFlit l s
    let (fs, s2) := sendFlits l n s1
    (f :: fs, s2)

/-- The header of a block: the constant, and LANEOK (R356). -/
def blockHeader (laneok : BitVec 16) : BitVec 40 := (0x5AC3A5 : BitVec 24) ++ laneok

/-- CARR_BLOCK_TRANSMIT (R356): five flits, and LANEOK in the block header. -/
def execCarrBlockTransmit (l : Nat) (s : State) : Host.Outcome State Fault Refusal :=
  .next (if receives s l then
      let (fs, s1) := sendFlits l 5 s
      modLink l (fun k => { k with block := some (blockHeader k.laneok, fs) }) s1
    else s)

/-! ### The line code of a block (R356) -/

/-- The product in the field of 2^10 elements with x^10 + x^3 + 1. PRESUMED (IEEE 802.3), log 106. -/
def gfMul (a b : BitVec 10) : BitVec 10 :=
  (List.range 10).foldr (fun i acc =>
    let d := acc <<< 1 ^^^ (if acc.getLsbD 9 then 9 else 0)
    if b.getLsbD i then d ^^^ a else d) 0

/-- The powers of x. -/
def gfPow : Nat → BitVec 10
  | 0 => 1
  | n + 1 => gfMul (gfPow n) 2

/-- The generator polynomial of RS(544,514), its highest coefficient first: the product of x - 2^i for i from 0 to 29. PRESUMED (IEEE
802.3), log 106. -/
def rsGenerator : List (BitVec 10) :=
  (List.range 30).foldl (fun g i => List.zipWith (· ^^^ ·) (g ++ [0]) (0 :: g.map (gfMul (gfPow i)))) [1]

/-- The 30 parity symbols of a codeword: the remainder of the message by the generator (R356). PRESUMED (IEEE 802.3), log 106. -/
def rsParity (m : List (BitVec 10)) : List (BitVec 10) :=
  m.foldl (fun r x =>
    let q := x ^^^ r.headD 0
    List.zipWith (· ^^^ ·) (r.drop 1 ++ [0]) (rsGenerator.drop 1 |>.map (gfMul q))) (List.replicate 30 0)

/-- The bits of a block: the header, then the five flits (R356). DEDUCED, log 106. -/
def blockBits (h : BitVec 40) (fs : List Flit) : Nat := fs.foldr (fun f n => f.bits.toNat + n * 2 ^ 2048) 0 * 2 ^ 40 + h.toNat

/-- The 1028 data symbols of a block. -/
def blockSymbols (h : BitVec 40) (fs : List Flit) : List (BitVec 10) :=
  (List.range 1028).map fun i => BitVec.ofNat 10 (blockBits h fs / 2 ^ (10 * i))

/-- Every second symbol, from the first or the second on. -/
def everySecond (odd : Nat) (l : List (BitVec 10)) : List (BitVec 10) := (l.zipIdx.filter fun p => p.2 % 2 == odd).map (·.1)

/-- The two codewords of a block: its data symbols dealt in turn, each with its parity (R356). PRESUMED (IEEE 802.3), log 106. -/
def codewords (h : BitVec 40) (fs : List Flit) : List (List (BitVec 10)) :=
  let d := blockSymbols h fs
  [0, 1].map fun odd => let m := everySecond odd d; m ++ rsParity m

/-- The symbols of a block on the line, the codewords interleaved: 10,880 bits (R356). -/
def lineSymbols (h : BitVec 40) (fs : List Flit) : List (BitVec 10) :=
  match codewords h fs with
  | [a, b] => (a.zip b).flatMap fun p => [p.1, p.2]
  | _ => []

/-- The active lanes of a link (R355, R360). -/
def activeLanes : LinkState → List Nat
  | .up16 => List.range 16
  | .up8lo => List.range 8
  | .up8hi => (List.range 8).map (· + 8)
  | _ => []

/-- What a lane carries of the block sent last: the symbols that fall to it, dealt round-robin over the active lanes (R356). -/
def laneSymbols (k : Link) (lane : Nat) : List (BitVec 10) :=
  let on := activeLanes k.state
  match k.block, on.idxOf? lane with
  | some (h, fs), some i => ((lineSymbols h fs).zipIdx.filter fun p => p.2 % on.length == i).map (·.1)
  | _, _ => []

/-! ### CXL and PCIe -/

/-- CXL_COMPLETION_TIMEOUT (R368): the expander of a die's root port is gone or does not answer. -/
def execCxlCompletionTimeout (die : Nat) (s : State) : Host.Outcome State Fault Refusal :=
  .next (if die < Config.dies then { s with cxl := s.cxl.modify die {} fun p => { p with dead := true } } else s)

/-- PCIE_ATOMICOP_RECEIVED (R369): an AtomicOp aimed at a BAR is answered with Unsupported Request. -/
def execPcieAtomicopReceived (addr : Nat) (s : State) : Host.Outcome State Fault Refusal :=
  hostDoes s (.next { s with out := .unsupportedRequest addr :: s.out })

/-! ### Fencing -/

/-- HEALTHCMD_ACK (R375, R376): 0001 acknowledges the channel in DRAINCH, whose blocks then read as poisoned. -/
def execHealthcmdAck (v : DWord) (s : State) : Host.Outcome State Fault Refusal := hostDoes s <|
  .next (match s.drain with
    | none => s
    | some ch => if v.extractLsb' 0 4 = 1 then noteHealth s { s with drain := none, chanoff := s.chanoff.insert ch } else s)

/-- A core runs no unit any more: all have ended or been saved. -/
def coreQuiet (s : State) (core : Nat) : Bool :=
  s.units.all fun p => p.2.core != core || p.2.status == .done || p.2.status == .saved

/-- CORE_FENCE (R376): the core's units begin to be saved, and no unit is dispatched to it; it is fenced when they have been. DEDUCED, log 34. -/
def execCoreFence (core : Nat) (s : State) : Host.Outcome State Fault Refusal :=
  .next (if decide (core < Config.cores) && ! s.fenced.contains core && ! s.fencing.contains core && ! s.diedead.contains (dieOf core) then
      ((s.units.filter fun p => p.2.core == core && p.2.status == .resident).map (·.1)).foldl (fun s u => beginSave u s)
        { s with fencing := core :: s.fencing }
    else s)

/-- Cores that are to be fenced and run no unit any more are fenced (R376). DEDUCED, log 34. -/
def finishFences (s : State) : State :=
  s.fencing.foldl (fun s c =>
    if coreQuiet s c then
      checkDies (noteHealth s (degrade { s with fenced := s.fenced.insert c, fencing := s.fencing.filter (· != c) }))
    else s) s

/-- CHANNEL_DRAIN (R376): the channel drains; while another awaits its acknowledgement there is no effect yet. DEDUCED, log 34. -/
def execChannelDrain (ch : Nat) (s : State) : Host.Outcome State Fault Refusal :=
  .next (if decide (ch < Config.channels) && s.drain.isNone && ! s.chanoff.contains ch then
      noteHealth s (degrade { s with drain := some ch })
    else s)

/-- The other die of a pair (R376). -/
def pairDie (d : Nat) : Nat := if d % 2 = 0 then d + 1 else d - 1

/-- MGMT_HEARTBEAT_MISS (R376): the other die of the pair schedules the die; where both complexes have failed, both dies are fenced. -/
def execMgmtHeartbeatMiss (die : Nat) (s : State) : Host.Outcome State Fault Refusal :=
  .next (if die < Config.dies ∧ ! s.dieover.contains die ∧ ! s.diedead.contains die then
      if s.dieover.contains (pairDie die) then
        checkDies (noteHealth s (degrade { s with dieover := s.dieover.filter (· != pairDie die), diedead := die :: pairDie die :: s.diedead }))
      else noteHealth s (degrade { s with dieover := die :: s.dieover })
    else s)

/-- DIE_TO_DIE_LINK_FAILURE (R377). -/
def execDieToDieLinkFailure (s : State) : Host.Outcome State Fault Refusal := .next (enterFailed false s)

/-- BOOT_SECURITY_CORE_FAILURE (R377). -/
def execBootSecurityCoreFailure (s : State) : Host.Outcome State Fault Refusal := .next (enterFailed true s)

/-! ### Power -/

/-- THERMAL_TRIP (R380): FAILED, and power off. DESIGN CHOICE, log 73. -/
def execThermalTrip (s : State) : Host.Outcome State Fault Refusal := .next { enterFailed true s with off := true }

/-- POWER_THROTTLE (R381): the arithmetic clock falls by 100 MHz, to 1.2 GHz at the lowest. DEDUCED, log 36. -/
def execPowerThrottle (s : State) : Host.Outcome State Fault Refusal := .next { s with mhz := max 1200 (s.mhz - 100) }

/-! ### Redfish -/

/-- The service answers. -/
def answer (m : Msg) (s : State) : State := { s with out := m :: s.out }

/-- REDFISH_REQUEST (R374, R380): inventory, health, the power limit within its range, link control, firmware update,
the namespace that the next boot takes its images from (R370). DESIGN CHOICE, log 28. -/
def execRedfishRequest (r : Redfish) (s : State) : Host.Outcome State Fault Refusal :=
  .next (match r with
    | .inventory => answer .inventory s
    | .health => answer (.health (healthWord s)) s
    | .powerLimit w => if 1500 ≤ w ∧ w ≤ 3000 then answer .accepted { s with cap := w } else answer .refused s
    | .linkEnable l on => if isLink l then answer .accepted (writeEn l on s) else answer .refused s
    | .linkRetrain l => if isLink l then answer .accepted (retrain l s) else answer .refused s
    | .firmwareUpdate img => answer .accepted { s with updates := img :: s.updates }
    | .bootNamespace name => answer .accepted { s with flashNs := name })

end Sys2Proof.Machine
end

