-- ==== Sys2Proof/Machine/Registers.lean ====
section
/-! DEFINITION. The registers that the host reads and writes: those of the physical function, the doorbell and fault pages and the class
quotas (R6, R308, R329, R330, R343, R344, R363, R364, R375, R378). -/

namespace Sys2Proof.Machine

/-! ### Where registers lie -/

/-- A register of the physical function's BAR 0. -/
inductive PfReg where
  | health
  | healthcmd
  | coreMap (i : Nat)
  | chanMap (i : Nat)
  | carrctl (link : Nat)
  | carrstat (link : Nat)
  | carrseq (link : Nat)
  | carrid
  /-- A field of a context's control block, by its offset. -/
  | ctx (c off : Nat)
  /-- A half of an entry of a context's route block. -/
  | route (c e : Nat) (hi : Bool)
  | coreCtr (core k : Nat) (count : Bool)
  | dieCtr (die k : Nat) (count : Bool)
  deriving DecidableEq, Repr

/-- The register at an offset of BAR 0 of the physical function; none at an offset that no map lists. -/
def pfReg (off : Nat) : Option PfReg :=
  if off % 8 ≠ 0 then none
  else if off = 0x7F000 then some .health
  else if off = 0x7F008 then some .healthcmd
  else if 0x7F100 ≤ off ∧ off < 0x7F100 + 192 then some (.coreMap ((off - 0x7F100) / 8))
  else if 0x7F200 ≤ off ∧ off < 0x7F200 + 48 then some (.chanMap ((off - 0x7F200) / 8))
  else if 0x80000 ≤ off ∧ off < 0x80300 then
    let l := (off - 0x80000) / 64
    match off % 64 with
    | 0x00 => some (.carrctl l)
    | 0x08 => some (.carrstat l)
    | 0x10 => some (.carrseq l)
    | _ => none
  else if off = 0x80300 then some .carrid
  else if 0x100000 ≤ off ∧ off < 0x200000 then some (.ctx ((off - 0x100000) / 128) (off % 128))
  else if 0x200000 ≤ off ∧ off < 0x400000 then
    some (.route ((off - 0x200000) / 256) (off % 256 / 16) (off % 16 == 8))
  else if 0x400000 ≤ off ∧ off < 0x400000 + 128 * 1536 then
    some (.coreCtr ((off - 0x400000) / 128) (off % 128 / 16) (off % 16 == 8))
  else if 0x440000 ≤ off ∧ off < 0x440000 + 512 * 8 then
    some (.dieCtr ((off - 0x440000) / 512) (off % 512 / 16) (off % 16 == 8))
  else none

/-! ### Writes -/

/-- Bits of a register that a write does not reach keep their value. -/
def merge (old v mask : DWord) : DWord := (old &&& ~~~mask) ||| (v &&& mask)

/-- PTROOT, SAVEBASE, SAVESIZE, GROWBASE and GROWSIZE may be written: EN is 0 or STATE is saved (R330). -/
def mayRebase (c : Ctx) : Bool := ! c.ptroot.getLsbD 0 || c.state == .saved

/-- A write to a context's control block (R330): [51:16] and EN of PTROOT, and the fields of the others. DEDUCED, log 37. -/
def writeCtxBlock (ctx off : Nat) (v : DWord) (s : State) : State :=
  let page : DWord := 0x000FFFFFFFFFF000
  let c := ctxOf s ctx
  match off with
  | 0x00 => if mayRebase c then modCtx ctx (fun c => { c with ptroot := v &&& 0x000FFFFFFFFF0001 }) s else s
  | 0x08 => if mayRebase c then modCtx ctx (fun c => { c with savebase := v &&& page }) s else s
  | 0x10 => if mayRebase c then modCtx ctx (fun c => { c with savesize := v }) s else s
  | 0x18 => writeCtxcmd ctx (bitsOf v.toNat 0 4) s
  | 0x28 => modCtx ctx (fun c => { c with invaddr := v &&& 0x000FFFFFFFFFF001 }) s
  | 0x30 => modCtx ctx (fun c => { c with invsize := v }) s
  | 0x38 => modCtx ctx (fun c => { c with poolbase := v &&& page }) s
  | 0x40 => modCtx ctx (fun c => { c with poolcfg := v &&& 0xF }) s
  | 0x50 => modCtx ctx (fun c => { c with pooltail := loW v }) s
  | 0x58 => if mayRebase c then modCtx ctx (fun c => { c with growbase := v &&& 0x000FFFFFFFE00000 }) s else s
  | 0x60 => if mayRebase c then modCtx ctx (fun c => { c with growsize := v }) s else s
  | _ => s

/-- A write to one half of a route entry: bits [4:2] are reserved (R364). -/
def writeRoute (ctx e : Nat) (hi : Bool) (v : DWord) (s : State) : State :=
  modCtx ctx (fun c =>
    let old := c.route.get e 0
    let new : QWord := if hi then v ++ old.extractLsb' 0 64 else old.extractLsb' 64 64 ++ (v &&& ~~~(0x1C : DWord))
    { c with route := c.route.set e new }) s

/-- A write to a counter: its selection, or its count, where OVF is cleared by writing 1 (R378). -/
def writeCounter (mask : DWord) (count : Bool) (v : DWord) (c : Counter) : Counter :=
  if count then { c with count := v.extractLsb' 0 48, ovf := c.ovf && ! v.getLsbD 48 } else { c with sel := v &&& mask }

/-- A write to a register of the physical function. DEDUCED, log 37. -/
def writePf (r : PfReg) (v : DWord) (s : State) : Host.Outcome State Fault Refusal :=
  match r with
  | .healthcmd => execHealthcmdAck v s
  | .carrctl l =>
    let s1 := if v.getLsbD 0 = (linkOf s l).en then s else writeEn l (v.getLsbD 0) s
    .next (if v.getLsbD 1 then retrain l s1 else s1)
  | .carrid => .next { s with pkgid := v.extractLsb' 0 16 }
  | .ctx c off => .next (writeCtxBlock c off v s)
  | .route c e hi => .next (writeRoute c e hi v s)
  | .coreCtr c k n => .next { s with coreCtr := s.coreCtr.modify (c, k) {} (writeCounter 0x3FFF7FFF n v) }
  | .dieCtr d k n => .next { s with dieCtr := s.dieCtr.modify (d, k) {} (writeCounter 0x3FFF03FF n v) }
  | _ => .next s

/-- A write to CANCEL acts at the level that it names (R321). -/
def writeCancel (ctx : Nat) (v : DWord) (s : State) : Host.Outcome State Fault Refusal :=
  match bitsOf v.toNat 61 3 with
  | 0 => execCancelUnit ctx v s
  | 1 => execCancelLaunch ctx v s
  | 2 => execCancelGraph ctx v s
  | 3 => execCancelPhase ctx v s
  | 4 => execCancelJob ctx v s
  | _ => .next s

/-- A write to a doorbell page (R308). DEDUCED, log 37. -/
def writeDoorbell (ctx off : Nat) (v : DWord) (s : State) : Host.Outcome State Fault Refusal :=
  match off with
  | 0x000 => execTrigger ctx v s
  | 0x008 => .next (modCtx ctx (fun c => { c with trigstat := c.trigstat &&& ~~~(v &&& 0xF) }) s)
  | 0x010 => execGload ctx v s
  | 0x020 => .next (modCtx ctx (fun c => { c with cancelunit := v &&& 0x0000FFFFFFFFFFFF }) s)
  | 0x028 => writeCancel ctx v s
  | 0x038 => .next (modCtx ctx (fun c => { c with gdiesel := v &&& 7 }) s)
  | _ => .next s

/-- A write to FCMD (R344). -/
def writeFcmd (ctx : Nat) (v : DWord) (s : State) : Host.Outcome State Fault Refusal :=
  match bitsOf v.toNat 60 4 with
  | 1 => execFcmdReplay ctx v s
  | 2 => execFcmdCancel ctx v s
  | _ => execFcmdInvalid ctx v s

/-- A write to a fault page (R343). -/
def writeFaultPage (ctx off : Nat) (v : DWord) (s : State) : Host.Outcome State Fault Refusal :=
  match off with
  | 0x000 => .next (modCtx ctx (fun c => { c with fqbase := v &&& 0xFFFFFFFFFFFFF000 }) s)
  | 0x008 => .next (flushRing ctx (modCtx ctx (fun c => { c with fqcfg := v &&& 0x11F }) s))
  | 0x018 => execFqtailWrite ctx v s
  | 0x020 => .next (if v.getLsbD 0 then modCtx ctx (fun c => { c with fqheld := false }) s else s)
  | 0x028 => writeFcmd ctx v s
  | 0x030 => .next (if v.getLsbD 32 then modCtx ctx (fun c => { c with fcmdbad := false }) s else s)
  | _ => .next s

/-- REGISTER_WRITE (R6): a register without behaviour of its own takes its RW and W1C fields; at a register that has one, the write is
that event; a write at an offset that is not listed is ignored. -/
def execRegisterWrite (a : RegAddr) (v : DWord) (s : State) : Host.Outcome State Fault Refusal := hostDoes s <|
  match a with
  | .pf off => match pfReg off with
    | some r => writePf r v s
    | none => .next s
  | .doorbell ctx off => if ctx < 8192 then writeDoorbell ctx off v s else .next s
  | .faultPage ctx off => if ctx < 8192 then writeFaultPage ctx off v s else .next s
  | .quota d c => .next (if d < 8 ∧ c < 4 then { s with quota := s.quota.set (d, c) (v.extractLsb' 0 8) } else s)

/-! ### Reads -/

/-- A bit for each number from 64 i on that a list holds. -/
def mapWord (l : List Nat) (i : Nat) : DWord := BitVec.ofNat 64 (bitSet ((l.filter fun c => c / 64 == i).map fun c => c % 64))

/-- The cores that are fenced, with those of fenced dies. -/
def fencedCores (s : State) : List Nat := (List.range Config.cores).filter fun c => s.fenced.contains c || s.diedead.contains (dieOf c)

/-- The code of CTXSTAT.STATE (R330). -/
def CState.code : CState → Nat
  | .running => 0
  | .saving => 1
  | .saved => 2
  | .restoring => 3

/-- What a field of a context's control block reads as (R330). -/
def readCtxBlock (s : State) (ctx off : Nat) : DWord :=
  let c := ctxOf s ctx
  match off with
  | 0x00 => c.ptroot
  | 0x08 => c.savebase
  | 0x10 => c.savesize
  | 0x20 => BitVec.ofNat 64 (c.state.code + (if c.invbusy then 256 else 0) + (savedOf s ctx).length % 2 ^ 32 * 2 ^ 32)
  | 0x28 => c.invaddr
  | 0x30 => c.invsize
  | 0x38 => c.poolbase
  | 0x40 => c.poolcfg
  | 0x48 => c.poolhead.setWidth 64
  | 0x50 => c.pooltail.setWidth 64
  | 0x58 => c.growbase
  | 0x60 => c.growsize
  | _ => 0

/-- What a counter reads as (R378). -/
def readCounter (count : Bool) (c : Counter) : DWord :=
  if count then c.count.setWidth 64 ||| (if c.ovf then 0x0001000000000000 else 0) else c.sel

/-- What a register of the physical function reads as. -/
def readPf (s : State) (r : PfReg) : DWord :=
  match r with
  | .health => healthWord s
  | .healthcmd => 0
  | .coreMap i => mapWord (fencedCores s) i
  | .chanMap i => mapWord s.chanoff i
  | .carrctl l => if (linkOf s l).en then 1 else 0
  | .carrstat l =>
    let k := linkOf s l
    BitVec.ofNat 64 (k.state.code + k.laneok.toNat * 2 ^ 16 + k.peer.toNat * 2 ^ 32)
  | .carrseq l =>
    let k := linkOf s l
    BitVec.ofNat 64 (k.next.toNat + k.acked.toNat * 2 ^ 16 + k.expect.toNat * 2 ^ 32)
  | .carrid => s.pkgid.setWidth 64
  | .ctx c off => readCtxBlock s c off
  | .route c e hi => let x := (ctxOf s c).route.get e 0; if hi then x.extractLsb' 64 64 else x.extractLsb' 0 64
  | .coreCtr c k n => readCounter n (s.coreCtr.get (c, k) {})
  | .dieCtr d k n => readCounter n (s.dieCtr.get (d, k) {})

/-- What an offset of a doorbell page reads as (R308): GRAPHDONE shows the graphs of the die that GDIESEL selects. -/
def readDoorbell (s : State) (ctx off : Nat) : DWord :=
  let c := ctxOf s ctx
  if off % 8 ≠ 0 then 0
  else if off = 0x008 then c.trigstat
  else if off = 0x018 then c.gloadstat
  else if off = 0x020 then c.cancelunit
  else if off = 0x030 then BitVec.ofNat 64 c.jobdone
  else if off = 0x038 then c.gdiesel
  else if 0x100 ≤ off ∧ off < 0x300 then BitVec.ofNat 64 (c.phasedone.get ((off - 0x100) / 8) 0)
  else if 0x400 ≤ off ∧ off < 0xC00 then BitVec.ofNat 64 (c.graphdone.get (c.gdiesel.toNat * 256 + (off - 0x400) / 8) 0)
  else 0

/-- What an offset of a fault page reads as (R343, R344): a size outside 6 to 16 makes EN read 0. -/
def readFaultPage (s : State) (ctx off : Nat) : DWord :=
  let c := ctxOf s ctx
  let mine := s.frecs.filter fun r => r.ctx == ctx
  match off with
  | 0x000 => c.fqbase
  | 0x008 => if ringSize c = 0 then c.fqcfg &&& 0x1F else c.fqcfg
  | 0x010 => c.fqhead.setWidth 64
  | 0x018 => c.fqtail.setWidth 64
  | 0x020 => BitVec.ofNat 64 ((if c.fqheld then 1 else 0) + (mine.filter (·.pending)).length % 65536 * 2 ^ 32
      + (mine.filter fun r => ! r.written).length % 65536 * 2 ^ 48)
  | 0x030 => BitVec.ofNat 64 (c.fcmdseq.toNat + (if c.fcmdbad then 2 ^ 32 else 0))
  | _ => 0

/-- What the host reads at a register: 0 at an offset that is not listed (R6, R308, R343, R363). -/
def readReg (s : State) (a : RegAddr) : DWord :=
  match a with
  | .pf off => ((pfReg off).map (readPf s)).getD 0
  | .doorbell ctx off => readDoorbell s ctx off
  | .faultPage ctx off => readFaultPage s ctx off
  | .quota d c => (s.quota.get (d, c) 16).setWidth 64

/-- The answer to a host's read of a register: none from a device that has FAILED, which answers only management traffic (R377). -/
def hostRead (s : State) (a : RegAddr) : Option DWord := if answersHost s then some (readReg s a) else none

end Sys2Proof.Machine
end

