-- ==== Sys2Proof/Machine/Sha.lean ====
section
/-! DEFINITION. SHA-384, as the boot and security core and the translator compute it (R301, R371, R372). -/

namespace Sys2Proof.Machine

/-- Round constants of SHA-512 and SHA-384, 0 to 19. -/
def shaK0 : List DWord :=
  [0x428A2F98D728AE22, 0x7137449123EF65CD, 0xB5C0FBCFEC4D3B2F, 0xE9B5DBA58189DBBC, 0x3956C25BF348B538,
   0x59F111F1B605D019, 0x923F82A4AF194F9B, 0xAB1C5ED5DA6D8118, 0xD807AA98A3030242, 0x12835B0145706FBE,
   0x243185BE4EE4B28C, 0x550C7DC3D5FFB4E2, 0x72BE5D74F27B896F, 0x80DEB1FE3B1696B1, 0x9BDC06A725C71235,
   0xC19BF174CF692694, 0xE49B69C19EF14AD2, 0xEFBE4786384F25E3, 0x0FC19DC68B8CD5B5, 0x240CA1CC77AC9C65]

/-- Round constants of SHA-512 and SHA-384, 20 to 39. -/
def shaK1 : List DWord :=
  [0x2DE92C6F592B0275, 0x4A7484AA6EA6E483, 0x5CB0A9DCBD41FBD4, 0x76F988DA831153B5, 0x983E5152EE66DFAB,
   0xA831C66D2DB43210, 0xB00327C898FB213F, 0xBF597FC7BEEF0EE4, 0xC6E00BF33DA88FC2, 0xD5A79147930AA725,
   0x06CA6351E003826F, 0x142929670A0E6E70, 0x27B70A8546D22FFC, 0x2E1B21385C26C926, 0x4D2C6DFC5AC42AED,
   0x53380D139D95B3DF, 0x650A73548BAF63DE, 0x766A0ABB3C77B2A8, 0x81C2C92E47EDAEE6, 0x92722C851482353B]

/-- Round constants of SHA-512 and SHA-384, 40 to 59. -/
def shaK2 : List DWord :=
  [0xA2BFE8A14CF10364, 0xA81A664BBC423001, 0xC24B8B70D0F89791, 0xC76C51A30654BE30, 0xD192E819D6EF5218,
   0xD69906245565A910, 0xF40E35855771202A, 0x106AA07032BBD1B8, 0x19A4C116B8D2D0C8, 0x1E376C085141AB53,
   0x2748774CDF8EEB99, 0x34B0BCB5E19B48A8, 0x391C0CB3C5C95A63, 0x4ED8AA4AE3418ACB, 0x5B9CCA4F7763E373,
   0x682E6FF3D6B2B8A3, 0x748F82EE5DEFB2FC, 0x78A5636F43172F60, 0x84C87814A1F0AB72, 0x8CC702081A6439EC]

/-- Round constants of SHA-512 and SHA-384, 60 to 79. -/
def shaK3 : List DWord :=
  [0x90BEFFFA23631E28, 0xA4506CEBDE82BDE9, 0xBEF9A3F7B2C67915, 0xC67178F2E372532B, 0xCA273ECEEA26619C,
   0xD186B8C721C0C207, 0xEADA7DD6CDE0EB1E, 0xF57D4F7FEE6ED178, 0x06F067AA72176FBA, 0x0A637DC5A2C898A6,
   0x113F9804BEF90DAE, 0x1B710B35131C471B, 0x28DB77F523047D84, 0x32CAAB7B40C72493, 0x3C9EBE0A15C9BEBC,
   0x431D67C49C100D4C, 0x4CC5D4BECB3E42B6, 0x597F299CFC657E2A, 0x5FCB6FAB3AD6FAEC, 0x6C44198C4A475817]

/-- The initial hash value of SHA-384. -/
def shaInit : List DWord :=
  [0xCBBB9D5DC1059ED8, 0x629A292A367CD507, 0x9159015A3070DD17, 0x152FECD8F70E5939, 0x67332667FFC00B31,
   0x8EB44A8768581511, 0xDB0C2E0D64F98FA7, 0x47B5481DBEFA4FA4]

/-- The round constants. -/
def shaK : List DWord := shaK0 ++ shaK1 ++ shaK2 ++ shaK3

/-- The working variables. -/
structure ShaVars where
  a : DWord
  b : DWord
  c : DWord
  d : DWord
  e : DWord
  f : DWord
  g : DWord
  h : DWord
  deriving DecidableEq, Repr

/-- One round, with its constant and message word. -/
def shaRound (v : ShaVars) (k w : DWord) : ShaVars :=
  let s1 := v.e.rotateRight 14 ^^^ v.e.rotateRight 18 ^^^ v.e.rotateRight 41
  let ch := (v.e &&& v.f) ^^^ (~~~v.e &&& v.g)
  let t1 := v.h + s1 + ch + k + w
  let s0 := v.a.rotateRight 28 ^^^ v.a.rotateRight 34 ^^^ v.a.rotateRight 39
  let maj := (v.a &&& v.b) ^^^ (v.a &&& v.c) ^^^ (v.b &&& v.c)
  ⟨t1 + (s0 + maj), v.a, v.b, v.c, v.d + t1, v.e, v.f, v.g⟩

/-- The next message word, from the last sixteen, the oldest first. -/
def shaNext (w : List DWord) : DWord :=
  let x := w.getD 1 0
  let y := w.getD 14 0
  w.getD 0 0 + (x.rotateRight 1 ^^^ x.rotateRight 8 ^^^ (x >>> 7)) + w.getD 9 0 + (y.rotateRight 19 ^^^ y.rotateRight 61 ^^^ (y >>> 6))

/-- The rounds of a block over the sixteen message words in hand. -/
def shaRounds : List DWord → List DWord → ShaVars → ShaVars
  | [], _, v => v
  | k :: ks, w, v => shaRounds ks (w.drop 1 ++ [shaNext w]) (shaRound v k (w.getD 0 0))

/-- A word from bytes, the most significant first. -/
def beWord (bs : List Byte) : DWord := bs.foldl (fun x b => x <<< 8 ||| b.setWidth 64) 0

/-- The bytes of a word, the most significant first. -/
def wordBytes (w : DWord) : List Byte := (List.range 8).map fun i => (w >>> (56 - 8 * i)).setWidth 8

/-- The hash value after one block of 128 bytes. -/
def shaBlock (v : ShaVars) (block : List Byte) : ShaVars :=
  let x := shaRounds shaK ((List.range 16).map fun i => beWord ((block.drop (8 * i)).take 8)) v
  ⟨v.a + x.a, v.b + x.b, v.c + x.c, v.d + x.d, v.e + x.e, v.f + x.f, v.g + x.g, v.h + x.h⟩

/-- The bytes of a block. -/
def shaBytes : Nat := 128

/-- The hash value after a number of blocks of a message. -/
def shaBlocks (n : Nat) (m : List Byte) (v : ShaVars) : ShaVars :=
  (List.range n).foldl (fun v k => shaBlock v ((m.drop (shaBytes * k)).take shaBytes)) v

/-- The message with its padding: a one bit, zeros, and the length in bits in 128 bits. -/
def shaPad (m : List Byte) : List Byte :=
  let z := (239 - m.length % 128) % 128
  m ++ [0x80] ++ List.replicate z 0 ++ List.replicate 8 0 ++ wordBytes (BitVec.ofNat 64 (8 * m.length))

/-- SHA-384 of bytes: 48 bytes. -/
def sha384 (m : List Byte) : List Byte :=
  let p := shaPad m
  let i := fun (k : Nat) => shaInit.getD k 0
  let v := shaBlocks (p.length / 128) p ⟨i 0, i 1, i 2, i 3, i 4, i 5, i 6, i 7⟩
  wordBytes v.a ++ wordBytes v.b ++ wordBytes v.c ++ wordBytes v.d ++ wordBytes v.e ++ wordBytes v.f

/-- HMAC-SHA-384 of bytes under a key (R373). -/
def hmac384 (key m : List Byte) : List Byte :=
  let k := if key.length ≤ shaBytes then key else sha384 key
  let pad := fun b : Byte => (k ++ List.replicate (shaBytes - k.length) 0).map (· ^^^ b)
  sha384 (pad 0x5C ++ sha384 (pad 0x36 ++ m))

end Sys2Proof.Machine
end

