-- ==== Sys2Proof/Machine/Boot.lean ====
section
/-! DEFINITION. Boot and identity: the check of an image, the stages of a boot, measurements, certificate and challenge (R370 to R373). -/

namespace Sys2Proof.Machine

/-! ### ECDSA over brainpoolP384r1 -/

/-- The prime of the field. -/
def curveP : Nat := 0x8CB91E82A3386D280F5D6F7E50E641DF152F7109ED5456B412B1DA197FB71123ACD3A729901D1A71874700133107EC53
/-- The coefficient A of the curve. -/
def curveA : Nat := 0x7BC382C63D8C150C3C72080ACE05AFA0C2BEA28E4FB22787139165EFBA91F90F8AA5814A503AD4EB04A8C7DD22CE2826
/-- The coefficient B of the curve. -/
def curveB : Nat := 0x04A8C7DD22CE28268B39B55416F0447C2FB77DE107DCD2A62E880EA53EEB62D57CB4390295DBC9943AB78696FA504C11
/-- The order of the base point. -/
def curveQ : Nat := 0x8CB91E82A3386D280F5D6F7E50E641DF152F7109ED5456B31F166E6CAC0425A7CF3AB6AF6B7FC3103B883202E9046565
/-- The base point. -/
def curveG : Nat × Nat :=
  (0x1D1C64F068CF45FFA2A63A81B7C13F6B8847A3E77EF14FE3DB7FCAFE0CBD10E8E826E03436D646AAEF87B2E247D4AF1E,
   0x8ABE1D7520F9C2A45CB1EB8E95CFD55262B70B29FEEC5864E19C054FF99129280E4646217791811142820341263C5315)

/-- A power modulo a number, over the low bits of the exponent. -/
def powMod (m : Nat) : Nat → Nat → Nat → Nat
  | 0, _, _ => 1 % m
  | n + 1, b, e =>
    let r := powMod m n (b * b % m) (e / 2)
    if e % 2 = 1 then b * r % m else r

/-- The inverse modulo a prime of 384 bits. -/
def invMod (m a : Nat) : Nat := powMod m 384 (a % m) (m - 2)

/-- A point of the curve; none is the point at infinity. -/
abbrev Point := Option (Nat × Nat)

/-- The sum of two points of the curve. -/
def addPoint (a b : Point) : Point :=
  match a, b with
  | none, q => q
  | p, none => p
  | some (x1, y1), some (x2, y2) =>
    if x1 = x2 ∧ (y1 + y2) % curveP = 0 then none
    else
      let l := if x1 = x2 then (3 * x1 * x1 + curveA) * invMod curveP (2 * y1) % curveP
        else (y2 + curveP - y1) * invMod curveP (x2 + curveP - x1) % curveP
      let x3 := (l * l + 2 * curveP - x1 - x2) % curveP
      some (x3, (l * (x1 + curveP - x3) + curveP - y1) % curveP)

/-- A multiple of a point, over the low bits of the factor. -/
def mulPoint : Nat → Nat → Point → Point
  | 0, _, _ => none
  | n + 1, k, p =>
    let r := mulPoint n (k / 2) (addPoint p p)
    if k % 2 = 1 then addPoint p r else r

/-- A point lies on the curve. -/
def onCurve (x y : Nat) : Bool :=
  decide (x < curveP) && decide (y < curveP) && y * y % curveP == (x * x * x + curveA * x + curveB) % curveP

/-- The number that a digest stands for, its first byte the most significant. PRESUMED, log 25. -/
def beNat (bs : List Byte) : Nat := bs.foldl (fun n b => 256 * n + b.toNat) 0

/-- (r, s) is a valid signature of a digest under a public key (R371). -/
def ecdsaOk (x y r s : Nat) (digest : List Byte) : Bool :=
  onCurve x y && decide (0 < r) && decide (r < curveQ) && decide (0 < s) && decide (s < curveQ) &&
    (let w := invMod curveQ s
     let e := beNat digest % curveQ
     match addPoint (mulPoint 384 (e * w % curveQ) (some curveG)) (mulPoint 384 (r * w % curveQ) (some (x, y))) with
     | none => false
     | some (px, _) => px % curveQ == r)

/-- The signature of a digest under a private key, with the secret of the signature. -/
def ecdsaSign (key k : Nat) (digest : List Byte) : Nat × Nat :=
  let r := match mulPoint 384 (k % curveQ) (some curveG) with
    | none => 0
    | some (x, _) => x % curveQ
  (r, invMod curveQ k * (beNat digest + r * key) % curveQ)

/-! ### Images -/

/-- A part of an image's header, as bytes. -/
def hdrBytes (i : Image) (lo n : Nat) : List Byte := (i.header.drop lo).take n

/-- A part of an image's header, as a number. PRESUMED, log 25. -/
def hdrNat (i : Image) (lo n : Nat) : Nat := leNat (hdrBytes i lo n)

/-- The revocation fuse of a key slot is blown (R371). -/
def slotRevoked (s : State) (slot : Nat) : Bool := Config.slotRevoked slot || s.revoked.contains slot

/-- The fused minimum of the security version of an image kind (R371). -/
def minSvn (s : State) (kind : Nat) : Nat := max (Config.minSvn kind) (s.svn.get kind 0)

/-- The image is accepted as one of a kind (R371). PRESUMED, log 25. -/
def imageOk (s : State) (kind : Nat) (i : Image) : Bool :=
  i.header.length == 512
    && hdrNat i 0 4 == 0x4D495A55 && hdrNat i 4 2 == 1 && hdrNat i 7 1 == kind
    && hdrNat i 12 4 == 0 && hdrNat i 24 8 == 0 && hdrNat i 272 240 == 0
    && decide (hdrNat i 6 1 ≤ 2) && sha384 (hdrBytes i 32 96) == Config.slotHash (hdrNat i 6 1) && ! slotRevoked s (hdrNat i 6 1)
    && decide (minSvn s kind ≤ hdrNat i 8 4)
    && hdrNat i 16 8 == i.body.length && sha384 i.body == hdrBytes i 128 48
    && ecdsaOk (hdrNat i 32 48) (hdrNat i 80 48) (hdrNat i 176 48) (hdrNat i 224 48) (sha384 (hdrBytes i 0 176))

/-- The measurement of an accepted image (R372). DEDUCED, log 27. -/
def imageDigest (i : Image) : List Byte := sha384 (i.header ++ i.body)

/-! ### Boot -/

/-- The device after a package reset, with what is not the package's own: the agenda, the model's counters, the images that an update
has left in the flash and its configuration block, the fuses, and the translator cache in storage (R370, R371, R373). DEDUCED, log 27. -/
def packageReset (s : State) : State :=
  { State.reset with agenda := s.agenda, free := s.free, fresh := s.fresh, updates := s.updates, cache := s.cache,
                     flashNs := s.flashNs, revoked := s.revoked, svn := s.svn }

/-- A boot that has failed at a stage: the health state is FAILED, and the management port reports it (R370, R377). -/
def bootFails (stage : Nat) (s : State) : State := answer (.bootFailed stage) (enterFailed true s)

/-- Record a measurement (R372). -/
def measured (i : Nat) (d : List Byte) (s : State) : State := { s with measure := s.measure.set i d }

/-- A signed fuse command holds: a key whose hash is fused in a slot that is not revoked has signed its bytes (R371). DEDUCED, log 26. -/
def fuseOk (s : State) (c : FuseCmd) : Bool :=
  decide (c.slot ≤ 2) && c.key.length == 96 && sha384 c.key == Config.slotHash c.slot && ! slotRevoked s c.slot
    && ecdsaOk (leNat (c.key.take 48)) (leNat (c.key.drop 48)) c.r c.s (sha384 c.body)

/-- Apply a signed fuse command: a fuse that is blown stays so, and a minimum never falls (R371). -/
def blowFuse (s : State) (c : FuseCmd) : State :=
  if ! fuseOk s c then s
  else match c.op with
    | .revoke n => { s with revoked := s.revoked.insert n }
    | .svn k n => { s with svn := s.svn.set k (max (s.svn.get k 0) n) }

/-- Stage 1 applies the signed fuse commands, and the fuse state is measured (R371, R372). DEDUCED, log 27. -/
def applyFuses (cs : List FuseCmd) (s : State) : State :=
  let s1 := cs.foldl blowFuse s
  measured 5 (Config.fuseMeasurement s1.revoked s1.svn) s1

/-- The stages of a boot after stage 1, from the NVMe namespace that the flash configuration block names (R370). DEDUCED, log 27. -/
def bootOn (imgs : BootImages) (bad : List Nat) (s : State) : State :=
  match imgs.store.find? fun p => p.1 == s.flashNs with
  | none => bootFails 2 s
  | some (_, firmware, translator) =>
    if ! imageOk s 2 firmware then bootFails 2 s
    else
      let s1 := measured 3 (imageDigest firmware) s
      if ! imageOk s1 3 translator then bootFails 3 s1
      else
        let s2 := measured 4 (imageDigest translator) s1
        let off := (bad.filter fun c => decide (c < Config.cores)).dedup
        let s3 := { s2 with booted := true, health := if off.isEmpty then .ok else .degraded, replaceF := ! off.isEmpty, fenced := off }
        checkDies (noteHealth s2 s3)

/-- BOOT (R370 to R372, R376): a package reset, then the stages, each image verified before it runs; cores that fail their self-test are
fenced. -/
def execBoot (imgs : BootImages) (bad : List Nat) (s : State) : Host.Outcome State Fault Refusal :=
  let p := packageReset s
  let s0 := measured 6 (if Config.debugUnlock then Config.debugMeasurement else List.replicate 48 0)
    (measured 5 (Config.fuseMeasurement p.revoked p.svn) (measured 1 Config.romDigest p))
  let on := fun i : Image => bootOn imgs bad (applyFuses imgs.fuses (measured 2 (imageDigest i) s0))
  .next (if imageOk s0 1 imgs.copyA then on imgs.copyA else if imageOk s0 1 imgs.copyB then on imgs.copyB else bootFails 1 s0)

/-! ### Identity -/

/-- A signature under the device identity key (R372). -/
def signed (m : List Byte) (s : State) : (Nat × Nat) × State :=
  (ecdsaSign Config.identityKey (Config.signNonce s.free) (sha384 m), { s with free := s.free + 1 })

/-- GET_MEASUREMENTS (R372): a measurement, signed where the request brings a nonce. DEDUCED, log 27. -/
def execGetMeasurements (q : MeasureReq) (s : State) : Host.Outcome State Fault Refusal :=
  .next (match s.measure.find? q.index, q.nonce with
    | none, _ => answer (.noMeasurement q.index) s
    | some d, none => answer (.measurement q.index d none) s
    | some d, some n =>
      let (g, s1) := signed (Config.measureTranscript q.index d n) s
      answer (.measurement q.index d (some g)) s1)

/-- GET_CERTIFICATE (R372). -/
def execGetCertificate (s : State) : Host.Outcome State Fault Refusal := .next (answer (.certificate Config.certChain) s)

/-- NEGOTIATE_ALGORITHMS (R372): ECDSA over brainpoolP384r1 with SHA-384, and no other asymmetric algorithm. -/
def execNegotiateAlgorithms (s : State) : Host.Outcome State Fault Refusal := .next (answer .algorithms s)

/-- CHALLENGE (R372): signed with the device identity key. -/
def execChallenge (nonce : List Byte) (s : State) : Host.Outcome State Fault Refusal :=
  let (g, s1) := signed (Config.transcript nonce) s
  .next (answer (.challenge g.1 g.2) s1)

end Sys2Proof.Machine
end

