-- ==== Sys2Proof/Machine/Fibres.lean ====
section
/-! DEFINITION. The fibre instructions (R236 to R238). -/

namespace Sys2Proof.Machine

/-- Bytes of a coordinate (R237). -/
def coordBytes : CWidth → Nat
  | .c2 => 2
  | .c4 => 4

/-- Bytes of a value (R237). -/
def valueBytes : VWidth → Nat
  | .v2 => 2
  | .v4 => 4
  | .v8 => 8

/-- A lane's fibre as the trace sees it: the shadow where the trace has touched it, else the committed fields (R236). -/
def fibreOf (s : State) (r : LaneRef) (k : Nat) : Fibre := (s.shad.find? ⟨r, k⟩).getD (s.fib.get ⟨r.lane, k⟩ {})

/-- Set the shadow of a fibre (R236). -/
def setFibre (r : LaneRef) (k : Nat) (f : Fibre) (s : State) : State := { s with shad := s.shad.set ⟨r, k⟩ f }

/-- FOPEN (R238). DEDUCED, log 50. -/
def execFopen (k : BitVec 3) (cw : CWidth) (vw : VWidth) (a b c : Opnd) (s : State) : Host.Outcome State Fault Refusal :=
  withIssue (gangRegs [(a, 2), (b, 2), (c, 1)]) [] s fun iss s =>
    advance iss ((issueLanes s iss).foldl (fun s r =>
      setFibre r k.toNat ⟨src64 s r .int a, src64 s r .int b, src32 s r .int c, cw, vw, 0⟩ s) s)

/-- FCLOSE (R238). -/
def execFclose (k : BitVec 3) (s : State) : Host.Outcome State Fault Refusal :=
  withIssue [] [] s fun iss s =>
    advance iss ((issueLanes s iss).foldl (fun s r =>
      setFibre r k.toNat { fibreOf s r k.toNat with len := 0, pos := 0 } s) s)

/-- FTEST: what is left of the fibre (R238). DEDUCED, log 50. -/
def execFtest (k : BitVec 3) (d : Opnd) (s : State) : Host.Outcome State Fault Refusal :=
  withIssue [] [] s fun iss s =>
    let rs := issueLanes s iss
    let res := rs.map fun r =>
      let f := fibreOf s r k.toNat
      (r, res32 (if f.pos.toNat < f.len.toNat then f.len - f.pos else 0))
    advance iss (deliver iss d res 1 (rs.foldl (fun s r => setFibre r k.toNat (fibreOf s r k.toNat) s) s))

/-- One lane's FNEXT: the coordinate and the value, with their faults held (R39, R238). DEDUCED, log 50. -/
def nextOf (r : LaneRef) (k : Nat) (hint : Hint) (wa : Nat) (s : State) : Word × DWord × State :=
  let f := fibreOf s r k
  if f.len.toNat ≤ f.pos.toNat then (0xFFFFFFFF, 0, setFibre r k f s)
  else
    let s0 := setFibre r k { f with pos := f.pos + 1 } s
    let rd := fun (p : DWord) (w : Nat) (s : State) =>
      match loadElem r .gl (((p.toNat + w * f.pos.toNat : Nat) : Int) % 2 ^ 64) w (hint == .sm) wa s with
      | (.ok bs, s1) => (leNat bs, s1)
      | (.error e, s1) => (0, holdFault r e s1)
    let (c, s1) := rd f.cptr (coordBytes f.cw) s0
    let (v, s2) := rd f.vptr (valueBytes f.vw) s1
    (BitVec.ofNat 32 c, BitVec.ofNat 64 v, s2)

/-- FNEXT: the value to d, then the coordinate to c (R238). -/
def execFnext (k : BitVec 3) (dbl : Bool) (hint : Hint) (d c : Opnd) (s : State) : Host.Outcome State Fault Refusal :=
  withIssue [] [] s fun iss s =>
    let wa := wordAddr (headThread s iss)
    let step := fun (acc : List (LaneRef × Word × DWord) × State) (r : LaneRef) =>
      let (co, v, s1) := nextOf r k.toNat hint wa acc.2
      (acc.1 ++ [(r, co, v)], s1)
    let (res, s1) := (issueLanes s iss).foldl step ([], s)
    let s2 := deliver iss d (res.map fun p => (p.1, resW (dblSize dbl) p.2.2)) (dblSize dbl).regs s1
    advance iss (deliver iss c (res.map fun p => (p.1, res32 p.2.1)) 1 s2)

end Sys2Proof.Machine
end

