-- ==== Sys2Proof/Machine/FloatOps.lean ====
section
/-! DEFINITION. The floating-point and conversion instructions (R186 to R207). -/

namespace Sys2Proof.Machine

/-- A packed source of a type (R114, R187). -/
def pk (ty : PkType) (o : Opnd) : Opnd × Size × KType := (o, .w32, match ty with
  | .bf16 => .pkbf
  | .fp16 => .pk16)

/-- A source of a float type (R114, R200). -/
def fsrc (t : FType) (o : Opnd) : Opnd × Size × KType :=
  match t with
  | .f32 => (o, .w32, .f32)
  | .f64 => (o, .w64, .f64)
  | .f16 => (o, .w32, .f16)
  | .bf16 => (o, .w32, .bf16)

/-- A binary32 result. -/
def r32 (n : Nat) : Res := res32 (BitVec.ofNat 32 n)
/-- A binary64 result. -/
def r64 (n : Nat) : Res := res64 (BitVec.ofNat 64 n)

/-- A binary32 immediate widened exactly to binary64 (R119). -/
def wide (imm : BitVec 32) : Nat := convF binary32 binary64 .rn false imm.toNat

/-- A function of one binary32 value, with its result rounded to nearest (R197). -/
def unary32 (f : Val → Val) (ftz : Bool) (d a : Opnd) (s : State) : Host.Outcome State Fault Refusal :=
  compute1 false d .w32 (f32 a) (fun a => r32 (binary32.out .rn ftz (f (binary32.read ftz (loW a).toNat)))) s

/-- A function of one binary64 value, with its result rounded to nearest (R197). -/
def unary64 (f : Val → Val) (ftz : Bool) (d a : Opnd) (s : State) : Host.Outcome State Fault Refusal :=
  compute1 false d .w64 (f64 a) (fun a => r64 (binary64.out .rn ftz (f (binary64.read ftz a.toNat)))) s

/-! ### The instructions -/

/-- FADD (R194). -/
def execFadd (u : Bool) (rm : Round) (ftz : Bool) (d a b : Opnd) (s : State) : Host.Outcome State Fault Refusal :=
  compute2 u d .w32 (f32 a) (f32 b) (fun a b => r32 (binary32.addF rm ftz (loW a).toNat (loW b).toNat)) s

/-- FADD, immediate form (R194). -/
def execFaddI (u : Bool) (rm : Round) (ftz : Bool) (d a : Opnd) (imm : BitVec 32) (s : State) :
    Host.Outcome State Fault Refusal :=
  compute1 u d .w32 (f32 a) (fun a => r32 (binary32.addF rm ftz (loW a).toNat imm.toNat)) s

/-- FSUB (R194). -/
def execFsub (u : Bool) (rm : Round) (ftz : Bool) (d a b : Opnd) (s : State) : Host.Outcome State Fault Refusal :=
  compute2 u d .w32 (f32 a) (f32 b) (fun a b => r32 (binary32.subF rm ftz (loW a).toNat (loW b).toNat)) s

/-- FSUB, immediate form (R194). -/
def execFsubI (u : Bool) (rm : Round) (ftz : Bool) (d a : Opnd) (imm : BitVec 32) (s : State) :
    Host.Outcome State Fault Refusal :=
  compute1 u d .w32 (f32 a) (fun a => r32 (binary32.subF rm ftz (loW a).toNat imm.toNat)) s

/-- FMUL (R194). -/
def execFmul (u : Bool) (rm : Round) (ftz : Bool) (d a b : Opnd) (s : State) : Host.Outcome State Fault Refusal :=
  compute2 u d .w32 (f32 a) (f32 b) (fun a b => r32 (binary32.mulF rm ftz (loW a).toNat (loW b).toNat)) s

/-- FMUL, immediate form (R194). -/
def execFmulI (u : Bool) (rm : Round) (ftz : Bool) (d a : Opnd) (imm : BitVec 32) (s : State) :
    Host.Outcome State Fault Refusal :=
  compute1 u d .w32 (f32 a) (fun a => r32 (binary32.mulF rm ftz (loW a).toNat imm.toNat)) s

/-- FFMA (R194). -/
def execFfma (u : Bool) (rm : Round) (ftz : Bool) (d a b c : Opnd) (s : State) : Host.Outcome State Fault Refusal :=
  compute3 u d .w32 (f32 a) (f32 b) (f32 c)
    (fun a b c => r32 (binary32.fmaF rm ftz (loW a).toNat (loW b).toNat (loW c).toNat)) s

/-- FMIN (R195). -/
def execFmin (u ftz : Bool) (d a b : Opnd) (s : State) : Host.Outcome State Fault Refusal :=
  compute2 u d .w32 (f32 a) (f32 b) (fun a b => r32 (binary32.minF ftz (loW a).toNat (loW b).toNat)) s

/-- FMIN, immediate form (R195). -/
def execFminI (u ftz : Bool) (d a : Opnd) (imm : BitVec 32) (s : State) : Host.Outcome State Fault Refusal :=
  compute1 u d .w32 (f32 a) (fun a => r32 (binary32.minF ftz (loW a).toNat imm.toNat)) s

/-- FMAX (R195). -/
def execFmax (u ftz : Bool) (d a b : Opnd) (s : State) : Host.Outcome State Fault Refusal :=
  compute2 u d .w32 (f32 a) (f32 b) (fun a b => r32 (binary32.maxF ftz (loW a).toNat (loW b).toNat)) s

/-- FMAX, immediate form (R195). -/
def execFmaxI (u ftz : Bool) (d a : Opnd) (imm : BitVec 32) (s : State) : Host.Outcome State Fault Refusal :=
  compute1 u d .w32 (f32 a) (fun a => r32 (binary32.maxF ftz (loW a).toNat imm.toNat)) s

/-- FCMP (R196). -/
def execFcmp (u : Bool) (cond : Cond) (ftz : Bool) (d a b : Opnd) (s : State) : Host.Outcome State Fault Refusal :=
  compute2 u d .w32 (f32 a) (f32 b) (fun a b => res32 (binary32.cmpF cond ftz (loW a).toNat (loW b).toNat)) s

/-- FCMP, immediate form (R196). -/
def execFcmpI (u : Bool) (cond : Cond) (ftz : Bool) (d a : Opnd) (imm : BitVec 32) (s : State) :
    Host.Outcome State Fault Refusal :=
  compute1 u d .w32 (f32 a) (fun a => res32 (binary32.cmpF cond ftz (loW a).toNat imm.toNat)) s

/-- FRCP (R197). -/
def execFrcp (ftz : Bool) (d a : Opnd) (s : State) : Host.Outcome State Fault Refusal := unary32 Val.recip ftz d a s

/-- FRSQ (R197). -/
def execFrsq (ftz : Bool) (d a : Opnd) (s : State) : Host.Outcome State Fault Refusal := unary32 Val.rsqrt ftz d a s

/-- FSQRT (R197). -/
def execFsqrt (ftz : Bool) (d a : Opnd) (s : State) : Host.Outcome State Fault Refusal := unary32 Val.sqrt ftz d a s

/-- FEXP2 (R197). -/
def execFexp2 (ftz : Bool) (d a : Opnd) (s : State) : Host.Outcome State Fault Refusal :=
  compute1 false d .w32 (f32 a) (fun a => r32 (exp2F ftz (loW a))) s

/-- FLOG2 (R197). -/
def execFlog2 (ftz : Bool) (d a : Opnd) (s : State) : Host.Outcome State Fault Refusal :=
  compute1 false d .w32 (f32 a) (fun a => r32 (log2F ftz (loW a))) s

/-- FSIN (R197). -/
def execFsin (ftz : Bool) (d a : Opnd) (s : State) : Host.Outcome State Fault Refusal :=
  compute1 false d .w32 (f32 a) (fun a => r32 (sinF ftz (loW a))) s

/-- FCOS (R197). -/
def execFcos (ftz : Bool) (d a : Opnd) (s : State) : Host.Outcome State Fault Refusal :=
  compute1 false d .w32 (f32 a) (fun a => r32 (cosF ftz (loW a))) s

/-- FRND (R198). -/
def execFrnd (rm : Round) (ftz : Bool) (d a : Opnd) (s : State) : Host.Outcome State Fault Refusal :=
  unary32 (Val.integral rm) ftz d a s

/-- FCLASS (R199). -/
def execFclass (ftz : Bool) (d a : Opnd) (s : State) : Host.Outcome State Fault Refusal :=
  compute1 false d .w32 (f32 a) (fun a => res32 (classF ftz (loW a))) s

/-- PKADD (R194). -/
def execPkadd (ty : PkType) (rm : Round) (ftz : Bool) (d a b : Opnd) (s : State) : Host.Outcome State Fault Refusal :=
  compute2 false d .w32 (pk ty a) (pk ty b) (fun a b => res32 (packed2 ((pkFmt ty).addF rm ftz) (loW a) (loW b))) s

/-- PKADD, immediate form (R194). -/
def execPkaddI (ty : PkType) (rm : Round) (ftz : Bool) (d a : Opnd) (imm : BitVec 32) (s : State) :
    Host.Outcome State Fault Refusal :=
  compute1 false d .w32 (pk ty a) (fun a => res32 (packed2 ((pkFmt ty).addF rm ftz) (loW a) imm)) s

/-- PKMUL (R194). -/
def execPkmul (ty : PkType) (rm : Round) (ftz : Bool) (d a b : Opnd) (s : State) : Host.Outcome State Fault Refusal :=
  compute2 false d .w32 (pk ty a) (pk ty b) (fun a b => res32 (packed2 ((pkFmt ty).mulF rm ftz) (loW a) (loW b))) s

/-- PKMUL, immediate form (R194). -/
def execPkmulI (ty : PkType) (rm : Round) (ftz : Bool) (d a : Opnd) (imm : BitVec 32) (s : State) :
    Host.Outcome State Fault Refusal :=
  compute1 false d .w32 (pk ty a) (fun a => res32 (packed2 ((pkFmt ty).mulF rm ftz) (loW a) imm)) s

/-- PKFMA (R194). -/
def execPkfma (ty : PkType) (rm : Round) (ftz : Bool) (d a b c : Opnd) (s : State) : Host.Outcome State Fault Refusal :=
  compute3 false d .w32 (pk ty a) (pk ty b) (pk ty c)
    (fun a b c => res32 (packed3 ((pkFmt ty).fmaF rm ftz) (loW a) (loW b) (loW c))) s

/-- DADD (R194). -/
def execDadd (rm : Round) (ftz : Bool) (d a b : Opnd) (s : State) : Host.Outcome State Fault Refusal :=
  compute2 false d .w64 (f64 a) (f64 b) (fun a b => r64 (binary64.addF rm ftz a.toNat b.toNat)) s

/-- DADD, immediate form (R194). -/
def execDaddI (rm : Round) (ftz : Bool) (d a : Opnd) (imm : BitVec 32) (s : State) : Host.Outcome State Fault Refusal :=
  compute1 false d .w64 (f64 a) (fun a => r64 (binary64.addF rm ftz a.toNat (wide imm))) s

/-- DSUB (R194). -/
def execDsub (rm : Round) (ftz : Bool) (d a b : Opnd) (s : State) : Host.Outcome State Fault Refusal :=
  compute2 false d .w64 (f64 a) (f64 b) (fun a b => r64 (binary64.subF rm ftz a.toNat b.toNat)) s

/-- DSUB, immediate form (R194). -/
def execDsubI (rm : Round) (ftz : Bool) (d a : Opnd) (imm : BitVec 32) (s : State) : Host.Outcome State Fault Refusal :=
  compute1 false d .w64 (f64 a) (fun a => r64 (binary64.subF rm ftz a.toNat (wide imm))) s

/-- DMUL (R194). -/
def execDmul (rm : Round) (ftz : Bool) (d a b : Opnd) (s : State) : Host.Outcome State Fault Refusal :=
  compute2 false d .w64 (f64 a) (f64 b) (fun a b => r64 (binary64.mulF rm ftz a.toNat b.toNat)) s

/-- DMUL, immediate form (R194). -/
def execDmulI (rm : Round) (ftz : Bool) (d a : Opnd) (imm : BitVec 32) (s : State) : Host.Outcome State Fault Refusal :=
  compute1 false d .w64 (f64 a) (fun a => r64 (binary64.mulF rm ftz a.toNat (wide imm))) s

/-- DFMA (R194). -/
def execDfma (rm : Round) (ftz : Bool) (d a b c : Opnd) (s : State) : Host.Outcome State Fault Refusal :=
  compute3 false d .w64 (f64 a) (f64 b) (f64 c) (fun a b c => r64 (binary64.fmaF rm ftz a.toNat b.toNat c.toNat)) s

/-- DMIN (R195). -/
def execDmin (ftz : Bool) (d a b : Opnd) (s : State) : Host.Outcome State Fault Refusal :=
  compute2 false d .w64 (f64 a) (f64 b) (fun a b => r64 (binary64.minF ftz a.toNat b.toNat)) s

/-- DMIN, immediate form (R195). -/
def execDminI (ftz : Bool) (d a : Opnd) (imm : BitVec 32) (s : State) : Host.Outcome State Fault Refusal :=
  compute1 false d .w64 (f64 a) (fun a => r64 (binary64.minF ftz a.toNat (wide imm))) s

/-- DMAX (R195). -/
def execDmax (ftz : Bool) (d a b : Opnd) (s : State) : Host.Outcome State Fault Refusal :=
  compute2 false d .w64 (f64 a) (f64 b) (fun a b => r64 (binary64.maxF ftz a.toNat b.toNat)) s

/-- DMAX, immediate form (R195). -/
def execDmaxI (ftz : Bool) (d a : Opnd) (imm : BitVec 32) (s : State) : Host.Outcome State Fault Refusal :=
  compute1 false d .w64 (f64 a) (fun a => r64 (binary64.maxF ftz a.toNat (wide imm))) s

/-- DCMP (R196). -/
def execDcmp (cond : Cond) (ftz : Bool) (d a b : Opnd) (s : State) : Host.Outcome State Fault Refusal :=
  compute2 false d .w32 (f64 a) (f64 b) (fun a b => res32 (binary64.cmpF cond ftz a.toNat b.toNat)) s

/-- DCMP, immediate form (R196). -/
def execDcmpI (cond : Cond) (ftz : Bool) (d a : Opnd) (imm : BitVec 32) (s : State) : Host.Outcome State Fault Refusal :=
  compute1 false d .w32 (f64 a) (fun a => res32 (binary64.cmpF cond ftz a.toNat (wide imm))) s

/-- DRCP (R197). -/
def execDrcp (ftz : Bool) (d a : Opnd) (s : State) : Host.Outcome State Fault Refusal := unary64 Val.recip ftz d a s

/-- DRSQ (R197). -/
def execDrsq (ftz : Bool) (d a : Opnd) (s : State) : Host.Outcome State Fault Refusal := unary64 Val.rsqrt ftz d a s

/-- CVTIF (R202). -/
def execCvtif (u : Bool) (ft : FType) (uns : Bool) (iw : IWidth) (rm : Round) (d a : Opnd) (s : State) :
    Host.Outcome State Fault Refusal :=
  compute1 u d ft.size (a, iw.size, .int)
    (fun a => resW ft.size (BitVec.ofNat 64 (fromInt (fmtOf ft) rm (intSrc iw uns a)))) s

/-- CVTFI (R203). -/
def execCvtfi (u uns : Bool) (iw : IWidth) (ft : FType) (rm : Round) (ftz : Bool) (d a : Opnd) (s : State) :
    Host.Outcome State Fault Refusal :=
  compute1 u d iw.size (fsrc ft a) (fun a => resW iw.size (toIntF (fmtOf ft) rm ftz iw uns a.toNat)) s

/-- CVTFF (R204). -/
def execCvtff (ftd fta : FType) (rm : Round) (ftz : Bool) (d a : Opnd) (s : State) : Host.Outcome State Fault Refusal :=
  compute1 false d ftd.size (fsrc fta a)
    (fun a => resW ftd.size (BitVec.ofNat 64 (convF (fmtOf fta) (fmtOf ftd) rm ftz a.toNat))) s

/-- CVTII (R205). -/
def execCvtii (u : Bool) (wd : IWidth) (ud : Bool) (wa : IWidth) (ua sat : Bool) (d a : Opnd) (s : State) :
    Host.Outcome State Fault Refusal :=
  compute1 u d wd.size (a, wa.size, .int) (fun a =>
    let x := intSrc wa ua a
    resW wd.size (intDst wd ud (if sat then clampInt (intMin wd ud) (intMax wd ud) x else x))) s

/-- PACKH (R206). -/
def execPackh (ty : PkType) (rm : Round) (ftz : Bool) (d a b : Opnd) (s : State) : Host.Outcome State Fault Refusal :=
  compute2 false d .w32 (f32 a) (f32 b) (fun a b =>
    r32 (convF binary32 (pkFmt ty) rm ftz (loW a).toNat + 65536 * convF binary32 (pkFmt ty) rm ftz (loW b).toNat)) s

/-- UNPKH (R206). -/
def execUnpkh (ty : PkType) (hi : Bool) (d a : Opnd) (s : State) : Host.Outcome State Fault Refusal :=
  compute1 false d .w32 (pk ty a) (fun a =>
    r32 (convF (pkFmt ty) binary32 .rn false (if hi then (loW a).toNat / 65536 else (loW a).toNat % 65536))) s

end Sys2Proof.Machine
end

