-- ==== Sys2Proof/Machine/Helpers.lean ====
section
/-! DEFINITION. Helper recruitment: RECRUIT, HREAD, HRET, HEND, JOIN and DISMISS (R268 to R281). -/

namespace Sys2Proof.Machine

/-! ### Idle lanes -/

/-- A lane is idle (R268): it has exited, or is parked in a fragment-stack entry of its slice that is not the current one; and its slice's
helper context is free. -/
def idleLane (s : State) (u g l : Nat) : Bool :=
  let i : SliceId := ⟨u, g, l / 4⟩
  let th := threadOf s ⟨u, g, l / 4, false⟩
  (s.serve.find? i).isNone && ((sliceOf s i).exited.getLsbD (l % 4) || ! th.head.getLsbD (l % 4))

/-- The lanes of a gang. -/
def gangLanes (s : State) (u g : Nat) : List (Nat × Nat) := (List.range (4 * (gangOf s ⟨u, g⟩).nslices)).map fun l => (g, l)

/-- The idle lanes of a unit in the order in which they are taken: those of gang g first (R272). -/
def idleLanesOf (s : State) (u g : Nat) : List (Nat × Nat) :=
  ((gangLanes s u g) ++ ((gangsIn s u).filter (· != g)).flatMap fun k => gangLanes s u k).filter fun p => idleLane s u p.1 p.2

/-- The lowest record number that a gang's open records leave free (R272). -/
def freeRecord (g : Gang) : Option Nat := (List.range 4).find? fun i => (g.recs.find? i).isNone

/-- Start a record's helpers of one slice in that slice's helper context, at the helper trace (R268, R272). -/
def startHelpers (u g rid trace : Nat) (hg j : Nat) (ls : List (Nat × Nat)) (s : State) : State :=
  let t : ThreadId := ⟨u, hg, j, true⟩
  let m := maskOf (ls.map fun p => p.1 % 4)
  let s1 := (threadLanes t).foldl (fun s r => clearLane r s) s
  { s1 with serve := s1.serve.set ⟨u, hg, j⟩ ⟨g, rid, ls⟩,
            thr := s1.thr.set t { pos := .head trace, mask := m, head := m, tr := trace, since := s1.clock } }

/-- Open a record for a recruiter lane and start its helpers (R272). -/
def openRecord (iss : Issue) (r : LaneRef) (rid n w k trace : Nat) (taken : List (Nat × Nat)) (s : State) : State :=
  let (age, s1) := takeFresh s
  let rc : Recr :=
    { lane := r.l, asked := n, trace := trace, window := (List.range k).map fun i => slot s r (w + i),
      gsnap := (List.range 64).map fun i => greg s iss.gang i,
      helpers := taken.map fun p => ⟨p.1, p.2, .running, none⟩, age := age }
  let s2 := modGang iss.gang (fun g => { g with recs := g.recs.set rid rc }) s1
  let idx := taken.mapIdx fun i p => (p.1, p.2, i + 1)
  ((idx.map fun p => (p.1, p.2.1 / 4)).dedup).foldl (fun s p =>
    startHelpers iss.u iss.g rid trace p.1 p.2
      ((idx.filter fun q => q.1 == p.1 && q.2.1 / 4 == p.2).map fun q => (q.2.1, q.2.2)) s) s2

/-- Pre-emption of the unit is pending (R273, R348). -/
def savePending (s : State) (u : Nat) : Bool :=
  (unitOf s u).status != .resident

/-- RECRUIT (R271 to R273). The echo file of every active lane takes the granted count, the recruiter's and the others'. DESIGN CHOICE, log 98. -/
def execRecruit (d : Opnd) (w : BitVec 5) (k1 : BitVec 3) (n : BitVec 7) (off : BitVec 32) (s : State) :
    Host.Outcome State Fault Refusal :=
  withIssue [] (gangRegs [(d, 1)]) s fun iss s =>
    let s1 := commit iss s
    let trace := targetAddr (wordAddr (headThread s1 iss)) off
    let give := fun (g : Nat) (s : State) =>
      advance iss (deliver iss d ((issueLanes s iss).map fun r => (r, res32 (BitVec.ofNat 32 g))) 1 s)
    let taken := (idleLanesOf s1 iss.u iss.g).take n.toNat
    match issueLanes s1 iss, freeRecord (gangOf s1 iss.gang) with
    | r :: _, some rid =>
      if taken.isEmpty || iss.h || savePending s1 iss.u then give 0 s1
      else give taken.length (countCore (unitOf s1 iss.u).core 0x0E (unitOf s1 iss.u).ctx (curTag s1) taken.length <| openRecord iss r rid n.toNat w.toNat (k1.toNat + 1) trace taken s1)
    | _, _ => give 0 s1

/-! ### Helpers -/

/-- The word that an HREAD gives a lane (R274). -/
def hreadWord (s : State) (r : LaneRef) (i : Nat) : Word :=
  if r.h then
    match serveOf s r.thread with
    | none => 0
    | some (_, rc) => if i < 8 then rc.window.getD i 0 else rc.gsnap.getD (i - 0x40) 0
  else 0

/-- HREAD (R274). -/
def execHread (d : Opnd) (i : BitVec 7) (s : State) : Host.Outcome State Fault Refusal :=
  withIssue [] [] s fun iss s =>
    advance iss (deliver iss d ((issueLanes s iss).map fun r => (r, res32 (hreadWord s r i.toNat))) 1 s)

/-- Change the helper that a lane is. -/
def modMyHelper (r : LaneRef) (f : Helper → Helper) (s : State) : State :=
  if r.h then
    match s.serve.find? ⟨r.u, r.g, r.l / 4⟩ with
    | none => s
    | some sv => match sv.lanes.find? fun p => p.1 == r.l with
      | none => s
      | some p => modHelper r.u sv.g sv.rid p.2 (fun h => if h.g = r.g ∧ h.l = r.l ∧ h.st = .running then f h else h) s
  else s

/-- HRET records a value and its operation (R274). -/
def execHret (op : AluOp) (a : Opnd) (s : State) : Host.Outcome State Fault Refusal :=
  withIssue (gangRegs [(a, 1)]) [] s fun iss s =>
    let s1 := commit iss s
    advance iss ((issueLanes s1 iss).foldl (fun s r => modMyHelper r (fun h => { h with ret := some (op, src32 s r (opType op) a) }) s) s1)

/-- HEND waits for the helper's writes and marks it delivered (R274). -/
def execHend (s : State) : Host.Outcome State Fault Refusal :=
  withIssue [] [] s fun iss s =>
    let s0 := commit iss s
    let s1 := releaseLanes (issueLanes s0 iss) s0
    if (issueLanes s1 iss).any fun r => undrained s1 r then block iss .drain s1
    else advance iss ((issueLanes s1 iss).foldl (fun s r => modMyHelper r (fun h => { h with st := .delivered }) s) s1)

/-! ### The recruiter -/

/-- The oldest open record of a lane. -/
def oldestRecord (s : State) (i : GangId) (l : Nat) : Option (Nat × Recr) :=
  match recordsOf s i [l] with
  | [] => none
  | rid :: _ => ((gangOf s i).recs.find? rid).map fun r => (rid, r)

/-- The record has a helper that runs. -/
def Recr.running (r : Recr) : Bool := r.helpers.any fun h => h.st == .running

/-- acc and mask of a JOIN on a record (R275): delivered helpers combine in ascending order. DEDUCED, log 80. -/
def joinValues (r : Recr) (c : Word) : Word × Word :=
  let hs := r.helpers.mapIdx fun i h => (i + 1, h)
  let acc := hs.foldl (fun a p => match p.2.st, p.2.ret with
    | .delivered, some (op, v) => alu32 op a v
    | _, _ => a) c
  let undone := ((List.range 31).filter fun i => decide (r.helpers.length < i) || hs.any fun p => p.1 == i && p.2.st != .delivered)
  let m := undone.foldl (fun m i => m ||| (1 : Word) <<< i) 0
  (acc, if r.helpers.any fun h => h.st == .faulted then m ||| 0x80000000 else m)

/-- JOIN (R275, R281): each active lane closes its oldest record. DEDUCED, log 66. DEDUCED, log 80. -/
def execJoin (nt : Bool) (d m c : Opnd) (s : State) : Host.Outcome State Fault Refusal :=
  withIssue (gangRegs [(c, 1)]) (gangRegs [(d, 1), (m, 1)]) s fun iss s =>
    let s1 := commit iss s
    let rs := issueLanes s1 iss
    let recs := rs.map fun r => (r, oldestRecord s1 iss.gang r.l)
    if recs.any fun p => p.2.any fun q => q.2.running then block iss .join s1
    else
      let vals := recs.map fun p => (p.1, match p.2 with
        | none => (src32 s1 p.1 .int c, (0x7FFFFFFE : Word))
        | some q => joinValues q.2 (src32 s1 p.1 .int c))
      let s2 := recs.foldl (fun s p => match p.2 with
        | none => s
        | some q =>
          let at_ := placeOf s ⟨iss.u, iss.g, iss.js.headD 0⟩
          let s' := (List.range 31).foldl (fun s i => moveStaged iss.u at_ (fun k => k.2 == (iss.g, q.1, i)) s) s
          modGang iss.gang (fun g => { g with recs := g.recs.erase q.1 }) s') s1
      let bad := vals.filter fun p => p.2.2.getLsbD 31
      if ! nt && ! bad.isEmpty then
        settledFault iss (bad.map fun p => (p.1, ⟨.helper, 0, 0, 0, wordAddr (headThread s2 iss)⟩)) s2
      else
        let s3 := deliver iss d (vals.map fun p => (p.1, res32 p.2.1)) 1 s2
        advance iss (deliver iss m (vals.map fun p => (p.1, res32 p.2.2)) 1 s3)

/-- DISMISS (R276, R277): it waits for helpers that are past their memory commit. DEDUCED, log 70. -/
def execDismiss (s : State) : Host.Outcome State Fault Refusal :=
  withIssue [] [] s fun iss s =>
    let s1 := commit iss s
    let recs := (issueLanes s1 iss).filterMap fun r => (oldestRecord s1 iss.gang r.l).map (·.1)
    let s2 := recs.foldl (fun s i => releaseRecord iss.u iss.g i s) s1
    if recs.any fun i => ((gangOf s2 iss.gang).recs.find? i).any fun r => r.running then block iss .join s2 else advance iss s2

end Sys2Proof.Machine
end

