-- ==== Sys2Proof/Machine/Integer.lean ====
section
/-! DEFINITION. The integer, logic and address instructions (R165 to R176). Each computes a function of its sources, lane by lane or once
for a uniform issue. -/

namespace Sys2Proof.Machine

/-! ### The functions -/

/-- IADD (R169). -/
def addR (sat : Bool) (a b : Word) : Word := sat32 sat (a.toInt + b.toInt)
/-- ISUB (R169). -/
def subR (sat : Bool) (a b : Word) : Word := sat32 sat (a.toInt - b.toInt)
/-- IADDC: the sum, and the carry as a second result (R169). -/
def addcR (a b c : Word) : Res := ⟨[a + b + (c &&& 1)], [a + b + (c &&& 1), carryOf a b (c.getLsbD 0)]⟩
/-- ISUBB: the difference, and the borrow as a second result (R169). -/
def subbR (a b c : Word) : Res := ⟨[a - b - (c &&& 1)], [a - b - (c &&& 1), borrowOf a b (c.getLsbD 0)]⟩
/-- LEA (R169). -/
def leaR (k : Nat) (zx : Bool) (a : DWord) (b : Word) : DWord :=
  a + BitVec.ofInt 64 ((if zx then (b.toNat : Int) else b.toInt) * 2 ^ k)
/-- IMUL (R170). -/
def mulR (sat : Bool) (a b : Word) : Word := sat32 sat (a.toInt * b.toInt)
/-- IMULH (R170). -/
def mulhR (a b : Word) : Word := BitVec.ofInt 32 (a.toInt * b.toInt / 2 ^ 32)
/-- IMULHU (R170). -/
def mulhuR (a b : Word) : Word := BitVec.ofNat 32 (a.toNat * b.toNat / 2 ^ 32)
/-- IMAD (R170). -/
def madR (sat : Bool) (a b c : Word) : Word := sat32 sat (a.toInt * b.toInt + c.toInt)
/-- IMAD64 (R170). -/
def mad64R (zx : Bool) (a b : Word) (c : DWord) : DWord :=
  (if zx then BitVec.ofNat 64 (a.toNat * b.toNat) else BitVec.ofInt 64 (a.toInt * b.toInt)) + c
/-- DIVS (R171). -/
def divsR (a b : Word) : Word := if b = 0 then 0xFFFFFFFF else BitVec.ofInt 32 (a.toInt.tdiv b.toInt)
/-- REMS (R171). -/
def remsR (a b : Word) : Word := if b = 0 then a else BitVec.ofInt 32 (a.toInt.tmod b.toInt)
/-- DIVU (R171). -/
def divuR (a b : Word) : Word := if b = 0 then 0xFFFFFFFF else BitVec.ofNat 32 (a.toNat / b.toNat)
/-- REMU (R171). -/
def remuR (a b : Word) : Word := if b = 0 then a else BitVec.ofNat 32 (a.toNat % b.toNat)
/-- IABS (R172). -/
def absR (sat : Bool) (a : Word) : Word := sat32 sat (a.toInt.natAbs : Int)
/-- INEG (R172). -/
def negR (sat : Bool) (a : Word) : Word := sat32 sat (-a.toInt)
/-- IMIN (R172). -/
def minR (a b : Word) : Word := if b.slt a then b else a
/-- IMAX (R172). -/
def maxR (a b : Word) : Word := if a.slt b then b else a
/-- IMINU (R172). -/
def minuR (a b : Word) : Word := if b.ult a then b else a
/-- IMAXU (R172). -/
def maxuR (a b : Word) : Word := if a.ult b then b else a
/-- ISAT (R172). -/
def isatR (zx : Bool) (a b : Word) : Word :=
  let n := b.toNat
  if n = 0 then 0
  else if zx then BitVec.ofInt 32 (clampInt 0 (2 ^ min n 32 - 1) a.toInt)
  else if 32 ≤ n then a
  else BitVec.ofInt 32 (clampInt (-(2 ^ (n - 1))) (2 ^ (n - 1) - 1) a.toInt)
/-- ICMP (R172). -/
def icmpR (c : Cond) (dbl : Bool) (a b : DWord) : Word :=
  ofTruth (if dbl then intCond c a b else intCond c (loW a) (loW b))
/-- SEL (R172). -/
def selR (a b c : Word) : Word := if c = 0 then b else a
/-- SHL (R173). -/
def shlR (a b : Word) : Word := if 32 ≤ b.toNat then 0 else a <<< b.toNat
/-- SHR (R173). -/
def shrR (a b : Word) : Word := if 32 ≤ b.toNat then 0 else a >>> b.toNat
/-- SAR (R173). -/
def sarR (a b : Word) : Word := a.sshiftRight (min b.toNat 31)
/-- SHF (R173). -/
def shfR (left : Bool) (a b c : Word) : Word :=
  let x := pairW a b
  let s := c.toNat % 32
  if left then hiW (x <<< s) else loW (x >>> s)
/-- BFX (R174). -/
def bfxR (a b c : Word) : Word :=
  let w := min (c.toNat % 256) 32
  BitVec.ofInt 32 (sextNat (a.toInt / 2 ^ (b.toNat % 256) % 2 ^ w).toNat w)
/-- BFXU (R174). -/
def bfxuR (a b c : Word) : Word := BitVec.ofNat 32 (a.toNat / 2 ^ (b.toNat % 256) % 2 ^ min (c.toNat % 256) 32)
/-- BFI (R174). -/
def bfiR (a b c : Word) : Word :=
  let p := c.toNat % 256
  let w := min (c.toNat / 256 % 256) 32
  let m : Word := BitVec.ofNat 32 ((2 ^ w - 1) * 2 ^ p)
  (a &&& ~~~m) ||| (BitVec.ofNat 32 (b.toNat * 2 ^ p) &&& m)
/-- POPC (R174). -/
def popcR (a : Word) : Word := BitVec.ofNat 32 ((List.range 32).filter fun i => a.getLsbD i).length
/-- CLZ (R174). -/
def clzR (a : Word) : Word := BitVec.ofNat 32 (if a = 0 then 32 else 31 - Nat.log2 a.toNat)
/-- BREV (R174). -/
def brevR (a : Word) : Word := BitVec.ofNat 32 ((List.range 32).foldl (fun n i => 2 * n + (a.getLsbD i).toNat) 0)
/-- CTZ (R174). -/
def ctzR (a : Word) : Word := clzR (brevR a)
/-- A byte of BYSEL's result for a selector (R175). DEDUCED, log 17. -/
def byselByte (x : DWord) (s : Nat) : Nat :=
  let y := x.toNat / 2 ^ (8 * (s % 8)) % 256
  match s / 8 % 4 with
  | 0 => y
  | 1 => 0
  | 2 => if 128 ≤ y then 255 else 0
  | _ => 255 - y
/-- BYSEL (R175). DEDUCED, log 17. -/
def byselR (a b c : Word) : Word :=
  BitVec.ofNat 32 (leNat ((List.range 4).map fun k => BitVec.ofNat 8 (byselByte (pairW a b) (c.toNat / 2 ^ (8 * k) % 256))))

/-- An immediate read signed, to 64 bits (R119). -/
def immS (imm : BitVec 32) : DWord := imm.signExtend 64
/-- An immediate read unsigned (R119). -/
def immU (imm : BitVec 32) : DWord := imm.setWidth 64

/-! ### The instructions -/

/-- IADD (R169). -/
def execIadd (u : Bool) (sat : Bool) (d a b : Opnd) (s : State) : Host.Outcome State Fault Refusal :=
  compute2 u d .w32 (i32 a) (i32 b) (fun a b => res32 (addR sat (loW a) (loW b))) s

/-- IADD, immediate form (R169). -/
def execIaddI (u : Bool) (sat : Bool) (d a : Opnd) (imm : BitVec 32) (s : State) : Host.Outcome State Fault Refusal :=
  compute1 u d .w32 (i32 a) (fun a => res32 (addR sat (loW a) imm)) s

/-- ISUB (R169). -/
def execIsub (u : Bool) (sat : Bool) (d a b : Opnd) (s : State) : Host.Outcome State Fault Refusal :=
  compute2 u d .w32 (i32 a) (i32 b) (fun a b => res32 (subR sat (loW a) (loW b))) s

/-- ISUB, immediate form (R169). -/
def execIsubI (u : Bool) (sat : Bool) (d a : Opnd) (imm : BitVec 32) (s : State) : Host.Outcome State Fault Refusal :=
  compute1 u d .w32 (i32 a) (fun a => res32 (subR sat (loW a) imm)) s

/-- IADDC (R169). -/
def execIaddc (u : Bool) (d a b c : Opnd) (s : State) : Host.Outcome State Fault Refusal :=
  compute3 u d .w32 (i32 a) (i32 b) (i32 c) (fun a b c => addcR (loW a) (loW b) (loW c)) s

/-- ISUBB (R169). -/
def execIsubb (u : Bool) (d a b c : Opnd) (s : State) : Host.Outcome State Fault Refusal :=
  compute3 u d .w32 (i32 a) (i32 b) (i32 c) (fun a b c => subbR (loW a) (loW b) (loW c)) s

/-- IADD64 (R169). -/
def execIadd64 (u : Bool) (d a b : Opnd) (s : State) : Host.Outcome State Fault Refusal :=
  compute2 u d .w64 (i64 a) (i64 b) (fun a b => res64 (a + b)) s

/-- IADD64, immediate form (R169). -/
def execIadd64I (u : Bool) (d a : Opnd) (imm : BitVec 32) (s : State) : Host.Outcome State Fault Refusal :=
  compute1 u d .w64 (i64 a) (fun a => res64 (a + immS imm)) s

/-- ISUB64 (R169). -/
def execIsub64 (u : Bool) (d a b : Opnd) (s : State) : Host.Outcome State Fault Refusal :=
  compute2 u d .w64 (i64 a) (i64 b) (fun a b => res64 (a - b)) s

/-- ISUB64, immediate form (R169). -/
def execIsub64I (u : Bool) (d a : Opnd) (imm : BitVec 32) (s : State) : Host.Outcome State Fault Refusal :=
  compute1 u d .w64 (i64 a) (fun a => res64 (a - immS imm)) s

/-- IMUL (R170). -/
def execImul (u : Bool) (sat : Bool) (d a b : Opnd) (s : State) : Host.Outcome State Fault Refusal :=
  compute2 u d .w32 (i32 a) (i32 b) (fun a b => res32 (mulR sat (loW a) (loW b))) s

/-- IMUL, immediate form (R170). -/
def execImulI (u : Bool) (sat : Bool) (d a : Opnd) (imm : BitVec 32) (s : State) : Host.Outcome State Fault Refusal :=
  compute1 u d .w32 (i32 a) (fun a => res32 (mulR sat (loW a) imm)) s

/-- IMULH (R170). -/
def execImulh (u : Bool) (d a b : Opnd) (s : State) : Host.Outcome State Fault Refusal :=
  compute2 u d .w32 (i32 a) (i32 b) (fun a b => res32 (mulhR (loW a) (loW b))) s

/-- IMULH, immediate form (R170). -/
def execImulhI (u : Bool) (d a : Opnd) (imm : BitVec 32) (s : State) : Host.Outcome State Fault Refusal :=
  compute1 u d .w32 (i32 a) (fun a => res32 (mulhR (loW a) imm)) s

/-- IMULHU (R170). -/
def execImulhu (u : Bool) (d a b : Opnd) (s : State) : Host.Outcome State Fault Refusal :=
  compute2 u d .w32 (i32 a) (i32 b) (fun a b => res32 (mulhuR (loW a) (loW b))) s

/-- IMULHU, immediate form (R170). -/
def execImulhuI (u : Bool) (d a : Opnd) (imm : BitVec 32) (s : State) : Host.Outcome State Fault Refusal :=
  compute1 u d .w32 (i32 a) (fun a => res32 (mulhuR (loW a) imm)) s

/-- IMAD (R170). -/
def execImad (u : Bool) (sat : Bool) (d a b c : Opnd) (s : State) : Host.Outcome State Fault Refusal :=
  compute3 u d .w32 (i32 a) (i32 b) (i32 c) (fun a b c => res32 (madR sat (loW a) (loW b) (loW c))) s

/-- IMAD64 (R170). -/
def execImad64 (u zx : Bool) (d a b c : Opnd) (s : State) : Host.Outcome State Fault Refusal :=
  compute3 u d .w64 (i32 a) (i32 b) (i64 c) (fun a b c => res64 (mad64R zx (loW a) (loW b) c)) s

/-- DIVS (R171). -/
def execDivs (u : Bool) (d a b : Opnd) (s : State) : Host.Outcome State Fault Refusal :=
  compute2 u d .w32 (i32 a) (i32 b) (fun a b => res32 (divsR (loW a) (loW b))) s

/-- DIVS, immediate form (R171). -/
def execDivsI (u : Bool) (d a : Opnd) (imm : BitVec 32) (s : State) : Host.Outcome State Fault Refusal :=
  compute1 u d .w32 (i32 a) (fun a => res32 (divsR (loW a) imm)) s

/-- DIVU (R171). -/
def execDivu (u : Bool) (d a b : Opnd) (s : State) : Host.Outcome State Fault Refusal :=
  compute2 u d .w32 (i32 a) (i32 b) (fun a b => res32 (divuR (loW a) (loW b))) s

/-- DIVU, immediate form (R171). -/
def execDivuI (u : Bool) (d a : Opnd) (imm : BitVec 32) (s : State) : Host.Outcome State Fault Refusal :=
  compute1 u d .w32 (i32 a) (fun a => res32 (divuR (loW a) imm)) s

/-- REMS (R171). -/
def execRems (u : Bool) (d a b : Opnd) (s : State) : Host.Outcome State Fault Refusal :=
  compute2 u d .w32 (i32 a) (i32 b) (fun a b => res32 (remsR (loW a) (loW b))) s

/-- REMS, immediate form (R171). -/
def execRemsI (u : Bool) (d a : Opnd) (imm : BitVec 32) (s : State) : Host.Outcome State Fault Refusal :=
  compute1 u d .w32 (i32 a) (fun a => res32 (remsR (loW a) imm)) s

/-- REMU (R171). -/
def execRemu (u : Bool) (d a b : Opnd) (s : State) : Host.Outcome State Fault Refusal :=
  compute2 u d .w32 (i32 a) (i32 b) (fun a b => res32 (remuR (loW a) (loW b))) s

/-- REMU, immediate form (R171). -/
def execRemuI (u : Bool) (d a : Opnd) (imm : BitVec 32) (s : State) : Host.Outcome State Fault Refusal :=
  compute1 u d .w32 (i32 a) (fun a => res32 (remuR (loW a) imm)) s

/-- IABS (R172). -/
def execIabs (u : Bool) (sat : Bool) (d a : Opnd) (s : State) : Host.Outcome State Fault Refusal :=
  compute1 u d .w32 (i32 a) (fun a => res32 (absR sat (loW a))) s

/-- INEG (R172). -/
def execIneg (u : Bool) (sat : Bool) (d a : Opnd) (s : State) : Host.Outcome State Fault Refusal :=
  compute1 u d .w32 (i32 a) (fun a => res32 (negR sat (loW a))) s

/-- IMIN (R172). -/
def execImin (u : Bool) (d a b : Opnd) (s : State) : Host.Outcome State Fault Refusal :=
  compute2 u d .w32 (i32 a) (i32 b) (fun a b => res32 (minR (loW a) (loW b))) s

/-- IMIN, immediate form (R172). -/
def execIminI (u : Bool) (d a : Opnd) (imm : BitVec 32) (s : State) : Host.Outcome State Fault Refusal :=
  compute1 u d .w32 (i32 a) (fun a => res32 (minR (loW a) imm)) s

/-- IMAX (R172). -/
def execImax (u : Bool) (d a b : Opnd) (s : State) : Host.Outcome State Fault Refusal :=
  compute2 u d .w32 (i32 a) (i32 b) (fun a b => res32 (maxR (loW a) (loW b))) s

/-- IMAX, immediate form (R172). -/
def execImaxI (u : Bool) (d a : Opnd) (imm : BitVec 32) (s : State) : Host.Outcome State Fault Refusal :=
  compute1 u d .w32 (i32 a) (fun a => res32 (maxR (loW a) imm)) s

/-- IMINU (R172). -/
def execIminu (u : Bool) (d a b : Opnd) (s : State) : Host.Outcome State Fault Refusal :=
  compute2 u d .w32 (i32 a) (i32 b) (fun a b => res32 (minuR (loW a) (loW b))) s

/-- IMINU, immediate form (R172). -/
def execIminuI (u : Bool) (d a : Opnd) (imm : BitVec 32) (s : State) : Host.Outcome State Fault Refusal :=
  compute1 u d .w32 (i32 a) (fun a => res32 (minuR (loW a) imm)) s

/-- IMAXU (R172). -/
def execImaxu (u : Bool) (d a b : Opnd) (s : State) : Host.Outcome State Fault Refusal :=
  compute2 u d .w32 (i32 a) (i32 b) (fun a b => res32 (maxuR (loW a) (loW b))) s

/-- IMAXU, immediate form (R172). -/
def execImaxuI (u : Bool) (d a : Opnd) (imm : BitVec 32) (s : State) : Host.Outcome State Fault Refusal :=
  compute1 u d .w32 (i32 a) (fun a => res32 (maxuR (loW a) imm)) s

/-- ISAT (R172). -/
def execIsat (u : Bool) (zx : Bool) (d a b : Opnd) (s : State) : Host.Outcome State Fault Refusal :=
  compute2 u d .w32 (i32 a) (i32 b) (fun a b => res32 (isatR zx (loW a) (loW b))) s

/-- ISAT, immediate form (R172). -/
def execIsatI (u : Bool) (zx : Bool) (d a : Opnd) (imm : BitVec 32) (s : State) : Host.Outcome State Fault Refusal :=
  compute1 u d .w32 (i32 a) (fun a => res32 (isatR zx (loW a) imm)) s

/-- ICMP (R172). -/
def execIcmp (u : Bool) (cond : Cond) (dbl : Bool) (d a b : Opnd) (s : State) : Host.Outcome State Fault Refusal :=
  compute2 u d .w32 (a, dblSize dbl, .int) (b, dblSize dbl, .int) (fun a b => res32 (icmpR cond dbl a b)) s

/-- ICMP, immediate form (R172). -/
def execIcmpI (u : Bool) (cond : Cond) (dbl : Bool) (d a : Opnd) (imm : BitVec 32) (s : State) :
    Host.Outcome State Fault Refusal :=
  compute1 u d .w32 (a, dblSize dbl, .int) (fun a => res32 (icmpR cond dbl a (immS imm))) s

/-- SEL (R172). -/
def execSel (u : Bool) (d a b c : Opnd) (s : State) : Host.Outcome State Fault Refusal :=
  compute3 u d .w32 (i32 a) (i32 b) (i32 c) (fun a b c => res32 (selR (loW a) (loW b) (loW c))) s

/-- AND (R173). -/
def execAnd (u : Bool) (d a b : Opnd) (s : State) : Host.Outcome State Fault Refusal :=
  compute2 u d .w32 (i32 a) (i32 b) (fun a b => res32 ((· &&& ·) (loW a) (loW b))) s

/-- AND, immediate form (R173). -/
def execAndI (u : Bool) (d a : Opnd) (imm : BitVec 32) (s : State) : Host.Outcome State Fault Refusal :=
  compute1 u d .w32 (i32 a) (fun a => res32 ((· &&& ·) (loW a) imm)) s

/-- OR (R173). -/
def execOr (u : Bool) (d a b : Opnd) (s : State) : Host.Outcome State Fault Refusal :=
  compute2 u d .w32 (i32 a) (i32 b) (fun a b => res32 ((· ||| ·) (loW a) (loW b))) s

/-- OR, immediate form (R173). -/
def execOrI (u : Bool) (d a : Opnd) (imm : BitVec 32) (s : State) : Host.Outcome State Fault Refusal :=
  compute1 u d .w32 (i32 a) (fun a => res32 ((· ||| ·) (loW a) imm)) s

/-- XOR (R173). -/
def execXor (u : Bool) (d a b : Opnd) (s : State) : Host.Outcome State Fault Refusal :=
  compute2 u d .w32 (i32 a) (i32 b) (fun a b => res32 ((· ^^^ ·) (loW a) (loW b))) s

/-- XOR, immediate form (R173). -/
def execXorI (u : Bool) (d a : Opnd) (imm : BitVec 32) (s : State) : Host.Outcome State Fault Refusal :=
  compute1 u d .w32 (i32 a) (fun a => res32 ((· ^^^ ·) (loW a) imm)) s

/-- ANDN (R173). -/
def execAndn (u : Bool) (d a b : Opnd) (s : State) : Host.Outcome State Fault Refusal :=
  compute2 u d .w32 (i32 a) (i32 b) (fun a b => res32 ((fun x y => x &&& ~~~y) (loW a) (loW b))) s

/-- ANDN, immediate form (R173). -/
def execAndnI (u : Bool) (d a : Opnd) (imm : BitVec 32) (s : State) : Host.Outcome State Fault Refusal :=
  compute1 u d .w32 (i32 a) (fun a => res32 ((fun x y => x &&& ~~~y) (loW a) imm)) s

/-- NOT (R173). -/
def execNot (u : Bool) (d a : Opnd) (s : State) : Host.Outcome State Fault Refusal :=
  compute1 u d .w32 (i32 a) (fun a => res32 ((fun x => ~~~x) (loW a))) s

/-- SHL (R173). -/
def execShl (u : Bool) (d a b : Opnd) (s : State) : Host.Outcome State Fault Refusal :=
  compute2 u d .w32 (i32 a) (i32 b) (fun a b => res32 (shlR (loW a) (loW b))) s

/-- SHL, immediate form (R173). -/
def execShlI (u : Bool) (d a : Opnd) (imm : BitVec 32) (s : State) : Host.Outcome State Fault Refusal :=
  compute1 u d .w32 (i32 a) (fun a => res32 (shlR (loW a) imm)) s

/-- SHR (R173). -/
def execShr (u : Bool) (d a b : Opnd) (s : State) : Host.Outcome State Fault Refusal :=
  compute2 u d .w32 (i32 a) (i32 b) (fun a b => res32 (shrR (loW a) (loW b))) s

/-- SHR, immediate form (R173). -/
def execShrI (u : Bool) (d a : Opnd) (imm : BitVec 32) (s : State) : Host.Outcome State Fault Refusal :=
  compute1 u d .w32 (i32 a) (fun a => res32 (shrR (loW a) imm)) s

/-- SAR (R173). -/
def execSar (u : Bool) (d a b : Opnd) (s : State) : Host.Outcome State Fault Refusal :=
  compute2 u d .w32 (i32 a) (i32 b) (fun a b => res32 (sarR (loW a) (loW b))) s

/-- SAR, immediate form (R173). -/
def execSarI (u : Bool) (d a : Opnd) (imm : BitVec 32) (s : State) : Host.Outcome State Fault Refusal :=
  compute1 u d .w32 (i32 a) (fun a => res32 (sarR (loW a) imm)) s

/-- SHF (R173). -/
def execShf (u : Bool) (left : Bool) (d a b c : Opnd) (s : State) : Host.Outcome State Fault Refusal :=
  compute3 u d .w32 (i32 a) (i32 b) (i32 c) (fun a b c => res32 (shfR left (loW a) (loW b) (loW c))) s

/-- BFX (R174). -/
def execBfx (u : Bool) (d a b c : Opnd) (s : State) : Host.Outcome State Fault Refusal :=
  compute3 u d .w32 (i32 a) (i32 b) (i32 c) (fun a b c => res32 (bfxR (loW a) (loW b) (loW c))) s

/-- BFXU (R174). -/
def execBfxu (u : Bool) (d a b c : Opnd) (s : State) : Host.Outcome State Fault Refusal :=
  compute3 u d .w32 (i32 a) (i32 b) (i32 c) (fun a b c => res32 (bfxuR (loW a) (loW b) (loW c))) s

/-- BFI (R174). -/
def execBfi (u : Bool) (d a b c : Opnd) (s : State) : Host.Outcome State Fault Refusal :=
  compute3 u d .w32 (i32 a) (i32 b) (i32 c) (fun a b c => res32 (bfiR (loW a) (loW b) (loW c))) s

/-- POPC (R174). -/
def execPopc (u : Bool) (d a : Opnd) (s : State) : Host.Outcome State Fault Refusal :=
  compute1 u d .w32 (i32 a) (fun a => res32 (popcR (loW a))) s

/-- CLZ (R174). -/
def execClz (u : Bool) (d a : Opnd) (s : State) : Host.Outcome State Fault Refusal :=
  compute1 u d .w32 (i32 a) (fun a => res32 (clzR (loW a))) s

/-- CTZ (R174). -/
def execCtz (u : Bool) (d a : Opnd) (s : State) : Host.Outcome State Fault Refusal :=
  compute1 u d .w32 (i32 a) (fun a => res32 (ctzR (loW a))) s

/-- BREV (R174). -/
def execBrev (u : Bool) (d a : Opnd) (s : State) : Host.Outcome State Fault Refusal :=
  compute1 u d .w32 (i32 a) (fun a => res32 (brevR (loW a))) s

/-- BYSEL (R175). -/
def execBysel (u : Bool) (d a b c : Opnd) (s : State) : Host.Outcome State Fault Refusal :=
  compute3 u d .w32 (i32 a) (i32 b) (i32 c) (fun a b c => res32 (byselR (loW a) (loW b) (loW c))) s

/-- LEA (R169). -/
def execLea (u : Bool) (k : BitVec 3) (zx : Bool) (d a b : Opnd) (s : State) : Host.Outcome State Fault Refusal :=
  compute2 u d .w64 (i64 a) (i32 b) (fun a b => res64 (leaR k.toNat zx a (loW b))) s

/-- MOVI (R176). -/
def execMovi (u : Bool) (d : Opnd) (imm : BitVec 32) (s : State) : Host.Outcome State Fault Refusal :=
  compute u d .w32 [] (fun _ => res32 imm) s

/-- MOV (R176). -/
def execMov (u dbl : Bool) (d a : Opnd) (s : State) : Host.Outcome State Fault Refusal :=
  compute1 u d (dblSize dbl) (a, dblSize dbl, .int) (resW (dblSize dbl)) s

end Sys2Proof.Machine
end

