-- ==== Sys2Proof/Machine/Lanes.lean ====
section
/-! DEFINITION. The lane-exchange instructions (R177 to R184): functions of the positions of a gang, each a member of the issue or not. -/

namespace Sys2Proof.Machine

/-- The values of the members by position (R177). -/
abbrev Positions (α : Type) := List (Nat × α)

/-- The value of a position, if it is a member. -/
def memberAt {α : Type} (ps : Positions α) (p : Nat) : Option α := (ps.find? fun x => x.1 == p).map (·.2)

/-- x ⊕ y, where a side may be empty (R181). -/
def combine (op : AluOp) (x y : Option DWord) : Option DWord :=
  match x, y with
  | none, y => y
  | x, none => x
  | some a, some b => some (aluOp op a b)

/-- One round of the tree of GREDUX: neighbours combine, so position p of the list stands for a block twice as wide (R181). -/
def treeRound (op : AluOp) : List (Option DWord) → List (Option DWord)
  | x :: y :: r => combine op x y :: treeRound op r
  | r => r

/-- The tree of GREDUX over the 32 positions (R181). -/
def reduceTree (op : AluOp) (ps : Positions DWord) : Option DWord :=
  ((List.range 5).foldl (fun v _ => treeRound op v) ((List.range 32).map (memberAt ps))).headD none

/-- One stride of SCAN (R183). -/
def scanStride (op : AluOp) (k : Nat) (w : List (Bool × Option DWord)) : List (Bool × Option DWord) :=
  w.mapIdx fun p y =>
    if p < 2 ^ k then y
    else
      let x := w.getD (p - 2 ^ k) (false, none)
      (x.1 || y.1, if y.1 then y.2 else combine op x.2 y.2)

/-- The inclusive scan of the 32 positions (R183). -/
def scanAll (op : AluOp) (w : List (Bool × Option DWord)) : List (Option DWord) :=
  ((List.range 5).foldl (fun w k => scanStride op k w) w).map (·.2)

/-- The source position of XLANE (R179). -/
def xlaneSource (mode : XMode) (l : Nat) (b : Word) : Int :=
  match mode with
  | .src => b.toNat
  | .below => (l : Int) - b.toNat
  | .above => (l : Int) + b.toNat
  | .mirror => (l ^^^ b.toNat : Nat)

/-- What XLANE delivers to lane l: the value first and the flag second (R179). -/
def xlaneRes (sz : Size) (mode : XMode) (ps : Positions DWord) (l : Nat) (a : DWord) (b : Word) : Res :=
  let src := xlaneSource mode l b
  let v := if 0 ≤ src ∧ src ≤ 31 then memberAt ps src.toNat else none
  let r := resW sz (v.getD a)
  ⟨r.d, r.e ++ [ofTruth v.isSome]⟩

/-- The result of VOTE (R180). -/
def voteRes (mode : VMode) (ps : Positions Word) : Word :=
  match mode with
  | .all => ofTruth (ps.all fun p => p.2 != 0)
  | .any => ofTruth (ps.any fun p => p.2 != 0)
  | .mask => BitVec.ofNat 32 (ps.foldl (fun n p => if p.2 != 0 then n + 2 ^ p.1 else n) 0)
  | .same => ofTruth (ps.all fun p => p.2 == (ps.headD (0, 0)).2)

/-- The shared meaning of the four: a function of the members' sources gives each member its result. -/
def exchange (d : Opnd) (dsz : Size) (srcs : List (Opnd × Size × KType)) (n : Nat)
    (f : Positions (List DWord) → Nat → List DWord → Res) (s : State) : Host.Outcome State Fault Refusal :=
  withIssue (readsOf (srcs.map fun p => (p.1, p.2.1))) (gangRegs [(d, dsz.regs)]) s fun iss s =>
    let rs := issueLanes s iss
    let ps : Positions (List DWord) := rs.map fun r => (r.l, srcs.map fun p => srcW s r p.2.2 p.2.1 p.1)
    advance iss (deliver iss d (rs.map fun r => (r, f ps r.l ((memberAt ps r.l).getD []))) n s)

/-- XLANE (R179). -/
def execXlane (mode : XMode) (dbl : Bool) (d a b : Opnd) (s : State) : Host.Outcome State Fault Refusal :=
  exchange d (dblSize dbl) [(a, dblSize dbl, .int), i32 b] ((dblSize dbl).regs + 1)
    (fun ps l v => xlaneRes (dblSize dbl) mode (ps.map fun p => (p.1, p.2.getD 0 0)) l (v.getD 0 0) (loW (v.getD 1 0))) s

/-- VOTE (R180). -/
def execVote (mode : VMode) (d a : Opnd) (s : State) : Host.Outcome State Fault Refusal :=
  exchange d .w32 [i32 a] 1 (fun ps _ _ => res32 (voteRes mode (ps.map fun p => (p.1, loW (p.2.getD 0 0))))) s

/-- GREDUX (R181, R182). -/
def execGredux (op : AluOp) (d a : Opnd) (s : State) : Host.Outcome State Fault Refusal :=
  exchange d op.size [(a, op.size, opType op)] op.size.regs
    (fun ps _ _ => resW op.size ((reduceTree op (ps.map fun p => (p.1, p.2.getD 0 0))).getD 0)) s

/-- The flags and values of SCAN by position (R183). DEDUCED, log 69. -/
def scanStart (seg : Bool) (ps : Positions (List DWord)) : List (Bool × Option DWord) :=
  (List.range 32).map fun p => match memberAt ps p with
    | none => (false, none)
    | some v => (p == 0 || (seg && loW (v.getD 1 0) != 0), some (v.getD 0 0))

/-- What SCAN delivers to member lane l (R183). -/
def scanRes (op : AluOp) (ex seg : Bool) (ps : Positions (List DWord)) (l : Nat) : DWord :=
  let w := scanStart seg ps
  let inc := scanAll op w
  if ex then
    if (w.getD l (false, none)).1 then aluId op
    else if l = 0 then aluId op
    else (inc.getD (l - 1) none).getD (aluId op)
  else (inc.getD l none).getD 0

/-- SCAN (R183, R184). -/
def execScan (op : AluOp) (ex seg : Bool) (d a b : Opnd) (s : State) : Host.Outcome State Fault Refusal :=
  exchange d op.size [(a, op.size, opType op), i32 b] op.size.regs (fun ps l _ => resW op.size (scanRes op ex seg ps l)) s

end Sys2Proof.Machine
end

