-- ==== Sys2Proof/Machine/Loader.lean ====
section
/-! DEFINITION. Loading a module: the translator's checks, the trace directory, relocations and imports (R29 to R34, R41, R42, R45, R50,
R125, R126, R136, R146, R219, R240, R270, R271, R296 to R302). -/

namespace Sys2Proof

/-! ### The object file -/

/-- A field of the file's ELF header, at the offset and of the size that ELF gives it. PRESUMED (ELF's layout), log 23. -/
def ModuleFile.field (m : ModuleFile) (off n : Nat) : Nat := leNat ((m.file.drop off).take n)

/-- e_machine. -/
def ModuleFile.machine (m : ModuleFile) : Nat := m.field 18 2
/-- e_type: 3 is ET_DYN. -/
def ModuleFile.etype (m : ModuleFile) : Nat := m.field 16 2
/-- e_flags. -/
def ModuleFile.eflags (m : ModuleFile) : Nat := m.field 48 4
/-- EI_CLASS is ELFCLASS64. -/
def ModuleFile.cls64 (m : ModuleFile) : Bool := m.field 4 1 == 2
/-- EI_DATA is ELFDATA2LSB. -/
def ModuleFile.lsb (m : ModuleFile) : Bool := m.field 5 1 == 1

/-- A symbol that a module of the context has to export. -/
def Machine.isExtern : SymPlace → Bool
  | .extern _ => true
  | _ => false

/-- The symbols that the module exports: its global functions and data (R300; STB_GLOBAL is 1). -/
def ModuleFile.exports (m : ModuleFile) : List (String × SymPlace) :=
  (m.symbols.filter fun y => y.bind == 1 && ! Machine.isExtern y.value).map fun y => (y.name, y.value)

/-- The symbols that are left undefined: the module's imports (R299, R300). -/
def ModuleFile.imports (m : ModuleFile) : List String :=
  m.symbols.filterMap fun y => match y.value with
    | .extern name => some name
    | _ => none

end Sys2Proof

namespace Sys2Proof.Machine

/-! ### Cutting the words into traces -/

/-- A trace as the translator finds it: the index of its TRACE word, its counts, its decoded words after the table with their indices,
and whether it has a trace end. -/
structure TraceCut where
  start : Nat
  stages : Nat
  guards : Nat
  body : List (Nat × Except Bad Instr)
  ended : Bool

/-- What the translator finds at an index outside traces. -/
inductive Cut where
  | trace (t : TraceCut)
  | merge (i tok : Nat)
  | regang (i : Nat)
  /-- A word that belongs to no trace. -/
  | stray (i : Nat)

/-- The words of a module, by index. -/
abbrev Words := List (Nat × DWord)

/-- The words of a trace after its table, up to its trace end, or up to the head word or the module's end that is met before one. -/
def cutBody : Words → List (Nat × Except Bad Instr) × Bool × Words
  | [] => ([], false, [])
  | (i, w) :: ws =>
    let d := decodeWord w
    let more := fun (_ : Unit) => let (b, e, r) := cutBody ws; ((i, d) :: b, e, r)
    match d with
    | .error _ => more ()
    | .ok x => match x.place with
      | .head => ([], false, (i, w) :: ws)
      | .alone => ([], false, (i, w) :: ws)
      | .final => ([(i, d)], true, ws)
      | _ => more ()

/-- The cut that starts at a word, and the words after it. -/
def nextCut (i : Nat) (w : DWord) (ws : Words) : Cut × Words :=
  match decodeWord w with
  | .ok (.trace st gd) =>
    let (b, e, r) := cutBody (ws.drop gd.toNat)
    (.trace ⟨i, st.toNat, gd.toNat, b, e⟩, r)
  | .ok (.merge t) => (.merge i t.toNat, ws)
  | .ok .regang => (.regang i, ws)
  | _ => (.stray i, ws)

/-- Cut the words of a module; every cut takes at least one word, and `fuel` of them are left. -/
def cutWords : Nat → Words → List Cut
  | 0, _ => []
  | _, [] => []
  | k + 1, (i, w) :: ws => (nextCut i w ws).1 :: cutWords k (nextCut i w ws).2

/-- The words of a module file with their indices. -/
def indexed (code : List DWord) : Words := code.mapIdx fun i w => (i, w)

/-- The cuts of a module's code. -/
def cuts (code : List DWord) : List Cut := cutWords code.length (indexed code)

/-- The traces among the cuts. -/
def tracesOf (cs : List Cut) : List TraceCut := cs.filterMap fun c => match c with
  | .trace t => some t
  | _ => none

/-- The TRACE, MERGE and REGANG words: index and kind (R302). -/
def headsOf (cs : List Cut) : List (Nat × Nat) := cs.filterMap fun c => match c with
  | .trace t => some (t.start, 0)
  | .merge i _ => some (i, 1)
  | .regang i => some (i, 2)
  | .stray _ => none

/-- The MERGE words: token and index. -/
def mergesOf (cs : List Cut) : List (Nat × Nat) := cs.filterMap fun c => match c with
  | .merge i t => some (t, i)
  | _ => none

/-- The instructions of a trace that decode, with their indices. -/
def TraceCut.instrs (t : TraceCut) : List (Nat × Instr) := t.body.filterMap fun p => match p.2 with
  | .ok i => some (p.1, i)
  | .error _ => none

/-- The index of a trace's last word, or of the word at which its end is missed. -/
def TraceCut.last (t : TraceCut) : Nat :=
  if t.ended then t.start + t.guards + t.body.length else t.start + t.guards + t.body.length + 1

/-- The index that a direct target names, if it is not below the module. -/
def targetIx (i : Nat) (off : BitVec 32) : Option Nat :=
  let x : Int := i + off.toInt
  if 0 ≤ x then some x.toNat else none

/-- The words of a trace's table: index and target (R126). -/
def TraceCut.table (t : TraceCut) (code : List DWord) : List (Nat × DWord) :=
  (List.range t.guards).filterMap fun k => (code[t.start + 1 + k]?).map fun w => (t.start + 1 + k, w)

/-- A RECRUIT whose window passes the stage count of its trace (R271). -/
def wideWindow (stages : Nat) : Instr → Bool
  | .recruit _ w k1 _ _ => decide (stages < w.toNat + k1.toNat + 1)
  | _ => false

/-- The RECRUIT words of a module: index, target index and window size (R271). -/
def recruitsOf (ts : List TraceCut) : List (Nat × Option Nat × Nat) := ts.flatMap fun t => t.instrs.filterMap fun p => match p.2 with
  | .recruit _ _ k1 _ off => some (p.1, targetIx p.1 off, k1.toNat + 1)
  | _ => none

/-- The helper traces: those that a RECRUIT names (R270). -/
def helpersOf (cs : List Cut) : List Nat :=
  let ts := tracesOf cs
  ((recruitsOf ts).filterMap fun p => p.2.1).filter fun i => ts.any fun t => t.start == i

/-! ### Checks of one word and of one trace -/

/-- A failure: the byte offset of a word, and the reason code (R301). -/
abbrev Fail := Nat × Nat

/-- A QPOP's status destination lies within its item quad (R142). -/
def badQpop : Instr → Bool
  | .qpop _ _ (.slot d) (.slot s) => decide (d.toNat ≤ s.toNat) && decide (s.toNat < d.toNat + 4)
  | .qpop _ _ (.gang d) (.gang s) => decide (d.toNat ≤ s.toNat) && decide (s.toNat < d.toNat + 4)
  | _ => false

/-- Check 1: the words of a trace are well formed, those of its table too (R126, R128). DEDUCED, log 22. -/
def fail1 (code : List DWord) (t : TraceCut) : List Fail :=
  ((t.table code).filter fun (p : Nat × DWord) => decide (2 ^ 32 ≤ p.2.toNat)).map (fun p => (p.1, 1))
    ++ (t.body.filter fun p => match p.2 with
        | .error _ => true
        | .ok i => badQpop i).map fun p => (p.1, 1)

/-- The slots and registers that STG and WBIND bind (R30). -/
def bindsIn (l : List (Nat × Instr)) : List (Nat × List (Nat × Nat)) := l.filterMap fun p => match p.2 with
  | .stg d n k1 => some (p.1, (List.range (k1.toNat + 1)).map fun i => (d.toNat + i, n.toNat + i))
  | .wbind d n k1 => some (p.1, (List.range (k1.toNat + 1)).map fun i => (d.toNat + i, n.toNat + i))
  | _ => none

/-- The bindings that bind a slot or a register again, in order. -/
def rebinds : List (Nat × List (Nat × Nat)) → List (Nat × Nat) → List Nat
  | [], _ => []
  | (i, bs) :: rest, seen =>
    if bs.any fun b => seen.any fun x => x.1 == b.1 || x.2 == b.2 then i :: rebinds rest (seen ++ bs) else rebinds rest (seen ++ bs)

/-- The guards of a trace that do not name the next index, in order (R32): each must name the index after those before it. -/
def badGuards (gd : Nat) : Nat → List (Nat × Instr) → List Nat
  | _, [] => []
  | n, (i, .guard _ g _) :: rest => if g.toNat = n ∧ n < gd then badGuards gd (n + 1) rest else i :: badGuards gd (max n (g.toNat + 1)) rest
  | n, _ :: rest => badGuards gd n rest

/-- Guard indices that the guards of a trace name. -/
def guardIxs (l : List (Nat × Instr)) : List Nat := l.filterMap fun p => match p.2 with
  | .guard _ g _ => some g.toNat
  | _ => none

/-- The instruction is a GUARD. -/
def isGuard : Instr → Bool
  | .guard _ _ _ => true
  | _ => false

/-- The parts of a trace's instructions before its first SETTLE, and from the word after it. -/
def splitSettle (l : List (Nat × Instr)) : List (Nat × Instr) × List (Nat × Instr) :=
  (l.takeWhile fun p => p.2.place != .commit, (l.dropWhile fun p => p.2.place != .commit).drop 1)

/-- RECRUIT, of which check 7 tests the window (R271). -/
def isRecruit : Instr → Bool
  | .recruit _ _ _ _ _ => true
  | _ => false

/-- Check 2: the shape of a trace, its staging and its guards (R29, R30, R32, R33). -/
def fail2 (t : TraceCut) : List Fail :=
  let l := t.instrs
  let (before, after) := splitSettle l
  let late := (l.dropWhile fun p => p.2.place == .staging).filter fun p => p.2.place == .staging
  let slots := l.filter fun p => ! (slotsOk t.stages 256 p.2 || isRecruit p.2)
  let miss := t.ended && (List.range t.guards).any fun g => ! (guardIxs before).contains g
  ((if t.ended then [] else [t.last]) ++ late.map (·.1) ++ slots.map (·.1) ++ rebinds (bindsIn l) []
    ++ (after.filter fun p => p.2.place == .commit || isGuard p.2).map (·.1)
    ++ badGuards t.guards 0 before ++ (if miss then [t.last] else [])).map fun i => (i, 2)

/-- The first words at which running counts pass a limit. -/
def passes (limit : Nat) (cost : Instr → Nat) : Nat → List (Nat × Instr) → List Nat
  | _, [] => []
  | n, (i, x) :: rest => if limit < n + cost x then [i] else passes limit cost (n + cost x) rest

/-- Check 3: the limits of a trace (R41): its words, its stores and its guarded commands before SETTLE. -/
def fail3 (t : TraceCut) : List Fail :=
  let (before, _) := splitSettle t.instrs
  ((if 256 ≤ t.last - t.start then [t.start + 256] else []) ++ passes 16 storesOf 0 before
    ++ passes 8 (fun i => if i.place == .guarded then 1 else 0) 0 before).map fun i => (i, 3)

/-- Registers that a FILL names (R219). -/
def fillRegs : Instr → List Nat
  | .fill _ _ _ n k1 _ => (List.range (k1.toNat + 1)).map fun i => n.toNat + i
  | _ => []

/-- HRET or HEND (R136). -/
def isHelperEnd : Instr → Bool
  | .hret _ _ => true
  | .hend => true
  | _ => false

/-- Check 4: where words stand (R33, R34, R136, R219). -/
def fail4 (helper : Bool) (t : TraceCut) : List Fail :=
  let l := t.instrs
  let (before, after) := splitSettle l
  let bound := (bindsIn l).flatMap fun p => p.2.map (·.2)
  ((before.filter fun p => p.2.place == .settled).map (·.1)
    ++ (after.filter fun p => p.2.place == .body && ! isGuard p.2).map (·.1)
    ++ (l.filter fun p => (fillRegs p.2).any fun r => bound.contains r).map (·.1)
    ++ (if helper then [] else (l.filter fun p => isHelperEnd p.2).map (·.1))).map fun i => (i, 4)

/-- The direct target of a word: none where it has none (R125). -/
def directOf (p : Nat × Instr) : Option (Option Nat) :=
  match p.2 with
  | .tend _ off => some (targetIx p.1 off)
  | .call _ off => some (targetIx p.1 off)
  | .recruit _ _ _ _ off => some (targetIx p.1 off)
  | _ => none

/-- The word is a call (R146). -/
def isCall : Instr → Bool
  | .call _ _ => true
  | .calli _ _ => true
  | _ => false

/-- Check 5: direct targets, table words, and the word after a call (R125, R126, R146). -/
def fail5 (code : List DWord) (heads : List (Nat × Nat)) (t : TraceCut) : List Fail :=
  let isHead := fun (o : Option Nat) => match o with
    | none => false
    | some i => heads.any fun h => h.1 == i
  (((t.table code).filter fun p => ! isHead (targetIx p.1 (p.2.setWidth 32))).map (·.1)
    ++ (t.instrs.filter fun p => match directOf p with
        | none => false
        | some o => ! isHead o).map (·.1)
    ++ (t.instrs.filter fun p => isCall p.2 && ! isHead (some (p.1 + 1))).map (·.1)).map fun i => (i, 5)

/-- The token that a trace end carries (R42, R146). -/
def tokenOf : Instr → Nat
  | .tend t _ => t.toNat
  | .tendi t _ => t.toNat
  | .call t _ => t.toNat
  | .calli t _ => t.toNat
  | .ret t => t.toNat
  | _ => 0

/-- Check 6: tokens, and the words after MERGE and REGANG (R42, R45, R50). -/
def fail6 (cs : List Cut) : List Fail :=
  let ms := mergesOf cs
  let heads := headsOf cs
  let kind := fun (i : Nat) => (heads.find? fun h => h.1 == i).map (·.2)
  let uses := (tracesOf cs).flatMap fun t => t.instrs.filter fun p => tokenOf p.2 != 0 && ! ms.any fun m => m.1 == tokenOf p.2
  let again := ms.filter fun m => ms.any fun x => x.1 == m.1 && decide (x.2 < m.2)
  let follow := heads.filter fun h => (h.2 == 1 && kind (h.1 + 1) != some 0 && kind (h.1 + 1) != some 2) || (h.2 == 2 && kind (h.1 + 1) != some 0)
  (uses.map (·.1) ++ again.map (·.2) ++ follow.map (·.1)).map fun i => (i, 6)

/-- An operand of the word is a G code, or the word has the uniform form (R270). -/
def usesGang (w : DWord) (i : Instr) : Bool := (i.operands.any fun p => p.1.isGang) || (w.getLsbD 55 && i.place != .final)

/-- The word is excluded from helper traces (R270). -/
def helperBans : Instr → Bool
  | .nop => false
  | .trace _ _ => false
  | .stg _ _ _ => true
  | .wbind _ _ _ => true
  | .guard _ _ _ => false
  | .settle => false
  | .tend _ _ => false
  | .tendi _ _ => false
  | .call _ _ => false
  | .calli _ _ => false
  | .ret _ => false
  | .merge _ => false
  | .regang => false
  | .exit => false
  | .yield => true
  | .trap _ => false
  | .bkpt _ => false
  | .iadd _ _ _ _ _ => false
  | .iaddI _ _ _ _ _ => false
  | .isub _ _ _ _ _ => false
  | .isubI _ _ _ _ _ => false
  | .iaddc _ _ _ _ _ => false
  | .isubb _ _ _ _ _ => false
  | .iadd64 _ _ _ _ => false
  | .iadd64I _ _ _ _ => false
  | .isub64 _ _ _ _ => false
  | .isub64I _ _ _ _ => false
  | .imul _ _ _ _ _ => false
  | .imulI _ _ _ _ _ => false
  | .imulh _ _ _ _ => false
  | .imulhI _ _ _ _ => false
  | .imulhu _ _ _ _ => false
  | .imulhuI _ _ _ _ => false
  | .imad _ _ _ _ _ _ => false
  | .imad64 _ _ _ _ _ _ => false
  | .divs _ _ _ _ => false
  | .divsI _ _ _ _ => false
  | .divu _ _ _ _ => false
  | .divuI _ _ _ _ => false
  | .rems _ _ _ _ => false
  | .remsI _ _ _ _ => false
  | .remu _ _ _ _ => false
  | .remuI _ _ _ _ => false
  | .iabs _ _ _ _ => false
  | .ineg _ _ _ _ => false
  | .imin _ _ _ _ => false
  | .iminI _ _ _ _ => false
  | .imax _ _ _ _ => false
  | .imaxI _ _ _ _ => false
  | .iminu _ _ _ _ => false
  | .iminuI _ _ _ _ => false
  | .imaxu _ _ _ _ => false
  | .imaxuI _ _ _ _ => false
  | .isat _ _ _ _ _ => false
  | .isatI _ _ _ _ _ => false
  | .icmp _ _ _ _ _ _ => false
  | .icmpI _ _ _ _ _ _ => false
  | .sel _ _ _ _ _ => false
  | .and _ _ _ _ => false
  | .andI _ _ _ _ => false
  | .or _ _ _ _ => false
  | .orI _ _ _ _ => false
  | .xor _ _ _ _ => false
  | .xorI _ _ _ _ => false
  | .andn _ _ _ _ => false
  | .andnI _ _ _ _ => false
  | .not _ _ _ => false
  | .shl _ _ _ _ => false
  | .shlI _ _ _ _ => false
  | .shr _ _ _ _ => false
  | .shrI _ _ _ _ => false
  | .sar _ _ _ _ => false
  | .sarI _ _ _ _ => false
  | .shf _ _ _ _ _ _ => false
  | .bfx _ _ _ _ _ => false
  | .bfxu _ _ _ _ _ => false
  | .bfi _ _ _ _ _ => false
  | .popc _ _ _ => false
  | .clz _ _ _ => false
  | .ctz _ _ _ => false
  | .brev _ _ _ => false
  | .bysel _ _ _ _ _ => false
  | .lea _ _ _ _ _ _ => false
  | .movi _ _ _ => false
  | .mov _ _ _ _ => false
  | .fadd _ _ _ _ _ _ => false
  | .faddI _ _ _ _ _ _ => false
  | .fsub _ _ _ _ _ _ => false
  | .fsubI _ _ _ _ _ _ => false
  | .fmul _ _ _ _ _ _ => false
  | .fmulI _ _ _ _ _ _ => false
  | .ffma _ _ _ _ _ _ _ => false
  | .fmin _ _ _ _ _ => false
  | .fminI _ _ _ _ _ => false
  | .fmax _ _ _ _ _ => false
  | .fmaxI _ _ _ _ _ => false
  | .fcmp _ _ _ _ _ _ => false
  | .fcmpI _ _ _ _ _ _ => false
  | .frcp _ _ _ => false
  | .frsq _ _ _ => false
  | .fsqrt _ _ _ => false
  | .fexp2 _ _ _ => false
  | .flog2 _ _ _ => false
  | .fsin _ _ _ => false
  | .fcos _ _ _ => false
  | .frnd _ _ _ _ => false
  | .fclass _ _ _ => false
  | .pkadd _ _ _ _ _ _ => false
  | .pkaddI _ _ _ _ _ _ => false
  | .pkmul _ _ _ _ _ _ => false
  | .pkmulI _ _ _ _ _ _ => false
  | .pkfma _ _ _ _ _ _ _ => false
  | .dadd _ _ _ _ _ => false
  | .daddI _ _ _ _ _ => false
  | .dsub _ _ _ _ _ => false
  | .dsubI _ _ _ _ _ => false
  | .dmul _ _ _ _ _ => false
  | .dmulI _ _ _ _ _ => false
  | .dfma _ _ _ _ _ _ => false
  | .dmin _ _ _ _ => false
  | .dminI _ _ _ _ => false
  | .dmax _ _ _ _ => false
  | .dmaxI _ _ _ _ => false
  | .dcmp _ _ _ _ _ => false
  | .dcmpI _ _ _ _ _ => false
  | .drcp _ _ _ => false
  | .drsq _ _ _ => false
  | .cvtif _ _ _ _ _ _ _ => false
  | .cvtfi _ _ _ _ _ _ _ _ => false
  | .cvtff _ _ _ _ _ _ => false
  | .cvtii _ _ _ _ _ _ _ _ => false
  | .packh _ _ _ _ _ _ => false
  | .unpkh _ _ _ _ => false
  | .xlane _ _ _ _ _ => false
  | .vote _ _ _ => false
  | .gredux _ _ _ => false
  | .scan _ _ _ _ _ _ => false
  | .ld _ _ _ _ _ _ => false
  | .st _ _ _ _ _ _ => false
  | .gather _ _ _ _ _ _ _ => false
  | .scatter _ _ _ _ _ _ _ => false
  | .scatterAdd _ _ _ _ _ _ _ => false
  | .atom _ _ _ _ _ _ _ _ _ => false
  | .red _ _ _ _ _ _ _ => false
  | .acq _ _ _ _ _ => false
  | .rel _ _ _ _ _ => false
  | .acqld _ _ _ _ _ _ => false
  | .relst _ _ _ _ _ _ => false
  | .fence => false
  | .xfence _ _ => false
  | .bind _ _ _ _ => false
  | .unbind _ _ => false
  | .pref _ _ _ _ _ => false
  | .spill _ _ _ _ _ _ => true
  | .fill _ _ _ _ _ _ => true
  | .cpy _ _ _ _ _ _ _ _ _ => true
  | .cpy2d _ _ _ _ _ _ _ _ _ _ _ => true
  | .cseal _ _ => true
  | .cdec _ _ _ _ _ _ => true
  | .fopen _ _ _ _ _ _ => true
  | .fnext _ _ _ _ _ => true
  | .ftest _ _ => true
  | .fclose _ => true
  | .orsv _ _ => true
  | .orls _ _ => true
  | .mgath _ _ => true
  | .mma _ _ _ _ _ _ _ _ => true
  | .mmap _ _ _ _ _ _ _ _ => true
  | .guide _ _ _ _ _ => true
  | .mzero _ _ _ => true
  | .mst _ _ _ _ _ _ _ _ => true
  | .mld _ _ _ _ _ _ _ _ => true
  | .mspsel _ _ _ _ _ => true
  | .spst _ _ _ _ _ _ => true
  | .mclaim => true
  | .mpass _ => true
  | .recruit _ _ _ _ _ => true
  | .hread _ _ => false
  | .hret _ _ => false
  | .hend => false
  | .join _ _ _ _ => true
  | .dismiss => true
  | .bar _ _ => true
  | .barl _ _ _ => true
  | .arrive _ _ => true
  | .mon _ _ _ => true
  | .waitmon _ => true
  | .qpush _ _ _ _ => true
  | .qpop _ _ _ _ => true
  | .qlen _ _ _ => true
  | .gets _ _ _ => false
  | .sets _ _ => true
  | .role _ => true
  | .grow _ _ => true
  | .shrink _ => true
  | .guardedCommandResolution _ => false
  | .copyCommandComplete _ => false
  | .matrixEngineGrant _ => false
  | .matrixCommandComplete _ => false
  | .pairWaitExpiry _ => false
  | .cooperativeMatchTimeout _ => false
  | .growGrant _ => false
  | .growStuckDenial _ => false
  | .monitorEviction _ _ => false
  | .waitmonTimerExpiry _ => false
  | .sluiceRelease _ => false
  | .watchdogExpiry _ => false
  | .trigger _ _ => false
  | .triggerBegin _ _ => false
  | .gload _ _ => false
  | .launchStart _ _ => false
  | .unitDispatch _ _ _ => false
  | .unitDeschedule _ => false
  | .quantumExpiry _ => false
  | .cancelUnit _ _ => false
  | .cancelLaunch _ _ => false
  | .cancelGraph _ _ => false
  | .cancelPhase _ _ => false
  | .cancelJob _ _ => false
  | .ctxcmdPreempt _ => false
  | .preemptSaveComplete _ => false
  | .ctxcmdResume _ => false
  | .resumeComplete _ => false
  | .ctxcmdInval _ => false
  | .invalComplete _ => false
  | .firmwarePageGrow _ => false
  | .fcmdReplay _ _ => false
  | .fcmdCancel _ _ => false
  | .fcmdInvalid _ _ => false
  | .fqtailWrite _ _ => false
  | .softErrorCorrectable _ => false
  | .softErrorUncorrectable _ => false
  | .moduleLoad _ _ => false
  | .accessPerformed _ _ => false
  | .graphLoadComplete _ => false
  | .carrBlockTransmit _ => false
  | .carrctlEn _ _ => false
  | .carrctlRetrain _ => false
  | .linkTrainingComplete _ _ _ => false
  | .linkTrainingTimeout _ => false
  | .laneLoss _ _ => false
  | .dataFlitReceive _ _ _ => false
  | .idleFlitReceive _ _ => false
  | .nakFlitReceive _ _ => false
  | .ackTimeoutResend _ => false
  | .linkCommandComplete _ _ _ => false
  | .cxlCompletionTimeout _ => false
  | .pcieAtomicopReceived _ => false
  | .boot _ _ => false
  | .getMeasurements _ => false
  | .getCertificate => false
  | .negotiateAlgorithms => false
  | .challenge _ => false
  | .redfishRequest _ => false
  | .healthcmdAck _ => false
  | .coreFence _ => false
  | .channelDrain _ => false
  | .mgmtHeartbeatMiss _ => false
  | .thermalTrip => false
  | .powerThrottle => false
  | .registerWrite _ _ => false
  | .dieToDieLinkFailure => false
  | .bootSecurityCoreFailure => false

/-- Indices of a trace's HRET, or HEND, words. -/
def helperEnds (end_ : Bool) (l : List (Nat × Instr)) : List Nat := l.filterMap fun p => match p.2 with
  | .hret _ _ => if end_ then none else some p.1
  | .hend => if end_ then some p.1 else none
  | _ => none

/-- Check 7 within one helper trace (R270). -/
def fail7in (code : List DWord) (t : TraceCut) : List Fail :=
  let l := t.instrs
  let hends := helperEnds true l
  let endsOk := match t.body.getLast? with
    | some (_, .ok .exit) => true
    | _ => false
  ((if t.guards = 0 then [] else [t.start])
    ++ (l.filter fun p => helperBans p.2 || usesGang (code.getD p.1 0) p.2).map (·.1)
    ++ (helperEnds false l).drop 1
    ++ (if t.ended then (hends.filter fun i => i + 1 != t.last) ++ (if hends.isEmpty then [t.last] else [])
          ++ (if endsOk then [] else [t.last]) else [])).map fun i => (i, 7)

/-- Check 7: helper traces, and what names them (R270, R271). -/
def fail7 (code : List DWord) (cs : List Cut) (entries : List Nat) : List Fail :=
  let ts := tracesOf cs
  let hs := helpersOf cs
  let inside := (ts.filter fun t => hs.contains t.start).flatMap fun t => fail7in code t
  let names := ts.flatMap fun t =>
    (((t.table code).filter fun p => (targetIx p.1 (p.2.setWidth 32)).any fun i => hs.contains i).map (·.1))
      ++ (t.instrs.filter fun p => match p.2 with
          | .recruit _ _ _ _ _ => false
          | _ => match directOf p with
            | some (some i) => hs.contains i
            | _ => false).map (·.1)
  let windows := (recruitsOf ts).filter fun r => match r.2.1 with
    | none => false
    | some i => match ts.find? fun t => t.start == i with
      | none => true
      | some t => decide (t.stages < r.2.2)
  let wide := ts.flatMap fun t => (t.instrs.filter fun p => wideWindow t.stages p.2).map (·.1)
  inside ++ (names ++ windows.map (·.1) ++ wide ++ entries.filter fun e => hs.contains e).map fun i => (i, 7)

/-- Every failure of the checks 1 to 7 (R301), by word index. DEDUCED, log 22. -/
def checkCode (code : List DWord) (entries : List Nat) : List Fail :=
  let cs := cuts code
  let hs := helpersOf cs
  let heads := headsOf cs
  let strays := cs.filterMap fun c => match c with
    | .stray i => some i
    | _ => none
  (strays.map fun i => (i, match decodeWord (code.getD i 0) with
      | .error _ => 1
      | .ok _ => 2))
    ++ ((tracesOf cs).flatMap fun t => fail1 code t ++ fail2 t ++ fail3 t ++ fail4 (hs.contains t.start) t ++ fail5 code heads t)
    ++ fail6 cs ++ fail7 code cs entries

/-! ### Relocations and imports -/

/-- A symbol that a module of the context exports: its address and the need of a function (R300). -/
def exported (s : State) (ctx : Nat) (name : String) : Option (Nat × Nat) :=
  (((s.modules.filter fun m => m.ctx == ctx).flatMap (·.exports)).find? fun e => e.1 == name).map (·.2)

/-- The address, or the number, that a symbol stands for. -/
def symAddr (s : State) (ctx : Nat) (m : ModuleFile) (p : SymPlace) : Option Nat :=
  match p with
  | .code w => some (m.codeBase + 8 * w)
  | .data o => some (m.dataBase + o)
  | .token n => some n
  | .extern name => (exported s ctx name).map (·.1)

/-- The offset at which a failing relocation is reported: that of its word, a data word's from the module base too, and a frame record's
after the code and the data. DEDUCED, log 22. -/
def siteOff (m : ModuleFile) (p : RelocSite) : Nat :=
  match p with
  | .code w => 8 * w
  | .data o => if m.codeBase ≤ m.dataBase then m.dataBase - m.codeBase + o else o
  | .frame i => 8 * m.code.length + m.data.length + 32 * i

/-- An address is that of a TRACE, MERGE or REGANG word of this module, or of a module of the context that is loaded (R297). -/
def isHeadAddr (s : State) (ctx : Nat) (m : ModuleFile) (a : Nat) : Bool :=
  ((headsOf (cuts m.code)).any fun h => m.codeBase + 8 * h.1 == a)
    || s.modules.any fun x => x.ctx == ctx && x.dir.any fun d => x.code + 8 * d.1 == a

/-- The module with the word of a relocation written (R297), or none where the relocation does not resolve. DEDUCED, log 23. -/
def applyReloc (s : State) (ctx : Nat) (m : ModuleFile) (r : Reloc) : Option ModuleFile :=
  let setCode := fun (w : Nat) (f : DWord → DWord) =>
    if w < m.code.length then some { m with code := m.code.mapIdx fun i x => if i = w then f x else x } else none
  let setData := fun (o v : Nat) =>
    if o + 8 ≤ m.data.length then
      some { m with data := m.data.mapIdx fun i b => if o ≤ i ∧ i < o + 8 then BitVec.ofNat 8 (v / 2 ^ (8 * (i - o))) else b }
    else none
  match symAddr s ctx m r.sym with
  | none => if r.kind = 0 then some m else none
  | some a =>
    let v : Int := a + r.addend
    let lo := (v % 2 ^ 64).toNat
    if r.kind ≠ 0 ∧ r.kind ≠ 4 ∧ isExtern r.sym then none
    else match r.kind, r.site with
    | 0, _ => some m
    | 1, .code w =>
      let d := v - (m.codeBase + 8 * w : Nat)
      if d % 8 = 0 ∧ -(2 ^ 31) ≤ d / 8 ∧ d / 8 < 2 ^ 31 ∧ ((headsOf (cuts m.code)).any fun h => (m.codeBase + 8 * h.1 : Int) == v) then
        setCode w fun x => (x &&& 0xFFFFFFFF00000000) ||| BitVec.ofNat 64 ((d / 8) % 2 ^ 32).toNat
      else none
    | 2, .code w => match r.sym with
      | .token n => if 1 ≤ n ∧ n ≤ 65535 then setCode w fun x => (x &&& 0xFF80007FFFFFFFFF) ||| BitVec.ofNat 64 (n * 2 ^ 39) else none
      | _ => none
    | 3, .data o => setData o lo
    | 4, .data o => if isHeadAddr s ctx m lo then setData o lo else none
    | 4, .frame i =>
      if i < m.frames.length ∧ isHeadAddr s ctx m lo then
        some { m with frames := m.frames.mapIdx fun k f => if k = i then f.extractLsb' 64 192 ++ BitVec.ofNat 64 lo else f }
      else none
    | 5, .code w => setCode w fun x => (x &&& 0xFFFFFFFF00000000) ||| BitVec.ofNat 64 (lo % 2 ^ 32)
    | 6, .code w => setCode w fun x => (x &&& 0xFFFFFFFF00000000) ||| BitVec.ofNat 64 (lo / 2 ^ 32)
    | _, _ => none

/-- Apply relocations in order; the module, and the offsets of those that do not resolve. -/
def applyRelocs (s : State) (ctx : Nat) : List Reloc → ModuleFile → ModuleFile × List Nat
  | [], m => (m, [])
  | r :: rs, m =>
    match applyReloc s ctx m r with
    | some m' => applyRelocs s ctx rs m'
    | none => let (m', bad) := applyRelocs s ctx rs m; (m', siteOff m r.site :: bad)

/-- The largest need among the module's imports (R300), in units of 8 registers. -/
def importNeed (s : State) (ctx : Nat) (m : ModuleFile) : Nat :=
  (m.imports.map fun n => ((exported s ctx n).map (·.2)).getD 0).foldl max 0

/-- The offset of the data word through which the module reaches an import (R300, R301). -/
def importOff (m : ModuleFile) (name : String) : Nat :=
  ((m.relocs.filter fun r => r.sym == .extern name).map fun r => siteOff m r.site).foldl (fun b x => match b with
    | none => some x
    | some y => some (min x y)) none |>.getD 0

/-- Check 8: relocations, imports, and the need that imports put on kernels (R297, R300). -/
def fail8 (s : State) (ctx : Nat) (m : ModuleFile) : List Fail :=
  let bad := (applyRelocs s ctx m.relocs m).2
  let lost := (m.imports.filter fun n => (exported s ctx n).isNone).map (importOff m)
  let much := m.imports.filter fun n => ((exported s ctx n).map (·.2)).any fun need => m.kernels.any fun k => decide (k.regMax < need)
  (bad ++ lost ++ much.map (importOff m)).map fun o => (o, 8)

/-! ### Sections, symbols and frame records -/

/-- A frame record keeps R298. -/
def frameOk (f : BitVec 256) : Bool :=
  let fld := fun (lo w : Nat) => (f.extractLsb' lo w).toNat
  fld 156 100 == 0 && decide (fld 144 8 ≤ 15) && decide (fld 136 8 ≤ 192) && decide (8 ≤ fld 128 8) && decide (fld 128 8 ≤ 32)
    && fld 96 32 % 16 == 0 && fld 64 32 % 16 == 0

/-- The words of the functions that the module holds, each once (R296: STT_FUNC is 2). -/
def functionsOf (m : ModuleFile) : List Nat :=
  (m.symbols.filterMap fun y => match y.value with
    | .code w => if y.typ = 2 then some w else none
    | _ => none).dedup

/-- The function whose entry UZ_TRADDR64 puts into FUNC of a frame record (R298). -/
def frameFn (m : ModuleFile) (i : Nat) : Option Nat :=
  (m.relocs.find? fun r => r.kind == 4 && r.site == .frame i).bind fun r => match r.sym with
    | .code w => if r.addend % 8 = 0 then targetIx w (BitVec.ofInt 32 (r.addend / 8)) else none
    | _ => none

/-- The code sections have an alignment of 8 and whole words, which are the module's; the code lies at such an address (R110, R296). -/
def sectionsOk (m : ModuleFile) : Bool :=
  let code := m.sections.filter (·.exec)
  (code.all fun c => c.align == 8 && c.size % 8 == 0) && (code.map (·.size)).sum == 8 * m.code.length && m.codeBase % 8 == 0

/-- A symbol keeps R296: a function's value is the address of a TRACE word; a token symbol is local and its value is a token's number. -/
def symbolOk (m : ModuleFile) (y : Symbol) : Bool :=
  match y.value with
  | .token _ => y.typ == 10 && y.bind == 0
  | .code w => y.typ != 10 && (y.typ != 2 || (headsOf (cuts m.code)).contains (w, 0))
  | .data _ => y.typ != 10 && y.typ != 2
  | .extern _ => y.typ != 10

/-- Each function has one frame record, and each record keeps R298. -/
def framesOk (m : ModuleFile) : Bool :=
  let fs := (List.range m.frames.length).map (frameFn m)
  m.frames.all frameOk && (fs.all fun f => match f with
    | none => false
    | some w => (functionsOf m).contains w) && (functionsOf m).all fun w => fs.count (some w) == 1

/-- Check 9: the ELF header, the sections and symbols, and the frame records (R296, R298). DEDUCED, log 22. -/
def elfOk (m : ModuleFile) : Bool :=
  m.machine == 0xA15E && m.etype == 3 && m.eflags == 1 && m.cls64 && m.lsb && sectionsOk m && m.symbols.all (symbolOk m) && framesOk m

/-! ### The directory and the loaded module -/

/-- Words of the code that a trace reaches without a call: its targets, its table, and return points; and the calls that it makes. -/
def stepsFrom (code : List DWord) (cs : List Cut) (i : Nat) : List Nat :=
  match cs.find? fun c => match c with
    | .trace t => t.start == i
    | .merge j _ => j == i
    | .regang j => j == i
    | .stray _ => false with
  | some (.trace t) =>
    ((t.table code).filterMap fun p => targetIx p.1 (p.2.setWidth 32))
      ++ (t.instrs.filterMap fun p => match directOf p with
          | some o => o
          | none => none)
      ++ (t.instrs.filter fun p => isCall p.2).map fun p => p.1 + 1
  | some (.merge j _) => [j + 1]
  | some (.regang j) => [j + 1]
  | _ => []

/-- What is reached from some places in a number of rounds. -/
def reached (next : Nat → List Nat) : Nat → List Nat → List Nat
  | 0, l => l
  | k + 1, l =>
    let l' := (l ++ l.flatMap next).dedup
    if l'.length = l.length then l else reached next k l'

/-- The need of an exported function (R300): the largest NEED of its own record, of the functions that it reaches, of address-taken ones,
and of the module's imports. -/
def needOf (s : State) (ctx : Nat) (m : ModuleFile) (entry : Nat) : Nat :=
  let cs := cuts m.code
  let r := reached (stepsFrom m.code cs) cs.length [entry]
  let mine := m.frames.filter fun f => f.getLsbD 155 || r.any fun w => m.codeBase + 8 * w == (f.extractLsb' 0 64).toNat
  (mine.map fun f => 8 * (f.extractLsb' 128 8).toNat).foldl max (importNeed s ctx m)

/-- A trace entry of the directory (R302). -/
def traceEntry (hs : List Nat) (c : Cut) : Option Nat :=
  match c with
  | .trace t => some (t.start + (t.guards + t.body.length) % 256 * 2 ^ 35 + t.guards * 2 ^ 43 + t.stages * 2 ^ 47
      + (if hs.contains t.start then 2 ^ 53 else 0))
  | .merge i _ => some (i + 1 * 2 ^ 54)
  | .regang i => some (i + 2 * 2 ^ 54)
  | .stray _ => none

/-- The trace directory as it is laid out (R302). -/
def directoryBytes (digest : List Byte) (cs : List Cut) : List Byte :=
  let es := cs.filterMap (traceEntry (helpersOf cs))
  let ts := mergesOf cs
  leBytes 16 (0x52444C41 + Config.xver.toNat * 2 ^ 48 + es.length * 2 ^ 64 + ts.length * 2 ^ 96) ++ digest
    ++ es.flatMap (leBytes 8) ++ ts.flatMap fun p => leBytes 8 (p.1 + p.2 * 2 ^ 16)

/-- The word makes the module a matrix module (R240). -/
def makesMatrix : Instr → Bool
  | .mgath _ _ => true
  | .mma _ _ _ _ _ _ _ _ => true
  | .mmap _ _ _ _ _ _ _ _ => true
  | .guide _ _ _ _ _ => true
  | .mzero _ _ _ => true
  | .mst _ _ _ _ _ _ _ _ => true
  | .mld _ _ _ _ _ _ _ _ => true
  | .spst _ _ _ _ _ _ => true
  | _ => false

/-- The digest of the module that a cache entry is for: it lies in the entry's header (R302). -/
def CacheEntry.digest (e : CacheEntry) : List Byte := (e.image.drop 16).take 48

/-- The translator version that built a cache entry (R302). -/
def CacheEntry.xver (e : CacheEntry) : Nat := leNat ((e.image.drop 6).take 2)

/-- A cache entry is used: its tag holds, and the running translator built it (R373). -/
def CacheEntry.usable (e : CacheEntry) : Bool := e.tag == hmac384 Config.cacheKey e.image && e.xver == Config.xver.toNat

/-- The entry that the lookup finds for a module (R301). -/
def cacheHit (s : State) (digest : List Byte) : Option CacheEntry := s.cache.find? fun e => e.digest == digest && e.usable

/-- The cache with the entry that the translator has built for a module, in place of those it ignores (R301, R373). -/
def cacheWith (s : State) (digest image : List Byte) : List CacheEntry :=
  match cacheHit s digest with
  | some _ => s.cache
  | none => ⟨image, hmac384 Config.cacheKey image⟩ :: s.cache.filter fun e => e.digest != digest

/-- The 8-byte entries of a directory from the k-th on. -/
def imageWords (image : List Byte) (k n : Nat) : List Nat := (List.range n).map fun i => leNat ((image.drop (64 + 8 * (k + i))).take 8)

/-- The trace entries of a directory: index, kind, and whether a RECRUIT names it (R302). -/
def imageTraces (image : List Byte) : List (Nat × Nat × Bool) :=
  (imageWords image 0 (leNat ((image.drop 8).take 4))).map fun e => (e % 2 ^ 32, e / 2 ^ 54 % 4, (e / 2 ^ 53).testBit 0)

/-- The token entries of a directory: token and index (R302). -/
def imageTokens (image : List Byte) : List (Nat × Nat) :=
  (imageWords image (leNat ((image.drop 8).take 4)) (leNat ((image.drop 12).take 4))).map fun e => (e % 2 ^ 16, e / 2 ^ 16 % 2 ^ 32)

/-- The module as it stands once it is loaded, its relocations applied; the directory is the cache entry's, or that of the words as they
were delivered (R300 to R302). DEDUCED, log 24. -/
def loadedOf (s : State) (ctx : Nat) (digest : List Byte) (file m : ModuleFile) : LoadedModule :=
  let cs := cuts file.code
  let hs := helpersOf cs
  let made := ((headsOf cs).map (fun h => (h.1, h.2, hs.contains h.1)), mergesOf cs, directoryBytes digest cs)
  let d := match cacheHit s digest with
    | some e => (imageTraces e.image, imageTokens e.image, e.image)
    | none => made
  { ctx := ctx, code := m.codeBase, data := m.dataBase, nwords := m.code.length, digest := digest,
    dir := d.1, toks := d.2.1,
    matrix := (tracesOf cs).any fun t => t.instrs.any fun p => makesMatrix p.2,
    kernels := m.kernels.map fun k => { k with regBase := max k.regBase (importNeed s ctx m) },
    exports := m.exports.filterMap fun e => (symAddr s ctx m e.2).map fun a => (e.1, a, match e.2 with
      | .code w => needOf s ctx m w
      | _ => 0),
    image := d.2.2 }

/-- The failure at the lowest offset, with the lowest reason there (R301). DEDUCED, log 22. -/
def firstFail (l : List Fail) : Option Fail :=
  l.foldl (fun b f => match b with
    | none => some f
    | some x => if f.1 < x.1 ∨ (f.1 = x.1 ∧ f.2 < x.2) then some f else some x) none

/-- Direct targets and table words whose target has a bit of [63:52] set where the module is loaded (R125). -/
def farTargets (m : ModuleFile) : List Fail :=
  let far := fun o : Option Nat => o.any fun i => decide (2 ^ 52 ≤ m.codeBase + 8 * i)
  (tracesOf (cuts m.code)).flatMap fun t =>
    (((t.table m.code).filter fun p => far (targetIx p.1 (p.2.setWidth 32))).map fun p => (8 * p.1, 5))
      ++ (t.instrs.filter fun p => (directOf p).any far).map fun p => (8 * p.1, 5)

/-- What the translator finds wrong with a module (R301): the words of one that the cache holds have passed their checks, but for the
addresses at which it is loaded. -/
def loadFails (s : State) (ctx : Nat) (digest : List Byte) (m : ModuleFile) : Option Fail :=
  if ! elfOk m then some (0, 9)
  else
    let words := if (cacheHit s digest).isSome then [] else (checkCode m.code (m.kernels.map (·.entry))).map fun f => (8 * f.1, f.2)
    firstFail (words ++ farTargets m ++ fail8 s ctx m)

/-- MODULE_LOAD (R301, R302): the module is checked, its relocations applied, its code and data written into the context, and its
directory kept; a module that fails a check is rejected with a reason code and an offset. DEDUCED, log 23. DEDUCED, log 24. -/
def execModuleLoad (ctx : Nat) (m : ModuleFile) (s : State) : Host.Outcome State Fault Refusal :=
  let digest := sha384 m.file
  hostDoes s <| .next (match loadFails s ctx digest m with
    | some (off, code) => answer (.moduleLoad code off) s
    | none =>
      let m' := (applyRelocs s ctx m.relocs m).1
      let x := loadedOf s ctx digest m m'
      let s1 := sysWrite ctx m.dataBase m'.data (sysWrite ctx m.codeBase (m'.code.flatMap fun w => leBytes 8 w.toNat) s)
      answer (.moduleLoad 0 0) { s1 with modules := s1.modules ++ [x], cache := cacheWith s digest x.image })

end Sys2Proof.Machine
end

