-- ==== Sys2Proof/Machine/Sync.lean ====
section
/-! DEFINITION. Unit barriers, waiting on a monitor, and the Lode queues (R86, R153 to R160). -/

namespace Sys2Proof.Machine

/-! ### Barriers -/

/-- A slice of an issue whose mask is empty goes to its trace end while the others wait (R46). DESIGN CHOICE, log 90. -/
def partEmpty (iss : Issue) (s : State) : State :=
  iss.threads.foldl (fun s t =>
    if (threadOf s t).mask = 0 then modThread t (fun th => { th with wait := .none, pos := .body (th.words.length - 1) }) s else s) s

/-- The slices of an issue that have an active lane. -/
def activeSlices (s : State) (iss : Issue) : List Nat :=
  iss.js.filter fun j => (threadOf s ⟨iss.u, iss.g, j, iss.h⟩).mask != 0

/-- The count operand of an arrival: a value above 32 reads as 32 (R154). -/
def arrivalCount (s : State) (iss : Issue) (a : Opnd) : Nat := min (src32 s (uniRef iss) .int a).toNat 32

/-- BAR and BARL: arrive, wait for the instance to complete, and depart with the role (R153 to R155). -/
def barrier (b : BitVec 4) (a : Opnd) (done : Issue → Nat → State → State) (s : State) : Host.Outcome State Fault Refusal :=
  withIssue (gangRegs [(a, 1)]) [] s fun iss s =>
    match waitOf s iss with
    | .departed role => advance iss (done iss role s)
    | .barrier _ _ => s
    | _ =>
      let s1 := commit iss s
      let (inst, s2) := noteArrival iss.u iss.g b.toNat (arrivalCount s1 iss a) (activeSlices s1 iss) s1
      updateBarrier iss.u b.toNat 34 (partEmpty iss (block iss (.barrier b.toNat inst) s2))

/-- BAR (R153). -/
def execBar (b : BitVec 4) (a : Opnd) (s : State) : Host.Outcome State Fault Refusal := barrier b a (fun _ _ s => s) s

/-- BARL: the active lanes of the gang that holds the role receive 1 (R155). -/
def execBarl (d : Opnd) (b : BitVec 4) (a : Opnd) (s : State) : Host.Outcome State Fault Refusal :=
  barrier b a (fun iss role s =>
    deliver iss d ((issueLanes s iss).map fun r => (r, res32 (ofTruth (decide (role = iss.g))))) 1 s) s

/-- ARRIVE: an arrival that goes on (R153). -/
def execArrive (b : BitVec 4) (a : Opnd) (s : State) : Host.Outcome State Fault Refusal :=
  withIssue (gangRegs [(a, 1)]) [] s fun iss s =>
    let s1 := commit iss s
    updateBarrier iss.u b.toNat 34
      (advance iss (noteArrival iss.u iss.g b.toNat (arrivalCount s1 iss a) (activeSlices s1 iss) s1).2)

/-! ### Monitors -/

/-- The cause with which a lane's WAITMON returns, if it has one: pre-emption, its own monitor, no monitor armed, or what woke the whole
slice (R158). DEDUCED, log 46. -/
def wakeCause (s : State) (r : LaneRef) (woken : Option Nat) : Option Nat :=
  if woken = some 3 then some 3
  else
    let m := s.mon.get r.lane {}
    match m.fired with
    | some c => some c
    | none => if m.armed.isNone then some 5 else woken

/-- The causes that a WAITMON gives its issue's lanes, which go on; `other` is the cause of a lane without one of its own (R158). -/
def giveCauses (iss : Issue) (d : Opnd) (woken : Option Nat) (other : Nat) (s : State) : State :=
  advance iss (deliver iss d ((issueLanes s iss).map fun r => (r, res32 (BitVec.ofNat 32 ((wakeCause s r woken).getD other)))) 1 s)

/-- Since when a thread has waited in the WAITMON at which it stands, and what woke the whole slice. -/
def monitorWait (s : State) (t : ThreadId) : Nat × Option Nat :=
  match (threadOf s t).wait with
  | .monitor a w => (a, w)
  | _ => (s.clock, none)

/-- One slice of a WAITMON: it goes on when every active lane of it has a cause, or without a stated cause, which is always permitted and so
a free choice; else it waits (R86, R158). -/
def waitSlice (iss : Issue) (d : Opnd) (j : Nat) (s : State) : State :=
  let me : Issue := { iss with js := [j] }
  let (since, woken) := monitorWait s ⟨iss.u, iss.g, j, iss.h⟩
  let rs := issueLanes s me
  if rs.all fun r => (wakeCause s r woken).isSome then giveCauses me d woken 4 s
  else
    let (unstated, s1) := takeBit s
    if unstated then giveCauses me d woken 4 s1 else stall me (.monitor since woken) s1

/-- WAITMON (R86, R158): slices that can go on together do, and otherwise each by itself. DEDUCED, log 46. -/
def execWaitmon (d : Opnd) (s : State) : Host.Outcome State Fault Refusal :=
  withIssue [] [] s fun iss s =>
    let woken := match waitOf s iss with
      | .monitor _ w => w
      | _ => none
    let s1 := commit iss s
    if (issueLanes s1 iss).all fun r => (wakeCause s1 r woken).isSome then giveCauses iss d woken 4 s1
    else if (unitOf s1 iss.u).status = .ending then block iss (.monitor s1.clock woken) s1
    else (activeSlices s1 iss).foldl (fun s j => waitSlice iss d j s) (partEmpty iss s1)

/-! ### Queues -/

/-- The hardware queue and the capacity that a context queue is mapped to; a queue that is not mapped has capacity 0 (R159, R327). -/
def queueOf (s : State) (iss : Issue) (q : BitVec 6) : (Nat × Nat) × Nat :=
  match (ctxOf s (unitOf s iss.u).ctx).queues.find? q.toNat with
  | none => ((8, 0), 0)
  | some m => ((m.die, m.hwq), if m.caplog = 0 then 0 else 2 ^ m.caplog)

/-- Items of a hardware queue, the oldest first. -/
def itemsOf (s : State) (k : Nat × Nat) : List QWord := s.lodes.get k []

/-- A 16-byte item from its words. -/
def itemOf (ws : List Word) : QWord := BitVec.ofNat 128 (ws.foldr (fun w n => w.toNat + 2 ^ 32 * n) 0)

/-- The words of an item. DEDUCED, log 48. -/
def itemWords (x : QWord) : List Word := (List.range 4).map fun i => BitVec.ofNat 32 (x.toNat / 2 ^ (32 * i))

/-- The lanes that act in an issue of a queue instruction: all active lanes, or one for the uniform form (R160). -/
def actors (u : Bool) (s : State) (iss : Issue) : List LaneRef := if u then [uniRef iss] else issueLanes s iss

/-- Deliver the words of one result, lane by lane or uniformly. DEDUCED, log 48. -/
def deliverU (u : Bool) (iss : Issue) (d : Opnd) (rs : List (LaneRef × Res)) (n : Nat) (s : State) : State :=
  if u then match rs with
    | (_, x) :: _ => deliverUniform iss d x s
    | [] => s
  else deliver iss d rs n s

/-- QPUSH (R160). DEDUCED, log 71. -/
def execQpush (u : Bool) (q : BitVec 6) (d a : Opnd) (s : State) : Host.Outcome State Fault Refusal :=
  withIssue (gangRegs [(a, 4)]) (gangRegs [(d, 1)]) s fun iss s =>
    let s1 := commit iss s
    let (k, cap) := queueOf s1 iss q
    let step := fun (acc : List QWord × List (LaneRef × Res)) (r : LaneRef) =>
      if acc.1.length < cap then (acc.1 ++ [itemOf (src128 s1 r a)], acc.2 ++ [(r, res32 1)])
      else (acc.1, acc.2 ++ [(r, res32 0)])
    let (items, rs) := (actors u s1 iss).foldl step (itemsOf s1 k, [])
    let s2 := if cap = 0 then s1 else { s1 with lodes := s1.lodes.set k items }
    advance iss (deliverU u iss d rs 1 s2)

/-- The words that an item popped shifts into the echo file: bytes [3:0], or all four words where the destination is ZERO (R116, R160). DEDUCED,
log 48. -/
def popEcho (d : Opnd) (x : QWord) : List Word := if d = .zero then itemWords x else [BitVec.ofNat 32 x.toNat]

/-- QPOP: the item and then the status (R160). DEDUCED, log 48. DEDUCED, log 71. -/
def execQpop (u : Bool) (q : BitVec 6) (d st : Opnd) (s : State) : Host.Outcome State Fault Refusal :=
  withIssue [] (gangRegs [(d, 4), (st, 1)]) s fun iss s =>
    let s1 := commit iss s
    let (k, cap) := queueOf s1 iss q
    let step := fun (acc : List QWord × List (LaneRef × QWord × Word)) (r : LaneRef) =>
      match acc.1 with
      | x :: rest => (rest, acc.2 ++ [(r, x, (1 : Word))])
      | [] => ([], acc.2 ++ [(r, (0 : QWord), (0 : Word))])
    let (items, rs) := (actors u s1 iss).foldl step (if cap = 0 then [] else itemsOf s1 k, [])
    let s2 := if cap = 0 then s1 else { s1 with lodes := s1.lodes.set k items }
    let s3 := deliverU u iss d (rs.map fun p => (p.1, ⟨itemWords p.2.1, popEcho d p.2.1⟩)) (popEcho d 0).length s2
    advance iss (deliverU u iss st (rs.map fun p => (p.1, res32 p.2.2)) 1 s3)

/-- QLEN (R160). -/
def execQlen (u : Bool) (q : BitVec 6) (d : Opnd) (s : State) : Host.Outcome State Fault Refusal :=
  withIssue [] (gangRegs [(d, 1)]) s fun iss s =>
    let s1 := commit iss s
    let (k, cap) := queueOf s1 iss q
    let n := if cap = 0 then 0 else (itemsOf s1 k).length
    advance iss (deliverU u iss d ((actors u s1 iss).map fun r => (r, res32 (BitVec.ofNat 32 n))) 1 s1)

end Sys2Proof.Machine
end

