-- ==== Sys2Proof/Machine/Dispatch.lean ====
section
/-! DEFINITION. Execution: one arm per constructor of Instr, each the call of its meaning. -/

namespace Sys2Proof.Machine

def exec (i : Instr) (s : State) : Host.Outcome State Fault Refusal :=
  match i with
  | .nop => Sys2Proof.Machine.execNop s
  | .trace stages guards => Sys2Proof.Machine.execTrace stages guards s
  | .stg d n k1 => Sys2Proof.Machine.execStg d n k1 s
  | .wbind d n k1 => Sys2Proof.Machine.execWbind d n k1 s
  | .guard z g a => Sys2Proof.Machine.execGuard z g a s
  | .settle => Sys2Proof.Machine.execSettle s
  | .tend tok off => Sys2Proof.Machine.execTend tok off s
  | .tendi tok a => Sys2Proof.Machine.execTendi tok a s
  | .call tok off => Sys2Proof.Machine.execCall tok off s
  | .calli tok a => Sys2Proof.Machine.execCalli tok a s
  | .ret tok => Sys2Proof.Machine.execRet tok s
  | .merge tok => Sys2Proof.Machine.execMerge tok s
  | .regang => Sys2Proof.Machine.execRegang s
  | .exit => Sys2Proof.Machine.execExit s
  | .yield => Sys2Proof.Machine.execYield s
  | .trap imm => Sys2Proof.Machine.execTrap imm s
  | .bkpt code => Sys2Proof.Machine.execBkpt code s
  | .iadd u sat d a b => Sys2Proof.Machine.execIadd u sat d a b s
  | .iaddI u sat d a imm => Sys2Proof.Machine.execIaddI u sat d a imm s
  | .isub u sat d a b => Sys2Proof.Machine.execIsub u sat d a b s
  | .isubI u sat d a imm => Sys2Proof.Machine.execIsubI u sat d a imm s
  | .iaddc u d a b c => Sys2Proof.Machine.execIaddc u d a b c s
  | .isubb u d a b c => Sys2Proof.Machine.execIsubb u d a b c s
  | .iadd64 u d a b => Sys2Proof.Machine.execIadd64 u d a b s
  | .iadd64I u d a imm => Sys2Proof.Machine.execIadd64I u d a imm s
  | .isub64 u d a b => Sys2Proof.Machine.execIsub64 u d a b s
  | .isub64I u d a imm => Sys2Proof.Machine.execIsub64I u d a imm s
  | .imul u sat d a b => Sys2Proof.Machine.execImul u sat d a b s
  | .imulI u sat d a imm => Sys2Proof.Machine.execImulI u sat d a imm s
  | .imulh u d a b => Sys2Proof.Machine.execImulh u d a b s
  | .imulhI u d a imm => Sys2Proof.Machine.execImulhI u d a imm s
  | .imulhu u d a b => Sys2Proof.Machine.execImulhu u d a b s
  | .imulhuI u d a imm => Sys2Proof.Machine.execImulhuI u d a imm s
  | .imad u sat d a b c => Sys2Proof.Machine.execImad u sat d a b c s
  | .imad64 u zx d a b c => Sys2Proof.Machine.execImad64 u zx d a b c s
  | .divs u d a b => Sys2Proof.Machine.execDivs u d a b s
  | .divsI u d a imm => Sys2Proof.Machine.execDivsI u d a imm s
  | .divu u d a b => Sys2Proof.Machine.execDivu u d a b s
  | .divuI u d a imm => Sys2Proof.Machine.execDivuI u d a imm s
  | .rems u d a b => Sys2Proof.Machine.execRems u d a b s
  | .remsI u d a imm => Sys2Proof.Machine.execRemsI u d a imm s
  | .remu u d a b => Sys2Proof.Machine.execRemu u d a b s
  | .remuI u d a imm => Sys2Proof.Machine.execRemuI u d a imm s
  | .iabs u sat d a => Sys2Proof.Machine.execIabs u sat d a s
  | .ineg u sat d a => Sys2Proof.Machine.execIneg u sat d a s
  | .imin u d a b => Sys2Proof.Machine.execImin u d a b s
  | .iminI u d a imm => Sys2Proof.Machine.execIminI u d a imm s
  | .imax u d a b => Sys2Proof.Machine.execImax u d a b s
  | .imaxI u d a imm => Sys2Proof.Machine.execImaxI u d a imm s
  | .iminu u d a b => Sys2Proof.Machine.execIminu u d a b s
  | .iminuI u d a imm => Sys2Proof.Machine.execIminuI u d a imm s
  | .imaxu u d a b => Sys2Proof.Machine.execImaxu u d a b s
  | .imaxuI u d a imm => Sys2Proof.Machine.execImaxuI u d a imm s
  | .isat u zx d a b => Sys2Proof.Machine.execIsat u zx d a b s
  | .isatI u zx d a imm => Sys2Proof.Machine.execIsatI u zx d a imm s
  | .icmp u cond dbl d a b => Sys2Proof.Machine.execIcmp u cond dbl d a b s
  | .icmpI u cond dbl d a imm => Sys2Proof.Machine.execIcmpI u cond dbl d a imm s
  | .sel u d a b c => Sys2Proof.Machine.execSel u d a b c s
  | .and u d a b => Sys2Proof.Machine.execAnd u d a b s
  | .andI u d a imm => Sys2Proof.Machine.execAndI u d a imm s
  | .or u d a b => Sys2Proof.Machine.execOr u d a b s
  | .orI u d a imm => Sys2Proof.Machine.execOrI u d a imm s
  | .xor u d a b => Sys2Proof.Machine.execXor u d a b s
  | .xorI u d a imm => Sys2Proof.Machine.execXorI u d a imm s
  | .andn u d a b => Sys2Proof.Machine.execAndn u d a b s
  | .andnI u d a imm => Sys2Proof.Machine.execAndnI u d a imm s
  | .not u d a => Sys2Proof.Machine.execNot u d a s
  | .shl u d a b => Sys2Proof.Machine.execShl u d a b s
  | .shlI u d a imm => Sys2Proof.Machine.execShlI u d a imm s
  | .shr u d a b => Sys2Proof.Machine.execShr u d a b s
  | .shrI u d a imm => Sys2Proof.Machine.execShrI u d a imm s
  | .sar u d a b => Sys2Proof.Machine.execSar u d a b s
  | .sarI u d a imm => Sys2Proof.Machine.execSarI u d a imm s
  | .shf u left d a b c => Sys2Proof.Machine.execShf u left d a b c s
  | .bfx u d a b c => Sys2Proof.Machine.execBfx u d a b c s
  | .bfxu u d a b c => Sys2Proof.Machine.execBfxu u d a b c s
  | .bfi u d a b c => Sys2Proof.Machine.execBfi u d a b c s
  | .popc u d a => Sys2Proof.Machine.execPopc u d a s
  | .clz u d a => Sys2Proof.Machine.execClz u d a s
  | .ctz u d a => Sys2Proof.Machine.execCtz u d a s
  | .brev u d a => Sys2Proof.Machine.execBrev u d a s
  | .bysel u d a b c => Sys2Proof.Machine.execBysel u d a b c s
  | .lea u k zx d a b => Sys2Proof.Machine.execLea u k zx d a b s
  | .movi u d imm => Sys2Proof.Machine.execMovi u d imm s
  | .mov u dbl d a => Sys2Proof.Machine.execMov u dbl d a s
  | .fadd u rm ftz d a b => Sys2Proof.Machine.execFadd u rm ftz d a b s
  | .faddI u rm ftz d a imm => Sys2Proof.Machine.execFaddI u rm ftz d a imm s
  | .fsub u rm ftz d a b => Sys2Proof.Machine.execFsub u rm ftz d a b s
  | .fsubI u rm ftz d a imm => Sys2Proof.Machine.execFsubI u rm ftz d a imm s
  | .fmul u rm ftz d a b => Sys2Proof.Machine.execFmul u rm ftz d a b s
  | .fmulI u rm ftz d a imm => Sys2Proof.Machine.execFmulI u rm ftz d a imm s
  | .ffma u rm ftz d a b c => Sys2Proof.Machine.execFfma u rm ftz d a b c s
  | .fmin u ftz d a b => Sys2Proof.Machine.execFmin u ftz d a b s
  | .fminI u ftz d a imm => Sys2Proof.Machine.execFminI u ftz d a imm s
  | .fmax u ftz d a b => Sys2Proof.Machine.execFmax u ftz d a b s
  | .fmaxI u ftz d a imm => Sys2Proof.Machine.execFmaxI u ftz d a imm s
  | .fcmp u cond ftz d a b => Sys2Proof.Machine.execFcmp u cond ftz d a b s
  | .fcmpI u cond ftz d a imm => Sys2Proof.Machine.execFcmpI u cond ftz d a imm s
  | .frcp ftz d a => Sys2Proof.Machine.execFrcp ftz d a s
  | .frsq ftz d a => Sys2Proof.Machine.execFrsq ftz d a s
  | .fsqrt ftz d a => Sys2Proof.Machine.execFsqrt ftz d a s
  | .fexp2 ftz d a => Sys2Proof.Machine.execFexp2 ftz d a s
  | .flog2 ftz d a => Sys2Proof.Machine.execFlog2 ftz d a s
  | .fsin ftz d a => Sys2Proof.Machine.execFsin ftz d a s
  | .fcos ftz d a => Sys2Proof.Machine.execFcos ftz d a s
  | .frnd rm ftz d a => Sys2Proof.Machine.execFrnd rm ftz d a s
  | .fclass ftz d a => Sys2Proof.Machine.execFclass ftz d a s
  | .pkadd ty rm ftz d a b => Sys2Proof.Machine.execPkadd ty rm ftz d a b s
  | .pkaddI ty rm ftz d a imm => Sys2Proof.Machine.execPkaddI ty rm ftz d a imm s
  | .pkmul ty rm ftz d a b => Sys2Proof.Machine.execPkmul ty rm ftz d a b s
  | .pkmulI ty rm ftz d a imm => Sys2Proof.Machine.execPkmulI ty rm ftz d a imm s
  | .pkfma ty rm ftz d a b c => Sys2Proof.Machine.execPkfma ty rm ftz d a b c s
  | .dadd rm ftz d a b => Sys2Proof.Machine.execDadd rm ftz d a b s
  | .daddI rm ftz d a imm => Sys2Proof.Machine.execDaddI rm ftz d a imm s
  | .dsub rm ftz d a b => Sys2Proof.Machine.execDsub rm ftz d a b s
  | .dsubI rm ftz d a imm => Sys2Proof.Machine.execDsubI rm ftz d a imm s
  | .dmul rm ftz d a b => Sys2Proof.Machine.execDmul rm ftz d a b s
  | .dmulI rm ftz d a imm => Sys2Proof.Machine.execDmulI rm ftz d a imm s
  | .dfma rm ftz d a b c => Sys2Proof.Machine.execDfma rm ftz d a b c s
  | .dmin ftz d a b => Sys2Proof.Machine.execDmin ftz d a b s
  | .dminI ftz d a imm => Sys2Proof.Machine.execDminI ftz d a imm s
  | .dmax ftz d a b => Sys2Proof.Machine.execDmax ftz d a b s
  | .dmaxI ftz d a imm => Sys2Proof.Machine.execDmaxI ftz d a imm s
  | .dcmp cond ftz d a b => Sys2Proof.Machine.execDcmp cond ftz d a b s
  | .dcmpI cond ftz d a imm => Sys2Proof.Machine.execDcmpI cond ftz d a imm s
  | .drcp ftz d a => Sys2Proof.Machine.execDrcp ftz d a s
  | .drsq ftz d a => Sys2Proof.Machine.execDrsq ftz d a s
  | .cvtif u ft uns iw rm d a => Sys2Proof.Machine.execCvtif u ft uns iw rm d a s
  | .cvtfi u uns iw ft rm ftz d a => Sys2Proof.Machine.execCvtfi u uns iw ft rm ftz d a s
  | .cvtff ftd fta rm ftz d a => Sys2Proof.Machine.execCvtff ftd fta rm ftz d a s
  | .cvtii u wd ud wa ua sat d a => Sys2Proof.Machine.execCvtii u wd ud wa ua sat d a s
  | .packh ty rm ftz d a b => Sys2Proof.Machine.execPackh ty rm ftz d a b s
  | .unpkh ty hi d a => Sys2Proof.Machine.execUnpkh ty hi d a s
  | .xlane mode dbl d a b => Sys2Proof.Machine.execXlane mode dbl d a b s
  | .vote mode d a => Sys2Proof.Machine.execVote mode d a s
  | .gredux op d a => Sys2Proof.Machine.execGredux op d a s
  | .scan op ex seg d a b => Sys2Proof.Machine.execScan op ex seg d a b s
  | .ld sp w hint off d a => Sys2Proof.Machine.execLd sp w hint off d a s
  | .st sp w hint off v a => Sys2Proof.Machine.execSt sp w hint off v a s
  | .gather sp w hint off d a x => Sys2Proof.Machine.execGather sp w hint off d a x s
  | .scatter sp w hint off v a x => Sys2Proof.Machine.execScatter sp w hint off v a x s
  | .scatterAdd sp w op hint a x c => Sys2Proof.Machine.execScatterAdd sp w op hint a x c s
  | .atom u sp w op hint d a b c => Sys2Proof.Machine.execAtom u sp w op hint d a b c s
  | .red u sp w op hint a b => Sys2Proof.Machine.execRed u sp w op hint a b s
  | .acq u sp hint off a => Sys2Proof.Machine.execAcq u sp hint off a s
  | .rel u sp hint off a => Sys2Proof.Machine.execRel u sp hint off a s
  | .acqld u sp hint off d a => Sys2Proof.Machine.execAcqld u sp hint off d a s
  | .relst u sp hint off v a => Sys2Proof.Machine.execRelst u sp hint off v a s
  | .fence => Sys2Proof.Machine.execFence s
  | .xfence p q => Sys2Proof.Machine.execXfence p q s
  | .bind d a b c => Sys2Proof.Machine.execBind d a b c s
  | .unbind d a => Sys2Proof.Machine.execUnbind d a s
  | .pref w hint off a x => Sys2Proof.Machine.execPref w hint off a x s
  | .spill sp hint off n k1 a => Sys2Proof.Machine.execSpill sp hint off n k1 a s
  | .fill sp hint off n k1 a => Sys2Proof.Machine.execFill sp hint off n k1 a s
  | .cpy tag lk n1 dsp ssp hint d a b => Sys2Proof.Machine.execCpy tag lk n1 dsp ssp hint d a b s
  | .cpy2d tag lk dsp ssp hint d a b ga gb gc => Sys2Proof.Machine.execCpy2d tag lk dsp ssp hint d a b ga gb gc s
  | .cseal tag d => Sys2Proof.Machine.execCseal tag d s
  | .cdec tag hint d a ga gb => Sys2Proof.Machine.execCdec tag hint d a ga gb s
  | .fopen k cw vw a b c => Sys2Proof.Machine.execFopen k cw vw a b c s
  | .fnext k dbl hint d c => Sys2Proof.Machine.execFnext k dbl hint d c s
  | .ftest k d => Sys2Proof.Machine.execFtest k d s
  | .fclose k => Sys2Proof.Machine.execFclose k s
  | .orsv d ga => Sys2Proof.Machine.execOrsv d ga s
  | .orls d ga => Sys2Proof.Machine.execOrls d ga s
  | .mgath p a => Sys2Proof.Machine.execMgath p a s
  | .mma spf co x b o ga gb gc => Sys2Proof.Machine.execMma spf co x b o ga gb gc s
  | .mmap spf t x b o ga gb gc => Sys2Proof.Machine.execMmap spf t x b o ga gb gc s
  | .guide d o ga gb gc => Sys2Proof.Machine.execGuide d o ga gb gc s
  | .mzero o ga gb => Sys2Proof.Machine.execMzero o ga gb s
  | .mst sp bf hint a o ga gb gc => Sys2Proof.Machine.execMst sp bf hint a o ga gb gc s
  | .mld sp bf hint a o ga gb gc => Sys2Proof.Machine.execMld sp bf hint a o ga gb gc s
  | .mspsel d a x ga gb => Sys2Proof.Machine.execMspsel d a x ga gb s
  | .spst sp hint a o ga gb => Sys2Proof.Machine.execSpst sp hint a o ga gb s
  | .mclaim => Sys2Proof.Machine.execMclaim s
  | .mpass ga => Sys2Proof.Machine.execMpass ga s
  | .recruit d w k1 n off => Sys2Proof.Machine.execRecruit d w k1 n off s
  | .hread d x => Sys2Proof.Machine.execHread d x s
  | .hret op a => Sys2Proof.Machine.execHret op a s
  | .hend => Sys2Proof.Machine.execHend s
  | .join nt d m c => Sys2Proof.Machine.execJoin nt d m c s
  | .dismiss => Sys2Proof.Machine.execDismiss s
  | .bar b a => Sys2Proof.Machine.execBar b a s
  | .barl d b a => Sys2Proof.Machine.execBarl d b a s
  | .arrive b a => Sys2Proof.Machine.execArrive b a s
  | .mon sp off a => Sys2Proof.Machine.execMon sp off a s
  | .waitmon d => Sys2Proof.Machine.execWaitmon d s
  | .qpush u q d a => Sys2Proof.Machine.execQpush u q d a s
  | .qpop u q d v => Sys2Proof.Machine.execQpop u q d v s
  | .qlen u q d => Sys2Proof.Machine.execQlen u q d s
  | .gets u r d => Sys2Proof.Machine.execGets u r d s
  | .sets r a => Sys2Proof.Machine.execSets r a s
  | .role r => Sys2Proof.Machine.execRole r s
  | .grow n8 d => Sys2Proof.Machine.execGrow n8 d s
  | .shrink n8 => Sys2Proof.Machine.execShrink n8 s
  | .guardedCommandResolution id => Sys2Proof.Machine.execGuardedCommandResolution id s
  | .copyCommandComplete id => Sys2Proof.Machine.execCopyCommandComplete id s
  | .matrixEngineGrant cluster => Sys2Proof.Machine.execMatrixEngineGrant cluster s
  | .matrixCommandComplete id => Sys2Proof.Machine.execMatrixCommandComplete id s
  | .pairWaitExpiry id => Sys2Proof.Machine.execPairWaitExpiry id s
  | .cooperativeMatchTimeout id => Sys2Proof.Machine.execCooperativeMatchTimeout id s
  | .growGrant core => Sys2Proof.Machine.execGrowGrant core s
  | .growStuckDenial core => Sys2Proof.Machine.execGrowStuckDenial core s
  | .monitorEviction core line => Sys2Proof.Machine.execMonitorEviction core line s
  | .waitmonTimerExpiry t => Sys2Proof.Machine.execWaitmonTimerExpiry t s
  | .sluiceRelease u => Sys2Proof.Machine.execSluiceRelease u s
  | .watchdogExpiry u => Sys2Proof.Machine.execWatchdogExpiry u s
  | .trigger ctx v => Sys2Proof.Machine.execTrigger ctx v s
  | .triggerBegin ctx gid => Sys2Proof.Machine.execTriggerBegin ctx gid s
  | .gload ctx v => Sys2Proof.Machine.execGload ctx v s
  | .launchStart gid node => Sys2Proof.Machine.execLaunchStart gid node s
  | .unitDispatch launch idx core => Sys2Proof.Machine.execUnitDispatch launch idx core s
  | .unitDeschedule u => Sys2Proof.Machine.execUnitDeschedule u s
  | .quantumExpiry u => Sys2Proof.Machine.execQuantumExpiry u s
  | .cancelUnit ctx v => Sys2Proof.Machine.execCancelUnit ctx v s
  | .cancelLaunch ctx v => Sys2Proof.Machine.execCancelLaunch ctx v s
  | .cancelGraph ctx v => Sys2Proof.Machine.execCancelGraph ctx v s
  | .cancelPhase ctx v => Sys2Proof.Machine.execCancelPhase ctx v s
  | .cancelJob ctx v => Sys2Proof.Machine.execCancelJob ctx v s
  | .ctxcmdPreempt ctx => Sys2Proof.Machine.execCtxcmdPreempt ctx s
  | .preemptSaveComplete ctx => Sys2Proof.Machine.execPreemptSaveComplete ctx s
  | .ctxcmdResume ctx => Sys2Proof.Machine.execCtxcmdResume ctx s
  | .resumeComplete ctx => Sys2Proof.Machine.execResumeComplete ctx s
  | .ctxcmdInval ctx => Sys2Proof.Machine.execCtxcmdInval ctx s
  | .invalComplete ctx => Sys2Proof.Machine.execInvalComplete ctx s
  | .firmwarePageGrow id => Sys2Proof.Machine.execFirmwarePageGrow id s
  | .fcmdReplay ctx v => Sys2Proof.Machine.execFcmdReplay ctx v s
  | .fcmdCancel ctx v => Sys2Proof.Machine.execFcmdCancel ctx v s
  | .fcmdInvalid ctx v => Sys2Proof.Machine.execFcmdInvalid ctx v s
  | .fqtailWrite ctx v => Sys2Proof.Machine.execFqtailWrite ctx v s
  | .softErrorCorrectable t => Sys2Proof.Machine.execSoftErrorCorrectable t s
  | .softErrorUncorrectable t => Sys2Proof.Machine.execSoftErrorUncorrectable t s
  | .moduleLoad ctx m => Sys2Proof.Machine.execModuleLoad ctx m s
  | .accessPerformed core k => Sys2Proof.Machine.execAccessPerformed core k s
  | .graphLoadComplete ctx => Sys2Proof.Machine.execGraphLoadComplete ctx s
  | .carrBlockTransmit link => Sys2Proof.Machine.execCarrBlockTransmit link s
  | .carrctlEn link on => Sys2Proof.Machine.execCarrctlEn link on s
  | .carrctlRetrain link => Sys2Proof.Machine.execCarrctlRetrain link s
  | .linkTrainingComplete link lanes peer => Sys2Proof.Machine.execLinkTrainingComplete link lanes peer s
  | .linkTrainingTimeout link => Sys2Proof.Machine.execLinkTrainingTimeout link s
  | .laneLoss link lane => Sys2Proof.Machine.execLaneLoss link lane s
  | .dataFlitReceive link f op => Sys2Proof.Machine.execDataFlitReceive link f op s
  | .idleFlitReceive link f => Sys2Proof.Machine.execIdleFlitReceive link f s
  | .nakFlitReceive link f => Sys2Proof.Machine.execNakFlitReceive link f s
  | .ackTimeoutResend link => Sys2Proof.Machine.execAckTimeoutResend link s
  | .linkCommandComplete id n data => Sys2Proof.Machine.execLinkCommandComplete id n data s
  | .cxlCompletionTimeout die => Sys2Proof.Machine.execCxlCompletionTimeout die s
  | .pcieAtomicopReceived addr => Sys2Proof.Machine.execPcieAtomicopReceived addr s
  | .boot imgs failed => Sys2Proof.Machine.execBoot imgs failed s
  | .getMeasurements index => Sys2Proof.Machine.execGetMeasurements index s
  | .getCertificate => Sys2Proof.Machine.execGetCertificate s
  | .negotiateAlgorithms => Sys2Proof.Machine.execNegotiateAlgorithms s
  | .challenge nonce => Sys2Proof.Machine.execChallenge nonce s
  | .redfishRequest r => Sys2Proof.Machine.execRedfishRequest r s
  | .healthcmdAck v => Sys2Proof.Machine.execHealthcmdAck v s
  | .coreFence core => Sys2Proof.Machine.execCoreFence core s
  | .channelDrain ch => Sys2Proof.Machine.execChannelDrain ch s
  | .mgmtHeartbeatMiss die => Sys2Proof.Machine.execMgmtHeartbeatMiss die s
  | .thermalTrip => Sys2Proof.Machine.execThermalTrip s
  | .powerThrottle => Sys2Proof.Machine.execPowerThrottle s
  | .registerWrite a v => Sys2Proof.Machine.execRegisterWrite a v s
  | .dieToDieLinkFailure => Sys2Proof.Machine.execDieToDieLinkFailure s
  | .bootSecurityCoreFailure => Sys2Proof.Machine.execBootSecurityCoreFailure s

end Sys2Proof.Machine
end

