-- ==== Sys2Proof/Machine/Issue.lean ====
section
/-! DEFINITION. Which thread issues next and how one issue runs: the fetch at a trace head, the words fetched there, and a pending pop
(R9, R11, R44, R47, R126, R129, R324). -/

namespace Sys2Proof.Machine

/-! ### One issue -/

/-- A page fault of the thread, or of a slice that parked with it, awaits its answer (R342). -/
def isParked (s : State) (t : ThreadId) : Bool :=
  ! (threadOf s t).parked.isEmpty
    || (threadOf s t).parkedWith.any fun j => ! (threadOf s ⟨t.u, t.g, j, t.h⟩).parked.isEmpty

/-- The gang waits for the baton that a save took from it (R266). -/
def waitsForBaton (s : State) (t : ThreadId) : Bool :=
  (gangOf s ⟨t.u, t.g⟩).rebaton && ! t.h && s.baton.find? (clusterOf (unitOf s t.u).core) != some ⟨t.u, t.g⟩

/-- A thread stands where it can issue: at a head, at a word, or with a pop pending; a unit being saved runs only what is past its memory
commit and does not wait, and its helpers; a unit that is ending what is left of a trace (R58, R412). DEDUCED, log 72. -/
def canIssue (s : State) (t : ThreadId) : Bool :=
  let th := threadOf s t
  let here := match th.pos with
    | .head _ => true
    | .body _ => true
    | .popping => true
    | _ => false
  let inBody := match th.pos with
    | .body _ => true
    | _ => false
  here && ! isParked s t && ! waitsForBaton s t && (match (unitOf s t.u).status with
    | .resident => true
    | .ending => inBody
    | .saving => inBody && th.committed && (t.h || th.wait == .none)
    | _ => false)

/-- A loaded module of the context lists the address in its trace directory (R126, R302). DEDUCED, log 20. -/
def inDirectory (s : State) (ctx a : Nat) : Bool :=
  s.modules.any fun m => m.ctx == ctx && decide (m.code ≤ a) && (a - m.code) % 8 == 0 && m.dir.any fun d => d.1 == (a - m.code) / 8

/-- The lanes of an issue with one fault. -/
def everyLane (s : State) (iss : Issue) (f : Flt) : List (LaneRef × Flt) := (issueLanes s iss).map fun r => (r, f)

/-- Raise a fault at a head, for the lanes of the entering mask (R39, R129). DEDUCED, log 20. DEDUCED, log 58. -/
def headFault (iss : Issue) (a : Nat) (f : Flt) (s : State) : State :=
  let s1 := modThreads iss (fun th => { th with tr := a, head := th.mask }) s
  if f.cls.isFatal then settledFault iss (everyLane s1 iss f) s1 else parkIssue iss (everyLane s1 iss f) s1

/-- A word that may stand where a slice arrives: TRACE, MERGE or REGANG; after a MERGE no MERGE, and after a REGANG only TRACE (R129). -/
def headOk (need : Nat) (i : Instr) : Bool :=
  match i with
  | .trace _ _ => true
  | .merge _ => need == 0
  | .regang => decide (need ≤ 1)
  | _ => false

/-- The opcode of a word is that of TRACE, MERGE or REGANG (R124). -/
def headOpcode (w : DWord) : Bool :=
  [encode (.trace 0 0), encode (.merge 0), encode .regang].any fun x => x.getD 0 >>> 56 == w >>> 56

/-- The instruction that stands at a head, or the fault that the head raises: any other word than those that may stand there is ILLOP with
the address as fault address, and so is an address that no directory lists (R126, R129). DEDUCED, log 20. -/
def fetchHead (iss : Issue) (a : Nat) (s : State) : Except Flt Instr × State :=
  let un := unitOf s iss.u
  if ! inDirectory s un.ctx a then
    match fetchWord iss.u a s with
    | (.error _, s1) => (.error ⟨.illop, 0, a, 0, a⟩, s1)
    | (.ok w, s1) => (.error ⟨.illop, 0, a, w.toNat, a⟩, s1)
  else match fetchWord iss.u a s with
    | (.error f, s1) => (.error f, s1)
    | (.ok w, s1) => match decodeWord w with
      | .ok i => if headOk (headThread s iss).need i then (.ok i, s1) else (.error ⟨.illop, 0, a, w.toNat, a⟩, s1)
      | .error e =>
        if ! headOpcode w then (.error ⟨.illop, 0, a, w.toNat, a⟩, s1)
        else (match e with
          | .illop => .error ⟨.illop, 0, 0, w.toNat, a⟩
          | .illopnd => .error ⟨.illopnd, 0, 0, 0, a⟩, s1)

/-- Slices pop; where one of them has no lane left, what an exit lets happen does (R44, R50, R147). -/
def popIssue (iss : Issue) (s : State) : State :=
  let s1 := iss.threads.foldl (fun s t => popSlice t s) s
  if ! iss.h && (unitOf s1 iss.u).status == .resident && iss.threads.any (fun t => (threadOf s1 t).pos == .dead) then afterExit iss.gang s1
  else s1

/-- The instruction that an issue runs, or nothing where the machine itself has something to do for it (a fault, a pop). -/
def nextInstr (iss : Issue) (s : State) : Option Instr × State :=
  match (headThread s iss).pos with
  | .head a => match fetchHead iss a s with
    | (.ok i, s1) => (some i, modThreads iss (fun th => { th with parkedWith := [] }) s1)
    | (.error f, s1) => (none, headFault iss a f s1)
  | .body i => match decodeWord ((headThread s iss).words.getD i 0) with
    | .ok x => (some x, s)
    | .error _ => (none, s)
  | .popping => (none, popIssue iss (modThreads iss (fun th => { th with parkedWith := [] }) s))
  | _ => (none, s)

/-- The issues of a core are counted (R378, R379). -/
def countIssue (iss : Issue) (s : State) : State :=
  let un := unitOf s iss.u
  let s1 := countCore un.core 0x01 un.ctx (curTag s) 1 s
  if ! iss.h && ! (gangOf s1 iss.gang).joined then countCore un.core 0x08 un.ctx (curTag s1) 1 s1 else s1

/-- After an issue: its slices wait anew for their next one, a gang whose slices have gone different ways parts, and no issue is in hand (R11,
R324). -/
def closeIssue (iss : Issue) (s : State) : State :=
  let s1 := modThreads iss (fun th => { th with since := s.clock }) s
  newAccess { updateJoined iss.gang s1 with cur := none }

/-- An outcome with a function of its next state. -/
def mapNext (f : State → State) (o : Host.Outcome State Fault Refusal) : Host.Outcome State Fault Refusal :=
  match o with
  | .next s => .next (f s)
  | .fault r => .fault r
  | .refused r => .refused r

/-- Run one issue. DEDUCED, log 72. -/
def runIssue (iss : Issue) (s : State) : Host.Outcome State Fault Refusal :=
  let s0 := countIssue iss { s with cur := some iss }
  match nextInstr iss s0 with
  | (some i, s1) => mapNext (closeIssue iss) (exec i (newAccess s1))
  | (none, s1) => .next (closeIssue iss s1)

/-! ### Choosing a thread -/

/-- A thread that waits would wait on: to issue its instruction would leave it as it is. DESIGN CHOICE, log 11. -/
def stillWaits (s : State) (t : ThreadId) : Bool :=
  let th := threadOf s t
  match th.wait, th.pos with
  | .none, .popping => (match runIssue (issueOf s t) s with
    | .next s' => (threadOf s' t).pos == .popping
    | _ => false)
  | .none, _ => false
  | w, _ => (match runIssue (issueOf s t) s with
    | .next s' => (threadOf s' t).wait == w
    | _ => false)

/-- The threads that may issue (R324). -/
def ready (s : State) : List ThreadId := ((s.thr.map (·.1)).filter fun t => canIssue s t && ! stillWaits s t)

/-- The role class that orders a thread: that of its gang, a helper's that of its recruiter's gang (R163, R268). -/
def roleOf (s : State) (t : ThreadId) : Nat :=
  let g := if t.h then match s.serve.find? ⟨t.u, t.g, t.j⟩ with
    | some sv => gangOf s ⟨t.u, sv.g⟩
    | none => gangOf s ⟨t.u, t.g⟩ else gangOf s ⟨t.u, t.g⟩
  match g.role with
  | .ld => 0
  | .st => 1
  | .cm => 2

/-- A candidate has waited 4096 or more clocks (R324). -/
def aged (s : State) (t : ThreadId) : Bool := decide ((threadOf s t).since + 4096 ≤ s.clock)

/-- The helpers of a context have all delivered: it has its trace end before it (R274). -/
def hasDelivered (s : State) (t : ThreadId) : Bool :=
  t.h && (match serveOf s t with
    | none => false
    | some (sv, r) => sv.lanes.all fun p => ((r.helpers[p.2 - 1]?).map (·.st)) == some .delivered)

/-- One thread comes before another (R324): aged ones first, then the role class, the band, and the time since which each is ready. Helpers that
have delivered end their traces before all others, so that their lanes are idle again when their JOIN has completed (R409). DEDUCED, log 101. -/
def before (s : State) (x y : ThreadId) : Bool :=
  let a := threadOf s x
  let b := threadOf s y
  let ax := aged s x
  let ay := aged s y
  if hasDelivered s x != hasDelivered s y then hasDelivered s x else
  if ax != ay then ax
  else if ax then decide (a.since ≤ b.since)
  else if roleOf s x != roleOf s y then decide (roleOf s x < roleOf s y)
  else
    let bx := (bindOf s x.u x.g).band
    let by_ := (bindOf s y.u y.g).band
    if bx != by_ then decide (by_ < bx) else decide (a.since ≤ b.since)

/-- The first of some threads of a core in their order (R324). -/
def first (s : State) (ts : List ThreadId) : Option ThreadId :=
  ts.foldl (fun b t => match b with
    | none => some t
    | some x => if before s x t then some x else some t) none

/-- Threads each kept by a free choice: those whose operands have come by now; one that has aged is a candidate, and stays one (R324). -/
def timely : List ThreadId → State → List ThreadId × State
  | [], s => ([], s)
  | t :: ts, s =>
    let (b, s1) := takeBit s
    let (l, s2) := timely ts s1
    (if b || aged s t || hasDelivered s t then t :: l else l, s2)

/-- A thread that is no candidate has waited as one for no time (R324). -/
def stampWaits (s : State) : State :=
  { s with thr := s.thr.map fun p => if canIssue s p.1 && ! stillWaits s p.1 then p else (p.1, { p.2 with since := s.clock }) }

/-- The thread that issues next, on a core that is a free choice: the first of those of its threads whose operands have come (R324). -/
def choose (s : State) : Option ThreadId × State :=
  let ts := ready s
  let cores := (ts.map fun t => (unitOf s t.u).core).dedup
  let (n, s1) := takeNat s
  let core := cores.getD (n % max cores.length 1) 0
  let mine := ts.filter fun t => (unitOf s t.u).core == core
  let (some_, s2) := timely mine s1
  (first s2 (if some_.isEmpty then mine else some_), s2)

/-- Run a turn for a thread, if it can issue. -/
def issueTurn (t : ThreadId) (s : State) : Host.Outcome State Fault Refusal :=
  if canIssue s t then runIssue (issueOf s t) s else .next s

end Sys2Proof.Machine
end

