-- ==== Sys2Proof/Machine/Arbiter.lean ====
section
/-! DEFINITION. One step of the device: the agenda's head, else an event of the device or an issue of a thread; then what follows by itself:
engine tables, saves and fences that are through, the clock and the counters (R51, R60, R254, R256, R262, R316, R324, R376, R378, R379). -/

namespace Sys2Proof.Machine

/-! ### Events that the device has of itself -/

/-- Events of the engines (R51, R52, R262, R264). -/
def engineEvents (s : State) : List Instr :=
  (s.copies.filter fun c => c.held && c.hold.isEmpty).map (fun c => .guardedCommandResolution c.id)
    ++ (s.mats.filter fun c => c.held && c.hold.isEmpty).map (fun c => .guardedCommandResolution c.id)
    ++ (s.copies.filter fun c => if c.finished then ! isOpenCopy s c else ! c.held && ! c.link && underWay s c).map
        (fun c => .copyCommandComplete c.id)
    ++ (s.mats.filter fun c => c.performed || (c.isFree && c.since.isSome)).map (fun c => .matrixCommandComplete c.id)
    ++ (((s.mats.map fun c => clusterOf c.core).dedup).filter fun cl =>
        (nextPart s cl).isSome || (engineFree s cl && (chooseGrant s cl).isSome)).map (fun cl => .matrixEngineGrant cl)

/-- Events of cores: committed writes to be performed, the Sluice, GROW (R56, R57, R80, R92). -/
def coreEvents (s : State) : List Instr :=
  let cores := ((s.units.filter fun p => p.2.status != .done && p.2.status != .saved).map fun p => p.2.core).dedup
  ((s.wq.mapIdx fun k e => (k, e)).filter fun p => mayPerform (s.wq.take p.1) p.2 (s.wq.drop (p.1 + 1))).map (fun p => .accessPerformed p.2.core p.1)
    ++ ((s.units.map (·.1)).filter fun u => sluiceReady s u).map (fun u => .sluiceRelease u)
    ++ (cores.filter fun c => match growReqs s c with
        | [] => false
        | r :: _ => mayGrow s c r).map (fun c => .growGrant c)
    ++ (cores.filter fun c => coreStuck s c).map (fun c => .growStuckDenial c)

/-- The unit of a launch that may be dispatched, and the lowest core that takes it (R315). DEDUCED, log 44. -/
def dispatchEvent (s : State) (p : Nat × Launch) : Option Instr :=
  if p.2.state != .running then none
  else (List.range Config.cores).findSome? fun c => if outranked s p.1 c p.2 then none
    else (nextUnit s p.1 c p.2).map fun i => .unitDispatch p.1 i c

/-- Events of the scheduler (R307, R311, R312, R315, R316). -/
def schedEvents (s : State) : List Instr :=
  (s.ctxs.filter fun p => p.2.gload.isSome).map (fun p => .graphLoadComplete p.1)
    ++ (s.trigs.filter fun t => ! t.running && ! s.trigs.any fun x => x.gid == t.gid && x.running).map (fun t => .triggerBegin t.ctx t.gid)
    ++ (s.launches.filter fun p => (p.2.state == .waiting || (p.2.state == .filling && mayProceed s p.1 p.2))
          && mayStart s p.1 p.2).map (fun p => .launchStart p.2.gid p.2.node)
    ++ s.launches.filterMap (dispatchEvent s)
    ++ ((s.units.map (·.1)).filter fun u => mayDeschedule s u).map (fun u => .unitDeschedule u)

/-- Events of contexts and of the firmware (R335, R338, R348, R353). -/
def ctxEvents (s : State) : List Instr :=
  (s.ctxs.filter fun p => p.2.state == .saving && saveReady s p.1).map (fun p => .preemptSaveComplete p.1)
    ++ (s.ctxs.filter fun p => p.2.state == .restoring && (savedOf s p.1).isEmpty).map (fun p => .resumeComplete p.1)
    ++ (s.ctxs.filter fun p => p.2.invbusy && ! invalPending s p.1).map (fun p => .invalComplete p.1)
    ++ (s.parks.filter fun p => p.thread.isSome && p.seq == 0).map (fun p => .firmwarePageGrow p.id)

/-- Blocks of links that have something to send (R356, R359). -/
def linkEvents (s : State) : List Instr :=
  ((List.range 12).filter fun l => receives s l && ((linkOf s l).nakDue || ! (linkOf s l).resend.isEmpty || carries s l
    || s.replies.any fun p => p.1 == l)).map (fun l => .carrBlockTransmit l)

/-- Waits at a monitor whose limit in arithmetic clocks has run out (R86); those of the engines run out by themselves (R254, R256).
DESIGN CHOICE, log 8. -/
def limitEvents (s : State) : List Instr :=
  s.thr.filterMap fun p => match p.2.wait with
    | .monitor since none => if since + 65536 ≤ s.clock then some (.waitmonTimerExpiry p.1) else none
    | _ => none

/-- Limits in wall-clock time that may run out (R316, R326): how it passes against the steps is free. DESIGN CHOICE, log 8. -/
def lapses (s : State) : List Instr :=
  ((s.units.filter fun p => wdogCounts s p.1).map fun p => .watchdogExpiry p.1)
    ++ (s.units.filter fun p => p.2.status == .resident && (bindOf s p.1 0).mode == 1 && ! p.2.quantumUp).map fun p => .quantumExpiry p.1

/-- The events that are due. DESIGN CHOICE, log 8. -/
def dueEvents (s : State) : List Instr :=
  engineEvents s ++ coreEvents s ++ schedEvents s ++ ctxEvents s ++ linkEvents s ++ limitEvents s

/-- The limits that run out when nothing else happens (R86, R254, R256). -/
def timeouts (s : State) : List Instr :=
  (s.mats.filterMap fun c => if ! c.seeks then none else match c.kind with
    | .mmap _ _ => some (.pairWaitExpiry c.id)
    | .mma _ true => some (.cooperativeMatchTimeout c.id)
    | _ => none)
    ++ s.thr.filterMap fun p => match p.2.wait with
      | .monitor _ none => some (.waitmonTimerExpiry p.1)
      | _ => none

/-! ### What follows a step -/

/-- A gang that has the baton again waits for it no longer (R266). -/
def settleBatons (s : State) : State :=
  { s with gangs := s.gangs.map fun p =>
      if p.2.rebaton && s.baton.any (fun b => b.2 == p.1) then (p.1, { p.2 with rebaton := false }) else p }

/-- A counter's context and tag take in a gang (R378). -/
def Counter.takes (c : Counter) (s : State) (g : GangId) : Bool :=
  (! c.sel.getLsbD 14 || (c.sel.extractLsb' 10 4).toNat == (gangOf s g).evtag.toNat)
    && (! c.sel.getLsbD 29 || (c.sel.extractLsb' 16 13).toNat == (unitOf s g.u).ctx)

/-- Guarded commands that are held, each at the head of its core's queue: the gang (R51, R379). -/
def heldHeads (s : State) (core : Nat) : List GangId :=
  let cp := (s.copies.filter fun c => c.core == core && ! c.link && ! c.finished).take 1
  let lk := (s.copies.filter fun c => c.core == core && c.link && ! c.finished).take 1
  let mx := (s.mats.filter fun c => c.core == core && ! c.table).take 1
  ((cp ++ lk).filter (·.held)).map (fun c => ⟨c.u, c.g⟩) ++ (mx.filter (·.held)).map fun c => ⟨c.u, c.g⟩

/-- Memory may be reached in a step: a word issues, engines or committed writes are under way, or contexts have work or code. -/
def atWork (s : State) : Bool :=
  s.cur.isSome || ! s.copies.isEmpty || ! s.mats.isEmpty || ! s.wq.isEmpty || ! s.launches.isEmpty || ! s.units.isEmpty || ! s.trigs.isEmpty
    || ! s.replies.isEmpty || ! s.modules.isEmpty || s.ctxs.any fun p => p.2.gload.isSome

/-- A source whose number the model does not follow may occur in a step on a core: the vector ALU is busy with an instruction, a guarded
command is held at a queue's head (R379). DESIGN CHOICE, log 7. -/
def coreOccurs (s : State) (core ev : Nat) (c : Counter) : Bool :=
  if ev = 0x02 then s.cur.any fun i => (unitOf s i.u).core == core && c.takes s i.gang
  else ev == 0x09 && (heldHeads s core).any fun g => c.takes s g

/-- A source whose number the model does not follow may occur in a step on a die: clocks of the L2, sectors of the L2, the channels, the
die links and CXL, symbols that a link corrects, which belong to no context (R378, R379). DESIGN CHOICE, log 7. -/
def dieOccurs (s : State) (die ev : Nat) (c : Counter) : Bool :=
  if ev = 0x00 then true
  else if ev ≤ 0x05 then atWork s
  else if ev = 0x09 then ! c.sel.getLsbD 29 && (List.range 12).any fun l => linkDie l == die && (linkOf s l).state.up
  else (ev == 0x0F || ev == 0x10) && atWork s && ! (s.cxl.get die {}).dead

/-- A counter of a core or die after some clocks: arithmetic clocks count as they pass, or, for one context or tag, as many of them as is a
free choice; a source that the model does not follow counts a free number where it may occur (R378, R379). -/
def Counter.tick (s : State) (isCore : Bool) (own clocks n : Nat) (c : Counter) : Counter :=
  let ev := (c.sel.extractLsb' 0 8).toNat
  if ! c.sel.getLsbD 8 then c
  else if isCore then
    if ev = 0 then c.add (if c.sel.getLsbD 14 || c.sel.getLsbD 29 then min n clocks else clocks)
    else if coreOccurs s own ev c then c.add (min n clocks) else c
  else if dieOccurs s own ev c then c.add n
  else c

/-- Counters after some clocks, each with a free number of its own; and whether one that asks for vector 3 has wrapped (R378). -/
def tickCounters (s : State) (isCore : Bool) (clocks : Nat) : Nat → Map (Nat × Nat) Counter → Map (Nat × Nat) Counter × Bool
  | _, [] => ([], false)
  | n, (k, c) :: cs =>
    let c' := c.tick s isCore k.1 clocks (Config.freeNat n)
    let (cs', v) := tickCounters s isCore clocks (n + 1) cs
    ((k, c') :: cs', v || (c.sel.getLsbD 9 && c'.ovf && decide (c'.count < c.count)))

/-- Time passes: at least one arithmetic clock, and what the counters of clocks see of it. DESIGN CHOICE, log 7. -/
def passTime (s : State) : State :=
  let (n, s1) := takeNat s
  let clocks := 1 + n
  let (cc, v1) := tickCounters s true clocks s1.free s1.coreCtr
  let (dc, v2) := tickCounters s false clocks (s1.free + cc.length) s1.dieCtr
  let s2 := { s1 with clock := s1.clock + clocks, coreCtr := cc, dieCtr := dc, free := s1.free + cc.length + dc.length }
  if v1 || v2 then raiseMsix 0 3 s2 else s2

/-- What follows a step by itself. -/
def aftermath (s : State) : State := passTime (stampWaits (progressCopies (startLinks (finishFences (finishSaves (tickEngines (settleBatons s)))))))

/-! ### One step -/

/-- An event of a list by a free choice. -/
def pick (l : List Instr) (s : State) : Option Instr × State :=
  let (n, s1) := takeNat s
  (l[n % max l.length 1]?, s1)

/-- The machine arbitrates by itself: whether a limit in wall-clock time runs out, an event or an issue comes is a free choice, where each may;
when no event and no issue may, the next limit runs out; else nothing happens. -/
def arbitrate (s : State) : Host.Outcome State Fault Refusal :=
  let (lapse, sl) := takeBit s
  let (eventFirst, s0) := takeBit sl
  let es := dueEvents s0
  let ls := lapses s0
  let (t, s1) := choose s0
  let event := fun (l : List Instr) (s : State) => match pick l s with
    | (some e, s') => exec e s'
    | (none, s') => .next s'
  if lapse && ! ls.isEmpty then event ls s1
  else match t with
    | some th => if eventFirst && ! es.isEmpty then event es s1 else issueTurn th s1
    | none => if es.isEmpty then event (timeouts s1 ++ ls) s1 else event es s1

/-- One step: the head of the agenda, else what the machine arbitrates; a device that is powered off makes no step (R380). DESIGN CHOICE, log 1. -/
def stepOnce (s : State) : Host.Outcome State Fault Refusal :=
  if s.off then .fault .poweredOff
  else
    let s0 := { s with cur := none }
    mapNext aftermath (match s0.agenda with
      | .event i :: rest => exec i { s0 with agenda := rest }
      | .issue t :: rest => issueTurn t { s0 with agenda := rest }
      | [] => arbitrate s0)

end Sys2Proof.Machine
end

