-- ==== Sys2Proof/Machine/Place.lean ====
section
/-! DEFINITION. Standing for the load of a program: one instruction laid where the next step fetches it, in a unit of its own, number 0,
which the device never gives (R9, R13, R29, R129, R302, R331). -/

namespace Sys2Proof.Machine

/-- The thread that runs a word that is placed: slice 0 of gang 0 of unit 0, or its helper context. -/
def hostThread (h : Bool) : ThreadId := ⟨0, 0, 0, h⟩

/-- Virtual and physical address of the words of a head that is placed. -/
def placeCode : Nat := 0x40000000

/-- Physical address of the level-3 table that maps them; the level-2 table follows at twice that. -/
def placeRoot : Nat := 0x10000

/-- Instructions that only a helper context runs (R270, R271). -/
def forHelper : Instr → Bool
  | .hread _ _ => true
  | .hret _ _ => true
  | .hend => true
  | _ => false

/-- The unit that runs a word that is placed: one gang of one slice, with every register, on core 0. DESIGN CHOICE, log 9. -/
def placeUnit (s : State) : State :=
  let b : Bind := { valid := true, regN := 32, regMax := 32, stkSize := 4, stkBase := 0x100000000, spillBase := 0x140000000, scrSize := 512 }
  { s with units := s.units.set 0 { core := 0, slots := [0], binds := [b] },
           gangs := s.gangs.set ⟨0, 0⟩ {}, slices := s.slices.set ⟨0, 0, 0⟩ { nreg := 256 } }

/-- The helper record that a helper's word reads (R272). -/
def placeRecord (s : State) : State :=
  modGang ⟨0, 0⟩ (fun g => { g with recs := [(0, ⟨0, 1, placeCode, [0, 0, 0, 0, 0, 0, 0, 0], List.replicate 64 0, [⟨0, 0, .running, none⟩], 0⟩)] })
    { s with serve := s.serve.set ⟨0, 0, 0⟩ ⟨0, 0, [(0, 1)]⟩ }

/-- A word of a trace is placed as the word that its thread comes to, the trace's words having been fetched (R129); a word of the settled
part stands after SETTLE. -/
def placeBody (i : Instr) (w : DWord) (s : State) : State :=
  let h := forHelper i
  let th : Thread := { pos := .body 1, mask := if h then 1 else 0xF, head := if h then 1 else 0xF, tr := placeCode,
                       words := [0x0140000000000000, w, 0x0B12121212000000], stages := 32, settled := i.place == .settled }
  let s1 := placeUnit s
  let s2 := if h then placeRecord s1 else s1
  { s2 with thr := s2.thr.set (hostThread h) th, agenda := .issue (hostThread h) :: s2.agenda }

/-- The bytes of a word at a physical address. -/
def wordCells (pa : Nat) (w : Nat) : List Host.Cell := cellsOf ((List.range 8).map (pa + ·)) (leBytes 8 w)

/-- A TRACE, MERGE or REGANG word is placed in memory, where page tables map it and a directory lists it: its table's words are 0, and the
trace holds its guards and ends with EXIT (R29, R126, R302, R331). -/
def placeHead (i : Instr) (w : DWord) (s : State) : State :=
  let gd := match i with
    | .trace _ g => g.toNat
    | _ => 0
  let guards := (List.range gd).map fun k => ((encode (.guard true (BitVec.ofNat 3 k) .zero)).getD 0).toNat
  let words := [w.toNat] ++ List.replicate gd 0 ++ guards ++ [((encode .exit).getD 0).toNat]
  let cells := wordCells placeRoot (2 * placeRoot + 1) ++ wordCells (2 * placeRoot + 8) (placeCode + 0xCF)
    ++ (words.mapIdx fun k x => wordCells (placeCode + 8 * k) x).flatten
  let m : LoadedModule :=
    { ctx := 0, code := placeCode, data := 0, nwords := words.length, digest := [], dir := [(0, 0, false)], toks := [], matrix := false,
      kernels := [], exports := [], image := [] }
  let s1 := placeUnit s
  { s1 with mem := s1.mem.writeAll cells, modules := m :: s1.modules,
            ctxs := s1.ctxs.modify 0 {} (fun c => { c with ptroot := BitVec.ofNat 64 (placeRoot + 1) }),
            thr := s1.thr.set (hostThread false) { pos := .head placeCode, mask := 0xF, head := 0xF },
            agenda := .issue (hostThread false) :: s1.agenda }

/-- The state with an instruction, as the opcode table numbers its bits, where the next step fetches it; a word that does not decode is
placed in the trace too. DESIGN CHOICE, log 9. -/
def placeWord (s : State) (nbits w : Nat) : State :=
  let x := BitVec.ofNat 64 (w % 2 ^ nbits)
  let s0 := { s with off := false }
  match decodeWord x with
  | .ok i => match i.place with
    | .head => placeHead i x s0
    | .alone => placeHead i x s0
    | _ => placeBody i x s0
  | .error _ => placeBody .nop x s0

end Sys2Proof.Machine
end

