-- ==== Sys2Proof/Machine/Step.lean ====
section
/-! DEFINITION. One step of the machine, and the placing of an instruction where a step fetches it; both stand in Machine/Arbiter.lean and
Machine/Place.lean. -/

namespace Sys2Proof.Machine

/-- One step. DESIGN CHOICE, log 1. DEDUCED, log 72. DESIGN CHOICE, log 73. -/
def step (s : State) : Host.Outcome State Fault Refusal := stepOnce s

/-- The state with an instruction where its next step fetches it. DESIGN CHOICE, log 9. -/
def State.withFetchWord (s : State) (nbits w : Nat) : State := placeWord s nbits w

end Sys2Proof.Machine
end

