-- ==== Sys2Proof/Machine/Ordering.lean ====
section
/-! DEFINITION. The ordering axioms as a decidable test of a candidate execution (R67 to R84): events, the relations between them, and the
axioms. The machine's steps perform accesses in one order; what a program may rely on is what every allowed execution shows. -/

namespace Sys2Proof.Machine

/-- The access path of an event (R69, R75). -/
inductive OPath where
  /-- Load and store. -/
  | ls
  /-- Copy engine. -/
  | cp
  /-- Matrix engine. -/
  | mx
  /-- Link engine. -/
  | lk
  deriving DecidableEq, Repr, Inhabited

/-- A synchronisation object (R70). -/
inductive OObj where
  /-- An aligned 8-byte word. -/
  | word (a : Nat)
  /-- The context object. -/
  | context
  /-- The scratchpad object of a unit. -/
  | pad (u : Nat)
  deriving DecidableEq, Repr, Inhabited

/-- The space that a byte lies in (R70): global, stack, a unit's scratchpad, or the operand buffer under a record of a unit. -/
inductive OPlace where
  | glob
  | stack
  | scratch (u : Nat)
  | opbuf (u : Nat)
  deriving DecidableEq, Repr, Inhabited

/-- A region of the binding table (R70): its bytes, and the word that is its object. -/
structure ORegion where
  base : Nat
  len : Nat
  word : Nat
  deriving DecidableEq, Repr, Inhabited

/-- One event (R67): the lane that has it, its path, its place in the lane's program order, and what it does. RECRUIT, HEND and JOIN stand
among the events for their places (R280). -/
structure OEv where
  lane : Nat
  /-- The gang of the lane, by whose places its lanes' events stand one after another. -/
  gang : Nat := 0
  path : OPath := .ls
  pos : Nat
  /-- Bytes read and bytes written; an event with both is a read-modify-write. -/
  reads : List Nat := []
  writes : List Nat := []
  /-- The elements that it accesses: address and width in bytes (R82). -/
  els : List (Nat × Nat) := []
  /-- The trace issue whose body it stands in, or whose memory commit it is (R68). -/
  issue : Option Nat := none
  /-- It is a release or an acquire of an object (R72). -/
  rel : Option OObj := none
  acq : Option OObj := none
  /-- The scratch word through which it acts on the scratchpad object (R70). -/
  via : Nat := 0
  /-- Instance of a barrier that it arrives at or departs from (R74). -/
  inst : Option Nat := none
  /-- It is an XFENCE of two paths (R76). -/
  cross : Option (OPath × OPath) := none
  /-- The engine events whose completion it is: those of a synchronous matrix command and of its gang's earlier ones, or of the batch
  whose token it reads (R77, R263). -/
  done : List Nat := []
  /-- It is a helper's: the RECRUIT that recruited it; it is the HEND of a helper whose record a JOIN takes (R280). -/
  helps : Option Nat := none
  join : Option Nat := none
  deriving DecidableEq, Repr, Inhabited

/-- A candidate execution: events by number, and the relations that the events do not determine (R69). DEDUCED, log 67. -/
structure OExec where
  events : List OEv
  /-- For each byte, its writes in coherence order; the initial value comes before them. -/
  co : List (Nat × List Nat)
  /-- For a read and a byte, the write that it reads from; the initial value where none is listed. -/
  rf : List ((Nat × Nat) × Nat)
  /-- Releases and acquires of the context object in their order. -/
  cx : List Nat := []
  /-- Bytes that do not lie in the global space. -/
  places : List (Nat × OPlace) := []
  /-- The binding table by index, and what it is at a write's event where BIND or UNBIND has changed it (R70, R71). -/
  table : List ORegion := []
  rebound : List (Nat × List ORegion) := []
  /-- Pairs of events whose agents do not both lie within the scopes of the data and of the object (R80). -/
  apart : List (Nat × Nat) := []
  deriving DecidableEq, Repr, Inhabited

namespace OExec

/-- An event by its number. -/
def ev (x : OExec) (i : Nat) : OEv := x.events.getD i { lane := 0, pos := 0 }

/-- The numbers of the events. -/
def ids (x : OExec) : List Nat := List.range x.events.length

/-- A relation as its list of pairs. -/
def pairs (x : OExec) (r : Nat → Nat → Bool) : List (Nat × Nat) :=
  x.ids.flatMap fun i => (x.ids.filter fun j => r i j).map fun j => (i, j)

/-- One round of composing a relation with itself. -/
def compose (r : List (Nat × Nat)) : List (Nat × Nat) :=
  r ++ (r.flatMap fun p => (r.filter fun q => q.1 == p.2).map fun q => (p.1, q.2)).filter fun p => ! r.contains p

/-- The transitive closure within a number of rounds. -/
def close : Nat → List (Nat × Nat) → List (Nat × Nat)
  | 0, r => r
  | k + 1, r => let r' := compose r; if r'.length = r.length then r else close k r'.dedup

/-- The closure of a relation over the events. -/
def plus (x : OExec) (r : Nat → Nat → Bool) : List (Nat × Nat) := close x.events.length (x.pairs r)

/-- A relation has no cycle. -/
def acyclic (x : OExec) (r : Nat → Nat → Bool) : Bool := (x.plus r).all fun p => p.1 != p.2

/-- Program order (R69). -/
def po (x : OExec) (i j : Nat) : Bool := (x.ev i).lane == (x.ev j).lane && decide ((x.ev i).pos < (x.ev j).pos)

/-- Path-preserved program order (R69). -/
def ppo (x : OExec) (i j : Nat) : Bool := x.po i j && (x.ev i).path == (x.ev j).path

/-- The writes of a byte in coherence order. -/
def order (x : OExec) (b : Nat) : List Nat := ((x.co.find? fun p => p.1 == b).map (·.2)).getD []

/-- Coherence order of two writes of a byte. -/
def coB (x : OExec) (b i j : Nat) : Bool :=
  match (x.order b).idxOf? i, (x.order b).idxOf? j with
  | some m, some n => decide (m < n)
  | _, _ => false

/-- The write that a read of a byte reads from; none for the initial value. -/
def source (x : OExec) (q b : Nat) : Option Nat := (x.rf.find? fun p => p.1 == (q, b)).map (·.2)

/-- Reads-from at a byte. -/
def rfB (x : OExec) (b w q : Nat) : Bool := (x.ev q).reads.contains b && x.source q b == some w

/-- The value that a read of a byte takes is older than a write (R69). -/
def olderThan (x : OExec) (b q w : Nat) : Bool :=
  match x.source q b with
  | none => (x.ev w).writes.contains b
  | some v => x.coB b v w

/-- From-read at a byte. -/
def frB (x : OExec) (b q w : Nat) : Bool := q != w && (x.ev q).reads.contains b && x.olderThan b q w

/-- The space of a byte. -/
def placeOf (x : OExec) (b : Nat) : OPlace := ((x.places.find? fun p => p.1 == b).map (·.2)).getD .glob

/-- The byte lies in a scratchpad or in the operand buffer. -/
def inPad (x : OExec) (b : Nat) : Bool :=
  match x.placeOf b with
  | .scratch _ => true
  | .opbuf _ => true
  | _ => false

/-- The binding table at an event (R71). -/
def tableAt (x : OExec) (w : Nat) : List ORegion := ((x.rebound.find? fun p => p.1 == w).map (·.2)).getD x.table

/-- The object to which a byte is bound at a write's event (R70): the region of the lowest index decides. -/
def objOf (x : OExec) (w b : Nat) : OObj :=
  match x.placeOf b with
  | .glob => match (x.tableAt w).find? fun r => decide (r.base ≤ b) && decide (b < r.base + r.len) with
    | some r => .word r.word
    | none => .context
  | .stack => .context
  | .scratch u => .pad u
  | .opbuf u => .pad u

/-- The byte through which an event synchronises on an object: the word itself, or the scratch word that the event names (R70). -/
def through (x : OExec) (o : OObj) (i : Nat) : Nat :=
  match o with
  | .word a => a
  | _ => (x.ev i).via

/-- A release synchronises with an acquire of the same object (R73, R74, R80). -/
def swO (x : OExec) (o : OObj) (r q : Nat) : Bool :=
  (x.ev r).rel == some o && (x.ev q).acq == some o && ! x.apart.contains (r, q) &&
    match (x.ev r).inst, (x.ev q).inst with
    | some m, some n => m == n
    | none, none => (match o with
      | .context => (match x.cx.idxOf? r, x.cx.idxOf? q with
        | some m, some n => decide (m < n)
        | _, _ => false)
      | _ => x.through o r == x.through o q && (match x.source q (x.through o q) with
        | none => false
        | some v => v == r || x.coB (x.through o q) r v))
    | _, _ => false

/-- Synchronises-with, on any object. -/
def sw (x : OExec) (r q : Nat) : Bool :=
  match (x.ev r).rel with
  | none => false
  | some o => x.swO o r q

/-- An XFENCE of two paths stands between (R76). -/
def xfFence (x : OExec) (i j : Nat) : Bool :=
  x.ids.any fun k => match (x.ev k).cross with
    | none => false
    | some (p, q) => x.po i k && x.po k j && (x.ev i).path == p && (x.ev j).path == q

/-- All that an event accesses lies in single-homed spaces (R77). -/
def padOnly (x : OExec) (i : Nat) : Bool := ((x.ev i).reads ++ (x.ev i).writes).all x.inPad

/-- A completion stands between: of a batch whose token is read, or of a synchronous matrix command. It orders accesses to the
single-homed spaces before every later event of the gang, and matrix commands before its later ones (R77, R263). -/
def xfDone (x : OExec) (i j : Nat) : Bool :=
  x.ids.any fun k => (x.ev k).done.contains i && (x.ev k).gang == (x.ev j).gang && decide ((x.ev k).pos < (x.ev j).pos)
    && (x.padOnly i || ((x.ev i).path == .mx && (x.ev j).path == .mx))

/-- A command of an engine that copies or computes comes after the writes to single-homed spaces that its lane has committed (R77). -/
def xfHome (x : OExec) (i j : Nat) : Bool :=
  x.po i j && (x.ev i).path == .ls && ! (x.ev i).writes.isEmpty && x.padOnly i && ((x.ev j).path == .cp || (x.ev j).path == .mx)

/-- A recruitment's edges, on the load and store path: from RECRUIT to its helpers, and from a delivered helper's HEND and writes to what
follows the JOIN (R280). -/
def xfHelp (x : OExec) (i j : Nat) : Bool :=
  (x.ev j).path == .ls && ((x.ev j).helps == some i || x.ids.any fun h => match (x.ev h).join with
    | none => false
    | some k => x.po k j && (h == i || ((x.ev i).lane == (x.ev h).lane && (x.ev i).helps == (x.ev h).helps && (x.ev i).path == .ls
        && ! (x.ev i).writes.isEmpty && decide ((x.ev i).pos ≤ (x.ev h).pos))))

/-- Cross-path fence order (R76, R77, R263, R280). DEDUCED, log 67. -/
def xf (x : OExec) (i j : Nat) : Bool := x.xfFence i j || x.xfDone i j || x.xfHome i j || x.xfHelp i j

/-- Happens-before (R78). -/
def hb (x : OExec) : List (Nat × Nat) := x.plus fun i j => x.ppo i j || x.sw i j || x.xf i j

/-- The chains that make writes bound to an object visible (R79). -/
def chains (x : OExec) (o : OObj) : List (Nat × Nat) := x.plus fun i j => x.ppo i j || x.xf i j || x.swO o i j

/-- A write is visible to a read at a byte (R79, R80). -/
def vis (x : OExec) (b w q : Nat) : Bool :=
  (x.ev w).writes.contains b && (x.ev q).reads.contains b && ! x.apart.contains (w, q) && (x.chains (x.objOf w b)).contains (w, q)

/-- The bytes that events touch. -/
def bytes (x : OExec) : List Nat := (x.events.flatMap fun e => e.reads ++ e.writes).dedup

/-- The relations fit the events: coherence order holds each write of a byte once, a read reads from a write of its byte, and the context
order holds each of its releases and acquires once (R69). -/
def wellMade (x : OExec) : Bool :=
  (x.bytes.all fun b => (x.order b).dedup.length == (x.order b).length
      && x.ids.all fun i => (x.ev i).writes.contains b == (x.order b).contains i)
    && x.rf.all (fun p => (x.ev p.1.1).reads.contains p.1.2 && (x.ev p.2).writes.contains p.1.2)
    && x.cx.dedup.length == x.cx.length
    && x.ids.all fun i => ((x.ev i).rel == some .context || (x.ev i).acq == some .context) == x.cx.contains i

/-- The read returns its lane's own buffered store: it reads from the lane's commit of the same trace, which comes later (R38, R68). -/
def ownRead (x : OExec) (q c : Nat) : Bool := (x.ev q).issue.isSome && (x.ev q).issue == (x.ev c).issue && x.ppo q c

/-- Reads-from at a byte, but for reads of a lane's own buffered stores, which R68 orders before the commit that they read from: R81 and R84
as they stand would forbid them. DESIGN CHOICE, log 107. -/
def rfOut (x : OExec) (b w q : Nat) : Bool := x.rfB b w q && ! x.ownRead q w

/-- Coherence (R81): per byte no cycle, nothing stale after visibility, nothing from the future. DESIGN CHOICE, log 107. -/
def coherent (x : OExec) : Bool :=
  (x.bytes.all fun b => x.acyclic fun i j =>
      (x.ppo i j && ((x.ev i).reads ++ (x.ev i).writes).contains b && ((x.ev j).reads ++ (x.ev j).writes).contains b)
        || x.rfOut b i j || x.coB b i j || x.frB b i j)
    && (x.bytes.all fun b => x.ids.all fun w => x.ids.all fun q => ! (x.vis b w q && w != q && x.olderThan b q w))
    && (x.bytes.all fun b => x.ids.all fun q => (match x.source q b with
      | none => true
      | some v => x.ownRead q v || ! x.hb.contains (q, v)))

/-- No write comes between the read and the write of a read-modify-write (R82). -/
def rmwWhole (x : OExec) : Bool :=
  x.ids.all fun m => ((x.ev m).reads.filter fun b => (x.ev m).writes.contains b).all fun b =>
    x.ids.all fun w => w == m || ! (x.olderThan b m w && x.coB b w m)

/-- The bytes of one event stand on one side of every other write (R83). -/
def commitsWhole (x : OExec) : Bool :=
  x.ids.all fun c => x.ids.all fun d => c == d || ! ((x.bytes.any fun b => x.coB b c d) && x.bytes.any fun b => x.coB b d c)

/-- The commits of one trace issue stand in ascending lane order at every byte they share (R68). -/
def lanesInOrder (x : OExec) : Bool :=
  x.ids.all fun c => x.ids.all fun d => ! ((x.ev c).issue.isSome && (x.ev c).issue == (x.ev d).issue && decide ((x.ev c).lane < (x.ev d).lane))
    || x.bytes.all fun b => ! ((x.ev c).writes.contains b && (x.ev d).writes.contains b) || x.coB b c d

/-- The bytes of a naturally aligned element, or of an aligned half of one of 16 bytes, which are accessed as one (R82). -/
def wholes (e : Nat × Nat) : List (List Nat) :=
  let run := fun (a n : Nat) => (List.range n).map (a + ·)
  if e.2 = 16 then (if e.1 % 8 = 0 then [run e.1 8, run (e.1 + 8) 8] else [])
  else if [1, 2, 4, 8].contains e.2 && e.1 % e.2 == 0 then [run e.1 e.2] else []

/-- No aligned element is torn (R82): two writes that share bytes of one stand in one order at all of them, and a read takes all the bytes
that it shares with a write from before it, or none. -/
def untorn (x : OExec) : Bool :=
  x.ids.all fun i => x.ids.all fun w => i == w ||
    ((x.ev i).els.flatMap wholes).all fun e => ((x.ev w).els.flatMap wholes).all fun f =>
      let both := e.filter f.contains
      let reads := both.filter fun b => (x.ev i).reads.contains b && (x.ev w).writes.contains b
      let writes := both.filter fun b => (x.ev i).writes.contains b && (x.ev w).writes.contains b
      ((reads.all fun b => x.olderThan b i w) || reads.all fun b => ! x.olderThan b i w)
        && ((writes.all fun b => x.coB b i w) || writes.all fun b => x.coB b w i)

/-- Program order on each path and reads-from have no cycle (R84). DESIGN CHOICE, log 107. -/
def noLoadBuffering (x : OExec) : Bool := x.acyclic fun i j => x.ppo i j || x.bytes.any fun b => x.rfOut b i j

/-- No event happens before itself, and the context order agrees with happens-before (R69, R78). -/
def ordered (x : OExec) : Bool :=
  x.hb.all fun p => p.1 != p.2 && (match x.cx.idxOf? p.1, x.cx.idxOf? p.2 with
    | some m, some n => decide (m < n)
    | _, _ => true)

/-- An execution that the ordering model allows. -/
def allowed (x : OExec) : Bool :=
  x.wellMade && x.coherent && x.rmwWhole && x.commitsWhole && x.lanesInOrder && x.untorn && x.noLoadBuffering && x.ordered

end OExec

end Sys2Proof.Machine
end

