-- ==== Sys2Proof/Safety.lean ====
section
/-! DEFINITION. The terms in which statements speak: an issue in hand, what a computing instruction leaves, the canonical form of memories, and
that a step goes on. -/

namespace Sys2Proof.Machine

/-- Every memory of the state is in its canonical form. -/
def memoriesOk (s : State) : Bool :=
  s.mem.wf && (s.scr.all fun p => p.2.wf) && (s.opbuf.all fun p => p.2.wf)

/-- A step gives a next state: the device neither stops nor refuses. -/
def goesOn (s : State) : Prop := ∃ t, step s = .next t

/-- A map lists each key once. -/
def KeysOnce {κ α : Type} (m : Map κ α) : Prop := (m.map (·.1)).Nodup

/-! ### An issue in hand -/

/-- An issue is in hand: it names slices of a gang in rising order, each once, and has an active lane (R9, R10, R46). -/
structure Runs (s : State) (iss : Issue) : Prop where
  cur : s.cur = some iss
  rising : iss.js.Pairwise (· < ·)
  slices : ∀ j ∈ iss.js, j < 8
  active : issueLanes s iss ≠ []

/-- Gang registers that are read or written await no token, and those read are not poisoned (R233, R347). -/
structure Clear (s : State) (g : GangId) (reads writes : List Nat) : Prop where
  tokens : ∀ n ∈ reads ++ writes, tokenPending s g n = false
  poison : ∀ n ∈ reads, (⟨g, n⟩ : Ix GangId) ∉ s.gpoi

/-- Every thread of the issue has gone on to its next word, no other thread has changed, and nothing else has. -/
structure WentOn (m t : State) (iss : Issue) : Prop where
  rest : t = { m with thr := t.thr }
  threads : ∀ x, threadOf t x = if x ∈ iss.threads then (threadOf m x).step else threadOf m x

/-- An instruction gives a next state: the threads of the issue have gone on from a state `m`. -/
def GoesOn (i : Instr) (s m : State) (iss : Issue) : Prop := ∃ t, exec i s = .next t ∧ WentOn m t iss

/-- An echo of a lane after results have entered its echo file, the last of them the newest (R115). -/
def echoAfter (s : State) (r : LaneRef) (es : List Word) (k : Nat) : Word :=
  (es.reverse ++ [echo s r 0, echo s r 1, echo s r 2, echo s r 3]).getD k 0

/-- Every lane of each issuing slice that has an active lane (R166). -/
def wholeSlices (s : State) (iss : Issue) : List LaneRef :=
  iss.threads.flatMap fun x => if (threadOf s x).mask = 0 then [] else threadLanes x

/-- The state in which a uniform result is written: a write of a gang register in the settled part is a commit point (R36, R53). -/
def uniformStart (s : State) (iss : Issue) (d : Opnd) : State := if d.isGang && isSettled s iss then commit iss s else s

/-- The values of sources in a lane, each read at its size and in the type of its constants (R113 to R116). -/
def sources (s : State) (r : LaneRef) (srcs : List (Opnd × Size × KType)) : List DWord :=
  srcs.map fun p => srcW s r p.2.2 p.2.1 p.1

/-! ### What a computing instruction leaves -/

/-- Lane by lane: the active lanes' destination slots hold their results and are dirty, the results have entered their echo files, zeros have
entered those of the issuing slices' other lanes, and nothing else has changed (R31, R115, R166). -/
structure LaneResult (s t : State) (iss : Issue) (d : Opnd) (f : LaneRef → Res) : Prop where
  rest : t = { s with slot := t.slot, dirty := t.dirty, echo := t.echo }
  dst : ∀ r ∈ issueLanes s iss, ∀ n, d = .slot n → ∀ k w, (f r).d[k]? = some w →
    slot t r (n.toNat + k) = w ∧ isDirty t r (n.toNat + k) = true
  keep : ∀ r m, (∀ n, d = .slot n → r ∈ issueLanes s iss → ¬ (n.toNat ≤ m ∧ m < n.toNat + (f r).d.length)) →
    slot t r m = slot s r m ∧ isDirty t r m = isDirty s r m
  echoes : ∀ r ∈ issueLanes s iss, ∀ k < 4, echo t r k = echoAfter s r (f r).e k
  idle : ∀ r ∈ idleLanes s iss, ∀ r' ∈ issueLanes s iss, ∀ k < 4, echo t r k = echoAfter s r (List.replicate (f r').e.length 0) k
  others : ∀ r, r ∉ issueLanes s iss → r ∉ idleLanes s iss → ∀ k, echo t r k = echo s r k

/-- Once for the issue: the gang registers hold the result, it has entered the echo file of every lane of each issuing slice with an active
lane, and nothing else has changed (R166). -/
structure UniResult (s t : State) (iss : Issue) (d : Opnd) (x : Res) : Prop where
  rest : t = { s with greg := t.greg, gpoi := t.gpoi, echo := t.echo }
  dst : ∀ n, d = .gang n → ∀ k w, x.d[k]? = some w → greg t iss.gang (n.toNat + k) = w ∧ (⟨iss.gang, n.toNat + k⟩ : Ix GangId) ∉ t.gpoi
  keep : ∀ g m, (∀ n, d = .gang n → ¬ (g = iss.gang ∧ n.toNat ≤ m ∧ m < n.toNat + x.d.length)) → greg t g m = greg s g m ∧
    ((⟨g, m⟩ : Ix GangId) ∈ t.gpoi ↔ (⟨g, m⟩ : Ix GangId) ∈ s.gpoi)
  echoes : ∀ r ∈ wholeSlices s iss, ∀ k < 4, echo t r k = echoAfter s r x.e k
  others : ∀ r, r ∉ wholeSlices s iss → ∀ k, echo t r k = echo s r k

/-- An instruction gives a next state: from a state `s1` each active lane receives its result, and the threads go on. -/
def GivesLanes (i : Instr) (s s1 : State) (iss : Issue) (d : Opnd) (f : LaneRef → Res) : Prop :=
  ∃ m t, exec i s = .next t ∧ LaneResult s1 m iss d f ∧ WentOn m t iss

/-- An instruction gives a next state: from a state `s1` the issue receives its one result, and the threads go on. -/
def GivesUniform (i : Instr) (s s1 : State) (iss : Issue) (d : Opnd) (x : Res) : Prop :=
  ∃ m t, exec i s = .next t ∧ UniResult s1 m iss d x ∧ WentOn m t iss

/-- Words that the active lanes write, one after the other, to the gang register that the destination names, if it names one, which keeps that
of the highest: each enters its lane's echo file, zeros enter those of the issuing slices' other lanes, and nothing else has changed (R12,
R115). -/
structure StatusResult (s t : State) (iss : Issue) (d : Opnd) (f : LaneRef → Word) : Prop where
  rest : t = { s with greg := t.greg, gpoi := t.gpoi, echo := t.echo }
  dst : ∀ n, d = .gang n → ∀ r, (issueLanes s iss).getLast? = some r →
    greg t iss.gang n.toNat = f r ∧ (⟨iss.gang, n.toNat⟩ : Ix GangId) ∉ t.gpoi
  keep : ∀ g m, (∀ n, d = .gang n → ¬ (g = iss.gang ∧ m = n.toNat)) → greg t g m = greg s g m ∧
    ((⟨g, m⟩ : Ix GangId) ∈ t.gpoi ↔ (⟨g, m⟩ : Ix GangId) ∈ s.gpoi)
  echoes : ∀ r ∈ issueLanes s iss, ∀ k < 4, echo t r k = echoAfter s r [f r] k
  idle : ∀ r ∈ idleLanes s iss, ∀ k < 4, echo t r k = echoAfter s r [0] k
  others : ∀ r, r ∉ issueLanes s iss → r ∉ idleLanes s iss → ∀ k, echo t r k = echo s r k

/-- A destination of a status: a gang register, or ZERO (R232, R248). -/
def isStatusDst (d : Opnd) : Prop := d = .zero ∨ ∃ n, d = .gang n

/-- An instruction gives a next state: from a state `s1` the issue writes a status, and the threads go on. -/
def GivesStatus (i : Instr) (s s1 : State) (iss : Issue) (d : Opnd) (v : Word) : Prop :=
  ∃ m t, exec i s = .next t ∧ StatusResult s1 m iss d (fun _ => v) ∧ WentOn m t iss

/-- An instruction computes a function of its sources in every active lane (R166). -/
def LaneForm (i : Instr) (d : Opnd) (dsz : Size) (srcs : List (Opnd × Size × KType)) (f : List DWord → Res) : Prop :=
  ∀ s iss, Runs s iss → Clear s iss.gang (gangRegs (srcs.map fun p => (p.1, p.2.1.regs))) (gangRegs [(d, dsz.regs)]) →
    GivesLanes i s s iss d fun r => f (sources s r srcs)

/-- An instruction computes a function of its sources once for its issue (R166). -/
def UniForm (i : Instr) (d : Opnd) (dsz : Size) (srcs : List (Opnd × Size × KType)) (f : List DWord → Res) : Prop :=
  ∀ s iss, Runs s iss → Clear s iss.gang (gangRegs (srcs.map fun p => (p.1, p.2.1.regs))) (gangRegs [(d, dsz.regs)]) →
    GivesUniform i s (uniformStart s iss d) iss d (f (sources s (uniRef iss) srcs))

/-- Both forms of an instruction: lane by lane where it writes no gang register, and uniform. -/
def Computes (i : Bool → Instr) (d : Opnd) (dsz : Size) (srcs : List (Opnd × Size × KType)) (f : List DWord → Res) : Prop :=
  (d.isGang = false → LaneForm (i false) d dsz srcs f) ∧ UniForm (i true) d dsz srcs f

/-- An instruction without a uniform form. -/
def ComputesLanes (i : Instr) (d : Opnd) (dsz : Size) (srcs : List (Opnd × Size × KType)) (f : List DWord → Res) : Prop :=
  d.isGang = false → LaneForm i d dsz srcs f

/-- The value of a source, by its place. -/
def arg (v : List DWord) (i : Nat) : DWord := v.getD i 0
/-- A 32-bit source as its word. -/
def argW (v : List DWord) (i : Nat) : Word := (arg v i).setWidth 32
/-- A 32-bit source read signed: sext(x, 32) of the manual's pseudocode (R165). -/
def sArg (v : List DWord) (i : Nat) : Int := (argW v i).toInt
/-- A 32-bit source read unsigned (R165). -/
def uArg (v : List DWord) (i : Nat) : Int := ((argW v i).toNat : Int)

/-- Bits [31:0] of an integer as a 32-bit result. -/
def low32 (x : Int) : Res := ⟨[BitVec.ofInt 32 x], [BitVec.ofInt 32 x]⟩
/-- Bits [63:0] of an integer as a 64-bit result: two registers, and two echoes, the low half first (R165). -/
def low64 (x : Int) : Res :=
  ⟨[BitVec.ofInt 32 x, BitVec.ofInt 32 (x / 2 ^ 32)], [BitVec.ofInt 32 x, BitVec.ofInt 32 (x / 2 ^ 32)]⟩
/-- Bits [31:0] of an integer, clamped first where .SAT is given: sat32 of the manual's pseudocode (R169). -/
def clamped (sat : Bool) (x : Int) : Res := if sat then low32 (max (-(2 ^ 31)) (min (2 ^ 31 - 1) x)) else low32 x

/-- The integer conditions of R139 and R172: the signed ones on the signed readings, the unsigned ones on the plain ones. -/
def holds (c : Cond) (x y ux uy : Int) : Bool :=
  match c with
  | .eq => decide (ux = uy)
  | .ne => decide (ux ≠ uy)
  | .lt => decide (x < y)
  | .le => decide (x ≤ y)
  | .gt => decide (x > y)
  | .ge => decide (x ≥ y)
  | .ltu => decide (ux < uy)
  | .leu => decide (ux ≤ uy)
  | .gtu => decide (ux > uy)
  | .geu => decide (ux ≥ uy)
  | _ => false

/-- The bit of FCLASS's mask that a binary32 pattern sets (R199): with .FTZ a subnormal is classed as a zero. -/
def floatClass (ftz : Bool) (x : Nat) : Nat :=
  let neg := decide (2 ^ 31 ≤ x)
  let mag := x % 2 ^ 31
  if 0x7FC00000 ≤ mag then 1
  else if 0x7F800000 < mag then 0
  else if mag = 0x7F800000 then (if neg then 2 else 9)
  else if 0x00800000 ≤ mag then (if neg then 3 else 8)
  else if mag = 0 ∨ ftz = true then (if neg then 5 else 6)
  else if neg then 4 else 7

/-- A binary32 operation on words, from exact values and rounded once (R182, R190). -/
def f32Op (f : Val → Val → Val) (x y : Word) : Word := BitVec.ofNat 32 (binary32.out .rn false (f (binary32.read false x.toNat) (binary32.read false y.toNat)))

/-- What an OP makes of two words (R139, R182, R221). -/
def combined32 (op : AluOp) (x y : Word) : Word :=
  match op with
  | .add => BitVec.ofInt 32 (x.toInt + y.toInt)
  | .min => if x.toInt ≤ y.toInt then x else y
  | .max => if x.toInt ≤ y.toInt then y else x
  | .minu => if x.toNat ≤ y.toNat then x else y
  | .maxu => if x.toNat ≤ y.toNat then y else x
  | .and => x &&& y
  | .or => x ||| y
  | .xor => x ^^^ y
  | .fadd => f32Op (·.add .rn ·) x y
  | .fmin => f32Op Val.minNum x y
  | .fmax => f32Op Val.maxNum x y
  | _ => y

/-- What an OP makes of two double words (R139, R182, R221). -/
def combined64 (op : AluOp) (x y : DWord) : DWord :=
  match op with
  | .add => BitVec.ofInt 64 (x.toInt + y.toInt)
  | .min => if x.toInt ≤ y.toInt then x else y
  | .max => if x.toInt ≤ y.toInt then y else x
  | .minu => if x.toNat ≤ y.toNat then x else y
  | .maxu => if x.toNat ≤ y.toNat then y else x
  | .and => x &&& y
  | .or => x ||| y
  | .xor => x ^^^ y
  | .dadd => BitVec.ofNat 64 (binary64.out .rn false ((binary64.read false x.toNat).add .rn (binary64.read false y.toNat)))
  | _ => y

/-- An OP at its own width: .DADD in 64 bits, the others in 32 (R182). -/
def combined (op : AluOp) (x y : DWord) : DWord :=
  if op = .dadd then combined64 op x y else (combined32 op (x.setWidth 32) (y.setWidth 32)).setWidth 64

/-! ### Lane exchange -/

/-- The lane of an issue at a position, where the position is a member (R177). -/
def laneAt (s : State) (iss : Issue) (p : Nat) : Option LaneRef := (issueLanes s iss).find? fun r => r.l == p

/-- x ⊕ y, where a side may be empty (R181). -/
def meet (f : DWord → DWord → DWord) : Option DWord → Option DWord → Option DWord
  | none, y => y
  | x, none => x
  | some x, some y => some (f x y)

/-- v[p] after k rounds of GREDUX's tree (R181). -/
def treeAt (f : DWord → DWord → DWord) (v : Nat → Option DWord) : Nat → Nat → Option DWord
  | 0, p => v p
  | k + 1, p => if p % 2 ^ (k + 1) = 0 then meet f (treeAt f v k p) (treeAt f v k (p + 2 ^ k)) else treeAt f v k p

/-- w[p] after k strides of SCAN (R183). -/
def strideAt (f : DWord → DWord → DWord) (w : Nat → Bool × Option DWord) : Nat → Nat → Bool × Option DWord
  | 0, p => w p
  | k + 1, p =>
    let y := strideAt f w k p
    let x := strideAt f w k (p - 2 ^ k)
    if p < 2 ^ k then y else (x.1 || y.1, if y.1 then y.2 else meet f x.2 y.2)

/-! ### Traces -/

/-- Words after the table keep to the shape of a trace, from a point of it, and end it with their last (R29, R32 to R34, R41, R129); HRET and HEND stand in helper traces alone (R270). -/
def traceShape (h : Bool) (gd stages nreg : Nat) : Scan → List DWord → Bool
  | _, [] => false
  | c, w :: ws =>
    match decodeWord w with
    | .error _ => false
    | .ok i => match c.word h gd i with
      | none => false
      | some (c', fin) => slotsOk stages nreg i && (if fin then ws.isEmpty else traceShape h gd stages nreg c' ws)

/-- A word stands in the memory of a unit's context where it may be fetched (R129, R331, R333, R337). -/
def CodeWord (s : State) (u va : Nat) (w : DWord) : Prop :=
  va < 2 ^ 52 ∧ ∃ b l, walk s (unitOf s u).ctx va = .leaf b l ∧ l.x = true ∧ (narrowedAt s u va = true → l.w = true) ∧ w = BitVec.ofNat 64 (leNat (s.mem.readN (l.pa + (va - b)) 8))

/-- The words of a whole trace stand at an address: the TRACE word, its table and the words that follow, at most 256 (R29, R129). -/
structure TraceAt (s : State) (u a : Nat) (h : Bool) (stages : BitVec 6) (guards : BitVec 4) (nreg : Nat) (ws : List DWord) : Prop where
  first : ws[0]? = encode (.trace stages guards)
  bound : ws.length ≤ 256
  long : guards.toNat + 1 ≤ ws.length
  words : ∀ k w, 1 ≤ k → ws[k]? = some w → CodeWord s u (a + 8 * k) w
  table : ∀ k w, 1 ≤ k → k ≤ guards.toNat → ws[k]? = some w → w >>> 32 = 0
  shape : traceShape h guards.toNat stages.toNat nreg {} (ws.drop (guards.toNat + 1)) = true

/-- A thread at the first word of a trace: its lanes are the trace-head mask, and nothing of the trace has happened (R143). -/
def entered (th : Thread) (a : Nat) (stages : BitVec 6) (guards : BitVec 4) (ws : List DWord) (grouped : Bool) : Thread :=
  { th with pos := .body (1 + guards.toNat), head := th.mask, tr := a, words := ws, stages := stages.toNat,
            alts := ((ws.drop 1).take guards.toNat).mapIdx fun g w => targetAddr (a + 8 * (1 + g)) (w.setWidth 32),
            binds := [], failed := [], settled := false, committed := false, wait := .none, grouped := grouped, inst := th.inst + 1 }

/-- What a lane has of its trace but its slots and echoes. -/
structure TraceOf where
  dirty : Nat → Bool
  buf : List Buf
  held : Option Flt
  shad : Nat → Option Fibre
  fill : Nat → Option Word

/-- What a lane has of its trace in a state. -/
def traceOf (s : State) (r : LaneRef) : TraceOf :=
  ⟨fun n => s.dirty.contains ⟨r, n⟩, s.buf.get r [], s.held.find? r, fun n => s.shad.find? ⟨r, n⟩, fun n => s.fill.find? ⟨r, n⟩⟩

/-- A lane that has nothing of its trace. -/
def noTrace : TraceOf := ⟨fun _ => false, [], none, fun _ => none, fun _ => none⟩

/-- A main register of a lane once its trace has been written back: the link, else FILL's value, else the slot of the last binding of the
register that is dirty, else what it held (R37, R146, R219). -/
def writtenBack (s : State) (r : LaneRef) (link : Option Nat) (n : Nat) : Word :=
  let bound := (((threadOf s r.thread).binds.filter fun b => b.2 == n && isDirty s r b.1).getLast?).map fun b => slot s r b.1
  let v := (s.fill.find? ⟨r, n⟩).getD (bound.getD (vreg s r.lane n))
  match link with
  | none => v
  | some a => if n = 254 then BitVec.ofNat 32 a else if n = 255 then BitVec.ofNat 32 (a / 2 ^ 32) else v

/-- A thread about to enter the trace at an address, with no trace state of its own, where a word of any of the three kinds may stand. -/
def atHead (th : Thread) (a : Nat) (m : BitVec 4) (clock : Nat) : Thread :=
  { th with pos := .head a, need := 0, mask := m, head := m, words := [], failed := [], binds := [], alts := [], settled := false,
            committed := false, wait := .none, since := clock }

/-- The rank of a slice's next trace among those of its unit: one more once its trace has staged entries (R92; log 93). -/
def rankAfter (s : State) (iss : Issue) (x : ThreadId) : Nat :=
  if (unitOf s x.u).staged.any fun p => p.1 == ((threadOf s x).rank, x.g, iss.js.headD x.j) then (threadOf s x).rank + 1 else (threadOf s x).rank

/-- The slices of an issue have left their trace for the next addresses of their lanes: dirty bound slots, FILL's registers, fibres and the
link are written back, no trace state is left, failed and queued groups are on the fragment stacks, and each slice goes on with the lanes
whose next address is that of its lowest (R37, R43, R146). -/
structure LeftTrace (s t : State) (iss : Issue) (tok : Nat) (link : Option Nat) (next : LaneRef → Nat) : Prop where
  rest : t = { s with thr := t.thr, slices := t.slices, vreg := t.vreg, vpoi := t.vpoi, fib := t.fib, slot := t.slot, dirty := t.dirty,
                      echo := t.echo, buf := t.buf, held := t.held, shad := t.shad, fill := t.fill, coreCtr := t.coreCtr, msix := t.msix }
  regs : ∀ r ∈ issueLanes s iss, ∀ n, vreg t r.lane n = writtenBack s r link n
  keep : ∀ l n, (∀ r ∈ issueLanes s iss, r.lane ≠ l) → vreg t l n = vreg s l n
  fibres : ∀ r ∈ issueLanes s iss, ∀ k, t.fib.get ⟨r.lane, k⟩ {} = (s.shad.find? ⟨r, k⟩).getD (s.fib.get ⟨r.lane, k⟩ {})
  gone : ∀ x ∈ iss.threads, ∀ r ∈ threadLanes x, traceOf t r = noTrace ∧ ∀ n, slot t r n = 0 ∧ echo t r n = 0
  slices : ∀ x ∈ iss.threads, sliceOf t ⟨x.u, x.g, x.j⟩ = { sliceOf s ⟨x.u, x.g, x.j⟩ with
    stack := pushGroups tok (mergeAddr s (unitOf s x.u).ctx (threadOf s x).tr tok) (threadOf s x).head (failedGroups (threadOf s x))
      ((groupsOf ((refsOf x (threadOf s x).mask).map fun r => (r.l % 4, next r))).drop 1).reverse (sliceOf s ⟨x.u, x.g, x.j⟩).stack }
  threads : ∀ x ∈ iss.threads, ∀ r0, (refsOf x (threadOf s x).mask).head? = some r0 → threadOf t x = atHead { threadOf s x with rank := rankAfter s iss x } (next r0)
    (maskOf (((refsOf x (threadOf s x).mask).filter fun r => next r = next r0).map fun r => r.l % 4)) s.clock
  others : ∀ x, x ∉ iss.threads → threadOf t x = threadOf s x

/-! ### Memory as an instruction sees it -/

/-- Every TLB entry, and every translation that the instruction in hand has made, says what the tables say. -/
structure TlbsAgree (s : State) : Prop where
  entries : ∀ e ∈ s.tlbCore ++ s.tlbCluster, ∀ va, e.va ≤ va → va < e.va + 2 ^ e.leaf.lg → walk s e.ctx va = .leaf e.va e.leaf
  made : ∀ p ∈ s.pgs, walk s p.1.1 (4096 * p.1.2) = p.2

/-- Every sector in a core's L1 holds what home memory holds. -/
def L1Agrees (s : State) (core : Nat) : Prop :=
  ∀ x ∈ s.l1, x.core = core → x.pa % 32 = 0 ∧ x.bytes = homeRead s ((List.range 32).map (x.pa + ·))

/-- Two states differ in what looking at memory leaves behind only: TLB and L1 entries, core counters and their interrupts, and the
choices made (R213, R334, R378). -/
def Looks (s t : State) : Prop :=
  t = { s with tlbCore := t.tlbCore, tlbCluster := t.tlbCluster, l1 := t.l1, coreCtr := t.coreCtr, msix := t.msix, free := t.free,
               pgs := t.pgs, secs := t.secs }

/-- Two states differ in what reading and writing memory leaves behind only: memories, their poison, monitors, committed writes, and what
looking leaves. -/
def Touched (s t : State) : Prop :=
  t = { s with tlbCore := t.tlbCore, tlbCluster := t.tlbCluster, l1 := t.l1, coreCtr := t.coreCtr, msix := t.msix, free := t.free,
               pgs := t.pgs, secs := t.secs, mem := t.mem, mempoi := t.mempoi, mon := t.mon, wq := t.wq, scr := t.scr, scrpoi := t.scrpoi, opbuf := t.opbuf,
               oppoi := t.oppoi }

/-- The physical address of a virtual one (R331, R333). -/
def paOf (s : State) (ctx va : Nat) : Nat :=
  match walk s ctx va with
  | .leaf b l => l.pa + (va - b)
  | _ => 0

/-- Every page that a range lies on has a scope wider than core (R26, R332). -/
def WidePages (s : State) (ctx va n : Nat) : Prop := ∀ i < n, ∀ b l, walk s ctx (va + i) = .leaf b l → l.scope.isLocal = false

/-- A unit may reach a byte of its context's memory: it is mapped, no guard page, leased or in growable memory of the unit, and writable where
it is to be written or was when it was leased (R27, R210, R333, R337). -/
def MayReach (s : State) (u va : Nat) (write : Bool) : Prop :=
  va < 2 ^ 52 ∧ guardAt s (unitOf s u).ctx va = false ∧ (leasedAt s u va = true ∨ openAt s u va = true) ∧
    ∃ b l, walk s (unitOf s u).ctx va = .leaf b l ∧ (write = true ∨ narrowedAt s u va = true → l.w = true)

/-- An element of `n` bytes at `ea` lies where its space lets the lane reach it (R209, R210). -/
def InReach (s : State) (r : LaneRef) (sp : Space) (ea : Int) (n : Nat) (write : Bool) : Prop :=
  0 ≤ ea ∧ match sp with
    | .gl => ∀ i < n, MayReach s r.u (ea.toNat + i) write
    | .sk => (stackTop (bindOf s r.u r.g) r.l : Int) - (bindOf s r.u r.g).stkSize * 4096 ≤ ea ∧ ea + n ≤ stackTop (bindOf s r.u r.g) r.l ∧
        ∀ i < n, MayReach s r.u (ea.toNat + i) write
    | .sc => ea + n ≤ ((bindOf s r.u 0).scrSize * 1024 : Nat)
    | .ob => reserved s r.u ea.toNat n = true

/-- The key of a byte of an element in its space: the physical address of memory, or the offset. -/
def keyOf (s : State) (r : LaneRef) (sp : Space) (a : Nat) : Nat := if sp.cached then paOf s (unitOf s r.u).ctx a else a

/-- The byte that a lane's buffered stores of this trace give for a key, the latest first (R38). -/
def ownByte (s : State) (r : LaneRef) (sp : Space) (key : Nat) : Option Byte := bufByte (s.buf.get r []) sp.cached sp key

/-- A byte reads as poisoned in its space (R346, R347). -/
def keyPoisoned (s : State) (r : LaneRef) (sp : Space) (key : Nat) : Bool :=
  match sp with
  | .sc => s.scrpoi.contains (r.u, key / 4 * 4)
  | .ob => s.oppoi.contains (clusterOf (unitOf s r.u).core, key / 8 * 8)
  | _ => poisonSeen s (unitOf s r.u).core key

/-- The byte of a key as a lane sees it under its own stores: for memory, the core's own committed writes lie over home (R36, R38, R80). -/
def byteUnder (s : State) (r : LaneRef) (sp : Space) (key : Nat) : Byte :=
  match sp with
  | .sc => (s.scr.get r.u {}).read key
  | .ob => (s.opbuf.get (clusterOf (unitOf s r.u).core) {}).read key
  | _ => overlay s.wq (unitOf s r.u).core key (s.mem.read key)

/-- The bytes of an element as a load of the lane reads them (R38, R216). -/
def seenBytes (s : State) (r : LaneRef) (sp : Space) (ea : Int) (n : Nat) : List Byte :=
  (List.range n).map fun i =>
    let k := keyOf s r sp (ea.toNat + i)
    (ownByte s r sp k).getD (byteUnder s r sp k)

/-- An element can be loaded: it is in reach, and each byte is the lane's own or not poisoned (R347). -/
def Loadable (s : State) (r : LaneRef) (sp : Space) (ea : Int) (n : Nat) : Prop :=
  InReach s r sp ea n false ∧ ∀ i < n, (ownByte s r sp (keyOf s r sp (ea.toNat + i))).isSome = true ∨
    keyPoisoned s r sp (keyOf s r sp (ea.toNat + i)) = false

/-- The address of a lane's element (R209). -/
def elemAt (s : State) (sp : Space) (w : Width) (off : BitVec 24) (a : Opnd) (i : Option Opnd) (r : LaneRef) : Int :=
  eaOf s r sp a off (idxOf s r i) w.bytes

/-- What a lane has buffered, after a store of its element (R38, R216). -/
def Stored (s : State) (r : LaneRef) (sp : Space) (ea : Int) (bytes : List Byte) (bs : List Buf) : Prop :=
  ∃ b : Buf, bs = s.buf.get r [] ++ [b] ∧ b.addr = ea.toNat ∧ b.bytes = bytes ∧
    (if sp.cached then b.sp = .gl ∧ b.pas = (List.range bytes.length).map fun i => paOf s (unitOf s r.u).ctx (ea.toNat + i) else b.sp = sp)

/-- The keys of an element of `n` bytes. -/
def keysOf (s : State) (r : LaneRef) (sp : Space) (ea : Int) (n : Nat) : List Nat := (List.range n).map fun i => keyOf s r sp (ea.toNat + i)

/-- An element of `n` bytes may be read, or written, where it is performed: aligned, in reach, and not poisoned where it is read (R209, R210,
R223, R347). -/
structure AtHome (s : State) (r : LaneRef) (sp : Space) (ea : Int) (n : Nat) (write read : Bool) : Prop where
  aligned : ea % (n : Int) = 0
  reach : InReach s r sp ea n write
  clean : read = true → ∀ i < n, keyPoisoned s r sp (keyOf s r sp (ea.toNat + i)) = false

/-- A view of bytes with an element's bytes replaced. -/
def viewWith (f : Nat → Byte) (ks : List Nat) (bs : List Byte) (k : Nat) : Byte :=
  match ks.idxOf? k with
  | some i => bs.getD i 0
  | none => f k

/-- Events of some lanes at their elements, one after the other, each from what it finds to what it leaves: what each finds, and the view
that all leave (R87, R222, R224). -/
def homeSeq (key : LaneRef → List Nat) (new : LaneRef → List Byte → List Byte) :
    List LaneRef → (Nat → Byte) → List (LaneRef × List Byte) × (Nat → Byte)
  | [], f => ([], f)
  | r :: rs, f =>
    let old := (key r).map f
    let q := homeSeq key new rs (viewWith f (key r) (new r old))
    ((r, old) :: q.1, q.2)

/-- What a lane found. -/
def foundBy (l : List (LaneRef × List Byte)) (r : LaneRef) : List Byte := ((l.find? fun p => p.1 == r).map (·.2)).getD []

/-- What an instruction on an object leaves in it. -/
def ObjOp.new (op : ObjOp) (s : State) (q : LaneRef) (old : List Byte) : List Byte :=
  match op with
  | .relst x => leBytes 8 (src64 s q .int x).toNat
  | _ => old

/-- The regions bound to an object have no line in a core's L1 whose page is of a scope wider than core (R71, R72, R80): none fetched at an
address of such a region, and none, whoever fetched it, that a page of the region maps. -/
def Discarded (s : State) (core ctx obj : Nat) (t : State) : Prop :=
  ∀ x ∈ t.l1, x.core = core → x.scope.isLocal = false → ∀ i g, (i, g) ∈ (ctxOf s ctx).bindtab → g.obj = obj →
    (x.ctx = ctx → ¬ (g.base < x.va + 32 ∧ x.va < g.base + g.size)) ∧
    (s.wq = [] → ∀ va pa, g.base ≤ va → va < g.base + g.size → sysAddr s ctx va = some pa → x.pa ≠ sectorOf pa)

/-- The TLBs and the L1 of a unit's core agree with memory, every expander answers, and the unit is in no deterministic launch and has
nothing in the Sluice. -/
structure Plain (s : State) (u : Nat) : Prop where
  tlbs : TlbsAgree s
  l1 : L1Agrees s (unitOf s u).core
  nodet : isDet s u = false
  nostaged : (unitOf s u).staged = []
  nohelp : s.hstage = []
  alive : s.cxl = []

/-! ### Engine commands -/

/-- An address as its space counts it: modulo 2^64 in the global space (R209, R228). -/
def inSpace (sp : GS) (x : Int) : Int := if sp = .gl then x % 2 ^ 64 else x

/-- An end of a copy of `n` bytes may be used: a link command's remote end lies in its route window, and any other where its space lets the lane
reach it (R27, R234, R365). -/
def EndInReach (s : State) (r : LaneRef) (lk : Bool) (sp : GS) (x : Int) (n : Nat) (write : Bool) : Prop :=
  match if lk then routeOf s (unitOf s r.u).ctx (x % 2 ^ 64).toNat else none with
  | some (_, b, m, w) => (x % 2 ^ 64).toNat + n ≤ b + m ∧ (write = true → w = true)
  | none => n = 0 ∨ InReach s r sp.space (inSpace sp x) n write

/-- The place of an end of a copy (R228, R365). -/
def endPlace (s : State) (ctx : Nat) (lk : Bool) (sp : GS) (x : Int) : Loc :=
  match if lk then routeOf s ctx (x % 2 ^ 64).toNat else none with
  | some (i, _) => .far i (x % 2 ^ 64).toNat
  | none => if sp = .gl then .mem (x % 2 ^ 64).toNat else .scr x.toNat

/-- The pages kept with a command give each byte of a global range the physical address that translation gives it (R234). -/
def PagesFor (s : State) (ctx : Nat) (pages : Map Nat Nat) (sp : GS) (x : Int) (n : Nat) : Prop :=
  sp = .gl → ∀ i < n, physOf pages ((x % 2 ^ 64).toNat + i) = paOf s ctx ((x % 2 ^ 64).toNat + i)

/-- A command enters the queue of an engine of its core, and the open batch of its tag, which it opens if there is none; before SETTLE it is
held for the slices of its issue (R51, R232). -/
def CopyQueued (i : Instr) (s : State) (iss : Issue) (tag : Nat) (link : Bool) (is : CopyCmd → Prop) : Prop :=
  let c0 := if isSettled s iss then commit iss s else s
  ∃ s1 m c, Looks c0 s1 ∧ GoesOn i s m iss ∧ is c ∧ m = { s1 with fresh := s.fresh + 2, gangs := m.gangs, copies := s.copies ++ [c] } ∧
    (∀ g, gangOf m g = if g = iss.gang then joinBatch s.fresh (s.fresh + 1) tag (gangOf s g) else gangOf s g) ∧
    c.id = s.fresh ∧ c.batch = s.fresh + 1 ∧ c.link = link ∧ c.core = (unitOf s iss.u).core ∧ c.u = iss.u ∧ c.g = iss.g ∧ c.tag = tag ∧ c.pass = [] ∧
    c.done = [] ∧ c.next = 0 ∧ c.written = 0 ∧ c.finished = false ∧ c.via = none ∧ c.acked = 0 ∧ c.insts = instsOf s iss ∧
    c.issued = (issueLanes s iss).map (·.l) ∧ c.hold = (if isSettled s iss then [] else iss.js) ∧ c.held = ! isSettled s iss

/-- The memories that an engine command's local places name. -/
inductive EngSpace where
  | mem
  | scr
  | ob
  deriving DecidableEq, Repr

/-- The bytes of a local place: its memory, and the address there. -/
def placeKeys (pages : Map Nat Nat) (l : Loc) (n : Nat) : List (EngSpace × Nat) :=
  (List.range n).map fun i => match l with
    | .mem va => (.mem, physOf pages (va + i))
    | .scr off => (.scr, off + i)
    | .ob off => (.ob, off + i)
    | .far _ va => (.scr, va + i)

/-- Memory, a unit's scratchpad and its cluster's operand buffer, by byte. -/
def unitView (s : State) (u : Nat) (k : EngSpace × Nat) : Byte :=
  match k.1 with
  | .mem => s.mem.read k.2
  | .scr => (s.scr.get u {}).read k.2
  | .ob => (s.opbuf.get (clusterOf (unitOf s u).core) {}).read k.2

/-- A view with bytes laid over it, the last of a key counting. -/
def laid {κ : Type} [DecidableEq κ] (f : κ → Byte) (cells : List (κ × Byte)) (k : κ) : Byte :=
  ((cells.reverse.find? fun c => c.1 = k).map (·.2)).getD (f k)

/-- Elements copied one after the other: each is read, `n` bytes, and then written, with zeros up to `m` bytes (R229, R230). -/
def carried (pages : Map Nat Nat) : List (Loc × Nat × Loc × Nat) → (EngSpace × Nat → Byte) → EngSpace × Nat → Byte
  | [], f => f
  | (src, n, dst, m) :: es, f =>
    carried pages es (laid f ((placeKeys pages dst m).zip ((placeKeys pages src n).map f ++ List.replicate (m - n) 0)))

/-- An end of a matrix command's move of `n` bytes may be used (R249). -/
def MoveInReach (s : State) (r : LaneRef) (sp : GS) (x : Int) (n : Nat) (write : Bool) : Prop := EndInReach s r false sp x n write

/-- The bytes of the operand buffer that ranges take stand in records of the unit (R249). -/
def InRecords (s : State) (u wa : Nat) (ranges : List (Nat × Nat)) : Prop := ∃ l, checkOb s u wa ranges = .ok l

/-- The A rows of a pass may be read: every offset that a row's entry may hold when the pass is performed is even, and K values stand from it
in the scratchpad (R249). -/
def RowsInReach (s : State) (c : MatCmd) (x : MatLane) : Prop :=
  ∀ p ∈ ownRows c x.o, ∀ off ∈ rowOffsets s c.u c.g p.2, off % 2 = 0 ∧ off + 2 * c.k ≤ (bindOf s c.u 0).scrSize * 1024

/-- The conditions under which one lane's scalar operands let a matrix command issue (R249, R255, R257). -/
def MatOk (s : State) (c : MatCmd) (r : LaneRef) (x : MatLane) (wa : Nat) : Prop :=
  let side := (bindOf s c.u c.g).pair
  let most := if c.kind.isCo then (192, 384) else if side ≠ 0 then (48, 192) else (96, 192)
  let inShape := x.o % 512 + c.m ≤ most.1 ∧ x.o / 65536 % 512 + c.n ≤ most.2
  let passes := c.m = 0 ∨ c.n = 0 ∨ c.k = 0 ∨
    (inShape ∧ c.k ≤ 256 ∧ x.b % 2 = 0 ∧ InRecords s c.u wa (bRanges c x ++ if c.kind.isSp then xRanges c x else []) ∧ RowsInReach s c x)
  let tile := c.m = 0 ∨ c.n = 0 ∨ inShape
  let moves := fun (sp : GS) (bf : Bool) (st : Int) (write : Bool) => c.m = 0 ∨ c.n = 0 ∨ (inShape ∧ ∀ p ∈ tileRanges c x (if bf then 2 else 4) st,
    p.1 % (if bf then 2 else 4) = 0 ∧ MoveInReach s r sp p.1 p.2 write)
  match c.kind with
  | .mgath _ => True
  | .mma _ _ => passes
  | .mmap _ _ => side ≠ 0 ∧ passes
  | .guide _ => side = 1 ∧ tile
  | .mzero => tile
  | .mst sp bf st => moves sp bf st true
  | .mld sp bf st => moves sp bf st false
  | .mspsel => c.k = 0 ∨ c.n = 0 ∨ (x.a % 2 = 0 ∧ x.b % 2 = 0 ∧ InRecords s c.u wa (((List.range c.k).map fun k => (x.a + 2 * (k * x.pa), 2 * c.n))
      ++ ((List.range (2 * quads c.k)).map fun k => (x.b + 2 * (k * x.pb), 2 * c.n)) ++ xRanges c x))
  | .spst sp count bound => c.m = 0 ∨ c.n = 0 ∨ (inShape ∧ ∀ p ∈ spstRanges c x count bound, MoveInReach s r sp p.1 p.2 true)

/-- A matrix command as its issue makes it: its kind, the scalar operands of each issuing lane, and its extents (R248, R249). -/
def freshMat (s : State) (iss : Issue) (kind : MatKind) (lane : LaneRef → MatLane) (m n k : Nat) (settled : Bool) : MatCmd :=
  { id := s.fresh, core := (unitOf s iss.u).core, u := iss.u, g := iss.g, kind := kind, lanes := (issueLanes s iss).map lane, m := m, n := n, k := k,
    recs := [], pages := [], hold := if settled then [] else iss.js, pass := [], held := ! settled, table := false, since := none,
    performed := false, alone := false, half := (bindOf s iss.u iss.g).pair != 0, js := iss.js, insts := instsOf s iss }

/-- The checks of a command pass: for every issuing lane before SETTLE, for the lowest after it (R249). -/
def MatChecks (s : State) (iss : Issue) (c : MatCmd) (settled : Bool) : Prop :=
  ∀ x ∈ (if settled then c.lanes.take 1 else c.lanes), MatOk s c ⟨iss.u, iss.g, x.l, iss.h⟩ x (wordAddr (headThread s iss))

/-- An asynchronous command enters its core's queue, before SETTLE held for the slices of its issue, and the issue goes on (R51, R262). -/
def MatQueued (i : Instr) (s : State) (iss : Issue) (c : MatCmd) : Prop :=
  ∃ s1 m, Looks (if isSettled s iss then commit iss s else s) s1 ∧ GoesOn i s m iss ∧
    ∃ recs pages, m = { s1 with fresh := s.fresh + 1, mats := s.mats ++ [{ c with recs := recs, pages := pages }] }

/-- A synchronous command enters its core's queue, and the issue waits for it (R262). -/
def MatAwaited (i : Instr) (s : State) (iss : Issue) (c : MatCmd) : Prop :=
  ∃ s1 t, Looks (commit iss s) s1 ∧ exec i s = .next t ∧
    (∃ recs pages, t = { s1 with fresh := s.fresh + 1, mats := s.mats ++ [{ c with recs := recs, pages := pages }], thr := t.thr }) ∧
    ∀ x ∈ iss.threads, (threadOf t x).wait = .cmd c.id

/-! ### The matrix engine -/

/-- The row of a bank that row `i` of a command's tile falls on, and the column that its column `j` falls on: those of the core's quadrant for a
co-operative pass, as far as a half-bank reaches, and those of its own bank otherwise (R241, R249, R251, R254). -/
def tileRow (c : MatCmd) (i : Nat) : Option Nat :=
  let r := (c.lanes.headD { l := 0 }).o % 512 + i
  let q := if c.kind.isCo then 96 * (c.core % 4 / 2) else 0
  if i < c.m ∧ q ≤ r ∧ r < (if c.kind.isCo then (if c.half then q + 48 else q + 96) else 512) then some (r - q) else none
def tileCol (c : MatCmd) (j : Nat) : Option Nat :=
  let n := (c.lanes.headD { l := 0 }).o / 65536 % 512 + j
  let q := if c.kind.isCo then 192 * (c.core % 4 % 2) else 0
  if j < c.n ∧ q ≤ n ∧ n < (if c.kind.isCo then q + 192 else 512) then some (n - q) else none

/-- A bank row belongs to a lane of a command's performing set (R23, R241, R249). -/
def rowOwned (c : MatCmd) (r : Nat) : Prop := ∃ x ∈ c.lanes, x.l = r % 32

/-- Row `i` of a command's tile is one that the command acts on, and stands on row `r` of the bank: unconditional gangs have its second half
(R241). -/
def actsOn (s : State) (c : MatCmd) (i r : Nat) : Prop :=
  ∃ n, tileRow c i = some n ∧ rowOwned c n ∧ r = if (bindOf s c.u c.g).pair = 2 then 48 + n else n

/-- A BF16 value of bytes. -/
def halfAt (f : Nat → Byte) (a : Nat) : Nat := (f a).toNat + 256 * (f (a + 1)).toNat

/-- The scratchpad as the matrix engine sees it for a command's gang: as it stands, but for bytes that another gang's copy has written and that an
XFENCE to MX has not ordered before (R75, R79). -/
def enginePad (s : State) (c : MatCmd) (a : Nat) : Byte :=
  let now := (s.scr.get c.u {}).read a
  (((gangOf s ⟨c.u, c.g⟩).mxOld.find? fun e => e.1 == a && e.2.2 == now).map fun e => e.2.1).getD now

/-- What a matrix command reads, by byte. -/
def engineView (s : State) (c : MatCmd) (k : EngSpace × Nat) : Byte :=
  match k.1 with
  | .scr => enginePad s c k.2
  | _ => unitView s c.u k

/-- A(k) of bank row `r` (R250). -/
def aValue (s : State) (c : MatCmd) (r k : Nat) : Val :=
  match (gangOf s ⟨c.u, c.g⟩).rows.find? r with
  | none => .num false 0 0
  | some off => bfloat16.read false (halfAt (enginePad s c) (off + 2 * k))

/-- B(k) of column `j`: dense, or by the metadata nibble of its group of four (R251, R252). -/
def bValue (s : State) (c : MatCmd) (j k : Nat) : Val :=
  let x := c.lanes.headD { l := 0 }
  let byte := (s.opbuf.get (clusterOf (unitOf s c.u).core) {}).read
  let stored := fun row : Nat => bfloat16.read false (halfAt byte (x.b + 2 * (row * x.pb + j)))
  let at_ := k / 4 * x.px + j
  let nibble := (byte (x.x + at_ / 2)).toNat / (if at_ % 2 = 0 then 1 else 16) % 16
  if c.kind.isSp then
    match decide (nibble % 4 = k % 4), decide (nibble / 4 = k % 4) with
    | true, true => (stored (2 * (k / 4))).add .rn (stored (2 * (k / 4) + 1))
    | true, false => stored (2 * (k / 4))
    | false, true => stored (2 * (k / 4) + 1)
    | false, false => .num false 0 0
  else stored k

/-- An accumulator after a pass of `n` products: each group of eight is summed exactly and added with one rounding (R251). -/
def afterPass (acc : Nat) (n : Nat) (product : Nat → Val) : Nat :=
  (List.range ((n + 7) / 8)).foldl (fun acc g =>
    let group := (List.range (min 8 (n - 8 * g))).map fun k => product (8 * g + k)
    binary32.out .rn false ((binary32.read false acc).add .rn (group.tail.foldl (·.add .rn ·) (group.headD (.num true 0 0))))) acc

/-- The magnitude of a BF16 value for selection: a NaN is the greatest (R259). -/
def selectKey (v : Nat) : Nat := if 0x7F80 < v % 2 ^ 15 then 2 ^ 15 else v % 2 ^ 15

/-! ### Units that end, and units that are saved -/

/-- A unit that has not ended ends as a failed one (R322, R412): threads past their memory commit that do not wait run on, and every other ends; with
none left the unit is done and its registers are gone. No command of it is left, and no record of it is pending. -/
structure UnitEnded (s t : State) (u : Nat) (cls : Option FClass) : Prop where
  failed : (unitOf t u).failed = true ∧ (unitOf t u).cls = cls
  runs : (∃ x, x.u = u ∧ runsOn (threadOf s x) = true) → (unitOf t u).status = .ending ∧ ∀ x, x.u = u →
    threadOf t x = if runsOn (threadOf s x) then threadOf s x else { threadOf s x with pos := .dead, mask := 0 }
  gone : (∀ x, x.u = u → runsOn (threadOf s x) = false) → (unitOf t u).status = .done ∧ (∀ x, x.u = u → threadOf t x = {}) ∧
    ∀ l n, l.u = u → vreg t l n = 0
  others : ∀ x, x.u ≠ u → threadOf t x = threadOf s x
  engines : (∀ c ∈ allCopies t, c.u ≠ u) ∧ ∀ c ∈ allMats t, c.u ≠ u
  records : (unitOf s u).recs = [] → ∀ r ∈ t.frecs, r.u = u → r.pending = false

/-- A unit is counted as completed in its launch, and in ERRORS where it failed, while other units of the launch are left (R318, R319, R323). -/
def UnitCounted (s t : State) (lid idx : Nat) (failed : Bool) : Prop :=
  ∀ l, s.launches.find? lid = some l → l.state.final = false → idx ∉ l.completed → l.completed.length + 1 ≠ unitsIn l.desc →
    t.launches.find? lid = some { l with completed := idx :: l.completed, errors := if failed then l.errors + 1 else l.errors }

/-- A thread of a unit at the start of a save (R58): a trace before its memory commit is abandoned, and its slice stands at the head with the
trace-head mask. -/
def abandoned (th : Thread) : Thread :=
  { th with pos := .head th.tr, mask := th.head, words := [], failed := [], settled := false, committed := false, wait := .none, binds := [] }

/-- A unit begins to be saved (R58, R86, R235, R266, R348): its traces before their memory commit are abandoned and its other slices stand where they
stood, a WAITMON woken with cause 3; its commands have left the engines, its monitors are disarmed, and it holds no baton. -/
structure SaveBegun (s t : State) (u : Nat) : Prop where
  status : (unitOf t u).status = .saving
  abandons : ∀ x, x.u = u → x.h = false → mustAbandon (threadOf s x) = true → threadOf t x = abandoned (threadOf s x)
  stands : ∀ x, x.u = u → x.h = false → mustAbandon (threadOf s x) = false →
    (threadOf t x).pos = (threadOf s x).pos ∧ (threadOf t x).mask = (threadOf s x).mask ∧ (threadOf t x).committed = (threadOf s x).committed
  wakes : ∀ x since w, x.u = u → x.h = false → mustAbandon (threadOf s x) = false → (threadOf s x).wait = .monitor since w →
    (threadOf t x).wait = .monitor since (some 3)
  engines : (∀ c ∈ t.copies, c.u ≠ u) ∧ ∀ c ∈ t.mats, c.u ≠ u
  monitors : ∀ l m, l.u = u → t.mon.find? l = some m → m.armed = none ∧ m.fired = none
  batons : ∀ p ∈ t.baton, p.2.u ≠ u

end Sys2Proof.Machine
end

