-- ==== Sys2Proof/Certificates/Slice0/Obligations.lean ====
section
/-! DEFINITION. The statements about the machine, each from the rules of the manual that its docstring names. -/

open Sys2Proof Sys2Proof.Machine

/-! ### Integer, logic and address instructions -/

/-- R169: the additions and subtractions, and LEA. The carry of IADDC and the borrow of ISUBB are second results. -/
def Obligations.AdditionResults : Prop :=
  ∀ (sat zx : Bool) (k : BitVec 3) (d a b c : Opnd) (imm : BitVec 32),
    Computes (fun u => .iadd u sat d a b) d .w32 [i32 a, i32 b] (fun v => clamped sat (sArg v 0 + sArg v 1)) ∧
    Computes (fun u => .iaddI u sat d a imm) d .w32 [i32 a] (fun v => clamped sat (sArg v 0 + imm.toInt)) ∧
    Computes (fun u => .isub u sat d a b) d .w32 [i32 a, i32 b] (fun v => clamped sat (sArg v 0 - sArg v 1)) ∧
    Computes (fun u => .isubI u sat d a imm) d .w32 [i32 a] (fun v => clamped sat (sArg v 0 - imm.toInt)) ∧
    Computes (fun u => .iaddc u d a b c) d .w32 [i32 a, i32 b, i32 c] (fun v =>
      let t := uArg v 0 + uArg v 1 + uArg v 2 % 2
      ⟨[BitVec.ofInt 32 t], [BitVec.ofInt 32 t, BitVec.ofInt 32 (t / 2 ^ 32)]⟩) ∧
    Computes (fun u => .isubb u d a b c) d .w32 [i32 a, i32 b, i32 c] (fun v =>
      let t := uArg v 0 - uArg v 1 - uArg v 2 % 2
      ⟨[BitVec.ofInt 32 t], [BitVec.ofInt 32 t, if t < 0 then 1 else 0]⟩) ∧
    Computes (fun u => .iadd64 u d a b) d .w64 [i64 a, i64 b] (fun v => low64 ((arg v 0).toNat + (arg v 1).toNat)) ∧
    Computes (fun u => .iadd64I u d a imm) d .w64 [i64 a] (fun v => low64 ((arg v 0).toNat + imm.toInt)) ∧
    Computes (fun u => .isub64 u d a b) d .w64 [i64 a, i64 b] (fun v => low64 ((arg v 0).toNat - (arg v 1).toNat)) ∧
    Computes (fun u => .isub64I u d a imm) d .w64 [i64 a] (fun v => low64 ((arg v 0).toNat - imm.toInt)) ∧
    Computes (fun u => .lea u k zx d a b) d .w64 [i64 a, i32 b] (fun v =>
      low64 ((arg v 0).toNat + (if zx then uArg v 1 else sArg v 1) * 2 ^ k.toNat))

/-- R170: the multiply forms compute exact products and keep the part that the table names. -/
def Obligations.ProductResults : Prop :=
  ∀ (sat zx : Bool) (d a b c : Opnd) (imm : BitVec 32),
    Computes (fun u => .imul u sat d a b) d .w32 [i32 a, i32 b] (fun v => clamped sat (sArg v 0 * sArg v 1)) ∧
    Computes (fun u => .imulI u sat d a imm) d .w32 [i32 a] (fun v => clamped sat (sArg v 0 * imm.toInt)) ∧
    Computes (fun u => .imulh u d a b) d .w32 [i32 a, i32 b] (fun v => low32 (sArg v 0 * sArg v 1 / 2 ^ 32)) ∧
    Computes (fun u => .imulhI u d a imm) d .w32 [i32 a] (fun v => low32 (sArg v 0 * imm.toInt / 2 ^ 32)) ∧
    Computes (fun u => .imulhu u d a b) d .w32 [i32 a, i32 b] (fun v => low32 (uArg v 0 * uArg v 1 / 2 ^ 32)) ∧
    Computes (fun u => .imulhuI u d a imm) d .w32 [i32 a] (fun v => low32 (uArg v 0 * imm.toNat / 2 ^ 32)) ∧
    Computes (fun u => .imad u sat d a b c) d .w32 [i32 a, i32 b, i32 c] (fun v => clamped sat (sArg v 0 * sArg v 1 + sArg v 2)) ∧
    Computes (fun u => .imad64 u zx d a b c) d .w64 [i32 a, i32 b, i64 c] (fun v =>
      low64 ((if zx then uArg v 0 * uArg v 1 else sArg v 0 * sArg v 1) + (arg v 2).toNat))

/-- R171: division truncates toward zero, and the exceptional cases give the results of the table. -/
def Obligations.DivisionResults : Prop :=
  let divs := fun (x y : Int) => if y = 0 then low32 (-1) else if x = -(2 ^ 31) ∧ y = -1 then low32 (-(2 ^ 31)) else low32 (x.tdiv y)
  let rems := fun (x y : Int) => if y = 0 then low32 x else if x = -(2 ^ 31) ∧ y = -1 then low32 0 else low32 (x - x.tdiv y * y)
  let divu := fun (x y : Int) => if y = 0 then low32 (-1) else low32 (x / y)
  let remu := fun (x y : Int) => if y = 0 then low32 x else low32 (x % y)
  ∀ (d a b : Opnd) (imm : BitVec 32),
    Computes (fun u => .divs u d a b) d .w32 [i32 a, i32 b] (fun v => divs (sArg v 0) (sArg v 1)) ∧
    Computes (fun u => .divsI u d a imm) d .w32 [i32 a] (fun v => divs (sArg v 0) imm.toInt) ∧
    Computes (fun u => .rems u d a b) d .w32 [i32 a, i32 b] (fun v => rems (sArg v 0) (sArg v 1)) ∧
    Computes (fun u => .remsI u d a imm) d .w32 [i32 a] (fun v => rems (sArg v 0) imm.toInt) ∧
    Computes (fun u => .divu u d a b) d .w32 [i32 a, i32 b] (fun v => divu (uArg v 0) (uArg v 1)) ∧
    Computes (fun u => .divuI u d a imm) d .w32 [i32 a] (fun v => divu (uArg v 0) imm.toNat) ∧
    Computes (fun u => .remu u d a b) d .w32 [i32 a, i32 b] (fun v => remu (uArg v 0) (uArg v 1)) ∧
    Computes (fun u => .remuI u d a imm) d .w32 [i32 a] (fun v => remu (uArg v 0) imm.toNat)

/-- R172 to R176: magnitude, limits, comparison and selection; logic and shifts; bit fields, counts, byte selection and moves. -/
def Obligations.CompareLogicAndFieldResults : Prop :=
  (
  let isat := fun (zx : Bool) (x : Int) (n : Nat) =>
    if zx then (if n = 0 then low32 0 else low32 (max 0 (min (2 ^ min n 32 - 1) x)))
    else if n = 0 then low32 0 else if 32 ≤ n then low32 x else low32 (max (-(2 ^ (n - 1))) (min (2 ^ (n - 1) - 1) x))
  ∀ (sat zx : Bool) (d a b c : Opnd) (imm : BitVec 32),
    Computes (fun u => .iabs u sat d a) d .w32 [i32 a] (fun v => clamped sat (max (sArg v 0) (-sArg v 0))) ∧
    Computes (fun u => .ineg u sat d a) d .w32 [i32 a] (fun v => clamped sat (-sArg v 0)) ∧
    Computes (fun u => .imin u d a b) d .w32 [i32 a, i32 b] (fun v => low32 (min (sArg v 0) (sArg v 1))) ∧
    Computes (fun u => .iminI u d a imm) d .w32 [i32 a] (fun v => low32 (min (sArg v 0) imm.toInt)) ∧
    Computes (fun u => .imax u d a b) d .w32 [i32 a, i32 b] (fun v => low32 (max (sArg v 0) (sArg v 1))) ∧
    Computes (fun u => .imaxI u d a imm) d .w32 [i32 a] (fun v => low32 (max (sArg v 0) imm.toInt)) ∧
    Computes (fun u => .iminu u d a b) d .w32 [i32 a, i32 b] (fun v => low32 (min (uArg v 0) (uArg v 1))) ∧
    Computes (fun u => .iminuI u d a imm) d .w32 [i32 a] (fun v => low32 (min (uArg v 0) imm.toNat)) ∧
    Computes (fun u => .imaxu u d a b) d .w32 [i32 a, i32 b] (fun v => low32 (max (uArg v 0) (uArg v 1))) ∧
    Computes (fun u => .imaxuI u d a imm) d .w32 [i32 a] (fun v => low32 (max (uArg v 0) imm.toNat)) ∧
    Computes (fun u => .isat u zx d a b) d .w32 [i32 a, i32 b] (fun v => isat zx (sArg v 0) (argW v 1).toNat) ∧
    Computes (fun u => .isatI u zx d a imm) d .w32 [i32 a] (fun v => isat zx (sArg v 0) imm.toNat) ∧
    (∀ cond : Cond, cond ≠ .un → cond ≠ .ord →
      Computes (fun u => .icmp u cond false d a b) d .w32 [i32 a, i32 b] (fun v =>
        if holds cond (sArg v 0) (sArg v 1) (uArg v 0) (uArg v 1) then low32 1 else low32 0) ∧
      Computes (fun u => .icmp u cond true d a b) d .w32 [i64 a, i64 b] (fun v =>
        if holds cond (arg v 0).toInt (arg v 1).toInt (arg v 0).toNat (arg v 1).toNat then low32 1 else low32 0) ∧
      Computes (fun u => .icmpI u cond false d a imm) d .w32 [i32 a] (fun v =>
        if holds cond (sArg v 0) imm.toInt (uArg v 0) imm.toNat then low32 1 else low32 0) ∧
      Computes (fun u => .icmpI u cond true d a imm) d .w32 [i64 a] (fun v =>
        if holds cond (arg v 0).toInt imm.toInt (arg v 0).toNat (imm.signExtend 64).toNat then low32 1 else low32 0)) ∧
    Computes (fun u => .sel u d a b c) d .w32 [i32 a, i32 b, i32 c] (fun v => if uArg v 2 ≠ 0 then low32 (uArg v 0) else low32 (uArg v 1))) ∧
  (
  let word := fun (w : Word) => (⟨[w], [w]⟩ : Res)
  let shl := fun (x n : Int) => if 32 ≤ n then low32 0 else low32 (x * 2 ^ n.toNat)
  let shr := fun (x n : Int) => if 32 ≤ n then low32 0 else low32 (x / 2 ^ n.toNat)
  let sar := fun (x n : Int) => low32 (x / 2 ^ (min n 31).toNat)
  ∀ (d a b c : Opnd) (imm : BitVec 32),
    Computes (fun u => .and u d a b) d .w32 [i32 a, i32 b] (fun v => word (argW v 0 &&& argW v 1)) ∧
    Computes (fun u => .andI u d a imm) d .w32 [i32 a] (fun v => word (argW v 0 &&& imm)) ∧
    Computes (fun u => .or u d a b) d .w32 [i32 a, i32 b] (fun v => word (argW v 0 ||| argW v 1)) ∧
    Computes (fun u => .orI u d a imm) d .w32 [i32 a] (fun v => word (argW v 0 ||| imm)) ∧
    Computes (fun u => .xor u d a b) d .w32 [i32 a, i32 b] (fun v => word (argW v 0 ^^^ argW v 1)) ∧
    Computes (fun u => .xorI u d a imm) d .w32 [i32 a] (fun v => word (argW v 0 ^^^ imm)) ∧
    Computes (fun u => .andn u d a b) d .w32 [i32 a, i32 b] (fun v => word (argW v 0 &&& ~~~argW v 1)) ∧
    Computes (fun u => .andnI u d a imm) d .w32 [i32 a] (fun v => word (argW v 0 &&& ~~~imm)) ∧
    Computes (fun u => .not u d a) d .w32 [i32 a] (fun v => word (~~~argW v 0)) ∧
    Computes (fun u => .shl u d a b) d .w32 [i32 a, i32 b] (fun v => shl (uArg v 0) (uArg v 1)) ∧
    Computes (fun u => .shlI u d a imm) d .w32 [i32 a] (fun v => shl (uArg v 0) imm.toNat) ∧
    Computes (fun u => .shr u d a b) d .w32 [i32 a, i32 b] (fun v => shr (uArg v 0) (uArg v 1)) ∧
    Computes (fun u => .shrI u d a imm) d .w32 [i32 a] (fun v => shr (uArg v 0) imm.toNat) ∧
    Computes (fun u => .sar u d a b) d .w32 [i32 a, i32 b] (fun v => sar (sArg v 0) (uArg v 1)) ∧
    Computes (fun u => .sarI u d a imm) d .w32 [i32 a] (fun v => sar (sArg v 0) imm.toNat) ∧
    Computes (fun u => .shf u false d a b c) d .w32 [i32 a, i32 b, i32 c] (fun v =>
      low32 ((uArg v 1 * 2 ^ 32 + uArg v 0) / 2 ^ (uArg v 2 % 32).toNat)) ∧
    Computes (fun u => .shf u true d a b c) d .w32 [i32 a, i32 b, i32 c] (fun v =>
      low32 ((uArg v 1 * 2 ^ 32 + uArg v 0) * 2 ^ (uArg v 2 % 32).toNat / 2 ^ 32))) ∧
  (
  let len := fun (x : Int) => (min (x % 256) 32).toNat
  let pos := fun (x : Int) => (x % 256).toNat
  let byte := fun (x : Int) (s : Int) =>
    let y := x / 2 ^ (8 * (s % 8).toNat) % 256
    if s / 8 % 4 = 0 then y else if s / 8 % 4 = 1 then 0 else if s / 8 % 4 = 2 then (if y / 128 = 1 then 255 else 0) else 255 - y
  ∀ (d a b c : Opnd) (imm : BitVec 32),
    Computes (fun u => .bfx u d a b c) d .w32 [i32 a, i32 b, i32 c] (fun v =>
      let w := len (uArg v 2)
      let f := sArg v 0 / 2 ^ pos (uArg v 1) % 2 ^ w
      if w = 0 then low32 0 else if 2 ^ (w - 1) ≤ f then low32 (f - 2 ^ w) else low32 f) ∧
    Computes (fun u => .bfxu u d a b c) d .w32 [i32 a, i32 b, i32 c] (fun v =>
      low32 (uArg v 0 / 2 ^ pos (uArg v 1) % 2 ^ len (uArg v 2))) ∧
    Computes (fun u => .bfi u d a b c) d .w32 [i32 a, i32 b, i32 c] (fun v =>
      let m := BitVec.ofInt 32 ((2 ^ len (uArg v 2 / 256) - 1) * 2 ^ pos (uArg v 2))
      let x := (argW v 0 &&& ~~~m) ||| (BitVec.ofInt 32 (uArg v 1 * 2 ^ pos (uArg v 2)) &&& m)
      ⟨[x], [x]⟩) ∧
    Computes (fun u => .popc u d a) d .w32 [i32 a] (fun v => low32 ((List.range 32).countP fun i => (argW v 0).getLsbD i)) ∧
    Computes (fun u => .clz u d a) d .w32 [i32 a] (fun v => low32 ((List.range 32).takeWhile fun i => ! (argW v 0).getLsbD (31 - i)).length) ∧
    Computes (fun u => .ctz u d a) d .w32 [i32 a] (fun v => low32 ((List.range 32).takeWhile fun i => ! (argW v 0).getLsbD i).length) ∧
    Computes (fun u => .brev u d a) d .w32 [i32 a] (fun v =>
      low32 ((List.range 32).map fun i => if (argW v 0).getLsbD (31 - i) then (2 : Int) ^ i else 0).sum) ∧
    Computes (fun u => .bysel u d a b c) d .w32 [i32 a, i32 b, i32 c] (fun v =>
      let x := uArg v 1 * 2 ^ 32 + uArg v 0
      low32 ((List.range 4).map fun k => byte x (uArg v 2 / 2 ^ (8 * k) % 256) * 2 ^ (8 * k)).sum) ∧
    Computes (fun u => .movi u d imm) d .w32 [] (fun _ => low32 imm.toNat) ∧
    Computes (fun u => .mov u false d a) d .w32 [i32 a] (fun v => low32 (uArg v 0)) ∧
    Computes (fun u => .mov u true d a) d .w64 [i64 a] (fun v => low64 (arg v 0).toNat))

/-! ### Floating point and conversion -/

/-- R194, R195, R196: d = out( in(a) + in(b) ) and its like, in binary32 with both forms, in binary64, and in both halves of a packed pair;
minimumNumber, maximumNumber and the comparisons, in binary32 and binary64. -/
def Obligations.FloatArithmeticAndCompareResults : Prop :=
  (
  let two := fun (t : Fmt) (rm : Round) (ftz : Bool) (op : Val → Val → Val) (x y : Nat) => t.out rm ftz (op (t.read ftz x) (t.read ftz y))
  let fma := fun (t : Fmt) (rm : Round) (ftz : Bool) (x y z : Nat) =>
    t.out rm ftz (((t.read ftz x).mul (t.read ftz y)).add rm (t.read ftz z))
  let lo := fun (w : Word) => w.toNat % 2 ^ 16
  let hi := fun (w : Word) => w.toNat / 2 ^ 16
  ∀ (rm : Round) (ftz : Bool) (ty : PkType) (d a b c : Opnd) (imm : BitVec 32),
    let sub := fun (x y : Val) => x.add rm y.neg
    let wd := convF binary32 binary64 .rn false imm.toNat
    Computes (fun u => .fadd u rm ftz d a b) d .w32 [f32 a, f32 b] (fun v => r32 (two binary32 rm ftz (·.add rm ·) (argW v 0).toNat (argW v 1).toNat)) ∧
    Computes (fun u => .faddI u rm ftz d a imm) d .w32 [f32 a] (fun v => r32 (two binary32 rm ftz (·.add rm ·) (argW v 0).toNat imm.toNat)) ∧
    Computes (fun u => .fsub u rm ftz d a b) d .w32 [f32 a, f32 b] (fun v => r32 (two binary32 rm ftz sub (argW v 0).toNat (argW v 1).toNat)) ∧
    Computes (fun u => .fsubI u rm ftz d a imm) d .w32 [f32 a] (fun v => r32 (two binary32 rm ftz sub (argW v 0).toNat imm.toNat)) ∧
    Computes (fun u => .fmul u rm ftz d a b) d .w32 [f32 a, f32 b] (fun v => r32 (two binary32 rm ftz Val.mul (argW v 0).toNat (argW v 1).toNat)) ∧
    Computes (fun u => .fmulI u rm ftz d a imm) d .w32 [f32 a] (fun v => r32 (two binary32 rm ftz Val.mul (argW v 0).toNat imm.toNat)) ∧
    Computes (fun u => .ffma u rm ftz d a b c) d .w32 [f32 a, f32 b, f32 c] (fun v =>
      r32 (fma binary32 rm ftz (argW v 0).toNat (argW v 1).toNat (argW v 2).toNat)) ∧
    ComputesLanes (.dadd rm ftz d a b) d .w64 [f64 a, f64 b] (fun v => r64 (two binary64 rm ftz (·.add rm ·) (arg v 0).toNat (arg v 1).toNat)) ∧
    ComputesLanes (.daddI rm ftz d a imm) d .w64 [f64 a] (fun v => r64 (two binary64 rm ftz (·.add rm ·) (arg v 0).toNat wd)) ∧
    ComputesLanes (.dsub rm ftz d a b) d .w64 [f64 a, f64 b] (fun v => r64 (two binary64 rm ftz sub (arg v 0).toNat (arg v 1).toNat)) ∧
    ComputesLanes (.dsubI rm ftz d a imm) d .w64 [f64 a] (fun v => r64 (two binary64 rm ftz sub (arg v 0).toNat wd)) ∧
    ComputesLanes (.dmul rm ftz d a b) d .w64 [f64 a, f64 b] (fun v => r64 (two binary64 rm ftz Val.mul (arg v 0).toNat (arg v 1).toNat)) ∧
    ComputesLanes (.dmulI rm ftz d a imm) d .w64 [f64 a] (fun v => r64 (two binary64 rm ftz Val.mul (arg v 0).toNat wd)) ∧
    ComputesLanes (.dfma rm ftz d a b c) d .w64 [f64 a, f64 b, f64 c] (fun v =>
      r64 (fma binary64 rm ftz (arg v 0).toNat (arg v 1).toNat (arg v 2).toNat)) ∧
    ComputesLanes (.pkadd ty rm ftz d a b) d .w32 [pk ty a, pk ty b] (fun v =>
      r32 (two (pkFmt ty) rm ftz (·.add rm ·) (lo (argW v 0)) (lo (argW v 1)) + 2 ^ 16 * two (pkFmt ty) rm ftz (·.add rm ·) (hi (argW v 0)) (hi (argW v 1)))) ∧
    ComputesLanes (.pkaddI ty rm ftz d a imm) d .w32 [pk ty a] (fun v =>
      r32 (two (pkFmt ty) rm ftz (·.add rm ·) (lo (argW v 0)) (lo imm) + 2 ^ 16 * two (pkFmt ty) rm ftz (·.add rm ·) (hi (argW v 0)) (hi imm))) ∧
    ComputesLanes (.pkmul ty rm ftz d a b) d .w32 [pk ty a, pk ty b] (fun v =>
      r32 (two (pkFmt ty) rm ftz Val.mul (lo (argW v 0)) (lo (argW v 1)) + 2 ^ 16 * two (pkFmt ty) rm ftz Val.mul (hi (argW v 0)) (hi (argW v 1)))) ∧
    ComputesLanes (.pkmulI ty rm ftz d a imm) d .w32 [pk ty a] (fun v =>
      r32 (two (pkFmt ty) rm ftz Val.mul (lo (argW v 0)) (lo imm) + 2 ^ 16 * two (pkFmt ty) rm ftz Val.mul (hi (argW v 0)) (hi imm))) ∧
    ComputesLanes (.pkfma ty rm ftz d a b c) d .w32 [pk ty a, pk ty b, pk ty c] (fun v =>
      r32 (fma (pkFmt ty) rm ftz (lo (argW v 0)) (lo (argW v 1)) (lo (argW v 2))
        + 2 ^ 16 * fma (pkFmt ty) rm ftz (hi (argW v 0)) (hi (argW v 1)) (hi (argW v 2))))) ∧
  (
  let zero := fun (v : Val) => ∃ neg e, v = .num neg 0 e
  let mn := fun (t : Fmt) (ftz : Bool) (x y : Nat) => t.out .rn ftz ((t.read ftz x).minNum (t.read ftz y))
  let mx := fun (t : Fmt) (ftz : Bool) (x y : Nat) => t.out .rn ftz ((t.read ftz x).maxNum (t.read ftz y))
  let cmp := fun (t : Fmt) (c : Cond) (ftz : Bool) (x y : Nat) => if (t.read ftz x).cond c (t.read ftz y) then low32 1 else low32 0
  (∀ (ftz : Bool) (cond : Cond) (d a b : Opnd) (imm : BitVec 32),
    let wd := convF binary32 binary64 .rn false imm.toNat
    Computes (fun u => .fmin u ftz d a b) d .w32 [f32 a, f32 b] (fun v => r32 (mn binary32 ftz (argW v 0).toNat (argW v 1).toNat)) ∧
    Computes (fun u => .fminI u ftz d a imm) d .w32 [f32 a] (fun v => r32 (mn binary32 ftz (argW v 0).toNat imm.toNat)) ∧
    Computes (fun u => .fmax u ftz d a b) d .w32 [f32 a, f32 b] (fun v => r32 (mx binary32 ftz (argW v 0).toNat (argW v 1).toNat)) ∧
    Computes (fun u => .fmaxI u ftz d a imm) d .w32 [f32 a] (fun v => r32 (mx binary32 ftz (argW v 0).toNat imm.toNat)) ∧
    Computes (fun u => .fcmp u cond ftz d a b) d .w32 [f32 a, f32 b] (fun v => cmp binary32 cond ftz (argW v 0).toNat (argW v 1).toNat) ∧
    Computes (fun u => .fcmpI u cond ftz d a imm) d .w32 [f32 a] (fun v => cmp binary32 cond ftz (argW v 0).toNat imm.toNat) ∧
    ComputesLanes (.dmin ftz d a b) d .w64 [f64 a, f64 b] (fun v => r64 (mn binary64 ftz (arg v 0).toNat (arg v 1).toNat)) ∧
    ComputesLanes (.dminI ftz d a imm) d .w64 [f64 a] (fun v => r64 (mn binary64 ftz (arg v 0).toNat wd)) ∧
    ComputesLanes (.dmax ftz d a b) d .w64 [f64 a, f64 b] (fun v => r64 (mx binary64 ftz (arg v 0).toNat (arg v 1).toNat)) ∧
    ComputesLanes (.dmaxI ftz d a imm) d .w64 [f64 a] (fun v => r64 (mx binary64 ftz (arg v 0).toNat wd)) ∧
    ComputesLanes (.dcmp cond ftz d a b) d .w32 [f64 a, f64 b] (fun v => cmp binary64 cond ftz (arg v 0).toNat (arg v 1).toNat) ∧
    ComputesLanes (.dcmpI cond ftz d a imm) d .w32 [f64 a] (fun v => cmp binary64 cond ftz (arg v 0).toNat wd)) ∧
  (∀ x y : Val,
    Val.nan.minNum x = x ∧ x.minNum .nan = x ∧ Val.nan.maxNum x = x ∧ x.maxNum .nan = x ∧
    (zero x → zero y → x.sign = true → y.sign = false → x.minNum y = x ∧ y.minNum x = x ∧ x.maxNum y = y ∧ y.maxNum x = y) ∧
    (x.lt y = true → x.minNum y = x ∧ y.minNum x = x ∧ x.maxNum y = y ∧ y.maxNum x = y) ∧
    (x.cond .un y = (x.isNan || y.isNan)) ∧ (x.cond .ord y = ! (x.isNan || y.isNan)) ∧
    ((x.isNan || y.isNan) = true → x.cond .eq y = false ∧ x.cond .lt y = false ∧ x.cond .le y = false ∧ x.cond .gt y = false ∧
      x.cond .ge y = false ∧ x.cond .ne y = true) ∧
    ((x.isNan || y.isNan) = false → x.cond .lt y = x.lt y ∧ x.cond .gt y = y.lt x ∧ x.cond .le y = ! y.lt x ∧ x.cond .ge y = ! x.lt y ∧
      x.cond .eq y = (! x.lt y && ! y.lt x) ∧ x.cond .ne y = (x.lt y || y.lt x)) ∧
    (zero x → zero y → x.cond .eq y = true)))

/-- R197, R198 and R199: each of FRCP, FRSQ, FSQRT, FEXP2, FLOG2, FSIN, FCOS, FRND, FCLASS, DRCP and DRSQ completes in every state in which it
issues and its gang registers are readable, with its result in every active lane. The special values of R197 hold on the whole of their ranges, `in()`
applied first: zeros, infinities and NaNs; every a below 0 for FRSQ, DRSQ, FSQRT and FLOG2; every a of at least 128, and of at most -150, for FEXP2; 1.0
for FLOG2; the integers for FSIN and FCOS, and the halves between them for FCOS. FRND keeps the sign and rounds to an integral value, and returns
what has a magnitude of 2^23 or more unchanged. FCLASS sets the one bit of the class. -/
def Obligations.FloatFunctionResults : Prop :=
  let f := fun (g : Val → Val) (ftz : Bool) (x : Nat) => binary32.out .rn ftz (g (binary32.read ftz x))
  let g := fun (h : Val → Val) (ftz : Bool) (x : Nat) => binary64.out .rn ftz (h (binary64.read ftz x))
  (∀ (rm : Round) (ftz : Bool) (d a : Opnd) (s : State) (iss : Issue), d.isGang = false → Runs s iss →
    (Clear s iss.gang (gangRegs [(a, 1)]) [] →
      ∀ i ∈ [Instr.frcp ftz d a, .frsq ftz d a, .fsqrt ftz d a, .fexp2 ftz d a, .flog2 ftz d a, .fsin ftz d a, .fcos ftz d a, .frnd rm ftz d a,
        .fclass ftz d a], ∃ t, exec i s = .next t) ∧
    (Clear s iss.gang (gangRegs [(a, 2)]) [] → ∀ i ∈ [Instr.drcp ftz d a, .drsq ftz d a], ∃ t, exec i s = .next t)) ∧
  (∀ (rm : Round) (ftz : Bool) (d a : Opnd),
    ComputesLanes (.frcp ftz d a) d .w32 [f32 a] (fun v => r32 (f Val.recip ftz (argW v 0).toNat)) ∧
    ComputesLanes (.frsq ftz d a) d .w32 [f32 a] (fun v => r32 (f Val.rsqrt ftz (argW v 0).toNat)) ∧
    ComputesLanes (.fsqrt ftz d a) d .w32 [f32 a] (fun v => r32 (f Val.sqrt ftz (argW v 0).toNat)) ∧
    ComputesLanes (.fexp2 ftz d a) d .w32 [f32 a] (fun v => r32 (exp2F ftz (argW v 0))) ∧
    ComputesLanes (.flog2 ftz d a) d .w32 [f32 a] (fun v => r32 (log2F ftz (argW v 0))) ∧
    ComputesLanes (.fsin ftz d a) d .w32 [f32 a] (fun v => r32 (sinF ftz (argW v 0))) ∧
    ComputesLanes (.fcos ftz d a) d .w32 [f32 a] (fun v => r32 (cosF ftz (argW v 0))) ∧
    ComputesLanes (.drcp ftz d a) d .w64 [f64 a] (fun v => r64 (g Val.recip ftz (arg v 0).toNat)) ∧
    ComputesLanes (.drsq ftz d a) d .w64 [f64 a] (fun v => r64 (g Val.rsqrt ftz (arg v 0).toNat)) ∧
    ComputesLanes (.frnd rm ftz d a) d .w32 [f32 a] (fun v => r32 (f (Val.integral rm) ftz (argW v 0).toNat)) ∧
    ComputesLanes (.fclass ftz d a) d .w32 [f32 a] (fun v => low32 (2 ^ floatClass ftz (argW v 0).toNat))) ∧
  (∀ q ∈ [(binary32, 0x80000000, 0x7F800000, 0x7FC00000), (binary64, 0x8000000000000000, 0x7FF0000000000000, 0x7FF8000000000000)],
    ∀ (ftz neg : Bool) (x m : Nat) (e : Int),
      let h := fun (op : Val → Val) => q.1.out .rn ftz (op (q.1.read ftz x))
      let v := q.1.read ftz x
      let sign := if neg then q.2.1 else 0
      (v = .nan → h Val.recip = q.2.2.2 ∧ h Val.rsqrt = q.2.2.2) ∧
      (v = .num neg 0 e → h Val.recip = sign + q.2.2.1 ∧ h Val.rsqrt = sign + q.2.2.1) ∧
      (v = .inf neg → h Val.recip = sign) ∧ (v = .inf false → h Val.rsqrt = 0) ∧
      (v = .inf true ∨ (v = .num true m e ∧ m ≠ 0) → h Val.rsqrt = q.2.2.2)) ∧
  (∀ (rm : Round) (ftz neg : Bool) (x : Word) (m n : Nat) (e : Int),
    let v := binary32.read ftz x.toNat
    let size := (m : ℚ) * (2 : ℚ) ^ e
    let sign := if neg then 0x80000000 else 0
    let pinf := 0x7F800000
    let nan := 0x7FC00000
    let one := 0x3F800000
    let root := f Val.sqrt ftz x.toNat
    let whole := f (Val.integral rm) ftz x.toNat
    (v = .nan → root = nan ∧ exp2F ftz x = nan ∧ log2F ftz x = nan ∧ sinF ftz x = nan ∧ cosF ftz x = nan ∧ whole = nan) ∧
    (v = .num neg 0 e → root = sign ∧ exp2F ftz x = one ∧ log2F ftz x = 0x80000000 + pinf ∧ sinF ftz x = sign ∧ cosF ftz x = one ∧ whole = sign) ∧
    (v = .inf false → root = pinf ∧ exp2F ftz x = pinf ∧ log2F ftz x = pinf) ∧
    (v = .inf true → root = nan ∧ exp2F ftz x = 0 ∧ log2F ftz x = nan) ∧
    (v = .inf neg → sinF ftz x = nan ∧ cosF ftz x = nan ∧ whole = sign + pinf) ∧
    (v = .num true m e → m ≠ 0 → root = nan ∧ log2F ftz x = nan) ∧
    (v = .num false m e → 128 ≤ size → exp2F ftz x = pinf) ∧ (v = .num true m e → 150 ≤ size → exp2F ftz x = 0) ∧
    (v = .num false m e → size = 1 → log2F ftz x = 0) ∧
    (v = .num neg m e → n ≠ 0 → size = n → sinF ftz x = sign ∧ cosF ftz x = if n % 2 = 0 then one else 0x80000000 + one) ∧
    (v = .num neg m e → size = n + 1 / 2 → cosF ftz x = 0) ∧
    (v = .num neg m e → m ≠ 0 → ∃ m' e', binary32.read ftz whole = .num neg m' e' ∧ (m' : ℚ) * (2 : ℚ) ^ e' = roundTo rm neg m e 0) ∧
    (150 ≤ x.toNat / 2 ^ 23 % 256 → x.toNat / 2 ^ 23 % 256 < 255 → whole = x.toNat))

/-- R202 to R206: the conversions. -/
def Obligations.ConversionResults : Prop :=
  let src := fun (w : IWidth) (uns : Bool) (x : Nat) =>
    let y := x % 2 ^ w.n
    if uns || decide (y < 2 ^ (w.n - 1)) then (y : Int) else (y : Int) - 2 ^ w.n
  let out := fun (w : IWidth) (x : Int) => match w with
    | .w64 => low64 x
    | _ => low32 x
  let least := fun (w : IWidth) (uns : Bool) => if uns then (0 : Int) else -(2 ^ (w.n - 1))
  let most := fun (w : IWidth) (uns : Bool) => if uns then (2 : Int) ^ w.n - 1 else 2 ^ (w.n - 1) - 1
  let fl := fun (t : FType) (x : Nat) => match t with
    | .f64 => r64 x
    | _ => r32 x
  (∀ (rm : Round) (ft : FType) (iw : IWidth) (uns : Bool) (d a : Opnd),
    Computes (fun u => .cvtif u ft uns iw rm d a) d ft.size [(a, iw.size, .int)] (fun v =>
      let x := src iw uns (arg v 0).toNat
      fl ft ((fmtOf ft).out rm false (.num (decide (x < 0)) x.natAbs 0)))) ∧
  (∀ (rm : Round) (ftz : Bool) (ft : FType) (iw : IWidth) (uns : Bool) (d a : Opnd),
    Computes (fun u => .cvtfi u uns iw ft rm ftz d a) d iw.size [fsrc ft a] (fun v =>
      match (fmtOf ft).read ftz (arg v 0).toNat with
      | .nan => out iw 0
      | .inf neg => out iw (if neg then least iw uns else most iw uns)
      | .num neg m e =>
        let n := if 0 ≤ e then m * 2 ^ e.toNat else roundTo rm neg m e 0
        out iw (max (least iw uns) (min (most iw uns) (if neg then -(n : Int) else n))))) ∧
  (∀ (rm : Round) (ftz : Bool) (fd fa : FType) (d a : Opnd),
    ComputesLanes (.cvtff fd fa rm ftz d a) d fd.size [fsrc fa a] (fun v =>
      fl fd ((fmtOf fd).out rm ftz ((fmtOf fa).read ftz (arg v 0).toNat)))) ∧
  (∀ (wd wa : IWidth) (ud ua sat : Bool) (d a : Opnd),
    Computes (fun u => .cvtii u wd ud wa ua sat d a) d wd.size [(a, wa.size, .int)] (fun v =>
      let x := src wa ua (arg v 0).toNat
      if sat then out wd (max (least wd ud) (min (most wd ud) x)) else out wd (src wd ud (x % 2 ^ wd.n).toNat))) ∧
  (∀ (ty : PkType) (rm : Round) (ftz hi : Bool) (d a b : Opnd),
    ComputesLanes (.packh ty rm ftz d a b) d .w32 [f32 a, f32 b] (fun v =>
      r32 ((pkFmt ty).out rm ftz (binary32.read ftz (argW v 0).toNat) + 2 ^ 16 * (pkFmt ty).out rm ftz (binary32.read ftz (argW v 1).toNat))) ∧
    ComputesLanes (.unpkh ty hi d a) d .w32 [pk ty a] (fun v =>
      r32 (binary32.out .rn false ((pkFmt ty).read false (if hi then (argW v 0).toNat / 2 ^ 16 else (argW v 0).toNat % 2 ^ 16)))))

/-! ### Traces -/

/-- R30, R149, R347: NOP has no effect; STG copies consecutive main registers into slots, which it binds and does not make dirty, and holds
POISON against a lane of which it copies a poisoned register; WBIND only binds. -/
def Obligations.StagingResults : Prop :=
  ∀ (d : BitVec 5) (n : BitVec 8) (k1 : BitVec 5) (s : State) (iss : Issue), Runs s iss →
    let bound := fun th : Thread =>
      { th.step with binds := th.binds ++ (List.range (k1.toNat + 1)).map fun i => (d.toNat + i, n.toNat + i) }
    let poisoned := fun r : LaneRef => ∃ i ≤ k1.toNat, (⟨r.lane, n.toNat + i⟩ : Ix LaneId) ∈ s.vpoi
    GoesOn .nop s s iss ∧
    (∃ t, exec (.wbind d n k1) s = .next t ∧ t = { s with thr := t.thr } ∧
      ∀ x, threadOf t x = if x ∈ iss.threads then bound (threadOf s x) else threadOf s x) ∧
    (∃ t, exec (.stg d n k1) s = .next t ∧ t = { s with thr := t.thr, slot := t.slot, held := t.held } ∧
      (∀ x, threadOf t x = if x ∈ iss.threads then bound (threadOf s x) else threadOf s x) ∧
      (∀ r ∈ issueLanes s iss, ∀ i ≤ k1.toNat, slot t r (d.toNat + i) = vreg s r.lane (n.toNat + i)) ∧
      (∀ r m, (r ∈ issueLanes s iss → m < d.toNat ∨ d.toNat + k1.toNat < m) → slot t r m = slot s r m) ∧
      (∀ r ∈ issueLanes s iss, s.held.find? r = none → poisoned r →
        t.held.find? r = some ⟨.poison, 1, 0, 0, wordAddr (headThread s iss)⟩) ∧
      (∀ r, (r ∈ issueLanes s iss → poisoned r → s.held.find? r ≠ none) → t.held.find? r = s.held.find? r))

/-- R32, R46, R144: GUARD.NZ fails the active lanes whose operand is zero, GUARD.Z those whose operand is not. They leave the mask under
the guard's index with all that they have buffered, dirtied and held of the trace, the others keep theirs, and the issue goes on while it
has an active lane, and straight to the trace end when it has none. -/
def Obligations.GuardResults : Prop :=
  ∀ (z : Bool) (g : BitVec 3) (a : Opnd) (s : State) (iss : Issue), Runs s iss → Clear s iss.gang (gangRegs [(a, 1)]) [] →
    let fails := fun r : LaneRef => (decide (src32 s r .int a = 0)) != z
    let out := fun x : ThreadId => maskOf (((refsOf x (threadOf s x).mask).filter fails).map fun r => r.l % 4)
    ∃ t, exec (.guard z g a) s = .next t ∧
      (∀ x, x ∉ iss.threads → threadOf t x = threadOf s x) ∧
      (∀ x ∈ iss.threads, (threadOf t x).mask = (threadOf s x).mask &&& ~~~(out x) ∧ (threadOf t x).head = (threadOf s x).head ∧
        (threadOf t x).failed = (threadOf s x).failed ++ (if out x = 0 then [] else [(g.toNat, out x)]) ∧
        (threadOf t x).pos = if issueLanes t iss = [] then .body ((threadOf s x).words.length - 1) else (threadOf s x).step.pos) ∧
      (∀ r, traceOf t r = if r ∈ issueLanes s iss ∧ fails r = true then noTrace else traceOf s r) ∧
      t.vreg = s.vreg ∧ t.slot = s.slot ∧ t.echo = s.echo ∧ t.greg = s.greg ∧ t.mem = s.mem ∧ t.wq = s.wq ∧ t.scr = s.scr ∧
        t.opbuf = s.opbuf

/-- R35, R145: a SETTLE at which no active lane holds a fault fixes the passing set, and commands held for the issuing slices wait for
them no longer; nothing else changes. -/
def Obligations.SettleResults : Prop :=
  ∀ (s : State) (iss : Issue), Runs s iss → (headThread s iss).settled = false → (∀ r ∈ issueLanes s iss, s.held.find? r = none) →
    let awaits := fun (u g : Nat) (held : Bool) (hold : List Nat) =>
      decide (iss.h = false ∧ u = iss.u ∧ g = iss.g ∧ held = true ∧ ∃ j ∈ iss.js, j ∈ hold)
    ∃ t, exec .settle s = .next t ∧ t = { s with thr := t.thr, copies := t.copies, mats := t.mats } ∧
      (∀ x, threadOf t x = if x ∈ iss.threads then { (threadOf s x).step with settled := true } else threadOf s x) ∧
      t.copies = s.copies.map (fun c => if awaits c.u c.g c.held c.hold then
        { c with hold := c.hold.filter fun j => ! iss.js.contains j, pass := c.pass ++ (issueLanes s iss).map (·.l) } else c) ∧
      t.mats = s.mats.map (fun c => if awaits c.u c.g c.held c.hold then
        { c with hold := c.hold.filter fun j => ! iss.js.contains j, pass := c.pass ++ (issueLanes s iss).map (·.l) } else c)

/-- R129, R143, R272: a TRACE head whose words stand in memory, keep to the shape of a trace and name what the slices have enters the
trace: no trace state is left of any lane of the slices, a helper's first slots hold the window of its recruitment, and each thread stands
at the first word after the table with its mask as the trace-head mask. -/
def Obligations.TraceEntry : Prop :=
  ∀ (stages : BitVec 6) (guards : BitVec 4) (a : Nat) (ws : List DWord) (s : State) (iss : Issue), Runs s iss → TlbsAgree s →
    (headThread s iss).pos = .head a →
    TraceAt s iss.u a iss.h stages guards (leastAlloc s iss) ws →
    (iss.h = false → ∀ j ∈ iss.js, (sliceOf s ⟨iss.u, iss.g, j⟩).stack.length ≤ 3) →
    let window := fun x : ThreadId => match serveOf s x with
      | some (_, r) => if iss.h then r.window else []
      | none => []
    ∃ s1 t, Looks s s1 ∧ exec (.trace stages guards) s = .next t ∧
      t = { s1 with thr := t.thr, slot := t.slot, dirty := t.dirty, echo := t.echo, buf := t.buf, held := t.held, shad := t.shad,
                    fill := t.fill } ∧
      (∀ x, threadOf t x = if x ∈ iss.threads then entered (threadOf s x) a stages guards ws (decide (1 < iss.js.length)) else threadOf s x) ∧
      ∀ x ∈ iss.threads, ∀ r ∈ threadLanes x, traceOf t r = noTrace ∧ (∀ n, echo t r n = 0) ∧
        ∀ n, slot t r n = if r ∈ issueLanes s iss then (window x).getD n 0 else 0

/-- R36, R37, R43, R125, R146: TEND and CALL go to their target, TENDI and CALLI to the slot pair of each lane, RET to each lane's link
registers as the write-back leaves them; CALL and CALLI write the address of the next word as the link. The trace is settled, then
committed, and then the slices leave it. -/
def Obligations.TraceEndResults : Prop :=
  ∀ (tok : BitVec 16) (off : BitVec 32) (a : BitVec 5) (s : State) (iss : Issue), Runs s iss → iss.h = false →
    ((headThread s iss).settled = true ∨ ∀ r ∈ issueLanes s iss, s.held.find? r = none) → (unitOf s iss.u).status ≠ .ending →
    (∀ x ∈ iss.threads, (threadOf s x).mask ≠ 0 ∧ (sliceOf s ⟨x.u, x.g, x.j⟩).shrink = none ∧
      ((sliceOf s ⟨x.u, x.g, x.j⟩).stack = [] → (sliceOf s ⟨x.u, x.g, x.j⟩).spilled = 0)) →
    let s1 := commit iss (settle iss s).2
    let wa := wordAddr (headThread s iss)
    let target := (((wa : Int) + 8 * off.toInt) % 2 ^ 64).toNat
    let pair := fun r : LaneRef => (slot s r a.toNat).toNat + 2 ^ 32 * (slot s r (a.toNat + 1)).toNat
    let linked := fun r : LaneRef => (writtenBack s1 r none 254).toNat + 2 ^ 32 * (writtenBack s1 r none 255).toNat
    (∃ t, exec (.tend tok off) s = .next t ∧ LeftTrace s1 t iss tok.toNat none fun _ => target) ∧
    (∃ t, exec (.tendi tok a) s = .next t ∧ LeftTrace s1 t iss tok.toNat none pair) ∧
    (∃ t, exec (.call tok off) s = .next t ∧ LeftTrace s1 t iss tok.toNat (some (wa + 8)) fun _ => target) ∧
    (∃ t, exec (.calli tok a) s = .next t ∧ LeftTrace s1 t iss tok.toNat (some (wa + 8)) pair) ∧
    (∃ t, exec (.ret tok) s = .next t ∧ LeftTrace s1 t iss tok.toNat none linked)

/-- R43: the groups of lanes with one next address are taken in order of their lowest lane; a push joins its mask to a top fragment of the
same address and token. The failed groups are those of the guards at which a lane has failed, from the highest guard index down, each with the lanes
that failed at it and the guard's target. A trace end with a token pushes its join entry first, unless the top carries the token already; then the
failed groups in that order, then the queued groups. Without a token, or where the top carries it, it pushes the groups alone, and the first of them
joins a top fragment of its address and token. -/
def Obligations.FragmentOrder : Prop :=
  (∀ l : List (Nat × Nat), (l.map (·.1)).Pairwise (· < ·) → (∀ p ∈ l, p.1 < 4) →
    (∀ m a, (m, a) ∈ groupsOf l ↔ (∃ p ∈ l, p.2 = a) ∧ m = maskOf ((l.filter fun p => p.2 == a).map (·.1))) ∧
    (groupsOf l).Pairwise fun x y => (lanesOf x.1).headD 0 < (lanesOf y.1).headD 0) ∧
  (∀ th : Thread, ∃ (gs : List Nat) (mask : Nat → BitVec 4), failedGroups th = gs.map (fun g => (mask g, th.alts.getD g 0)) ∧
    gs.Pairwise (· > ·) ∧ (∀ g, g ∈ gs ↔ g < th.alts.length ∧ ∃ p ∈ th.failed, p.1 = g ∧ p.2 ≠ 0) ∧
    ∀ g ∈ gs, ∀ i < 4, (mask g).getLsbD i = true ↔ ∃ p ∈ th.failed, p.1 = g ∧ p.2.getLsbD i = true) ∧
  (∀ (f x : Frag) (st : List Frag), f.mask ≠ 0 → pushFrag f (x :: st) =
    if x.join = false ∧ x.addr = f.addr ∧ x.tok = f.tok then { x with mask := x.mask ||| f.mask } :: st else f :: x :: st) ∧
  (∀ (f : Frag) (st : List Frag), (f.mask ≠ 0 → pushFrag f [] = [f]) ∧ (f.mask = 0 → pushFrag f st = st)) ∧
  (∀ (tok joinAddr : Nat) (joinMask : BitVec 4) (gs qs : List (BitVec 4 × Nat)) (st : List Frag),
    (∀ p ∈ gs ++ qs, p.1 ≠ 0) → ((gs ++ qs).map (·.2)).Nodup →
    let frag := fun p : BitVec 4 × Nat => (⟨false, p.1, p.2, tok⟩ : Frag)
    (gs ++ qs ≠ [] → tok ≠ 0 → (∀ x ∈ st.head?, x.tok ≠ tok) →
      pushGroups tok joinAddr joinMask gs qs st = ((gs ++ qs).map frag).reverse ++ ⟨true, joinMask, joinAddr, tok⟩ :: st) ∧
    (tok = 0 ∨ (∃ x ∈ st.head?, x.tok = tok) → ∀ p rest, gs ++ qs = p :: rest →
      (∀ x st', st = x :: st' → x.join = false → x.addr = p.2 → x.tok = tok →
        pushGroups tok joinAddr joinMask gs qs st = (rest.map frag).reverse ++ { x with mask := x.mask ||| p.1 } :: st') ∧
      ((∀ x ∈ st.head?, ¬ (x.join = false ∧ x.addr = p.2 ∧ x.tok = tok)) →
        pushGroups tok joinAddr joinMask gs qs st = ((gs ++ qs).map frag).reverse ++ st))) ∧
  (∀ (tok joinAddr : Nat) (joinMask : BitVec 4) (st : List Frag), pushGroups tok joinAddr joinMask [] [] st = st)

/-- R44, R45, R50, R148: at a MERGE a slice on top of whose stack no entry of the token stands goes on to the next word; one that finds
such an entry pops it, and goes to the fragment's address, or past the MERGE of a join entry, with its lanes that have not exited. At a
REGANG slices wait, until every live slice of the gang waits at the same one: then the gang is joined and goes on to the next word. After a
MERGE only REGANG or TRACE may stand, and after a REGANG only TRACE (R129; the model's `need`, and its rank of a joined gang's next trace among
those that stage entries, log 93). -/
def Obligations.MergeResults : Prop :=
  ∀ (tok : BitVec 16) (a : Nat) (s : State) (iss : Issue), Runs s iss → iss.h = false → (headThread s iss).pos = .head a →
    let sl := fun x : ThreadId => sliceOf s ⟨x.u, x.g, x.j⟩
    let moved := fun th : Thread => { th with pos := .head (a + 8), need := 1, since := s.clock }
    let waits := fun th : Thread => { th with pos := .regang a }
    let live := liveSlices s iss.gang
    let rank := (live.map fun j => (threadOf s ⟨iss.u, iss.g, j, false⟩).rank).foldl max 0
    let rejoined := fun th : Thread => { th with pos := .head (a + 8), need := 2, rank := rank, since := s.clock }
    let popped := fun (th : Thread) (f : Frag) (m : BitVec 4) =>
      { th with pos := .head (if f.join then f.addr + 8 else f.addr), need := (if f.join then 1 else 0), mask := m, head := m, wait := .none,
                since := s.clock }
    ((∀ x ∈ iss.threads, ((sl x).stack = [] → (sl x).spilled = 0) ∧ ∀ f ∈ (sl x).stack.head?, f.tok ≠ tok.toNat) →
      ∃ t, exec (.merge tok) s = .next t ∧ t = { s with thr := t.thr } ∧
        ∀ x, threadOf t x = if x ∈ iss.threads then moved (threadOf s x) else threadOf s x) ∧
    (∀ (f : ThreadId → Frag) (rest : ThreadId → List Frag),
      (∀ x ∈ iss.threads, (sl x).stack = f x :: rest x ∧ (f x).tok = tok.toNat ∧ (f x).mask &&& ~~~(sl x).exited ≠ 0 ∧
        s.serve.find? ⟨x.u, x.g, x.j⟩ = none) →
      ∃ t, exec (.merge tok) s = .next t ∧ t = { s with thr := t.thr, slices := t.slices } ∧
        (∀ x ∈ iss.threads, sliceOf t ⟨x.u, x.g, x.j⟩ = { sl x with stack := rest x } ∧
          threadOf t x = popped (threadOf s x) (f x) ((f x).mask &&& ~~~(sl x).exited)) ∧
        ∀ x, x ∉ iss.threads → threadOf t x = threadOf s x) ∧
    (((∀ j ∈ iss.js, j ∈ live) ∧ ∀ j ∈ live, j ∈ iss.js ∨ (threadOf s ⟨iss.u, iss.g, j, false⟩).pos = .regang a) →
      ∃ t, exec .regang s = .next t ∧ t = { s with thr := t.thr, gangs := t.gangs } ∧
        gangOf t iss.gang = { gangOf s iss.gang with joined := true } ∧
        (∀ j ∈ live, threadOf t ⟨iss.u, iss.g, j, false⟩ = rejoined (threadOf s ⟨iss.u, iss.g, j, false⟩)) ∧
        ∀ x, (∀ j ∈ live, x ≠ ⟨iss.u, iss.g, j, false⟩) → threadOf t x = threadOf s x) ∧
    (((∀ j ∈ iss.js, j ∈ live) ∧ ∃ j ∈ live, j ∉ iss.js ∧ (threadOf s ⟨iss.u, iss.g, j, false⟩).pos ≠ .regang a) →
      ∃ t, exec .regang s = .next t ∧ t = { s with thr := t.thr } ∧
        ∀ x, threadOf t x = if x ∈ iss.threads then waits (threadOf s x) else threadOf s x)

/-- R89, R147, R269, R274, R318: an EXIT that has nothing to wait for ends the lanes of its slices: a slice with no fragment is no longer
live, and when no lane of the unit is left the unit ends and its registers are gone. In a helper context, EXIT returns the lanes.
R150 to R152: YIELD completes at the issue after its first, at which the trace has been committed. A TRAP before SETTLE holds its fault
against every active lane and goes on. A BKPT stops each slice with a pending record, whose number its thread waits for. -/
def Obligations.ExitYieldTrapResults : Prop :=
  (
  ∀ (s : State) (iss : Issue), Runs s iss →
    ((headThread s iss).settled = true ∨ ∀ r ∈ issueLanes s iss, s.held.find? r = none) →
    (iss.h = false → (unitOf s iss.u).status = .resident → (gangOf s iss.gang).recs = [] →
      (∀ r ∈ issueLanes s iss, laneDone (commit iss (settle iss s).2) r = true) →
      (∀ x ∈ iss.threads, (threadOf s x).mask ≠ 0 ∧ (threadOf s x).failed = [] ∧ s.serve.find? ⟨x.u, x.g, x.j⟩ = none ∧
        (sliceOf s ⟨x.u, x.g, x.j⟩).stack = [] ∧ (sliceOf s ⟨x.u, x.g, x.j⟩).spilled = 0) →
      ∃ t, exec .exit s = .next t ∧
        ((∃ g < (unitOf s iss.u).binds.length, ∃ j ∈ liveSlices s ⟨iss.u, g⟩, ¬ (g = iss.g ∧ j ∈ iss.js)) →
          (unitOf t iss.u).status = .resident ∧ ∀ x ∈ iss.threads, (threadOf t x).pos = .dead ∧ (threadOf t x).mask = 0 ∧
            (sliceOf t ⟨x.u, x.g, x.j⟩).exited = (sliceOf s ⟨x.u, x.g, x.j⟩).exited ||| (threadOf s x).mask) ∧
        ((∀ g < (unitOf s iss.u).binds.length, ∀ j ∈ liveSlices s ⟨iss.u, g⟩, g = iss.g ∧ j ∈ iss.js) →
          (unitOf t iss.u).status = .done ∧ (∀ x, x.u = iss.u → threadOf t x = {}) ∧ ∀ l n, l.u = iss.u → vreg t l n = 0)) ∧
    (iss.h = true → ∀ (j : Nat) (sv : Serve), iss.js = [j] → s.serve.find? ⟨iss.u, iss.g, j⟩ = some sv →
      (unitOf s iss.u).status = .resident →
      ∃ t, exec .exit s = .next t ∧ threadOf t ⟨iss.u, iss.g, j, true⟩ = {} ∧ t.serve.find? ⟨iss.u, iss.g, j⟩ = none)) ∧
  (
  ∀ (imm : BitVec 32) (code : BitVec 16) (s : State) (iss : Issue), Runs s iss →
    (waitOf s iss = .none → (unitOf s iss.u).status = .resident →
      ∃ t, exec .yield s = .next t ∧ t = { commit iss s with thr := t.thr } ∧
        ∀ x, threadOf t x = if x ∈ iss.threads then { threadOf (commit iss s) x with wait := .yield } else threadOf (commit iss s) x) ∧
    (waitOf s iss = .yield → GoesOn .yield s (commit iss s) iss) ∧
    ((headThread s iss).settled = false →
      ∃ m t, exec (.trap imm) s = .next t ∧ WentOn m t iss ∧ m = { s with held := m.held } ∧
        ∀ r, m.held.find? r = if r ∈ issueLanes s iss ∧ s.held.find? r = none
          then some ⟨.trap, 0, imm.toNat, 0, wordAddr (headThread s iss)⟩ else s.held.find? r) ∧
    ((∀ q, waitOf s iss ≠ .stopped q) → (unitOf s iss.u).status = .resident → (∀ x ∈ iss.threads, (threadOf s x).mask ≠ 0) →
      ∃ t, exec (.bkpt code) s = .next t ∧ t.frecs.length = s.frecs.length + iss.js.length ∧
        ∀ x ∈ iss.threads, ∃ q, threadOf t x = { threadOf s x with wait := .stopped q } ∧
          ∃ p ∈ t.frecs, p.seq = q ∧ p.ctx = (unitOf s iss.u).ctx ∧ p.cls = .bkpt ∧ p.pending = true ∧ p.thread = x ∧ p.answer = none))

/-! ### Memory -/

/-- R38, R209, R216: LD and GATHER deliver to each active lane the little-endian words of its element's bytes, a narrower element with zeros
above it: the lane's own stores of the trace lie over what its core sees of memory, or of the scratchpad or operand buffer. -/
def Obligations.LoadResults : Prop :=
  ∀ (sp : Space) (w : Width) (hint : Hint) (off : BitVec 24) (d a i : Opnd) (s : State) (iss : Issue), Runs s iss → Plain s iss.u →
    d.isGang = false →
    let ea := fun (r : LaneRef) (ix : Int) =>
      if sp.cached then ((src64 s r .int a).toNat + off.toInt + ix * w.bytes) % 2 ^ 64 else (src32 s r .int a).toNat + off.toInt + ix * w.bytes
    let words := fun bs : List Byte => if w.bytes ≤ 4 then [BitVec.ofNat 32 (leNat bs)]
      else (List.range (w.bytes / 4)).map fun k => BitVec.ofNat 32 (leNat ((bs.drop (4 * k)).take 4))
    let got := fun (r : LaneRef) (x : Int) => (⟨words (seenBytes s r sp x w.bytes), words (seenBytes s r sp x w.bytes)⟩ : Res)
    let index := fun r : LaneRef => (src32 s r .int i).toInt
    (Clear s iss.gang (gangRegs [(a, if sp.cached then 2 else 1)]) [] → (∀ r ∈ issueLanes s iss, Loadable s r sp (ea r 0) w.bytes) →
      ∃ s1, Looks s s1 ∧ GivesLanes (.ld sp w hint off d a) s s1 iss d fun r => got r (ea r 0)) ∧
    (Clear s iss.gang (gangRegs [(a, if sp.cached then 2 else 1)] ++ gangRegs [(i, 1)]) [] →
      (∀ r ∈ issueLanes s iss, Loadable s r sp (ea r (index r)) w.bytes) →
      ∃ s1, Looks s s1 ∧ GivesLanes (.gather sp w hint off d a i) s s1 iss d fun r => got r (ea r (index r)))

/-- R38, R209, R212, R216: ST and SCATTER put the low bytes of each active lane's data into its write area, with the address and, for
memory, the physical addresses that translation gives; no byte of memory changes. -/
def Obligations.StoreResults : Prop :=
  ∀ (sp : Space) (w : Width) (hint : Hint) (off : BitVec 24) (x a i : Opnd) (s : State) (iss : Issue), Runs s iss → Plain s iss.u →
    let bytes := fun r : LaneRef => ((srcWords s r w.size x).flatMap fun v => leBytes 4 v.toNat).take w.bytes
    let buffers := fun (ins : Instr) (ea : LaneRef → Int) => ∃ m t, exec ins s = .next t ∧ WentOn m t iss ∧
      (∃ s1, Looks s s1 ∧ m = { s1 with buf := m.buf }) ∧
      (∀ r ∈ issueLanes s iss, Stored s r sp (ea r) (bytes r) (m.buf.get r [])) ∧
      ∀ r ∉ issueLanes s iss, m.buf.get r [] = s.buf.get r []
    let ea := fun (ix : LaneRef → Int) (r : LaneRef) =>
      if sp.cached then ((src64 s r .int a).toNat + off.toInt + ix r * w.bytes) % 2 ^ 64
      else (src32 s r .int a).toNat + off.toInt + ix r * w.bytes
    let index := fun r : LaneRef => (src32 s r .int i).toInt
    (Clear s iss.gang (gangRegs [(a, if sp.cached then 2 else 1)] ++ gangRegs [(x, w.size.regs)]) [] →
      (∀ r ∈ issueLanes s iss, InReach s r sp (ea (fun _ => 0) r) (bytes r).length true) →
      buffers (.st sp w hint off x a) (ea fun _ => 0)) ∧
    (Clear s iss.gang (gangRegs [(a, if sp.cached then 2 else 1)] ++ gangRegs [(i, 1)] ++ gangRegs [(x, w.size.regs)]) [] →
      (∀ r ∈ issueLanes s iss, InReach s r sp (ea index r) (bytes r).length true) →
      buffers (.scatter sp w hint off x a i) (ea index))

/-- R17, R211, R217, R219, R347: SPILL buffers main registers as they stood at the trace head, FILL's words wait for the trace end, and PREF
brings the sectors of its elements into the L1, but under the stream hint, and changes nothing else; a page outside the leases, or one that does not translate, is
skipped; all of the sectors stay where the L1, of 32,768 sectors, has room for as many as 32
lanes can touch (which ones go where it has not is the model's choice, log 15). -/
def Obligations.SpillFillPrefetchResults : Prop :=
  ∀ (sp : Space) (w : Width) (hint : Hint) (off : BitVec 24) (n : BitVec 8) (k1 : BitVec 5) (a i : Opnd) (s : State) (iss : Issue),
    Runs s iss → Plain s iss.u →
    let ea := fun r : LaneRef => if sp.cached then ((src64 s r .int a).toNat + off.toInt) % 2 ^ 64 else (src32 s r .int a).toNat + off.toInt
    let k := k1.toNat + 1
    let pe := fun r : LaneRef => ((src64 s r .int a).toNat + off.toInt + (src32 s r .int i).toInt * w.bytes) % 2 ^ 64
    (Clear s iss.gang (gangRegs [(a, if sp.cached then 2 else 1)]) [] →
      (∀ r ∈ issueLanes s iss, ea r % 4 = 0 ∧ InReach s r sp (ea r) (4 * k) true ∧
        ∀ j < k, (⟨r.lane, n.toNat + j⟩ : Ix LaneId) ∉ s.vpoi) →
      ∃ m t, exec (.spill sp hint off n k1 a) s = .next t ∧ WentOn m t iss ∧ (∃ s1, Looks s s1 ∧ m = { s1 with buf := m.buf }) ∧
        (∀ r ∈ issueLanes s iss, Stored s r sp (ea r) ((List.range k).flatMap fun j => leBytes 4 (vreg s r.lane (n.toNat + j)).toNat)
          (m.buf.get r [])) ∧
        ∀ r ∉ issueLanes s iss, m.buf.get r [] = s.buf.get r []) ∧
    (Clear s iss.gang (gangRegs [(a, if sp.cached then 2 else 1)]) [] →
      (∀ r ∈ issueLanes s iss, ea r % 4 = 0 ∧ Loadable s r sp (ea r) (4 * k)) →
      ∃ m t, exec (.fill sp hint off n k1 a) s = .next t ∧ WentOn m t iss ∧ (∃ s1, Looks s s1 ∧ m = { s1 with fill := m.fill }) ∧
        (∀ r ∈ issueLanes s iss, ∀ j < k, m.fill.find? ⟨r, n.toNat + j⟩ =
          some (BitVec.ofNat 32 (leNat (((seenBytes s r sp (ea r) (4 * k)).drop (4 * j)).take 4)))) ∧
        ∀ r j, (r ∈ issueLanes s iss → j < n.toNat ∨ n.toNat + k ≤ j) → m.fill.find? ⟨r, j⟩ = s.fill.find? ⟨r, j⟩) ∧
    (Clear s iss.gang (gangRegs [(a, 2)] ++ gangRegs [(i, 1)]) [] →
      ∃ s1, Looks s s1 ∧ GoesOn (.pref w hint off a i) s s1 iss ∧
        (hint = .sm → s1.l1 = s.l1) ∧ (∀ x ∈ s1.l1, x ∈ s.l1 ∨ leasedAt s iss.u x.va = true) ∧
        (hint ≠ .sm → s.secs = [] → (s.l1.filter fun x => x.core == (unitOf s iss.u).core).length + 64 ≤ 32768 →
          (∀ r ∈ issueLanes s iss, InReach s r .gl (pe r) w.bytes false ∧ ∀ j < w.bytes, leasedAt s iss.u ((pe r).toNat + j) = true) →
          ∀ r ∈ issueLanes s iss, ∀ j < w.bytes, ∃ x ∈ s1.l1, x.core = (unitOf s iss.u).core ∧
            x.pa = keyOf s r .gl ((pe r).toNat + j) / 32 * 32))

/-- R36, R38, R68, R91, R214: outside DET launches, a memory commit makes of the buffered stores of each active lane, in lane order, a committed
write of the bytes on pages of unit or core scope, which the L1 keeps, and one of the other bytes, and in each the bytes keep program order; stores to the scratchpad and the operand buffer take effect at once, lane by lane and in program
order. Nothing else of memory changes, and a second commit of the trace changes nothing. -/
def Obligations.CommitResults : Prop :=
  ∀ (s : State) (iss : Issue), Runs s iss → isDet s iss.u = false →
    let c := commit iss s
    let bufs := fun (r : LaneRef) (p : Space → Bool) => (s.buf.get r []).filter fun b => p b.sp
    let cells := fun r : LaneRef => (bufs r (·.cached)).flatMap fun b => b.pas.zip b.bytes
    let loc := fun r : LaneRef => (bufs r (·.cached)).flatMap (·.loc)
    let entries := fun r : LaneRef => ([
      ⟨(unitOf s iss.u).core, r, (unitOf s iss.u).ctx, .core, (cells r).filter fun c => (loc r).contains c.1, loc r, false⟩,
      ⟨(unitOf s iss.u).core, r, (unitOf s iss.u).ctx, widest ((bufs r (·.cached)).map (·.scope)),
        (cells r).filter fun c => ! (loc r).contains c.1, [], false⟩] : List WEntry)
    let placed := fun (m : Memory) (l : List Buf) => l.foldl (fun m b => m.writeN b.addr b.bytes) m
    ((headThread s iss).committed = true → c = s) ∧
    ((headThread s iss).committed = false →
      c.mem = s.mem ∧ c.wq = s.wq ++ ((issueLanes s iss).flatMap entries).filter (fun e => ! e.cells.isEmpty) ∧
      (∀ r, c.buf.get r [] = if r ∈ issueLanes s iss then [] else s.buf.get r []) ∧
      (∀ k, (c.scr.get iss.u {}).read k =
        (placed (s.scr.get iss.u {}) ((issueLanes s iss).flatMap fun r => bufs r (· == .sc))).read k) ∧
      (∀ k, (c.opbuf.get (clusterOf (unitOf s iss.u).core) {}).read k =
        (placed (s.opbuf.get (clusterOf (unitOf s iss.u).core) {}) ((issueLanes s iss).flatMap fun r => bufs r (· == .ob))).read k) ∧
      ∀ x, threadOf c x = if x ∈ iss.threads then { threadOf s x with committed := true } else threadOf s x)

/-- R80, R81, R214: a committed write is performed at home where no earlier write of its core to one of its bytes waits, and, if it lies on pages of
unit or core scope, its lane has made a release since or a later write of its core to one of its bytes of wider scope waits for it, and
otherwise nothing happens; the core that wrote it sees every byte as before, and so does every other core but for the bytes written.
R86: a monitor armed on a line that is written so fires with cause 0 if it has not fired, and an acquire read of the line is marked as written since.
-/
def Obligations.WritesPerformed : Prop :=
  ∀ (core k : Nat) (s : State) (e : WEntry), s.cxl = [] → s.wq[k]? = some e →
    let share := fun x : WEntry => ∃ c ∈ x.cells, ∃ c' ∈ e.cells, c.1 = c'.1
    let may := e.core = core ∧ (∀ x ∈ s.wq.take k, x.core = core → ¬ share x) ∧
      (e.scope.isLocal = false ∨ e.released = true ∨ ∃ x ∈ s.wq.drop (k + 1), x.core = core ∧ x.scope.isLocal = false ∧ share x)
    let writes : MonLine → Bool := fun line => match line with
      | .mem ln => e.cells.any fun c => ! e.loc.contains c.1 && c.1 / 64 * 64 == ln
      | _ => false
    (¬ may → exec (.accessPerformed core k) s = .next s) ∧
    (may → ∃ t, exec (.accessPerformed core k) s = .next t ∧ t.wq = s.wq.take k ++ s.wq.drop (k + 1) ∧
      (∀ p, overlay t.wq core p (t.mem.read p) = overlay s.wq core p (s.mem.read p)) ∧
      (∀ p, (∀ c ∈ e.cells, c.1 ≠ p) → t.mem.read p = s.mem.read p) ∧
      (∀ p b, e.cells.reverse.find? (fun c => c.1 == p) = some (p, b) → t.mem.read p = b) ∧
      (∀ (l : LaneId) (m : Mon), s.mon.find? l = some m → t.mon.find? l = some
        { armed := m.armed, fired := if m.fired.isNone && m.armed.any writes then some 0 else m.fired,
          acq := m.acq.map fun p => if writes p.1 then (p.1, true, p.2.2) else p }) ∧
      t.vreg = s.vreg ∧ t.greg = s.greg ∧ t.thr = s.thr ∧ t.scr = s.scr ∧ t.opbuf = s.opbuf)

/-- R87, R88, R209, R222: ATOM, RED and SCATTER with an operation act lane by lane, in ascending order: each element is read at its home and
replaced by the operation's result, ATOM delivers what it found, a uniform form acts once; the trace's stores are committed before. On pages
of a scope wider than core, home memory holds the results. -/
def Obligations.AtomicResults : Prop :=
  ∀ (u : Bool) (sp : GS) (w : Width) (op : AluOp) (hint : Hint) (d a b c i : Opnd) (s : State) (iss : Issue), Runs s iss → Plain s iss.u →
    w.bytes = 4 ∨ w.bytes = 8 →
    let c0 := commit iss s
    let acts := actsFor u c0 iss
    let by_ := fun r : LaneRef => if u then uniRef iss else r
    let ea := fun (ix : Option Opnd) (r : LaneRef) => eaOf c0 (by_ r) sp.space a 0 (idxOf c0 (by_ r) ix) w.bytes
    let keys := fun (ix : Option Opnd) (r : LaneRef) => keysOf c0 r sp.space (ea ix r) w.bytes
    let val := fun (o : Opnd) (r : LaneRef) => srcW c0 (by_ r) (opType op) (rmwSize w) o
    let ready := fun (ix : Option Opnd) => ∀ r ∈ acts, AtHome c0 r sp.space (ea ix r) w.bytes true true ∧
      (sp.space.cached = true → ∀ k ∈ keys ix r, targetOf k = .package)
    let seq := fun (ix : Option Opnd) (x y : LaneRef → DWord) =>
      homeSeq (keys ix) (fun r old => rmwBytes op w.bytes old (x r) (y r)) acts (byteUnder c0 (uniRef iss) sp.space)
    let left := fun (ix : Option Opnd) (x y : LaneRef → DWord) (s1 : State) =>
      Touched c0 s1 ∧ (∀ k, byteUnder s1 (uniRef iss) sp.space k = (seq ix x y).2 k) ∧
      (sp.space.cached = true → (∀ r ∈ acts, WidePages c0 (unitOf c0 iss.u).ctx (ea ix r).toNat w.bytes) →
        ∀ r ∈ acts, ∀ k ∈ keys ix r, s1.mem.read k = (seq ix x y).2 k)
    let found := fun (l : List (LaneRef × List Byte)) (r : LaneRef) =>
      (⟨loadWords w.bytes (foundBy l r), loadWords w.bytes (foundBy l r)⟩ : Res)
    let base := gangRegs [(a, if sp.space.cached then 2 else 1)]
    (ready none → Clear s iss.gang (base ++ gangRegs [(b, (rmwSize w).regs), (c, (rmwSize w).regs)]) (gangRegs [(d, (rmwSize w).regs)]) →
      (u = false → d.isGang = false → ∃ s1, left none (val b) (val c) s1 ∧
        GivesLanes (.atom false sp w op hint d a b c) s s1 iss d (found (seq none (val b) (val c)).1)) ∧
      (u = true → ∃ s1, left none (val b) (val c) s1 ∧ ∀ r ∈ acts,
        GivesUniform (.atom true sp w op hint d a b c) s s1 iss d (found (seq none (val b) (val c)).1 r))) ∧
    (ready none → Clear s iss.gang (base ++ gangRegs [(b, (rmwSize w).regs)]) [] →
      ∃ s1, left none (val b) (fun _ => 0) s1 ∧ GoesOn (.red u sp w op hint a b) s s1 iss) ∧
    (u = false → ready (some i) → Clear s iss.gang (base ++ gangRegs [(i, 1)] ++ gangRegs [(c, (rmwSize w).regs)]) [] →
      ∃ s1, left (some i) (val c) (fun _ => 0) s1 ∧ GoesOn (.scatterAdd sp w op hint a i c) s s1 iss)

/-- R36, R70, R72, R80, R87, R224: ACQ and ACQLD read the 8-byte object of each lane, in ascending order, and discard the core's L1 lines of
the regions bound to it; ACQLD delivers what it read. REL, once every write of the issue's lanes has been performed, leaves its object as it
was; RELST writes its data to it. -/
def Obligations.ObjectResults : Prop :=
  ∀ (u : Bool) (sp : GS) (hint : Hint) (off : BitVec 24) (d x a : Opnd) (s : State) (iss : Issue), Runs s iss → Plain s iss.u →
    let c0 := commit iss s
    let acts := actsFor u c0 iss
    let by_ := fun r : LaneRef => if u then uniRef iss else r
    let ea := fun r : LaneRef => eaOf c0 (by_ r) sp.space a off 0 8
    let keys := fun r : LaneRef => keysOf c0 r sp.space (ea r) 8
    let view := byteUnder c0 (uniRef iss) sp.space
    let ready := fun (write read : Bool) => ∀ r ∈ acts, AtHome c0 r sp.space (ea r) 8 write read
    let drained := ∀ r ∈ issueLanes s iss, undrained c0 r = false
    let discards := fun s1 : State => sp.space.cached = true → (∀ r ∈ acts, WidePages c0 (unitOf c0 iss.u).ctx (ea r).toNat 8) →
      ∀ r ∈ acts, Discarded c0 (unitOf s iss.u).core (unitOf s iss.u).ctx (ea r).toNat s1
    let read := fun r : LaneRef => res64 (BitVec.ofNat 64 (leNat ((keys r).map view)))
    let base := gangRegs [(a, if sp.space.cached then 2 else 1)]
    (ready false true → Clear s iss.gang base [] →
      ∃ s1, Touched c0 s1 ∧ byteUnder s1 (uniRef iss) sp.space = view ∧ discards s1 ∧ GoesOn (.acq u sp hint off a) s s1 iss) ∧
    (ready false true → Clear s iss.gang base (gangRegs [(d, 2)]) →
      (u = false → d.isGang = false → ∃ s1, Touched c0 s1 ∧ byteUnder s1 (uniRef iss) sp.space = view ∧ discards s1 ∧
        GivesLanes (.acqld false sp hint off d a) s s1 iss d read) ∧
      (u = true → ∃ s1, Touched c0 s1 ∧ byteUnder s1 (uniRef iss) sp.space = view ∧ discards s1 ∧
        ∀ r ∈ acts, GivesUniform (.acqld true sp hint off d a) s s1 iss d (read r))) ∧
    (ready true true → drained → Clear s iss.gang base [] →
      ∃ s1, Touched c0 s1 ∧ byteUnder s1 (uniRef iss) sp.space = view ∧ GoesOn (.rel u sp hint off a) s s1 iss) ∧
    (ready true false → drained → Clear s iss.gang (base ++ gangRegs [(x, 2)]) [] →
      ∃ s1, Touched c0 s1 ∧ (∀ k, byteUnder s1 (uniRef iss) sp.space k =
        (homeSeq keys (fun r _ => leBytes 8 (src64 c0 (by_ r) .int x).toNat) acts view).2 k) ∧ GoesOn (.relst u sp hint off x a) s s1 iss)

/-- R72, R75, R76, R214, R225, R226: FENCE goes on once no write of its lanes to pages of a scope wider than core waits, and the core's L1 has then
no line of such a page, and what its lanes have written to the other pages may leave the L1; until then it waits. XFENCE goes on once no command of its path is left, and, from LS, no write of its lanes; to LS it discards the
core's L1, and to MX it lets the matrix engine see the scratchpad for its gang as it stands (log 97). -/
def Obligations.FenceResults : Prop :=
  ∀ (p q : APath) (s : State) (iss : Issue), Runs s iss →
    let c0 := commit iss s
    let core := (unitOf s iss.u).core
    let drained := ∀ r ∈ issueLanes s iss, undrained c0 r = false
    let dropped := fun (c1 s1 : State) (gone : Sector → Prop) => s1 = { c1 with l1 := s1.l1 } ∧ ∀ x, x ∈ s1.l1 ↔ x ∈ c0.l1 ∧ ¬ gone x
    let freed := { c0 with wq := c0.wq.map fun e =>
      if e.scope.isLocal && (issueLanes s iss).contains e.lane then { e with released := true } else e }
    let quiet := match p with
      | .ls => drained
      | .cp => ∀ c ∈ c0.copies ++ c0.copyLog, ¬ (c.u = iss.u ∧ c.g = iss.g ∧ c.link = false)
      | .lk => ∀ c ∈ c0.copies ++ c0.copyLog, ¬ (c.u = iss.u ∧ c.g = iss.g ∧ c.link = true)
      | .mx => ∀ c ∈ c0.mats ++ c0.matLog, ¬ (c.u = iss.u ∧ c.g = iss.g)
    (drained → ∃ s1, dropped freed s1 (fun x => x.core = core ∧ x.scope.isLocal = false) ∧ GoesOn .fence s s1 iss) ∧
    (¬ drained → (unitOf s iss.u).status = .resident → ∃ t, exec .fence s = .next t ∧
      ∀ x ∈ iss.threads, threadOf t x = { threadOf c0 x with wait := .drain }) ∧
    (quiet → ∃ s1, dropped { c0 with gangs := s1.gangs } s1 (fun x => q = .ls ∧ x.core = core) ∧
      (∀ g, gangOf s1 g = if q = .mx ∧ g = iss.gang then { gangOf c0 g with mxOld := [] } else gangOf c0 g) ∧ GoesOn (.xfence p q) s s1 iss)

/-- R71, R86, R157, R227: BIND acts for the lowest active lane: with aligned operands and its writes performed, the region takes the lowest
free entry of the context's binding table, whose number every active lane receives, or 0xFFFFFFFF where the table is full. UNBIND removes an
entry and says whether it was there; a write to its region keeps the object (R71, log 94). MON arms each lane's monitor on the line of its
element: as of the lane's acquire read of the line since its last MON, which ACQ notes, and then it is fired already with cause 0 where the line has
been written since, else with cause 1 where it has left tracking since (the order of the two is the model's choice, log 95), and otherwise as of the
MON itself, not fired. -/
def Obligations.BindingMonitorResults : Prop :=
  ∀ (sp : GS) (off : BitVec 24) (d a b c : Opnd) (s : State) (iss : Issue) (r0 : LaneRef), Runs s iss → d.isGang = false →
    (issueLanes s iss).head? = some r0 →
    let c0 := commit iss s
    let ctx := (unitOf s iss.u).ctx
    let tab := (ctxOf c0 ctx).bindtab
    let base := (src64 s r0 .int a).toNat
    let size := (src32 s r0 .int b).toNat
    let obj := (src64 s r0 .int c).toNat
    let n := (src32 s r0 .int a).toNat
    let freed := { c0 with wq := c0.wq.map fun e => if e.scope.isLocal && e.lane == r0 then { e with released := true } else e }
    let ea := fun r : LaneRef => eaOf c0 r sp.space a off 0 1
    let line := fun r : LaneRef => match sp with
      | .sc => MonLine.scr iss.u ((ea r).toNat / 64 * 64)
      | .gl => MonLine.mem (keyOf c0 r sp.space (ea r).toNat / 64 * 64)
    (Clear s iss.gang (gangRegs [(a, 2), (b, 1), (c, 2)]) [] → base % 64 = 0 → size % 64 = 0 → size ≠ 0 → obj % 8 = 0 →
      undrained c0 r0 = false →
      (∀ i < 1024, tab.find? i = none → (∀ k < i, tab.find? k ≠ none) →
        GivesLanes (.bind d a b c) s (modCtx ctx (fun x => { x with bindtab := x.bindtab.set i ⟨base, size, obj⟩ }) freed) iss d
          fun _ => res32 (BitVec.ofNat 32 i)) ∧
      ((∀ k < 1024, tab.find? k ≠ none) → GivesLanes (.bind d a b c) s c0 iss d fun _ => res32 0xFFFFFFFF)) ∧
    (Clear s iss.gang (gangRegs [(a, 1)]) [] → undrained c0 r0 = false →
      (∀ g, n < 1024 → tab.find? n = some g → GivesLanes (.unbind d a) s
        (modCtx ctx (fun x => { x with bindtab := x.bindtab.erase n, unbound := g :: x.unbound }) freed) iss d fun _ => res32 1) ∧
      (¬ (n < 1024 ∧ tab.find? n ≠ none) → GivesLanes (.unbind d a) s c0 iss d fun _ => res32 0)) ∧
    (Clear s iss.gang (gangRegs [(a, if sp.space.cached then 2 else 1)]) [] → Plain s iss.u → iss.h = false →
      (∀ r ∈ issueLanes s iss, InReach c0 r sp.space (ea r) 1 false) →
      ∃ m t, exec (.mon sp off a) s = .next t ∧ WentOn m t iss ∧ (∃ s1, Looks c0 s1 ∧ m = { s1 with mon := m.mon }) ∧
        ∀ r ∈ issueLanes s iss, m.mon.get r.lane {} =
          { armed := some (line r), acq := [],
            fired := match (c0.mon.get r.lane {}).acq.find? fun p => p.1 == line r with
              | some (_, true, _) => some 0
              | some (_, false, true) => some 1
              | _ => none }) ∧
    (Clear s iss.gang (gangRegs [(a, if sp.space.cached then 2 else 1)]) [] → Plain s iss.u → iss.h = false →
      issueLanes s iss = [r0] → AtHome c0 r0 sp.space (eaOf c0 r0 sp.space a off 0 8) 8 false true → ∀ hint,
      ∃ t, exec (.acq false sp hint off a) s = .next t ∧
        (t.mon.get r0.lane {}).acq.find? (fun p => p.1 == line r0) = some (line r0, false, false))

/-! ### Lane exchange, queues and barriers -/

/-- R182, R183, R221: what each OP makes of two values in a reduction, a scan and a read-modify-write of 4 or 8 bytes, and the identity that
SCAN.EX writes for it. -/
def Obligations.SharedOperations : Prop :=
  (∀ (op : AluOp) (x y : DWord) (old : List Byte),
    aluOp op x y = combined op x y ∧
    (op ∉ [.xchg, .cas, .dadd] → rmwBytes op 4 old x y = leBytes 4 (combined32 op (BitVec.ofNat 32 (leNat old)) (x.setWidth 32)).toNat) ∧
    (op ∉ [.xchg, .cas, .fadd, .fmin, .fmax] → rmwBytes op 8 old x y = leBytes 8 (combined64 op (BitVec.ofNat 64 (leNat old)) x).toNat) ∧
    rmwBytes .xchg 4 old x y = leBytes 4 (x.setWidth 32).toNat ∧ rmwBytes .xchg 8 old x y = leBytes 8 x.toNat ∧
    (rmwBytes .cas 4 old x y = if leNat old = (y.setWidth 32).toNat then leBytes 4 (x.setWidth 32).toNat else old) ∧
    (rmwBytes .cas 8 old x y = if leNat old = y.toNat then leBytes 8 x.toNat else old)) ∧
  (∀ op ∈ [AluOp.add, .or, .xor, .maxu], aluId op = 0) ∧ (∀ op ∈ [AluOp.and, .minu], aluId op = 0xFFFFFFFF) ∧ aluId .min = 0x7FFFFFFF ∧
  aluId .max = 0x80000000 ∧ aluId .fadd = BitVec.ofNat 64 (binary32.out .rn false (.num true 0 0)) ∧
  aluId .dadd = BitVec.ofNat 64 (binary64.out .rn false (.num true 0 0)) ∧
  aluId .fmin = BitVec.ofNat 64 (binary32.out .rn false (.inf false)) ∧ aluId .fmax = BitVec.ofNat 64 (binary32.out .rn false (.inf true))

/-- R177, R179 to R183: XLANE gives each active lane the value of a source position, or its own where the source is no member, and says
which; VOTE, GREDUX and SCAN give functions of the members of the issue. -/
def Obligations.LaneExchangeResults : Prop :=
  ∀ (xm : XMode) (op : AluOp) (dbl ex seg : Bool) (d a b : Opnd) (s : State) (iss : Issue), Runs s iss → d.isGang = false →
    let lanes := issueLanes s iss
    let w := fun r : LaneRef => src32 s r .int a
    let n := fun r : LaneRef => (src32 s r .int b).toNat
    let value := fun r : LaneRef => srcW s r (opType op) op.size a
    let result := fun (wide : Bool) (x : DWord) (more : List Word) =>
      (if wide then ⟨[x.setWidth 32, (x >>> 32).setWidth 32], [x.setWidth 32, (x >>> 32).setWidth 32] ++ more⟩
        else ⟨[x.setWidth 32], [x.setWidth 32] ++ more⟩ : Res)
    let source : LaneRef → Int := fun r => match xm with
      | .src => (n r : Int)
      | .below => (r.l : Int) - n r
      | .above => (r.l : Int) + n r
      | .mirror => ((r.l ^^^ n r : Nat) : Int)
    let from_ : LaneRef → Option LaneRef := fun r => if 0 ≤ source r ∧ source r ≤ 31 then laneAt s iss (source r).toNat else none
    let sent := fun r : LaneRef => if dbl then src64 s r .int a else (w r).setWidth 64
    let truth := fun p : Bool => low32 (if p then 1 else 0)
    let op2 := combined op
    let flag := fun r : LaneRef => decide (r.l = 0) || (seg && decide (n r ≠ 0))
    let start := fun p : Nat => ((laneAt s iss p).any flag, (laneAt s iss p).map value)
    let inclusive := fun p : Nat => (strideAt op2 start 5 p).2
    (Clear s iss.gang (gangRegs [(a, if dbl then 2 else 1), (b, 1)]) [] →
      GivesLanes (.xlane xm dbl d a b) s s iss d fun r => result dbl (sent ((from_ r).getD r)) [if (from_ r).isSome then 1 else 0]) ∧
    (Clear s iss.gang (gangRegs [(a, 1)]) [] →
      GivesLanes (.vote .all d a) s s iss d (fun _ => truth (decide (∀ r ∈ lanes, w r ≠ 0))) ∧
      GivesLanes (.vote .any d a) s s iss d (fun _ => truth (decide (∃ r ∈ lanes, w r ≠ 0))) ∧
      GivesLanes (.vote .same d a) s s iss d (fun _ => truth (decide (∀ r ∈ lanes, ∀ r' ∈ lanes, w r = w r'))) ∧
      ∃ m : Word, (∀ p < 32, m.getLsbD p = (laneAt s iss p).any fun r => decide (w r ≠ 0)) ∧
        GivesLanes (.vote .mask d a) s s iss d fun _ => res32 m) ∧
    (Clear s iss.gang (gangRegs [(a, op.size.regs)]) [] →
      GivesLanes (.gredux op d a) s s iss d fun _ =>
        result (decide (op = .dadd)) ((treeAt op2 (fun p => (laneAt s iss p).map value) 5 0).getD 0) []) ∧
    (Clear s iss.gang (gangRegs [(a, op.size.regs), (b, 1)]) [] →
      GivesLanes (.scan op ex seg d a b) s s iss d fun r => result (decide (op = .dadd))
        (if ex then if flag r then aluId op else (inclusive (r.l - 1)).getD (aluId op) else (inclusive r.l).getD 0) [])

/-- R153, R154, R155: a BAR or BARL whose instance has completed departs, BARL with 1 in every active lane of the gang that holds the role
and 0 in the others. An arrival of a whole gang, none of whose slices had gone ahead of the others, is noted: the first sets the expected
count, ARRIVE goes on, BAR and BARL wait, and an instance that the arrival completes lets its waiters depart with the highest arrived gang
as its role (and with a rank of their next traces no lower than those of the gangs that arrived, the model's own order of staged entries, log 93). -/
def Obligations.BarrierResults : Prop :=
  ∀ (b : BitVec 4) (a d : Opnd) (s : State) (iss : Issue), Runs s iss → Clear s iss.gang (gangRegs [(a, 1)]) [] →
    let c0 := commit iss s
    let x := (unitOf s iss.u).barriers.get b.toNat {}
    let count := min (src32 s (uniRef iss) .int a).toNat 32
    let expect := if x.arrived = [] then some count else x.expect
    let arrived := x.arrived ++ [iss.g]
    let complete : Bool := match expect with
      | none => false
      | some 0 => decide (∀ g < (unitOf s iss.u).binds.length, liveSlices s ⟨iss.u, g⟩ ≠ [] → g ∈ arrived)
      | some n => decide (min (min n 32) (unitOf s iss.u).binds.length ≤ arrived.length)
    let after := fun (rank : Nat) (x' : ThreadId) (y : Thread) =>
      if complete = true ∧ x'.u = iss.u ∧ y.wait = .barrier b.toNat x.inst then { y with wait := .departed (arrived.foldl max 0), rank := rank } else y
    let arrives := fun (i : Instr) (own : Thread → Thread) => ∃ t rank, exec i s = .next t ∧ t = { c0 with thr := t.thr, units := t.units } ∧
      (∀ y, y.u = iss.u → y.g ∈ arrived → (threadOf c0 y).rank ≤ rank) ∧
      (unitOf t iss.u).barriers.get b.toNat {} = (if complete then { inst := x.inst + 1 } else ⟨x.inst, expect, arrived, []⟩) ∧
      (∀ v, unitOf t v = { unitOf c0 v with barriers := (unitOf t v).barriers }) ∧
      (∀ v k, (v, k) ≠ (iss.u, b.toNat) → (unitOf t v).barriers.get k {} = (unitOf s v).barriers.get k {}) ∧
      ∀ y, threadOf t y = after rank y (if y ∈ iss.threads then own (threadOf c0 y) else threadOf c0 y)
    (∀ r, waitOf s iss = .departed r → GoesOn (.bar b a) s s iss ∧
      (d.isGang = false → GivesLanes (.barl d b a) s s iss d fun _ => low32 (if r = iss.g then 1 else 0))) ∧
    (waitOf s iss = .none → (unitOf s iss.u).status = .resident → iss.h = false → (∀ y ∈ iss.threads, (threadOf s y).mask ≠ 0) →
      iss.js = liveSlices s iss.gang → x.executed = [] → iss.g ∉ x.arrived → (x.arrived = [] → x.expect = none) →
      arrives (.arrive b a) Thread.step ∧
      arrives (.bar b a) (fun y => { y with wait := .barrier b.toNat x.inst }) ∧
      arrives (.barl d b a) (fun y => { y with wait := .barrier b.toNat x.inst }))

/-- R86, R158: a WAITMON goes on when every active lane has a cause, which the lane receives: pre-emption, that of its own monitor, 5 where no
monitor is armed, or that of the timer. Otherwise each slice goes on by itself when its own active lanes have causes, and else returns, a lane
without a cause with cause 4, or waits. -/
def Obligations.WaitmonResults : Prop :=
  ∀ (d : Opnd) (s : State) (iss : Issue), Runs s iss → d.isGang = false →
    let c0 := commit iss s
    let woken := match waitOf s iss with
      | .monitor _ w => w
      | _ => none
    let own : LaneRef → Option Nat := fun r => match (c0.mon.get r.lane {}).fired with
      | some c => some c
      | none => if (c0.mon.get r.lane {}).armed = none then some 5 else none
    let cause : Option Nat → LaneRef → Option Nat := fun woken r => if woken = some 3 then some 3 else (own r).or woken
    ((∀ r ∈ issueLanes s iss, cause woken r ≠ none) →
      GivesLanes (.waitmon d) s c0 iss d fun r => low32 ((cause woken r).getD 0)) ∧
    ((∃ r ∈ issueLanes s iss, cause woken r = none) → (unitOf s iss.u).status = .resident →
      ∃ t, exec (.waitmon d) s = .next t ∧
        t = { c0 with thr := t.thr, slot := t.slot, dirty := t.dirty, echo := t.echo, free := t.free } ∧
        (∀ x ∈ iss.threads, (threadOf s x).mask ≠ 0 →
          let q : Nat × Option Nat := match (threadOf s x).wait with
            | .monitor a w => (a, w)
            | _ => (s.clock, none)
          let mine := refsOf x (threadOf s x).mask
          let on := threadOf t x = (threadOf c0 x).step ∧ ∀ r ∈ mine, let v := BitVec.ofNat 32 ((cause q.2 r).getD 4)
            echo t r 0 = v ∧ ∀ n, d = .slot n → slot t r n.toNat = v ∧ isDirty t r n.toNat = true
          let stays := threadOf t x = { threadOf c0 x with wait := .monitor q.1 q.2 } ∧
            ∀ r ∈ mine, (∀ n, slot t r n = slot s r n) ∧ ∀ n, echo t r n = echo s r n
          (on ∨ stays) ∧ ((∀ r ∈ mine, cause q.2 r ≠ none) → on)) ∧
        ∀ x, x ∉ iss.threads → threadOf t x = threadOf s x)

/-- R116, R159, R160: QPUSH appends the items of the first lanes for which the queue has room, QPOP removes as many of its oldest items as lanes act,
each lane in ascending order, with status 1 or 0, and QLEN gives the count. A uniform form acts once, and a queue that is not mapped has
capacity 0. -/
def Obligations.QueueResults : Prop :=
  ∀ (u : Bool) (q : BitVec 6) (d e a : Opnd) (s : State) (iss : Issue), Runs s iss →
    let c0 := commit iss s
    let acts := if u then [uniRef iss] else issueLanes s iss
    let item := fun r : LaneRef => itemOf (src128 s r a)
    let gives := fun (i : Bool → Instr) (s1 : State) (o : Opnd) (f : LaneRef → Res) =>
      (u = false → o.isGang = false → GivesLanes (i false) s s1 iss o f) ∧ (u = true → GivesUniform (i true) s s1 iss o (f (uniRef iss)))
    let pops := fun (s1 : State) (f g : LaneRef → Res) => ∃ m1 m t, exec (.qpop u q d e) s = .next t ∧ WentOn m t iss ∧
      (u = false → LaneResult s1 m1 iss d f ∧ LaneResult m1 m iss e g) ∧
      (u = true → UniResult s1 m1 iss d (f (uniRef iss)) ∧ UniResult m1 m iss e (g (uniRef iss)))
    let popped := fun (x : Option QWord) =>
      (⟨itemWords (x.getD 0), if d = .zero then itemWords (x.getD 0) else [(x.getD 0).setWidth 32]⟩ : Res)
    let push := Clear s iss.gang (gangRegs [(a, 4)]) (gangRegs [(d, 1)])
    let pop := Clear s iss.gang [] (gangRegs [(d, 4), (e, 1)])
    let len := Clear s iss.gang [] (gangRegs [(d, 1)])
    (∀ m, (ctxOf s (unitOf s iss.u).ctx).queues.find? q.toNat = some m → m.caplog ≠ 0 →
      let key := (m.die, m.hwq)
      let items := s.lodes.get key []
      let room := 2 ^ m.caplog - items.length
      let holds := fun (s1 : State) (l : List QWord) => s1 = { c0 with lodes := s1.lodes } ∧ s1.lodes.get key [] = l ∧
        ∀ k, k ≠ key → s1.lodes.get k [] = s.lodes.get k []
      (push → ∃ s1, holds s1 (items ++ (acts.take room).map item) ∧
        gives (fun u => .qpush u q d a) s1 d fun r => low32 (if r ∈ acts.take room then 1 else 0)) ∧
      (pop → (u = false → d.isGang = false ∧ e.isGang = false) → ∃ s1, holds s1 (items.drop acts.length) ∧
        pops s1 (fun r => popped (items[acts.idxOf r]?)) fun r => low32 (if acts.idxOf r < items.length then 1 else 0)) ∧
      (len → gives (fun u => .qlen u q d) c0 d fun _ => low32 items.length)) ∧
    ((∀ m, (ctxOf s (unitOf s iss.u).ctx).queues.find? q.toNat = some m → m.caplog = 0) →
      (push → gives (fun u => .qpush u q d a) c0 d fun _ => low32 0) ∧
      (pop → (u = false → d.isGang = false ∧ e.isGang = false) → pops c0 (fun _ => popped none) fun _ => low32 0) ∧
      (len → gives (fun u => .qlen u q d) c0 d fun _ => low32 0))

/-! ### Special registers, roles, allocation and fibres -/

/-- R14, R161, R162, R163: GETS gives each active lane, or the issue once, the special register that it names; SETS makes the value of the
lowest active lane the gang's MARK, or its low four bits the gang's EVTAG; ROLE sets the gang's class. -/
def Obligations.SpecialRegisterResults : Prop :=
  ∀ (d a : Opnd) (role : Role) (s : State) (iss : Issue) (r0 : LaneRef), Runs s iss → (issueLanes s iss).head? = some r0 →
    let un := unitOf s iss.u
    let launch := ((s.launches.find? un.launch).map (·.desc)).getD 0
    let extent := fun lo n : Nat => (launch.extractLsb' lo n).toNat
    let value : SReg → LaneRef → Nat := fun x r => match x with
      | .lane => r.l
      | .slice => r.l / 4
      | .gang => iss.g
      | .unitx => un.idx % extent 64 32
      | .unity => un.idx / extent 64 32 % extent 96 16
      | .unitz => un.idx / extent 64 32 / extent 96 16
      | .nunitx => extent 64 32
      | .nunity => extent 96 16
      | .nunitz => extent 112 16
      | .core => un.core
      | .cluster => un.core / 4
      | .die => un.core / 192
      | .clock => s.clock
      | .launchid => (bindOf s iss.u iss.g).launchId
      | .helpidx => if iss.h then (((s.serve.find? ⟨iss.u, iss.g, r.l / 4⟩).bind fun sv => sv.lanes.find? fun p => p.1 == r.l).map (·.2)).getD 0 else 0
      | .pairside => (bindOf s iss.u iss.g).pair
      | .mark => (gangOf s iss.gang).mark.toNat
      | .evtag => (gangOf s iss.gang).evtag.toNat
    let result := fun (x : SReg) (r : LaneRef) => if x = .clock then low64 (value x r) else low32 (value x r)
    let c0 := commit iss s
    (∀ x, d.isGang = false → GivesLanes (.gets false x d) s s iss d (result x)) ∧
    (∀ x, x ∉ [.lane, .slice, .helpidx] → Clear s iss.gang [] (gangRegs [(d, if x = .clock then 2 else 1)]) →
      GivesUniform (.gets true x d) s (uniformStart s iss d) iss d (result x (uniRef iss))) ∧
    (Clear s iss.gang (gangRegs [(a, 1)]) [] →
      GoesOn (.sets .mark a) s (modGang iss.gang (fun g => { g with mark := src32 s r0 .int a }) c0) iss ∧
      GoesOn (.sets .evtag a) s (modGang iss.gang (fun g => { g with evtag := src32 s r0 .int a &&& 0xF }) c0) iss) ∧
    GoesOn (.role role) s (modGang iss.gang (fun g => { g with role := role }) c0) iss

/-- R54, R55, R56, R57, R164: GROW answers 1 at once where no slice of the request lacks registers, 0 at once above the launch's maximum, and
otherwise blocks until it is answered; SHRINK is noted for the trace end, where the slice's allocation becomes the lower count. A change of
allocation reads zero in the registers given up or gained, and changes no other. Each of GROW (where an answer is due) and SHRINK completes, and so do
the core's grants and denials. Of the requests that are blocked on a core, the first is that of the unit dispatched first, in it of the lowest gang, and
in a parted gang of the lowest slice: it is granted when its registers are free and, unless its unit is the oldest, the growth of the oldest
unit stays covered. In a core whose every gang is stuck and whose first request may not be granted, the requests of the youngest gang that is blocked
are denied, all of a parted one (the model's choice, log 92). -/
def Obligations.AllocationResults : Prop :=
  (∀ (n8 : BitVec 6) (d : Opnd) (s : State) (iss : Issue), Runs s iss → d.isGang = false →
    let n := 8 * n8.toNat
    let c0 := commit iss s
    let slices := if (gangOf s iss.gang).joined then liveSlices s iss.gang else iss.js
    let enough := ∀ j ∈ slices, n ≤ (sliceOf s ⟨iss.u, iss.g, j⟩).nreg
    let most := 8 * (bindOf s iss.u iss.g).regMax
    (waitOf s iss = .none → enough → GivesLanes (.grow n8 d) s c0 iss d fun _ => low32 1) ∧
    (waitOf s iss = .none → ¬ enough → most < n →
      ∃ s1, s1 = { c0 with coreCtr := s1.coreCtr, msix := s1.msix } ∧ GivesLanes (.grow n8 d) s s1 iss d fun _ => low32 0) ∧
    (waitOf s iss = .none → ¬ enough → n ≤ most → (unitOf s iss.u).status = .resident →
      ∃ t, exec (.grow n8 d) s = .next t ∧ t = { c0 with thr := t.thr } ∧ ∀ x ∈ iss.threads, (threadOf t x).wait = .grow n) ∧
    (∀ ok, waitOf s iss = .grown ok → GivesLanes (.grow n8 d) s s iss d fun _ => low32 (if ok then 1 else 0)) ∧
    ∃ m, m = { c0 with slices := m.slices } ∧ GoesOn (.shrink n8) s m iss ∧
      ∀ i, sliceOf m i = if ∃ x ∈ iss.threads, i = ⟨x.u, x.g, x.j⟩ ∧ (threadOf s x).mask ≠ 0 then
          { sliceOf c0 i with shrink := some (match (sliceOf s i).shrink with
            | none => n
            | some k => min n k) }
        else sliceOf c0 i) ∧
  (∀ (x : ThreadId) (n : Nat) (s : State), (sliceOf s ⟨x.u, x.g, x.j⟩).shrink = some n → 8 ≤ n → n ≤ 256 →
    let i : SliceId := ⟨x.u, x.g, x.j⟩
    let t := applyShrink x s
    sliceOf t i = { sliceOf s i with nreg := min n (sliceOf s i).nreg, shrink := none } ∧
    ∀ l k, vreg t l k = if l.u = x.u ∧ l.g = x.g ∧ l.l / 4 = x.j ∧ n < (sliceOf s i).nreg ∧ n - 8 ≤ k ∧ k < 248 then 0 else vreg s l k) ∧
  (∀ (core : Nat) (s : State), KeysOnce s.units →
    let on := fun u : Nat => ∃ x, s.units.find? u = some x ∧ x.core = core ∧ (x.status = .resident ∨ x.status = .ending ∨ x.status = .saving)
    let seq := fun u : Nat => (unitOf s u).seq
    let asks := fun (g : GangId) (j n : Nat) => on g.u ∧ g.g < (unitOf s g.u).binds.length ∧ j ∈ liveSlices s g ∧
      (threadOf s ⟨g.u, g.g, j, false⟩).wait = .grow n
    let request := fun (g : GangId) (js : List Nat) (n : Nat) =>
      ((gangOf s g).joined = true ∧ js ≠ [] ∧ js.Pairwise (· < ·) ∧ (∀ j, j ∈ js ↔ ∃ k, asks g j k) ∧ ∀ j, js.head? = some j → asks g j n) ∨
      ((gangOf s g).joined = false ∧ ∃ j, js = [j] ∧ asks g j n)
    let before := fun (g : GangId) (j : Nat) (g' : GangId) (j' : Nat) =>
      seq g.u < seq g'.u ∨ (g.u = g'.u ∧ (g.g < g'.g ∨ (g.g = g'.g ∧ j < j')))
    let first := fun (g : GangId) (js : List Nat) => ∀ g' j' n', asks g' j' n' → (g' = g ∧ j' ∈ js) ∨ ∃ j ∈ js, before g j g' j'
    let oldest := fun u : Nat => on u ∧ ∀ u', on u' → u' ≠ u → seq u < seq u'
    let need := fun (g : GangId) (js : List Nat) (n : Nat) => (js.map fun j => n - (sliceOf s ⟨g.u, g.g, j⟩).nreg).sum
    let may := fun (g : GangId) (js : List Nat) (n : Nat) => need g js n ≤ freeRows s core ∧
      (oldest g.u ∨ ∃ u, oldest u ∧ need g js n + growthOf s u ≤ freeRows s core)
    let mayNot := fun (g : GangId) (js : List Nat) (n : Nat) => freeRows s core < need g js n ∨
      ∃ u, oldest u ∧ u ≠ g.u ∧ freeRows s core < need g js n + growthOf s u
    let barred := ∃ g js n, request g js n ∧ first g js ∧ mayNot g js n
    let blocked := fun g : GangId => ∃ j n, asks g j n
    let stuck := fun g : GangId => ∀ j ∈ liveSlices s g, (∃ n, (threadOf s ⟨g.u, g.g, j, false⟩).wait = .grow n) ∨
      (∃ b n, (threadOf s ⟨g.u, g.g, j, false⟩).wait = .barrier b n) ∧ ∃ g', g'.u = g.u ∧ blocked g'
    (∀ g js n, request g js n → first g js → may g js n → ∃ t, exec (.growGrant core) s = .next t ∧ ∀ j ∈ js,
      (threadOf t ⟨g.u, g.g, j, false⟩).wait = .grown true ∧ (sliceOf t ⟨g.u, g.g, j⟩).nreg = max n (sliceOf s ⟨g.u, g.g, j⟩).nreg) ∧
    (barred ∨ (∀ g, ¬ blocked g) → exec (.growGrant core) s = .next s) ∧
    ((∀ g : GangId, on g.u → g.g < (unitOf s g.u).binds.length → stuck g) → barred →
      ∀ g, blocked g → (∀ g', blocked g' → g' = g ∨ seq g'.u < seq g.u ∨ (g'.u = g.u ∧ g'.g < g.g)) →
        ∃ t, exec (.growStuckDenial core) s = .next t ∧ t = { s with thr := t.thr, coreCtr := t.coreCtr, msix := t.msix } ∧
          ∀ x,
            let asking := x.u = g.u ∧ x.g = g.g ∧ x.h = false ∧ x.j ∈ liveSlices s g ∧ ∃ n, (threadOf s x).wait = .grow n
            (asking → threadOf t x = { threadOf s x with wait := .grown false }) ∧ (¬ asking → threadOf t x = threadOf s x)))

/-- R236, R237, R238: the fibre instructions act on a shadow, which starts from the lane's committed fields: FOPEN sets it, FCLOSE closes it, FTEST
gives what is left of it, and FNEXT, at the end of the fibre, gives 0 and 0xFFFFFFFF, and else the elements at its position, which it
advances. -/
def Obligations.FibreResults : Prop :=
  ∀ (k : BitVec 3) (cw : CWidth) (vw : VWidth) (dbl : Bool) (hint : Hint) (d e a b c : Opnd) (s : State) (iss : Issue), Runs s iss →
    let lanes := issueLanes s iss
    let f := fun r : LaneRef => (s.shad.find? ⟨r, k.toNat⟩).getD (s.fib.get ⟨r.lane, k.toNat⟩ {})
    let shadowed := fun (s0 m : State) (g : LaneRef → Fibre) => m = { s0 with shad := m.shad } ∧
      ∀ r n, m.shad.find? ⟨r, n⟩ = if r ∈ lanes ∧ n = k.toNat then some (g r) else s.shad.find? ⟨r, n⟩
    let left := fun r : LaneRef => decide ((f r).pos.toNat < (f r).len.toNat)
    let cb := fun r : LaneRef => match (f r).cw with
      | .c2 => 2
      | .c4 => 4
    let vb := fun r : LaneRef => match (f r).vw with
      | .v2 => 2
      | .v4 => 4
      | .v8 => 8
    let at_ := fun (p : DWord) (w : Nat) (r : LaneRef) => (((p.toNat + w * (f r).pos.toNat) % 2 ^ 64 : Nat) : Int)
    let bytes := fun (p : DWord) (w : Nat) (r : LaneRef) => ((leNat (seenBytes s r .gl (at_ p w r) w) : Nat) : Int)
    (Clear s iss.gang (gangRegs [(a, 2), (b, 2), (c, 1)]) [] →
      ∃ m, shadowed s m (fun r => ⟨src64 s r .int a, src64 s r .int b, src32 s r .int c, cw, vw, 0⟩) ∧ GoesOn (.fopen k cw vw a b c) s m iss) ∧
    (∃ m, shadowed s m (fun r => { f r with len := 0, pos := 0 }) ∧ GoesOn (.fclose k) s m iss) ∧
    (d.isGang = false → ∃ m, shadowed s m f ∧
      GivesLanes (.ftest k d) s m iss d fun r => low32 (if left r then (f r).len.toNat - (f r).pos.toNat else 0)) ∧
    (d.isGang = false → e.isGang = false → Plain s iss.u →
      (∀ r ∈ lanes, left r = true → Loadable s r .gl (at_ (f r).cptr (cb r) r) (cb r) ∧ Loadable s r .gl (at_ (f r).vptr (vb r) r) (vb r)) →
      ∃ s0 s1 m1 m t, Looks s s0 ∧ shadowed s0 s1 (fun r => if left r then { f r with pos := (f r).pos + 1 } else f r) ∧
        exec (.fnext k dbl hint d e) s = .next t ∧ WentOn m t iss ∧
        LaneResult s1 m1 iss d (fun r =>
          let v := if left r then bytes (f r).vptr (vb r) r else 0
          if dbl then low64 v else low32 v) ∧
        LaneResult m1 m iss e fun r => low32 (if left r then bytes (f r).cptr (cb r) r else 0xFFFFFFFF))

/-! ### The copy and link engines -/

/-- R51, R228, R229, R230, R231, R232, R234, R365: CPY, CPY2D and CDEC, whose tag has room, whose ranges are in reach and whose record is held,
put one command into the queue of an engine of their core: CPY with an element for each lane, CPY2D with its rows and source stride and with the
addresses and the destination stride of each lane that may come to be the lowest of the copying set, CDEC with its record. A link command has one
remote end.
R115, R232, R233: CSEAL of a tag without an open batch, or whose batch waits for no command, writes the bytes delivered at once, to its gang
register and as the new echo; otherwise it closes the batch under the register, whose token is then pending, and the new echo is 0. -/
def Obligations.CopyIssueAndSealResults : Prop :=
  (
  ∀ (tag : BitVec 3) (lk : Bool) (n1 : BitVec 5) (dsp ssp : GS) (hint : Hint) (d a b : Opnd) (ga gb gc : BitVec 6) (s : State) (iss : Issue),
    Runs s iss → Plain s iss.u → tagFull s iss.gang tag.toNat = false → (lk = true → dsp = .gl ∧ ssp = .gl) →
    let settled := isSettled s iss
    let ctx := (unitOf s iss.u).ctx
    let c0 := if settled then commit iss s else s
    let addr := fun (sp : GS) (o : Opnd) (r : LaneRef) => if sp = .gl then ((src64 s r .int o).toNat : Int) else (src32 s r .int o).toNat
    let regs := fun sp : GS => if sp = .gl then 2 else 1
    let one := fun (x y : Int) => lk = true → ((routeOf s ctx (x % 2 ^ 64).toNat).isSome = true ↔ routeOf s ctx (y % 2 ^ 64).toNat = none)
    let kept := fun (c : CopyCmd) (sp : GS) (x : Int) (n : Nat) =>
      (lk = true → routeOf s ctx (x % 2 ^ 64).toNat = none) → PagesFor s ctx c.pages sp x n
    let supply := if settled then (issueLanes s iss).take 1 else issueLanes s iss
    let m := n1.toNat + 1
    let n := fun r : LaneRef => min (src32 s r .int b).toNat m
    let g16 := fun g : BitVec 6 => (greg s iss.gang g.toNat).toNat % 2 ^ 16
    let sst := (greg s iss.gang gc.toNat).toInt
    let num := (greg s iss.gang ga.toNat).toNat
    let count := (greg s iss.gang gb.toNat).toNat
    let src := fun (r : LaneRef) (i : Nat) => addr ssp a r + i * sst
    let dst := fun (r : LaneRef) (i : Nat) => addr dsp d r + i * (src32 s r .int b).toInt
    (Clear s iss.gang (gangRegs [(d, regs dsp)] ++ gangRegs [(a, regs ssp)] ++ gangRegs [(b, 1)]) [] →
      (∀ r ∈ issueLanes s iss, EndInReach c0 r lk ssp (addr ssp a r) (n r) false ∧ EndInReach c0 r lk dsp (addr dsp d r) m true ∧
        one (addr ssp a r) (addr dsp d r)) →
      CopyQueued (.cpy tag lk n1 dsp ssp hint d a b) s iss tag.toNat lk fun c => c.kind = .lanes m ∧
        c.lanes = (issueLanes s iss).map (fun r => ⟨r.l, endPlace s ctx lk ssp (addr ssp a r), endPlace s ctx lk dsp (addr dsp d r), n r, 0⟩) ∧
        ∀ r ∈ issueLanes s iss, kept c ssp (addr ssp a r) (n r) ∧ kept c dsp (addr dsp d r) m) ∧
    (Clear s iss.gang (gangRegs [(d, regs dsp)] ++ gangRegs [(a, regs ssp)] ++ gangRegs [(b, 1)] ++ [ga.toNat, gb.toNat, gc.toNat]) [] →
      (g16 gb ≠ 0 → ∀ r ∈ supply, ∀ i < g16 ga, EndInReach c0 r lk ssp (src r i) (g16 gb) false ∧ EndInReach c0 r lk dsp (dst r i) (g16 gb) true ∧
        one (src r i) (dst r i)) →
      (lk = true → g16 ga = 0 ∨ g16 gb = 0 → ∀ r ∈ supply, EndInReach c0 r lk ssp (src r 0) 0 false ∧ EndInReach c0 r lk dsp (dst r 0) 0 true ∧
        one (src r 0) (dst r 0)) →
      CopyQueued (.cpy2d tag lk dsp ssp hint d a b ga gb gc) s iss tag.toNat lk fun c => c.kind = .rect (g16 ga) (g16 gb) sst ∧
        c.lanes = supply.map (fun r => ⟨r.l, endPlace s ctx lk ssp (src r 0), endPlace s ctx lk dsp (dst r 0), g16 gb, (src32 s r .int b).toInt⟩) ∧
        ∀ r ∈ supply, ∀ i < g16 ga, kept c ssp (src r i) (g16 gb) ∧ kept c dsp (dst r i) (g16 gb)) ∧
    (Clear s iss.gang (gangRegs [(d, 1), (a, 2)] ++ [ga.toNat, gb.toNat]) [] → num < 64 →
      ∀ rc, s.oprecs.find? (clusterOf (unitOf s iss.u).core, num) = some rc → rc.u = iss.u →
        let range := recRange rc.words
        (∀ r ∈ supply, (∀ e < count, range.1 ≤ (src32 s r .int d).toNat ∧ (src32 s r .int d).toNat + convOff rc.words e + 2 ≤ range.1 + range.2) ∧
          (count ≠ 0 → ∀ p ∈ convReads rc.words count, EndInReach c0 r false .gl ((src64 s r .int a).toNat + p.1) p.2 false)) →
        CopyQueued (.cdec tag hint d a ga gb) s iss tag.toNat false fun c => c.kind = .conv num count rc.words ∧
          c.lanes = supply.map (fun r => ⟨r.l, .mem (src64 s r .int a).toNat, .ob (src32 s r .int d).toNat, count, 0⟩) ∧
          (count ≠ 0 → ∀ r ∈ supply, ∀ p ∈ convReads rc.words count, PagesFor s ctx c.pages .gl ((src64 s r .int a).toNat + p.1) p.2))) ∧
  (
  ∀ (tag : BitVec 3) (d : BitVec 6) (s : State) (iss : Issue), Runs s iss → Clear s iss.gang [] [d.toNat] →
    let c0 := commit iss s
    let batches := (gangOf s iss.gang).batches
    let isOpen := fun y : Batch => y.tag = tag.toNat ∧ y.reg = none
    let left := fun l : List Batch => modGang iss.gang (fun g => { g with batches := l }) c0
    ((∀ y ∈ batches, ¬ isOpen y) → GivesStatus (.cseal tag d) s c0 iss (.gang d) 0) ∧
    (∀ l1 x l2, batches = l1 ++ x :: l2 → isOpen x → (∀ y ∈ l1, ¬ isOpen y) → (∀ y ∈ l1 ++ l2, y.id ≠ x.id) →
      (x.out = [] → GivesStatus (.cseal tag d) s (left (l1 ++ l2)) iss (.gang d) (BitVec.ofNat 32 x.delivered)) ∧
      (x.out ≠ [] → GivesStatus (.cseal tag d) s (left (l1 ++ { x with reg := some d.toNat } :: l2)) iss .zero 0 ∧
        ∀ t, exec (.cseal tag d) s = .next t → tokenPending t iss.gang d.toNat = true)))

/-- R51, R229, R230, R232, R247, R366: a copy command at the head of its engine's queue, no longer held, reads each element and then writes
it, with zeros up to the piece size; a conversion writes each element's BF16 to the operand buffer. The command leaves the queue, and its
batch counts the bytes delivered: a batch that CSEAL has closed and that waits for nothing else writes its token. A command of a trace that has not
had its memory commit leaves its engine, and is counted once the trace has (the model's choice, log 100). A link command counts the bytes that the
peer has acknowledged, and one without a usable link completes with none. -/
def Obligations.CopyCompletion : Prop :=
  ∀ (s : State) (id : Nat) (c : CopyCmd) (l1 l2 : List Batch) (x : Batch),
    s.copies.find? (fun y => y.id == id) = some c → c.held = false →
    (gangOf s ⟨c.u, c.g⟩).batches = l1 ++ x :: l2 → c.id ∈ x.out → (∀ y ∈ l1 ++ l2, c.id ∉ y.out ∧ (y.reg = none ∨ y.out ≠ [])) →
    let isOpen := ∃ p ∈ c.insts, (threadOf s ⟨c.u, c.g, p.1, false⟩).inst = p.2 ∧ (threadOf s ⟨c.u, c.g, p.1, false⟩).committed = false ∧
      ∃ k, (threadOf s ⟨c.u, c.g, p.1, false⟩).pos = .body k
    let head := s.copies.find? (fun y => y.core == c.core && y.link == c.link && ! y.finished && (unitOf s y.u).status != .saving) = some c
    let fresh := c.next = 0 ∧ c.done = [] ∧ c.written = 0 ∧ c.acked = 0 ∧ head
    let same := fun (l l' : List CopyCmd) => l.map (fun y => { y with via := none }) = l'.map fun y => { y with via := none }
    let leaves := fun (t : State) (n : Nat) =>
      let out := x.out.filter (· != c.id)
      (if c.link then same t.copies (s.copies.filter (fun y => y.id != id)) else t.copies = s.copies.filter (fun y => y.id != id)) ∧
      (gangOf t ⟨c.u, c.g⟩).batches = l1 ++ (if x.reg ≠ none ∧ out = [] then [] else [{ x with delivered := x.delivered + n, out := out }]) ++ l2 ∧
      (∀ r, x.reg = some r → out = [] → greg t ⟨c.u, c.g⟩ r = BitVec.ofNat 32 (x.delivered + n)) ∧
      (∀ g r, ¬ (g = ⟨c.u, c.g⟩ ∧ x.reg = some r ∧ out = []) → greg t g r = greg s g r) ∧
      t.thr = s.thr ∧ t.vreg = s.vreg ∧ t.slot = s.slot ∧ t.wq = s.wq ∧ t.mats = s.mats
    let remains := fun (t : State) (n : Nat) => t.gangs = s.gangs ∧ t.greg = s.greg ∧ t.thr = s.thr ∧
      t.copies = s.copies.map fun y => if y.id = id then { y with finished := true, acked := n } else y
    let row := fun (l : LaneCopy) (nb : Nat) (sst : Int) (i : Nat) => (l.src.at_ (i * sst), nb, l.dst.at_ (i * l.stride), nb)
    let elems := match c.kind, c.lanes with
      | .lanes m, ls => ls.map fun l => (l.src, l.n, l.dst, m)
      | .rect rows nb sst, l :: _ => if nb = 0 then [] else (List.range rows).map (row l nb sst)
      | _, _ => []
    let bytes := (elems.map fun e => e.2.1).sum
    let here := ∀ e ∈ elems, e.1.isFar = false ∧ e.2.2.1.isFar = false ∧ e.2.1 ≤ e.2.2.2
    let usable := c.via ≠ none ∨ linkFor s c ≠ none
    let cells := fun (l : Loc) (n : Nat) (bs : List Byte) => ((List.range n).flatMap fun i => placeKeys c.pages (l.at_ (i : Nat)) 1).zip bs
    (c.link = false → s.cxl = [] → c.finished = false → fresh → here → (∀ num n desc, c.kind ≠ .conv num n desc) →
      ∃ t, exec (.copyCommandComplete id) s = .next t ∧ (¬ isOpen → leaves t bytes) ∧ (isOpen → remains t bytes) ∧
        (∀ k, unitView t c.u k = carried c.pages elems (unitView s c.u) k) ∧
        (∀ u k, u ≠ c.u → (t.scr.get u {}).read k = (s.scr.get u {}).read k) ∧
        ∀ cl k, cl ≠ clusterOf (unitOf s c.u).core → (t.opbuf.get cl {}).read k = (s.opbuf.get cl {}).read k) ∧
    (∀ num count desc l va off, c.link = false → c.finished = false → fresh → ¬ isOpen → c.kind = .conv num count desc → c.lanes.head? = some l →
      l.src = .mem va → l.dst = .ob off →
      let source := fun i : Nat => s.mem.read (physOf c.pages ((va + i) % 2 ^ 64))
      let scale := fun e : Nat => binary32.read false (leNat ((List.range 4).map fun i => source (desc.getD 6 0 + 4 * (e / desc.getD 4 1) + i)))
      let value := fun e : Nat => (convElem desc (fun i => (source i, false)) e).1
      ∃ t, exec (.copyCommandComplete id) s = .next t ∧ leaves t (2 * count) ∧ t.mem = s.mem ∧ t.scr = s.scr ∧
        ∀ e < count, (∀ e' < count, e < e' → convOff desc e' ≠ convOff desc e) → ∀ i < 2,
          (t.opbuf.get (clusterOf (unitOf s c.u).core) {}).read (off + convOff desc e + i) =
            (leBytes 2 (bfloat16.out .rn false (if (desc.getD 0 0).testBit 17 then (value e).mul (scale e) else value e))).getD i 0) ∧
    (c.finished = true → ¬ isOpen → ∃ t, leaves t c.acked ∧ t.mem = s.mem ∧ t.scr = s.scr ∧ t.opbuf = s.opbuf ∧
      exec (if c.link then .linkCommandComplete id 0 [] else .copyCommandComplete id) s = .next t) ∧
    (∀ n data, c.link = true → c.finished = false → fresh → ¬ isOpen → usable → (∀ l ∈ c.lanes, l.src.isFar = false ∧ l.dst.isFar = true) →
      ∃ t, exec (.linkCommandComplete id n data) s = .next t ∧ leaves t (min n bytes) ∧ t.mem = s.mem ∧ t.scr = s.scr ∧ t.opbuf = s.opbuf) ∧
    (∀ n data, c.link = true → c.finished = false → fresh → ¬ isOpen → ¬ usable →
      ∃ t, exec (.linkCommandComplete id n data) s = .next t ∧ leaves t 0 ∧ t.mem = s.mem ∧ t.scr = s.scr ∧ t.opbuf = s.opbuf) ∧
    (∀ (n : Nat) (data : List Byte), c.link = true → s.cxl = [] → c.finished = false → fresh → ¬ isOpen → usable → data.length = bytes →
      (∀ e ∈ elems, e.1.isFar = true ∧ e.2.2.1.isFar = false ∧ e.2.1 ≤ e.2.2.2) → elems ≠ [] →
      ∃ t, exec (.linkCommandComplete id n (data.map fun b => some (b, false))) s = .next t ∧ leaves t bytes ∧
        ∀ k, unitView t c.u k = laid (unitView s c.u)
          ((elems.mapIdx fun i e => cells e.2.2.1 e.2.1 (data.drop ((elems.take i).map fun e => e.2.1).sum)).flatten ++
            elems.flatMap fun e => (placeKeys c.pages (e.2.2.1.at_ (e.2.1 : Nat)) (e.2.2.2 - e.2.1)).zip (List.replicate (e.2.2.2 - e.2.1) 0)) k)

/-! ### The matrix engine -/

/-- R248, R249, R250, R255, R257, R258, R260, R262: the matrix commands, when their checks pass, enter their core's queue with the scalar operands of each
issuing lane and the extents that the gang registers hold. MGATH, MMA, MMAP and MZERO go on at once; GUIDE, MST, MLD, MSPSEL and SPST wait
until their command completes, and then go on, GUIDE with its status. SPST takes its bound and its first entry from the header of its lowest
lane, as the trace's memory commit leaves it (R36). -/
def Obligations.MatrixIssueResults : Prop :=
  ∀ (part : RowPart) (spf co bf : Bool) (t : BitVec 8) (sp : GS) (hint : Hint) (x a b o d : Opnd) (ga gb gc : BitVec 6) (s : State) (iss : Issue),
    Runs s iss → Plain s iss.u →
    let settled := isSettled s iss
    let c0 := if settled then commit iss s else s
    let c1 := commit iss s
    let num := fun (o : Opnd) (r : LaneRef) => (src32 s r .int o).toNat
    let addr := fun r : LaneRef => if sp = .gl then (src64 s r .int a).toNat else num a r
    let reg := fun g : BitVec 6 => (greg s iss.gang g.toNat).toNat
    let stride := (greg s iss.gang gc.toNat).toInt
    let regs := [ga.toNat, gb.toNat, gc.toNat]
    let areg := gangRegs [(a, if sp = .gl then 2 else 1)]
    let wait := waitOf s iss
    let resident := (unitOf s iss.u).status = .resident
    let pitch := fun (o : Opnd) (r : LaneRef) => pitchAt s iss.u (num o r)
    let operands := fun r : LaneRef => (⟨r.l, num o r, num b r, num x r, 0, pitch b r, pitch x r, 1⟩ : MatLane)
    let pass := fun (kind : MatKind) => freshMat s iss kind operands (reg ga) (reg gb) (reg gc) settled
    let tile := fun (kind : MatKind) (settled : Bool) => freshMat s iss kind (fun r => { l := r.l, o := num o r }) (reg ga) (reg gb) 0 settled
    let move := fun (kind : MatKind) => freshMat s iss kind (fun r => { l := r.l, o := num o r, a := addr r }) (reg ga) (reg gb) 0 true
    let sel := freshMat s iss .mspsel (fun r => ⟨r.l, 0, num d r, num x r, num a r, pitch d r, pitch x r, pitch a r⟩) 0 (reg gb) (reg ga) true
    let async := fun (i : Instr) (c : MatCmd) => MatChecks c0 iss c settled → MatQueued i s iss c
    let sync := fun (i : Instr) (c : MatCmd) => (wait = .none → resident → MatChecks c1 iss c true → MatAwaited i s iss c) ∧
      ∀ v, wait = .done v → GoesOn i s s iss
    (Clear s iss.gang (gangRegs [(a, 1)]) [] →
      async (.mgath part a) (freshMat s iss (.mgath part.bits.toNat) (fun r => { l := r.l, a := num a r }) 0 0 0 settled)) ∧
    (Clear s iss.gang (gangRegs [(b, 1), (o, 1), (x, 1)] ++ regs) [] →
      async (.mma spf co x b o ga gb gc) (pass (.mma spf co)) ∧ async (.mmap spf t x b o ga gb gc) (pass (.mmap spf t.toNat))) ∧
    (Clear s iss.gang (gangRegs [(o, 1)] ++ [ga.toNat, gb.toNat]) [] → async (.mzero o ga gb) (tile .mzero settled)) ∧
    (Clear s iss.gang (gangRegs [(o, 1)] ++ regs) (gangRegs [(d, 1)]) → isStatusDst d →
      (wait = .none → resident → MatChecks c1 iss (tile (.guide (greg s iss.gang gc.toNat)) true) true →
        MatAwaited (.guide d o ga gb gc) s iss (tile (.guide (greg s iss.gang gc.toNat)) true)) ∧
      ∀ v, wait = .done v → GivesStatus (.guide d o ga gb gc) s s iss d (BitVec.ofNat 32 v)) ∧
    (Clear s iss.gang (areg ++ gangRegs [(o, 1)] ++ regs) [] →
      sync (.mst sp bf hint a o ga gb gc) (move (.mst sp bf stride)) ∧ sync (.mld sp bf hint a o ga gb gc) (move (.mld sp bf stride))) ∧
    (Clear s iss.gang (gangRegs [(d, 1), (a, 1), (x, 1)] ++ [ga.toNat, gb.toNat]) [] → sync (.mspsel d a x ga gb) sel) ∧
    (Clear s iss.gang (areg ++ gangRegs [(o, 1)] ++ [ga.toNat, gb.toNat]) [] → ∀ r0, (issueLanes s iss).head? = some r0 →
      MoveInReach s r0 sp (addr r0) 8 false →
      (if sp = .gl then ∀ i < 8, poisonedAt c1 (paOf s (unitOf s iss.u).ctx (addr r0 + i)) = false
        else ∀ i < 8, (iss.u, (addr r0 + i) / 4 * 4) ∉ c1.scrpoi) →
      let byte := fun i => if sp = .gl then c1.mem.read (paOf s (unitOf s iss.u).ctx (addr r0 + i)) else (c1.scr.get iss.u {}).read (addr r0 + i)
      let bound := leNat ((List.range 4).map byte)
      let count := leNat ((List.range 4).map fun i => byte (4 + i))
      sync (.spst sp hint a o ga gb) (move (.spst sp count bound)))

/-- R245, R246, R262, R263, R265: ORSV and ORLS write their status, and ORSV's record is held where the status is 0; ORLS waits for the matrix commands
of its gang that were uncompleted when it issued and for the commands of the unit that name the record, and then releases it. MCLAIM goes on once its gang holds the cluster's baton, and waits its turn until then; MPASS hands the baton
to a live gang of the unit, or frees it for the first that waits. -/
def Obligations.RecordAndBatonResults : Prop :=
  ∀ (d : Opnd) (ga : BitVec 6) (s : State) (iss : Issue), Runs s iss →
    let c0 := commit iss s
    let cl := clusterOf (unitOf s iss.u).core
    let reg := fun n : Nat => (greg s iss.gang (n % 64)).toNat
    let w := fun i : Nat => reg (ga.toNat + i)
    let block := if w 0 / 2 ^ 12 % 4 = 0 then 32 else if w 0 / 2 ^ 12 % 4 = 1 then 16 else 64
    let valid := w 0 / 2 ^ 6 % 4 = 0 ∧ w 0 / 2 ^ 8 % 8 ≤ 4 ∧ w 0 / 2 ^ 11 % 2 = 0 ∧
      (3 ≤ w 0 / 2 ^ 8 % 8 → w 0 / 2 ^ 12 % 4 ≤ 2) ∧ w 0 / 2 ^ 14 % 4 = 0 ∧ w 0 / 2 ^ 18 = 0 ∧
      w 1 % 64 = 0 ∧ w 2 ≠ 0 ∧ w 2 % 64 = 0 ∧ w 1 + w 2 ≤ 0x200000 ∧ w 3 ≠ 0 ∧ w 4 ≠ 0 ∧ (3 ≤ w 0 / 2 ^ 8 % 8 → w 4 % block = 0) ∧ w 7 = 0
    let key := (cl, w 0 % 64)
    let elsewhere := ∃ r, s.oprecs.find? key = some r ∧ r.u ≠ iss.u
    let overlaps := ∃ p ∈ s.oprecs, p.1.1 = cl ∧ p.2.u ≠ iss.u ∧ (recRange p.2.words).1 < w 1 + w 2 ∧ w 1 < (recRange p.2.words).1 + (recRange p.2.words).2
    let mine := ∃ r, s.oprecs.find? key = some r ∧ r.u = iss.u
    let inUse := (∃ c ∈ s.copies ++ s.copyLog, c.u = iss.u ∧ ∃ n desc, c.kind = .conv (w 0 % 64) n desc) ∨
      ∃ c ∈ s.mats ++ s.matLog, c.u = iss.u ∧ w 0 % 64 ∈ c.recs
    let earlier := ∃ c ∈ s.mats ++ s.matLog, c.u = iss.u ∧ c.g = iss.g ∧ ∀ ids, waitOf s iss = .fence ids → c.id ∈ ids
    let next := (s.batonq.find? fun p => p.1 == cl).map (·.2)
    let batons := fun (m : State) (holder : Option GangId) => m = { c0 with baton := m.baton, batonq := m.batonq } ∧ m.baton.find? cl = holder ∧
      ∀ c, c ≠ cl → m.baton.find? c = s.baton.find? c
    (isStatusDst d → Clear s iss.gang ((List.range 8).map fun i => (ga.toNat + i) % 64) (gangRegs [(d, 1)]) →
      (¬ valid → GivesStatus (.orsv d ga) s c0 iss d 3) ∧
      (valid → elsewhere → GivesStatus (.orsv d ga) s c0 iss d 1) ∧
      (valid → ¬ elsewhere → overlaps → GivesStatus (.orsv d ga) s c0 iss d 2) ∧
      (valid → ¬ elsewhere → ¬ overlaps →
        GivesStatus (.orsv d ga) s { c0 with oprecs := s.oprecs.set key ⟨iss.u, (List.range 8).map w⟩ } iss d 0)) ∧
    (isStatusDst d → Clear s iss.gang [ga.toNat] (gangRegs [(d, 1)]) →
      (¬ mine → ¬ earlier → GivesStatus (.orls d ga) s c0 iss d 0) ∧
      (mine → ¬ inUse → ¬ earlier → GivesStatus (.orls d ga) s { c0 with oprecs := s.oprecs.erase key } iss d 1) ∧
      (earlier ∨ (mine ∧ inUse) → (unitOf s iss.u).status = .resident →
        ∃ t ids, exec (.orls d ga) s = .next t ∧ ∀ x ∈ iss.threads, (threadOf t x).wait = .fence ids)) ∧
    (s.baton.find? cl = some iss.gang → GoesOn .mclaim s c0 iss) ∧
    (s.baton.find? cl = none → next = none → ∃ m, batons m (some iss.gang) ∧ m.batonq = s.batonq ∧ GoesOn .mclaim s m iss) ∧
    (∀ g, s.baton.find? cl = some g → g ≠ iss.gang → (cl, iss.gang) ∉ s.batonq → (unitOf s iss.u).status = .resident →
      ∃ t, exec .mclaim s = .next t ∧ t = { c0 with batonq := s.batonq ++ [(cl, iss.gang)], thr := t.thr } ∧
        ∀ x ∈ iss.threads, (threadOf t x).wait = .baton) ∧
    (Clear s iss.gang [ga.toNat] [] →
      let t := reg ga.toNat
      let live := t < (unitOf s iss.u).binds.length ∧ liveSlices s ⟨iss.u, t⟩ ≠ []
      (s.baton.find? cl ≠ some iss.gang → GoesOn (.mpass ga) s c0 iss) ∧
      (s.baton.find? cl = some iss.gang → live → ∃ m, batons m (some ⟨iss.u, t⟩) ∧ GoesOn (.mpass ga) s m iss) ∧
      (s.baton.find? cl = some iss.gang → ¬ live → ∃ m, batons m next ∧ GoesOn (.mpass ga) s m iss))

/-- R241, R242, R250, R251, R252, R254: a pass adds, in each row of its tile whose owner is in the performing set, the products of the row's A values and each
column's B values to the accumulators, group by group, and counts once in each such row of which it updates an element; nothing else of the banks
changes, and the command is performed. A values are those of the scratchpad as the engine sees it for the gang (log 97). An MGATH that completes sets
the row-list entries of its lanes. -/
def Obligations.MatrixPassResults : Prop :=
  (∀ (c : MatCmd) (s : State), c.kind.isPass = true →
    let t := performMat c s
    (∀ i r j n, actsOn s c i r → tileCol c j = some n → ∀ m, tileRow c i = some m →
      t.acc.get (c.u, r, n) 0 = BitVec.ofNat 32 (afterPass (s.acc.get (c.u, r, n) 0).toNat c.k fun k => (aValue s c m k).mul (bValue s c j k))) ∧
    (∀ u r n, ¬ (u = c.u ∧ ∃ i j, actsOn s c i r ∧ tileCol c j = some n) → t.acc.get (u, r, n) 0 = s.acc.get (u, r, n) 0) ∧
    (∀ i r j n, actsOn s c i r → tileCol c j = some n → t.passes.get (c.u, r) 0 = min (s.passes.get (c.u, r) 0 + 1) 0xFFFFFFFF) ∧
    (∀ u r, ¬ (u = c.u ∧ (∃ i, actsOn s c i r) ∧ ∃ j n, tileCol c j = some n) → t.passes.get (u, r) 0 = s.passes.get (u, r) 0) ∧
    t = { s with acc := t.acc, accpoi := t.accpoi, passes := t.passes,
                 mats := s.mats.map fun y => if y.id = c.id then { y with performed := true, res := 0, ovf := false } else y }) ∧
  (∀ (c : MatCmd) (p : Nat) (s : State), (c.lanes.map (·.l)).Nodup →
    let t := gatherRows c p s
    (∀ x ∈ c.lanes, (gangOf t ⟨c.u, c.g⟩).rows.find? (32 * p + x.l) = some x.a) ∧
    (∀ r, (∀ x ∈ c.lanes, r ≠ 32 * p + x.l) → (gangOf t ⟨c.u, c.g⟩).rows.find? r = (gangOf s ⟨c.u, c.g⟩).rows.find? r) ∧
    t = { s with gangs := t.gangs } ∧ ∀ g, gangOf t g = { gangOf s g with rows := (gangOf t g).rows } ∧ (g ≠ ⟨c.u, c.g⟩ → gangOf t g = gangOf s g))

/-- R257, R258, R259, R260, R261: on the rows of its tile that a command acts on, MZERO sets the elements to +0.0, MLD to those of memory, and both
clear the counters; MST writes the elements to memory row by row; GUIDE guides the conditional rows whose counters equal the unconditional ones
and counts the others; SPST writes the entries that are not zero, from the header's count up to its bound, and then the count; MSPSEL keeps the
two greatest of four. -/
def Obligations.MatrixTileResults : Prop :=
  ∀ (c : MatCmd) (s : State), s.cxl = [] → c.kind.isCo = false →
    let t := performMat c s
    let x := c.lanes.headD { l := 0 }
    let acc := fun (r n : Nat) => s.acc.get (c.u, r, n) 0
    let done := fun (res : Nat) (ovf : Bool) => t.mats = s.mats.map fun y =>
      if y.id = c.id then { y with performed := true, res := res, ovf := ovf } else y
    let sets := fun (f : Nat → Nat → Nat → Nat → Word) =>
      (∀ i r j n, actsOn s c i r → tileCol c j = some n → t.acc.get (c.u, r, n) 0 = f i r j n) ∧
      (∀ u r n, ¬ (u = c.u ∧ ∃ i j, actsOn s c i r ∧ tileCol c j = some n) → t.acc.get (u, r, n) 0 = s.acc.get (u, r, n) 0)
    let clears := ∀ u r, t.passes.get (u, r) 0 = s.passes.get (u, r) 0 ∨ (u = c.u ∧ (∃ i, actsOn s c i r) ∧ t.passes.get (u, r) 0 = 0)
    let cleared := ∀ i r, actsOn s c i r → t.passes.get (c.u, r) 0 = 0
    let w := fun bf : Bool => if bf then 2 else 4
    let cell := fun (sp : GS) (bf : Bool) (st : Int) (i j : Nat) =>
      placeKeys c.pages ((endPlace s (unitOf s c.u).ctx false sp (x.a + i * st)).at_ (j * w bf : Nat)) (w bf)
    let element := fun (bf : Bool) (v : Word) => if bf then leBytes 2 (bfloat16.out .rn false (binary32.read false v.toNat)) else leBytes 4 v.toNat
    let owned := fun i : Nat => (tileRow c i).filter fun n => c.lanes.any fun y => y.l == n % 32
    let bank := fun n : Nat => if (bindOf s c.u c.g).pair = 2 then 48 + n else n
    let elements := (List.range c.m).flatMap fun i => match owned i with
      | none => []
      | some n => (List.range c.n).filterMap fun j => (tileCol c j).map fun q => (i, j, acc (bank n) q)
    (c.kind = .mzero → sets (fun _ _ _ _ => 0) ∧ clears ∧ cleared ∧ done 0 false ∧ t.mem = s.mem) ∧
    (∀ sp bf st, c.kind = .mld sp bf st → clears ∧ cleared ∧ done 0 false ∧ t.mem = s.mem ∧
      sets fun i _ j _ =>
        let v := leNat ((cell sp bf st i j).map (engineView s c))
        BitVec.ofNat 32 (if bf then binary32.out .rn false (bfloat16.read false v) else v)) ∧
    (∀ sp bf st, c.kind = .mst sp bf st → t.acc = s.acc ∧ t.passes = s.passes ∧ done 0 false ∧
      ∀ k, unitView t c.u k = laid (unitView s c.u) (elements.flatMap fun e => (cell sp bf st e.1 e.2.1).zip (element bf e.2.2)) k) ∧
    (∀ f : Word, c.kind = .guide f → c.isZero = false → (bindOf s c.u c.g).pair = 1 →
      let equal := fun n : Nat => s.passes.get (c.u, n) 0 = s.passes.get (c.u, 48 + n) 0
      let solo := fun g : Nat => (gangOf s ⟨c.u, g⟩).solo
      let partner := if c.g % 2 = 0 then c.g + 1 else c.g - 1
      (∀ i, x.o % 512 + i < 48 ∨ c.m ≤ i) →
      sets (fun _ r _ n => if equal r then
          let v := binary32.read false (acc (48 + r) n).toNat
          let dd := binary32.read false (binary32.out .rn false ((binary32.read false (acc r n).toNat).add .rn v.neg))
          BitVec.ofNat 32 (binary32.out .rn false (((binary32.read false f.toNat).mul dd).add .rn v))
        else acc r n) ∧
      done (((List.range c.m).filter fun i => (owned i).any fun n => decide (¬ equal n)).length + if solo c.g ∨ solo partner then 65536 else 0) false ∧
      t.passes = s.passes ∧ (gangOf t ⟨c.u, c.g⟩).solo = false ∧ (gangOf t ⟨c.u, partner⟩).solo = false) ∧
    (∀ sp count bound, c.kind = .spst sp count bound →
      let entries := elements.filter fun e => e.2.2.toNat % 2 ^ 31 ≠ 0
      let top := max count (min bound entries.length)
      let at_ := fun (off n : Nat) => placeKeys c.pages ((endPlace s (unitOf s c.u).ctx false sp x.a).at_ (off : Nat)) n
      t.acc = s.acc ∧ done (if top < entries.length then top else 0) (decide (top < entries.length)) ∧
      ∀ k, unitView t c.u k = laid (unitView s c.u) (((entries.take top).drop count).mapIdx (fun i e =>
          (at_ (16 + 8 * (count + i)) 8).zip (leBytes 8 (e.1 + e.2.1 * 2 ^ 16 + e.2.2.toNat * 2 ^ 32))) |>.flatten
        |> (· ++ (at_ 4 4).zip (leBytes 4 (if top < entries.length then top else entries.length)))) k) ∧
    (c.kind = .mspsel → c.n ≤ x.pb → c.n ≤ x.px →
      let byte := (s.opbuf.get (clusterOf (unitOf s c.u).core) {}).read
      let byte' := (t.opbuf.get (clusterOf (unitOf s c.u).core) {}).read
      let src := fun (q j i : Nat) => if 4 * q + i < c.k then halfAt byte (x.a + 2 * ((4 * q + i) * x.pa + j)) else 0
      let dst := fun (q j i : Nat) => x.b + 2 * ((2 * q + i) * x.pb + j)
      let meta_ := fun (q j : Nat) => x.x + (q * x.px + j) / 2
      (∀ q < (c.k + 3) / 4, ∀ j < c.n, ∀ q' < (c.k + 3) / 4, ∀ j' < c.n, ∀ i < 2, meta_ q j ≠ dst q' j' i ∧ meta_ q j ≠ dst q' j' i + 1) →
      ∀ q < (c.k + 3) / 4, ∀ j < c.n, ∃ i0 i1, i0 < i1 ∧ i1 < 4 ∧
        (∀ i < 4, i ≠ i0 → i ≠ i1 → ∀ h ∈ [i0, i1], selectKey (src q j i) < selectKey (src q j h) ∨
          (selectKey (src q j i) = selectKey (src q j h) ∧ h < i)) ∧
        halfAt byte' (dst q j 0) = src q j i0 ∧ halfAt byte' (dst q j 1) = src q j i1 ∧
        (byte' (meta_ q j)).toNat / (if (q * x.px + j) % 2 = 0 then 1 else 16) % 16 = i0 + 4 * i1)

/-- R51, R254, R255, R256, R262, R264: an MMAP may be granted with its partner's that waits with the same token and agrees with it, an MMA.CO with those of
the three other cores that have its key, N and K, and any other command, or one that goes alone, by itself. A free engine performs, of the commands that may be granted, the first of the least rank: those that have waited more
than 256 cycles, then the baton holder's, then loaders', storers' and computers'. A pair is one pass; of a co-operative match the first part is
performed and the others follow by core. A command that has been performed, or that takes no engine cycle
and is its gang's oldest, completes, and the slices that wait for it go on with its result. An MMAP whose wait for its partner runs out goes
alone, and so does an MMA.CO without its match; an MMAP performed alone sets its gang's pair-solo bit, and the partner's miss count rises where the
wait had run out. A held command whose slices have all settled
proceeds for the passing lanes, or is discarded. -/
def Obligations.EngineEventResults : Prop :=
  ∀ (s : State), tickEngines s = s →
    let ahead := fun (cl : Nat) (c : MatCmd) => clusterOf c.core = cl ∧ c.granted = true ∧ c.performed = false
    let partner := fun (c : MatCmd) (tk : Nat) (x : MatCmd) => decide (x.u = c.u ∧ x.g = (if c.g % 2 = 0 then c.g + 1 else c.g - 1) ∧ x.table = true ∧
      x.performed = false ∧ x.alone = false ∧ x.isZero = false ∧ ((x.kind = .mmap false tk) ∨ (x.kind = .mmap true tk)))
    let fourth := fun (c : MatCmd) (i : Nat) (x : MatCmd) => decide (x.core = clusterOf c.core * 4 + i ∧ x.since ≠ none ∧ x.performed = false ∧ x.alone = false ∧
      x.isZero = false ∧ x.kind.isCo = true ∧ (x.lanes.headD { l := 0 }).x = (c.lanes.headD { l := 0 }).x)
    (∀ c, (c.alone = true ∨ ((∀ sp tk, c.kind ≠ .mmap sp tk) ∧ c.kind.isCo = false)) → grantSet s c = some [c]) ∧
    (∀ c sp tk cs, c.alone = false → c.kind = .mmap sp tk → (grantSet s c = some cs ↔ ∃ x, s.mats.find? (partner c tk) = some x ∧ cs = [c, x] ∧
      x.since ≠ none ∧ x.kind.isSp = sp ∧ x.n = c.n ∧ x.k = c.k ∧ (x.lanes.headD { l := 0 }).b = (c.lanes.headD { l := 0 }).b)) ∧
    (∀ c cs, c.alone = false → c.kind.isCo = true → (grantSet s c = some cs ↔ cs.length = 4 ∧ (∀ i < 4, s.mats.find? (fourth c i) = cs[i]?) ∧
      ∀ x ∈ cs, x.n = c.n ∧ x.k = c.k)) ∧
    (∀ cl, (∀ c ∈ s.mats, ¬ ahead cl c) →
      (∃ c ∈ s.mats, clusterOf c.core = cl ∧ c.performed = true ∧ c.isFree = false ∧ ∀ sp bf st, c.kind ≠ .mst sp bf st) →
      exec (.matrixEngineGrant cl) s = .next s) ∧
    (∀ cl c, ahead cl c → (∀ y ∈ s.mats, ahead cl y → c.core ≤ y.core) → (∀ sp tk, c.kind ≠ .mmap sp tk) →
      s.mats.find? (fun y => y.core == c.core && y.granted && ! y.performed) = some c →
      ∃ t, exec (.matrixEngineGrant cl) s = .next t ∧ t = { performMat c s with dieCtr := t.dieCtr, msix := t.msix }) ∧
    (∀ cl (l1 l2 : List MatCmd) (c : MatCmd) (cs : List MatCmd), (∀ c ∈ s.mats, ¬ ahead cl c) →
      (∀ c ∈ s.mats, clusterOf c.core = cl → c.performed = true → c.isFree = true ∨ ∃ sp bf st, c.kind = .mst sp bf st) →
      let waiting := s.mats.filter fun c =>
        clusterOf c.core == cl && c.since.isSome && ! c.performed && ! c.granted && ! c.isFree && (grantSet s c).isSome
      let rank := fun y : MatCmd => if (y.since.getD s.clock) + 256 < s.clock then 0 else if s.baton.find? cl = some ⟨y.u, y.g⟩ then 1
        else match (gangOf s ⟨y.u, y.g⟩).role with
          | .ld => 2
          | .st => 3
          | .cm => 4
      waiting = l1 ++ c :: l2 → (∀ y ∈ l1, rank c < rank y) → (∀ y ∈ l2, rank c ≤ rank y) → grantSet s c = some cs → readsPoison c s = none →
      ∃ t, exec (.matrixEngineGrant cl) s = .next t ∧
        (cs.length ≤ 2 → ∀ y ∈ cs, ∀ z ∈ t.mats, z.id = y.id → z.performed = true) ∧
        (3 ≤ cs.length → (∀ y ∈ cs.head?, ∀ z ∈ t.mats, z.id = y.id → z.performed = true) ∧
          ∀ y ∈ cs.tail, ∀ z ∈ t.mats, z.id = y.id → z.granted = true) ∧
        (cs = [c] → (∀ sp tk, c.kind ≠ .mmap sp tk) → t = { performMat c s with dieCtr := t.dieCtr, msix := t.msix }) ∧
        (∀ sp tk, cs = [c] → c.kind = .mmap sp tk → c.alone = true → (gangOf t ⟨c.u, c.g⟩).solo = true ∧
          (c.why = some .late → (∀ y ∈ s.mats, y.seeks = true → y.u = c.u → y.g ≠ c.g → ∀ sp', y.kind ≠ .mmap sp' tk) →
            let partner : GangId := ⟨c.u, if c.g % 2 = 0 then c.g + 1 else c.g - 1⟩
            (gangOf t partner).miss.get tk 0 = (gangOf s partner).miss.get tk 0 + 1))) ∧
    (∀ id c, s.mats.find? (fun y => y.id == id) = some c → c.ovf = false → (c.performed = true ∨ (c.isFree = true ∧ c.since.isSome = true)) →
      (c.isZero = true → ∀ w, c.kind ≠ .guide w) →
      ∃ t, exec (.matrixCommandComplete id) s = .next t ∧ (∀ y ∈ t.mats, y.id ≠ id) ∧
        ((∀ p, c.kind ≠ .mgath p) → (∀ sp tk, c.kind ≠ .mmap sp tk) → ∀ x, threadOf t x =
          if x.u = c.u ∧ x.g = c.g ∧ x.j ∈ c.js ∧ x.h = false ∧ (threadOf s x).wait = .cmd id then { threadOf s x with wait := .done c.res } else threadOf s x) ∧
        ∀ p, c.kind = .mgath p → ∀ g, (gangOf t g).rows = (gangOf (gatherRows c p s) g).rows) ∧
    (∀ id c t0, s.mats.find? (fun y => y.id == id) = some c → c.since = some t0 → c.alone = false → c.performed = false →
      c.granted = false → c.isZero = false →
      (∀ sp tk, c.kind = .mmap sp tk → partnerMmap s c tk = none →
        exec (.pairWaitExpiry id) s = .next { s with
          mats := s.mats.map (fun y => if y.id = id then { y with alone := true, why := some .late } else y),
          clock := max s.clock (t0 + (bindOf s c.u 0).pairWait) }) ∧
      (c.kind.isCo = true → coMatch s c = none → exec (.cooperativeMatchTimeout id) s = .next { s with
        mats := s.mats.map (fun y => if y.id = id then { y with alone := true, why := none } else y), clock := max s.clock (t0 + 1024) })) ∧
    (∀ id c, s.copies.find? (fun y => y.id == id) = some c → c.held = true → c.hold = [] →
      let passing := c.lanes.filter fun x => c.pass.contains x.l
      ∃ t, exec (.guardedCommandResolution id) s = .next t ∧
        (passing ≠ [] → t = { s with copies := s.copies.map fun y =>
          if y.id = c.id then { y with lanes := passing, held := false, issued := y.issued.filter c.pass.contains } else y }) ∧
        (passing = [] → t.copies = s.copies.filter (fun y => y.id != c.id) ∧ t.mem = s.mem ∧ ∀ b ∈ (gangOf t ⟨c.u, c.g⟩).batches, c.id ∉ b.out)) ∧
    (∀ id c, s.copies.find? (fun y => y.id == id) = none → s.mats.find? (fun y => y.id == id) = some c → c.held = true → c.hold = [] →
      let passing := c.lanes.filter fun x => c.pass.contains x.l
      ∃ t, exec (.guardedCommandResolution id) s = .next t ∧ t.acc = s.acc ∧ t.passes = s.passes ∧
        (passing = [] → ∀ y ∈ t.mats, y.id ≠ id) ∧
        (passing ≠ [] → ∀ y ∈ t.mats, y.id = id → y.held = false ∧ y.lanes = passing))

/-! ### Helpers -/

/-- R272, R273, R274, R280: RECRUIT, for the lowest active lane, takes the first idle lanes, opens the lowest free record with the window and the gang
registers as they stand, and starts the helper trace in the lanes' helper contexts; it writes the count, and 0 where it is refused. HREAD gives
a helper its window or the snapshot, and any other lane 0; HRET records the helper's value and operation; HEND marks the helper delivered
once its writes are performed. -/
def Obligations.HelperTraceResults : Prop :=
  ∀ (d a : Opnd) (w : BitVec 5) (k1 : BitVec 3) (n i : BitVec 7) (off : BitVec 32) (op : AluOp) (s : State) (iss : Issue), Runs s iss →
    let c0 := commit iss s
    let recs := (gangOf s iss.gang).recs
    let idle := fun p : Nat × Nat => s.serve.find? ⟨iss.u, p.1, p.2 / 4⟩ = none ∧
      ((sliceOf s ⟨iss.u, p.1, p.2 / 4⟩).exited.getLsbD (p.2 % 4) = true ∨
        (threadOf s ⟨iss.u, p.1, p.2 / 4, false⟩).head.getLsbD (p.2 % 4) = false)
    let lanesOfGang := fun g : Nat => (List.range (4 * (gangOf s ⟨iss.u, g⟩).nslices)).map fun l => (g, l)
    let others := (List.range (unitOf s iss.u).binds.length).filter fun g => g != iss.g
    let taken := ((lanesOfGang iss.g ++ others.flatMap lanesOfGang).filter fun p => decide (idle p)).take n.toNat
    let trace := (((wordAddr (headThread s iss) : Int) + 8 * off.toInt) % 2 ^ 64).toNat
    let freed := { c0 with wq := c0.wq.map fun e =>
      if e.scope.isLocal && (issueLanes s iss).contains e.lane then { e with released := true } else e }
    let helper := fun (r : LaneRef) => (s.serve.find? ⟨r.u, r.g, r.l / 4⟩).bind fun sv =>
      ((gangOf s ⟨r.u, sv.g⟩).recs.find? sv.rid).bind fun ρ => (sv.lanes.find? fun p => p.1 == r.l).bind fun p =>
        ρ.helpers[p.2 - 1]?.bind fun h => if 0 < p.2 ∧ h.g = r.g ∧ h.l = r.l ∧ h.st = .running then some (sv.g, sv.rid, p.2 - 1, h) else none
    let helpersThen := fun (s1 m : State) (f : LaneRef → Helper → Helper) => m = { s1 with gangs := m.gangs } ∧
      ∀ r ∈ issueLanes s iss, ∀ g rid ix h, helper r = some (g, rid, ix, h) →
        ∃ ρ, (gangOf m ⟨iss.u, g⟩).recs.find? rid = some ρ ∧ ρ.helpers[ix]? = some (f r h)
    (isStatusDst d → Clear s iss.gang [] (gangRegs [(d, 1)]) →
      (taken = [] ∨ iss.h = true ∨ (unitOf s iss.u).status ≠ .resident ∨ (∀ i < 4, recs.find? i ≠ none) →
        GivesStatus (.recruit d w k1 n off) s c0 iss d 0) ∧
      (∀ r0 rid, taken ≠ [] → iss.h = false → (unitOf s iss.u).status = .resident → (issueLanes s iss).head? = some r0 →
        rid < 4 → recs.find? rid = none → (∀ i < rid, recs.find? i ≠ none) →
        ∃ s1, GivesStatus (.recruit d w k1 n off) s s1 iss d (BitVec.ofNat 32 taken.length) ∧ s1.vreg = s.vreg ∧ s1.greg = s.greg ∧ s1.mem = s.mem ∧
          (∃ age, (gangOf s1 iss.gang).recs.find? rid = some ⟨r0.l, n.toNat, trace, (List.range (k1.toNat + 1)).map fun i => slot s r0 (w.toNat + i),
            (List.range 64).map fun i => greg s iss.gang i, taken.map fun p => ⟨p.1, p.2, .running, none⟩, age⟩) ∧
          (∀ i, i ≠ rid → (gangOf s1 iss.gang).recs.find? i = recs.find? i) ∧
          ∀ k p, taken[k]? = some p → let t : ThreadId := ⟨iss.u, p.1, p.2 / 4, true⟩
            (threadOf s1 t).pos = .head trace ∧ (threadOf s1 t).mask.getLsbD (p.2 % 4) = true ∧
              ∃ sv, s1.serve.find? ⟨iss.u, p.1, p.2 / 4⟩ = some sv ∧ sv.g = iss.g ∧ sv.rid = rid ∧ (p.2, k + 1) ∈ sv.lanes)) ∧
    (d.isGang = false → GivesLanes (.hread d i) s s iss d fun r => res32 (if iss.h then
        match serveOf s r.thread with
        | none => 0
        | some (_, ρ) => if i.toNat < 8 then ρ.window.getD i.toNat 0 else ρ.gsnap.getD (i.toNat - 64) 0
      else 0)) ∧
    (iss.h = true → Clear s iss.gang (gangRegs [(a, 1)]) [] → ∃ m, GoesOn (.hret op a) s m iss ∧
      helpersThen c0 m fun r h => { h with ret := some (op, src32 s r (opType op) a) }) ∧
    (iss.h = true → (∀ r ∈ issueLanes s iss, undrained c0 r = false) → ∃ m, GoesOn .hend s m iss ∧ helpersThen freed m fun _ h => { h with st := .delivered }) ∧
    ((∃ r ∈ issueLanes s iss, undrained c0 r = true) → (unitOf s iss.u).status = .resident →
      ∃ t, exec .hend s = .next t ∧ t = { freed with thr := t.thr } ∧ ∀ x ∈ iss.threads, (threadOf t x).wait = .drain)

/-- R275, R276, R277: JOIN waits for the helpers of each active lane's oldest record; it then combines the values of those delivered with c, in
ascending order, marks the chunks that were not done, and closes the records. A lane without a record receives c and 0x7FFFFFFE. DISMISS releases
the helpers of those records that have not had their memory commit. -/
def Obligations.HelperJoinResults : Prop :=
  ∀ (nt : Bool) (d e c : Opnd) (s : State) (iss : Issue) (own : LaneRef → Option (Nat × Recr)), Runs s iss → iss.h = false →
    KeysOnce (gangOf s iss.gang).recs →
    let recs := (gangOf s iss.gang).recs
    let lanes := issueLanes s iss
    (∀ r ∈ lanes, match own r with
      | none => ∀ p ∈ recs, p.2.lane ≠ r.l
      | some q => q ∈ recs ∧ q.2.lane = r.l ∧ ∀ p ∈ recs, p.2.lane = r.l → p ≠ q → q.2.age < p.2.age) →
    let c0 := commit iss s
    let c_ := fun r : LaneRef => src32 s r .int c
    let value := fun r : LaneRef => match own r with
      | none => c_ r
      | some (_, ρ) => ρ.helpers.foldl (fun a h => match h.st, h.ret with
        | .delivered, some (op, v) => combined32 op a v
        | _, _ => a) (c_ r)
    let mask := fun (r : LaneRef) (m : Word) => match own r with
      | none => m = 0x7FFFFFFE
      | some (_, ρ) => m.getLsbD 0 = false ∧ (m.getLsbD 31 = true ↔ ∃ h ∈ ρ.helpers, h.st = .faulted) ∧
        ∀ i, 1 ≤ i → i ≤ 30 → (m.getLsbD i = true ↔ ∀ h, ρ.helpers[i - 1]? = some h → h.st ≠ .delivered)
    let running := ∃ r ∈ lanes, ∃ q, own r = some q ∧ ∃ h ∈ q.2.helpers, h.st = .running
    let faulted := ∃ r ∈ lanes, ∃ q, own r = some q ∧ ∃ h ∈ q.2.helpers, h.st = .faulted
    let writes := fun (s m : State) (d : Opnd) (f : LaneRef → Word) =>
      if d.isGang then StatusResult s m iss d f else LaneResult s m iss d fun r => res32 (f r)
    (Clear s iss.gang (gangRegs [(c, 1)]) (gangRegs [(d, 1), (e, 1)]) →
      (running → (unitOf s iss.u).status = .resident → ∃ t, exec (.join nt d e c) s = .next t ∧ t = { c0 with thr := t.thr } ∧
        ∀ x ∈ iss.threads, (threadOf t x).wait = .join) ∧
      (¬ running → (nt = true ∨ ¬ faulted) → ∃ s1 m1 m t f, exec (.join nt d e c) s = .next t ∧ WentOn m t iss ∧
        s1 = { c0 with gangs := s1.gangs, units := s1.units, hstage := s1.hstage } ∧
        (∀ i, (gangOf s1 iss.gang).recs.find? i = if ∃ r ∈ lanes, (own r).map (·.1) = some i then none else recs.find? i) ∧
        writes s1 m1 d value ∧ writes m1 m e f ∧ ∀ r ∈ lanes, mask r (f r))) ∧
    ((∀ r ∈ lanes, ∀ i ρ, own r = some (i, ρ) → (ρ.helpers.map fun h => (h.g, h.l)).Nodup ∧ ∀ k h, ρ.helpers[k]? = some h → h.st = .running →
        (threadOf s ⟨iss.u, h.g, h.l / 4, true⟩).committed = false ∧
        ∃ sv, s.serve.find? ⟨iss.u, h.g, h.l / 4⟩ = some sv ∧ sv.g = iss.g ∧ sv.rid = i ∧ (h.l, k + 1) ∈ sv.lanes) →
      ∃ m, GoesOn .dismiss s m iss ∧ ∀ r ∈ lanes, ∀ i ρ, own r = some (i, ρ) → ∃ ρ', (gangOf m iss.gang).recs.find? i = some ρ' ∧
        ρ' = { ρ with helpers := ρ.helpers.map fun h => if h.st = .running then { h with st := .released } else h })

/-! ### Events of cores and of units -/

/-- R86, R92, R316, R326: a line that leaves tracking fires the monitors that its core's lanes have armed on it, and WAITMON's timer wakes the whole
slice; the Sluice releases the entries of an ended unit, whose lower-indexed units have been released, in their order; a quantum that ends, and a
deschedule, by which the unit begins to be saved and the room goes to another unit first, and which a unit past its quantum undergoes where a unit of
its launch, or of one whose band is not lower, waits for room that it would make; the end of a watchdog ends the unit, and a record of class
WDOG for each live slice is written once it has ended, at once where no trace of it runs on past its memory commit. -/
def Obligations.CoreEventResults : Prop :=
  ∀ (s : State),
    (∀ core line, ∃ t, exec (.monitorEviction core line) s = .next t ∧ t = { s with mon := t.mon } ∧
      ∀ l, t.mon.find? l = (s.mon.find? l).map fun m => if (unitOf s l.u).core = core then
        { m with fired := if m.armed = some line ∧ m.fired = none then some 1 else m.fired,
                 acq := m.acq.map fun p => if p.1 = line then (p.1, p.2.1, true) else p } else m) ∧
    (∀ x since, (threadOf s x).wait = .monitor since none → ∃ t, exec (.waitmonTimerExpiry x) s = .next t ∧
      t = { s with thr := t.thr, clock := max s.clock (since + 65536) } ∧
      ∀ y, threadOf t y = if y = x then { threadOf s y with wait := .monitor since (some 2) } else threadOf s y) ∧
    (∀ u un l, s.units.find? u = some un → s.launches.find? un.launch = some l → un.status = .done → un.staged ≠ [] →
      (∀ e ∈ un.staged, ∃ cells, e.2 = .store cells) → s.cxl = [] → (∀ w ∈ s.wq, w.core ≠ un.core) →
      (∀ i < un.idx, i ∈ l.completed ∧ ∀ p ∈ s.units, p.2.launch = un.launch → p.2.idx = i → p.2.staged = []) →
      l.completed.length ≠ unitsIn l.desc →
      ∃ t, exec (.sluiceRelease u) s = .next t ∧ unitOf t u = { un with staged := [], released := true } ∧ (∀ v, v ≠ u → unitOf t v = unitOf s v) ∧
        t.launches = s.launches ∧ t.thr = s.thr ∧
        ∀ a, t.mem.read a = laid s.mem.read (un.staged.flatMap fun e => match e.2 with
          | .store cells => cells
          | .red _ _ _ _ => []) a) ∧
    (∀ u un place pa w op v, s.units.find? u = some un → s.launches.find? un.launch = none → un.status = .done →
      un.staged = [(place, .red pa w op v)] → s.cxl = [] → (∀ w ∈ s.wq, w.core ≠ un.core) →
      ∃ t, exec (.sluiceRelease u) s = .next t ∧ ∀ a, t.mem.read a = laid s.mem.read
        (((List.range w).map (pa + ·)).zip (aluBytes op w ((List.range w).map fun i => s.mem.read (pa + i)) v)) a) ∧
    (∀ u, (unitOf s u).status = .resident → (bindOf s u 0).mode = 1 →
      exec (.quantumExpiry u) s = .next (modUnit u (fun x => { x with quantumUp := true }) s)) ∧
    (∀ u l, s.launches.find? (unitOf s u).launch = some l → (roomWanted s u = true ↔
      let gone := { s with units := s.units.modify u {} fun x => { x with status := .saved, slots := [] } }
      ∃ p ∈ s.launches, p.2.state = .running ∧ (p.1 = (unitOf s u).launch ∨ nodeField l.desc 240 2 ≤ nodeField p.2.desc 240 2) ∧ ∃ i,
        i < min (doneOf p.2 + 256) (unitsIn p.2.desc) ∧ i ∉ p.2.completed ∧ (i ∉ p.2.begun ∨ savedUnit s p.1 i ≠ none) ∧
        qualifies s p.1 i (unitOf s u).core p.2 = false ∧ qualifies gone p.1 i (unitOf s u).core p.2 = true)) ∧
    (∀ u un l, KeysOnce s.thr → s.units.find? u = some un → s.launches.find? un.launch = some l → un.status = .resident →
      (((∃ p ∈ s.thr, p.1.u = u ∧ p.2.wait = .yield) ∧ ∃ i < min (doneOf l + 256) (unitsIn l.desc), i ≠ un.idx ∧ i ∉ l.completed ∧ i ∉ l.begun) ∨
        (un.quantumUp = true ∧ roomWanted s u = true)) →
      ∃ t, exec (.unitDeschedule u) s = .next t ∧ SaveBegun s t u ∧
        t.launches.find? un.launch = some { l with justOut := if nodeField l.desc 164 2 = 1 then none else some (un.idx, un.core) }) ∧
    (∀ u un, KeysOnce s.thr → s.units.find? u = some un → un.status = .resident → un.recs = [] → (bindOf s u 0).wdog ≠ 0xFFFFFFFF →
      (∀ p ∈ s.thr, p.1.u = u → p.2.parked = [] ∧ ∀ q, p.2.wait ≠ .stopped q) →
      let live := (s.thr.filter fun p => p.1.u == u && ! p.1.h && p.2.pos != .dead).map (·.1)
      ∃ t, exec (.watchdogExpiry u) s = .next t ∧ UnitEnded s t u (some .wdog) ∧
        ((∀ x, x.u = u → runsOn (threadOf s x) = false) → t.frecs.length = s.frecs.length + live.length ∧
          ∀ k x, live[k]? = some x → ∃ r, t.frecs[s.frecs.length + k]? = some r ∧ r.ctx = un.ctx ∧ r.cls = .wdog ∧ r.thread = x ∧ r.pending = false ∧
            r.image.extractLsb' 112 4 = (threadOf s x).mask ∧ r.image.extractLsb' 256 64 = BitVec.ofNat 64 (wordAddr (threadOf s x)) ∧
            r.image.extractLsb' 192 64 = BitVec.ofNat 64 (traceAddr (threadOf s x))) ∧
        ((∃ x, x.u = u ∧ runsOn (threadOf s x) = true) → t.frecs.length = s.frecs.length ∧ (unitOf t u).recs.length = live.length ∧
          ∀ (k : Nat) x, live[k]? = some x → ∃ r : RecFields, (unitOf t u).recs[k]? = some (x, r) ∧ r.cls = .wdog ∧ r.pend = false ∧
            r.mask = (threadOf s x).mask ∧ r.waddr = wordAddr (threadOf s x) ∧ r.traddr = traceAddr (threadOf s x)))

/-! ### Pre-emption, invalidation, and pages that grow -/

/-- R58, R348, R351, R353, R354: PREEMPT of a running context begins to save its resident units, and is ignored in any other state; when the units have
come to rest, and the flits that they had sent are acknowledged, they are saved, the context's committed writes performed, the local L1 lines
discarded, the save area headed, and STATE is saved;
RESUME starts the restoration of a saved context, and is held while it is saving; with no saved unit left the context runs. -/
def Obligations.PreemptionResults : Prop :=
  ∀ (s : State) (ctx : Nat),
    let c := ctxOf s ctx
    let queued := modCtx ctx (fun c => { c with cmdq := c.cmdq ++ [1] }) s
    (answersHost s = true → c.invbusy = true → exec (.ctxcmdPreempt ctx) s = .next queued) ∧
    (answersHost s = true → c.invbusy = false → c.state ≠ .running → exec (.ctxcmdPreempt ctx) s = .next s) ∧
    (answersHost s = true → c.invbusy = false → c.state = .running → KeysOnce s.units → KeysOnce s.thr →
      ∃ t, exec (.ctxcmdPreempt ctx) s = .next t ∧ (ctxOf t ctx).state = .saving ∧
        ∀ u un, s.units.find? u = some un → un.ctx = ctx → un.status = .resident → SaveBegun s t u) ∧
    (c.state = .saving → KeysOnce s.units → KeysOnce s.thr → s.cxl = [] →
      (∀ x ∈ s.copyLog, ∀ l, x.via = some l → ∀ f ∈ (linkOf s l).replay, f.seq ∉ x.flits) →
      (∀ p ∈ s.units, p.2.ctx = ctx → p.2.status = .saving → ∀ q ∈ s.thr, q.1.u = p.1 →
        (q.1.h = true → q.2.pos = .dead) ∧ (q.1.h = false → ∀ i, q.2.pos = .body i → q.2.committed = true ∧ q.2.wait ≠ .none)) →
      ∃ t, exec (.preemptSaveComplete ctx) s = .next t ∧
        (ctxOf t ctx).state = (if c.resumeHeld then .restoring else .saved) ∧ (ctxOf t ctx).resumeHeld = false ∧
        (∀ u un, s.units.find? u = some un → un.ctx = ctx → un.status = .saving →
          (unitOf t u).status = .saved ∧ (unitOf t u).slots = [] ∧ (∀ b ∈ (unitOf t u).binds, b.valid = false) ∧
          (∀ e ∈ t.wq, e.ctx ≠ ctx) ∧ ∀ x ∈ t.l1, x.core = un.core → x.ctx = ctx → x.scope.isLocal = false) ∧
        let base := bitsOf c.savebase.toNat 12 40 * 4096
        let n := ((t.units.filter fun p => p.2.ctx == ctx && p.2.status == .saved)).length
        n < 2 ^ 64 → leNat (t.mem.readN base 8) = 0x156535A55 ∧ leNat (t.mem.readN (base + 8) 8) = n ∧ leNat (t.mem.readN (base + 16) 8) = 4096) ∧
    (answersHost s = true → c.invbusy = false → exec (.ctxcmdResume ctx) s = .next (match c.state with
      | .saved => modCtx ctx (fun c => { c with state := .restoring, resumeHeld := false }) s
      | .saving => modCtx ctx (fun c => { c with resumeHeld := true }) s
      | _ => s)) ∧
    (c.state = .restoring → (∀ p ∈ s.units, p.2.ctx = ctx → p.2.status ≠ .saved) →
      exec (.resumeComplete ctx) s = .next (modCtx ctx (fun c => { c with state := .running }) s))

/-- R330, R335, R338, R344: INVAL takes the context's entries of the range out of every TLB and sets INVBUSY, which falls when no buffered or
committed write and no command that used a translation of the range, as it was then, is left, and then the commands that waited are obeyed; the
firmware serves a fault of a stack or spill page with frames of the pool, which it writes to zero and of which no L1 keeps a sector, one for each
missing table and the last for the page, and reports it with AUX naming the page; where the pool holds too few it takes none, and the record is pending with subcode 5. -/
def Obligations.InvalidationAndGrowth : Prop :=
  (∀ (s : State) (ctx : Nat),
    let c := ctxOf s ctx
    let covers := fun (at_ size : DWord) (va n : Nat) => at_.getLsbD 0 = true ∨
      (va < bitsOf at_.toNat 12 40 * 4096 + size.toNat ∧ bitsOf at_.toNat 12 40 * 4096 < va + n)
    let asked := covers c.invaddr c.invsize
    let current := covers c.invcur.1 c.invcur.2
    (answersHost s = true → c.invbusy = false → ∃ t, exec (.ctxcmdInval ctx) s = .next t ∧
      t = { s with ctxs := t.ctxs, tlbCore := t.tlbCore, tlbCluster := t.tlbCluster } ∧
      ctxOf t ctx = { c with invbusy := true, invcur := (c.invaddr, c.invsize) } ∧
      (∀ e, e ∈ t.tlbCore ↔ e ∈ s.tlbCore ∧ ¬ (e.ctx = ctx ∧ asked e.va (2 ^ e.leaf.lg))) ∧
      (∀ e, e ∈ t.tlbCluster ↔ e ∈ s.tlbCluster ∧ ¬ (e.ctx = ctx ∧ asked e.va (2 ^ e.leaf.lg)))) ∧
    (answersHost s = true → c.invbusy = true → exec (.ctxcmdInval ctx) s = .next (modCtx ctx (fun c => { c with cmdq := c.cmdq ++ [3] }) s)) ∧
    (c.invbusy = true → (∀ p ∈ s.buf, (unitOf s p.1.u).ctx = ctx → ∀ b ∈ p.2, b.sp.cached = true → ¬ current b.addr b.bytes.length) → (∀ e ∈ s.wq, e.ctx ≠ ctx) →
      (∀ x ∈ allCopies s, (unitOf s x.u).ctx = ctx → ∀ p ∈ x.pages, ¬ current (p.1 * 4096) 4096) →
      (∀ x ∈ allMats s, (unitOf s x.u).ctx = ctx → ∀ p ∈ x.pages, ¬ current (p.1 * 4096) 4096) →
      let done := modCtx ctx (fun c => { c with invbusy := false, cmdq := [] }) s
      (c.cmdq = [] → exec (.invalComplete ctx) s = .next done) ∧
      (∀ op, c.cmdq = [op] → exec (.invalComplete ctx) s = .next (ctxCommand ctx op done)))) ∧
  ∀ (s : State) (p : Park) (x : ThreadId) (epa level e : Nat), s.parks.find? (fun q => q.id == p.id) = some p → p.thread = some x → p.seq = 0 →
    walk s p.ctx p.va = .absent true epa level e → s.cxl = [] →
    let c := ctxOf s p.ctx
    let held := (c.pooltail - c.poolhead).toNat
    let frame := fun k : Nat => bitsOf (leNat (s.mem.readN (bitsOf c.poolbase.toNat 12 40 * 4096
      + 8 * ((c.poolhead.toNat + k) % 2 ^ (c.poolcfg.extractLsb' 0 4).toNat)) 8)) 12 40 * 4096
    let entry := fun k : Nat => if k = 0 then epa else frame (k - 1) + 8 * bitsOf p.va (12 + 9 * (level - k)) 9
    (level < held → (∀ i ≤ level, ∀ j ≤ level, i ≠ j → frame i ≠ frame j) → (∀ i ≤ level, epa / 4096 * 4096 ≠ frame i) → epa % 8 = 0 →
      ∃ s1, exec (.firmwarePageGrow p.id) s = .next (raiseFault x ⟨.page, 4, p.va, frame level, p.word⟩ p.lanes false s1).2 ∧
        ctxOf s1 p.ctx = { c with poolhead := c.poolhead + BitVec.ofNat 32 (level + 1) } ∧
        (∀ q ∈ s1.parks, q.id ≠ p.id) ∧ p.id ∉ (threadOf s1 x).parked ∧
        (∀ k < level, leNat (s1.mem.readN (entry k) 8) = frame k + 1) ∧
        leNat (s1.mem.readN (entry level) 8) = frame level + bitsOf e 2 2 * 4 + bitsOf e 5 5 * 32 + bitsOf e 11 1 * 2048 + 3 ∧
        (∀ i < 4096, s1.mem.read (frame level + i) = 0) ∧ ∀ k ≤ level, ∀ y ∈ s1.l1, y.pa / 4096 * 4096 ≠ frame k) ∧
    (held ≤ level → ∃ t, exec (.firmwarePageGrow p.id) s = .next t ∧ t.frecs.length = s.frecs.length + 1 ∧
      ∃ r, t.frecs[s.frecs.length]? = some r ∧ r.ctx = (unitOf s x.u).ctx ∧ r.cls = .page ∧ r.pending = true ∧ r.thread = x ∧
        r.image.extractLsb' 8 8 = (5 : BitVec 8) ∧ (∀ q ∈ t.parks, q.id = p.id → q.seq = r.seq) ∧
        (ctxOf t p.ctx).poolhead = c.poolhead)

/-! ### Fault records, their answers, and soft errors -/

/-- R341, R343, R344: the fields of a record stand where the layout puts them; a record takes the next SEQ of its context and is written at its slot
of the ring, FQHEAD advances, and vector 1 is raised where FQHEAD leaves FQTAIL; a full or disabled ring holds it. A write of FQTAIL lets held records
in, in order, as far as there is room. An FCMD that is no REPLAY or CANCEL, or names no pending record, sets BAD; REPLAY answers every pending record
up to the one named, and a joined gang whose slices then stand at different words parts (R11); CANCEL answers that record, whose unit ends with its
class. -/
def Obligations.FaultRecordsAndAnswers : Prop :=
  (∀ r : RecFields, r.sub < 256 → ∀ p ∈ [(0, 8, r.cls.code), (8, 8, r.sub), (16, 1, if r.pend then 1 else 0), (17, 1, if r.hlp then 1 else 0), (18, 2, r.hrec),
      (20, 5, r.hidx), (32, 32, r.seq), (64, 32, r.launchId), (96, 13, r.asid), (112, 4, r.mask.toNat), (116, 3, r.slice), (119, 5, r.gang),
      (128, 48, r.unitIdx), (176, 11, r.core), (192, 64, r.traddr), (256, 64, r.waddr), (320, 64, r.faddr), (384, 64, r.aux), (448, 32, r.mark.toNat),
      (25, 7, 0), (109, 3, 0), (124, 4, 0), (187, 5, 0), (480, 32, 0)], r.image.extractLsb' p.1 p.2.1 = BitVec.ofNat p.2.1 p.2.2) ∧
  (∀ (s : State) (ctx u : Nat) (x : ThreadId) (r : RecFields),
    let c := ctxOf s ctx
    let t := (raiseRecord ctx u x r s).2
    let image := { r with seq := c.nextRec, asid := ctx }.image
    let made := fun w : Bool => s.frecs ++ [⟨ctx, c.nextRec, r.cls, image, r.pend, w, u, x, none⟩]
    let used := (c.fqhead - c.fqtail).toNat
    let on := c.fqcfg.getLsbD 8 = true ∧ 6 ≤ c.fqcfg.toNat % 32 ∧ c.fqcfg.toNat % 32 ≤ 16
    (raiseRecord ctx u x r s).1 = c.nextRec ∧ (ctxOf t ctx).nextRec = (if c.nextRec = 0xFFFFFFFF then 1 else c.nextRec + 1) ∧
    (¬ on ∨ 2 ^ (c.fqcfg.toNat % 32) ≤ used → t.frecs = made false ∧ t.mem = s.mem ∧ t.msix = s.msix ∧ (ctxOf t ctx).fqheld = true ∧ (ctxOf t ctx).fqhead = c.fqhead) ∧
    ∀ pa : Nat → Nat, on → used < 2 ^ (c.fqcfg.toNat % 32) → (∀ y ∈ s.frecs, y.ctx = ctx → y.written = true) → s.cxl = [] →
      (∀ i < 64, sysAddr s ctx (bitsOf c.fqbase.toNat 12 52 * 4096 + 64 * (c.fqhead.toNat % 2 ^ (c.fqcfg.toNat % 32)) + i) = some (pa i)) →
      (∀ i < 64, ∀ j < 64, pa i = pa j → i = j) →
      t.frecs = made true ∧ (ctxOf t ctx).fqhead = c.fqhead + 1 ∧ t.msix = (if c.fqhead = c.fqtail then [(vfOf s ctx, 1)] else []) ++ s.msix ∧
      (∀ i < 64, t.mem.read (pa i) = image.extractLsb' (8 * i) 8) ∧ ∀ a, (∀ i < 64, a ≠ pa i) → t.mem.read a = s.mem.read a) ∧
  ∀ (s : State) (ctx : Nat) (v : DWord), answersHost s = true →
    let c := ctxOf s ctx
    let seq := v.toNat % 2 ^ 32
    let open_ := fun r : FRec => r.ctx = ctx ∧ r.pending = true ∧ r.answer = none ∧ r.written = true
    let bad := modCtx ctx (fun c => { c with fcmdbad := true }) s
    let once := (s.frecs.map fun r => (r.ctx, r.seq)).Nodup
    (let heldBack := s.frecs.filter fun r => r.ctx == ctx && ! r.written
      let lg := c.fqcfg.toNat % 32
      let room := 2 ^ lg - (c.fqhead - loW v).toNat
      c.fqcfg.getLsbD 8 = true → 6 ≤ lg → lg ≤ 16 → once → heldBack.Pairwise (fun a b => a.seq < b.seq ∧ b.seq < a.seq + 2 ^ 31) →
      ∃ t, exec (.fqtailWrite ctx v) s = .next t ∧ (ctxOf t ctx).fqtail = loW v ∧
        (ctxOf t ctx).fqhead = c.fqhead + BitVec.ofNat 32 (min room heldBack.length) ∧
        t.frecs = s.frecs.map fun r => if r ∈ heldBack.take room then { r with written := true } else r) ∧
    exec (.fcmdInvalid ctx v) s = .next bad ∧
    ((∀ r ∈ s.frecs, open_ r → r.seq ≠ seq) → exec (.fcmdReplay ctx v) s = .next bad ∧ exec (.fcmdCancel ctx v) s = .next bad) ∧
    (∀ l1 r0 l2, s.frecs = l1 ++ r0 :: l2 → open_ r0 → r0.seq = seq → r0.seq < c.nextRec → c.nextRec ≤ r0.seq + 2 ^ 31 → once →
      c.state = .running → (∀ p ∈ s.parks, p.ctx = ctx → p.thread ≠ none) →
      (∀ r ∈ l1 ++ [r0], open_ r → (unitOf s r.u).status = .resident) → KeysOnce s.thr →
      (let answered := fun r : FRec => r ∈ l1 ++ [r0] ∧ open_ r
        ∃ t, exec (.fcmdReplay ctx v) s = .next t ∧ (ctxOf t ctx).fcmdseq = BitVec.ofNat 32 seq ∧
          t = { s with frecs := t.frecs, parks := t.parks, thr := t.thr, ctxs := t.ctxs, gangs := t.gangs } ∧
          (∀ gi, (gangOf t gi = gangOf s gi ∨ gangOf t gi = { gangOf s gi with joined := false }) ∧
            ((gangOf t gi).joined = true ↔ (gangOf s gi).joined = true ∧ ∀ r, answered r → gi = ⟨r.u, r.thread.g⟩ →
              ∀ j ∈ liveSlices t gi, ∀ k ∈ liveSlices t gi, (threadOf t ⟨gi.u, gi.g, j, false⟩).pos = (threadOf t ⟨gi.u, gi.g, k, false⟩).pos)) ∧
          (∀ r, answered r → ∀ y ∈ t.frecs, y.ctx = ctx → y.seq = r.seq → y.pending = false) ∧
          (∀ r ∈ l2, r.ctx = ctx → r ∈ t.frecs) ∧
          (∀ p, p ∈ t.parks ↔ p ∈ s.parks ∧ ∀ q, q ∈ s.parks → q.id = p.id → ¬ ∃ r, answered r ∧ q.ctx = ctx ∧ q.seq = r.seq) ∧
          (∀ p ∈ s.parks, (∃ r, answered r ∧ p.ctx = ctx ∧ p.seq = r.seq) → ∀ x, p.id ∉ (threadOf t x).parked) ∧
          (∀ x r, answered r → x.u = r.u → (threadOf s x).wait = .stopped r.seq → r.cls = .spovf →
            (threadOf t x).wait = .resumed ∧ (threadOf t x).pos = (threadOf s x).pos) ∧
          (∀ x r, answered r → x.u = r.u → (threadOf s x).wait = .stopped r.seq → r.cls ≠ .spovf →
            (threadOf t x).wait = .none ∧ (threadOf t x).pos = (threadOf s x).step.pos)) ∧
      (r0.thread.h = false → ∃ t, exec (.fcmdCancel ctx v) s = .next t ∧ (ctxOf t ctx).fcmdseq = BitVec.ofNat 32 seq ∧ UnitEnded s t r0.u (some r0.cls)))

/-- R59, R346, R379: a correctable error is counted; an uncorrectable one is counted and poisons the register, word, granule, element or sector, drops the
TLB entry or the clean L1 sector, and in the storage of a slice's control state ends the unit with POISON; in trace state before the memory
commit it abandons the traces of the issue. -/
def Obligations.SoftErrorResults : Prop :=
  ∀ (s : State) (x : SoftTarget),
    let counted := countDie (errorDie s x).1 0x12 (errorDie s x).2 1 s
    let unit := fun u : Nat => errorPlace s x = .inl ((unitOf s u).core, (unitOf s u).ctx)
    (∀ core ctx, errorPlace s x = .inl (core, ctx) → errorDie s x = (dieOf core, ctx)) ∧ (∀ at_, errorPlace s x = .inr at_ → errorDie s x = at_) ∧
    (match x with
      | .mainReg u _ _ _ => unit u
      | .gangReg u _ _ => unit u
      | .traceState y => unit y.u
      | .scratchWord u _ => unit u
      | .control u => unit u
      | .l1Clean core _ => (∃ ctx, errorPlace s x = .inl (core, ctx))
      | .l1Written core _ => (∃ ctx, errorPlace s x = .inl (core, ctx))
      | .tlbEntry core _ => (∃ ctx, errorPlace s x = .inl (core, ctx))
      | .opbufGranule cl _ => errorPlace s x = .inr (cl / 48, 8192)
      | .tlbCluster cl _ => (∃ ctx, errorPlace s x = .inr (cl / 48, ctx))
      | .accElement core _ _ => (∃ ctx, errorPlace s x = .inr (core / 192, ctx))
      | .l2Clean pa => errorPlace s x = .inr (homeDie pa, 8192)
      | .memSector pa => errorPlace s x = .inr (homeDie pa, 8192)
      | .schedMem gid _ => ∃ ctx, errorPlace s x = .inr (gid / 256 % 8, ctx)) ∧
    (∀ core ctx, errorPlace s x = .inl (core, ctx) → exec (.softErrorCorrectable x) s = .next (countCore core 0x0F ctx 0 1 s)) ∧
    (∀ die ctx, errorPlace s x = .inr (die, ctx) → exec (.softErrorCorrectable x) s = .next (countDie die 0x11 ctx 1 s)) ∧
    ∃ t, exec (.softErrorUncorrectable x) s = .next t ∧ match x with
      | .mainReg u g l n => t = { counted with vpoi := t.vpoi } ∧ ∀ i, i ∈ t.vpoi ↔ i = ⟨⟨u, g, l⟩, n⟩ ∨ i ∈ s.vpoi
      | .gangReg u g n => t = { counted with gpoi := t.gpoi } ∧ ∀ i, i ∈ t.gpoi ↔ i = ⟨⟨u, g⟩, n⟩ ∨ i ∈ s.gpoi
      | .scratchWord u off => t = { counted with scrpoi := t.scrpoi } ∧ ∀ i, i ∈ t.scrpoi ↔ i = (u, off / 4 * 4) ∨ i ∈ s.scrpoi
      | .opbufGranule cl off => t = { counted with oppoi := t.oppoi } ∧ ∀ i, i ∈ t.oppoi ↔ i = (cl, off / 8 * 8) ∨ i ∈ s.oppoi
      | .memSector pa => t = { counted with mempoi := t.mempoi } ∧ ∀ a, a ∈ t.mempoi ↔ a = pa / 32 * 32 ∨ a ∈ s.mempoi
      | .accElement core row col => t = { counted with accpoi := t.accpoi } ∧ ∀ i, i ∈ t.accpoi ↔ i ∈ s.accpoi ∨
          ∃ u, u ∈ unitsOn s core ∧ (unitOf s u).matrix = true ∧ i = (u, row, col)
      | .l1Clean core pa => t = { counted with l1 := t.l1 } ∧ ∀ y, y ∈ t.l1 ↔ y ∈ s.l1 ∧ ¬ (y.core = core ∧ y.pa = pa / 32 * 32)
      | .l1Written core pa => pa / 32 * 32 ∈ t.mempoi ∧ ∀ y ∈ t.l1, ¬ (y.core = core ∧ y.pa = pa / 32 * 32)
      | .l2Clean _ => t = counted
      | .tlbEntry core va => t = { counted with tlbCore := t.tlbCore } ∧
          ∀ e, e ∈ t.tlbCore ↔ e ∈ s.tlbCore ∧ ¬ (e.own = core ∧ e.va ≤ va ∧ va < e.va + 2 ^ e.leaf.lg)
      | .tlbCluster cl va => t = { counted with tlbCluster := t.tlbCluster } ∧
          ∀ e, e ∈ t.tlbCluster ↔ e ∈ s.tlbCluster ∧ ¬ (e.own = cl ∧ e.va ≤ va ∧ va < e.va + 2 ^ e.leaf.lg)
      | .traceState y => ∀ i, (threadOf s y).pos = .body i → y.h = false → (unitOf s y.u).status = .resident →
          ((threadOf s y).committed = false → y.j ∈ (issueOf s y).js → threadOf t y = abandoned (threadOf s y)) ∧
          ((threadOf s y).committed = true → KeysOnce s.thr →
            UnitEnded { s with thr := s.thr.modify y {} fun th => { th with committed := false } } t y.u (some .poison))
      | .control u => (unitOf s u).status = .resident → KeysOnce s.thr → ∀ y, firstLive s u = some y →
          UnitEnded { s with thr := s.thr.modify y {} fun th => { th with committed := false } } t u (some .poison)
      | .schedMem gid node => (∀ g, s.graphs.find? gid = some g → ∃ g', t.graphs.find? gid = some g' ∧ node ∈ g'.bad ∧ g'.nodes = g.nodes) ∧
          ∀ lid l, launchAt s gid node = some (lid, l) → KeysOnce s.launches → ∃ l', t.launches.find? lid = some l' ∧
            (l'.state.final = true ∨ l'.state = .cancelling)

/-! ### Graphs and launches -/

/-- R304, R306, R307, R309, R310, R311: GLOAD begins a load, which reads and checks the image and stores the graph, frees the slot, or reports a code;
TRIGGER is accepted with the next sequence number, or dropped with the bit of a cause that holds; a trigger that begins patches the image and opens
one launch for each node. -/
def Obligations.GraphResults : Prop :=
  (∀ (s : State) (ctx : Nat) (v : DWord), answersHost s = true →
    ((ctxOf s ctx).gload = none → exec (.gload ctx v) s =
      .next (modCtx ctx (fun c => { c with gload := some (v.toNat % 2 ^ 52), gloadstat := 1 }) s)) ∧
    ((ctxOf s ctx).gload ≠ none → exec (.gload ctx v) s = .next s)) ∧
  (∀ (s : State) (ctx addr : Nat), (ctxOf s ctx).gload = some addr →
    let result := fun code at_ : Nat => modCtx ctx (fun c => { c with gload := none, gloadstat := BitVec.ofNat 64 (code * 16 + at_ % 65536 * 65536) }) s
    let fails := fun code at_ : Nat => exec (.graphLoadComplete ctx) s = .next (result code at_)
    (sysRead s ctx addr 64 = none → fails 6 0) ∧
    ∀ hb, sysRead s ctx addr 64 = some hb →
      let h := leNat hb
      let gid := h / 2 ^ 48 % 2 ^ 16
      let nn := h / 2 ^ 32 % 2 ^ 16
      let ne := h / 2 ^ 64 % 2 ^ 32
      (h % 2 ^ 32 ≠ 0x47525A55 ∨ h / 2 ^ 96 ≠ 0 ∨ 2048 ≤ gid → fails 1 0) ∧
      (h % 2 ^ 32 = 0x47525A55 → h / 2 ^ 96 = 0 → gid < 2048 →
        ((∃ t ∈ s.trigs, t.gid = gid) → fails 2 0) ∧
        ((∀ t ∈ s.trigs, t.gid ≠ gid) →
          (∀ g, s.graphs.find? gid = some g → g.ctx ≠ ctx → fails 3 0) ∧
          ((∀ g, s.graphs.find? gid = some g → g.ctx = ctx) →
            (nn = 0 → exec (.graphLoadComplete ctx) s = .next { result 0 0 with graphs := s.graphs.erase gid }) ∧
            (4096 < nn → fails 4 0) ∧
            (0 < nn → nn ≤ 4096 → 65536 < ne → fails 5 0) ∧
            (0 < nn → nn ≤ 4096 → ne ≤ 65536 → (sysRead s ctx (addr + 64) (128 * nn) = none ∨ sysRead s ctx (addr + 64 + 128 * nn) (4 * ne) = none) → fails 6 0) ∧
            ∀ nb eb, 0 < nn → nn ≤ 4096 → ne ≤ 65536 → sysRead s ctx (addr + 64) (128 * nn) = some nb → sysRead s ctx (addr + 64 + 128 * nn) (4 * ne) = some eb →
              let node := fun i : Nat => BitVec.ofNat 1024 (leNat ((nb.drop (128 * i)).take 128))
              let edge := fun i : Nat => let w := leNat ((eb.drop (4 * i)).take 4); (w % 65536, w / 65536)
              let zeros := fun i : Nat => ∀ p ∈ [(60, 4), (134, 2), (142, 2), (167, 1), (242, 14), (383, 1), (436, 12), (500, 12)], nodeField (node i) p.1 p.2 = 0
              let inLimits := fun i : Nat => limitsOk (node i) = true
              let edgeOk := fun i : Nat => (edge i).1 < nn ∧ (edge i).2 < nn ∧
                (0 < i → (edge (i - 1)).1 < (edge i).1 ∨ ((edge (i - 1)).1 = (edge i).1 ∧ (edge (i - 1)).2 < (edge i).2))
              (∀ i < nn, ¬ zeros i → (∀ j < i, zeros j) → fails 1 i) ∧
              ((∀ i < nn, zeros i) → ∀ i < nn, ¬ inLimits i → (∀ j < i, inLimits j) → fails 4 i) ∧
              ((∀ i < nn, zeros i ∧ inLimits i) → ∀ i < ne, ¬ edgeOk i → (∀ j < i, edgeOk j) → fails 5 i) ∧
              ((∀ i < nn, zeros i ∧ inLimits i) → (∀ i < ne, edgeOk i) →
                ((∃ rank : Nat → Nat, ∀ i < ne, rank (edge i).1 < rank (edge i).2) →
                  ∃ t, exec (.graphLoadComplete ctx) s = .next t ∧
                    t = { s with graphs := s.graphs.set gid ⟨ctx, (List.range nn).map node, (List.range ne).map edge, []⟩, ctxs := t.ctxs } ∧
                    (ctxOf t ctx).gload = none ∧ (ctxOf t ctx).gloadstat = 0) ∧
                ((∀ rank : Nat → Nat, ∃ i < ne, rank (edge i).2 ≤ rank (edge i).1) → fails 5 0)))))) ∧
  (∀ (s : State) (ctx : Nat) (v : DWord), answersHost s = true →
    let gid := v.toNat / 2 ^ 48
    let addr := v.toNat % 2 ^ 48
    let full : Prop := 64 ≤ (s.trigs.filter fun t => ! t.running && t.gid / 256 % 8 == gid / 256 % 8).length
    let owned := fun g : Graph => gid < 2048 ∧ s.graphs.find? gid = some g ∧ g.ctx = ctx
    let seq := (ctxOf s ctx).nextTrig
    let stat := fun c : Ctx => BitVec.ofNat 64 (c.trigstat.toNat % 2 ^ 32 + seq % 2 ^ 32 * 2 ^ 32)
    let accepted := modCtx ctx (fun c => { c with nextTrig := seq + 1, trigstat := stat c }) s
    (∀ g phase patches, owned g → ¬ full → readPatches s ctx addr g = .ok phase patches →
      exec (.trigger ctx v) s = .next { accepted with trigs := s.trigs ++ [⟨ctx, gid, seq, phase, patches, false⟩] }) ∧
    (full ∨ (∀ g, ¬ owned g) ∨ (∃ g, owned g ∧ (readPatches s ctx addr g = .bad ∨ readPatches s ctx addr g = .fault)) →
      ∃ cause t, exec (.trigger ctx v) s = .next t ∧
        t = { modCtx ctx (fun c => { c with trigstat := c.trigstat ||| (1 : DWord) <<< cause }) s with free := t.free } ∧
        ((cause = 0 ∧ full) ∨ (cause = 1 ∧ ∀ g, ¬ owned g) ∨ (cause = 2 ∧ ∃ g, owned g ∧ readPatches s ctx addr g = .bad) ∨
          (cause = 3 ∧ ∃ g, owned g ∧ readPatches s ctx addr g = .fault)))) ∧
  (∀ (s : State) (ctx addr : Nat) (g : Graph) (hb : List Byte), addr ≠ 0 → sysRead s ctx addr 16 = some hb →
    let n := leNat hb % 2 ^ 16
    (256 < n ∨ leNat hb / 2 ^ 22 ≠ 0 → readPatches s ctx addr g = .bad) ∧
    ∀ bs, n ≤ 256 → leNat hb / 2 ^ 22 = 0 → sysRead s ctx (addr + 16) (16 * n) = some bs →
      let w := fun i : Nat => leNat ((bs.drop (16 * i)).take 16)
      let good := fun i : Nat => w i / 2 ^ 32 % 2 ^ 32 = 0 ∧ w i % 2 ^ 16 < g.nodes.length ∧
        let off := w i / 2 ^ 16 % 2 ^ 16
        ((off = 8 ∧ 1 ≤ w i / 2 ^ 64 % 2 ^ 32 ∧ w i / 2 ^ 64 % 2 ^ 32 ≤ 0x7FFFFFFF ∧ 1 ≤ w i / 2 ^ 96 % 2 ^ 16 ∧ 1 ≤ w i / 2 ^ 112 ∧
            w i / 2 ^ 64 % 2 ^ 32 * (w i / 2 ^ 96 % 2 ^ 16) * (w i / 2 ^ 112) < 2 ^ 48) ∨ (off ∈ [64, 72, 80, 88, 96, 104, 112, 120]))
      ((∀ i < n, good i) → readPatches s ctx addr g = .ok (leNat hb / 2 ^ 16 % 2 ^ 6)
        ((List.range n).map fun i => (w i % 2 ^ 16, w i / 2 ^ 16 % 2 ^ 16, BitVec.ofNat 64 (w i / 2 ^ 64)))) ∧
      ((∃ i < n, ¬ good i) → readPatches s ctx addr g = .bad)) ∧
  (∀ (off : Nat) (v : DWord) (d : BitVec 1024), off + 8 ≤ 128 → nodeField (patchNode off v d) (8 * off) 64 = v.toNat ∧
    ∀ lo w, lo + w ≤ 8 * off ∨ 8 * off + 64 ≤ lo → nodeField (patchNode off v d) lo w = nodeField d lo w) ∧
  ∀ (s : State) (ctx gid : Nat) (g : Graph) (x : Trig), s.graphs.find? gid = some g → s.trigs.find? (fun y => y.gid == gid && y.ctx == ctx) = some x →
    x.running = false → g.bad = [] →
    let patched := fun i : Nat => (x.patches.filter fun p => p.1 == i).foldl (fun d p => patchNode p.2.1 p.2.2 d) (g.nodes.getD i 0)
    let nodes := (List.range g.nodes.length).map patched
    let trigs := s.trigs.map fun y => if y = x then { y with running := true } else y
    let graphs := s.graphs.set gid { g with nodes := nodes }
    ∃ t, exec (.triggerBegin ctx gid) s = .next t ∧
      t = { s with graphs := graphs, trigs := trigs, launches := t.launches, fresh := s.fresh + nodes.length } ∧
      (∀ i < nodes.length, t.launches.find? (s.fresh + i) = some ⟨ctx, gid, i, x.seq, nodes.getD i 0, .waiting, [], [], 0, [], [], none, []⟩) ∧
      ∀ lid, lid < s.fresh ∨ s.fresh + nodes.length ≤ lid → t.launches.find? lid = s.launches.find? lid

/-- R306, R312, R319, R336: a launch whose dependencies have completed writes its completion record and reads its lease list; one that cannot be read, or
breaks R312, fails it; a page that is not present is asked for in a pending record; with every page present it brings its binding table and then its
queue map, and runs, the lines of every L1 discarded; where the map cannot be read it fails, with the table replaced. A launch that ends with STATE 11 takes with it every launch that depends on it. -/
def Obligations.LaunchStartResults : Prop :=
  (∀ (s : State) (gid node lid : Nat) (l : Launch) (edges : List (Nat × Nat)), launchAt s gid node = some (lid, l) → s.launches.find? lid = some l →
    l.state = .waiting → l.node = node → edges = ((s.graphs.find? l.gid).map (·.edges)).getD [] →
    (∀ e ∈ edges, e.2 = l.node → ∀ p ∈ launchesOf s l.gid l.seq l.ctx, p.2.node = e.1 → p.2.state = .complete ∨ p.2.state = .errors) →
    (∀ p ∈ s.launches, p.1 ≠ lid → p.2.ctx = l.ctx → p.2.state ∈ [.running, .cancelling] →
      ∀ q ∈ [l, p.2], nodeField q.desc 320 52 = 0 ∧ nodeField q.desc 384 52 = 0) →
    (∀ p ∈ s.parks, p.thread = none → p.launch ≠ lid) →
    let s1 := writeCompl l s
    let n := nodeField l.desc 308 12
    let fails := exec (.launchStart gid node) s = .next (finishLaunch lid .cancelled s1)
    (sysRead s1 l.ctx (nodeField l.desc 256 52) (16 * n) = none → fails) ∧
    ∀ bs, sysRead s1 l.ctx (nodeField l.desc 256 52) (16 * n) = some bs →
      let w := fun i : Nat => leNat ((bs.drop (16 * i)).take 16)
      let good := fun i : Nat => w i % 2 ^ 64 % 4096 = 0 ∧ w i / 2 ^ 64 % 4096 = 0 ∧ w i / 2 ^ 64 ≠ 0
      let leases := (List.range n).map fun i => (w i % 2 ^ 64, w i / 2 ^ 64)
      let pages := leases.flatMap fun p => (List.range (p.2 / 4096)).map fun i => p.1 + 4096 * i
      let present := fun va : Nat => va < 2 ^ 52 ∧ ∃ b x, walk s1 l.ctx va = .leaf b x
      ((∃ i < n, ¬ good i) → fails) ∧
      (∀ l1 va l2, (∀ i < n, good i) → pages = l1 ++ va :: l2 → (∀ x ∈ l1, present x) → ¬ present va →
        ∃ t, exec (.launchStart gid node) s = .next t ∧ t.launches.find? lid = some { l with state := .filling, leases := leases } ∧
          ∃ r, t.frecs[s.frecs.length]? = some r ∧ r.ctx = l.ctx ∧ r.cls = .page ∧ r.pending = true ∧ r.image.extractLsb' 8 8 = (3 : BitVec 8) ∧
            r.image.extractLsb' 320 64 = BitVec.ofNat 64 va ∧ ∃ p ∈ t.parks, p.thread = none ∧ p.launch = lid ∧ p.va = va ∧ p.seq = r.seq) ∧
      ((∀ i < n, good i) → (∀ va ∈ pages, present va) →
        let starts := fun ctxs => ∃ t, exec (.launchStart gid node) s = .next t ∧ t = { s1 with launches := t.launches, l1 := t.l1, ctxs := t.ctxs } ∧
          ctxs t ∧ t.l1 = [] ∧ ∃ ws, t.launches.find? lid = some { l with state := .running, leases := leases, writable := ws } ∧
            ∀ va, va ∈ ws ↔ va ∈ pages ∧ ∃ b x, walk s1 l.ctx va = .leaf b x ∧ x.w = true
        (nodeField l.desc 320 52 = 0 → nodeField l.desc 384 52 = 0 → starts fun t => t.ctxs = s1.ctxs) ∧
        ∀ tb, nodeField l.desc 320 52 ≠ 0 → sysRead s1 l.ctx (nodeField l.desc 320 52) (32 * nodeField l.desc 372 11) = some tb →
          let e := fun i : Nat => leNat ((tb.drop (32 * i)).take 32)
          let regionOk := fun i : Nat => e i % 2 ^ 64 % 64 = 0 ∧ e i / 2 ^ 64 % 2 ^ 64 % 64 = 0 ∧ e i / 2 ^ 64 % 2 ^ 64 ≠ 0 ∧
            e i / 2 ^ 128 % 2 ^ 64 % 8 = 0 ∧ e i / 2 ^ 192 = 0
          let table := (List.range (nodeField l.desc 372 11)).map fun i => (i, ⟨e i % 2 ^ 64, e i / 2 ^ 64 % 2 ^ 64, e i / 2 ^ 128 % 2 ^ 64⟩)
          let c := ctxOf s1 l.ctx
          let bound := s1.ctxs.set l.ctx { c with bindtab := table, unbound := c.bindtab.map (·.2) ++ c.unbound }
          ((∀ i < nodeField l.desc 372 11, regionOk i) → nodeField l.desc 384 52 = 0 → starts fun t => t.ctxs = bound) ∧
          ((∀ i < nodeField l.desc 372 11, regionOk i) → nodeField l.desc 384 52 ≠ 0 → sysRead s1 l.ctx (nodeField l.desc 384 52) 1024 = none →
            ∃ s2, exec (.launchStart gid node) s = .next (finishLaunch lid .cancelled s2) ∧
              s2 = { s1 with launches := s2.launches, ctxs := bound }) ∧
          ((∃ i < nodeField l.desc 372 11, ¬ regionOk i) → ∃ s2, exec (.launchStart gid node) s = .next (finishLaunch lid .cancelled s2) ∧
            s2 = { s1 with launches := s2.launches }))) ∧
  (∀ (s : State) (lid : Nat) (l : Launch), s.launches.find? lid = some l → l.state.final = false → KeysOnce s.launches →
    ∀ st ∈ [LState.complete, LState.errors, LState.cancelled], (finishLaunch lid st s).launches.find? lid = some { l with state := st } ∧
      (st = .cancelled → ∀ p ∈ launchesOf s l.gid l.seq l.ctx,
        Relation.TransGen (fun a b => (a, b) ∈ ((s.graphs.find? l.gid).map (·.edges)).getD []) l.node p.2.node →
        ∃ l', (finishLaunch lid st s).launches.find? p.1 = some l' ∧ l'.state.final = true)) ∧
  ∀ (s : State) (l : Launch) (pa : Nat → Nat), s.cxl = [] → (∀ i < 32, sysAddr s l.ctx (nodeField l.desc 448 52 + i) = some (pa i)) →
    (∀ i < 32, ∀ j < 32, pa i = pa j → i = j) → doneOf l < 2 ^ 64 → l.errors < 2 ^ 64 →
    let field := fun lo n : Nat => leNat ((List.range n).map fun i => (writeCompl l s).mem.read (pa (lo + i)))
    field 0 8 = doneOf l ∧ field 8 8 = l.errors ∧ field 16 4 = l.seq % 2 ^ 32 ∧ field 20 12 = match l.state with
      | .complete => 1
      | .errors => 2
      | .cancelled => 3
      | _ => 0

/-! ### Dispatch and cancels -/

/-- R56, R313, R314, R315, R316, R318, R353: a unit that qualifies on a core and that no other outranks is dispatched to it: a new one starts every gang at the
entry trace with its parameters, its stack tops and its bind records, in the lowest free slots (the model's choice, log 38); a saved one is resident
again, its bind records placed anew. A core that is fenced or
off the launch's dies, without slots, registers, headroom or contiguous scratchpad enough, or held by another matrix unit where the launch is a
matrix launch, and a unit outside the window, make no dispatch. Of the units of a launch that qualify, the lowest goes first, but the room that a
deschedule has made goes to another than the unit just descheduled; in quantum mode the descheduled ones go before new ones, the oldest first. A
launch that has made room comes before others there, then the highest band, then the trigger accepted first. -/
def Obligations.DispatchResults : Prop :=
  ∀ (s : State) (lid idx core : Nat) (l : Launch), s.launches.find? lid = some l →
    let d := l.desc
    let gangs := nodeField d 55 5 + 1
    let nsl := nodeField d 52 3 + 1
    let mask := nodeField d 184 8
    let scr := nodeField d 144 10
    let fits := fun i : Nat => qualifies s lid i core l = true
    let claims := fun (id : Nat) (x : Launch) => ∃ i k, x.justOut = some (i, core) ∧ nextUnit s id core x = some k ∧ k ≠ i
    let accepted := fun x : Launch => (s.trigs.findIdx? fun y => y.ctx == x.ctx && y.gid == x.gid && y.seq == x.seq).getD s.trigs.length
    let before := fun x : Launch => nodeField d 240 2 < nodeField x.desc 240 2 ∨ (nodeField x.desc 240 2 = nodeField d 240 2 ∧
      (accepted x < accepted l ∨ (accepted x = accepted l ∧ x.node < l.node)))
    ((s.health ≠ .ok ∧ s.health ≠ .degraded) ∨ 1536 ≤ core ∨ core ∈ s.fenced ∨ core ∈ s.fencing ∨ core / 192 ∈ s.diedead ∨
        (mask = 0 ∧ core / 192 ≠ l.gid / 256 % 8) ∨ (mask ≠ 0 ∧ mask / 2 ^ (core / 192) % 2 = 0) ∨ (freeSlots s core).length < gangs ∨
        freeRows s core < rowsFor s lid idx l ∨ (∃ u ∈ (unitsOn s core).head?, freeRows s core < rowsFor s lid idx l + growthOf s u) ∨
        (∀ base, base + scr ≤ 512 → ∃ p ∈ s.units, p.2.core = core ∧ p.2.slots ≠ [] ∧ ∃ b ∈ p.2.binds.head?, b.scrBase < base + scr ∧ base < b.scrBase + b.scrSize) ∨
        (isMatrix s l = true ∧ ∃ u ∈ unitsOn s core, (unitOf s u).matrix = true) ∨
        doneOf l + 256 ≤ idx ∨ unitsIn d ≤ idx ∨ idx ∈ l.completed ∨ l.state ≠ .running →
      exec (.unitDispatch lid idx core) s = .next s) ∧
    (nodeField d 164 2 ≠ 1 →
      (l.justOut = none → (nextUnit s lid core l = some idx ↔ fits idx ∧ ∀ k < idx, ¬ fits k)) ∧
      ∀ out, l.justOut = some (out, core) → (nextUnit s lid core l = some idx ↔
        (idx ≠ out ∧ fits idx ∧ ∀ k < idx, k ≠ out → ¬ fits k) ∨ (idx = out ∧ fits out ∧ ∀ k, k ≠ out → ¬ fits k))) ∧
    (nodeField d 164 2 = 1 → l.justOut = none → nextUnit s lid core l = some idx → fits idx ∧
      (∀ k, fits k → savedUnit s lid idx = none → savedUnit s lid k = none ∧ idx ≤ k) ∧
      ∀ k u v, fits k → savedUnit s lid idx = some u → savedUnit s lid k = some v → (unitOf s u).seq ≤ (unitOf s v).seq) ∧
    (outranked s lid core l = true ↔ ∃ p ∈ s.launches, p.1 ≠ lid ∧ p.2.state = .running ∧ (claims p.1 p.2 ∨ (¬ claims lid l ∧ before p.2 ∧
      ∃ c < 1536, nextUnit s p.1 c p.2 ≠ none))) ∧
    (l.state = .running → nextUnit s lid core l = some idx → outranked s lid core l = false → savedUnit s lid idx = none →
      ∃ t, exec (.unitDispatch lid idx core) s = .next t ∧
        (∃ un, t.units.find? s.fresh = some un ∧ un.core = core ∧ un.launch = lid ∧ un.idx = idx ∧ un.ctx = l.ctx ∧ un.status = .resident ∧
          un.slots = (freeSlots s core).take gangs ∧ un.binds.length = gangs ∧ un.matrix = isMatrix s l) ∧
        t.launches.find? lid = some { l with begun := idx :: l.begun, justOut := match l.justOut with
          | none => none
          | some (i, c) => if c = core ∧ (i = idx ∨ (savedUnit s lid i).isSome = true) then none else some (i, c) } ∧
        ∀ g < gangs,
          let b := bindOf t s.fresh g
          (b.valid = true ∧ b.entry = nodeField d 0 52 ∧ b.slices = nodeField d 52 3 ∧ b.gang = g ∧ b.unitIdx = idx ∧ b.launchId = l.seq % 2 ^ 20 * 4096 + l.node ∧
            b.asid = l.ctx ∧ b.regN = nodeField d 128 6 ∧ b.regMax = nodeField d 136 6 ∧ b.scrSize = nodeField d 144 10 ∧ b.stkSize = nodeField d 154 9 ∧
            b.wdog = nodeField d 192 32 ∧ b.pairWait = nodeField d 168 16 ∧ b.band = nodeField d 240 2 ∧ b.mode = nodeField d 164 2 ∧
            b.pair = (if nodeField d 166 1 = 1 then 1 + g % 2 else 0)) ∧
          (gangOf t ⟨s.fresh, g⟩).joined = true ∧ (gangOf t ⟨s.fresh, g⟩).nslices = nsl ∧
          (∀ i < 8, greg t ⟨s.fresh, g⟩ (2 * i) = loW (BitVec.ofNat 64 (nodeField d (512 + 64 * i) 64)) ∧
            greg t ⟨s.fresh, g⟩ (2 * i + 1) = hiW (BitVec.ofNat 64 (nodeField d (512 + 64 * i) 64))) ∧
          ∀ j < nsl, (threadOf t ⟨s.fresh, g, j, false⟩).pos = .head (nodeField d 0 52) ∧ (threadOf t ⟨s.fresh, g, j, false⟩).mask = 0xF ∧
            (threadOf t ⟨s.fresh, g, j, false⟩).head = 0xF ∧ (sliceOf t ⟨s.fresh, g, j⟩).nreg = 8 * nodeField d 128 6 ∧
            ∀ i < 4, vreg t ⟨s.fresh, g, 4 * j + i⟩ 252 = loW (BitVec.ofNat 64 (b.stkBase + (4 * j + i + 1) * (b.stkSize * 4096 + 4096))) ∧
              vreg t ⟨s.fresh, g, 4 * j + i⟩ 253 = hiW (BitVec.ofNat 64 (b.stkBase + (4 * j + i + 1) * (b.stkSize * 4096 + 4096)))) ∧
    ∀ u, l.state = .running → nextUnit s lid core l = some idx → outranked s lid core l = false → savedUnit s lid idx = some u →
      (∀ r ∈ s.frecs, r.u = u → r.answer = none) →
      ∃ t, exec (.unitDispatch lid idx core) s = .next t ∧ (unitOf t u).status = .resident ∧ (unitOf t u).core = core ∧
        (unitOf t u).slots = (freeSlots s core).take gangs ∧
        (∀ g b, (unitOf s u).binds[g]? = some b → ∃ b', (unitOf t u).binds[g]? = some b' ∧ b'.valid = true ∧ b'.entry = b.entry ∧ b'.pair = b.pair ∧
          b'.partner = if b.pair = 0 then 0 else ((freeSlots s core).take gangs).getD (if g % 2 = 0 then g + 1 else g - 1) 0) ∧
        (∀ c ∈ s.copyLog, c.u = u → { c with core := core, via := none, flits := [] } ∈ t.copies) ∧ (∀ c ∈ s.matLog, c.u = u → { c with core := core } ∈ t.mats) ∧
        ∀ x, x.u = u → (threadOf t x).pos = (threadOf s x).pos ∧ (threadOf t x).mask = (threadOf s x).mask ∧ (threadOf t x).wait = (threadOf s x).wait

/-- R320, R321, R322, R323: a unit cancel has no effect on a unit that has completed; it ends a resident unit, and counts one that was not dispatched
as completed and in ERRORS. A launch cancel leaves every unit of the launch ended or ending, and the launch cancelled, or cancelled once they have run
out. Graph, phase and job cancels drop the queued triggers that they name, which complete and count, and cancel the launches of the running ones. -/
def Obligations.CancelResults : Prop :=
  ∀ (s : State) (ctx : Nat) (v : DWord), answersHost s = true → KeysOnce s.launches → KeysOnce s.units → KeysOnce s.thr →
    let gid := v.toNat / 2 ^ 32 % 2 ^ 16
    let node := v.toNat / 2 ^ 20 % 2 ^ 12
    let idx := (ctxOf s ctx).cancelunit.toNat % 2 ^ 48
    (∀ lid l, launchAt s gid node = some (lid, l) → l.ctx = ctx →
      let active := fun u un => s.units.find? u = some un ∧ un.launch = lid ∧ un.status ≠ .done
      (l.state.final = true ∨ unitsIn l.desc ≤ idx ∨ idx ∈ l.completed → exec (.cancelUnit ctx v) s = .next s) ∧
      (l.state.final = false → idx < unitsIn l.desc → idx ∉ l.completed →
        (∀ u un, active u un → un.idx = idx → (un.status = .resident ∨ un.status = .saving) → (∀ u' un', active u' un' → un'.idx = idx → u' = u) →
          ∃ t, exec (.cancelUnit ctx v) s = .next t ∧ UnitEnded s t u none) ∧
        ((∀ u un, active u un → un.idx ≠ idx) → l.completed.length + 1 ≠ unitsIn l.desc → ∃ t, exec (.cancelUnit ctx v) s = .next t ∧ t.thr = s.thr ∧
          t.launches.find? lid = some { l with begun := idx :: l.begun, completed := idx :: l.completed, errors := l.errors + 1 })) ∧
      (l.state.final = true → exec (.cancelLaunch ctx v) s = .next s) ∧
      (l.state.final = false → (∀ u un, active u un → un.idx < unitsIn l.desc ∧ un.idx ∉ l.completed ∧ ∀ u' un', active u' un' → un'.idx = un.idx → u' = u) →
        ∃ t, exec (.cancelLaunch ctx v) s = .next t ∧ (∃ l', t.launches.find? lid = some l' ∧ (l'.state = .cancelling ∨ l'.state = .cancelled)) ∧
          ∀ u un, active u un → ((unitOf t u).status = .ending ∨ (unitOf t u).status = .done) ∧ ((unitOf t u).failed = true ∨ un.status = .ending))) ∧
    (launchAt s gid node = none → exec (.cancelUnit ctx v) s = .next s ∧ exec (.cancelLaunch ctx v) s = .next s) ∧
    ((s.trigs.map fun t => (t.ctx, t.seq)).Nodup →
      ∀ q ∈ [(Instr.cancelGraph ctx v, fun t : Trig => decide (t.gid = gid)), (.cancelPhase ctx v, fun t => decide (t.phase = v.toNat / 2 ^ 14 % 2 ^ 6)),
          (.cancelJob ctx v, fun _ => true)],
        let named := fun t : Trig => t.ctx = ctx ∧ q.2 t = true
        ∃ t, exec q.1 s = .next t ∧ (∀ x ∈ t.trigs, named x → x.running = true) ∧ (∀ x ∈ s.trigs, ¬ named x → x ∈ t.trigs) ∧
          (∀ x ∈ s.trigs, named x → x.running = true → ∀ p ∈ launchesOf s x.gid x.seq x.ctx, ∃ l', t.launches.find? p.1 = some l' ∧
            (l'.state.final = true ∨ l'.state = .cancelling)) ∧
          ((∀ x ∈ s.trigs, named x → x.running = false) → t.trigs = s.trigs.filter (fun x => ! (x.ctx == ctx && q.2 x)) ∧
            (ctxOf t ctx).jobdone = (ctxOf s ctx).jobdone + (s.trigs.filter fun x => x.ctx == ctx && q.2 x).length))

/-! ### Carr links -/

/-- R356, R358 to R363, R366: the states that a write of EN or RETRAIN, training and a lane loss lead to; which flits are accepted, discarded, or discarded with
one NAK for each E; what an acknowledgement, a NAK and a timeout do to the replay buffer; where a flit's fields stand, and what a block of five flits
carries; and which bytes of a peer's element the agent performs, poison with them. A change of HEALTH raises vector 2 and is reported. -/
def Obligations.LinkResults : Prop :=
  ∀ (s : State) (l : Nat), l < 12 →
    let k := linkOf s l
    let noted := fun s' : State => if healthWord s = healthWord s' then s'
      else { s' with msix := (0, 2) :: s'.msix, out := .health (healthWord s') :: s'.out }
    let now := fun (k' : Link) => modLink l (fun _ => k') s
    let dead := fun (st : LinkState) => { k with state := st, laneok := 0, replay := [], resend := [], nakDue := false, frozen := none }
    let lo := fun m : BitVec 16 => m &&& 0x00FF = 0x00FF
    let hi := fun m : BitVec 16 => m &&& 0xFF00 = 0xFF00
    let up := k.state = .up16 ∨ k.state = .up8lo ∨ k.state = .up8hi
    (answersHost s = true →
      exec (.carrctlEn l false) s = .next (noted (now { dead .down with en := false })) ∧
      (k.state = .down → exec (.carrctlEn l true) s = .next (noted (now { k with en := true, state := .training, former := .down }))) ∧
      (k.state ≠ .down → exec (.carrctlEn l true) s = .next (noted (now { k with en := true }))) ∧
      (k.frozen ≠ none ∨ k.state = .down ∨ k.state = .training → exec (.carrctlRetrain l) s = .next (noted (now k))) ∧
      (k.frozen = none → k.state ≠ .down → k.state ≠ .training →
        exec (.carrctlRetrain l) s = .next (noted (now { k with state := .training, former := k.state })))) ∧
    (∀ lanes peer, k.state = .training → k.frozen = none →
      let trains := fun st => exec (.linkTrainingComplete l lanes peer) s =
        .next (noted (now { k with state := st, laneok := lanes, peer := peer, myid := s.pkgid, resend := k.replay }))
      (lanes = 0xFFFF → trains .up16) ∧
      (lanes ≠ 0xFFFF → k.former ≠ .up8hi → lo lanes → trains .up8lo) ∧
      (lanes ≠ 0xFFFF → k.former = .up8hi → hi lanes → trains .up8hi) ∧
      (lanes ≠ 0xFFFF → k.former ≠ .up8hi → ¬ lo lanes → hi lanes → trains .up8hi) ∧
      (lanes ≠ 0xFFFF → k.former = .up8hi → ¬ hi lanes → lo lanes → trains .up8lo)) ∧
    (∀ lanes peer half, k.frozen = some half → (if half then hi lanes else lo lanes) → exec (.linkTrainingComplete l lanes peer) s =
      .next (noted (now { k with state := (if half then .up8hi else .up8lo), laneok := lanes, peer := peer, myid := s.pkgid, frozen := none,
                                 resend := k.replay }))) ∧
    (k.state = .training → exec (.linkTrainingTimeout l) s = .next (noted (now (dead .failed)))) ∧
    (∀ lane, lane < 16 → up →
      let counted := countDie (l % 8) 0x0A 8192 1 s
      let falls := fun k' : Link => ∃ t, exec (.laneLoss l lane) s = .next t ∧ linkOf t l = k' ∧
        t = { counted with links := t.links, health := t.health, replaceF := t.replaceF, msix := t.msix, out := t.out } ∧
        t.health = (if s.health = .ok then .degraded else s.health) ∧ t.replaceF = (s.replaceF || s.health != .failed)
      let cleared := k.laneok &&& ~~~((1 : BitVec 16) <<< lane)
      (k.state = .up16 → k.frozen = none → falls { k with laneok := cleared, frozen := some (decide (lane < 8)) }) ∧
      (∀ half, k.frozen = some half → decide (8 ≤ lane) = half → falls (dead .failed)) ∧
      (k.frozen = none → (k.state = .up8lo ∧ lane < 8) ∨ (k.state = .up8hi ∧ 8 ≤ lane) → falls (dead .failed))) ∧
    (∀ (ty : BitVec 8) (seq ack len : BitVec 16) (p : BitVec 1920),
      let f := (mkFlit ty seq ack len p).bits
      f.extractLsb' 0 16 = seq ∧ f.extractLsb' 16 16 = ack ∧ f.extractLsb' 32 32 = 0 ∧ f.extractLsb' 64 8 = ty ∧ f.extractLsb' 72 8 = 0 ∧
        f.extractLsb' 80 16 = len ∧ f.extractLsb' 96 1920 = p ∧ f.extractLsb' 2016 32 = crc32 2016 f) ∧
    (up → k.frozen = none → s.health ≠ .failed →
      (∀ (f : Flit) (op : RemoteOp),
        let seq := f.bits.extractLsb' 0 16
        let ack := f.bits.extractLsb' 16 16
        let ty := f.bits.extractLsb' 64 8
        let good := f.bits.extractLsb' 2016 32 = crc32 2016 f.bits ∧ ty.toNat ≤ 2
        let keep := if ack ∈ k.replay.map (·.seq) then (k.replay.dropWhile fun x => x.seq != ack).drop 1 else k.replay
        let freed := { k with acked := ack, replay := keep, resend := k.resend.filter fun x => keep.contains x }
        let nak := fun j : Link => if k.naked = some k.expect then j else { j with naked := some k.expect, nakDue := true }
        let back := (k.expect - seq).toNat
        (¬ good → exec (.dataFlitReceive l f op) s = .next (now (nak k)) ∧ exec (.idleFlitReceive l f) s = .next (now (nak k)) ∧
          exec (.nakFlitReceive l f) s = .next (now (nak k))) ∧
        (good → ty = 0 → exec (.idleFlitReceive l f) s = .next (now freed)) ∧
        (good → ty = 2 → exec (.nakFlitReceive l f) s = .next (now { freed with resend := keep })) ∧
        (good → ty = 1 →
          (back ≠ 0 → back ≤ 32768 → exec (.dataFlitReceive l f op) s = .next (now freed)) ∧
          (32768 < back → exec (.dataFlitReceive l f op) s = .next (now (nak freed))) ∧
          (back = 0 →
            let took := now { freed with expect := k.expect + 1, naked := none }
            (op = .none → exec (.dataFlitReceive l f op) s = .next took) ∧
            let len := (f.bits.extractLsb' 80 16).toNat
            let named := fun pkg asid ctx : Nat => ∃ p ∈ (ctxOf s ctx).route, p.2.getLsbD 0 = true ∧ p.2.toNat / 2 ^ 5 % 2 ^ 16 = pkg ∧
              p.2.toNat / 2 ^ 21 % 2 ^ 13 = asid ∧ p.2.toNat / 2 ^ 46 % 2 ^ 20 ≠ 0
            let reached := fun (write : Bool) (ctx va : Nat) (pa : Nat → Nat) (i : Nat) => va + i < 2 ^ 52 ∧ ∃ b x, walk s ctx (va + i) = .leaf b x ∧
              (write = true → x.w = true) ∧ (x.scope = .fabric ∨ x.scope = .system) ∧ pa i = x.pa + (va + i - b)
            (∀ pkg asid ctx va bytes, op = .write pkg asid ctx va bytes → bytes.length ≤ len → len ≤ 240 → s.cxl = [] →
              (¬ named pkg asid ctx → ∃ t, exec (.dataFlitReceive l f op) s = .next t ∧ t.mem = s.mem ∧ t.replies = s.replies ++ [(l, ctx, .wrote 0)]) ∧
              (∀ pa : Nat → Nat, named pkg asid ctx → (∀ i < bytes.length, reached true ctx va pa i) →
                ∃ t, exec (.dataFlitReceive l f op) s = .next t ∧ t.replies = s.replies ++ [(l, ctx, .wrote bytes.length)] ∧
                  (∀ a, t.mem.read a = laid s.mem.read ((List.range bytes.length).map fun i => (pa i, (bytes.getD i (0, false)).1)) a) ∧
                  ∀ i < bytes.length, (bytes.getD i (0, false)).2 = true → pa i / 32 * 32 ∈ t.mempoi)) ∧
            (∀ pkg asid ctx va n, op = .read pkg asid ctx va n → len ≤ 240 →
              ∃ t got, exec (.dataFlitReceive l f op) s = .next t ∧ t.mem = s.mem ∧ t.replies = s.replies ++ [(l, ctx, .read got)] ∧ got.length = n ∧
                (¬ named pkg asid ctx → ∀ i < n, got[i]? = some none) ∧
                ∀ pa : Nat → Nat, named pkg asid ctx → ∀ i < n, reached false ctx va pa i → got[i]? = some (some (s.mem.read (pa i), poisonedAt s (pa i))))))) ∧
      (k.replay ≠ [] → exec (.ackTimeoutResend l) s = .next (now { k with resend := k.replay })) ∧
      let header := (0x5AC3A5 : BitVec 24) ++ k.laneok
      let e := k.expect - 1
      let shape := fun f : Flit => (f.bits.extractLsb' 64 8, f.bits.extractLsb' 0 16, f.bits.extractLsb' 16 16, f.bits.extractLsb' 2016 32)
      let flits := fun (heads : List (BitVec 8 × BitVec 16)) (fs : List Flit) => fs.map shape = (heads.zip fs).map fun p => (p.1.1, p.1.2, e, crc32 2016 p.2.bits)
      (∀ q, k.nakDue = false → k.resend = q → 5 ≤ q.length → ∃ t, exec (.carrBlockTransmit l) s = .next t ∧
        linkOf t l = { k with resend := q.drop 5, block := some (header, (q.take 5).map fun d => mkFlit 1 d.seq e d.len d.payload) }) ∧
      (k.nakDue = false → k.resend = [] → (4096 ≤ k.replay.length ∨ (carries s l = false ∧ ∀ p ∈ s.replies, p.1 ≠ l)) →
        ∃ t fs, exec (.carrBlockTransmit l) s = .next t ∧ t = { s with links := t.links, free := t.free } ∧
          linkOf t l = { k with block := some (header, fs) } ∧ flits (List.replicate 5 (0, k.next)) fs) ∧
      (∀ ctx a rest, k.nakDue = true → k.resend = [] → k.replay.length < 4096 → carries s l = false → s.replies = (l, ctx, .wrote a) :: rest →
        (∀ p ∈ rest, p.1 ≠ l) → let r := k.next; ∃ t d fs, exec (.carrBlockTransmit l) s = .next t ∧ t.replies = rest ∧
          d.seq = r ∧ d.ctx = ctx ∧ d.len.toNat ≤ 240 ∧
          linkOf t l = { k with next := r + 1, replay := k.replay ++ [d], nakDue := false, block := some (header, fs) } ∧
          flits [(2, r), (1, r), (0, r + 1), (0, r + 1), (0, r + 1)] fs))

/-! ### The device in a fleet -/

/-- R368, R369, R374 to R377, R380, R381: what a port that does not answer, an AtomicOp of the host, a Redfish request, an acknowledged channel, a fenced core,
a draining channel, a missed heartbeat and a throttle do; a thermal trip, a failed die-to-die link or boot core, and the loss of every die make
the device FAILED, and end its resident units wherever their memory is reachable. A change of HEALTH raises vector 2 and is reported. -/
def Obligations.FleetResults : Prop :=
  ∀ (s : State),
    let noted := fun s' : State => if healthWord s = healthWord s' then s'
      else { s' with msix := (0, 2) :: s'.msix, out := .health (healthWord s') :: s'.out }
    let worse := if s.health = .ok then Health.degraded else s.health
    let replace := s.replaceF || s.health != .failed
    let fails := fun (i : Instr) (reach : Prop) => s.health ≠ .failed → KeysOnce s.units → ∃ t m o w, exec i s = .next t ∧ t.health = .failed ∧
      t.msix = (0, 2) :: m ∧ t.out = .health w :: o ∧ w.toNat % 4 = 2 ∧ (reach → ∀ u un, s.units.find? u = some un →
        un.status = .resident ∨ un.status = .saving → (unitOf t u).failed = true ∧ ((unitOf t u).status = .ending ∨ (unitOf t u).status = .done))
    let sends := fun m : Msg => { s with out := m :: s.out }
    (∀ die, die < 8 → exec (.cxlCompletionTimeout die) s = .next { s with cxl := s.cxl.set die { s.cxl.get die {} with dead := true } }) ∧
    (∀ a, answersHost s = true → exec (.pcieAtomicopReceived a) s = .next (sends (.unsupportedRequest a))) ∧
    exec (.redfishRequest .inventory) s = .next (sends .inventory) ∧
    exec (.redfishRequest .health) s = .next (sends (.health (healthWord s))) ∧
    (∀ w, 1500 ≤ w → w ≤ 3000 → exec (.redfishRequest (.powerLimit w)) s = .next { sends .accepted with cap := w }) ∧
    (∀ w, w < 1500 ∨ 3000 < w → exec (.redfishRequest (.powerLimit w)) s = .next (sends .refused)) ∧
    (∀ img, exec (.redfishRequest (.firmwareUpdate img)) s = .next { sends .accepted with updates := img :: s.updates }) ∧
    (∀ name, exec (.redfishRequest (.bootNamespace name)) s = .next { sends .accepted with flashNs := name }) ∧
    (∀ l, 12 ≤ l → (∀ on, exec (.redfishRequest (.linkEnable l on)) s = .next (sends .refused)) ∧ exec (.redfishRequest (.linkRetrain l)) s = .next (sends .refused)) ∧
    (∀ l, l < 12 → answersHost s = true →
      (∀ on, ∃ t, exec (.carrctlEn l on) s = .next t ∧ exec (.redfishRequest (.linkEnable l on)) s = .next { t with out := .accepted :: t.out }) ∧
      ∃ t, exec (.carrctlRetrain l) s = .next t ∧ exec (.redfishRequest (.linkRetrain l)) s = .next { t with out := .accepted :: t.out }) ∧
    (∀ v, answersHost s = true →
      (∀ ch, s.drain = some ch → v.toNat % 16 = 1 → exec (.healthcmdAck v) s = .next (noted { s with drain := none, chanoff := s.chanoff.insert ch })) ∧
      (s.drain = none ∨ v.toNat % 16 ≠ 1 → exec (.healthcmdAck v) s = .next s)) ∧
    (∀ core, core < 1536 → core ∉ s.fenced → core ∉ s.fencing → core / 192 ∉ s.diedead → KeysOnce s.units → KeysOnce s.thr →
      ∃ t, exec (.coreFence core) s = .next t ∧ t.fencing = core :: s.fencing ∧
        ∀ u un, s.units.find? u = some un → un.core = core → un.status = .resident → SaveBegun s t u) ∧
    (∀ core, core ∈ s.fenced ∨ core ∈ s.fencing → exec (.coreFence core) s = .next s) ∧
    (∀ ch, ch < 384 → s.drain = none → ch ∉ s.chanoff →
      exec (.channelDrain ch) s = .next (noted { s with drain := some ch, health := worse, replaceF := replace })) ∧
    (∀ ch ch', s.drain = some ch' ∨ ch ∈ s.chanoff → exec (.channelDrain ch) s = .next s) ∧
    (∀ die pair, die < 8 → pair = (if die % 2 = 0 then die + 1 else die - 1) → die ∉ s.dieover → die ∉ s.diedead →
      (pair ∉ s.dieover → exec (.mgmtHeartbeatMiss die) s = .next (noted { s with dieover := die :: s.dieover, health := worse, replaceF := replace })) ∧
      (pair ∈ s.dieover →
        let s' := { s with dieover := s.dieover.filter (· != pair), diedead := die :: pair :: s.diedead, health := worse, replaceF := replace }
        (coresOff s' ≠ 1536 → exec (.mgmtHeartbeatMiss die) s = .next (noted s')) ∧
        (coresOff s' = 1536 → s.health ≠ .failed → ∃ t, exec (.mgmtHeartbeatMiss die) s = .next t ∧ t.health = .failed))) ∧
    fails .thermalTrip True ∧ (∃ t, exec .thermalTrip s = .next t ∧ t.off = true) ∧
    fails .dieToDieLinkFailure False ∧ fails .bootSecurityCoreFailure True ∧
    exec .powerThrottle s = .next { s with mhz := max 1200 (s.mhz - 100) }

/-! ### Registers, modules, boot -/

/-- R6, R308, R321, R329, R330, R343, R344, R363, R364, R378: a write of a register takes the fields that are not reserved, and is without effect at an
offset that is not listed, on a read-only field, and, for a context's bases, while the context is enabled and not saved; a register with an effect of
its own has that effect; and each register reads as the field that it shows. -/
def Obligations.RegisterResults : Prop :=
  ∀ (s : State) (v : DWord) (c : Nat), answersHost s = true → c < 8192 →
    let x := ctxOf s c
    let w := fun (a : RegAddr) => exec (.registerWrite a v) s
    let pf := fun off : Nat => RegAddr.pf (0x100000 + 128 * c + off)
    let set := fun f : Ctx → Ctx => Host.Outcome.next (modCtx c f s)
    let page : DWord := 0x000FFFFFFFFFF000
    (x.ptroot.getLsbD 0 = false ∨ x.state = .saved →
      w (pf 0x00) = set (fun y => { y with ptroot := v &&& 0x000FFFFFFFFF0001 }) ∧ w (pf 0x08) = set (fun y => { y with savebase := v &&& page }) ∧
      w (pf 0x10) = set (fun y => { y with savesize := v }) ∧ w (pf 0x58) = set (fun y => { y with growbase := v &&& 0x000FFFFFFFE00000 }) ∧
      w (pf 0x60) = set (fun y => { y with growsize := v })) ∧
    (x.ptroot.getLsbD 0 = true → x.state ≠ .saved → ∀ off ∈ [0x00, 0x08, 0x10, 0x58, 0x60], w (pf off) = .next s) ∧
    (w (pf 0x28) = set (fun y => { y with invaddr := v &&& 0x000FFFFFFFFFF001 }) ∧ w (pf 0x30) = set (fun y => { y with invsize := v }) ∧
      w (pf 0x38) = set (fun y => { y with poolbase := v &&& page }) ∧ w (pf 0x40) = set (fun y => { y with poolcfg := v &&& 0xF }) ∧
      w (pf 0x50) = set (fun y => { y with pooltail := v.setWidth 32 })) ∧
    (∀ off ∈ [0x20, 0x48, 0x68, 0x70, 0x78], w (pf off) = .next s) ∧
    ((v.toNat % 16 = 1 → w (pf 0x18) = exec (.ctxcmdPreempt c) s) ∧ (v.toNat % 16 = 2 → w (pf 0x18) = exec (.ctxcmdResume c) s) ∧
      (v.toNat % 16 = 3 → w (pf 0x18) = exec (.ctxcmdInval c) s)) ∧
    (∀ e, e < 16 →
      let lower := fun q : QWord => q.extractLsb' 64 64 ++ (v &&& ~~~(0x1C : DWord))
      let upper := fun q : QWord => v ++ q.extractLsb' 0 64
      w (.pf (0x200000 + 256 * c + 16 * e)) = set (fun y => { y with route := y.route.set e (lower (y.route.get e 0)) }) ∧
      w (.pf (0x200000 + 256 * c + 16 * e + 8)) = set (fun y => { y with route := y.route.set e (upper (y.route.get e 0)) })) ∧
    (w (.doorbell c 0x000) = exec (.trigger c v) s ∧ w (.doorbell c 0x010) = exec (.gload c v) s ∧
      w (.doorbell c 0x008) = set (fun y => { y with trigstat := y.trigstat &&& ~~~(v &&& 0xF) }) ∧
      w (.doorbell c 0x020) = set (fun y => { y with cancelunit := v &&& 0x0000FFFFFFFFFFFF }) ∧
      w (.doorbell c 0x038) = set (fun y => { y with gdiesel := v &&& 7 }) ∧
      (v.toNat / 2 ^ 61 = 0 → w (.doorbell c 0x028) = exec (.cancelUnit c v) s) ∧ (v.toNat / 2 ^ 61 = 1 → w (.doorbell c 0x028) = exec (.cancelLaunch c v) s) ∧
      (v.toNat / 2 ^ 61 = 2 → w (.doorbell c 0x028) = exec (.cancelGraph c v) s) ∧ (v.toNat / 2 ^ 61 = 3 → w (.doorbell c 0x028) = exec (.cancelPhase c v) s) ∧
      (v.toNat / 2 ^ 61 = 4 → w (.doorbell c 0x028) = exec (.cancelJob c v) s) ∧ (5 ≤ v.toNat / 2 ^ 61 → w (.doorbell c 0x028) = .next s) ∧
      ∀ off, off ∉ [0x000, 0x008, 0x010, 0x020, 0x028, 0x038] → w (.doorbell c off) = .next s) ∧
    (w (.faultPage c 0x000) = set (fun y => { y with fqbase := v &&& 0xFFFFFFFFFFFFF000 }) ∧ w (.faultPage c 0x018) = exec (.fqtailWrite c v) s ∧
      ((∀ r ∈ s.frecs, r.ctx = c → r.written = true) → w (.faultPage c 0x008) = set (fun y => { y with fqcfg := v &&& 0x11F })) ∧
      w (.faultPage c 0x020) = (if v.getLsbD 0 then set (fun y => { y with fqheld := false }) else .next s) ∧
      (v.toNat / 2 ^ 60 = 1 → w (.faultPage c 0x028) = exec (.fcmdReplay c v) s) ∧ (v.toNat / 2 ^ 60 = 2 → w (.faultPage c 0x028) = exec (.fcmdCancel c v) s) ∧
      (v.toNat / 2 ^ 60 ≠ 1 → v.toNat / 2 ^ 60 ≠ 2 → w (.faultPage c 0x028) = exec (.fcmdInvalid c v) s) ∧
      w (.faultPage c 0x030) = (if v.getLsbD 32 then set (fun y => { y with fcmdbad := false }) else .next s)) ∧
    (∀ l, l < 12 →
      (v.toNat % 4 = (if (linkOf s l).en then 1 else 0) → w (.pf (0x80000 + 64 * l)) = .next s) ∧
      (v.toNat % 4 = 1 → (linkOf s l).en = false → w (.pf (0x80000 + 64 * l)) = exec (.carrctlEn l true) s) ∧
      (v.toNat % 4 = 0 → (linkOf s l).en = true → w (.pf (0x80000 + 64 * l)) = exec (.carrctlEn l false) s) ∧
      (v.toNat % 4 = 3 → (linkOf s l).en = true → w (.pf (0x80000 + 64 * l)) = exec (.carrctlRetrain l) s)) ∧
    (w (.pf 0x80300) = .next { s with pkgid := v.setWidth 16 } ∧ w (.pf 0x7F008) = exec (.healthcmdAck v) s) ∧
    (∀ d k, d < 8 → k < 4 → w (.quota d k) = .next { s with quota := s.quota.set (d, k) (v.setWidth 8) }) ∧
    (∀ off, off % 8 ≠ 0 ∨ (0x80308 ≤ off ∧ off < 0x100000) ∨ 0x441000 ≤ off → w (.pf off) = .next s) ∧
    (∀ core k, core < 1536 → k < 8 → ∃ t u, w (.pf (0x400000 + 128 * core + 16 * k)) = .next t ∧ w (.pf (0x400000 + 128 * core + 16 * k + 8)) = .next u ∧
      readReg t (.pf (0x400000 + 128 * core + 16 * k)) = v &&& 0x3FFF7FFF ∧ (readReg u (.pf (0x400000 + 128 * core + 16 * k + 8))).setWidth 48 = v.setWidth 48 ∧
      (readReg u (.pf (0x400000 + 128 * core + 16 * k + 8))).getLsbD 48 =
        ((readReg s (.pf (0x400000 + 128 * core + 16 * k + 8))).getLsbD 48 && ! v.getLsbD 48)) ∧
    (∀ die k, die < 8 → k < 32 → ∃ t, w (.pf (0x440000 + 512 * die + 16 * k)) = .next t ∧
      readReg t (.pf (0x440000 + 512 * die + 16 * k)) = v &&& 0x3FFF03FF) ∧
    readReg s (pf 0x00) = x.ptroot ∧ readReg s (pf 0x48) = x.poolhead.setWidth 64 ∧ readReg s (pf 0x18) = 0 ∧ readReg s (.doorbell c 0x008) = x.trigstat ∧
    readReg s (.faultPage c 0x010) = x.fqhead.setWidth 64 ∧ readReg s (.doorbell c 0x000) = 0 ∧ readReg s (.pf 0x7F000) = healthWord s

/-- R301, R302, R370 to R373: a module whose ELF header is wrong is rejected with reason 9 at offset 0, and one that passes every check has its words
and data written into the context and its directory kept, with its tag; an entry of the cache is used only with its tag, of the running translator's
version. A boot verifies each image before it runs, applies the signed fuse commands, records its measurement, and stops, FAILED, at the first that is
not accepted; measurements, signed where a nonce comes with the request, certificate, algorithms and challenges are answered. -/
def Obligations.ModuleAndBootResults : Prop :=
  (∀ (s : State) (ctx : Nat) (m : ModuleFile), answersHost s = true →
    (m.machine ≠ 0xA15E ∨ m.etype ≠ 3 ∨ m.eflags ≠ 1 ∨ m.cls64 = false ∨ m.lsb = false →
      exec (.moduleLoad ctx m) s = .next { s with out := .moduleLoad 9 0 :: s.out }) ∧
    (∀ off code, loadFails s ctx (sha384 m.file) m = some (off, code) →
      exec (.moduleLoad ctx m) s = .next { s with out := .moduleLoad code off :: s.out }) ∧
    (loadFails s ctx (sha384 m.file) m = none → cacheHit s (sha384 m.file) = none → m.relocs = [] → s.cxl = [] → m.data = [] →
      ∃ t, exec (.moduleLoad ctx m) s = .next t ∧ t.out = .moduleLoad 0 0 :: s.out ∧
        (∃ e ∈ t.cache, (e.image.drop 16).take 48 = sha384 m.file ∧ e.tag = hmac384 Config.cacheKey e.image ∧
          leNat ((e.image.drop 6).take 2) = Config.xver.toNat) ∧
        (∃ x, t.modules = s.modules ++ [x] ∧ x.ctx = ctx ∧ x.code = m.codeBase ∧ x.data = m.dataBase ∧ x.nwords = m.code.length ∧
          x.toks = mergesOf (cuts m.code) ∧ x.dir.map (fun d => (d.1, d.2.1)) = headsOf (cuts m.code)) ∧
        ∀ pa : Nat → Nat, (∀ i < 8 * m.code.length, sysAddr s ctx (m.codeBase + i) = some (pa i)) →
          (∀ i < 8 * m.code.length, ∀ j < 8 * m.code.length, pa i = pa j → i = j) →
          ∀ i wd, m.code[i]? = some wd → ∀ b < 8, t.mem.read (pa (8 * i + b)) = wd.extractLsb' (8 * b) 8)) ∧
  (∀ (s : State) (digest : List Byte) (e : CacheEntry), cacheHit s digest = some e → e ∈ s.cache ∧ (e.image.drop 16).take 48 = digest ∧
    e.tag = hmac384 Config.cacheKey e.image ∧ leNat ((e.image.drop 6).take 2) = Config.xver.toNat) ∧
  (∀ (s : State) (kind : Nat) (i : Image), imageOk s kind i = true ↔
    let h := fun lo n : Nat => (i.header.drop lo).take n
    let slot := leNat (h 6 1)
    i.header.length = 512 ∧ leNat (h 0 4) = 0x4D495A55 ∧ leNat (h 4 2) = 1 ∧ leNat (h 7 1) = kind ∧ leNat (h 12 4) = 0 ∧ leNat (h 24 8) = 0 ∧
      leNat (h 272 240) = 0 ∧ slot ≤ 2 ∧ sha384 (h 32 96) = Config.slotHash slot ∧ Config.slotRevoked slot = false ∧ slot ∉ s.revoked ∧
      Config.minSvn kind ≤ leNat (h 8 4) ∧ s.svn.get kind 0 ≤ leNat (h 8 4) ∧
      leNat (h 16 8) = i.body.length ∧ sha384 i.body = h 128 48 ∧
      ecdsaOk (leNat (h 32 48)) (leNat (h 80 48)) (leNat (h 176 48)) (leNat (h 224 48)) (sha384 (h 0 176)) = true) ∧
  (∀ (s : State) (imgs : BootImages) (bad : List Nat),
    let measures := fun i : Image => some (sha384 (i.header ++ i.body))
    let a := imageOk s 1 imgs.copyA
    let b := imageOk s 1 imgs.copyB
    let fused := imgs.fuses.foldl blowFuse s
    let off := (List.range 1536).filter fun c => bad.contains c
    ∃ t, exec (.boot imgs bad) s = .next t ∧ t.units = [] ∧ t.mem = {} ∧ (∀ n ∈ s.revoked, n ∈ t.revoked) ∧ (∀ k, s.svn.get k 0 ≤ t.svn.get k 0) ∧
      let stops := fun n : Nat => t.health = .failed ∧ t.booted = false ∧ ∃ o, t.out = .bootFailed n :: o
      if ! a && ! b then stops 1
      else t.revoked = fused.revoked ∧ t.svn = fused.svn ∧ match imgs.store.find? fun p => p.1 == s.flashNs with
        | none => stops 2
        | some (_, firmware, translator) =>
          if ! imageOk fused 2 firmware then stops 2
          else if ! imageOk fused 3 translator then stops 3
          else t.booted = true ∧ t.health = (if off.length = 1536 then .failed else if off.isEmpty then .ok else .degraded) ∧
            (∀ c, c ∈ t.fenced ↔ c ∈ off) ∧
            t.measure.find? 1 = some Config.romDigest ∧ t.measure.find? 2 = measures (if a then imgs.copyA else imgs.copyB) ∧
            t.measure.find? 3 = measures firmware ∧ t.measure.find? 4 = measures translator ∧
            t.measure.find? 5 = some (Config.fuseMeasurement fused.revoked fused.svn) ∧
            (Config.debugUnlock = false → t.measure.find? 6 = some (List.replicate 48 0))) ∧
  ∀ (s : State) (i : Nat) (nonce : List Byte),
    let sign := fun m : List Byte => ecdsaSign Config.identityKey (Config.signNonce s.free) (sha384 m)
    (∀ d, s.measure.find? i = some d → exec (.getMeasurements ⟨i, none⟩) s = .next { s with out := .measurement i d none :: s.out } ∧
      exec (.getMeasurements ⟨i, some nonce⟩) s =
        .next { s with out := .measurement i d (some (sign (Config.measureTranscript i d nonce))) :: s.out, free := s.free + 1 }) ∧
    (s.measure.find? i = none → ∀ n, exec (.getMeasurements ⟨i, n⟩) s = .next { s with out := .noMeasurement i :: s.out }) ∧
    exec .getCertificate s = .next { s with out := .certificate Config.certChain :: s.out } ∧
    exec .negotiateAlgorithms s = .next { s with out := .algorithms :: s.out } ∧
    let c := sign (Config.transcript nonce)
    exec (.challenge nonce) s = .next { s with out := .challenge c.1 c.2 :: s.out, free := s.free + 1 }

/-! ### The machine as a whole -/

/-- R110 to R134: the word of a well-formed instruction decodes to it, and a word that decodes is the word of the well-formed instruction that it
decodes to: no bit of an encoding is dropped, and no word but its own passes for an instruction. -/
def Obligations.EncodeDecode : Prop :=
  (∀ (i : Instr) (w : DWord), i.wf = true → encode i = some w → decodeWord w = .ok i) ∧
  ∀ (w : DWord) (i : Instr), decodeWord w = .ok i → i.wf = true ∧ encode i = some w

/-- R110 to R129: words that the manual works out decode to the instructions that they stand for, and those that it calls ill-formed are refused with
the class that it names: an unassigned opcode, the G bit of an opcode without uniform form, reserved values of COND, k and OP, an odd pair. -/
def Obligations.DecodedWords : Prop :=
  decodeWord 0x0106200000000000 = .ok (.trace 3 1) ∧
  decodeWord 0x06000080FFFFFFF9 = .ok (.tend 1 0xFFFFFFF9) ∧
  decodeWord 0x041210121200000A = .ok (.guard true 2 (.echo 0)) ∧
  decodeWord 0x0200121212000208 = .ok (.stg 0 8 2) ∧
  decodeWord 0x0012121212000000 = .ok .nop ∧
  decodeWord 0x0F12124000000077 = .ok (.trap 0x77) ∧
  decodeWord 0x2000001892000000 = .ok (.iadd false false (.slot 0) (.slot 0) (.const 1)) ∧
  decodeWord 0x24000040FFFFFFC0 = .ok (.iadd64I false (.slot 0) (.slot 0) 0xFFFFFFC0) ∧
  decodeWord 0x2901800081000200 = .ok (.imad false true (.slot 3) (.slot 0) (.slot 1) (.slot 2)) ∧
  decodeWord 0x36120121120000C0 = .ok (.icmp false .ltu false .zero (.slot 2) (.gang 2)) ∧
  decodeWord 0x49010002120C0000 = .ok (.lea false 3 false (.slot 2) (.slot 0) (.slot 4)) ∧
  decodeWord 0x600100413F800000 = .ok (.faddI false .rz false (.slot 2) (.slot 0) 0x3F800000) ∧
  decodeWord 0x8302000103000000 = .ok (.dfma .rn false (.slot 4) (.slot 0) (.slot 2) (.slot 6)) ∧
  decodeWord 0x9100801212080001 = .ok (.cvtfi false false .w16 .f32 .rz false (.slot 1) (.slot 0)) ∧
  decodeWord 0x9902800092000C00 = .ok (.scan .add true true (.slot 5) (.slot 0) (.slot 1)) ∧
  decodeWord 0xA000801228000000 = .ok (.ld .sc .b4 .none 0 (.slot 1) (.slot 0)) ∧
  decodeWord 0xA512000112080000 = .ok (.red false .gl .b4 .add .none (.slot 0) (.slot 2)) ∧
  decodeWord 0xA91881120C000000 = .ok (.relst false .gl .none 0 (.const 1) (.slot 2)) ∧
  decodeWord 0xB1010001920003F0 = .ok (.cpy 0 false 31 .sc .gl .none (.slot 2) (.slot 0) (.slot 3)) ∧
  decodeWord 0xC312020302106000 = .ok (.mma false false .zero (.slot 4) (.slot 6) 1 2 3) ∧
  decodeWord 0xD02A01830000000C = .ok (.recruit (.gang 20) 0 3 3 12) ∧
  decodeWord 0xD902921212000002 = .ok (.barl (.slot 5) 2 .zero) ∧
  decodeWord 0 = .error .illop ∧
  decodeWord 0x7300000000000000 = .error .illop ∧
  decodeWord 0x7080000000000000 = .error .illop ∧
  decodeWord 0x3612012112000140 = .error .illop ∧
  decodeWord 0xA5120001120AA000 = .error .illop ∧
  decodeWord 0x4901000212180000 = .error .illop ∧
  decodeWord 0x49010082120C0000 = .error .illopnd

/-- Every memory in its canonical form stays so: a step of any kind leaves no cell out of order and none that holds what an unlisted address reads
as (the model's own form; log 2). -/
def Obligations.StepKeepsMemories : Prop :=
  ∀ s t : State, memoriesOk s = true → step s = .next t → memoriesOk t = true

/-- R161, R308, R329, R330, R343, R363, R375, R378: right after reset HEALTH.STATE is 11, every quota register is 16 and every other register that the
host may read is 0; the device runs no unit, holds no context's work, has no trace loaded, and counts no clock. That memory reads as 0 is the
model's choice (log 2). -/
def Obligations.ResetState : Prop :=
  let s := State.reset
  (∀ a, readReg s a = match a with
    | .pf off => if off = 0x7F000 then 3 else 0
    | .quota _ _ => 16
    | _ => 0) ∧
  s.units = [] ∧ s.thr = [] ∧ s.copies = [] ∧ s.mats = [] ∧ s.graphs = [] ∧ s.launches = [] ∧ s.modules = [] ∧ s.frecs = [] ∧ s.clock = 0 ∧
  s.off = false ∧ s.agenda = [] ∧ memoriesOk s = true ∧ ∀ a, s.mem.read a = 0

/-- R11, R47, R126, R129, R380: a step runs what stands at the head of the agenda. An event of the device is executed; a turn of a thread that can issue
executes the instruction that the word at its place decodes to, or, at a head of a trace directory, the head that is fetched there where it may
stand there: a TRACE, a MERGE but after a MERGE or REGANG, a REGANG but after a REGANG; then the issue is closed, and what follows a step by itself follows. A thread that cannot issue lets the turn pass, and a device that is powered off makes no
step. -/
def Obligations.StepRunsDecodedInstruction : Prop :=
  ∀ s : State,
    (s.off = true → step s = .fault .poweredOff) ∧
    (∀ i rest, s.off = false → s.agenda = .event i :: rest → step s = mapNext aftermath (exec i { s with cur := none, agenda := rest })) ∧
    ∀ x rest, s.off = false → s.agenda = .issue x :: rest →
      let s0 := { s with cur := none, agenda := rest }
      let iss := issueOf s0 x
      let ready := countIssue iss { s0 with cur := some iss }
      let after := fun o => mapNext aftermath (mapNext (closeIssue iss) o)
      (canIssue s0 x = false → step s = .next (aftermath s0)) ∧
      (canIssue s0 x = true → ∀ k i, (headThread s0 iss).pos = .body k → decodeWord ((headThread s0 iss).words.getD k 0) = .ok i →
        i.wf = true ∧ step s = after (exec i (newAccess ready))) ∧
      (canIssue s0 x = true → TlbsAgree s → ∀ a w i, (headThread s0 iss).pos = .head a → inDirectory s (unitOf s iss.u).ctx a = true →
        CodeWord s iss.u a w → decodeWord w = .ok i →
        (∃ st gd, i = .trace st gd) ∨ (∃ k, i = .merge k ∧ (headThread s0 iss).need = 0) ∨ (i = .regang ∧ (headThread s0 iss).need ≤ 1) →
        i.wf = true ∧ ∃ s1, Looks ready s1 ∧
          step s = after (exec i (newAccess (modThreads iss (fun th => { th with parkedWith := [] }) s1))))

/-- R78, R79, R81, R96: in every execution that the ordering model allows, a write of a byte bound to an object, followed in its lane and on its path by
a release of the object that an acquire of the same object synchronises with, is visible to what follows the acquire in its lane and on its path: no
read of the byte there takes an older value. Of message passing through a bound region, the outcome with the new flag and the old datum is
forbidden and the other three are allowed. -/
def Obligations.MessagePassing : Prop :=
  (∀ (x : OExec) (b w r q d : Nat), x.allowed = true → (x.ev w).writes.contains b = true → (x.ev d).reads.contains b = true → w ≠ d →
    x.ppo w r = true → x.swO (x.objOf w b) r q = true → x.ppo q d = true → (w, d) ∉ x.apart → x.olderThan b d w = false) ∧
  let mp := fun (flag datum : Bool) =>
    let o : OObj := .word 8
    ({ events := [{ lane := 0, pos := 0, writes := [0] }, { lane := 0, pos := 1, writes := [8], rel := some o },
                  { lane := 1, pos := 0, reads := [8], acq := some o }, { lane := 1, pos := 1, reads := [0] }],
       co := [(0, [0]), (8, [1])],
       rf := (if flag then [((2, 8), 1)] else []) ++ (if datum then [((3, 0), 0)] else []),
       table := [⟨0, 1, 8⟩] } : OExec)
  (mp true false).allowed = false ∧ (mp true true).allowed = true ∧ (mp false false).allowed = true ∧ (mp false true).allowed = true
end

