-- ==== Sys2Proof/Laws/Store.lean ====
section
/-! SUPPORT. Maps: what a key has after a change. Memory: a read after a write, and the canonical form, which every write keeps. -/

namespace Sys2Proof.Machine

namespace Map
variable {κ α : Type} [DecidableEq κ]

@[simp] theorem find?_nil (k : κ) : find? ([] : Map κ α) k = none := rfl

theorem find?_cons (k' k : κ) (v : α) (m : Map κ α) : find? ((k', v) :: m) k = if k' = k then some v else find? m k := rfl

theorem find?_filter (p : κ × α → Bool) (m : Map κ α) (k : κ) (h : ∀ v, p (k, v) = true) : find? (m.filter p) k = find? m k := by
  induction m with
  | nil => rfl
  | cons x xs ih =>
    obtain ⟨a, b⟩ := x
    by_cases hk : a = k
    · subst hk; simp [h b, find?_cons]
    · by_cases hp : p (a, b) = true <;> simp [hp, find?_cons, hk, ih]

theorem find?_erase_self (m : Map κ α) (k : κ) : find? (erase m k) k = none := by
  unfold erase
  induction m with
  | nil => rfl
  | cons x xs ih =>
    by_cases hk : x.1 = k <;> simp [hk, find?, ih]

theorem find?_erase_ne (m : Map κ α) {k k' : κ} (h : k' ≠ k) : find? (erase m k) k' = find? m k' :=
  find?_filter _ m k' (by simp [h])

@[simp] theorem find?_set_self (m : Map κ α) (k : κ) (v : α) : find? (set m k v) k = some v := by simp [set, find?_cons]

theorem find?_set_ne (m : Map κ α) {k k' : κ} (v : α) (h : k' ≠ k) : find? (set m k v) k' = find? m k' := by
  simp [set, find?_cons, Ne.symm h, find?_erase_ne m h]

@[simp] theorem get_set_self (m : Map κ α) (k : κ) (v d : α) : get (set m k v) k d = v := by simp [get]

theorem get_set_ne (m : Map κ α) {k k' : κ} (v d : α) (h : k' ≠ k) : get (set m k v) k' d = get m k' d := by
  simp [get, find?_set_ne m v h]

theorem get_set (m : Map κ α) (k k' : κ) (v d : α) : get (set m k v) k' d = if k' = k then v else get m k' d := by
  by_cases h : k' = k
  · subst h; simp
  · simp [h, get_set_ne m v d h]

@[simp] theorem get_modify_self (m : Map κ α) (k : κ) (d : α) (f : α → α) : get (modify m k d f) k d = f (get m k d) := by
  simp [modify]

theorem get_modify_ne (m : Map κ α) {k k' : κ} (d : α) (f : α → α) (h : k' ≠ k) : get (modify m k d f) k' d = get m k' d := by
  simp [modify, get_set_ne m _ d h]

/-- What a map gives for a key is an entry of it. -/
theorem mem_of_find? {m : Map κ α} {k : κ} {v : α} (h : find? m k = some v) : (k, v) ∈ m := by
  induction m with
  | nil => cases h
  | cons x xs ih =>
    obtain ⟨a, b⟩ := x
    rw [find?_cons] at h
    split at h
    · obtain rfl := Option.some.inj h; rename_i e; subst e; exact List.mem_cons_self ..
    · exact List.mem_cons_of_mem _ (ih h)

/-- An entry after a change is the changed one or one of before. -/
theorem mem_set {m : Map κ α} {k : κ} {v : α} {x : κ × α} (h : x ∈ set m k v) : x = (k, v) ∨ x ∈ m := by
  rcases List.mem_cons.mp h with rfl | h
  · exact .inl rfl
  · exact .inr (List.mem_filter.mp h).1

end Map

namespace Memory

theorem readCells_insert (c : Host.Cell) (cs : List Host.Cell) (a : Nat) (h : ∀ x ∈ cs, x.1 ≠ c.1) :
    readCells (insertCell c cs) a = if c.1 = a then c.2 else readCells cs a := by
  induction cs with
  | nil => obtain ⟨p, q⟩ := c; simp [insertCell, readCells]
  | cons d ds ih =>
    obtain ⟨p, q⟩ := c; obtain ⟨r, t⟩ := d
    have hr : r ≠ p := h (r, t) (by simp)
    have ih' := ih fun x hx => h x (by simp [hx])
    by_cases hl : r < p
    · simp only [insertCell, hl, if_true, readCells, ih']
      by_cases ha : r = a
      · subst ha; simp [Ne.symm hr]
      · simp [ha]
    · simp only [insertCell, hl, if_false, readCells]

theorem readCells_filter (cs : List Host.Cell) (a b : Nat) :
    readCells (cs.filter fun c => ! decide (c.1 = a)) b = if b = a then 0 else readCells cs b := by
  induction cs with
  | nil => simp [readCells]
  | cons d ds ih =>
    obtain ⟨r, t⟩ := d
    by_cases hr : r = a
    · subst hr
      by_cases hb : b = r
      · subst hb; simp [ih]
      · simp [ih, hb, readCells, Ne.symm hb]
    · by_cases hb : b = a
      · subst hb; simp [hr, readCells, ih]
      · simp [hr, readCells, ih, hb]

/-- A byte reads as it was last written. -/
theorem read_write (m : Memory) (a b : Nat) (v : Byte) : (m.write a v).read b = if b = a then v else m.read b := by
  unfold write read
  by_cases hv : v = 0
  · subst hv; simp [readCells_filter]
  · simp only [hv, if_false]
    rw [readCells_insert _ _ _ (by simp [List.mem_filter]), readCells_filter]
    by_cases h : b = a
    · subst h; simp
    · simp [h, Ne.symm h]

@[simp] theorem read_write_self (m : Memory) (a : Nat) (v : Byte) : (m.write a v).read a = v := by simp [read_write]

theorem read_write_ne (m : Memory) {a b : Nat} (v : Byte) (h : b ≠ a) : (m.write a v).read b = m.read b := by simp [read_write, h]

/-- The canonical form as a property of all pairs of cells. -/
theorem sortedCells_iff (cs : List Host.Cell) :
    sortedCells cs = true ↔ cs.Pairwise (fun a b => a.1 < b.1) ∧ ∀ c ∈ cs, c.2 ≠ 0 := by
  induction cs with
  | nil => simp [sortedCells]
  | cons c cs ih =>
    cases cs with
    | nil => simp [sortedCells]
    | cons d ds =>
      simp only [sortedCells, Bool.and_eq_true, bne_iff_ne, ne_eq, decide_eq_true_eq, ih, List.pairwise_cons,
        List.mem_cons, forall_eq_or_imp]
      constructor
      · rintro ⟨⟨h1, h2⟩, ⟨h3, h4⟩, h5, h6⟩
        exact ⟨⟨⟨h2, fun x hx => Nat.lt_trans h2 (h3 x hx)⟩, h3, h4⟩, h1, h5, h6⟩
      · rintro ⟨⟨⟨h2, -⟩, h3, h4⟩, h1, h5, h6⟩
        exact ⟨⟨h1, h2⟩, ⟨h3, h4⟩, h5, h6⟩

theorem pairwise_insert (c : Host.Cell) (cs : List Host.Cell) (hs : cs.Pairwise fun a b => a.1 < b.1) (hn : ∀ x ∈ cs, x.1 ≠ c.1) :
    (insertCell c cs).Pairwise (fun a b => a.1 < b.1) ∧ ∀ x, x ∈ insertCell c cs ↔ x = c ∨ x ∈ cs := by
  induction cs with
  | nil => simp [insertCell]
  | cons d ds ih =>
    obtain ⟨h1, h2⟩ := List.pairwise_cons.mp hs
    obtain ⟨i1, i2⟩ := ih h2 fun x hx => hn x (by simp [hx])
    have hd := hn d (by simp)
    by_cases hl : d.1 < c.1
    · simp only [insertCell, hl, if_true]
      refine ⟨List.pairwise_cons.mpr ⟨fun x hx => ?_, i1⟩, fun x => by simp only [List.mem_cons, i2]; tauto⟩
      rcases (i2 x).mp hx with rfl | hx
      · exact hl
      · exact h1 x hx
    · simp only [insertCell, hl, if_false]
      have hc : c.1 < d.1 := by omega
      refine ⟨List.pairwise_cons.mpr ⟨fun x hx => ?_, hs⟩, fun x => by simp [List.mem_cons]⟩
      rcases List.mem_cons.mp hx with rfl | hx
      · exact hc
      · exact Nat.lt_trans hc (h1 x hx)

/-- A write keeps the canonical form. -/
theorem wf_write (m : Memory) (a : Nat) (v : Byte) (h : m.wf = true) : (m.write a v).wf = true := by
  unfold wf at *
  rw [sortedCells_iff] at *
  obtain ⟨h1, h2⟩ := h
  have f1 : (m.cells.filter fun c => ! decide (c.1 = a)).Pairwise (fun a b => a.1 < b.1) := h1.filter _
  unfold write
  by_cases hv : v = 0
  · simp only [hv, if_true]
    exact ⟨f1, fun c hc => h2 c (List.mem_filter.mp hc).1⟩
  · simp only [hv, if_false]
    obtain ⟨p1, p2⟩ := pairwise_insert (a, v) _ f1 (by simp [List.mem_filter])
    refine ⟨p1, fun c hc => ?_⟩
    rcases (p2 c).mp hc with rfl | hc
    · exact hv
    · exact h2 c (List.mem_filter.mp hc).1

theorem wf_writeN (m : Memory) (a : Nat) (bs : List Byte) (h : m.wf = true) : (m.writeN a bs).wf = true := by
  induction bs generalizing m a with
  | nil => exact h
  | cons b bs ih => exact ih _ _ (wf_write m a b h)

theorem wf_writeAll (m : Memory) (cs : List Host.Cell) (h : m.wf = true) : (m.writeAll cs).wf = true := by
  induction cs generalizing m with
  | nil => exact h
  | cons c cs ih => exact ih _ (wf_write m c.1 c.2 h)

/-- The byte that a list of cells leaves at an address: that of the last of them at it. -/
theorem read_writeAll (m : Memory) (cs : List Host.Cell) (a : Nat) (h : ∀ c ∈ cs, c.1 ≠ a) : (m.writeAll cs).read a = m.read a := by
  induction cs generalizing m with
  | nil => rfl
  | cons c cs ih =>
    rw [writeAll, ih _ fun d hd => h d (by simp [hd]), read_write_ne _ _ (Ne.symm (h c (by simp)))]

theorem read_writeN_out (m : Memory) (a b : Nat) (bs : List Byte) (h : b < a ∨ a + bs.length ≤ b) : (m.writeN a bs).read b = m.read b := by
  induction bs generalizing m a with
  | nil => rfl
  | cons x xs ih =>
    simp only [List.length_cons] at h
    rw [writeN, ih _ _ (by omega), read_write_ne _ _ (by omega)]

theorem read_writeN_in (m : Memory) (a : Nat) (bs : List Byte) (i : Nat) (h : i < bs.length) :
    (m.writeN a bs).read (a + i) = bs[i] := by
  induction bs generalizing m a i with
  | nil => simp at h
  | cons x xs ih =>
    rw [writeN]
    cases i with
    | zero => rw [read_writeN_out _ _ _ _ (by omega)]; simp
    | succ i =>
      have := ih (m.write a x) (a + 1) i (by simpa using h)
      rw [show a + (i + 1) = a + 1 + i by omega, this]; simp

@[simp] theorem length_readN (m : Memory) (a n : Nat) : (m.readN a n).length = n := by
  induction n generalizing a with
  | zero => rfl
  | succ n ih => simp [readN, ih]

/-- Empty memory is in the canonical form. -/
theorem wf_empty : (({} : Memory).wf) = true := rfl

end Memory

end Sys2Proof.Machine
end

