-- ==== Sys2Proof/Laws/State.lean ====
section
/-! SUPPORT. What each named update of the state leaves in each field: one lemma for a field and an update. -/

namespace Sys2Proof.Machine

/-! ### setVreg -/

@[simp] theorem setVreg_agenda (l : LaneId) (n : Nat) (v : Word) (s : State) : (setVreg l n v s).agenda = s.agenda := rfl
@[simp] theorem setVreg_cur (l : LaneId) (n : Nat) (v : Word) (s : State) : (setVreg l n v s).cur = s.cur := rfl
@[simp] theorem setVreg_pgs (l : LaneId) (n : Nat) (v : Word) (s : State) : (setVreg l n v s).pgs = s.pgs := rfl
@[simp] theorem setVreg_secs (l : LaneId) (n : Nat) (v : Word) (s : State) : (setVreg l n v s).secs = s.secs := rfl
@[simp] theorem setVreg_clock (l : LaneId) (n : Nat) (v : Word) (s : State) : (setVreg l n v s).clock = s.clock := rfl
@[simp] theorem setVreg_free (l : LaneId) (n : Nat) (v : Word) (s : State) : (setVreg l n v s).free = s.free := rfl
@[simp] theorem setVreg_fresh (l : LaneId) (n : Nat) (v : Word) (s : State) : (setVreg l n v s).fresh = s.fresh := rfl
@[simp] theorem setVreg_vreg (l : LaneId) (n : Nat) (v : Word) (s : State) : (setVreg l n v s).vreg = s.vreg.set ⟨l, n⟩ v := rfl
@[simp] theorem setVreg_vpoi (l : LaneId) (n : Nat) (v : Word) (s : State) : (setVreg l n v s).vpoi = s.vpoi.filter (· != ⟨l, n⟩) := rfl
@[simp] theorem setVreg_fib (l : LaneId) (n : Nat) (v : Word) (s : State) : (setVreg l n v s).fib = s.fib := rfl
@[simp] theorem setVreg_mon (l : LaneId) (n : Nat) (v : Word) (s : State) : (setVreg l n v s).mon = s.mon := rfl
@[simp] theorem setVreg_slot (l : LaneId) (n : Nat) (v : Word) (s : State) : (setVreg l n v s).slot = s.slot := rfl
@[simp] theorem setVreg_dirty (l : LaneId) (n : Nat) (v : Word) (s : State) : (setVreg l n v s).dirty = s.dirty := rfl
@[simp] theorem setVreg_echo (l : LaneId) (n : Nat) (v : Word) (s : State) : (setVreg l n v s).echo = s.echo := rfl
@[simp] theorem setVreg_buf (l : LaneId) (n : Nat) (v : Word) (s : State) : (setVreg l n v s).buf = s.buf := rfl
@[simp] theorem setVreg_held (l : LaneId) (n : Nat) (v : Word) (s : State) : (setVreg l n v s).held = s.held := rfl
@[simp] theorem setVreg_shad (l : LaneId) (n : Nat) (v : Word) (s : State) : (setVreg l n v s).shad = s.shad := rfl
@[simp] theorem setVreg_fill (l : LaneId) (n : Nat) (v : Word) (s : State) : (setVreg l n v s).fill = s.fill := rfl
@[simp] theorem setVreg_thr (l : LaneId) (n : Nat) (v : Word) (s : State) : (setVreg l n v s).thr = s.thr := rfl
@[simp] theorem setVreg_slices (l : LaneId) (n : Nat) (v : Word) (s : State) : (setVreg l n v s).slices = s.slices := rfl
@[simp] theorem setVreg_serve (l : LaneId) (n : Nat) (v : Word) (s : State) : (setVreg l n v s).serve = s.serve := rfl
@[simp] theorem setVreg_greg (l : LaneId) (n : Nat) (v : Word) (s : State) : (setVreg l n v s).greg = s.greg := rfl
@[simp] theorem setVreg_gpoi (l : LaneId) (n : Nat) (v : Word) (s : State) : (setVreg l n v s).gpoi = s.gpoi := rfl
@[simp] theorem setVreg_gangs (l : LaneId) (n : Nat) (v : Word) (s : State) : (setVreg l n v s).gangs = s.gangs := rfl
@[simp] theorem setVreg_units (l : LaneId) (n : Nat) (v : Word) (s : State) : (setVreg l n v s).units = s.units := rfl
@[simp] theorem setVreg_hstage (l : LaneId) (n : Nat) (v : Word) (s : State) : (setVreg l n v s).hstage = s.hstage := rfl
@[simp] theorem setVreg_scr (l : LaneId) (n : Nat) (v : Word) (s : State) : (setVreg l n v s).scr = s.scr := rfl
@[simp] theorem setVreg_scrpoi (l : LaneId) (n : Nat) (v : Word) (s : State) : (setVreg l n v s).scrpoi = s.scrpoi := rfl
@[simp] theorem setVreg_l1 (l : LaneId) (n : Nat) (v : Word) (s : State) : (setVreg l n v s).l1 = s.l1 := rfl
@[simp] theorem setVreg_wq (l : LaneId) (n : Nat) (v : Word) (s : State) : (setVreg l n v s).wq = s.wq := rfl
@[simp] theorem setVreg_tlbCore (l : LaneId) (n : Nat) (v : Word) (s : State) : (setVreg l n v s).tlbCore = s.tlbCore := rfl
@[simp] theorem setVreg_tlbCluster (l : LaneId) (n : Nat) (v : Word) (s : State) : (setVreg l n v s).tlbCluster = s.tlbCluster := rfl
@[simp] theorem setVreg_copies (l : LaneId) (n : Nat) (v : Word) (s : State) : (setVreg l n v s).copies = s.copies := rfl
@[simp] theorem setVreg_mats (l : LaneId) (n : Nat) (v : Word) (s : State) : (setVreg l n v s).mats = s.mats := rfl
@[simp] theorem setVreg_copyLog (l : LaneId) (n : Nat) (v : Word) (s : State) : (setVreg l n v s).copyLog = s.copyLog := rfl
@[simp] theorem setVreg_matLog (l : LaneId) (n : Nat) (v : Word) (s : State) : (setVreg l n v s).matLog = s.matLog := rfl
@[simp] theorem setVreg_acc (l : LaneId) (n : Nat) (v : Word) (s : State) : (setVreg l n v s).acc = s.acc := rfl
@[simp] theorem setVreg_accpoi (l : LaneId) (n : Nat) (v : Word) (s : State) : (setVreg l n v s).accpoi = s.accpoi := rfl
@[simp] theorem setVreg_passes (l : LaneId) (n : Nat) (v : Word) (s : State) : (setVreg l n v s).passes = s.passes := rfl
@[simp] theorem setVreg_opbuf (l : LaneId) (n : Nat) (v : Word) (s : State) : (setVreg l n v s).opbuf = s.opbuf := rfl
@[simp] theorem setVreg_oppoi (l : LaneId) (n : Nat) (v : Word) (s : State) : (setVreg l n v s).oppoi = s.oppoi := rfl
@[simp] theorem setVreg_oprecs (l : LaneId) (n : Nat) (v : Word) (s : State) : (setVreg l n v s).oprecs = s.oprecs := rfl
@[simp] theorem setVreg_baton (l : LaneId) (n : Nat) (v : Word) (s : State) : (setVreg l n v s).baton = s.baton := rfl
@[simp] theorem setVreg_batonq (l : LaneId) (n : Nat) (v : Word) (s : State) : (setVreg l n v s).batonq = s.batonq := rfl
@[simp] theorem setVreg_fenced (l : LaneId) (n : Nat) (v : Word) (s : State) : (setVreg l n v s).fenced = s.fenced := rfl
@[simp] theorem setVreg_fencing (l : LaneId) (n : Nat) (v : Word) (s : State) : (setVreg l n v s).fencing = s.fencing := rfl
@[simp] theorem setVreg_mem (l : LaneId) (n : Nat) (v : Word) (s : State) : (setVreg l n v s).mem = s.mem := rfl
@[simp] theorem setVreg_mempoi (l : LaneId) (n : Nat) (v : Word) (s : State) : (setVreg l n v s).mempoi = s.mempoi := rfl
@[simp] theorem setVreg_ctxs (l : LaneId) (n : Nat) (v : Word) (s : State) : (setVreg l n v s).ctxs = s.ctxs := rfl
@[simp] theorem setVreg_modules (l : LaneId) (n : Nat) (v : Word) (s : State) : (setVreg l n v s).modules = s.modules := rfl
@[simp] theorem setVreg_cache (l : LaneId) (n : Nat) (v : Word) (s : State) : (setVreg l n v s).cache = s.cache := rfl
@[simp] theorem setVreg_lodes (l : LaneId) (n : Nat) (v : Word) (s : State) : (setVreg l n v s).lodes = s.lodes := rfl
@[simp] theorem setVreg_lodeOwner (l : LaneId) (n : Nat) (v : Word) (s : State) : (setVreg l n v s).lodeOwner = s.lodeOwner := rfl
@[simp] theorem setVreg_graphs (l : LaneId) (n : Nat) (v : Word) (s : State) : (setVreg l n v s).graphs = s.graphs := rfl
@[simp] theorem setVreg_trigs (l : LaneId) (n : Nat) (v : Word) (s : State) : (setVreg l n v s).trigs = s.trigs := rfl
@[simp] theorem setVreg_launches (l : LaneId) (n : Nat) (v : Word) (s : State) : (setVreg l n v s).launches = s.launches := rfl
@[simp] theorem setVreg_parks (l : LaneId) (n : Nat) (v : Word) (s : State) : (setVreg l n v s).parks = s.parks := rfl
@[simp] theorem setVreg_frecs (l : LaneId) (n : Nat) (v : Word) (s : State) : (setVreg l n v s).frecs = s.frecs := rfl
@[simp] theorem setVreg_quota (l : LaneId) (n : Nat) (v : Word) (s : State) : (setVreg l n v s).quota = s.quota := rfl
@[simp] theorem setVreg_links (l : LaneId) (n : Nat) (v : Word) (s : State) : (setVreg l n v s).links = s.links := rfl
@[simp] theorem setVreg_pkgid (l : LaneId) (n : Nat) (v : Word) (s : State) : (setVreg l n v s).pkgid = s.pkgid := rfl
@[simp] theorem setVreg_replies (l : LaneId) (n : Nat) (v : Word) (s : State) : (setVreg l n v s).replies = s.replies := rfl
@[simp] theorem setVreg_updates (l : LaneId) (n : Nat) (v : Word) (s : State) : (setVreg l n v s).updates = s.updates := rfl
@[simp] theorem setVreg_health (l : LaneId) (n : Nat) (v : Word) (s : State) : (setVreg l n v s).health = s.health := rfl
@[simp] theorem setVreg_replaceF (l : LaneId) (n : Nat) (v : Word) (s : State) : (setVreg l n v s).replaceF = s.replaceF := rfl
@[simp] theorem setVreg_drain (l : LaneId) (n : Nat) (v : Word) (s : State) : (setVreg l n v s).drain = s.drain := rfl
@[simp] theorem setVreg_dieover (l : LaneId) (n : Nat) (v : Word) (s : State) : (setVreg l n v s).dieover = s.dieover := rfl
@[simp] theorem setVreg_diedead (l : LaneId) (n : Nat) (v : Word) (s : State) : (setVreg l n v s).diedead = s.diedead := rfl
@[simp] theorem setVreg_chanoff (l : LaneId) (n : Nat) (v : Word) (s : State) : (setVreg l n v s).chanoff = s.chanoff := rfl
@[simp] theorem setVreg_coreCtr (l : LaneId) (n : Nat) (v : Word) (s : State) : (setVreg l n v s).coreCtr = s.coreCtr := rfl
@[simp] theorem setVreg_dieCtr (l : LaneId) (n : Nat) (v : Word) (s : State) : (setVreg l n v s).dieCtr = s.dieCtr := rfl
@[simp] theorem setVreg_measure (l : LaneId) (n : Nat) (v : Word) (s : State) : (setVreg l n v s).measure = s.measure := rfl
@[simp] theorem setVreg_booted (l : LaneId) (n : Nat) (v : Word) (s : State) : (setVreg l n v s).booted = s.booted := rfl
@[simp] theorem setVreg_cxl (l : LaneId) (n : Nat) (v : Word) (s : State) : (setVreg l n v s).cxl = s.cxl := rfl
@[simp] theorem setVreg_vfs (l : LaneId) (n : Nat) (v : Word) (s : State) : (setVreg l n v s).vfs = s.vfs := rfl
@[simp] theorem setVreg_revoked (l : LaneId) (n : Nat) (v : Word) (s : State) : (setVreg l n v s).revoked = s.revoked := rfl
@[simp] theorem setVreg_svn (l : LaneId) (n : Nat) (v : Word) (s : State) : (setVreg l n v s).svn = s.svn := rfl
@[simp] theorem setVreg_flashNs (l : LaneId) (n : Nat) (v : Word) (s : State) : (setVreg l n v s).flashNs = s.flashNs := rfl
@[simp] theorem setVreg_cap (l : LaneId) (n : Nat) (v : Word) (s : State) : (setVreg l n v s).cap = s.cap := rfl
@[simp] theorem setVreg_mhz (l : LaneId) (n : Nat) (v : Word) (s : State) : (setVreg l n v s).mhz = s.mhz := rfl
@[simp] theorem setVreg_off (l : LaneId) (n : Nat) (v : Word) (s : State) : (setVreg l n v s).off = s.off := rfl
@[simp] theorem setVreg_msix (l : LaneId) (n : Nat) (v : Word) (s : State) : (setVreg l n v s).msix = s.msix := rfl
@[simp] theorem setVreg_out (l : LaneId) (n : Nat) (v : Word) (s : State) : (setVreg l n v s).out = s.out := rfl

/-! ### setSlot -/

@[simp] theorem setSlot_agenda (r : LaneRef) (n : Nat) (v : Word) (s : State) : (setSlot r n v s).agenda = s.agenda := rfl
@[simp] theorem setSlot_cur (r : LaneRef) (n : Nat) (v : Word) (s : State) : (setSlot r n v s).cur = s.cur := rfl
@[simp] theorem setSlot_pgs (r : LaneRef) (n : Nat) (v : Word) (s : State) : (setSlot r n v s).pgs = s.pgs := rfl
@[simp] theorem setSlot_secs (r : LaneRef) (n : Nat) (v : Word) (s : State) : (setSlot r n v s).secs = s.secs := rfl
@[simp] theorem setSlot_clock (r : LaneRef) (n : Nat) (v : Word) (s : State) : (setSlot r n v s).clock = s.clock := rfl
@[simp] theorem setSlot_free (r : LaneRef) (n : Nat) (v : Word) (s : State) : (setSlot r n v s).free = s.free := rfl
@[simp] theorem setSlot_fresh (r : LaneRef) (n : Nat) (v : Word) (s : State) : (setSlot r n v s).fresh = s.fresh := rfl
@[simp] theorem setSlot_vreg (r : LaneRef) (n : Nat) (v : Word) (s : State) : (setSlot r n v s).vreg = s.vreg := rfl
@[simp] theorem setSlot_vpoi (r : LaneRef) (n : Nat) (v : Word) (s : State) : (setSlot r n v s).vpoi = s.vpoi := rfl
@[simp] theorem setSlot_fib (r : LaneRef) (n : Nat) (v : Word) (s : State) : (setSlot r n v s).fib = s.fib := rfl
@[simp] theorem setSlot_mon (r : LaneRef) (n : Nat) (v : Word) (s : State) : (setSlot r n v s).mon = s.mon := rfl
@[simp] theorem setSlot_slot (r : LaneRef) (n : Nat) (v : Word) (s : State) : (setSlot r n v s).slot = s.slot.set ⟨r, n⟩ v := rfl
@[simp] theorem setSlot_dirty (r : LaneRef) (n : Nat) (v : Word) (s : State) : (setSlot r n v s).dirty = if s.dirty.contains ⟨r, n⟩ then s.dirty else ⟨r, n⟩ :: s.dirty := rfl
@[simp] theorem setSlot_echo (r : LaneRef) (n : Nat) (v : Word) (s : State) : (setSlot r n v s).echo = s.echo := rfl
@[simp] theorem setSlot_buf (r : LaneRef) (n : Nat) (v : Word) (s : State) : (setSlot r n v s).buf = s.buf := rfl
@[simp] theorem setSlot_held (r : LaneRef) (n : Nat) (v : Word) (s : State) : (setSlot r n v s).held = s.held := rfl
@[simp] theorem setSlot_shad (r : LaneRef) (n : Nat) (v : Word) (s : State) : (setSlot r n v s).shad = s.shad := rfl
@[simp] theorem setSlot_fill (r : LaneRef) (n : Nat) (v : Word) (s : State) : (setSlot r n v s).fill = s.fill := rfl
@[simp] theorem setSlot_thr (r : LaneRef) (n : Nat) (v : Word) (s : State) : (setSlot r n v s).thr = s.thr := rfl
@[simp] theorem setSlot_slices (r : LaneRef) (n : Nat) (v : Word) (s : State) : (setSlot r n v s).slices = s.slices := rfl
@[simp] theorem setSlot_serve (r : LaneRef) (n : Nat) (v : Word) (s : State) : (setSlot r n v s).serve = s.serve := rfl
@[simp] theorem setSlot_greg (r : LaneRef) (n : Nat) (v : Word) (s : State) : (setSlot r n v s).greg = s.greg := rfl
@[simp] theorem setSlot_gpoi (r : LaneRef) (n : Nat) (v : Word) (s : State) : (setSlot r n v s).gpoi = s.gpoi := rfl
@[simp] theorem setSlot_gangs (r : LaneRef) (n : Nat) (v : Word) (s : State) : (setSlot r n v s).gangs = s.gangs := rfl
@[simp] theorem setSlot_units (r : LaneRef) (n : Nat) (v : Word) (s : State) : (setSlot r n v s).units = s.units := rfl
@[simp] theorem setSlot_hstage (r : LaneRef) (n : Nat) (v : Word) (s : State) : (setSlot r n v s).hstage = s.hstage := rfl
@[simp] theorem setSlot_scr (r : LaneRef) (n : Nat) (v : Word) (s : State) : (setSlot r n v s).scr = s.scr := rfl
@[simp] theorem setSlot_scrpoi (r : LaneRef) (n : Nat) (v : Word) (s : State) : (setSlot r n v s).scrpoi = s.scrpoi := rfl
@[simp] theorem setSlot_l1 (r : LaneRef) (n : Nat) (v : Word) (s : State) : (setSlot r n v s).l1 = s.l1 := rfl
@[simp] theorem setSlot_wq (r : LaneRef) (n : Nat) (v : Word) (s : State) : (setSlot r n v s).wq = s.wq := rfl
@[simp] theorem setSlot_tlbCore (r : LaneRef) (n : Nat) (v : Word) (s : State) : (setSlot r n v s).tlbCore = s.tlbCore := rfl
@[simp] theorem setSlot_tlbCluster (r : LaneRef) (n : Nat) (v : Word) (s : State) : (setSlot r n v s).tlbCluster = s.tlbCluster := rfl
@[simp] theorem setSlot_copies (r : LaneRef) (n : Nat) (v : Word) (s : State) : (setSlot r n v s).copies = s.copies := rfl
@[simp] theorem setSlot_mats (r : LaneRef) (n : Nat) (v : Word) (s : State) : (setSlot r n v s).mats = s.mats := rfl
@[simp] theorem setSlot_copyLog (r : LaneRef) (n : Nat) (v : Word) (s : State) : (setSlot r n v s).copyLog = s.copyLog := rfl
@[simp] theorem setSlot_matLog (r : LaneRef) (n : Nat) (v : Word) (s : State) : (setSlot r n v s).matLog = s.matLog := rfl
@[simp] theorem setSlot_acc (r : LaneRef) (n : Nat) (v : Word) (s : State) : (setSlot r n v s).acc = s.acc := rfl
@[simp] theorem setSlot_accpoi (r : LaneRef) (n : Nat) (v : Word) (s : State) : (setSlot r n v s).accpoi = s.accpoi := rfl
@[simp] theorem setSlot_passes (r : LaneRef) (n : Nat) (v : Word) (s : State) : (setSlot r n v s).passes = s.passes := rfl
@[simp] theorem setSlot_opbuf (r : LaneRef) (n : Nat) (v : Word) (s : State) : (setSlot r n v s).opbuf = s.opbuf := rfl
@[simp] theorem setSlot_oppoi (r : LaneRef) (n : Nat) (v : Word) (s : State) : (setSlot r n v s).oppoi = s.oppoi := rfl
@[simp] theorem setSlot_oprecs (r : LaneRef) (n : Nat) (v : Word) (s : State) : (setSlot r n v s).oprecs = s.oprecs := rfl
@[simp] theorem setSlot_baton (r : LaneRef) (n : Nat) (v : Word) (s : State) : (setSlot r n v s).baton = s.baton := rfl
@[simp] theorem setSlot_batonq (r : LaneRef) (n : Nat) (v : Word) (s : State) : (setSlot r n v s).batonq = s.batonq := rfl
@[simp] theorem setSlot_fenced (r : LaneRef) (n : Nat) (v : Word) (s : State) : (setSlot r n v s).fenced = s.fenced := rfl
@[simp] theorem setSlot_fencing (r : LaneRef) (n : Nat) (v : Word) (s : State) : (setSlot r n v s).fencing = s.fencing := rfl
@[simp] theorem setSlot_mem (r : LaneRef) (n : Nat) (v : Word) (s : State) : (setSlot r n v s).mem = s.mem := rfl
@[simp] theorem setSlot_mempoi (r : LaneRef) (n : Nat) (v : Word) (s : State) : (setSlot r n v s).mempoi = s.mempoi := rfl
@[simp] theorem setSlot_ctxs (r : LaneRef) (n : Nat) (v : Word) (s : State) : (setSlot r n v s).ctxs = s.ctxs := rfl
@[simp] theorem setSlot_modules (r : LaneRef) (n : Nat) (v : Word) (s : State) : (setSlot r n v s).modules = s.modules := rfl
@[simp] theorem setSlot_cache (r : LaneRef) (n : Nat) (v : Word) (s : State) : (setSlot r n v s).cache = s.cache := rfl
@[simp] theorem setSlot_lodes (r : LaneRef) (n : Nat) (v : Word) (s : State) : (setSlot r n v s).lodes = s.lodes := rfl
@[simp] theorem setSlot_lodeOwner (r : LaneRef) (n : Nat) (v : Word) (s : State) : (setSlot r n v s).lodeOwner = s.lodeOwner := rfl
@[simp] theorem setSlot_graphs (r : LaneRef) (n : Nat) (v : Word) (s : State) : (setSlot r n v s).graphs = s.graphs := rfl
@[simp] theorem setSlot_trigs (r : LaneRef) (n : Nat) (v : Word) (s : State) : (setSlot r n v s).trigs = s.trigs := rfl
@[simp] theorem setSlot_launches (r : LaneRef) (n : Nat) (v : Word) (s : State) : (setSlot r n v s).launches = s.launches := rfl
@[simp] theorem setSlot_parks (r : LaneRef) (n : Nat) (v : Word) (s : State) : (setSlot r n v s).parks = s.parks := rfl
@[simp] theorem setSlot_frecs (r : LaneRef) (n : Nat) (v : Word) (s : State) : (setSlot r n v s).frecs = s.frecs := rfl
@[simp] theorem setSlot_quota (r : LaneRef) (n : Nat) (v : Word) (s : State) : (setSlot r n v s).quota = s.quota := rfl
@[simp] theorem setSlot_links (r : LaneRef) (n : Nat) (v : Word) (s : State) : (setSlot r n v s).links = s.links := rfl
@[simp] theorem setSlot_pkgid (r : LaneRef) (n : Nat) (v : Word) (s : State) : (setSlot r n v s).pkgid = s.pkgid := rfl
@[simp] theorem setSlot_replies (r : LaneRef) (n : Nat) (v : Word) (s : State) : (setSlot r n v s).replies = s.replies := rfl
@[simp] theorem setSlot_updates (r : LaneRef) (n : Nat) (v : Word) (s : State) : (setSlot r n v s).updates = s.updates := rfl
@[simp] theorem setSlot_health (r : LaneRef) (n : Nat) (v : Word) (s : State) : (setSlot r n v s).health = s.health := rfl
@[simp] theorem setSlot_replaceF (r : LaneRef) (n : Nat) (v : Word) (s : State) : (setSlot r n v s).replaceF = s.replaceF := rfl
@[simp] theorem setSlot_drain (r : LaneRef) (n : Nat) (v : Word) (s : State) : (setSlot r n v s).drain = s.drain := rfl
@[simp] theorem setSlot_dieover (r : LaneRef) (n : Nat) (v : Word) (s : State) : (setSlot r n v s).dieover = s.dieover := rfl
@[simp] theorem setSlot_diedead (r : LaneRef) (n : Nat) (v : Word) (s : State) : (setSlot r n v s).diedead = s.diedead := rfl
@[simp] theorem setSlot_chanoff (r : LaneRef) (n : Nat) (v : Word) (s : State) : (setSlot r n v s).chanoff = s.chanoff := rfl
@[simp] theorem setSlot_coreCtr (r : LaneRef) (n : Nat) (v : Word) (s : State) : (setSlot r n v s).coreCtr = s.coreCtr := rfl
@[simp] theorem setSlot_dieCtr (r : LaneRef) (n : Nat) (v : Word) (s : State) : (setSlot r n v s).dieCtr = s.dieCtr := rfl
@[simp] theorem setSlot_measure (r : LaneRef) (n : Nat) (v : Word) (s : State) : (setSlot r n v s).measure = s.measure := rfl
@[simp] theorem setSlot_booted (r : LaneRef) (n : Nat) (v : Word) (s : State) : (setSlot r n v s).booted = s.booted := rfl
@[simp] theorem setSlot_cxl (r : LaneRef) (n : Nat) (v : Word) (s : State) : (setSlot r n v s).cxl = s.cxl := rfl
@[simp] theorem setSlot_vfs (r : LaneRef) (n : Nat) (v : Word) (s : State) : (setSlot r n v s).vfs = s.vfs := rfl
@[simp] theorem setSlot_revoked (r : LaneRef) (n : Nat) (v : Word) (s : State) : (setSlot r n v s).revoked = s.revoked := rfl
@[simp] theorem setSlot_svn (r : LaneRef) (n : Nat) (v : Word) (s : State) : (setSlot r n v s).svn = s.svn := rfl
@[simp] theorem setSlot_flashNs (r : LaneRef) (n : Nat) (v : Word) (s : State) : (setSlot r n v s).flashNs = s.flashNs := rfl
@[simp] theorem setSlot_cap (r : LaneRef) (n : Nat) (v : Word) (s : State) : (setSlot r n v s).cap = s.cap := rfl
@[simp] theorem setSlot_mhz (r : LaneRef) (n : Nat) (v : Word) (s : State) : (setSlot r n v s).mhz = s.mhz := rfl
@[simp] theorem setSlot_off (r : LaneRef) (n : Nat) (v : Word) (s : State) : (setSlot r n v s).off = s.off := rfl
@[simp] theorem setSlot_msix (r : LaneRef) (n : Nat) (v : Word) (s : State) : (setSlot r n v s).msix = s.msix := rfl
@[simp] theorem setSlot_out (r : LaneRef) (n : Nat) (v : Word) (s : State) : (setSlot r n v s).out = s.out := rfl

/-! ### loadSlot -/

@[simp] theorem loadSlot_agenda (r : LaneRef) (n : Nat) (v : Word) (s : State) : (loadSlot r n v s).agenda = s.agenda := rfl
@[simp] theorem loadSlot_cur (r : LaneRef) (n : Nat) (v : Word) (s : State) : (loadSlot r n v s).cur = s.cur := rfl
@[simp] theorem loadSlot_pgs (r : LaneRef) (n : Nat) (v : Word) (s : State) : (loadSlot r n v s).pgs = s.pgs := rfl
@[simp] theorem loadSlot_secs (r : LaneRef) (n : Nat) (v : Word) (s : State) : (loadSlot r n v s).secs = s.secs := rfl
@[simp] theorem loadSlot_clock (r : LaneRef) (n : Nat) (v : Word) (s : State) : (loadSlot r n v s).clock = s.clock := rfl
@[simp] theorem loadSlot_free (r : LaneRef) (n : Nat) (v : Word) (s : State) : (loadSlot r n v s).free = s.free := rfl
@[simp] theorem loadSlot_fresh (r : LaneRef) (n : Nat) (v : Word) (s : State) : (loadSlot r n v s).fresh = s.fresh := rfl
@[simp] theorem loadSlot_vreg (r : LaneRef) (n : Nat) (v : Word) (s : State) : (loadSlot r n v s).vreg = s.vreg := rfl
@[simp] theorem loadSlot_vpoi (r : LaneRef) (n : Nat) (v : Word) (s : State) : (loadSlot r n v s).vpoi = s.vpoi := rfl
@[simp] theorem loadSlot_fib (r : LaneRef) (n : Nat) (v : Word) (s : State) : (loadSlot r n v s).fib = s.fib := rfl
@[simp] theorem loadSlot_mon (r : LaneRef) (n : Nat) (v : Word) (s : State) : (loadSlot r n v s).mon = s.mon := rfl
@[simp] theorem loadSlot_slot (r : LaneRef) (n : Nat) (v : Word) (s : State) : (loadSlot r n v s).slot = s.slot.set ⟨r, n⟩ v := rfl
@[simp] theorem loadSlot_dirty (r : LaneRef) (n : Nat) (v : Word) (s : State) : (loadSlot r n v s).dirty = s.dirty := rfl
@[simp] theorem loadSlot_echo (r : LaneRef) (n : Nat) (v : Word) (s : State) : (loadSlot r n v s).echo = s.echo := rfl
@[simp] theorem loadSlot_buf (r : LaneRef) (n : Nat) (v : Word) (s : State) : (loadSlot r n v s).buf = s.buf := rfl
@[simp] theorem loadSlot_held (r : LaneRef) (n : Nat) (v : Word) (s : State) : (loadSlot r n v s).held = s.held := rfl
@[simp] theorem loadSlot_shad (r : LaneRef) (n : Nat) (v : Word) (s : State) : (loadSlot r n v s).shad = s.shad := rfl
@[simp] theorem loadSlot_fill (r : LaneRef) (n : Nat) (v : Word) (s : State) : (loadSlot r n v s).fill = s.fill := rfl
@[simp] theorem loadSlot_thr (r : LaneRef) (n : Nat) (v : Word) (s : State) : (loadSlot r n v s).thr = s.thr := rfl
@[simp] theorem loadSlot_slices (r : LaneRef) (n : Nat) (v : Word) (s : State) : (loadSlot r n v s).slices = s.slices := rfl
@[simp] theorem loadSlot_serve (r : LaneRef) (n : Nat) (v : Word) (s : State) : (loadSlot r n v s).serve = s.serve := rfl
@[simp] theorem loadSlot_greg (r : LaneRef) (n : Nat) (v : Word) (s : State) : (loadSlot r n v s).greg = s.greg := rfl
@[simp] theorem loadSlot_gpoi (r : LaneRef) (n : Nat) (v : Word) (s : State) : (loadSlot r n v s).gpoi = s.gpoi := rfl
@[simp] theorem loadSlot_gangs (r : LaneRef) (n : Nat) (v : Word) (s : State) : (loadSlot r n v s).gangs = s.gangs := rfl
@[simp] theorem loadSlot_units (r : LaneRef) (n : Nat) (v : Word) (s : State) : (loadSlot r n v s).units = s.units := rfl
@[simp] theorem loadSlot_hstage (r : LaneRef) (n : Nat) (v : Word) (s : State) : (loadSlot r n v s).hstage = s.hstage := rfl
@[simp] theorem loadSlot_scr (r : LaneRef) (n : Nat) (v : Word) (s : State) : (loadSlot r n v s).scr = s.scr := rfl
@[simp] theorem loadSlot_scrpoi (r : LaneRef) (n : Nat) (v : Word) (s : State) : (loadSlot r n v s).scrpoi = s.scrpoi := rfl
@[simp] theorem loadSlot_l1 (r : LaneRef) (n : Nat) (v : Word) (s : State) : (loadSlot r n v s).l1 = s.l1 := rfl
@[simp] theorem loadSlot_wq (r : LaneRef) (n : Nat) (v : Word) (s : State) : (loadSlot r n v s).wq = s.wq := rfl
@[simp] theorem loadSlot_tlbCore (r : LaneRef) (n : Nat) (v : Word) (s : State) : (loadSlot r n v s).tlbCore = s.tlbCore := rfl
@[simp] theorem loadSlot_tlbCluster (r : LaneRef) (n : Nat) (v : Word) (s : State) : (loadSlot r n v s).tlbCluster = s.tlbCluster := rfl
@[simp] theorem loadSlot_copies (r : LaneRef) (n : Nat) (v : Word) (s : State) : (loadSlot r n v s).copies = s.copies := rfl
@[simp] theorem loadSlot_mats (r : LaneRef) (n : Nat) (v : Word) (s : State) : (loadSlot r n v s).mats = s.mats := rfl
@[simp] theorem loadSlot_copyLog (r : LaneRef) (n : Nat) (v : Word) (s : State) : (loadSlot r n v s).copyLog = s.copyLog := rfl
@[simp] theorem loadSlot_matLog (r : LaneRef) (n : Nat) (v : Word) (s : State) : (loadSlot r n v s).matLog = s.matLog := rfl
@[simp] theorem loadSlot_acc (r : LaneRef) (n : Nat) (v : Word) (s : State) : (loadSlot r n v s).acc = s.acc := rfl
@[simp] theorem loadSlot_accpoi (r : LaneRef) (n : Nat) (v : Word) (s : State) : (loadSlot r n v s).accpoi = s.accpoi := rfl
@[simp] theorem loadSlot_passes (r : LaneRef) (n : Nat) (v : Word) (s : State) : (loadSlot r n v s).passes = s.passes := rfl
@[simp] theorem loadSlot_opbuf (r : LaneRef) (n : Nat) (v : Word) (s : State) : (loadSlot r n v s).opbuf = s.opbuf := rfl
@[simp] theorem loadSlot_oppoi (r : LaneRef) (n : Nat) (v : Word) (s : State) : (loadSlot r n v s).oppoi = s.oppoi := rfl
@[simp] theorem loadSlot_oprecs (r : LaneRef) (n : Nat) (v : Word) (s : State) : (loadSlot r n v s).oprecs = s.oprecs := rfl
@[simp] theorem loadSlot_baton (r : LaneRef) (n : Nat) (v : Word) (s : State) : (loadSlot r n v s).baton = s.baton := rfl
@[simp] theorem loadSlot_batonq (r : LaneRef) (n : Nat) (v : Word) (s : State) : (loadSlot r n v s).batonq = s.batonq := rfl
@[simp] theorem loadSlot_fenced (r : LaneRef) (n : Nat) (v : Word) (s : State) : (loadSlot r n v s).fenced = s.fenced := rfl
@[simp] theorem loadSlot_fencing (r : LaneRef) (n : Nat) (v : Word) (s : State) : (loadSlot r n v s).fencing = s.fencing := rfl
@[simp] theorem loadSlot_mem (r : LaneRef) (n : Nat) (v : Word) (s : State) : (loadSlot r n v s).mem = s.mem := rfl
@[simp] theorem loadSlot_mempoi (r : LaneRef) (n : Nat) (v : Word) (s : State) : (loadSlot r n v s).mempoi = s.mempoi := rfl
@[simp] theorem loadSlot_ctxs (r : LaneRef) (n : Nat) (v : Word) (s : State) : (loadSlot r n v s).ctxs = s.ctxs := rfl
@[simp] theorem loadSlot_modules (r : LaneRef) (n : Nat) (v : Word) (s : State) : (loadSlot r n v s).modules = s.modules := rfl
@[simp] theorem loadSlot_cache (r : LaneRef) (n : Nat) (v : Word) (s : State) : (loadSlot r n v s).cache = s.cache := rfl
@[simp] theorem loadSlot_lodes (r : LaneRef) (n : Nat) (v : Word) (s : State) : (loadSlot r n v s).lodes = s.lodes := rfl
@[simp] theorem loadSlot_lodeOwner (r : LaneRef) (n : Nat) (v : Word) (s : State) : (loadSlot r n v s).lodeOwner = s.lodeOwner := rfl
@[simp] theorem loadSlot_graphs (r : LaneRef) (n : Nat) (v : Word) (s : State) : (loadSlot r n v s).graphs = s.graphs := rfl
@[simp] theorem loadSlot_trigs (r : LaneRef) (n : Nat) (v : Word) (s : State) : (loadSlot r n v s).trigs = s.trigs := rfl
@[simp] theorem loadSlot_launches (r : LaneRef) (n : Nat) (v : Word) (s : State) : (loadSlot r n v s).launches = s.launches := rfl
@[simp] theorem loadSlot_parks (r : LaneRef) (n : Nat) (v : Word) (s : State) : (loadSlot r n v s).parks = s.parks := rfl
@[simp] theorem loadSlot_frecs (r : LaneRef) (n : Nat) (v : Word) (s : State) : (loadSlot r n v s).frecs = s.frecs := rfl
@[simp] theorem loadSlot_quota (r : LaneRef) (n : Nat) (v : Word) (s : State) : (loadSlot r n v s).quota = s.quota := rfl
@[simp] theorem loadSlot_links (r : LaneRef) (n : Nat) (v : Word) (s : State) : (loadSlot r n v s).links = s.links := rfl
@[simp] theorem loadSlot_pkgid (r : LaneRef) (n : Nat) (v : Word) (s : State) : (loadSlot r n v s).pkgid = s.pkgid := rfl
@[simp] theorem loadSlot_replies (r : LaneRef) (n : Nat) (v : Word) (s : State) : (loadSlot r n v s).replies = s.replies := rfl
@[simp] theorem loadSlot_updates (r : LaneRef) (n : Nat) (v : Word) (s : State) : (loadSlot r n v s).updates = s.updates := rfl
@[simp] theorem loadSlot_health (r : LaneRef) (n : Nat) (v : Word) (s : State) : (loadSlot r n v s).health = s.health := rfl
@[simp] theorem loadSlot_replaceF (r : LaneRef) (n : Nat) (v : Word) (s : State) : (loadSlot r n v s).replaceF = s.replaceF := rfl
@[simp] theorem loadSlot_drain (r : LaneRef) (n : Nat) (v : Word) (s : State) : (loadSlot r n v s).drain = s.drain := rfl
@[simp] theorem loadSlot_dieover (r : LaneRef) (n : Nat) (v : Word) (s : State) : (loadSlot r n v s).dieover = s.dieover := rfl
@[simp] theorem loadSlot_diedead (r : LaneRef) (n : Nat) (v : Word) (s : State) : (loadSlot r n v s).diedead = s.diedead := rfl
@[simp] theorem loadSlot_chanoff (r : LaneRef) (n : Nat) (v : Word) (s : State) : (loadSlot r n v s).chanoff = s.chanoff := rfl
@[simp] theorem loadSlot_coreCtr (r : LaneRef) (n : Nat) (v : Word) (s : State) : (loadSlot r n v s).coreCtr = s.coreCtr := rfl
@[simp] theorem loadSlot_dieCtr (r : LaneRef) (n : Nat) (v : Word) (s : State) : (loadSlot r n v s).dieCtr = s.dieCtr := rfl
@[simp] theorem loadSlot_measure (r : LaneRef) (n : Nat) (v : Word) (s : State) : (loadSlot r n v s).measure = s.measure := rfl
@[simp] theorem loadSlot_booted (r : LaneRef) (n : Nat) (v : Word) (s : State) : (loadSlot r n v s).booted = s.booted := rfl
@[simp] theorem loadSlot_cxl (r : LaneRef) (n : Nat) (v : Word) (s : State) : (loadSlot r n v s).cxl = s.cxl := rfl
@[simp] theorem loadSlot_vfs (r : LaneRef) (n : Nat) (v : Word) (s : State) : (loadSlot r n v s).vfs = s.vfs := rfl
@[simp] theorem loadSlot_revoked (r : LaneRef) (n : Nat) (v : Word) (s : State) : (loadSlot r n v s).revoked = s.revoked := rfl
@[simp] theorem loadSlot_svn (r : LaneRef) (n : Nat) (v : Word) (s : State) : (loadSlot r n v s).svn = s.svn := rfl
@[simp] theorem loadSlot_flashNs (r : LaneRef) (n : Nat) (v : Word) (s : State) : (loadSlot r n v s).flashNs = s.flashNs := rfl
@[simp] theorem loadSlot_cap (r : LaneRef) (n : Nat) (v : Word) (s : State) : (loadSlot r n v s).cap = s.cap := rfl
@[simp] theorem loadSlot_mhz (r : LaneRef) (n : Nat) (v : Word) (s : State) : (loadSlot r n v s).mhz = s.mhz := rfl
@[simp] theorem loadSlot_off (r : LaneRef) (n : Nat) (v : Word) (s : State) : (loadSlot r n v s).off = s.off := rfl
@[simp] theorem loadSlot_msix (r : LaneRef) (n : Nat) (v : Word) (s : State) : (loadSlot r n v s).msix = s.msix := rfl
@[simp] theorem loadSlot_out (r : LaneRef) (n : Nat) (v : Word) (s : State) : (loadSlot r n v s).out = s.out := rfl

/-! ### shiftEcho -/

@[simp] theorem shiftEcho_agenda (r : LaneRef) (v : Word) (s : State) : (shiftEcho r v s).agenda = s.agenda := rfl
@[simp] theorem shiftEcho_cur (r : LaneRef) (v : Word) (s : State) : (shiftEcho r v s).cur = s.cur := rfl
@[simp] theorem shiftEcho_pgs (r : LaneRef) (v : Word) (s : State) : (shiftEcho r v s).pgs = s.pgs := rfl
@[simp] theorem shiftEcho_secs (r : LaneRef) (v : Word) (s : State) : (shiftEcho r v s).secs = s.secs := rfl
@[simp] theorem shiftEcho_clock (r : LaneRef) (v : Word) (s : State) : (shiftEcho r v s).clock = s.clock := rfl
@[simp] theorem shiftEcho_free (r : LaneRef) (v : Word) (s : State) : (shiftEcho r v s).free = s.free := rfl
@[simp] theorem shiftEcho_fresh (r : LaneRef) (v : Word) (s : State) : (shiftEcho r v s).fresh = s.fresh := rfl
@[simp] theorem shiftEcho_vreg (r : LaneRef) (v : Word) (s : State) : (shiftEcho r v s).vreg = s.vreg := rfl
@[simp] theorem shiftEcho_vpoi (r : LaneRef) (v : Word) (s : State) : (shiftEcho r v s).vpoi = s.vpoi := rfl
@[simp] theorem shiftEcho_fib (r : LaneRef) (v : Word) (s : State) : (shiftEcho r v s).fib = s.fib := rfl
@[simp] theorem shiftEcho_mon (r : LaneRef) (v : Word) (s : State) : (shiftEcho r v s).mon = s.mon := rfl
@[simp] theorem shiftEcho_slot (r : LaneRef) (v : Word) (s : State) : (shiftEcho r v s).slot = s.slot := rfl
@[simp] theorem shiftEcho_dirty (r : LaneRef) (v : Word) (s : State) : (shiftEcho r v s).dirty = s.dirty := rfl
@[simp] theorem shiftEcho_buf (r : LaneRef) (v : Word) (s : State) : (shiftEcho r v s).buf = s.buf := rfl
@[simp] theorem shiftEcho_held (r : LaneRef) (v : Word) (s : State) : (shiftEcho r v s).held = s.held := rfl
@[simp] theorem shiftEcho_shad (r : LaneRef) (v : Word) (s : State) : (shiftEcho r v s).shad = s.shad := rfl
@[simp] theorem shiftEcho_fill (r : LaneRef) (v : Word) (s : State) : (shiftEcho r v s).fill = s.fill := rfl
@[simp] theorem shiftEcho_thr (r : LaneRef) (v : Word) (s : State) : (shiftEcho r v s).thr = s.thr := rfl
@[simp] theorem shiftEcho_slices (r : LaneRef) (v : Word) (s : State) : (shiftEcho r v s).slices = s.slices := rfl
@[simp] theorem shiftEcho_serve (r : LaneRef) (v : Word) (s : State) : (shiftEcho r v s).serve = s.serve := rfl
@[simp] theorem shiftEcho_greg (r : LaneRef) (v : Word) (s : State) : (shiftEcho r v s).greg = s.greg := rfl
@[simp] theorem shiftEcho_gpoi (r : LaneRef) (v : Word) (s : State) : (shiftEcho r v s).gpoi = s.gpoi := rfl
@[simp] theorem shiftEcho_gangs (r : LaneRef) (v : Word) (s : State) : (shiftEcho r v s).gangs = s.gangs := rfl
@[simp] theorem shiftEcho_units (r : LaneRef) (v : Word) (s : State) : (shiftEcho r v s).units = s.units := rfl
@[simp] theorem shiftEcho_hstage (r : LaneRef) (v : Word) (s : State) : (shiftEcho r v s).hstage = s.hstage := rfl
@[simp] theorem shiftEcho_scr (r : LaneRef) (v : Word) (s : State) : (shiftEcho r v s).scr = s.scr := rfl
@[simp] theorem shiftEcho_scrpoi (r : LaneRef) (v : Word) (s : State) : (shiftEcho r v s).scrpoi = s.scrpoi := rfl
@[simp] theorem shiftEcho_l1 (r : LaneRef) (v : Word) (s : State) : (shiftEcho r v s).l1 = s.l1 := rfl
@[simp] theorem shiftEcho_wq (r : LaneRef) (v : Word) (s : State) : (shiftEcho r v s).wq = s.wq := rfl
@[simp] theorem shiftEcho_tlbCore (r : LaneRef) (v : Word) (s : State) : (shiftEcho r v s).tlbCore = s.tlbCore := rfl
@[simp] theorem shiftEcho_tlbCluster (r : LaneRef) (v : Word) (s : State) : (shiftEcho r v s).tlbCluster = s.tlbCluster := rfl
@[simp] theorem shiftEcho_copies (r : LaneRef) (v : Word) (s : State) : (shiftEcho r v s).copies = s.copies := rfl
@[simp] theorem shiftEcho_mats (r : LaneRef) (v : Word) (s : State) : (shiftEcho r v s).mats = s.mats := rfl
@[simp] theorem shiftEcho_copyLog (r : LaneRef) (v : Word) (s : State) : (shiftEcho r v s).copyLog = s.copyLog := rfl
@[simp] theorem shiftEcho_matLog (r : LaneRef) (v : Word) (s : State) : (shiftEcho r v s).matLog = s.matLog := rfl
@[simp] theorem shiftEcho_acc (r : LaneRef) (v : Word) (s : State) : (shiftEcho r v s).acc = s.acc := rfl
@[simp] theorem shiftEcho_accpoi (r : LaneRef) (v : Word) (s : State) : (shiftEcho r v s).accpoi = s.accpoi := rfl
@[simp] theorem shiftEcho_passes (r : LaneRef) (v : Word) (s : State) : (shiftEcho r v s).passes = s.passes := rfl
@[simp] theorem shiftEcho_opbuf (r : LaneRef) (v : Word) (s : State) : (shiftEcho r v s).opbuf = s.opbuf := rfl
@[simp] theorem shiftEcho_oppoi (r : LaneRef) (v : Word) (s : State) : (shiftEcho r v s).oppoi = s.oppoi := rfl
@[simp] theorem shiftEcho_oprecs (r : LaneRef) (v : Word) (s : State) : (shiftEcho r v s).oprecs = s.oprecs := rfl
@[simp] theorem shiftEcho_baton (r : LaneRef) (v : Word) (s : State) : (shiftEcho r v s).baton = s.baton := rfl
@[simp] theorem shiftEcho_batonq (r : LaneRef) (v : Word) (s : State) : (shiftEcho r v s).batonq = s.batonq := rfl
@[simp] theorem shiftEcho_fenced (r : LaneRef) (v : Word) (s : State) : (shiftEcho r v s).fenced = s.fenced := rfl
@[simp] theorem shiftEcho_fencing (r : LaneRef) (v : Word) (s : State) : (shiftEcho r v s).fencing = s.fencing := rfl
@[simp] theorem shiftEcho_mem (r : LaneRef) (v : Word) (s : State) : (shiftEcho r v s).mem = s.mem := rfl
@[simp] theorem shiftEcho_mempoi (r : LaneRef) (v : Word) (s : State) : (shiftEcho r v s).mempoi = s.mempoi := rfl
@[simp] theorem shiftEcho_ctxs (r : LaneRef) (v : Word) (s : State) : (shiftEcho r v s).ctxs = s.ctxs := rfl
@[simp] theorem shiftEcho_modules (r : LaneRef) (v : Word) (s : State) : (shiftEcho r v s).modules = s.modules := rfl
@[simp] theorem shiftEcho_cache (r : LaneRef) (v : Word) (s : State) : (shiftEcho r v s).cache = s.cache := rfl
@[simp] theorem shiftEcho_lodes (r : LaneRef) (v : Word) (s : State) : (shiftEcho r v s).lodes = s.lodes := rfl
@[simp] theorem shiftEcho_lodeOwner (r : LaneRef) (v : Word) (s : State) : (shiftEcho r v s).lodeOwner = s.lodeOwner := rfl
@[simp] theorem shiftEcho_graphs (r : LaneRef) (v : Word) (s : State) : (shiftEcho r v s).graphs = s.graphs := rfl
@[simp] theorem shiftEcho_trigs (r : LaneRef) (v : Word) (s : State) : (shiftEcho r v s).trigs = s.trigs := rfl
@[simp] theorem shiftEcho_launches (r : LaneRef) (v : Word) (s : State) : (shiftEcho r v s).launches = s.launches := rfl
@[simp] theorem shiftEcho_parks (r : LaneRef) (v : Word) (s : State) : (shiftEcho r v s).parks = s.parks := rfl
@[simp] theorem shiftEcho_frecs (r : LaneRef) (v : Word) (s : State) : (shiftEcho r v s).frecs = s.frecs := rfl
@[simp] theorem shiftEcho_quota (r : LaneRef) (v : Word) (s : State) : (shiftEcho r v s).quota = s.quota := rfl
@[simp] theorem shiftEcho_links (r : LaneRef) (v : Word) (s : State) : (shiftEcho r v s).links = s.links := rfl
@[simp] theorem shiftEcho_pkgid (r : LaneRef) (v : Word) (s : State) : (shiftEcho r v s).pkgid = s.pkgid := rfl
@[simp] theorem shiftEcho_replies (r : LaneRef) (v : Word) (s : State) : (shiftEcho r v s).replies = s.replies := rfl
@[simp] theorem shiftEcho_updates (r : LaneRef) (v : Word) (s : State) : (shiftEcho r v s).updates = s.updates := rfl
@[simp] theorem shiftEcho_health (r : LaneRef) (v : Word) (s : State) : (shiftEcho r v s).health = s.health := rfl
@[simp] theorem shiftEcho_replaceF (r : LaneRef) (v : Word) (s : State) : (shiftEcho r v s).replaceF = s.replaceF := rfl
@[simp] theorem shiftEcho_drain (r : LaneRef) (v : Word) (s : State) : (shiftEcho r v s).drain = s.drain := rfl
@[simp] theorem shiftEcho_dieover (r : LaneRef) (v : Word) (s : State) : (shiftEcho r v s).dieover = s.dieover := rfl
@[simp] theorem shiftEcho_diedead (r : LaneRef) (v : Word) (s : State) : (shiftEcho r v s).diedead = s.diedead := rfl
@[simp] theorem shiftEcho_chanoff (r : LaneRef) (v : Word) (s : State) : (shiftEcho r v s).chanoff = s.chanoff := rfl
@[simp] theorem shiftEcho_coreCtr (r : LaneRef) (v : Word) (s : State) : (shiftEcho r v s).coreCtr = s.coreCtr := rfl
@[simp] theorem shiftEcho_dieCtr (r : LaneRef) (v : Word) (s : State) : (shiftEcho r v s).dieCtr = s.dieCtr := rfl
@[simp] theorem shiftEcho_measure (r : LaneRef) (v : Word) (s : State) : (shiftEcho r v s).measure = s.measure := rfl
@[simp] theorem shiftEcho_booted (r : LaneRef) (v : Word) (s : State) : (shiftEcho r v s).booted = s.booted := rfl
@[simp] theorem shiftEcho_cxl (r : LaneRef) (v : Word) (s : State) : (shiftEcho r v s).cxl = s.cxl := rfl
@[simp] theorem shiftEcho_vfs (r : LaneRef) (v : Word) (s : State) : (shiftEcho r v s).vfs = s.vfs := rfl
@[simp] theorem shiftEcho_revoked (r : LaneRef) (v : Word) (s : State) : (shiftEcho r v s).revoked = s.revoked := rfl
@[simp] theorem shiftEcho_svn (r : LaneRef) (v : Word) (s : State) : (shiftEcho r v s).svn = s.svn := rfl
@[simp] theorem shiftEcho_flashNs (r : LaneRef) (v : Word) (s : State) : (shiftEcho r v s).flashNs = s.flashNs := rfl
@[simp] theorem shiftEcho_cap (r : LaneRef) (v : Word) (s : State) : (shiftEcho r v s).cap = s.cap := rfl
@[simp] theorem shiftEcho_mhz (r : LaneRef) (v : Word) (s : State) : (shiftEcho r v s).mhz = s.mhz := rfl
@[simp] theorem shiftEcho_off (r : LaneRef) (v : Word) (s : State) : (shiftEcho r v s).off = s.off := rfl
@[simp] theorem shiftEcho_msix (r : LaneRef) (v : Word) (s : State) : (shiftEcho r v s).msix = s.msix := rfl
@[simp] theorem shiftEcho_out (r : LaneRef) (v : Word) (s : State) : (shiftEcho r v s).out = s.out := rfl

/-! ### setGreg -/

@[simp] theorem setGreg_agenda (g : GangId) (n : Nat) (v : Word) (s : State) : (setGreg g n v s).agenda = s.agenda := rfl
@[simp] theorem setGreg_cur (g : GangId) (n : Nat) (v : Word) (s : State) : (setGreg g n v s).cur = s.cur := rfl
@[simp] theorem setGreg_pgs (g : GangId) (n : Nat) (v : Word) (s : State) : (setGreg g n v s).pgs = s.pgs := rfl
@[simp] theorem setGreg_secs (g : GangId) (n : Nat) (v : Word) (s : State) : (setGreg g n v s).secs = s.secs := rfl
@[simp] theorem setGreg_clock (g : GangId) (n : Nat) (v : Word) (s : State) : (setGreg g n v s).clock = s.clock := rfl
@[simp] theorem setGreg_free (g : GangId) (n : Nat) (v : Word) (s : State) : (setGreg g n v s).free = s.free := rfl
@[simp] theorem setGreg_fresh (g : GangId) (n : Nat) (v : Word) (s : State) : (setGreg g n v s).fresh = s.fresh := rfl
@[simp] theorem setGreg_vreg (g : GangId) (n : Nat) (v : Word) (s : State) : (setGreg g n v s).vreg = s.vreg := rfl
@[simp] theorem setGreg_vpoi (g : GangId) (n : Nat) (v : Word) (s : State) : (setGreg g n v s).vpoi = s.vpoi := rfl
@[simp] theorem setGreg_fib (g : GangId) (n : Nat) (v : Word) (s : State) : (setGreg g n v s).fib = s.fib := rfl
@[simp] theorem setGreg_mon (g : GangId) (n : Nat) (v : Word) (s : State) : (setGreg g n v s).mon = s.mon := rfl
@[simp] theorem setGreg_slot (g : GangId) (n : Nat) (v : Word) (s : State) : (setGreg g n v s).slot = s.slot := rfl
@[simp] theorem setGreg_dirty (g : GangId) (n : Nat) (v : Word) (s : State) : (setGreg g n v s).dirty = s.dirty := rfl
@[simp] theorem setGreg_echo (g : GangId) (n : Nat) (v : Word) (s : State) : (setGreg g n v s).echo = s.echo := rfl
@[simp] theorem setGreg_buf (g : GangId) (n : Nat) (v : Word) (s : State) : (setGreg g n v s).buf = s.buf := rfl
@[simp] theorem setGreg_held (g : GangId) (n : Nat) (v : Word) (s : State) : (setGreg g n v s).held = s.held := rfl
@[simp] theorem setGreg_shad (g : GangId) (n : Nat) (v : Word) (s : State) : (setGreg g n v s).shad = s.shad := rfl
@[simp] theorem setGreg_fill (g : GangId) (n : Nat) (v : Word) (s : State) : (setGreg g n v s).fill = s.fill := rfl
@[simp] theorem setGreg_thr (g : GangId) (n : Nat) (v : Word) (s : State) : (setGreg g n v s).thr = s.thr := rfl
@[simp] theorem setGreg_slices (g : GangId) (n : Nat) (v : Word) (s : State) : (setGreg g n v s).slices = s.slices := rfl
@[simp] theorem setGreg_serve (g : GangId) (n : Nat) (v : Word) (s : State) : (setGreg g n v s).serve = s.serve := rfl
@[simp] theorem setGreg_greg (g : GangId) (n : Nat) (v : Word) (s : State) : (setGreg g n v s).greg = s.greg.set ⟨g, n⟩ v := rfl
@[simp] theorem setGreg_gpoi (g : GangId) (n : Nat) (v : Word) (s : State) : (setGreg g n v s).gpoi = s.gpoi.filter (· != ⟨g, n⟩) := rfl
@[simp] theorem setGreg_gangs (g : GangId) (n : Nat) (v : Word) (s : State) : (setGreg g n v s).gangs = s.gangs := rfl
@[simp] theorem setGreg_units (g : GangId) (n : Nat) (v : Word) (s : State) : (setGreg g n v s).units = s.units := rfl
@[simp] theorem setGreg_hstage (g : GangId) (n : Nat) (v : Word) (s : State) : (setGreg g n v s).hstage = s.hstage := rfl
@[simp] theorem setGreg_scr (g : GangId) (n : Nat) (v : Word) (s : State) : (setGreg g n v s).scr = s.scr := rfl
@[simp] theorem setGreg_scrpoi (g : GangId) (n : Nat) (v : Word) (s : State) : (setGreg g n v s).scrpoi = s.scrpoi := rfl
@[simp] theorem setGreg_l1 (g : GangId) (n : Nat) (v : Word) (s : State) : (setGreg g n v s).l1 = s.l1 := rfl
@[simp] theorem setGreg_wq (g : GangId) (n : Nat) (v : Word) (s : State) : (setGreg g n v s).wq = s.wq := rfl
@[simp] theorem setGreg_tlbCore (g : GangId) (n : Nat) (v : Word) (s : State) : (setGreg g n v s).tlbCore = s.tlbCore := rfl
@[simp] theorem setGreg_tlbCluster (g : GangId) (n : Nat) (v : Word) (s : State) : (setGreg g n v s).tlbCluster = s.tlbCluster := rfl
@[simp] theorem setGreg_copies (g : GangId) (n : Nat) (v : Word) (s : State) : (setGreg g n v s).copies = s.copies := rfl
@[simp] theorem setGreg_mats (g : GangId) (n : Nat) (v : Word) (s : State) : (setGreg g n v s).mats = s.mats := rfl
@[simp] theorem setGreg_copyLog (g : GangId) (n : Nat) (v : Word) (s : State) : (setGreg g n v s).copyLog = s.copyLog := rfl
@[simp] theorem setGreg_matLog (g : GangId) (n : Nat) (v : Word) (s : State) : (setGreg g n v s).matLog = s.matLog := rfl
@[simp] theorem setGreg_acc (g : GangId) (n : Nat) (v : Word) (s : State) : (setGreg g n v s).acc = s.acc := rfl
@[simp] theorem setGreg_accpoi (g : GangId) (n : Nat) (v : Word) (s : State) : (setGreg g n v s).accpoi = s.accpoi := rfl
@[simp] theorem setGreg_passes (g : GangId) (n : Nat) (v : Word) (s : State) : (setGreg g n v s).passes = s.passes := rfl
@[simp] theorem setGreg_opbuf (g : GangId) (n : Nat) (v : Word) (s : State) : (setGreg g n v s).opbuf = s.opbuf := rfl
@[simp] theorem setGreg_oppoi (g : GangId) (n : Nat) (v : Word) (s : State) : (setGreg g n v s).oppoi = s.oppoi := rfl
@[simp] theorem setGreg_oprecs (g : GangId) (n : Nat) (v : Word) (s : State) : (setGreg g n v s).oprecs = s.oprecs := rfl
@[simp] theorem setGreg_baton (g : GangId) (n : Nat) (v : Word) (s : State) : (setGreg g n v s).baton = s.baton := rfl
@[simp] theorem setGreg_batonq (g : GangId) (n : Nat) (v : Word) (s : State) : (setGreg g n v s).batonq = s.batonq := rfl
@[simp] theorem setGreg_fenced (g : GangId) (n : Nat) (v : Word) (s : State) : (setGreg g n v s).fenced = s.fenced := rfl
@[simp] theorem setGreg_fencing (g : GangId) (n : Nat) (v : Word) (s : State) : (setGreg g n v s).fencing = s.fencing := rfl
@[simp] theorem setGreg_mem (g : GangId) (n : Nat) (v : Word) (s : State) : (setGreg g n v s).mem = s.mem := rfl
@[simp] theorem setGreg_mempoi (g : GangId) (n : Nat) (v : Word) (s : State) : (setGreg g n v s).mempoi = s.mempoi := rfl
@[simp] theorem setGreg_ctxs (g : GangId) (n : Nat) (v : Word) (s : State) : (setGreg g n v s).ctxs = s.ctxs := rfl
@[simp] theorem setGreg_modules (g : GangId) (n : Nat) (v : Word) (s : State) : (setGreg g n v s).modules = s.modules := rfl
@[simp] theorem setGreg_cache (g : GangId) (n : Nat) (v : Word) (s : State) : (setGreg g n v s).cache = s.cache := rfl
@[simp] theorem setGreg_lodes (g : GangId) (n : Nat) (v : Word) (s : State) : (setGreg g n v s).lodes = s.lodes := rfl
@[simp] theorem setGreg_lodeOwner (g : GangId) (n : Nat) (v : Word) (s : State) : (setGreg g n v s).lodeOwner = s.lodeOwner := rfl
@[simp] theorem setGreg_graphs (g : GangId) (n : Nat) (v : Word) (s : State) : (setGreg g n v s).graphs = s.graphs := rfl
@[simp] theorem setGreg_trigs (g : GangId) (n : Nat) (v : Word) (s : State) : (setGreg g n v s).trigs = s.trigs := rfl
@[simp] theorem setGreg_launches (g : GangId) (n : Nat) (v : Word) (s : State) : (setGreg g n v s).launches = s.launches := rfl
@[simp] theorem setGreg_parks (g : GangId) (n : Nat) (v : Word) (s : State) : (setGreg g n v s).parks = s.parks := rfl
@[simp] theorem setGreg_frecs (g : GangId) (n : Nat) (v : Word) (s : State) : (setGreg g n v s).frecs = s.frecs := rfl
@[simp] theorem setGreg_quota (g : GangId) (n : Nat) (v : Word) (s : State) : (setGreg g n v s).quota = s.quota := rfl
@[simp] theorem setGreg_links (g : GangId) (n : Nat) (v : Word) (s : State) : (setGreg g n v s).links = s.links := rfl
@[simp] theorem setGreg_pkgid (g : GangId) (n : Nat) (v : Word) (s : State) : (setGreg g n v s).pkgid = s.pkgid := rfl
@[simp] theorem setGreg_replies (g : GangId) (n : Nat) (v : Word) (s : State) : (setGreg g n v s).replies = s.replies := rfl
@[simp] theorem setGreg_updates (g : GangId) (n : Nat) (v : Word) (s : State) : (setGreg g n v s).updates = s.updates := rfl
@[simp] theorem setGreg_health (g : GangId) (n : Nat) (v : Word) (s : State) : (setGreg g n v s).health = s.health := rfl
@[simp] theorem setGreg_replaceF (g : GangId) (n : Nat) (v : Word) (s : State) : (setGreg g n v s).replaceF = s.replaceF := rfl
@[simp] theorem setGreg_drain (g : GangId) (n : Nat) (v : Word) (s : State) : (setGreg g n v s).drain = s.drain := rfl
@[simp] theorem setGreg_dieover (g : GangId) (n : Nat) (v : Word) (s : State) : (setGreg g n v s).dieover = s.dieover := rfl
@[simp] theorem setGreg_diedead (g : GangId) (n : Nat) (v : Word) (s : State) : (setGreg g n v s).diedead = s.diedead := rfl
@[simp] theorem setGreg_chanoff (g : GangId) (n : Nat) (v : Word) (s : State) : (setGreg g n v s).chanoff = s.chanoff := rfl
@[simp] theorem setGreg_coreCtr (g : GangId) (n : Nat) (v : Word) (s : State) : (setGreg g n v s).coreCtr = s.coreCtr := rfl
@[simp] theorem setGreg_dieCtr (g : GangId) (n : Nat) (v : Word) (s : State) : (setGreg g n v s).dieCtr = s.dieCtr := rfl
@[simp] theorem setGreg_measure (g : GangId) (n : Nat) (v : Word) (s : State) : (setGreg g n v s).measure = s.measure := rfl
@[simp] theorem setGreg_booted (g : GangId) (n : Nat) (v : Word) (s : State) : (setGreg g n v s).booted = s.booted := rfl
@[simp] theorem setGreg_cxl (g : GangId) (n : Nat) (v : Word) (s : State) : (setGreg g n v s).cxl = s.cxl := rfl
@[simp] theorem setGreg_vfs (g : GangId) (n : Nat) (v : Word) (s : State) : (setGreg g n v s).vfs = s.vfs := rfl
@[simp] theorem setGreg_revoked (g : GangId) (n : Nat) (v : Word) (s : State) : (setGreg g n v s).revoked = s.revoked := rfl
@[simp] theorem setGreg_svn (g : GangId) (n : Nat) (v : Word) (s : State) : (setGreg g n v s).svn = s.svn := rfl
@[simp] theorem setGreg_flashNs (g : GangId) (n : Nat) (v : Word) (s : State) : (setGreg g n v s).flashNs = s.flashNs := rfl
@[simp] theorem setGreg_cap (g : GangId) (n : Nat) (v : Word) (s : State) : (setGreg g n v s).cap = s.cap := rfl
@[simp] theorem setGreg_mhz (g : GangId) (n : Nat) (v : Word) (s : State) : (setGreg g n v s).mhz = s.mhz := rfl
@[simp] theorem setGreg_off (g : GangId) (n : Nat) (v : Word) (s : State) : (setGreg g n v s).off = s.off := rfl
@[simp] theorem setGreg_msix (g : GangId) (n : Nat) (v : Word) (s : State) : (setGreg g n v s).msix = s.msix := rfl
@[simp] theorem setGreg_out (g : GangId) (n : Nat) (v : Word) (s : State) : (setGreg g n v s).out = s.out := rfl

/-! ### modThread -/

@[simp] theorem modThread_agenda (i : ThreadId) (f : Thread → Thread) (s : State) : (modThread i f s).agenda = s.agenda := rfl
@[simp] theorem modThread_cur (i : ThreadId) (f : Thread → Thread) (s : State) : (modThread i f s).cur = s.cur := rfl
@[simp] theorem modThread_pgs (i : ThreadId) (f : Thread → Thread) (s : State) : (modThread i f s).pgs = s.pgs := rfl
@[simp] theorem modThread_secs (i : ThreadId) (f : Thread → Thread) (s : State) : (modThread i f s).secs = s.secs := rfl
@[simp] theorem modThread_clock (i : ThreadId) (f : Thread → Thread) (s : State) : (modThread i f s).clock = s.clock := rfl
@[simp] theorem modThread_free (i : ThreadId) (f : Thread → Thread) (s : State) : (modThread i f s).free = s.free := rfl
@[simp] theorem modThread_fresh (i : ThreadId) (f : Thread → Thread) (s : State) : (modThread i f s).fresh = s.fresh := rfl
@[simp] theorem modThread_vreg (i : ThreadId) (f : Thread → Thread) (s : State) : (modThread i f s).vreg = s.vreg := rfl
@[simp] theorem modThread_vpoi (i : ThreadId) (f : Thread → Thread) (s : State) : (modThread i f s).vpoi = s.vpoi := rfl
@[simp] theorem modThread_fib (i : ThreadId) (f : Thread → Thread) (s : State) : (modThread i f s).fib = s.fib := rfl
@[simp] theorem modThread_mon (i : ThreadId) (f : Thread → Thread) (s : State) : (modThread i f s).mon = s.mon := rfl
@[simp] theorem modThread_slot (i : ThreadId) (f : Thread → Thread) (s : State) : (modThread i f s).slot = s.slot := rfl
@[simp] theorem modThread_dirty (i : ThreadId) (f : Thread → Thread) (s : State) : (modThread i f s).dirty = s.dirty := rfl
@[simp] theorem modThread_echo (i : ThreadId) (f : Thread → Thread) (s : State) : (modThread i f s).echo = s.echo := rfl
@[simp] theorem modThread_buf (i : ThreadId) (f : Thread → Thread) (s : State) : (modThread i f s).buf = s.buf := rfl
@[simp] theorem modThread_held (i : ThreadId) (f : Thread → Thread) (s : State) : (modThread i f s).held = s.held := rfl
@[simp] theorem modThread_shad (i : ThreadId) (f : Thread → Thread) (s : State) : (modThread i f s).shad = s.shad := rfl
@[simp] theorem modThread_fill (i : ThreadId) (f : Thread → Thread) (s : State) : (modThread i f s).fill = s.fill := rfl
@[simp] theorem modThread_thr (i : ThreadId) (f : Thread → Thread) (s : State) : (modThread i f s).thr = s.thr.modify i {} f := rfl
@[simp] theorem modThread_slices (i : ThreadId) (f : Thread → Thread) (s : State) : (modThread i f s).slices = s.slices := rfl
@[simp] theorem modThread_serve (i : ThreadId) (f : Thread → Thread) (s : State) : (modThread i f s).serve = s.serve := rfl
@[simp] theorem modThread_greg (i : ThreadId) (f : Thread → Thread) (s : State) : (modThread i f s).greg = s.greg := rfl
@[simp] theorem modThread_gpoi (i : ThreadId) (f : Thread → Thread) (s : State) : (modThread i f s).gpoi = s.gpoi := rfl
@[simp] theorem modThread_gangs (i : ThreadId) (f : Thread → Thread) (s : State) : (modThread i f s).gangs = s.gangs := rfl
@[simp] theorem modThread_units (i : ThreadId) (f : Thread → Thread) (s : State) : (modThread i f s).units = s.units := rfl
@[simp] theorem modThread_hstage (i : ThreadId) (f : Thread → Thread) (s : State) : (modThread i f s).hstage = s.hstage := rfl
@[simp] theorem modThread_scr (i : ThreadId) (f : Thread → Thread) (s : State) : (modThread i f s).scr = s.scr := rfl
@[simp] theorem modThread_scrpoi (i : ThreadId) (f : Thread → Thread) (s : State) : (modThread i f s).scrpoi = s.scrpoi := rfl
@[simp] theorem modThread_l1 (i : ThreadId) (f : Thread → Thread) (s : State) : (modThread i f s).l1 = s.l1 := rfl
@[simp] theorem modThread_wq (i : ThreadId) (f : Thread → Thread) (s : State) : (modThread i f s).wq = s.wq := rfl
@[simp] theorem modThread_tlbCore (i : ThreadId) (f : Thread → Thread) (s : State) : (modThread i f s).tlbCore = s.tlbCore := rfl
@[simp] theorem modThread_tlbCluster (i : ThreadId) (f : Thread → Thread) (s : State) : (modThread i f s).tlbCluster = s.tlbCluster := rfl
@[simp] theorem modThread_copies (i : ThreadId) (f : Thread → Thread) (s : State) : (modThread i f s).copies = s.copies := rfl
@[simp] theorem modThread_mats (i : ThreadId) (f : Thread → Thread) (s : State) : (modThread i f s).mats = s.mats := rfl
@[simp] theorem modThread_copyLog (i : ThreadId) (f : Thread → Thread) (s : State) : (modThread i f s).copyLog = s.copyLog := rfl
@[simp] theorem modThread_matLog (i : ThreadId) (f : Thread → Thread) (s : State) : (modThread i f s).matLog = s.matLog := rfl
@[simp] theorem modThread_acc (i : ThreadId) (f : Thread → Thread) (s : State) : (modThread i f s).acc = s.acc := rfl
@[simp] theorem modThread_accpoi (i : ThreadId) (f : Thread → Thread) (s : State) : (modThread i f s).accpoi = s.accpoi := rfl
@[simp] theorem modThread_passes (i : ThreadId) (f : Thread → Thread) (s : State) : (modThread i f s).passes = s.passes := rfl
@[simp] theorem modThread_opbuf (i : ThreadId) (f : Thread → Thread) (s : State) : (modThread i f s).opbuf = s.opbuf := rfl
@[simp] theorem modThread_oppoi (i : ThreadId) (f : Thread → Thread) (s : State) : (modThread i f s).oppoi = s.oppoi := rfl
@[simp] theorem modThread_oprecs (i : ThreadId) (f : Thread → Thread) (s : State) : (modThread i f s).oprecs = s.oprecs := rfl
@[simp] theorem modThread_baton (i : ThreadId) (f : Thread → Thread) (s : State) : (modThread i f s).baton = s.baton := rfl
@[simp] theorem modThread_batonq (i : ThreadId) (f : Thread → Thread) (s : State) : (modThread i f s).batonq = s.batonq := rfl
@[simp] theorem modThread_fenced (i : ThreadId) (f : Thread → Thread) (s : State) : (modThread i f s).fenced = s.fenced := rfl
@[simp] theorem modThread_fencing (i : ThreadId) (f : Thread → Thread) (s : State) : (modThread i f s).fencing = s.fencing := rfl
@[simp] theorem modThread_mem (i : ThreadId) (f : Thread → Thread) (s : State) : (modThread i f s).mem = s.mem := rfl
@[simp] theorem modThread_mempoi (i : ThreadId) (f : Thread → Thread) (s : State) : (modThread i f s).mempoi = s.mempoi := rfl
@[simp] theorem modThread_ctxs (i : ThreadId) (f : Thread → Thread) (s : State) : (modThread i f s).ctxs = s.ctxs := rfl
@[simp] theorem modThread_modules (i : ThreadId) (f : Thread → Thread) (s : State) : (modThread i f s).modules = s.modules := rfl
@[simp] theorem modThread_cache (i : ThreadId) (f : Thread → Thread) (s : State) : (modThread i f s).cache = s.cache := rfl
@[simp] theorem modThread_lodes (i : ThreadId) (f : Thread → Thread) (s : State) : (modThread i f s).lodes = s.lodes := rfl
@[simp] theorem modThread_lodeOwner (i : ThreadId) (f : Thread → Thread) (s : State) : (modThread i f s).lodeOwner = s.lodeOwner := rfl
@[simp] theorem modThread_graphs (i : ThreadId) (f : Thread → Thread) (s : State) : (modThread i f s).graphs = s.graphs := rfl
@[simp] theorem modThread_trigs (i : ThreadId) (f : Thread → Thread) (s : State) : (modThread i f s).trigs = s.trigs := rfl
@[simp] theorem modThread_launches (i : ThreadId) (f : Thread → Thread) (s : State) : (modThread i f s).launches = s.launches := rfl
@[simp] theorem modThread_parks (i : ThreadId) (f : Thread → Thread) (s : State) : (modThread i f s).parks = s.parks := rfl
@[simp] theorem modThread_frecs (i : ThreadId) (f : Thread → Thread) (s : State) : (modThread i f s).frecs = s.frecs := rfl
@[simp] theorem modThread_quota (i : ThreadId) (f : Thread → Thread) (s : State) : (modThread i f s).quota = s.quota := rfl
@[simp] theorem modThread_links (i : ThreadId) (f : Thread → Thread) (s : State) : (modThread i f s).links = s.links := rfl
@[simp] theorem modThread_pkgid (i : ThreadId) (f : Thread → Thread) (s : State) : (modThread i f s).pkgid = s.pkgid := rfl
@[simp] theorem modThread_replies (i : ThreadId) (f : Thread → Thread) (s : State) : (modThread i f s).replies = s.replies := rfl
@[simp] theorem modThread_updates (i : ThreadId) (f : Thread → Thread) (s : State) : (modThread i f s).updates = s.updates := rfl
@[simp] theorem modThread_health (i : ThreadId) (f : Thread → Thread) (s : State) : (modThread i f s).health = s.health := rfl
@[simp] theorem modThread_replaceF (i : ThreadId) (f : Thread → Thread) (s : State) : (modThread i f s).replaceF = s.replaceF := rfl
@[simp] theorem modThread_drain (i : ThreadId) (f : Thread → Thread) (s : State) : (modThread i f s).drain = s.drain := rfl
@[simp] theorem modThread_dieover (i : ThreadId) (f : Thread → Thread) (s : State) : (modThread i f s).dieover = s.dieover := rfl
@[simp] theorem modThread_diedead (i : ThreadId) (f : Thread → Thread) (s : State) : (modThread i f s).diedead = s.diedead := rfl
@[simp] theorem modThread_chanoff (i : ThreadId) (f : Thread → Thread) (s : State) : (modThread i f s).chanoff = s.chanoff := rfl
@[simp] theorem modThread_coreCtr (i : ThreadId) (f : Thread → Thread) (s : State) : (modThread i f s).coreCtr = s.coreCtr := rfl
@[simp] theorem modThread_dieCtr (i : ThreadId) (f : Thread → Thread) (s : State) : (modThread i f s).dieCtr = s.dieCtr := rfl
@[simp] theorem modThread_measure (i : ThreadId) (f : Thread → Thread) (s : State) : (modThread i f s).measure = s.measure := rfl
@[simp] theorem modThread_booted (i : ThreadId) (f : Thread → Thread) (s : State) : (modThread i f s).booted = s.booted := rfl
@[simp] theorem modThread_cxl (i : ThreadId) (f : Thread → Thread) (s : State) : (modThread i f s).cxl = s.cxl := rfl
@[simp] theorem modThread_vfs (i : ThreadId) (f : Thread → Thread) (s : State) : (modThread i f s).vfs = s.vfs := rfl
@[simp] theorem modThread_revoked (i : ThreadId) (f : Thread → Thread) (s : State) : (modThread i f s).revoked = s.revoked := rfl
@[simp] theorem modThread_svn (i : ThreadId) (f : Thread → Thread) (s : State) : (modThread i f s).svn = s.svn := rfl
@[simp] theorem modThread_flashNs (i : ThreadId) (f : Thread → Thread) (s : State) : (modThread i f s).flashNs = s.flashNs := rfl
@[simp] theorem modThread_cap (i : ThreadId) (f : Thread → Thread) (s : State) : (modThread i f s).cap = s.cap := rfl
@[simp] theorem modThread_mhz (i : ThreadId) (f : Thread → Thread) (s : State) : (modThread i f s).mhz = s.mhz := rfl
@[simp] theorem modThread_off (i : ThreadId) (f : Thread → Thread) (s : State) : (modThread i f s).off = s.off := rfl
@[simp] theorem modThread_msix (i : ThreadId) (f : Thread → Thread) (s : State) : (modThread i f s).msix = s.msix := rfl
@[simp] theorem modThread_out (i : ThreadId) (f : Thread → Thread) (s : State) : (modThread i f s).out = s.out := rfl

/-! ### modGang -/

@[simp] theorem modGang_agenda (i : GangId) (f : Gang → Gang) (s : State) : (modGang i f s).agenda = s.agenda := rfl
@[simp] theorem modGang_cur (i : GangId) (f : Gang → Gang) (s : State) : (modGang i f s).cur = s.cur := rfl
@[simp] theorem modGang_pgs (i : GangId) (f : Gang → Gang) (s : State) : (modGang i f s).pgs = s.pgs := rfl
@[simp] theorem modGang_secs (i : GangId) (f : Gang → Gang) (s : State) : (modGang i f s).secs = s.secs := rfl
@[simp] theorem modGang_clock (i : GangId) (f : Gang → Gang) (s : State) : (modGang i f s).clock = s.clock := rfl
@[simp] theorem modGang_free (i : GangId) (f : Gang → Gang) (s : State) : (modGang i f s).free = s.free := rfl
@[simp] theorem modGang_fresh (i : GangId) (f : Gang → Gang) (s : State) : (modGang i f s).fresh = s.fresh := rfl
@[simp] theorem modGang_vreg (i : GangId) (f : Gang → Gang) (s : State) : (modGang i f s).vreg = s.vreg := rfl
@[simp] theorem modGang_vpoi (i : GangId) (f : Gang → Gang) (s : State) : (modGang i f s).vpoi = s.vpoi := rfl
@[simp] theorem modGang_fib (i : GangId) (f : Gang → Gang) (s : State) : (modGang i f s).fib = s.fib := rfl
@[simp] theorem modGang_mon (i : GangId) (f : Gang → Gang) (s : State) : (modGang i f s).mon = s.mon := rfl
@[simp] theorem modGang_slot (i : GangId) (f : Gang → Gang) (s : State) : (modGang i f s).slot = s.slot := rfl
@[simp] theorem modGang_dirty (i : GangId) (f : Gang → Gang) (s : State) : (modGang i f s).dirty = s.dirty := rfl
@[simp] theorem modGang_echo (i : GangId) (f : Gang → Gang) (s : State) : (modGang i f s).echo = s.echo := rfl
@[simp] theorem modGang_buf (i : GangId) (f : Gang → Gang) (s : State) : (modGang i f s).buf = s.buf := rfl
@[simp] theorem modGang_held (i : GangId) (f : Gang → Gang) (s : State) : (modGang i f s).held = s.held := rfl
@[simp] theorem modGang_shad (i : GangId) (f : Gang → Gang) (s : State) : (modGang i f s).shad = s.shad := rfl
@[simp] theorem modGang_fill (i : GangId) (f : Gang → Gang) (s : State) : (modGang i f s).fill = s.fill := rfl
@[simp] theorem modGang_thr (i : GangId) (f : Gang → Gang) (s : State) : (modGang i f s).thr = s.thr := rfl
@[simp] theorem modGang_slices (i : GangId) (f : Gang → Gang) (s : State) : (modGang i f s).slices = s.slices := rfl
@[simp] theorem modGang_serve (i : GangId) (f : Gang → Gang) (s : State) : (modGang i f s).serve = s.serve := rfl
@[simp] theorem modGang_greg (i : GangId) (f : Gang → Gang) (s : State) : (modGang i f s).greg = s.greg := rfl
@[simp] theorem modGang_gpoi (i : GangId) (f : Gang → Gang) (s : State) : (modGang i f s).gpoi = s.gpoi := rfl
@[simp] theorem modGang_gangs (i : GangId) (f : Gang → Gang) (s : State) : (modGang i f s).gangs = s.gangs.modify i {} f := rfl
@[simp] theorem modGang_units (i : GangId) (f : Gang → Gang) (s : State) : (modGang i f s).units = s.units := rfl
@[simp] theorem modGang_hstage (i : GangId) (f : Gang → Gang) (s : State) : (modGang i f s).hstage = s.hstage := rfl
@[simp] theorem modGang_scr (i : GangId) (f : Gang → Gang) (s : State) : (modGang i f s).scr = s.scr := rfl
@[simp] theorem modGang_scrpoi (i : GangId) (f : Gang → Gang) (s : State) : (modGang i f s).scrpoi = s.scrpoi := rfl
@[simp] theorem modGang_l1 (i : GangId) (f : Gang → Gang) (s : State) : (modGang i f s).l1 = s.l1 := rfl
@[simp] theorem modGang_wq (i : GangId) (f : Gang → Gang) (s : State) : (modGang i f s).wq = s.wq := rfl
@[simp] theorem modGang_tlbCore (i : GangId) (f : Gang → Gang) (s : State) : (modGang i f s).tlbCore = s.tlbCore := rfl
@[simp] theorem modGang_tlbCluster (i : GangId) (f : Gang → Gang) (s : State) : (modGang i f s).tlbCluster = s.tlbCluster := rfl
@[simp] theorem modGang_copies (i : GangId) (f : Gang → Gang) (s : State) : (modGang i f s).copies = s.copies := rfl
@[simp] theorem modGang_mats (i : GangId) (f : Gang → Gang) (s : State) : (modGang i f s).mats = s.mats := rfl
@[simp] theorem modGang_copyLog (i : GangId) (f : Gang → Gang) (s : State) : (modGang i f s).copyLog = s.copyLog := rfl
@[simp] theorem modGang_matLog (i : GangId) (f : Gang → Gang) (s : State) : (modGang i f s).matLog = s.matLog := rfl
@[simp] theorem modGang_acc (i : GangId) (f : Gang → Gang) (s : State) : (modGang i f s).acc = s.acc := rfl
@[simp] theorem modGang_accpoi (i : GangId) (f : Gang → Gang) (s : State) : (modGang i f s).accpoi = s.accpoi := rfl
@[simp] theorem modGang_passes (i : GangId) (f : Gang → Gang) (s : State) : (modGang i f s).passes = s.passes := rfl
@[simp] theorem modGang_opbuf (i : GangId) (f : Gang → Gang) (s : State) : (modGang i f s).opbuf = s.opbuf := rfl
@[simp] theorem modGang_oppoi (i : GangId) (f : Gang → Gang) (s : State) : (modGang i f s).oppoi = s.oppoi := rfl
@[simp] theorem modGang_oprecs (i : GangId) (f : Gang → Gang) (s : State) : (modGang i f s).oprecs = s.oprecs := rfl
@[simp] theorem modGang_baton (i : GangId) (f : Gang → Gang) (s : State) : (modGang i f s).baton = s.baton := rfl
@[simp] theorem modGang_batonq (i : GangId) (f : Gang → Gang) (s : State) : (modGang i f s).batonq = s.batonq := rfl
@[simp] theorem modGang_fenced (i : GangId) (f : Gang → Gang) (s : State) : (modGang i f s).fenced = s.fenced := rfl
@[simp] theorem modGang_fencing (i : GangId) (f : Gang → Gang) (s : State) : (modGang i f s).fencing = s.fencing := rfl
@[simp] theorem modGang_mem (i : GangId) (f : Gang → Gang) (s : State) : (modGang i f s).mem = s.mem := rfl
@[simp] theorem modGang_mempoi (i : GangId) (f : Gang → Gang) (s : State) : (modGang i f s).mempoi = s.mempoi := rfl
@[simp] theorem modGang_ctxs (i : GangId) (f : Gang → Gang) (s : State) : (modGang i f s).ctxs = s.ctxs := rfl
@[simp] theorem modGang_modules (i : GangId) (f : Gang → Gang) (s : State) : (modGang i f s).modules = s.modules := rfl
@[simp] theorem modGang_cache (i : GangId) (f : Gang → Gang) (s : State) : (modGang i f s).cache = s.cache := rfl
@[simp] theorem modGang_lodes (i : GangId) (f : Gang → Gang) (s : State) : (modGang i f s).lodes = s.lodes := rfl
@[simp] theorem modGang_lodeOwner (i : GangId) (f : Gang → Gang) (s : State) : (modGang i f s).lodeOwner = s.lodeOwner := rfl
@[simp] theorem modGang_graphs (i : GangId) (f : Gang → Gang) (s : State) : (modGang i f s).graphs = s.graphs := rfl
@[simp] theorem modGang_trigs (i : GangId) (f : Gang → Gang) (s : State) : (modGang i f s).trigs = s.trigs := rfl
@[simp] theorem modGang_launches (i : GangId) (f : Gang → Gang) (s : State) : (modGang i f s).launches = s.launches := rfl
@[simp] theorem modGang_parks (i : GangId) (f : Gang → Gang) (s : State) : (modGang i f s).parks = s.parks := rfl
@[simp] theorem modGang_frecs (i : GangId) (f : Gang → Gang) (s : State) : (modGang i f s).frecs = s.frecs := rfl
@[simp] theorem modGang_quota (i : GangId) (f : Gang → Gang) (s : State) : (modGang i f s).quota = s.quota := rfl
@[simp] theorem modGang_links (i : GangId) (f : Gang → Gang) (s : State) : (modGang i f s).links = s.links := rfl
@[simp] theorem modGang_pkgid (i : GangId) (f : Gang → Gang) (s : State) : (modGang i f s).pkgid = s.pkgid := rfl
@[simp] theorem modGang_replies (i : GangId) (f : Gang → Gang) (s : State) : (modGang i f s).replies = s.replies := rfl
@[simp] theorem modGang_updates (i : GangId) (f : Gang → Gang) (s : State) : (modGang i f s).updates = s.updates := rfl
@[simp] theorem modGang_health (i : GangId) (f : Gang → Gang) (s : State) : (modGang i f s).health = s.health := rfl
@[simp] theorem modGang_replaceF (i : GangId) (f : Gang → Gang) (s : State) : (modGang i f s).replaceF = s.replaceF := rfl
@[simp] theorem modGang_drain (i : GangId) (f : Gang → Gang) (s : State) : (modGang i f s).drain = s.drain := rfl
@[simp] theorem modGang_dieover (i : GangId) (f : Gang → Gang) (s : State) : (modGang i f s).dieover = s.dieover := rfl
@[simp] theorem modGang_diedead (i : GangId) (f : Gang → Gang) (s : State) : (modGang i f s).diedead = s.diedead := rfl
@[simp] theorem modGang_chanoff (i : GangId) (f : Gang → Gang) (s : State) : (modGang i f s).chanoff = s.chanoff := rfl
@[simp] theorem modGang_coreCtr (i : GangId) (f : Gang → Gang) (s : State) : (modGang i f s).coreCtr = s.coreCtr := rfl
@[simp] theorem modGang_dieCtr (i : GangId) (f : Gang → Gang) (s : State) : (modGang i f s).dieCtr = s.dieCtr := rfl
@[simp] theorem modGang_measure (i : GangId) (f : Gang → Gang) (s : State) : (modGang i f s).measure = s.measure := rfl
@[simp] theorem modGang_booted (i : GangId) (f : Gang → Gang) (s : State) : (modGang i f s).booted = s.booted := rfl
@[simp] theorem modGang_cxl (i : GangId) (f : Gang → Gang) (s : State) : (modGang i f s).cxl = s.cxl := rfl
@[simp] theorem modGang_vfs (i : GangId) (f : Gang → Gang) (s : State) : (modGang i f s).vfs = s.vfs := rfl
@[simp] theorem modGang_revoked (i : GangId) (f : Gang → Gang) (s : State) : (modGang i f s).revoked = s.revoked := rfl
@[simp] theorem modGang_svn (i : GangId) (f : Gang → Gang) (s : State) : (modGang i f s).svn = s.svn := rfl
@[simp] theorem modGang_flashNs (i : GangId) (f : Gang → Gang) (s : State) : (modGang i f s).flashNs = s.flashNs := rfl
@[simp] theorem modGang_cap (i : GangId) (f : Gang → Gang) (s : State) : (modGang i f s).cap = s.cap := rfl
@[simp] theorem modGang_mhz (i : GangId) (f : Gang → Gang) (s : State) : (modGang i f s).mhz = s.mhz := rfl
@[simp] theorem modGang_off (i : GangId) (f : Gang → Gang) (s : State) : (modGang i f s).off = s.off := rfl
@[simp] theorem modGang_msix (i : GangId) (f : Gang → Gang) (s : State) : (modGang i f s).msix = s.msix := rfl
@[simp] theorem modGang_out (i : GangId) (f : Gang → Gang) (s : State) : (modGang i f s).out = s.out := rfl

/-! ### modSlice -/

@[simp] theorem modSlice_agenda (i : SliceId) (f : Slice → Slice) (s : State) : (modSlice i f s).agenda = s.agenda := rfl
@[simp] theorem modSlice_cur (i : SliceId) (f : Slice → Slice) (s : State) : (modSlice i f s).cur = s.cur := rfl
@[simp] theorem modSlice_pgs (i : SliceId) (f : Slice → Slice) (s : State) : (modSlice i f s).pgs = s.pgs := rfl
@[simp] theorem modSlice_secs (i : SliceId) (f : Slice → Slice) (s : State) : (modSlice i f s).secs = s.secs := rfl
@[simp] theorem modSlice_clock (i : SliceId) (f : Slice → Slice) (s : State) : (modSlice i f s).clock = s.clock := rfl
@[simp] theorem modSlice_free (i : SliceId) (f : Slice → Slice) (s : State) : (modSlice i f s).free = s.free := rfl
@[simp] theorem modSlice_fresh (i : SliceId) (f : Slice → Slice) (s : State) : (modSlice i f s).fresh = s.fresh := rfl
@[simp] theorem modSlice_vreg (i : SliceId) (f : Slice → Slice) (s : State) : (modSlice i f s).vreg = s.vreg := rfl
@[simp] theorem modSlice_vpoi (i : SliceId) (f : Slice → Slice) (s : State) : (modSlice i f s).vpoi = s.vpoi := rfl
@[simp] theorem modSlice_fib (i : SliceId) (f : Slice → Slice) (s : State) : (modSlice i f s).fib = s.fib := rfl
@[simp] theorem modSlice_mon (i : SliceId) (f : Slice → Slice) (s : State) : (modSlice i f s).mon = s.mon := rfl
@[simp] theorem modSlice_slot (i : SliceId) (f : Slice → Slice) (s : State) : (modSlice i f s).slot = s.slot := rfl
@[simp] theorem modSlice_dirty (i : SliceId) (f : Slice → Slice) (s : State) : (modSlice i f s).dirty = s.dirty := rfl
@[simp] theorem modSlice_echo (i : SliceId) (f : Slice → Slice) (s : State) : (modSlice i f s).echo = s.echo := rfl
@[simp] theorem modSlice_buf (i : SliceId) (f : Slice → Slice) (s : State) : (modSlice i f s).buf = s.buf := rfl
@[simp] theorem modSlice_held (i : SliceId) (f : Slice → Slice) (s : State) : (modSlice i f s).held = s.held := rfl
@[simp] theorem modSlice_shad (i : SliceId) (f : Slice → Slice) (s : State) : (modSlice i f s).shad = s.shad := rfl
@[simp] theorem modSlice_fill (i : SliceId) (f : Slice → Slice) (s : State) : (modSlice i f s).fill = s.fill := rfl
@[simp] theorem modSlice_thr (i : SliceId) (f : Slice → Slice) (s : State) : (modSlice i f s).thr = s.thr := rfl
@[simp] theorem modSlice_slices (i : SliceId) (f : Slice → Slice) (s : State) : (modSlice i f s).slices = s.slices.modify i {} f := rfl
@[simp] theorem modSlice_serve (i : SliceId) (f : Slice → Slice) (s : State) : (modSlice i f s).serve = s.serve := rfl
@[simp] theorem modSlice_greg (i : SliceId) (f : Slice → Slice) (s : State) : (modSlice i f s).greg = s.greg := rfl
@[simp] theorem modSlice_gpoi (i : SliceId) (f : Slice → Slice) (s : State) : (modSlice i f s).gpoi = s.gpoi := rfl
@[simp] theorem modSlice_gangs (i : SliceId) (f : Slice → Slice) (s : State) : (modSlice i f s).gangs = s.gangs := rfl
@[simp] theorem modSlice_units (i : SliceId) (f : Slice → Slice) (s : State) : (modSlice i f s).units = s.units := rfl
@[simp] theorem modSlice_hstage (i : SliceId) (f : Slice → Slice) (s : State) : (modSlice i f s).hstage = s.hstage := rfl
@[simp] theorem modSlice_scr (i : SliceId) (f : Slice → Slice) (s : State) : (modSlice i f s).scr = s.scr := rfl
@[simp] theorem modSlice_scrpoi (i : SliceId) (f : Slice → Slice) (s : State) : (modSlice i f s).scrpoi = s.scrpoi := rfl
@[simp] theorem modSlice_l1 (i : SliceId) (f : Slice → Slice) (s : State) : (modSlice i f s).l1 = s.l1 := rfl
@[simp] theorem modSlice_wq (i : SliceId) (f : Slice → Slice) (s : State) : (modSlice i f s).wq = s.wq := rfl
@[simp] theorem modSlice_tlbCore (i : SliceId) (f : Slice → Slice) (s : State) : (modSlice i f s).tlbCore = s.tlbCore := rfl
@[simp] theorem modSlice_tlbCluster (i : SliceId) (f : Slice → Slice) (s : State) : (modSlice i f s).tlbCluster = s.tlbCluster := rfl
@[simp] theorem modSlice_copies (i : SliceId) (f : Slice → Slice) (s : State) : (modSlice i f s).copies = s.copies := rfl
@[simp] theorem modSlice_mats (i : SliceId) (f : Slice → Slice) (s : State) : (modSlice i f s).mats = s.mats := rfl
@[simp] theorem modSlice_copyLog (i : SliceId) (f : Slice → Slice) (s : State) : (modSlice i f s).copyLog = s.copyLog := rfl
@[simp] theorem modSlice_matLog (i : SliceId) (f : Slice → Slice) (s : State) : (modSlice i f s).matLog = s.matLog := rfl
@[simp] theorem modSlice_acc (i : SliceId) (f : Slice → Slice) (s : State) : (modSlice i f s).acc = s.acc := rfl
@[simp] theorem modSlice_accpoi (i : SliceId) (f : Slice → Slice) (s : State) : (modSlice i f s).accpoi = s.accpoi := rfl
@[simp] theorem modSlice_passes (i : SliceId) (f : Slice → Slice) (s : State) : (modSlice i f s).passes = s.passes := rfl
@[simp] theorem modSlice_opbuf (i : SliceId) (f : Slice → Slice) (s : State) : (modSlice i f s).opbuf = s.opbuf := rfl
@[simp] theorem modSlice_oppoi (i : SliceId) (f : Slice → Slice) (s : State) : (modSlice i f s).oppoi = s.oppoi := rfl
@[simp] theorem modSlice_oprecs (i : SliceId) (f : Slice → Slice) (s : State) : (modSlice i f s).oprecs = s.oprecs := rfl
@[simp] theorem modSlice_baton (i : SliceId) (f : Slice → Slice) (s : State) : (modSlice i f s).baton = s.baton := rfl
@[simp] theorem modSlice_batonq (i : SliceId) (f : Slice → Slice) (s : State) : (modSlice i f s).batonq = s.batonq := rfl
@[simp] theorem modSlice_fenced (i : SliceId) (f : Slice → Slice) (s : State) : (modSlice i f s).fenced = s.fenced := rfl
@[simp] theorem modSlice_fencing (i : SliceId) (f : Slice → Slice) (s : State) : (modSlice i f s).fencing = s.fencing := rfl
@[simp] theorem modSlice_mem (i : SliceId) (f : Slice → Slice) (s : State) : (modSlice i f s).mem = s.mem := rfl
@[simp] theorem modSlice_mempoi (i : SliceId) (f : Slice → Slice) (s : State) : (modSlice i f s).mempoi = s.mempoi := rfl
@[simp] theorem modSlice_ctxs (i : SliceId) (f : Slice → Slice) (s : State) : (modSlice i f s).ctxs = s.ctxs := rfl
@[simp] theorem modSlice_modules (i : SliceId) (f : Slice → Slice) (s : State) : (modSlice i f s).modules = s.modules := rfl
@[simp] theorem modSlice_cache (i : SliceId) (f : Slice → Slice) (s : State) : (modSlice i f s).cache = s.cache := rfl
@[simp] theorem modSlice_lodes (i : SliceId) (f : Slice → Slice) (s : State) : (modSlice i f s).lodes = s.lodes := rfl
@[simp] theorem modSlice_lodeOwner (i : SliceId) (f : Slice → Slice) (s : State) : (modSlice i f s).lodeOwner = s.lodeOwner := rfl
@[simp] theorem modSlice_graphs (i : SliceId) (f : Slice → Slice) (s : State) : (modSlice i f s).graphs = s.graphs := rfl
@[simp] theorem modSlice_trigs (i : SliceId) (f : Slice → Slice) (s : State) : (modSlice i f s).trigs = s.trigs := rfl
@[simp] theorem modSlice_launches (i : SliceId) (f : Slice → Slice) (s : State) : (modSlice i f s).launches = s.launches := rfl
@[simp] theorem modSlice_parks (i : SliceId) (f : Slice → Slice) (s : State) : (modSlice i f s).parks = s.parks := rfl
@[simp] theorem modSlice_frecs (i : SliceId) (f : Slice → Slice) (s : State) : (modSlice i f s).frecs = s.frecs := rfl
@[simp] theorem modSlice_quota (i : SliceId) (f : Slice → Slice) (s : State) : (modSlice i f s).quota = s.quota := rfl
@[simp] theorem modSlice_links (i : SliceId) (f : Slice → Slice) (s : State) : (modSlice i f s).links = s.links := rfl
@[simp] theorem modSlice_pkgid (i : SliceId) (f : Slice → Slice) (s : State) : (modSlice i f s).pkgid = s.pkgid := rfl
@[simp] theorem modSlice_replies (i : SliceId) (f : Slice → Slice) (s : State) : (modSlice i f s).replies = s.replies := rfl
@[simp] theorem modSlice_updates (i : SliceId) (f : Slice → Slice) (s : State) : (modSlice i f s).updates = s.updates := rfl
@[simp] theorem modSlice_health (i : SliceId) (f : Slice → Slice) (s : State) : (modSlice i f s).health = s.health := rfl
@[simp] theorem modSlice_replaceF (i : SliceId) (f : Slice → Slice) (s : State) : (modSlice i f s).replaceF = s.replaceF := rfl
@[simp] theorem modSlice_drain (i : SliceId) (f : Slice → Slice) (s : State) : (modSlice i f s).drain = s.drain := rfl
@[simp] theorem modSlice_dieover (i : SliceId) (f : Slice → Slice) (s : State) : (modSlice i f s).dieover = s.dieover := rfl
@[simp] theorem modSlice_diedead (i : SliceId) (f : Slice → Slice) (s : State) : (modSlice i f s).diedead = s.diedead := rfl
@[simp] theorem modSlice_chanoff (i : SliceId) (f : Slice → Slice) (s : State) : (modSlice i f s).chanoff = s.chanoff := rfl
@[simp] theorem modSlice_coreCtr (i : SliceId) (f : Slice → Slice) (s : State) : (modSlice i f s).coreCtr = s.coreCtr := rfl
@[simp] theorem modSlice_dieCtr (i : SliceId) (f : Slice → Slice) (s : State) : (modSlice i f s).dieCtr = s.dieCtr := rfl
@[simp] theorem modSlice_measure (i : SliceId) (f : Slice → Slice) (s : State) : (modSlice i f s).measure = s.measure := rfl
@[simp] theorem modSlice_booted (i : SliceId) (f : Slice → Slice) (s : State) : (modSlice i f s).booted = s.booted := rfl
@[simp] theorem modSlice_cxl (i : SliceId) (f : Slice → Slice) (s : State) : (modSlice i f s).cxl = s.cxl := rfl
@[simp] theorem modSlice_vfs (i : SliceId) (f : Slice → Slice) (s : State) : (modSlice i f s).vfs = s.vfs := rfl
@[simp] theorem modSlice_revoked (i : SliceId) (f : Slice → Slice) (s : State) : (modSlice i f s).revoked = s.revoked := rfl
@[simp] theorem modSlice_svn (i : SliceId) (f : Slice → Slice) (s : State) : (modSlice i f s).svn = s.svn := rfl
@[simp] theorem modSlice_flashNs (i : SliceId) (f : Slice → Slice) (s : State) : (modSlice i f s).flashNs = s.flashNs := rfl
@[simp] theorem modSlice_cap (i : SliceId) (f : Slice → Slice) (s : State) : (modSlice i f s).cap = s.cap := rfl
@[simp] theorem modSlice_mhz (i : SliceId) (f : Slice → Slice) (s : State) : (modSlice i f s).mhz = s.mhz := rfl
@[simp] theorem modSlice_off (i : SliceId) (f : Slice → Slice) (s : State) : (modSlice i f s).off = s.off := rfl
@[simp] theorem modSlice_msix (i : SliceId) (f : Slice → Slice) (s : State) : (modSlice i f s).msix = s.msix := rfl
@[simp] theorem modSlice_out (i : SliceId) (f : Slice → Slice) (s : State) : (modSlice i f s).out = s.out := rfl

/-! ### modUnit -/

@[simp] theorem modUnit_agenda (u : Nat) (f : UnitSt → UnitSt) (s : State) : (modUnit u f s).agenda = s.agenda := rfl
@[simp] theorem modUnit_cur (u : Nat) (f : UnitSt → UnitSt) (s : State) : (modUnit u f s).cur = s.cur := rfl
@[simp] theorem modUnit_pgs (u : Nat) (f : UnitSt → UnitSt) (s : State) : (modUnit u f s).pgs = s.pgs := rfl
@[simp] theorem modUnit_secs (u : Nat) (f : UnitSt → UnitSt) (s : State) : (modUnit u f s).secs = s.secs := rfl
@[simp] theorem modUnit_clock (u : Nat) (f : UnitSt → UnitSt) (s : State) : (modUnit u f s).clock = s.clock := rfl
@[simp] theorem modUnit_free (u : Nat) (f : UnitSt → UnitSt) (s : State) : (modUnit u f s).free = s.free := rfl
@[simp] theorem modUnit_fresh (u : Nat) (f : UnitSt → UnitSt) (s : State) : (modUnit u f s).fresh = s.fresh := rfl
@[simp] theorem modUnit_vreg (u : Nat) (f : UnitSt → UnitSt) (s : State) : (modUnit u f s).vreg = s.vreg := rfl
@[simp] theorem modUnit_vpoi (u : Nat) (f : UnitSt → UnitSt) (s : State) : (modUnit u f s).vpoi = s.vpoi := rfl
@[simp] theorem modUnit_fib (u : Nat) (f : UnitSt → UnitSt) (s : State) : (modUnit u f s).fib = s.fib := rfl
@[simp] theorem modUnit_mon (u : Nat) (f : UnitSt → UnitSt) (s : State) : (modUnit u f s).mon = s.mon := rfl
@[simp] theorem modUnit_slot (u : Nat) (f : UnitSt → UnitSt) (s : State) : (modUnit u f s).slot = s.slot := rfl
@[simp] theorem modUnit_dirty (u : Nat) (f : UnitSt → UnitSt) (s : State) : (modUnit u f s).dirty = s.dirty := rfl
@[simp] theorem modUnit_echo (u : Nat) (f : UnitSt → UnitSt) (s : State) : (modUnit u f s).echo = s.echo := rfl
@[simp] theorem modUnit_buf (u : Nat) (f : UnitSt → UnitSt) (s : State) : (modUnit u f s).buf = s.buf := rfl
@[simp] theorem modUnit_held (u : Nat) (f : UnitSt → UnitSt) (s : State) : (modUnit u f s).held = s.held := rfl
@[simp] theorem modUnit_shad (u : Nat) (f : UnitSt → UnitSt) (s : State) : (modUnit u f s).shad = s.shad := rfl
@[simp] theorem modUnit_fill (u : Nat) (f : UnitSt → UnitSt) (s : State) : (modUnit u f s).fill = s.fill := rfl
@[simp] theorem modUnit_thr (u : Nat) (f : UnitSt → UnitSt) (s : State) : (modUnit u f s).thr = s.thr := rfl
@[simp] theorem modUnit_slices (u : Nat) (f : UnitSt → UnitSt) (s : State) : (modUnit u f s).slices = s.slices := rfl
@[simp] theorem modUnit_serve (u : Nat) (f : UnitSt → UnitSt) (s : State) : (modUnit u f s).serve = s.serve := rfl
@[simp] theorem modUnit_greg (u : Nat) (f : UnitSt → UnitSt) (s : State) : (modUnit u f s).greg = s.greg := rfl
@[simp] theorem modUnit_gpoi (u : Nat) (f : UnitSt → UnitSt) (s : State) : (modUnit u f s).gpoi = s.gpoi := rfl
@[simp] theorem modUnit_gangs (u : Nat) (f : UnitSt → UnitSt) (s : State) : (modUnit u f s).gangs = s.gangs := rfl
@[simp] theorem modUnit_units (u : Nat) (f : UnitSt → UnitSt) (s : State) : (modUnit u f s).units = s.units.modify u {} f := rfl
@[simp] theorem modUnit_hstage (u : Nat) (f : UnitSt → UnitSt) (s : State) : (modUnit u f s).hstage = s.hstage := rfl
@[simp] theorem modUnit_scr (u : Nat) (f : UnitSt → UnitSt) (s : State) : (modUnit u f s).scr = s.scr := rfl
@[simp] theorem modUnit_scrpoi (u : Nat) (f : UnitSt → UnitSt) (s : State) : (modUnit u f s).scrpoi = s.scrpoi := rfl
@[simp] theorem modUnit_l1 (u : Nat) (f : UnitSt → UnitSt) (s : State) : (modUnit u f s).l1 = s.l1 := rfl
@[simp] theorem modUnit_wq (u : Nat) (f : UnitSt → UnitSt) (s : State) : (modUnit u f s).wq = s.wq := rfl
@[simp] theorem modUnit_tlbCore (u : Nat) (f : UnitSt → UnitSt) (s : State) : (modUnit u f s).tlbCore = s.tlbCore := rfl
@[simp] theorem modUnit_tlbCluster (u : Nat) (f : UnitSt → UnitSt) (s : State) : (modUnit u f s).tlbCluster = s.tlbCluster := rfl
@[simp] theorem modUnit_copies (u : Nat) (f : UnitSt → UnitSt) (s : State) : (modUnit u f s).copies = s.copies := rfl
@[simp] theorem modUnit_mats (u : Nat) (f : UnitSt → UnitSt) (s : State) : (modUnit u f s).mats = s.mats := rfl
@[simp] theorem modUnit_copyLog (u : Nat) (f : UnitSt → UnitSt) (s : State) : (modUnit u f s).copyLog = s.copyLog := rfl
@[simp] theorem modUnit_matLog (u : Nat) (f : UnitSt → UnitSt) (s : State) : (modUnit u f s).matLog = s.matLog := rfl
@[simp] theorem modUnit_acc (u : Nat) (f : UnitSt → UnitSt) (s : State) : (modUnit u f s).acc = s.acc := rfl
@[simp] theorem modUnit_accpoi (u : Nat) (f : UnitSt → UnitSt) (s : State) : (modUnit u f s).accpoi = s.accpoi := rfl
@[simp] theorem modUnit_passes (u : Nat) (f : UnitSt → UnitSt) (s : State) : (modUnit u f s).passes = s.passes := rfl
@[simp] theorem modUnit_opbuf (u : Nat) (f : UnitSt → UnitSt) (s : State) : (modUnit u f s).opbuf = s.opbuf := rfl
@[simp] theorem modUnit_oppoi (u : Nat) (f : UnitSt → UnitSt) (s : State) : (modUnit u f s).oppoi = s.oppoi := rfl
@[simp] theorem modUnit_oprecs (u : Nat) (f : UnitSt → UnitSt) (s : State) : (modUnit u f s).oprecs = s.oprecs := rfl
@[simp] theorem modUnit_baton (u : Nat) (f : UnitSt → UnitSt) (s : State) : (modUnit u f s).baton = s.baton := rfl
@[simp] theorem modUnit_batonq (u : Nat) (f : UnitSt → UnitSt) (s : State) : (modUnit u f s).batonq = s.batonq := rfl
@[simp] theorem modUnit_fenced (u : Nat) (f : UnitSt → UnitSt) (s : State) : (modUnit u f s).fenced = s.fenced := rfl
@[simp] theorem modUnit_fencing (u : Nat) (f : UnitSt → UnitSt) (s : State) : (modUnit u f s).fencing = s.fencing := rfl
@[simp] theorem modUnit_mem (u : Nat) (f : UnitSt → UnitSt) (s : State) : (modUnit u f s).mem = s.mem := rfl
@[simp] theorem modUnit_mempoi (u : Nat) (f : UnitSt → UnitSt) (s : State) : (modUnit u f s).mempoi = s.mempoi := rfl
@[simp] theorem modUnit_ctxs (u : Nat) (f : UnitSt → UnitSt) (s : State) : (modUnit u f s).ctxs = s.ctxs := rfl
@[simp] theorem modUnit_modules (u : Nat) (f : UnitSt → UnitSt) (s : State) : (modUnit u f s).modules = s.modules := rfl
@[simp] theorem modUnit_cache (u : Nat) (f : UnitSt → UnitSt) (s : State) : (modUnit u f s).cache = s.cache := rfl
@[simp] theorem modUnit_lodes (u : Nat) (f : UnitSt → UnitSt) (s : State) : (modUnit u f s).lodes = s.lodes := rfl
@[simp] theorem modUnit_lodeOwner (u : Nat) (f : UnitSt → UnitSt) (s : State) : (modUnit u f s).lodeOwner = s.lodeOwner := rfl
@[simp] theorem modUnit_graphs (u : Nat) (f : UnitSt → UnitSt) (s : State) : (modUnit u f s).graphs = s.graphs := rfl
@[simp] theorem modUnit_trigs (u : Nat) (f : UnitSt → UnitSt) (s : State) : (modUnit u f s).trigs = s.trigs := rfl
@[simp] theorem modUnit_launches (u : Nat) (f : UnitSt → UnitSt) (s : State) : (modUnit u f s).launches = s.launches := rfl
@[simp] theorem modUnit_parks (u : Nat) (f : UnitSt → UnitSt) (s : State) : (modUnit u f s).parks = s.parks := rfl
@[simp] theorem modUnit_frecs (u : Nat) (f : UnitSt → UnitSt) (s : State) : (modUnit u f s).frecs = s.frecs := rfl
@[simp] theorem modUnit_quota (u : Nat) (f : UnitSt → UnitSt) (s : State) : (modUnit u f s).quota = s.quota := rfl
@[simp] theorem modUnit_links (u : Nat) (f : UnitSt → UnitSt) (s : State) : (modUnit u f s).links = s.links := rfl
@[simp] theorem modUnit_pkgid (u : Nat) (f : UnitSt → UnitSt) (s : State) : (modUnit u f s).pkgid = s.pkgid := rfl
@[simp] theorem modUnit_replies (u : Nat) (f : UnitSt → UnitSt) (s : State) : (modUnit u f s).replies = s.replies := rfl
@[simp] theorem modUnit_updates (u : Nat) (f : UnitSt → UnitSt) (s : State) : (modUnit u f s).updates = s.updates := rfl
@[simp] theorem modUnit_health (u : Nat) (f : UnitSt → UnitSt) (s : State) : (modUnit u f s).health = s.health := rfl
@[simp] theorem modUnit_replaceF (u : Nat) (f : UnitSt → UnitSt) (s : State) : (modUnit u f s).replaceF = s.replaceF := rfl
@[simp] theorem modUnit_drain (u : Nat) (f : UnitSt → UnitSt) (s : State) : (modUnit u f s).drain = s.drain := rfl
@[simp] theorem modUnit_dieover (u : Nat) (f : UnitSt → UnitSt) (s : State) : (modUnit u f s).dieover = s.dieover := rfl
@[simp] theorem modUnit_diedead (u : Nat) (f : UnitSt → UnitSt) (s : State) : (modUnit u f s).diedead = s.diedead := rfl
@[simp] theorem modUnit_chanoff (u : Nat) (f : UnitSt → UnitSt) (s : State) : (modUnit u f s).chanoff = s.chanoff := rfl
@[simp] theorem modUnit_coreCtr (u : Nat) (f : UnitSt → UnitSt) (s : State) : (modUnit u f s).coreCtr = s.coreCtr := rfl
@[simp] theorem modUnit_dieCtr (u : Nat) (f : UnitSt → UnitSt) (s : State) : (modUnit u f s).dieCtr = s.dieCtr := rfl
@[simp] theorem modUnit_measure (u : Nat) (f : UnitSt → UnitSt) (s : State) : (modUnit u f s).measure = s.measure := rfl
@[simp] theorem modUnit_booted (u : Nat) (f : UnitSt → UnitSt) (s : State) : (modUnit u f s).booted = s.booted := rfl
@[simp] theorem modUnit_cxl (u : Nat) (f : UnitSt → UnitSt) (s : State) : (modUnit u f s).cxl = s.cxl := rfl
@[simp] theorem modUnit_vfs (u : Nat) (f : UnitSt → UnitSt) (s : State) : (modUnit u f s).vfs = s.vfs := rfl
@[simp] theorem modUnit_revoked (u : Nat) (f : UnitSt → UnitSt) (s : State) : (modUnit u f s).revoked = s.revoked := rfl
@[simp] theorem modUnit_svn (u : Nat) (f : UnitSt → UnitSt) (s : State) : (modUnit u f s).svn = s.svn := rfl
@[simp] theorem modUnit_flashNs (u : Nat) (f : UnitSt → UnitSt) (s : State) : (modUnit u f s).flashNs = s.flashNs := rfl
@[simp] theorem modUnit_cap (u : Nat) (f : UnitSt → UnitSt) (s : State) : (modUnit u f s).cap = s.cap := rfl
@[simp] theorem modUnit_mhz (u : Nat) (f : UnitSt → UnitSt) (s : State) : (modUnit u f s).mhz = s.mhz := rfl
@[simp] theorem modUnit_off (u : Nat) (f : UnitSt → UnitSt) (s : State) : (modUnit u f s).off = s.off := rfl
@[simp] theorem modUnit_msix (u : Nat) (f : UnitSt → UnitSt) (s : State) : (modUnit u f s).msix = s.msix := rfl
@[simp] theorem modUnit_out (u : Nat) (f : UnitSt → UnitSt) (s : State) : (modUnit u f s).out = s.out := rfl

/-! ### modCtx -/

@[simp] theorem modCtx_agenda (c : Nat) (f : Ctx → Ctx) (s : State) : (modCtx c f s).agenda = s.agenda := rfl
@[simp] theorem modCtx_cur (c : Nat) (f : Ctx → Ctx) (s : State) : (modCtx c f s).cur = s.cur := rfl
@[simp] theorem modCtx_pgs (c : Nat) (f : Ctx → Ctx) (s : State) : (modCtx c f s).pgs = s.pgs := rfl
@[simp] theorem modCtx_secs (c : Nat) (f : Ctx → Ctx) (s : State) : (modCtx c f s).secs = s.secs := rfl
@[simp] theorem modCtx_clock (c : Nat) (f : Ctx → Ctx) (s : State) : (modCtx c f s).clock = s.clock := rfl
@[simp] theorem modCtx_free (c : Nat) (f : Ctx → Ctx) (s : State) : (modCtx c f s).free = s.free := rfl
@[simp] theorem modCtx_fresh (c : Nat) (f : Ctx → Ctx) (s : State) : (modCtx c f s).fresh = s.fresh := rfl
@[simp] theorem modCtx_vreg (c : Nat) (f : Ctx → Ctx) (s : State) : (modCtx c f s).vreg = s.vreg := rfl
@[simp] theorem modCtx_vpoi (c : Nat) (f : Ctx → Ctx) (s : State) : (modCtx c f s).vpoi = s.vpoi := rfl
@[simp] theorem modCtx_fib (c : Nat) (f : Ctx → Ctx) (s : State) : (modCtx c f s).fib = s.fib := rfl
@[simp] theorem modCtx_mon (c : Nat) (f : Ctx → Ctx) (s : State) : (modCtx c f s).mon = s.mon := rfl
@[simp] theorem modCtx_slot (c : Nat) (f : Ctx → Ctx) (s : State) : (modCtx c f s).slot = s.slot := rfl
@[simp] theorem modCtx_dirty (c : Nat) (f : Ctx → Ctx) (s : State) : (modCtx c f s).dirty = s.dirty := rfl
@[simp] theorem modCtx_echo (c : Nat) (f : Ctx → Ctx) (s : State) : (modCtx c f s).echo = s.echo := rfl
@[simp] theorem modCtx_buf (c : Nat) (f : Ctx → Ctx) (s : State) : (modCtx c f s).buf = s.buf := rfl
@[simp] theorem modCtx_held (c : Nat) (f : Ctx → Ctx) (s : State) : (modCtx c f s).held = s.held := rfl
@[simp] theorem modCtx_shad (c : Nat) (f : Ctx → Ctx) (s : State) : (modCtx c f s).shad = s.shad := rfl
@[simp] theorem modCtx_fill (c : Nat) (f : Ctx → Ctx) (s : State) : (modCtx c f s).fill = s.fill := rfl
@[simp] theorem modCtx_thr (c : Nat) (f : Ctx → Ctx) (s : State) : (modCtx c f s).thr = s.thr := rfl
@[simp] theorem modCtx_slices (c : Nat) (f : Ctx → Ctx) (s : State) : (modCtx c f s).slices = s.slices := rfl
@[simp] theorem modCtx_serve (c : Nat) (f : Ctx → Ctx) (s : State) : (modCtx c f s).serve = s.serve := rfl
@[simp] theorem modCtx_greg (c : Nat) (f : Ctx → Ctx) (s : State) : (modCtx c f s).greg = s.greg := rfl
@[simp] theorem modCtx_gpoi (c : Nat) (f : Ctx → Ctx) (s : State) : (modCtx c f s).gpoi = s.gpoi := rfl
@[simp] theorem modCtx_gangs (c : Nat) (f : Ctx → Ctx) (s : State) : (modCtx c f s).gangs = s.gangs := rfl
@[simp] theorem modCtx_units (c : Nat) (f : Ctx → Ctx) (s : State) : (modCtx c f s).units = s.units := rfl
@[simp] theorem modCtx_hstage (c : Nat) (f : Ctx → Ctx) (s : State) : (modCtx c f s).hstage = s.hstage := rfl
@[simp] theorem modCtx_scr (c : Nat) (f : Ctx → Ctx) (s : State) : (modCtx c f s).scr = s.scr := rfl
@[simp] theorem modCtx_scrpoi (c : Nat) (f : Ctx → Ctx) (s : State) : (modCtx c f s).scrpoi = s.scrpoi := rfl
@[simp] theorem modCtx_l1 (c : Nat) (f : Ctx → Ctx) (s : State) : (modCtx c f s).l1 = s.l1 := rfl
@[simp] theorem modCtx_wq (c : Nat) (f : Ctx → Ctx) (s : State) : (modCtx c f s).wq = s.wq := rfl
@[simp] theorem modCtx_tlbCore (c : Nat) (f : Ctx → Ctx) (s : State) : (modCtx c f s).tlbCore = s.tlbCore := rfl
@[simp] theorem modCtx_tlbCluster (c : Nat) (f : Ctx → Ctx) (s : State) : (modCtx c f s).tlbCluster = s.tlbCluster := rfl
@[simp] theorem modCtx_copies (c : Nat) (f : Ctx → Ctx) (s : State) : (modCtx c f s).copies = s.copies := rfl
@[simp] theorem modCtx_mats (c : Nat) (f : Ctx → Ctx) (s : State) : (modCtx c f s).mats = s.mats := rfl
@[simp] theorem modCtx_copyLog (c : Nat) (f : Ctx → Ctx) (s : State) : (modCtx c f s).copyLog = s.copyLog := rfl
@[simp] theorem modCtx_matLog (c : Nat) (f : Ctx → Ctx) (s : State) : (modCtx c f s).matLog = s.matLog := rfl
@[simp] theorem modCtx_acc (c : Nat) (f : Ctx → Ctx) (s : State) : (modCtx c f s).acc = s.acc := rfl
@[simp] theorem modCtx_accpoi (c : Nat) (f : Ctx → Ctx) (s : State) : (modCtx c f s).accpoi = s.accpoi := rfl
@[simp] theorem modCtx_passes (c : Nat) (f : Ctx → Ctx) (s : State) : (modCtx c f s).passes = s.passes := rfl
@[simp] theorem modCtx_opbuf (c : Nat) (f : Ctx → Ctx) (s : State) : (modCtx c f s).opbuf = s.opbuf := rfl
@[simp] theorem modCtx_oppoi (c : Nat) (f : Ctx → Ctx) (s : State) : (modCtx c f s).oppoi = s.oppoi := rfl
@[simp] theorem modCtx_oprecs (c : Nat) (f : Ctx → Ctx) (s : State) : (modCtx c f s).oprecs = s.oprecs := rfl
@[simp] theorem modCtx_baton (c : Nat) (f : Ctx → Ctx) (s : State) : (modCtx c f s).baton = s.baton := rfl
@[simp] theorem modCtx_batonq (c : Nat) (f : Ctx → Ctx) (s : State) : (modCtx c f s).batonq = s.batonq := rfl
@[simp] theorem modCtx_fenced (c : Nat) (f : Ctx → Ctx) (s : State) : (modCtx c f s).fenced = s.fenced := rfl
@[simp] theorem modCtx_fencing (c : Nat) (f : Ctx → Ctx) (s : State) : (modCtx c f s).fencing = s.fencing := rfl
@[simp] theorem modCtx_mem (c : Nat) (f : Ctx → Ctx) (s : State) : (modCtx c f s).mem = s.mem := rfl
@[simp] theorem modCtx_mempoi (c : Nat) (f : Ctx → Ctx) (s : State) : (modCtx c f s).mempoi = s.mempoi := rfl
@[simp] theorem modCtx_ctxs (c : Nat) (f : Ctx → Ctx) (s : State) : (modCtx c f s).ctxs = s.ctxs.modify c {} f := rfl
@[simp] theorem modCtx_modules (c : Nat) (f : Ctx → Ctx) (s : State) : (modCtx c f s).modules = s.modules := rfl
@[simp] theorem modCtx_cache (c : Nat) (f : Ctx → Ctx) (s : State) : (modCtx c f s).cache = s.cache := rfl
@[simp] theorem modCtx_lodes (c : Nat) (f : Ctx → Ctx) (s : State) : (modCtx c f s).lodes = s.lodes := rfl
@[simp] theorem modCtx_lodeOwner (c : Nat) (f : Ctx → Ctx) (s : State) : (modCtx c f s).lodeOwner = s.lodeOwner := rfl
@[simp] theorem modCtx_graphs (c : Nat) (f : Ctx → Ctx) (s : State) : (modCtx c f s).graphs = s.graphs := rfl
@[simp] theorem modCtx_trigs (c : Nat) (f : Ctx → Ctx) (s : State) : (modCtx c f s).trigs = s.trigs := rfl
@[simp] theorem modCtx_launches (c : Nat) (f : Ctx → Ctx) (s : State) : (modCtx c f s).launches = s.launches := rfl
@[simp] theorem modCtx_parks (c : Nat) (f : Ctx → Ctx) (s : State) : (modCtx c f s).parks = s.parks := rfl
@[simp] theorem modCtx_frecs (c : Nat) (f : Ctx → Ctx) (s : State) : (modCtx c f s).frecs = s.frecs := rfl
@[simp] theorem modCtx_quota (c : Nat) (f : Ctx → Ctx) (s : State) : (modCtx c f s).quota = s.quota := rfl
@[simp] theorem modCtx_links (c : Nat) (f : Ctx → Ctx) (s : State) : (modCtx c f s).links = s.links := rfl
@[simp] theorem modCtx_pkgid (c : Nat) (f : Ctx → Ctx) (s : State) : (modCtx c f s).pkgid = s.pkgid := rfl
@[simp] theorem modCtx_replies (c : Nat) (f : Ctx → Ctx) (s : State) : (modCtx c f s).replies = s.replies := rfl
@[simp] theorem modCtx_updates (c : Nat) (f : Ctx → Ctx) (s : State) : (modCtx c f s).updates = s.updates := rfl
@[simp] theorem modCtx_health (c : Nat) (f : Ctx → Ctx) (s : State) : (modCtx c f s).health = s.health := rfl
@[simp] theorem modCtx_replaceF (c : Nat) (f : Ctx → Ctx) (s : State) : (modCtx c f s).replaceF = s.replaceF := rfl
@[simp] theorem modCtx_drain (c : Nat) (f : Ctx → Ctx) (s : State) : (modCtx c f s).drain = s.drain := rfl
@[simp] theorem modCtx_dieover (c : Nat) (f : Ctx → Ctx) (s : State) : (modCtx c f s).dieover = s.dieover := rfl
@[simp] theorem modCtx_diedead (c : Nat) (f : Ctx → Ctx) (s : State) : (modCtx c f s).diedead = s.diedead := rfl
@[simp] theorem modCtx_chanoff (c : Nat) (f : Ctx → Ctx) (s : State) : (modCtx c f s).chanoff = s.chanoff := rfl
@[simp] theorem modCtx_coreCtr (c : Nat) (f : Ctx → Ctx) (s : State) : (modCtx c f s).coreCtr = s.coreCtr := rfl
@[simp] theorem modCtx_dieCtr (c : Nat) (f : Ctx → Ctx) (s : State) : (modCtx c f s).dieCtr = s.dieCtr := rfl
@[simp] theorem modCtx_measure (c : Nat) (f : Ctx → Ctx) (s : State) : (modCtx c f s).measure = s.measure := rfl
@[simp] theorem modCtx_booted (c : Nat) (f : Ctx → Ctx) (s : State) : (modCtx c f s).booted = s.booted := rfl
@[simp] theorem modCtx_cxl (c : Nat) (f : Ctx → Ctx) (s : State) : (modCtx c f s).cxl = s.cxl := rfl
@[simp] theorem modCtx_vfs (c : Nat) (f : Ctx → Ctx) (s : State) : (modCtx c f s).vfs = s.vfs := rfl
@[simp] theorem modCtx_revoked (c : Nat) (f : Ctx → Ctx) (s : State) : (modCtx c f s).revoked = s.revoked := rfl
@[simp] theorem modCtx_svn (c : Nat) (f : Ctx → Ctx) (s : State) : (modCtx c f s).svn = s.svn := rfl
@[simp] theorem modCtx_flashNs (c : Nat) (f : Ctx → Ctx) (s : State) : (modCtx c f s).flashNs = s.flashNs := rfl
@[simp] theorem modCtx_cap (c : Nat) (f : Ctx → Ctx) (s : State) : (modCtx c f s).cap = s.cap := rfl
@[simp] theorem modCtx_mhz (c : Nat) (f : Ctx → Ctx) (s : State) : (modCtx c f s).mhz = s.mhz := rfl
@[simp] theorem modCtx_off (c : Nat) (f : Ctx → Ctx) (s : State) : (modCtx c f s).off = s.off := rfl
@[simp] theorem modCtx_msix (c : Nat) (f : Ctx → Ctx) (s : State) : (modCtx c f s).msix = s.msix := rfl
@[simp] theorem modCtx_out (c : Nat) (f : Ctx → Ctx) (s : State) : (modCtx c f s).out = s.out := rfl

/-! ### raiseMsix -/

@[simp] theorem raiseMsix_agenda (n v : Nat) (s : State) : (raiseMsix n v s).agenda = s.agenda := rfl
@[simp] theorem raiseMsix_cur (n v : Nat) (s : State) : (raiseMsix n v s).cur = s.cur := rfl
@[simp] theorem raiseMsix_pgs (n v : Nat) (s : State) : (raiseMsix n v s).pgs = s.pgs := rfl
@[simp] theorem raiseMsix_secs (n v : Nat) (s : State) : (raiseMsix n v s).secs = s.secs := rfl
@[simp] theorem raiseMsix_clock (n v : Nat) (s : State) : (raiseMsix n v s).clock = s.clock := rfl
@[simp] theorem raiseMsix_free (n v : Nat) (s : State) : (raiseMsix n v s).free = s.free := rfl
@[simp] theorem raiseMsix_fresh (n v : Nat) (s : State) : (raiseMsix n v s).fresh = s.fresh := rfl
@[simp] theorem raiseMsix_vreg (n v : Nat) (s : State) : (raiseMsix n v s).vreg = s.vreg := rfl
@[simp] theorem raiseMsix_vpoi (n v : Nat) (s : State) : (raiseMsix n v s).vpoi = s.vpoi := rfl
@[simp] theorem raiseMsix_fib (n v : Nat) (s : State) : (raiseMsix n v s).fib = s.fib := rfl
@[simp] theorem raiseMsix_mon (n v : Nat) (s : State) : (raiseMsix n v s).mon = s.mon := rfl
@[simp] theorem raiseMsix_slot (n v : Nat) (s : State) : (raiseMsix n v s).slot = s.slot := rfl
@[simp] theorem raiseMsix_dirty (n v : Nat) (s : State) : (raiseMsix n v s).dirty = s.dirty := rfl
@[simp] theorem raiseMsix_echo (n v : Nat) (s : State) : (raiseMsix n v s).echo = s.echo := rfl
@[simp] theorem raiseMsix_buf (n v : Nat) (s : State) : (raiseMsix n v s).buf = s.buf := rfl
@[simp] theorem raiseMsix_held (n v : Nat) (s : State) : (raiseMsix n v s).held = s.held := rfl
@[simp] theorem raiseMsix_shad (n v : Nat) (s : State) : (raiseMsix n v s).shad = s.shad := rfl
@[simp] theorem raiseMsix_fill (n v : Nat) (s : State) : (raiseMsix n v s).fill = s.fill := rfl
@[simp] theorem raiseMsix_thr (n v : Nat) (s : State) : (raiseMsix n v s).thr = s.thr := rfl
@[simp] theorem raiseMsix_slices (n v : Nat) (s : State) : (raiseMsix n v s).slices = s.slices := rfl
@[simp] theorem raiseMsix_serve (n v : Nat) (s : State) : (raiseMsix n v s).serve = s.serve := rfl
@[simp] theorem raiseMsix_greg (n v : Nat) (s : State) : (raiseMsix n v s).greg = s.greg := rfl
@[simp] theorem raiseMsix_gpoi (n v : Nat) (s : State) : (raiseMsix n v s).gpoi = s.gpoi := rfl
@[simp] theorem raiseMsix_gangs (n v : Nat) (s : State) : (raiseMsix n v s).gangs = s.gangs := rfl
@[simp] theorem raiseMsix_units (n v : Nat) (s : State) : (raiseMsix n v s).units = s.units := rfl
@[simp] theorem raiseMsix_hstage (n v : Nat) (s : State) : (raiseMsix n v s).hstage = s.hstage := rfl
@[simp] theorem raiseMsix_scr (n v : Nat) (s : State) : (raiseMsix n v s).scr = s.scr := rfl
@[simp] theorem raiseMsix_scrpoi (n v : Nat) (s : State) : (raiseMsix n v s).scrpoi = s.scrpoi := rfl
@[simp] theorem raiseMsix_l1 (n v : Nat) (s : State) : (raiseMsix n v s).l1 = s.l1 := rfl
@[simp] theorem raiseMsix_wq (n v : Nat) (s : State) : (raiseMsix n v s).wq = s.wq := rfl
@[simp] theorem raiseMsix_tlbCore (n v : Nat) (s : State) : (raiseMsix n v s).tlbCore = s.tlbCore := rfl
@[simp] theorem raiseMsix_tlbCluster (n v : Nat) (s : State) : (raiseMsix n v s).tlbCluster = s.tlbCluster := rfl
@[simp] theorem raiseMsix_copies (n v : Nat) (s : State) : (raiseMsix n v s).copies = s.copies := rfl
@[simp] theorem raiseMsix_mats (n v : Nat) (s : State) : (raiseMsix n v s).mats = s.mats := rfl
@[simp] theorem raiseMsix_copyLog (n v : Nat) (s : State) : (raiseMsix n v s).copyLog = s.copyLog := rfl
@[simp] theorem raiseMsix_matLog (n v : Nat) (s : State) : (raiseMsix n v s).matLog = s.matLog := rfl
@[simp] theorem raiseMsix_acc (n v : Nat) (s : State) : (raiseMsix n v s).acc = s.acc := rfl
@[simp] theorem raiseMsix_accpoi (n v : Nat) (s : State) : (raiseMsix n v s).accpoi = s.accpoi := rfl
@[simp] theorem raiseMsix_passes (n v : Nat) (s : State) : (raiseMsix n v s).passes = s.passes := rfl
@[simp] theorem raiseMsix_opbuf (n v : Nat) (s : State) : (raiseMsix n v s).opbuf = s.opbuf := rfl
@[simp] theorem raiseMsix_oppoi (n v : Nat) (s : State) : (raiseMsix n v s).oppoi = s.oppoi := rfl
@[simp] theorem raiseMsix_oprecs (n v : Nat) (s : State) : (raiseMsix n v s).oprecs = s.oprecs := rfl
@[simp] theorem raiseMsix_baton (n v : Nat) (s : State) : (raiseMsix n v s).baton = s.baton := rfl
@[simp] theorem raiseMsix_batonq (n v : Nat) (s : State) : (raiseMsix n v s).batonq = s.batonq := rfl
@[simp] theorem raiseMsix_fenced (n v : Nat) (s : State) : (raiseMsix n v s).fenced = s.fenced := rfl
@[simp] theorem raiseMsix_fencing (n v : Nat) (s : State) : (raiseMsix n v s).fencing = s.fencing := rfl
@[simp] theorem raiseMsix_mem (n v : Nat) (s : State) : (raiseMsix n v s).mem = s.mem := rfl
@[simp] theorem raiseMsix_mempoi (n v : Nat) (s : State) : (raiseMsix n v s).mempoi = s.mempoi := rfl
@[simp] theorem raiseMsix_ctxs (n v : Nat) (s : State) : (raiseMsix n v s).ctxs = s.ctxs := rfl
@[simp] theorem raiseMsix_modules (n v : Nat) (s : State) : (raiseMsix n v s).modules = s.modules := rfl
@[simp] theorem raiseMsix_cache (n v : Nat) (s : State) : (raiseMsix n v s).cache = s.cache := rfl
@[simp] theorem raiseMsix_lodes (n v : Nat) (s : State) : (raiseMsix n v s).lodes = s.lodes := rfl
@[simp] theorem raiseMsix_lodeOwner (n v : Nat) (s : State) : (raiseMsix n v s).lodeOwner = s.lodeOwner := rfl
@[simp] theorem raiseMsix_graphs (n v : Nat) (s : State) : (raiseMsix n v s).graphs = s.graphs := rfl
@[simp] theorem raiseMsix_trigs (n v : Nat) (s : State) : (raiseMsix n v s).trigs = s.trigs := rfl
@[simp] theorem raiseMsix_launches (n v : Nat) (s : State) : (raiseMsix n v s).launches = s.launches := rfl
@[simp] theorem raiseMsix_parks (n v : Nat) (s : State) : (raiseMsix n v s).parks = s.parks := rfl
@[simp] theorem raiseMsix_frecs (n v : Nat) (s : State) : (raiseMsix n v s).frecs = s.frecs := rfl
@[simp] theorem raiseMsix_quota (n v : Nat) (s : State) : (raiseMsix n v s).quota = s.quota := rfl
@[simp] theorem raiseMsix_links (n v : Nat) (s : State) : (raiseMsix n v s).links = s.links := rfl
@[simp] theorem raiseMsix_pkgid (n v : Nat) (s : State) : (raiseMsix n v s).pkgid = s.pkgid := rfl
@[simp] theorem raiseMsix_replies (n v : Nat) (s : State) : (raiseMsix n v s).replies = s.replies := rfl
@[simp] theorem raiseMsix_updates (n v : Nat) (s : State) : (raiseMsix n v s).updates = s.updates := rfl
@[simp] theorem raiseMsix_health (n v : Nat) (s : State) : (raiseMsix n v s).health = s.health := rfl
@[simp] theorem raiseMsix_replaceF (n v : Nat) (s : State) : (raiseMsix n v s).replaceF = s.replaceF := rfl
@[simp] theorem raiseMsix_drain (n v : Nat) (s : State) : (raiseMsix n v s).drain = s.drain := rfl
@[simp] theorem raiseMsix_dieover (n v : Nat) (s : State) : (raiseMsix n v s).dieover = s.dieover := rfl
@[simp] theorem raiseMsix_diedead (n v : Nat) (s : State) : (raiseMsix n v s).diedead = s.diedead := rfl
@[simp] theorem raiseMsix_chanoff (n v : Nat) (s : State) : (raiseMsix n v s).chanoff = s.chanoff := rfl
@[simp] theorem raiseMsix_coreCtr (n v : Nat) (s : State) : (raiseMsix n v s).coreCtr = s.coreCtr := rfl
@[simp] theorem raiseMsix_dieCtr (n v : Nat) (s : State) : (raiseMsix n v s).dieCtr = s.dieCtr := rfl
@[simp] theorem raiseMsix_measure (n v : Nat) (s : State) : (raiseMsix n v s).measure = s.measure := rfl
@[simp] theorem raiseMsix_booted (n v : Nat) (s : State) : (raiseMsix n v s).booted = s.booted := rfl
@[simp] theorem raiseMsix_cxl (n v : Nat) (s : State) : (raiseMsix n v s).cxl = s.cxl := rfl
@[simp] theorem raiseMsix_vfs (n v : Nat) (s : State) : (raiseMsix n v s).vfs = s.vfs := rfl
@[simp] theorem raiseMsix_revoked (n v : Nat) (s : State) : (raiseMsix n v s).revoked = s.revoked := rfl
@[simp] theorem raiseMsix_svn (n v : Nat) (s : State) : (raiseMsix n v s).svn = s.svn := rfl
@[simp] theorem raiseMsix_flashNs (n v : Nat) (s : State) : (raiseMsix n v s).flashNs = s.flashNs := rfl
@[simp] theorem raiseMsix_cap (n v : Nat) (s : State) : (raiseMsix n v s).cap = s.cap := rfl
@[simp] theorem raiseMsix_mhz (n v : Nat) (s : State) : (raiseMsix n v s).mhz = s.mhz := rfl
@[simp] theorem raiseMsix_off (n v : Nat) (s : State) : (raiseMsix n v s).off = s.off := rfl
@[simp] theorem raiseMsix_msix (n v : Nat) (s : State) : (raiseMsix n v s).msix = (n, v) :: s.msix := rfl
@[simp] theorem raiseMsix_out (n v : Nat) (s : State) : (raiseMsix n v s).out = s.out := rfl

/-! ### clearLane -/

@[simp] theorem clearLane_agenda (r : LaneRef) (s : State) : (clearLane r s).agenda = s.agenda := rfl
@[simp] theorem clearLane_cur (r : LaneRef) (s : State) : (clearLane r s).cur = s.cur := rfl
@[simp] theorem clearLane_pgs (r : LaneRef) (s : State) : (clearLane r s).pgs = s.pgs := rfl
@[simp] theorem clearLane_secs (r : LaneRef) (s : State) : (clearLane r s).secs = s.secs := rfl
@[simp] theorem clearLane_clock (r : LaneRef) (s : State) : (clearLane r s).clock = s.clock := rfl
@[simp] theorem clearLane_free (r : LaneRef) (s : State) : (clearLane r s).free = s.free := rfl
@[simp] theorem clearLane_fresh (r : LaneRef) (s : State) : (clearLane r s).fresh = s.fresh := rfl
@[simp] theorem clearLane_vreg (r : LaneRef) (s : State) : (clearLane r s).vreg = s.vreg := rfl
@[simp] theorem clearLane_vpoi (r : LaneRef) (s : State) : (clearLane r s).vpoi = s.vpoi := rfl
@[simp] theorem clearLane_fib (r : LaneRef) (s : State) : (clearLane r s).fib = s.fib := rfl
@[simp] theorem clearLane_mon (r : LaneRef) (s : State) : (clearLane r s).mon = s.mon := rfl
@[simp] theorem clearLane_buf (r : LaneRef) (s : State) : (clearLane r s).buf = s.buf.erase r := rfl
@[simp] theorem clearLane_held (r : LaneRef) (s : State) : (clearLane r s).held = s.held.erase r := rfl
@[simp] theorem clearLane_thr (r : LaneRef) (s : State) : (clearLane r s).thr = s.thr := rfl
@[simp] theorem clearLane_slices (r : LaneRef) (s : State) : (clearLane r s).slices = s.slices := rfl
@[simp] theorem clearLane_serve (r : LaneRef) (s : State) : (clearLane r s).serve = s.serve := rfl
@[simp] theorem clearLane_greg (r : LaneRef) (s : State) : (clearLane r s).greg = s.greg := rfl
@[simp] theorem clearLane_gpoi (r : LaneRef) (s : State) : (clearLane r s).gpoi = s.gpoi := rfl
@[simp] theorem clearLane_gangs (r : LaneRef) (s : State) : (clearLane r s).gangs = s.gangs := rfl
@[simp] theorem clearLane_units (r : LaneRef) (s : State) : (clearLane r s).units = s.units := rfl
@[simp] theorem clearLane_hstage (r : LaneRef) (s : State) : (clearLane r s).hstage = s.hstage := rfl
@[simp] theorem clearLane_scr (r : LaneRef) (s : State) : (clearLane r s).scr = s.scr := rfl
@[simp] theorem clearLane_scrpoi (r : LaneRef) (s : State) : (clearLane r s).scrpoi = s.scrpoi := rfl
@[simp] theorem clearLane_l1 (r : LaneRef) (s : State) : (clearLane r s).l1 = s.l1 := rfl
@[simp] theorem clearLane_wq (r : LaneRef) (s : State) : (clearLane r s).wq = s.wq := rfl
@[simp] theorem clearLane_tlbCore (r : LaneRef) (s : State) : (clearLane r s).tlbCore = s.tlbCore := rfl
@[simp] theorem clearLane_tlbCluster (r : LaneRef) (s : State) : (clearLane r s).tlbCluster = s.tlbCluster := rfl
@[simp] theorem clearLane_copies (r : LaneRef) (s : State) : (clearLane r s).copies = s.copies := rfl
@[simp] theorem clearLane_mats (r : LaneRef) (s : State) : (clearLane r s).mats = s.mats := rfl
@[simp] theorem clearLane_copyLog (r : LaneRef) (s : State) : (clearLane r s).copyLog = s.copyLog := rfl
@[simp] theorem clearLane_matLog (r : LaneRef) (s : State) : (clearLane r s).matLog = s.matLog := rfl
@[simp] theorem clearLane_acc (r : LaneRef) (s : State) : (clearLane r s).acc = s.acc := rfl
@[simp] theorem clearLane_accpoi (r : LaneRef) (s : State) : (clearLane r s).accpoi = s.accpoi := rfl
@[simp] theorem clearLane_passes (r : LaneRef) (s : State) : (clearLane r s).passes = s.passes := rfl
@[simp] theorem clearLane_opbuf (r : LaneRef) (s : State) : (clearLane r s).opbuf = s.opbuf := rfl
@[simp] theorem clearLane_oppoi (r : LaneRef) (s : State) : (clearLane r s).oppoi = s.oppoi := rfl
@[simp] theorem clearLane_oprecs (r : LaneRef) (s : State) : (clearLane r s).oprecs = s.oprecs := rfl
@[simp] theorem clearLane_baton (r : LaneRef) (s : State) : (clearLane r s).baton = s.baton := rfl
@[simp] theorem clearLane_batonq (r : LaneRef) (s : State) : (clearLane r s).batonq = s.batonq := rfl
@[simp] theorem clearLane_fenced (r : LaneRef) (s : State) : (clearLane r s).fenced = s.fenced := rfl
@[simp] theorem clearLane_fencing (r : LaneRef) (s : State) : (clearLane r s).fencing = s.fencing := rfl
@[simp] theorem clearLane_mem (r : LaneRef) (s : State) : (clearLane r s).mem = s.mem := rfl
@[simp] theorem clearLane_mempoi (r : LaneRef) (s : State) : (clearLane r s).mempoi = s.mempoi := rfl
@[simp] theorem clearLane_ctxs (r : LaneRef) (s : State) : (clearLane r s).ctxs = s.ctxs := rfl
@[simp] theorem clearLane_modules (r : LaneRef) (s : State) : (clearLane r s).modules = s.modules := rfl
@[simp] theorem clearLane_cache (r : LaneRef) (s : State) : (clearLane r s).cache = s.cache := rfl
@[simp] theorem clearLane_lodes (r : LaneRef) (s : State) : (clearLane r s).lodes = s.lodes := rfl
@[simp] theorem clearLane_lodeOwner (r : LaneRef) (s : State) : (clearLane r s).lodeOwner = s.lodeOwner := rfl
@[simp] theorem clearLane_graphs (r : LaneRef) (s : State) : (clearLane r s).graphs = s.graphs := rfl
@[simp] theorem clearLane_trigs (r : LaneRef) (s : State) : (clearLane r s).trigs = s.trigs := rfl
@[simp] theorem clearLane_launches (r : LaneRef) (s : State) : (clearLane r s).launches = s.launches := rfl
@[simp] theorem clearLane_parks (r : LaneRef) (s : State) : (clearLane r s).parks = s.parks := rfl
@[simp] theorem clearLane_frecs (r : LaneRef) (s : State) : (clearLane r s).frecs = s.frecs := rfl
@[simp] theorem clearLane_quota (r : LaneRef) (s : State) : (clearLane r s).quota = s.quota := rfl
@[simp] theorem clearLane_links (r : LaneRef) (s : State) : (clearLane r s).links = s.links := rfl
@[simp] theorem clearLane_pkgid (r : LaneRef) (s : State) : (clearLane r s).pkgid = s.pkgid := rfl
@[simp] theorem clearLane_replies (r : LaneRef) (s : State) : (clearLane r s).replies = s.replies := rfl
@[simp] theorem clearLane_updates (r : LaneRef) (s : State) : (clearLane r s).updates = s.updates := rfl
@[simp] theorem clearLane_health (r : LaneRef) (s : State) : (clearLane r s).health = s.health := rfl
@[simp] theorem clearLane_replaceF (r : LaneRef) (s : State) : (clearLane r s).replaceF = s.replaceF := rfl
@[simp] theorem clearLane_drain (r : LaneRef) (s : State) : (clearLane r s).drain = s.drain := rfl
@[simp] theorem clearLane_dieover (r : LaneRef) (s : State) : (clearLane r s).dieover = s.dieover := rfl
@[simp] theorem clearLane_diedead (r : LaneRef) (s : State) : (clearLane r s).diedead = s.diedead := rfl
@[simp] theorem clearLane_chanoff (r : LaneRef) (s : State) : (clearLane r s).chanoff = s.chanoff := rfl
@[simp] theorem clearLane_coreCtr (r : LaneRef) (s : State) : (clearLane r s).coreCtr = s.coreCtr := rfl
@[simp] theorem clearLane_dieCtr (r : LaneRef) (s : State) : (clearLane r s).dieCtr = s.dieCtr := rfl
@[simp] theorem clearLane_measure (r : LaneRef) (s : State) : (clearLane r s).measure = s.measure := rfl
@[simp] theorem clearLane_booted (r : LaneRef) (s : State) : (clearLane r s).booted = s.booted := rfl
@[simp] theorem clearLane_cxl (r : LaneRef) (s : State) : (clearLane r s).cxl = s.cxl := rfl
@[simp] theorem clearLane_vfs (r : LaneRef) (s : State) : (clearLane r s).vfs = s.vfs := rfl
@[simp] theorem clearLane_revoked (r : LaneRef) (s : State) : (clearLane r s).revoked = s.revoked := rfl
@[simp] theorem clearLane_svn (r : LaneRef) (s : State) : (clearLane r s).svn = s.svn := rfl
@[simp] theorem clearLane_flashNs (r : LaneRef) (s : State) : (clearLane r s).flashNs = s.flashNs := rfl
@[simp] theorem clearLane_cap (r : LaneRef) (s : State) : (clearLane r s).cap = s.cap := rfl
@[simp] theorem clearLane_mhz (r : LaneRef) (s : State) : (clearLane r s).mhz = s.mhz := rfl
@[simp] theorem clearLane_off (r : LaneRef) (s : State) : (clearLane r s).off = s.off := rfl
@[simp] theorem clearLane_msix (r : LaneRef) (s : State) : (clearLane r s).msix = s.msix := rfl
@[simp] theorem clearLane_out (r : LaneRef) (s : State) : (clearLane r s).out = s.out := rfl

/-! ### dropLane -/

@[simp] theorem dropLane_agenda (r : LaneRef) (s : State) : (dropLane r s).agenda = s.agenda := rfl
@[simp] theorem dropLane_cur (r : LaneRef) (s : State) : (dropLane r s).cur = s.cur := rfl
@[simp] theorem dropLane_pgs (r : LaneRef) (s : State) : (dropLane r s).pgs = s.pgs := rfl
@[simp] theorem dropLane_secs (r : LaneRef) (s : State) : (dropLane r s).secs = s.secs := rfl
@[simp] theorem dropLane_clock (r : LaneRef) (s : State) : (dropLane r s).clock = s.clock := rfl
@[simp] theorem dropLane_free (r : LaneRef) (s : State) : (dropLane r s).free = s.free := rfl
@[simp] theorem dropLane_fresh (r : LaneRef) (s : State) : (dropLane r s).fresh = s.fresh := rfl
@[simp] theorem dropLane_vreg (r : LaneRef) (s : State) : (dropLane r s).vreg = s.vreg := rfl
@[simp] theorem dropLane_vpoi (r : LaneRef) (s : State) : (dropLane r s).vpoi = s.vpoi := rfl
@[simp] theorem dropLane_fib (r : LaneRef) (s : State) : (dropLane r s).fib = s.fib := rfl
@[simp] theorem dropLane_mon (r : LaneRef) (s : State) : (dropLane r s).mon = s.mon := rfl
@[simp] theorem dropLane_slot (r : LaneRef) (s : State) : (dropLane r s).slot = s.slot := rfl
@[simp] theorem dropLane_echo (r : LaneRef) (s : State) : (dropLane r s).echo = s.echo := rfl
@[simp] theorem dropLane_buf (r : LaneRef) (s : State) : (dropLane r s).buf = s.buf.erase r := rfl
@[simp] theorem dropLane_held (r : LaneRef) (s : State) : (dropLane r s).held = s.held.erase r := rfl
@[simp] theorem dropLane_thr (r : LaneRef) (s : State) : (dropLane r s).thr = s.thr := rfl
@[simp] theorem dropLane_slices (r : LaneRef) (s : State) : (dropLane r s).slices = s.slices := rfl
@[simp] theorem dropLane_serve (r : LaneRef) (s : State) : (dropLane r s).serve = s.serve := rfl
@[simp] theorem dropLane_greg (r : LaneRef) (s : State) : (dropLane r s).greg = s.greg := rfl
@[simp] theorem dropLane_gpoi (r : LaneRef) (s : State) : (dropLane r s).gpoi = s.gpoi := rfl
@[simp] theorem dropLane_gangs (r : LaneRef) (s : State) : (dropLane r s).gangs = s.gangs := rfl
@[simp] theorem dropLane_units (r : LaneRef) (s : State) : (dropLane r s).units = s.units := rfl
@[simp] theorem dropLane_hstage (r : LaneRef) (s : State) : (dropLane r s).hstage = s.hstage := rfl
@[simp] theorem dropLane_scr (r : LaneRef) (s : State) : (dropLane r s).scr = s.scr := rfl
@[simp] theorem dropLane_scrpoi (r : LaneRef) (s : State) : (dropLane r s).scrpoi = s.scrpoi := rfl
@[simp] theorem dropLane_l1 (r : LaneRef) (s : State) : (dropLane r s).l1 = s.l1 := rfl
@[simp] theorem dropLane_wq (r : LaneRef) (s : State) : (dropLane r s).wq = s.wq := rfl
@[simp] theorem dropLane_tlbCore (r : LaneRef) (s : State) : (dropLane r s).tlbCore = s.tlbCore := rfl
@[simp] theorem dropLane_tlbCluster (r : LaneRef) (s : State) : (dropLane r s).tlbCluster = s.tlbCluster := rfl
@[simp] theorem dropLane_copies (r : LaneRef) (s : State) : (dropLane r s).copies = s.copies := rfl
@[simp] theorem dropLane_mats (r : LaneRef) (s : State) : (dropLane r s).mats = s.mats := rfl
@[simp] theorem dropLane_copyLog (r : LaneRef) (s : State) : (dropLane r s).copyLog = s.copyLog := rfl
@[simp] theorem dropLane_matLog (r : LaneRef) (s : State) : (dropLane r s).matLog = s.matLog := rfl
@[simp] theorem dropLane_acc (r : LaneRef) (s : State) : (dropLane r s).acc = s.acc := rfl
@[simp] theorem dropLane_accpoi (r : LaneRef) (s : State) : (dropLane r s).accpoi = s.accpoi := rfl
@[simp] theorem dropLane_passes (r : LaneRef) (s : State) : (dropLane r s).passes = s.passes := rfl
@[simp] theorem dropLane_opbuf (r : LaneRef) (s : State) : (dropLane r s).opbuf = s.opbuf := rfl
@[simp] theorem dropLane_oppoi (r : LaneRef) (s : State) : (dropLane r s).oppoi = s.oppoi := rfl
@[simp] theorem dropLane_oprecs (r : LaneRef) (s : State) : (dropLane r s).oprecs = s.oprecs := rfl
@[simp] theorem dropLane_baton (r : LaneRef) (s : State) : (dropLane r s).baton = s.baton := rfl
@[simp] theorem dropLane_batonq (r : LaneRef) (s : State) : (dropLane r s).batonq = s.batonq := rfl
@[simp] theorem dropLane_fenced (r : LaneRef) (s : State) : (dropLane r s).fenced = s.fenced := rfl
@[simp] theorem dropLane_fencing (r : LaneRef) (s : State) : (dropLane r s).fencing = s.fencing := rfl
@[simp] theorem dropLane_mem (r : LaneRef) (s : State) : (dropLane r s).mem = s.mem := rfl
@[simp] theorem dropLane_mempoi (r : LaneRef) (s : State) : (dropLane r s).mempoi = s.mempoi := rfl
@[simp] theorem dropLane_ctxs (r : LaneRef) (s : State) : (dropLane r s).ctxs = s.ctxs := rfl
@[simp] theorem dropLane_modules (r : LaneRef) (s : State) : (dropLane r s).modules = s.modules := rfl
@[simp] theorem dropLane_cache (r : LaneRef) (s : State) : (dropLane r s).cache = s.cache := rfl
@[simp] theorem dropLane_lodes (r : LaneRef) (s : State) : (dropLane r s).lodes = s.lodes := rfl
@[simp] theorem dropLane_lodeOwner (r : LaneRef) (s : State) : (dropLane r s).lodeOwner = s.lodeOwner := rfl
@[simp] theorem dropLane_graphs (r : LaneRef) (s : State) : (dropLane r s).graphs = s.graphs := rfl
@[simp] theorem dropLane_trigs (r : LaneRef) (s : State) : (dropLane r s).trigs = s.trigs := rfl
@[simp] theorem dropLane_launches (r : LaneRef) (s : State) : (dropLane r s).launches = s.launches := rfl
@[simp] theorem dropLane_parks (r : LaneRef) (s : State) : (dropLane r s).parks = s.parks := rfl
@[simp] theorem dropLane_frecs (r : LaneRef) (s : State) : (dropLane r s).frecs = s.frecs := rfl
@[simp] theorem dropLane_quota (r : LaneRef) (s : State) : (dropLane r s).quota = s.quota := rfl
@[simp] theorem dropLane_links (r : LaneRef) (s : State) : (dropLane r s).links = s.links := rfl
@[simp] theorem dropLane_pkgid (r : LaneRef) (s : State) : (dropLane r s).pkgid = s.pkgid := rfl
@[simp] theorem dropLane_replies (r : LaneRef) (s : State) : (dropLane r s).replies = s.replies := rfl
@[simp] theorem dropLane_updates (r : LaneRef) (s : State) : (dropLane r s).updates = s.updates := rfl
@[simp] theorem dropLane_health (r : LaneRef) (s : State) : (dropLane r s).health = s.health := rfl
@[simp] theorem dropLane_replaceF (r : LaneRef) (s : State) : (dropLane r s).replaceF = s.replaceF := rfl
@[simp] theorem dropLane_drain (r : LaneRef) (s : State) : (dropLane r s).drain = s.drain := rfl
@[simp] theorem dropLane_dieover (r : LaneRef) (s : State) : (dropLane r s).dieover = s.dieover := rfl
@[simp] theorem dropLane_diedead (r : LaneRef) (s : State) : (dropLane r s).diedead = s.diedead := rfl
@[simp] theorem dropLane_chanoff (r : LaneRef) (s : State) : (dropLane r s).chanoff = s.chanoff := rfl
@[simp] theorem dropLane_coreCtr (r : LaneRef) (s : State) : (dropLane r s).coreCtr = s.coreCtr := rfl
@[simp] theorem dropLane_dieCtr (r : LaneRef) (s : State) : (dropLane r s).dieCtr = s.dieCtr := rfl
@[simp] theorem dropLane_measure (r : LaneRef) (s : State) : (dropLane r s).measure = s.measure := rfl
@[simp] theorem dropLane_booted (r : LaneRef) (s : State) : (dropLane r s).booted = s.booted := rfl
@[simp] theorem dropLane_cxl (r : LaneRef) (s : State) : (dropLane r s).cxl = s.cxl := rfl
@[simp] theorem dropLane_vfs (r : LaneRef) (s : State) : (dropLane r s).vfs = s.vfs := rfl
@[simp] theorem dropLane_revoked (r : LaneRef) (s : State) : (dropLane r s).revoked = s.revoked := rfl
@[simp] theorem dropLane_svn (r : LaneRef) (s : State) : (dropLane r s).svn = s.svn := rfl
@[simp] theorem dropLane_flashNs (r : LaneRef) (s : State) : (dropLane r s).flashNs = s.flashNs := rfl
@[simp] theorem dropLane_cap (r : LaneRef) (s : State) : (dropLane r s).cap = s.cap := rfl
@[simp] theorem dropLane_mhz (r : LaneRef) (s : State) : (dropLane r s).mhz = s.mhz := rfl
@[simp] theorem dropLane_off (r : LaneRef) (s : State) : (dropLane r s).off = s.off := rfl
@[simp] theorem dropLane_msix (r : LaneRef) (s : State) : (dropLane r s).msix = s.msix := rfl
@[simp] theorem dropLane_out (r : LaneRef) (s : State) : (dropLane r s).out = s.out := rfl

/-! ### takeBit -/

@[simp] theorem takeBit_agenda (s : State) : (takeBit s).2.agenda = s.agenda := rfl
@[simp] theorem takeBit_cur (s : State) : (takeBit s).2.cur = s.cur := rfl
@[simp] theorem takeBit_pgs (s : State) : (takeBit s).2.pgs = s.pgs := rfl
@[simp] theorem takeBit_secs (s : State) : (takeBit s).2.secs = s.secs := rfl
@[simp] theorem takeBit_clock (s : State) : (takeBit s).2.clock = s.clock := rfl
@[simp] theorem takeBit_free (s : State) : (takeBit s).2.free = s.free + 1 := rfl
@[simp] theorem takeBit_fresh (s : State) : (takeBit s).2.fresh = s.fresh := rfl
@[simp] theorem takeBit_vreg (s : State) : (takeBit s).2.vreg = s.vreg := rfl
@[simp] theorem takeBit_vpoi (s : State) : (takeBit s).2.vpoi = s.vpoi := rfl
@[simp] theorem takeBit_fib (s : State) : (takeBit s).2.fib = s.fib := rfl
@[simp] theorem takeBit_mon (s : State) : (takeBit s).2.mon = s.mon := rfl
@[simp] theorem takeBit_slot (s : State) : (takeBit s).2.slot = s.slot := rfl
@[simp] theorem takeBit_dirty (s : State) : (takeBit s).2.dirty = s.dirty := rfl
@[simp] theorem takeBit_echo (s : State) : (takeBit s).2.echo = s.echo := rfl
@[simp] theorem takeBit_buf (s : State) : (takeBit s).2.buf = s.buf := rfl
@[simp] theorem takeBit_held (s : State) : (takeBit s).2.held = s.held := rfl
@[simp] theorem takeBit_shad (s : State) : (takeBit s).2.shad = s.shad := rfl
@[simp] theorem takeBit_fill (s : State) : (takeBit s).2.fill = s.fill := rfl
@[simp] theorem takeBit_thr (s : State) : (takeBit s).2.thr = s.thr := rfl
@[simp] theorem takeBit_slices (s : State) : (takeBit s).2.slices = s.slices := rfl
@[simp] theorem takeBit_serve (s : State) : (takeBit s).2.serve = s.serve := rfl
@[simp] theorem takeBit_greg (s : State) : (takeBit s).2.greg = s.greg := rfl
@[simp] theorem takeBit_gpoi (s : State) : (takeBit s).2.gpoi = s.gpoi := rfl
@[simp] theorem takeBit_gangs (s : State) : (takeBit s).2.gangs = s.gangs := rfl
@[simp] theorem takeBit_units (s : State) : (takeBit s).2.units = s.units := rfl
@[simp] theorem takeBit_hstage (s : State) : (takeBit s).2.hstage = s.hstage := rfl
@[simp] theorem takeBit_scr (s : State) : (takeBit s).2.scr = s.scr := rfl
@[simp] theorem takeBit_scrpoi (s : State) : (takeBit s).2.scrpoi = s.scrpoi := rfl
@[simp] theorem takeBit_l1 (s : State) : (takeBit s).2.l1 = s.l1 := rfl
@[simp] theorem takeBit_wq (s : State) : (takeBit s).2.wq = s.wq := rfl
@[simp] theorem takeBit_tlbCore (s : State) : (takeBit s).2.tlbCore = s.tlbCore := rfl
@[simp] theorem takeBit_tlbCluster (s : State) : (takeBit s).2.tlbCluster = s.tlbCluster := rfl
@[simp] theorem takeBit_copies (s : State) : (takeBit s).2.copies = s.copies := rfl
@[simp] theorem takeBit_mats (s : State) : (takeBit s).2.mats = s.mats := rfl
@[simp] theorem takeBit_copyLog (s : State) : (takeBit s).2.copyLog = s.copyLog := rfl
@[simp] theorem takeBit_matLog (s : State) : (takeBit s).2.matLog = s.matLog := rfl
@[simp] theorem takeBit_acc (s : State) : (takeBit s).2.acc = s.acc := rfl
@[simp] theorem takeBit_accpoi (s : State) : (takeBit s).2.accpoi = s.accpoi := rfl
@[simp] theorem takeBit_passes (s : State) : (takeBit s).2.passes = s.passes := rfl
@[simp] theorem takeBit_opbuf (s : State) : (takeBit s).2.opbuf = s.opbuf := rfl
@[simp] theorem takeBit_oppoi (s : State) : (takeBit s).2.oppoi = s.oppoi := rfl
@[simp] theorem takeBit_oprecs (s : State) : (takeBit s).2.oprecs = s.oprecs := rfl
@[simp] theorem takeBit_baton (s : State) : (takeBit s).2.baton = s.baton := rfl
@[simp] theorem takeBit_batonq (s : State) : (takeBit s).2.batonq = s.batonq := rfl
@[simp] theorem takeBit_fenced (s : State) : (takeBit s).2.fenced = s.fenced := rfl
@[simp] theorem takeBit_fencing (s : State) : (takeBit s).2.fencing = s.fencing := rfl
@[simp] theorem takeBit_mem (s : State) : (takeBit s).2.mem = s.mem := rfl
@[simp] theorem takeBit_mempoi (s : State) : (takeBit s).2.mempoi = s.mempoi := rfl
@[simp] theorem takeBit_ctxs (s : State) : (takeBit s).2.ctxs = s.ctxs := rfl
@[simp] theorem takeBit_modules (s : State) : (takeBit s).2.modules = s.modules := rfl
@[simp] theorem takeBit_cache (s : State) : (takeBit s).2.cache = s.cache := rfl
@[simp] theorem takeBit_lodes (s : State) : (takeBit s).2.lodes = s.lodes := rfl
@[simp] theorem takeBit_lodeOwner (s : State) : (takeBit s).2.lodeOwner = s.lodeOwner := rfl
@[simp] theorem takeBit_graphs (s : State) : (takeBit s).2.graphs = s.graphs := rfl
@[simp] theorem takeBit_trigs (s : State) : (takeBit s).2.trigs = s.trigs := rfl
@[simp] theorem takeBit_launches (s : State) : (takeBit s).2.launches = s.launches := rfl
@[simp] theorem takeBit_parks (s : State) : (takeBit s).2.parks = s.parks := rfl
@[simp] theorem takeBit_frecs (s : State) : (takeBit s).2.frecs = s.frecs := rfl
@[simp] theorem takeBit_quota (s : State) : (takeBit s).2.quota = s.quota := rfl
@[simp] theorem takeBit_links (s : State) : (takeBit s).2.links = s.links := rfl
@[simp] theorem takeBit_pkgid (s : State) : (takeBit s).2.pkgid = s.pkgid := rfl
@[simp] theorem takeBit_replies (s : State) : (takeBit s).2.replies = s.replies := rfl
@[simp] theorem takeBit_updates (s : State) : (takeBit s).2.updates = s.updates := rfl
@[simp] theorem takeBit_health (s : State) : (takeBit s).2.health = s.health := rfl
@[simp] theorem takeBit_replaceF (s : State) : (takeBit s).2.replaceF = s.replaceF := rfl
@[simp] theorem takeBit_drain (s : State) : (takeBit s).2.drain = s.drain := rfl
@[simp] theorem takeBit_dieover (s : State) : (takeBit s).2.dieover = s.dieover := rfl
@[simp] theorem takeBit_diedead (s : State) : (takeBit s).2.diedead = s.diedead := rfl
@[simp] theorem takeBit_chanoff (s : State) : (takeBit s).2.chanoff = s.chanoff := rfl
@[simp] theorem takeBit_coreCtr (s : State) : (takeBit s).2.coreCtr = s.coreCtr := rfl
@[simp] theorem takeBit_dieCtr (s : State) : (takeBit s).2.dieCtr = s.dieCtr := rfl
@[simp] theorem takeBit_measure (s : State) : (takeBit s).2.measure = s.measure := rfl
@[simp] theorem takeBit_booted (s : State) : (takeBit s).2.booted = s.booted := rfl
@[simp] theorem takeBit_cxl (s : State) : (takeBit s).2.cxl = s.cxl := rfl
@[simp] theorem takeBit_vfs (s : State) : (takeBit s).2.vfs = s.vfs := rfl
@[simp] theorem takeBit_revoked (s : State) : (takeBit s).2.revoked = s.revoked := rfl
@[simp] theorem takeBit_svn (s : State) : (takeBit s).2.svn = s.svn := rfl
@[simp] theorem takeBit_flashNs (s : State) : (takeBit s).2.flashNs = s.flashNs := rfl
@[simp] theorem takeBit_cap (s : State) : (takeBit s).2.cap = s.cap := rfl
@[simp] theorem takeBit_mhz (s : State) : (takeBit s).2.mhz = s.mhz := rfl
@[simp] theorem takeBit_off (s : State) : (takeBit s).2.off = s.off := rfl
@[simp] theorem takeBit_msix (s : State) : (takeBit s).2.msix = s.msix := rfl
@[simp] theorem takeBit_out (s : State) : (takeBit s).2.out = s.out := rfl

/-! ### takeNat -/

@[simp] theorem takeNat_agenda (s : State) : (takeNat s).2.agenda = s.agenda := rfl
@[simp] theorem takeNat_cur (s : State) : (takeNat s).2.cur = s.cur := rfl
@[simp] theorem takeNat_pgs (s : State) : (takeNat s).2.pgs = s.pgs := rfl
@[simp] theorem takeNat_secs (s : State) : (takeNat s).2.secs = s.secs := rfl
@[simp] theorem takeNat_clock (s : State) : (takeNat s).2.clock = s.clock := rfl
@[simp] theorem takeNat_free (s : State) : (takeNat s).2.free = s.free + 1 := rfl
@[simp] theorem takeNat_fresh (s : State) : (takeNat s).2.fresh = s.fresh := rfl
@[simp] theorem takeNat_vreg (s : State) : (takeNat s).2.vreg = s.vreg := rfl
@[simp] theorem takeNat_vpoi (s : State) : (takeNat s).2.vpoi = s.vpoi := rfl
@[simp] theorem takeNat_fib (s : State) : (takeNat s).2.fib = s.fib := rfl
@[simp] theorem takeNat_mon (s : State) : (takeNat s).2.mon = s.mon := rfl
@[simp] theorem takeNat_slot (s : State) : (takeNat s).2.slot = s.slot := rfl
@[simp] theorem takeNat_dirty (s : State) : (takeNat s).2.dirty = s.dirty := rfl
@[simp] theorem takeNat_echo (s : State) : (takeNat s).2.echo = s.echo := rfl
@[simp] theorem takeNat_buf (s : State) : (takeNat s).2.buf = s.buf := rfl
@[simp] theorem takeNat_held (s : State) : (takeNat s).2.held = s.held := rfl
@[simp] theorem takeNat_shad (s : State) : (takeNat s).2.shad = s.shad := rfl
@[simp] theorem takeNat_fill (s : State) : (takeNat s).2.fill = s.fill := rfl
@[simp] theorem takeNat_thr (s : State) : (takeNat s).2.thr = s.thr := rfl
@[simp] theorem takeNat_slices (s : State) : (takeNat s).2.slices = s.slices := rfl
@[simp] theorem takeNat_serve (s : State) : (takeNat s).2.serve = s.serve := rfl
@[simp] theorem takeNat_greg (s : State) : (takeNat s).2.greg = s.greg := rfl
@[simp] theorem takeNat_gpoi (s : State) : (takeNat s).2.gpoi = s.gpoi := rfl
@[simp] theorem takeNat_gangs (s : State) : (takeNat s).2.gangs = s.gangs := rfl
@[simp] theorem takeNat_units (s : State) : (takeNat s).2.units = s.units := rfl
@[simp] theorem takeNat_hstage (s : State) : (takeNat s).2.hstage = s.hstage := rfl
@[simp] theorem takeNat_scr (s : State) : (takeNat s).2.scr = s.scr := rfl
@[simp] theorem takeNat_scrpoi (s : State) : (takeNat s).2.scrpoi = s.scrpoi := rfl
@[simp] theorem takeNat_l1 (s : State) : (takeNat s).2.l1 = s.l1 := rfl
@[simp] theorem takeNat_wq (s : State) : (takeNat s).2.wq = s.wq := rfl
@[simp] theorem takeNat_tlbCore (s : State) : (takeNat s).2.tlbCore = s.tlbCore := rfl
@[simp] theorem takeNat_tlbCluster (s : State) : (takeNat s).2.tlbCluster = s.tlbCluster := rfl
@[simp] theorem takeNat_copies (s : State) : (takeNat s).2.copies = s.copies := rfl
@[simp] theorem takeNat_mats (s : State) : (takeNat s).2.mats = s.mats := rfl
@[simp] theorem takeNat_copyLog (s : State) : (takeNat s).2.copyLog = s.copyLog := rfl
@[simp] theorem takeNat_matLog (s : State) : (takeNat s).2.matLog = s.matLog := rfl
@[simp] theorem takeNat_acc (s : State) : (takeNat s).2.acc = s.acc := rfl
@[simp] theorem takeNat_accpoi (s : State) : (takeNat s).2.accpoi = s.accpoi := rfl
@[simp] theorem takeNat_passes (s : State) : (takeNat s).2.passes = s.passes := rfl
@[simp] theorem takeNat_opbuf (s : State) : (takeNat s).2.opbuf = s.opbuf := rfl
@[simp] theorem takeNat_oppoi (s : State) : (takeNat s).2.oppoi = s.oppoi := rfl
@[simp] theorem takeNat_oprecs (s : State) : (takeNat s).2.oprecs = s.oprecs := rfl
@[simp] theorem takeNat_baton (s : State) : (takeNat s).2.baton = s.baton := rfl
@[simp] theorem takeNat_batonq (s : State) : (takeNat s).2.batonq = s.batonq := rfl
@[simp] theorem takeNat_fenced (s : State) : (takeNat s).2.fenced = s.fenced := rfl
@[simp] theorem takeNat_fencing (s : State) : (takeNat s).2.fencing = s.fencing := rfl
@[simp] theorem takeNat_mem (s : State) : (takeNat s).2.mem = s.mem := rfl
@[simp] theorem takeNat_mempoi (s : State) : (takeNat s).2.mempoi = s.mempoi := rfl
@[simp] theorem takeNat_ctxs (s : State) : (takeNat s).2.ctxs = s.ctxs := rfl
@[simp] theorem takeNat_modules (s : State) : (takeNat s).2.modules = s.modules := rfl
@[simp] theorem takeNat_cache (s : State) : (takeNat s).2.cache = s.cache := rfl
@[simp] theorem takeNat_lodes (s : State) : (takeNat s).2.lodes = s.lodes := rfl
@[simp] theorem takeNat_lodeOwner (s : State) : (takeNat s).2.lodeOwner = s.lodeOwner := rfl
@[simp] theorem takeNat_graphs (s : State) : (takeNat s).2.graphs = s.graphs := rfl
@[simp] theorem takeNat_trigs (s : State) : (takeNat s).2.trigs = s.trigs := rfl
@[simp] theorem takeNat_launches (s : State) : (takeNat s).2.launches = s.launches := rfl
@[simp] theorem takeNat_parks (s : State) : (takeNat s).2.parks = s.parks := rfl
@[simp] theorem takeNat_frecs (s : State) : (takeNat s).2.frecs = s.frecs := rfl
@[simp] theorem takeNat_quota (s : State) : (takeNat s).2.quota = s.quota := rfl
@[simp] theorem takeNat_links (s : State) : (takeNat s).2.links = s.links := rfl
@[simp] theorem takeNat_pkgid (s : State) : (takeNat s).2.pkgid = s.pkgid := rfl
@[simp] theorem takeNat_replies (s : State) : (takeNat s).2.replies = s.replies := rfl
@[simp] theorem takeNat_updates (s : State) : (takeNat s).2.updates = s.updates := rfl
@[simp] theorem takeNat_health (s : State) : (takeNat s).2.health = s.health := rfl
@[simp] theorem takeNat_replaceF (s : State) : (takeNat s).2.replaceF = s.replaceF := rfl
@[simp] theorem takeNat_drain (s : State) : (takeNat s).2.drain = s.drain := rfl
@[simp] theorem takeNat_dieover (s : State) : (takeNat s).2.dieover = s.dieover := rfl
@[simp] theorem takeNat_diedead (s : State) : (takeNat s).2.diedead = s.diedead := rfl
@[simp] theorem takeNat_chanoff (s : State) : (takeNat s).2.chanoff = s.chanoff := rfl
@[simp] theorem takeNat_coreCtr (s : State) : (takeNat s).2.coreCtr = s.coreCtr := rfl
@[simp] theorem takeNat_dieCtr (s : State) : (takeNat s).2.dieCtr = s.dieCtr := rfl
@[simp] theorem takeNat_measure (s : State) : (takeNat s).2.measure = s.measure := rfl
@[simp] theorem takeNat_booted (s : State) : (takeNat s).2.booted = s.booted := rfl
@[simp] theorem takeNat_cxl (s : State) : (takeNat s).2.cxl = s.cxl := rfl
@[simp] theorem takeNat_vfs (s : State) : (takeNat s).2.vfs = s.vfs := rfl
@[simp] theorem takeNat_revoked (s : State) : (takeNat s).2.revoked = s.revoked := rfl
@[simp] theorem takeNat_svn (s : State) : (takeNat s).2.svn = s.svn := rfl
@[simp] theorem takeNat_flashNs (s : State) : (takeNat s).2.flashNs = s.flashNs := rfl
@[simp] theorem takeNat_cap (s : State) : (takeNat s).2.cap = s.cap := rfl
@[simp] theorem takeNat_mhz (s : State) : (takeNat s).2.mhz = s.mhz := rfl
@[simp] theorem takeNat_off (s : State) : (takeNat s).2.off = s.off := rfl
@[simp] theorem takeNat_msix (s : State) : (takeNat s).2.msix = s.msix := rfl
@[simp] theorem takeNat_out (s : State) : (takeNat s).2.out = s.out := rfl

/-! ### takeFresh -/

@[simp] theorem takeFresh_agenda (s : State) : (takeFresh s).2.agenda = s.agenda := rfl
@[simp] theorem takeFresh_cur (s : State) : (takeFresh s).2.cur = s.cur := rfl
@[simp] theorem takeFresh_pgs (s : State) : (takeFresh s).2.pgs = s.pgs := rfl
@[simp] theorem takeFresh_secs (s : State) : (takeFresh s).2.secs = s.secs := rfl
@[simp] theorem takeFresh_clock (s : State) : (takeFresh s).2.clock = s.clock := rfl
@[simp] theorem takeFresh_free (s : State) : (takeFresh s).2.free = s.free := rfl
@[simp] theorem takeFresh_fresh (s : State) : (takeFresh s).2.fresh = s.fresh + 1 := rfl
@[simp] theorem takeFresh_vreg (s : State) : (takeFresh s).2.vreg = s.vreg := rfl
@[simp] theorem takeFresh_vpoi (s : State) : (takeFresh s).2.vpoi = s.vpoi := rfl
@[simp] theorem takeFresh_fib (s : State) : (takeFresh s).2.fib = s.fib := rfl
@[simp] theorem takeFresh_mon (s : State) : (takeFresh s).2.mon = s.mon := rfl
@[simp] theorem takeFresh_slot (s : State) : (takeFresh s).2.slot = s.slot := rfl
@[simp] theorem takeFresh_dirty (s : State) : (takeFresh s).2.dirty = s.dirty := rfl
@[simp] theorem takeFresh_echo (s : State) : (takeFresh s).2.echo = s.echo := rfl
@[simp] theorem takeFresh_buf (s : State) : (takeFresh s).2.buf = s.buf := rfl
@[simp] theorem takeFresh_held (s : State) : (takeFresh s).2.held = s.held := rfl
@[simp] theorem takeFresh_shad (s : State) : (takeFresh s).2.shad = s.shad := rfl
@[simp] theorem takeFresh_fill (s : State) : (takeFresh s).2.fill = s.fill := rfl
@[simp] theorem takeFresh_thr (s : State) : (takeFresh s).2.thr = s.thr := rfl
@[simp] theorem takeFresh_slices (s : State) : (takeFresh s).2.slices = s.slices := rfl
@[simp] theorem takeFresh_serve (s : State) : (takeFresh s).2.serve = s.serve := rfl
@[simp] theorem takeFresh_greg (s : State) : (takeFresh s).2.greg = s.greg := rfl
@[simp] theorem takeFresh_gpoi (s : State) : (takeFresh s).2.gpoi = s.gpoi := rfl
@[simp] theorem takeFresh_gangs (s : State) : (takeFresh s).2.gangs = s.gangs := rfl
@[simp] theorem takeFresh_units (s : State) : (takeFresh s).2.units = s.units := rfl
@[simp] theorem takeFresh_hstage (s : State) : (takeFresh s).2.hstage = s.hstage := rfl
@[simp] theorem takeFresh_scr (s : State) : (takeFresh s).2.scr = s.scr := rfl
@[simp] theorem takeFresh_scrpoi (s : State) : (takeFresh s).2.scrpoi = s.scrpoi := rfl
@[simp] theorem takeFresh_l1 (s : State) : (takeFresh s).2.l1 = s.l1 := rfl
@[simp] theorem takeFresh_wq (s : State) : (takeFresh s).2.wq = s.wq := rfl
@[simp] theorem takeFresh_tlbCore (s : State) : (takeFresh s).2.tlbCore = s.tlbCore := rfl
@[simp] theorem takeFresh_tlbCluster (s : State) : (takeFresh s).2.tlbCluster = s.tlbCluster := rfl
@[simp] theorem takeFresh_copies (s : State) : (takeFresh s).2.copies = s.copies := rfl
@[simp] theorem takeFresh_mats (s : State) : (takeFresh s).2.mats = s.mats := rfl
@[simp] theorem takeFresh_copyLog (s : State) : (takeFresh s).2.copyLog = s.copyLog := rfl
@[simp] theorem takeFresh_matLog (s : State) : (takeFresh s).2.matLog = s.matLog := rfl
@[simp] theorem takeFresh_acc (s : State) : (takeFresh s).2.acc = s.acc := rfl
@[simp] theorem takeFresh_accpoi (s : State) : (takeFresh s).2.accpoi = s.accpoi := rfl
@[simp] theorem takeFresh_passes (s : State) : (takeFresh s).2.passes = s.passes := rfl
@[simp] theorem takeFresh_opbuf (s : State) : (takeFresh s).2.opbuf = s.opbuf := rfl
@[simp] theorem takeFresh_oppoi (s : State) : (takeFresh s).2.oppoi = s.oppoi := rfl
@[simp] theorem takeFresh_oprecs (s : State) : (takeFresh s).2.oprecs = s.oprecs := rfl
@[simp] theorem takeFresh_baton (s : State) : (takeFresh s).2.baton = s.baton := rfl
@[simp] theorem takeFresh_batonq (s : State) : (takeFresh s).2.batonq = s.batonq := rfl
@[simp] theorem takeFresh_fenced (s : State) : (takeFresh s).2.fenced = s.fenced := rfl
@[simp] theorem takeFresh_fencing (s : State) : (takeFresh s).2.fencing = s.fencing := rfl
@[simp] theorem takeFresh_mem (s : State) : (takeFresh s).2.mem = s.mem := rfl
@[simp] theorem takeFresh_mempoi (s : State) : (takeFresh s).2.mempoi = s.mempoi := rfl
@[simp] theorem takeFresh_ctxs (s : State) : (takeFresh s).2.ctxs = s.ctxs := rfl
@[simp] theorem takeFresh_modules (s : State) : (takeFresh s).2.modules = s.modules := rfl
@[simp] theorem takeFresh_cache (s : State) : (takeFresh s).2.cache = s.cache := rfl
@[simp] theorem takeFresh_lodes (s : State) : (takeFresh s).2.lodes = s.lodes := rfl
@[simp] theorem takeFresh_lodeOwner (s : State) : (takeFresh s).2.lodeOwner = s.lodeOwner := rfl
@[simp] theorem takeFresh_graphs (s : State) : (takeFresh s).2.graphs = s.graphs := rfl
@[simp] theorem takeFresh_trigs (s : State) : (takeFresh s).2.trigs = s.trigs := rfl
@[simp] theorem takeFresh_launches (s : State) : (takeFresh s).2.launches = s.launches := rfl
@[simp] theorem takeFresh_parks (s : State) : (takeFresh s).2.parks = s.parks := rfl
@[simp] theorem takeFresh_frecs (s : State) : (takeFresh s).2.frecs = s.frecs := rfl
@[simp] theorem takeFresh_quota (s : State) : (takeFresh s).2.quota = s.quota := rfl
@[simp] theorem takeFresh_links (s : State) : (takeFresh s).2.links = s.links := rfl
@[simp] theorem takeFresh_pkgid (s : State) : (takeFresh s).2.pkgid = s.pkgid := rfl
@[simp] theorem takeFresh_replies (s : State) : (takeFresh s).2.replies = s.replies := rfl
@[simp] theorem takeFresh_updates (s : State) : (takeFresh s).2.updates = s.updates := rfl
@[simp] theorem takeFresh_health (s : State) : (takeFresh s).2.health = s.health := rfl
@[simp] theorem takeFresh_replaceF (s : State) : (takeFresh s).2.replaceF = s.replaceF := rfl
@[simp] theorem takeFresh_drain (s : State) : (takeFresh s).2.drain = s.drain := rfl
@[simp] theorem takeFresh_dieover (s : State) : (takeFresh s).2.dieover = s.dieover := rfl
@[simp] theorem takeFresh_diedead (s : State) : (takeFresh s).2.diedead = s.diedead := rfl
@[simp] theorem takeFresh_chanoff (s : State) : (takeFresh s).2.chanoff = s.chanoff := rfl
@[simp] theorem takeFresh_coreCtr (s : State) : (takeFresh s).2.coreCtr = s.coreCtr := rfl
@[simp] theorem takeFresh_dieCtr (s : State) : (takeFresh s).2.dieCtr = s.dieCtr := rfl
@[simp] theorem takeFresh_measure (s : State) : (takeFresh s).2.measure = s.measure := rfl
@[simp] theorem takeFresh_booted (s : State) : (takeFresh s).2.booted = s.booted := rfl
@[simp] theorem takeFresh_cxl (s : State) : (takeFresh s).2.cxl = s.cxl := rfl
@[simp] theorem takeFresh_vfs (s : State) : (takeFresh s).2.vfs = s.vfs := rfl
@[simp] theorem takeFresh_revoked (s : State) : (takeFresh s).2.revoked = s.revoked := rfl
@[simp] theorem takeFresh_svn (s : State) : (takeFresh s).2.svn = s.svn := rfl
@[simp] theorem takeFresh_flashNs (s : State) : (takeFresh s).2.flashNs = s.flashNs := rfl
@[simp] theorem takeFresh_cap (s : State) : (takeFresh s).2.cap = s.cap := rfl
@[simp] theorem takeFresh_mhz (s : State) : (takeFresh s).2.mhz = s.mhz := rfl
@[simp] theorem takeFresh_off (s : State) : (takeFresh s).2.off = s.off := rfl
@[simp] theorem takeFresh_msix (s : State) : (takeFresh s).2.msix = s.msix := rfl
@[simp] theorem takeFresh_out (s : State) : (takeFresh s).2.out = s.out := rfl

/-! ### Folds -/

/-- A fold of a function that keeps something keeps it. -/
theorem foldl_keeps {α β : Type} (g : State → β) (F : State → α → State) (h : ∀ s a, g (F s a) = g s) (l : List α) (s : State) :
    g (l.foldl F s) = g s := by
  induction l generalizing s with
  | nil => rfl
  | cons a l ih => rw [List.foldl_cons, ih, h]

/-! ### modThreads -/

@[simp] theorem modThreads_agenda (iss : Issue) (f : Thread → Thread) (s : State) : (modThreads iss f s).agenda = s.agenda :=
  foldl_keeps (·.agenda) (fun s t => modThread t f s) (fun _ _ => rfl) iss.threads s
@[simp] theorem modThreads_cur (iss : Issue) (f : Thread → Thread) (s : State) : (modThreads iss f s).cur = s.cur :=
  foldl_keeps (·.cur) (fun s t => modThread t f s) (fun _ _ => rfl) iss.threads s
@[simp] theorem modThreads_pgs (iss : Issue) (f : Thread → Thread) (s : State) : (modThreads iss f s).pgs = s.pgs :=
  foldl_keeps (·.pgs) (fun s t => modThread t f s) (fun _ _ => rfl) iss.threads s
@[simp] theorem modThreads_secs (iss : Issue) (f : Thread → Thread) (s : State) : (modThreads iss f s).secs = s.secs :=
  foldl_keeps (·.secs) (fun s t => modThread t f s) (fun _ _ => rfl) iss.threads s
@[simp] theorem modThreads_clock (iss : Issue) (f : Thread → Thread) (s : State) : (modThreads iss f s).clock = s.clock :=
  foldl_keeps (·.clock) (fun s t => modThread t f s) (fun _ _ => rfl) iss.threads s
@[simp] theorem modThreads_free (iss : Issue) (f : Thread → Thread) (s : State) : (modThreads iss f s).free = s.free :=
  foldl_keeps (·.free) (fun s t => modThread t f s) (fun _ _ => rfl) iss.threads s
@[simp] theorem modThreads_fresh (iss : Issue) (f : Thread → Thread) (s : State) : (modThreads iss f s).fresh = s.fresh :=
  foldl_keeps (·.fresh) (fun s t => modThread t f s) (fun _ _ => rfl) iss.threads s
@[simp] theorem modThreads_vreg (iss : Issue) (f : Thread → Thread) (s : State) : (modThreads iss f s).vreg = s.vreg :=
  foldl_keeps (·.vreg) (fun s t => modThread t f s) (fun _ _ => rfl) iss.threads s
@[simp] theorem modThreads_vpoi (iss : Issue) (f : Thread → Thread) (s : State) : (modThreads iss f s).vpoi = s.vpoi :=
  foldl_keeps (·.vpoi) (fun s t => modThread t f s) (fun _ _ => rfl) iss.threads s
@[simp] theorem modThreads_fib (iss : Issue) (f : Thread → Thread) (s : State) : (modThreads iss f s).fib = s.fib :=
  foldl_keeps (·.fib) (fun s t => modThread t f s) (fun _ _ => rfl) iss.threads s
@[simp] theorem modThreads_mon (iss : Issue) (f : Thread → Thread) (s : State) : (modThreads iss f s).mon = s.mon :=
  foldl_keeps (·.mon) (fun s t => modThread t f s) (fun _ _ => rfl) iss.threads s
@[simp] theorem modThreads_slot (iss : Issue) (f : Thread → Thread) (s : State) : (modThreads iss f s).slot = s.slot :=
  foldl_keeps (·.slot) (fun s t => modThread t f s) (fun _ _ => rfl) iss.threads s
@[simp] theorem modThreads_dirty (iss : Issue) (f : Thread → Thread) (s : State) : (modThreads iss f s).dirty = s.dirty :=
  foldl_keeps (·.dirty) (fun s t => modThread t f s) (fun _ _ => rfl) iss.threads s
@[simp] theorem modThreads_echo (iss : Issue) (f : Thread → Thread) (s : State) : (modThreads iss f s).echo = s.echo :=
  foldl_keeps (·.echo) (fun s t => modThread t f s) (fun _ _ => rfl) iss.threads s
@[simp] theorem modThreads_buf (iss : Issue) (f : Thread → Thread) (s : State) : (modThreads iss f s).buf = s.buf :=
  foldl_keeps (·.buf) (fun s t => modThread t f s) (fun _ _ => rfl) iss.threads s
@[simp] theorem modThreads_held (iss : Issue) (f : Thread → Thread) (s : State) : (modThreads iss f s).held = s.held :=
  foldl_keeps (·.held) (fun s t => modThread t f s) (fun _ _ => rfl) iss.threads s
@[simp] theorem modThreads_shad (iss : Issue) (f : Thread → Thread) (s : State) : (modThreads iss f s).shad = s.shad :=
  foldl_keeps (·.shad) (fun s t => modThread t f s) (fun _ _ => rfl) iss.threads s
@[simp] theorem modThreads_fill (iss : Issue) (f : Thread → Thread) (s : State) : (modThreads iss f s).fill = s.fill :=
  foldl_keeps (·.fill) (fun s t => modThread t f s) (fun _ _ => rfl) iss.threads s
@[simp] theorem modThreads_slices (iss : Issue) (f : Thread → Thread) (s : State) : (modThreads iss f s).slices = s.slices :=
  foldl_keeps (·.slices) (fun s t => modThread t f s) (fun _ _ => rfl) iss.threads s
@[simp] theorem modThreads_serve (iss : Issue) (f : Thread → Thread) (s : State) : (modThreads iss f s).serve = s.serve :=
  foldl_keeps (·.serve) (fun s t => modThread t f s) (fun _ _ => rfl) iss.threads s
@[simp] theorem modThreads_greg (iss : Issue) (f : Thread → Thread) (s : State) : (modThreads iss f s).greg = s.greg :=
  foldl_keeps (·.greg) (fun s t => modThread t f s) (fun _ _ => rfl) iss.threads s
@[simp] theorem modThreads_gpoi (iss : Issue) (f : Thread → Thread) (s : State) : (modThreads iss f s).gpoi = s.gpoi :=
  foldl_keeps (·.gpoi) (fun s t => modThread t f s) (fun _ _ => rfl) iss.threads s
@[simp] theorem modThreads_gangs (iss : Issue) (f : Thread → Thread) (s : State) : (modThreads iss f s).gangs = s.gangs :=
  foldl_keeps (·.gangs) (fun s t => modThread t f s) (fun _ _ => rfl) iss.threads s
@[simp] theorem modThreads_units (iss : Issue) (f : Thread → Thread) (s : State) : (modThreads iss f s).units = s.units :=
  foldl_keeps (·.units) (fun s t => modThread t f s) (fun _ _ => rfl) iss.threads s
@[simp] theorem modThreads_hstage (iss : Issue) (f : Thread → Thread) (s : State) : (modThreads iss f s).hstage = s.hstage :=
  foldl_keeps (·.hstage) (fun s t => modThread t f s) (fun _ _ => rfl) iss.threads s
@[simp] theorem modThreads_scr (iss : Issue) (f : Thread → Thread) (s : State) : (modThreads iss f s).scr = s.scr :=
  foldl_keeps (·.scr) (fun s t => modThread t f s) (fun _ _ => rfl) iss.threads s
@[simp] theorem modThreads_scrpoi (iss : Issue) (f : Thread → Thread) (s : State) : (modThreads iss f s).scrpoi = s.scrpoi :=
  foldl_keeps (·.scrpoi) (fun s t => modThread t f s) (fun _ _ => rfl) iss.threads s
@[simp] theorem modThreads_l1 (iss : Issue) (f : Thread → Thread) (s : State) : (modThreads iss f s).l1 = s.l1 :=
  foldl_keeps (·.l1) (fun s t => modThread t f s) (fun _ _ => rfl) iss.threads s
@[simp] theorem modThreads_wq (iss : Issue) (f : Thread → Thread) (s : State) : (modThreads iss f s).wq = s.wq :=
  foldl_keeps (·.wq) (fun s t => modThread t f s) (fun _ _ => rfl) iss.threads s
@[simp] theorem modThreads_tlbCore (iss : Issue) (f : Thread → Thread) (s : State) : (modThreads iss f s).tlbCore = s.tlbCore :=
  foldl_keeps (·.tlbCore) (fun s t => modThread t f s) (fun _ _ => rfl) iss.threads s
@[simp] theorem modThreads_tlbCluster (iss : Issue) (f : Thread → Thread) (s : State) : (modThreads iss f s).tlbCluster = s.tlbCluster :=
  foldl_keeps (·.tlbCluster) (fun s t => modThread t f s) (fun _ _ => rfl) iss.threads s
@[simp] theorem modThreads_copies (iss : Issue) (f : Thread → Thread) (s : State) : (modThreads iss f s).copies = s.copies :=
  foldl_keeps (·.copies) (fun s t => modThread t f s) (fun _ _ => rfl) iss.threads s
@[simp] theorem modThreads_mats (iss : Issue) (f : Thread → Thread) (s : State) : (modThreads iss f s).mats = s.mats :=
  foldl_keeps (·.mats) (fun s t => modThread t f s) (fun _ _ => rfl) iss.threads s
@[simp] theorem modThreads_copyLog (iss : Issue) (f : Thread → Thread) (s : State) : (modThreads iss f s).copyLog = s.copyLog :=
  foldl_keeps (·.copyLog) (fun s t => modThread t f s) (fun _ _ => rfl) iss.threads s
@[simp] theorem modThreads_matLog (iss : Issue) (f : Thread → Thread) (s : State) : (modThreads iss f s).matLog = s.matLog :=
  foldl_keeps (·.matLog) (fun s t => modThread t f s) (fun _ _ => rfl) iss.threads s
@[simp] theorem modThreads_acc (iss : Issue) (f : Thread → Thread) (s : State) : (modThreads iss f s).acc = s.acc :=
  foldl_keeps (·.acc) (fun s t => modThread t f s) (fun _ _ => rfl) iss.threads s
@[simp] theorem modThreads_accpoi (iss : Issue) (f : Thread → Thread) (s : State) : (modThreads iss f s).accpoi = s.accpoi :=
  foldl_keeps (·.accpoi) (fun s t => modThread t f s) (fun _ _ => rfl) iss.threads s
@[simp] theorem modThreads_passes (iss : Issue) (f : Thread → Thread) (s : State) : (modThreads iss f s).passes = s.passes :=
  foldl_keeps (·.passes) (fun s t => modThread t f s) (fun _ _ => rfl) iss.threads s
@[simp] theorem modThreads_opbuf (iss : Issue) (f : Thread → Thread) (s : State) : (modThreads iss f s).opbuf = s.opbuf :=
  foldl_keeps (·.opbuf) (fun s t => modThread t f s) (fun _ _ => rfl) iss.threads s
@[simp] theorem modThreads_oppoi (iss : Issue) (f : Thread → Thread) (s : State) : (modThreads iss f s).oppoi = s.oppoi :=
  foldl_keeps (·.oppoi) (fun s t => modThread t f s) (fun _ _ => rfl) iss.threads s
@[simp] theorem modThreads_oprecs (iss : Issue) (f : Thread → Thread) (s : State) : (modThreads iss f s).oprecs = s.oprecs :=
  foldl_keeps (·.oprecs) (fun s t => modThread t f s) (fun _ _ => rfl) iss.threads s
@[simp] theorem modThreads_baton (iss : Issue) (f : Thread → Thread) (s : State) : (modThreads iss f s).baton = s.baton :=
  foldl_keeps (·.baton) (fun s t => modThread t f s) (fun _ _ => rfl) iss.threads s
@[simp] theorem modThreads_batonq (iss : Issue) (f : Thread → Thread) (s : State) : (modThreads iss f s).batonq = s.batonq :=
  foldl_keeps (·.batonq) (fun s t => modThread t f s) (fun _ _ => rfl) iss.threads s
@[simp] theorem modThreads_fenced (iss : Issue) (f : Thread → Thread) (s : State) : (modThreads iss f s).fenced = s.fenced :=
  foldl_keeps (·.fenced) (fun s t => modThread t f s) (fun _ _ => rfl) iss.threads s
@[simp] theorem modThreads_fencing (iss : Issue) (f : Thread → Thread) (s : State) : (modThreads iss f s).fencing = s.fencing :=
  foldl_keeps (·.fencing) (fun s t => modThread t f s) (fun _ _ => rfl) iss.threads s
@[simp] theorem modThreads_mem (iss : Issue) (f : Thread → Thread) (s : State) : (modThreads iss f s).mem = s.mem :=
  foldl_keeps (·.mem) (fun s t => modThread t f s) (fun _ _ => rfl) iss.threads s
@[simp] theorem modThreads_mempoi (iss : Issue) (f : Thread → Thread) (s : State) : (modThreads iss f s).mempoi = s.mempoi :=
  foldl_keeps (·.mempoi) (fun s t => modThread t f s) (fun _ _ => rfl) iss.threads s
@[simp] theorem modThreads_ctxs (iss : Issue) (f : Thread → Thread) (s : State) : (modThreads iss f s).ctxs = s.ctxs :=
  foldl_keeps (·.ctxs) (fun s t => modThread t f s) (fun _ _ => rfl) iss.threads s
@[simp] theorem modThreads_modules (iss : Issue) (f : Thread → Thread) (s : State) : (modThreads iss f s).modules = s.modules :=
  foldl_keeps (·.modules) (fun s t => modThread t f s) (fun _ _ => rfl) iss.threads s
@[simp] theorem modThreads_cache (iss : Issue) (f : Thread → Thread) (s : State) : (modThreads iss f s).cache = s.cache :=
  foldl_keeps (·.cache) (fun s t => modThread t f s) (fun _ _ => rfl) iss.threads s
@[simp] theorem modThreads_lodes (iss : Issue) (f : Thread → Thread) (s : State) : (modThreads iss f s).lodes = s.lodes :=
  foldl_keeps (·.lodes) (fun s t => modThread t f s) (fun _ _ => rfl) iss.threads s
@[simp] theorem modThreads_lodeOwner (iss : Issue) (f : Thread → Thread) (s : State) : (modThreads iss f s).lodeOwner = s.lodeOwner :=
  foldl_keeps (·.lodeOwner) (fun s t => modThread t f s) (fun _ _ => rfl) iss.threads s
@[simp] theorem modThreads_graphs (iss : Issue) (f : Thread → Thread) (s : State) : (modThreads iss f s).graphs = s.graphs :=
  foldl_keeps (·.graphs) (fun s t => modThread t f s) (fun _ _ => rfl) iss.threads s
@[simp] theorem modThreads_trigs (iss : Issue) (f : Thread → Thread) (s : State) : (modThreads iss f s).trigs = s.trigs :=
  foldl_keeps (·.trigs) (fun s t => modThread t f s) (fun _ _ => rfl) iss.threads s
@[simp] theorem modThreads_launches (iss : Issue) (f : Thread → Thread) (s : State) : (modThreads iss f s).launches = s.launches :=
  foldl_keeps (·.launches) (fun s t => modThread t f s) (fun _ _ => rfl) iss.threads s
@[simp] theorem modThreads_parks (iss : Issue) (f : Thread → Thread) (s : State) : (modThreads iss f s).parks = s.parks :=
  foldl_keeps (·.parks) (fun s t => modThread t f s) (fun _ _ => rfl) iss.threads s
@[simp] theorem modThreads_frecs (iss : Issue) (f : Thread → Thread) (s : State) : (modThreads iss f s).frecs = s.frecs :=
  foldl_keeps (·.frecs) (fun s t => modThread t f s) (fun _ _ => rfl) iss.threads s
@[simp] theorem modThreads_quota (iss : Issue) (f : Thread → Thread) (s : State) : (modThreads iss f s).quota = s.quota :=
  foldl_keeps (·.quota) (fun s t => modThread t f s) (fun _ _ => rfl) iss.threads s
@[simp] theorem modThreads_links (iss : Issue) (f : Thread → Thread) (s : State) : (modThreads iss f s).links = s.links :=
  foldl_keeps (·.links) (fun s t => modThread t f s) (fun _ _ => rfl) iss.threads s
@[simp] theorem modThreads_pkgid (iss : Issue) (f : Thread → Thread) (s : State) : (modThreads iss f s).pkgid = s.pkgid :=
  foldl_keeps (·.pkgid) (fun s t => modThread t f s) (fun _ _ => rfl) iss.threads s
@[simp] theorem modThreads_replies (iss : Issue) (f : Thread → Thread) (s : State) : (modThreads iss f s).replies = s.replies :=
  foldl_keeps (·.replies) (fun s t => modThread t f s) (fun _ _ => rfl) iss.threads s
@[simp] theorem modThreads_updates (iss : Issue) (f : Thread → Thread) (s : State) : (modThreads iss f s).updates = s.updates :=
  foldl_keeps (·.updates) (fun s t => modThread t f s) (fun _ _ => rfl) iss.threads s
@[simp] theorem modThreads_health (iss : Issue) (f : Thread → Thread) (s : State) : (modThreads iss f s).health = s.health :=
  foldl_keeps (·.health) (fun s t => modThread t f s) (fun _ _ => rfl) iss.threads s
@[simp] theorem modThreads_replaceF (iss : Issue) (f : Thread → Thread) (s : State) : (modThreads iss f s).replaceF = s.replaceF :=
  foldl_keeps (·.replaceF) (fun s t => modThread t f s) (fun _ _ => rfl) iss.threads s
@[simp] theorem modThreads_drain (iss : Issue) (f : Thread → Thread) (s : State) : (modThreads iss f s).drain = s.drain :=
  foldl_keeps (·.drain) (fun s t => modThread t f s) (fun _ _ => rfl) iss.threads s
@[simp] theorem modThreads_dieover (iss : Issue) (f : Thread → Thread) (s : State) : (modThreads iss f s).dieover = s.dieover :=
  foldl_keeps (·.dieover) (fun s t => modThread t f s) (fun _ _ => rfl) iss.threads s
@[simp] theorem modThreads_diedead (iss : Issue) (f : Thread → Thread) (s : State) : (modThreads iss f s).diedead = s.diedead :=
  foldl_keeps (·.diedead) (fun s t => modThread t f s) (fun _ _ => rfl) iss.threads s
@[simp] theorem modThreads_chanoff (iss : Issue) (f : Thread → Thread) (s : State) : (modThreads iss f s).chanoff = s.chanoff :=
  foldl_keeps (·.chanoff) (fun s t => modThread t f s) (fun _ _ => rfl) iss.threads s
@[simp] theorem modThreads_coreCtr (iss : Issue) (f : Thread → Thread) (s : State) : (modThreads iss f s).coreCtr = s.coreCtr :=
  foldl_keeps (·.coreCtr) (fun s t => modThread t f s) (fun _ _ => rfl) iss.threads s
@[simp] theorem modThreads_dieCtr (iss : Issue) (f : Thread → Thread) (s : State) : (modThreads iss f s).dieCtr = s.dieCtr :=
  foldl_keeps (·.dieCtr) (fun s t => modThread t f s) (fun _ _ => rfl) iss.threads s
@[simp] theorem modThreads_measure (iss : Issue) (f : Thread → Thread) (s : State) : (modThreads iss f s).measure = s.measure :=
  foldl_keeps (·.measure) (fun s t => modThread t f s) (fun _ _ => rfl) iss.threads s
@[simp] theorem modThreads_booted (iss : Issue) (f : Thread → Thread) (s : State) : (modThreads iss f s).booted = s.booted :=
  foldl_keeps (·.booted) (fun s t => modThread t f s) (fun _ _ => rfl) iss.threads s
@[simp] theorem modThreads_cxl (iss : Issue) (f : Thread → Thread) (s : State) : (modThreads iss f s).cxl = s.cxl :=
  foldl_keeps (·.cxl) (fun s t => modThread t f s) (fun _ _ => rfl) iss.threads s
@[simp] theorem modThreads_vfs (iss : Issue) (f : Thread → Thread) (s : State) : (modThreads iss f s).vfs = s.vfs :=
  foldl_keeps (·.vfs) (fun s t => modThread t f s) (fun _ _ => rfl) iss.threads s
@[simp] theorem modThreads_revoked (iss : Issue) (f : Thread → Thread) (s : State) : (modThreads iss f s).revoked = s.revoked :=
  foldl_keeps (·.revoked) (fun s t => modThread t f s) (fun _ _ => rfl) iss.threads s
@[simp] theorem modThreads_svn (iss : Issue) (f : Thread → Thread) (s : State) : (modThreads iss f s).svn = s.svn :=
  foldl_keeps (·.svn) (fun s t => modThread t f s) (fun _ _ => rfl) iss.threads s
@[simp] theorem modThreads_flashNs (iss : Issue) (f : Thread → Thread) (s : State) : (modThreads iss f s).flashNs = s.flashNs :=
  foldl_keeps (·.flashNs) (fun s t => modThread t f s) (fun _ _ => rfl) iss.threads s
@[simp] theorem modThreads_cap (iss : Issue) (f : Thread → Thread) (s : State) : (modThreads iss f s).cap = s.cap :=
  foldl_keeps (·.cap) (fun s t => modThread t f s) (fun _ _ => rfl) iss.threads s
@[simp] theorem modThreads_mhz (iss : Issue) (f : Thread → Thread) (s : State) : (modThreads iss f s).mhz = s.mhz :=
  foldl_keeps (·.mhz) (fun s t => modThread t f s) (fun _ _ => rfl) iss.threads s
@[simp] theorem modThreads_off (iss : Issue) (f : Thread → Thread) (s : State) : (modThreads iss f s).off = s.off :=
  foldl_keeps (·.off) (fun s t => modThread t f s) (fun _ _ => rfl) iss.threads s
@[simp] theorem modThreads_msix (iss : Issue) (f : Thread → Thread) (s : State) : (modThreads iss f s).msix = s.msix :=
  foldl_keeps (·.msix) (fun s t => modThread t f s) (fun _ _ => rfl) iss.threads s
@[simp] theorem modThreads_out (iss : Issue) (f : Thread → Thread) (s : State) : (modThreads iss f s).out = s.out :=
  foldl_keeps (·.out) (fun s t => modThread t f s) (fun _ _ => rfl) iss.threads s

end Sys2Proof.Machine
end

