-- ==== Sys2Proof/Laws/Translate.lean ====
section
/-! SUPPORT. Walks and lookups: a walk says the same for a whole page, and where TLBs agree with the tables a lookup is a walk. -/

namespace Sys2Proof.Machine

/-! ### Walks -/

theorem readN_congr {m m' : Memory} (h : m = m') (a n : Nat) : m.readN a n = m'.readN a n := by rw [h]

theorem walkFrom_congr {s t : State} (h : t.mem = s.mem) (va fuel tbl : Nat) : walkFrom t va fuel tbl = walkFrom s va fuel tbl := by
  have he : ∀ pa, entryAt t pa = entryAt s pa := fun pa => by simp [entryAt, h]
  induction fuel generalizing tbl with
  | zero => simp only [walkFrom, he]
  | succ k ih => simp only [walkFrom, he, ih]

theorem walk_congr {s t : State} (hm : t.mem = s.mem) (hc : t.ctxs = s.ctxs) (c va : Nat) : walk t c va = walk s c va := by
  unfold walk ctxOf
  rw [hc]
  simp only [walkFrom_congr hm]

theorem leafOf_lg {e epa lg : Nat} {l : Leaf} (h : leafOf e epa lg = some l) : l.lg = lg := by
  unfold leafOf at h
  split at h
  · cases h
  · simp only at h
    split at h
    · cases h; rfl
    · cases h

/-- Bits from a place upward are those of the number without the bits below a lower place. -/
theorem bitsOf_of_div {a b lg lo : Nat} (hl : lg ≤ lo) (h : a / 2 ^ lg = b / 2 ^ lg) (w : Nat) : bitsOf a lo w = bitsOf b lo w := by
  have : ∀ x, x / 2 ^ lo = x / 2 ^ lg / 2 ^ (lo - lg) := fun x => by
    rw [Nat.div_div_eq_div_mul, ← Nat.pow_add]; congr 2; omega
  simp only [bitsOf, this, h]

/-- The last level of a walk. -/
theorem walkFrom_zero (s : State) (va tbl : Nat) : walkFrom s va 0 tbl =
    (let ix := bitsOf va 12 9
     let epa := tbl + 8 * ix
     let e := entryAt s epa
     let gpa := tbl + 8 * (ix / 16 * 16)
     let ge := entryAt s gpa
     if bitsOf ge 0 1 = 1 && bitsOf ge 4 1 = 1 then
       if bitsOf ge 53 11 = 0 && bitsOf ge 1 1 = 1 then
         match leafOf ge gpa 16 with
         | some l => .leaf (va / 65536 * 65536) l
         | none => .bad gpa
       else .bad gpa
     else if bitsOf e 0 1 = 0 then .absent (bitsOf e 10 1 == 1) epa 0 e
     else if bitsOf e 53 11 = 0 && bitsOf e 1 1 = 1 then
       match leafOf e epa 12 with
       | some l => .leaf (va / 4096 * 4096) l
       | none => .bad epa
     else .bad epa) := rfl

theorem walkFrom_page0 {s : State} {va va' b tbl : Nat} {l : Leaf} (h : walkFrom s va 0 tbl = .leaf b l)
    (hd : va' / 2 ^ l.lg = va / 2 ^ l.lg) : walkFrom s va' 0 tbl = .leaf b l ∧ b = va / 2 ^ l.lg * 2 ^ l.lg ∧ 12 ≤ l.lg ∧ l.lg ≤ 16 := by
  rw [walkFrom_zero] at h ⊢
  simp only at h ⊢
  have key : ∀ {c : Prop} [Decidable c] {x y : Walk}, (if c then x else y) = .leaf b l → (c ∧ x = .leaf b l) ∨ (¬ c ∧ y = .leaf b l) := by
    intro c _ x y h; split at h
    · exact .inl ⟨‹_›, h⟩
    · exact .inr ⟨‹_›, h⟩
  rcases key h with ⟨c1, h1⟩ | ⟨c1, h1⟩
  · rcases key h1 with ⟨c2, h2⟩ | ⟨c2, h2⟩
    · split at h2
      · rename_i l' hl
        obtain ⟨rfl, rfl⟩ := Walk.leaf.inj h2
        have hlg := leafOf_lg hl
        rw [hlg] at hd ⊢
        have e2 : va' / 65536 = va / 65536 := hd
        have e : bitsOf va' 12 9 / 16 * 16 = bitsOf va 12 9 / 16 * 16 := by simp only [bitsOf]; omega
        rw [e, if_pos c1, if_pos c2, hl]
        exact ⟨by simp only [e2], rfl, by omega, by omega⟩
      · cases h2
    · cases h2
  · rcases key h1 with ⟨c2, h2⟩ | ⟨c2, h2⟩
    · cases h2
    · rcases key h2 with ⟨c3, h3⟩ | ⟨c3, h3⟩
      · split at h3
        · rename_i l' hl
          obtain ⟨rfl, rfl⟩ := Walk.leaf.inj h3
          have hlg := leafOf_lg hl
          rw [hlg] at hd ⊢
          have e : bitsOf va' 12 9 = bitsOf va 12 9 := bitsOf_of_div (by omega) hd 9
          have e2 : va' / 4096 = va / 4096 := hd
          rw [e, if_neg c1, if_neg c2, if_pos c3, hl]
          exact ⟨by simp only [e2], rfl, by omega, by omega⟩
        · cases h3
      · cases h3

/-- A level of a walk above the last. -/
theorem walkFrom_succ (s : State) (va k tbl : Nat) : walkFrom s va (k + 1) tbl =
    (let shift := 12 + 9 * (k + 1)
     let ix := if k + 1 = 3 then bitsOf va 39 13 else bitsOf va shift 9
     let epa := tbl + 8 * ix
     let e := entryAt s epa
     if bitsOf e 0 1 = 0 then .absent (bitsOf e 10 1 == 1) epa (k + 1) e
     else if bitsOf e 53 11 = 0 && bitsOf e 4 1 = 0 then
       if bitsOf e 1 1 = 1 then
         if k + 1 = 3 then .bad epa
         else match leafOf e epa shift with
           | some l => .leaf (va / 2 ^ shift * 2 ^ shift) l
           | none => .bad epa
       else if targetOf (bitsOf e 12 40 * 4096) = .invalid then .bad epa
       else walkFrom s va k (bitsOf e 12 40 * 4096)
     else .bad epa) := rfl

theorem ite_leaf {c : Prop} [Decidable c] {x y z : Walk} (h : (if c then x else y) = z) : (c ∧ x = z) ∨ (¬ c ∧ y = z) := by
  split at h
  · exact .inl ⟨‹_›, h⟩
  · exact .inr ⟨‹_›, h⟩

/-- A walk that ends in a leaf ends in it for every address of the leaf's page. -/
theorem walkFrom_page {s : State} {va va' b tbl fuel : Nat} {l : Leaf} (h : walkFrom s va fuel tbl = .leaf b l)
    (hd : va' / 2 ^ l.lg = va / 2 ^ l.lg) :
    walkFrom s va' fuel tbl = .leaf b l ∧ b = va / 2 ^ l.lg * 2 ^ l.lg ∧ 12 ≤ l.lg ∧ l.lg ≤ max 16 (12 + 9 * fuel) := by
  induction fuel generalizing tbl with
  | zero =>
    obtain ⟨h1, h2, h3, h4⟩ := walkFrom_page0 h hd
    exact ⟨h1, h2, h3, by omega⟩
  | succ k ih =>
    rw [walkFrom_succ] at h ⊢
    simp only at h ⊢
    have ix : l.lg ≤ 12 + 9 * (k + 1) → (if k + 1 = 3 then bitsOf va' 39 13 else bitsOf va' (12 + 9 * (k + 1)) 9) =
        if k + 1 = 3 then bitsOf va 39 13 else bitsOf va (12 + 9 * (k + 1)) 9 := fun hle => by
      split
      · exact bitsOf_of_div (by omega) hd 13
      · exact bitsOf_of_div hle hd 9
    rcases ite_leaf h with ⟨c1, h1⟩ | ⟨c1, h1⟩
    · cases h1
    · rcases ite_leaf h1 with ⟨c2, h2⟩ | ⟨c2, h2⟩
      · rcases ite_leaf h2 with ⟨c3, h3⟩ | ⟨c3, h3⟩
        · rcases ite_leaf h3 with ⟨c4, h4⟩ | ⟨c4, h4⟩
          · cases h4
          · split at h4
            · rename_i l' hl
              obtain ⟨rfl, rfl⟩ := Walk.leaf.inj h4
              have hlg := leafOf_lg hl
              rw [ix (by omega), if_neg c1, if_pos c2, if_pos c3, if_neg c4, hl]
              rw [hlg] at hd ⊢
              exact ⟨by simp only [hd], rfl, by omega, by omega⟩
            · cases h4
        · rcases ite_leaf h3 with ⟨c4, h4⟩ | ⟨c4, h4⟩
          · cases h4
          · obtain ⟨i1, i2, i3, i4⟩ := ih h4
            rw [ix (by omega), if_neg c1, if_pos c2, if_neg c3, if_neg c4]
            exact ⟨i1, i2, i3, by omega⟩
      · cases h2

theorem leafOf_pa {e epa lg : Nat} {l : Leaf} (h : leafOf e epa lg = some l) : l.pa % 4096 = 0 := by
  unfold leafOf at h
  split at h
  · cases h
  · simp only at h
    split at h
    · cases h; exact Nat.mul_mod_left ..
    · cases h

/-- A leaf maps to an address that is a multiple of 4096. -/
theorem walkFrom_pa {s : State} {va b tbl fuel : Nat} {l : Leaf} (h : walkFrom s va fuel tbl = .leaf b l) : l.pa % 4096 = 0 := by
  induction fuel generalizing tbl with
  | zero =>
    rw [walkFrom_zero] at h
    simp only at h
    rcases ite_leaf h with ⟨-, h⟩ | ⟨-, h⟩
    · rcases ite_leaf h with ⟨-, h⟩ | ⟨-, h⟩
      · split at h
        · rename_i hl; obtain ⟨rfl, rfl⟩ := Walk.leaf.inj h; exact leafOf_pa hl
        · cases h
      · cases h
    · rcases ite_leaf h with ⟨-, h⟩ | ⟨-, h⟩
      · cases h
      · rcases ite_leaf h with ⟨-, h⟩ | ⟨-, h⟩
        · split at h
          · rename_i hl; obtain ⟨rfl, rfl⟩ := Walk.leaf.inj h; exact leafOf_pa hl
          · cases h
        · cases h
  | succ k ih =>
    rw [walkFrom_succ] at h
    simp only at h
    rcases ite_leaf h with ⟨-, h⟩ | ⟨-, h⟩
    · cases h
    · rcases ite_leaf h with ⟨-, h⟩ | ⟨-, h⟩
      · rcases ite_leaf h with ⟨-, h⟩ | ⟨-, h⟩
        · rcases ite_leaf h with ⟨-, h⟩ | ⟨-, h⟩
          · cases h
          · split at h
            · rename_i hl; obtain ⟨rfl, rfl⟩ := Walk.leaf.inj h; exact leafOf_pa hl
            · cases h
        · rcases ite_leaf h with ⟨-, h⟩ | ⟨-, h⟩
          · cases h
          · exact ih h
      · cases h

theorem walk_page {s : State} {ctx va va' b : Nat} {l : Leaf} (h : walk s ctx va = .leaf b l) (hd : va' / 2 ^ l.lg = va / 2 ^ l.lg) :
    walk s ctx va' = .leaf b l ∧ b = va / 2 ^ l.lg * 2 ^ l.lg ∧ 12 ≤ l.lg := by
  unfold walk at h ⊢
  simp only at h ⊢
  split at h
  · obtain ⟨h1, h2, h3, -⟩ := walkFrom_page h hd
    rw [if_pos ‹_›]
    exact ⟨h1, h2, h3⟩
  · cases h

/-- The base and the size of a leaf's page hold the address. -/
theorem walk_leaf {s : State} {ctx va b : Nat} {l : Leaf} (h : walk s ctx va = .leaf b l) :
    b ≤ va ∧ va < b + 2 ^ l.lg ∧ b = va / 2 ^ l.lg * 2 ^ l.lg ∧ 12 ≤ l.lg ∧ ∀ x, b ≤ x → x < b + 2 ^ l.lg → walk s ctx x = .leaf b l := by
  obtain ⟨-, h2, h3⟩ := walk_page h rfl
  have hp : 0 < 2 ^ l.lg := Nat.two_pow_pos _
  have h4 := Nat.div_add_mod va (2 ^ l.lg)
  have h5 := Nat.mod_lt va hp
  have h6 : b = 2 ^ l.lg * (va / 2 ^ l.lg) := by rw [h2, Nat.mul_comm]
  refine ⟨by omega, by omega, h2, h3, fun x hx1 hx2 => (walk_page h ?_).1⟩
  have : x / 2 ^ l.lg = va / 2 ^ l.lg := by
    rw [Nat.div_eq_iff hp]
    rw [Nat.mul_comm] at h6
    omega
  exact this

/-- A walk says the same for every address of a 4 KiB page. -/
theorem walkFrom_same (s : State) {va va' : Nat} (hd : va' / 4096 = va / 4096) (fuel tbl : Nat) :
    walkFrom s va' fuel tbl = walkFrom s va fuel tbl := by
  have big : ∀ n, 12 ≤ n → va' / 2 ^ n = va / 2 ^ n := fun n hn => by
    have e : 2 ^ n = 4096 * 2 ^ (n - 12) := by rw [show (4096 : Nat) = 2 ^ 12 from rfl, ← Nat.pow_add]; congr 1; omega
    rw [e, ← Nat.div_div_eq_div_mul, ← Nat.div_div_eq_div_mul, hd]
  have bits : ∀ lo w, 12 ≤ lo → bitsOf va' lo w = bitsOf va lo w := fun lo w hl => bitsOf_of_div hl (show va' / 2 ^ 12 = va / 2 ^ 12 from hd) w
  induction fuel generalizing tbl with
  | zero =>
    rw [walkFrom_zero, walkFrom_zero, bits 12 9 (Nat.le_refl _), hd, show va' / 65536 = va / 65536 from big 16 (by omega)]
  | succ k ih =>
    rw [walkFrom_succ, walkFrom_succ]
    simp only [bits 39 13 (by omega), bits (12 + 9 * (k + 1)) 9 (by omega), big (12 + 9 * (k + 1)) (by omega), ih]

theorem walk_same (s : State) (ctx : Nat) {va va' : Nat} (hd : va' / 4096 = va / 4096) : walk s ctx va' = walk s ctx va := by
  unfold walk
  simp only [walkFrom_same s hd]

/-- Two addresses of one page map to bytes of one page, at the same offsets. -/
theorem sysAddr_page {s : State} {ctx va pa : Nat} (h : sysAddr s ctx va = some pa) :
    ∃ base, sysAddr s ctx (va / 4096 * 4096) = some base ∧ base % 4096 = 0 ∧ pa = base + va % 4096 := by
  unfold sysAddr at h ⊢
  rcases Nat.lt_or_ge va (2 ^ 52) with hv | hv
  · rw [if_pos hv] at h
    rw [if_pos (by omega), walk_same s ctx (va := va) (by omega)]
    cases hw : walk s ctx va with
    | leaf b l =>
      rw [hw] at h
      obtain rfl := Option.some.inj h
      obtain ⟨w1, w2, w3, w4, -⟩ := walk_leaf hw
      have wp : l.pa % 4096 = 0 := by
        unfold walk at hw
        simp only at hw
        split at hw
        · exact walkFrom_pa hw
        · cases hw
      have e : 2 ^ l.lg = 4096 * 2 ^ (l.lg - 12) := by rw [show (4096 : Nat) = 2 ^ 12 from rfl, ← Nat.pow_add]; congr 1; omega
      have e2 : b = 4096 * (va / 2 ^ l.lg * 2 ^ (l.lg - 12)) := by rw [w3, e]; ring
      generalize va / 2 ^ l.lg * 2 ^ (l.lg - 12) = x at e2
      exact ⟨l.pa + (va / 4096 * 4096 - b), rfl, by omega, by omega⟩
    | absent _ _ _ _ => rw [hw] at h; cases h
    | bad _ => rw [hw] at h; cases h
  · rw [if_neg (by omega)] at h; cases h

theorem sysAddr_congr {s t : State} (hm : t.mem = s.mem) (hc : t.ctxs = s.ctxs) (c va : Nat) : sysAddr t c va = sysAddr s c va := by
  simp only [sysAddr, walk_congr hm hc]

/-! ### Lookups -/

theorem Looks.refl (s : State) : Looks s s := rfl

theorem looks_iff {s t : State} : Looks s t ↔ ∃ a b c d e f g h,
    t = { s with tlbCore := a, tlbCluster := b, l1 := c, coreCtr := d, msix := e, free := f, pgs := g, secs := h } :=
  ⟨fun h => ⟨_, _, _, _, _, _, _, _, h⟩, fun ⟨_, _, _, _, _, _, _, _, h⟩ => by rw [h]; rfl⟩

theorem Looks.trans {s t r : State} (h : Looks s t) (h' : Looks t r) : Looks s r := by
  obtain ⟨_, _, _, _, _, _, _, _, rfl⟩ := looks_iff.mp h
  obtain ⟨_, _, _, _, _, _, _, _, rfl⟩ := looks_iff.mp h'
  exact looks_iff.mpr ⟨_, _, _, _, _, _, _, _, rfl⟩

/-- What looking at memory keeps, field by field. -/
theorem Looks.keeps {α : Type} (f : State → α)
    (hf : ∀ s : State, ∀ a b c d e g h i,
      f { s with tlbCore := a, tlbCluster := b, l1 := c, coreCtr := d, msix := e, free := g, pgs := h, secs := i } = f s)
    {s t : State} (h : Looks s t) : f t = f s := by
  obtain ⟨_, _, _, _, _, _, _, _, rfl⟩ := looks_iff.mp h; exact hf s _ _ _ _ _ _ _ _

theorem Looks.walk {s t : State} (h : Looks s t) (c va : Nat) : walk t c va = walk s c va :=
  walk_congr (h.keeps (·.mem) fun _ _ _ _ _ _ _ _ _ => rfl) (h.keeps (·.ctxs) fun _ _ _ _ _ _ _ _ _ => rfl) c va

theorem looks_countCore (core ev ctx tag n : Nat) (s : State) : Looks s (countCore core ev ctx tag n s) := by
  unfold countCore; simp only; split <;> exact looks_iff.mpr ⟨_, _, _, _, _, _, _, _, rfl⟩

theorem countCore_l1 (core ev ctx tag n : Nat) (s : State) : (countCore core ev ctx tag n s).l1 = s.l1 := by
  unfold countCore; simp only; split <;> rfl

theorem looks_takeBit (s : State) : Looks s (takeBit s).2 := looks_iff.mpr ⟨_, _, _, _, _, _, _, _, rfl⟩

theorem mem_tlbAdd {cap : Nat} {e x : TlbEnt} {t : List TlbEnt} (h : x ∈ tlbAdd cap e t) : x = e ∨ x ∈ t := by
  simp only [tlbAdd, List.cons_append, List.mem_cons, List.mem_append] at h
  rcases h with h | h | h
  · exact .inl h
  · exact .inr (List.mem_filter.mp (List.mem_of_mem_take h)).1
  · exact .inr (List.mem_filter.mp h).1

/-- TLBs that hold walks, and what they held before, still agree. -/
theorem tlbsAgree_of {s t : State} (h : TlbsAgree s) (hl : Looks s t) (hp : t.pgs = s.pgs)
    (he : ∀ e ∈ t.tlbCore ++ t.tlbCluster, e ∈ s.tlbCore ++ s.tlbCluster ∨ walk s e.ctx e.va = .leaf e.va e.leaf) : TlbsAgree t := by
  refine ⟨fun e hm va h1 h2 => ?_, fun p hm => ?_⟩
  · rw [hl.walk]
    rcases he e hm with h3 | h3
    · exact h.entries e h3 va h1 h2
    · exact (walk_leaf h3).2.2.2.2 va h1 h2
  · rw [hl.walk]; exact h.made p (hp ▸ hm)

/-- The TLBs and the translations made are as they were. -/
structure SameTlbs (s t : State) : Prop where
  core : t.tlbCore = s.tlbCore
  cluster : t.tlbCluster = s.tlbCluster
  pgs : t.pgs = s.pgs

theorem SameTlbs.refl (s : State) : SameTlbs s s := ⟨rfl, rfl, rfl⟩

theorem SameTlbs.trans {s t r : State} (h : SameTlbs s t) (h' : SameTlbs t r) : SameTlbs s r :=
  ⟨h'.core.trans h.core, h'.cluster.trans h.cluster, h'.pgs.trans h.pgs⟩

theorem sameTlbs_countCore (core ev ctx tag n : Nat) (s : State) : SameTlbs s (countCore core ev ctx tag n s) := by
  unfold countCore; simp only; split <;> exact ⟨rfl, rfl, rfl⟩

/-- A lookup and its effects, where the TLBs agree with the tables: what a walk finds. -/
structure LooksUp (s : State) (core ctx va : Nat) (r : Walk × State) : Prop where
  walk : r.1 = walk s ctx va
  looks : Looks s r.2
  agree : TlbsAgree r.2
  l1 : r.2.l1 = s.l1

theorem tlbFind_mem {t : List TlbEnt} {own ctx va : Nat} {e : TlbEnt} (h : tlbFind t own ctx va = some e) :
    e ∈ t ∧ e.ctx = ctx ∧ e.va ≤ va ∧ va < e.va + 2 ^ e.leaf.lg := by
  have h1 := List.mem_of_find?_eq_some h
  have h2 := List.find?_some h
  simp only [Bool.and_eq_true, beq_iff_eq, decide_eq_true_eq] at h2
  exact ⟨h1, h2.1.1.2, h2.1.2, h2.2⟩

theorem walkFill_spec {s : State} (h : TlbsAgree s) (core ctx va : Nat) : LooksUp s core ctx va (walkFill core ctx va s) := by
  unfold walkFill
  split
  · rename_i b l hw
    have hself : walk s ctx b = .leaf b l := (walk_leaf hw).2.2.2.2 b (Nat.le_refl _) (by have := Nat.two_pow_pos l.lg; omega)
    have hl : Looks s (tlbFill core ctx b l s) := looks_iff.mpr ⟨_, _, _, _, _, _, _, _, rfl⟩
    refine ⟨hw.symm, hl, tlbsAgree_of h hl rfl fun e he => ?_, rfl⟩
    rcases List.mem_append.mp he with he | he
    · rcases mem_tlbAdd he with rfl | he
      · exact .inr hself
      · exact .inl (List.mem_append_left _ he)
    · rcases mem_tlbAdd he with rfl | he
      · exact .inr hself
      · exact .inl (List.mem_append_right _ he)
  · exact ⟨rfl, .refl s, h, rfl⟩

theorem LooksUp.of_looks {s t : State} {core ctx va : Nat} {r : Walk × State} (hl : Looks s t) (h1 : t.l1 = s.l1)
    (h : LooksUp t core ctx va r) : LooksUp s core ctx va r :=
  ⟨by rw [h.walk, hl.walk], hl.trans h.looks, h.agree, by rw [h.l1, h1]⟩

theorem tlbsAgree_looks {s t : State} (h : TlbsAgree s) (hl : Looks s t) (ht : SameTlbs s t) : TlbsAgree t :=
  tlbsAgree_of h hl ht.pgs fun e he => .inl (by rw [ht.core, ht.cluster] at he; exact he)

theorem tlbsAgree_countCore {s : State} (h : TlbsAgree s) (core ev ctx tag n : Nat) : TlbsAgree (countCore core ev ctx tag n s) :=
  tlbsAgree_looks h (looks_countCore ..) (sameTlbs_countCore ..)

/-- Where TLBs agree with the tables, looking a page up finds what a walk finds (R334). -/
theorem lookupPage_spec {s : State} (h : TlbsAgree s) (core ctx va : Nat) : LooksUp s core ctx va (lookupPage core ctx va s) := by
  unfold lookupPage
  split
  · rename_i e he
    obtain ⟨h1, h2, h3, h4⟩ := tlbFind_mem he
    have hw : walk s ctx va = .leaf e.va e.leaf := h2 ▸ h.entries e (List.mem_append_left _ h1) va h3 h4
    simp only [takeBit]
    have hs : sameLeaf e (walk { s with free := s.free + 1 } ctx va) = true := by
      have : walk { s with free := s.free + 1 } ctx va = walk s ctx va := walk_congr rfl rfl ctx va
      rw [this, hw]; simp [sameLeaf]
    simp only [hs, if_true]
    have hl : Looks s (takeBit s).2 := looks_takeBit s
    have ha : TlbsAgree (takeBit s).2 := tlbsAgree_looks h hl ⟨rfl, rfl, rfl⟩
    exact ⟨hw.symm, hl.trans (looks_countCore _ _ _ _ _ _), tlbsAgree_countCore ha _ _ _ _ _, by rw [countCore_l1]⟩
  · have hl := looks_countCore core 0x0C ctx (curTag s) 1 s
    have ha := tlbsAgree_countCore h core 0x0C ctx (curTag s) 1
    simp only
    refine LooksUp.of_looks hl (countCore_l1 ..) ?_
    generalize countCore core 0x0C ctx (curTag s) 1 s = s1 at ha ⊢
    split
    · rename_i e he
      obtain ⟨h1, h2, h3, h4⟩ := tlbFind_mem he
      have hw : walk s1 ctx va = .leaf e.va e.leaf := h2 ▸ ha.entries e (List.mem_append_right _ h1) va h3 h4
      have hself : walk s1 ctx e.va = .leaf e.va e.leaf :=
        (walk_leaf hw).2.2.2.2 e.va (Nat.le_refl _) (by have := Nat.two_pow_pos e.leaf.lg; omega)
      simp only [takeBit]
      have hs : sameLeaf e (walk { s1 with free := s1.free + 1 } ctx va) = true := by
        have : walk { s1 with free := s1.free + 1 } ctx va = walk s1 ctx va := walk_congr rfl rfl ctx va
        rw [this, hw]; simp [sameLeaf]
      simp only [hs, Bool.true_or, if_true]
      have hl2 : Looks s1 (tlbFillCore core ctx e.va e.leaf { s1 with free := s1.free + 1 }) := looks_iff.mpr ⟨_, _, _, _, _, _, _, _, rfl⟩
      refine ⟨hw.symm, hl2, tlbsAgree_of ha hl2 rfl fun x hx => ?_, rfl⟩
      rcases List.mem_append.mp hx with hx | hx
      · rcases mem_tlbAdd hx with rfl | hx
        · exact .inr hself
        · exact .inl (List.mem_append_left _ hx)
      · exact .inl (List.mem_append_right _ hx)
    · exact walkFill_spec ha core ctx va

/-- Where TLBs and the translations made agree with the tables, a lookup finds what a walk finds (R212, R334). -/
theorem lookup_spec {s : State} (h : TlbsAgree s) (core ctx va : Nat) : LooksUp s core ctx va (lookup core ctx va s) := by
  have page : walk s ctx (4096 * (va / 4096)) = walk s ctx va := walk_same s ctx (by omega)
  unfold lookup
  split
  · rename_i r hr
    exact ⟨by rw [← page]; exact (h.made _ (Map.mem_of_find? hr)).symm, .refl s, h, rfl⟩
  · obtain ⟨w, l, a, e⟩ := lookupPage_spec h core ctx va
    have hl : Looks s { (lookupPage core ctx va s).2 with
        pgs := (lookupPage core ctx va s).2.pgs.set (ctx, va / 4096) (lookupPage core ctx va s).1 } :=
      l.trans (looks_iff.mpr ⟨_, _, _, _, _, _, _, _, rfl⟩)
    refine ⟨w, hl, ⟨fun x hx v h1 h2 => ?_, fun p hp => ?_⟩, e⟩
    · rw [hl.walk, ← l.walk]; exact a.entries x hx v h1 h2
    · rw [hl.walk, ← l.walk]
      rcases Map.mem_set hp with rfl | hp
      · rw [l.walk, page, w]
      · exact a.made p hp

end Sys2Proof.Machine
end

