-- ==== Sys2Proof/Laws/Access.lean ====
section
/-! SUPPORT. One element of a memory instruction: its translation, its place, and what a lane reads of it, where the caches agree with memory. -/

namespace Sys2Proof.Machine

/-! ### Translation -/

theorem looks_guardAt {s t : State} (h : Looks s t) (ctx va : Nat) : guardAt t ctx va = guardAt s ctx va := by
  simp only [guardAt, h.keeps (·.units) fun _ _ _ _ _ _ _ _ _ => rfl]

theorem looks_unitOf {s t : State} (h : Looks s t) (u : Nat) : unitOf t u = unitOf s u := by
  simp only [unitOf, h.keeps (·.units) fun _ _ _ _ _ _ _ _ _ => rfl]

theorem looks_leasedAt {s t : State} (h : Looks s t) (u va : Nat) : leasedAt t u va = leasedAt s u va := by
  simp only [leasedAt, launchOf, looks_unitOf h, h.keeps (·.launches) fun _ _ _ _ _ _ _ _ _ => rfl]

theorem looks_openAt {s t : State} (h : Looks s t) (u va : Nat) : openAt t u va = openAt s u va :=
  h.keeps (fun s => openAt s u va) fun _ _ _ _ _ _ _ _ _ => rfl

theorem looks_narrowedAt {s t : State} (h : Looks s t) (u va : Nat) : narrowedAt t u va = narrowedAt s u va :=
  h.keeps (fun s => narrowedAt s u va) fun _ _ _ _ _ _ _ _ _ => rfl

theorem looks_mayReach {s t : State} (h : Looks s t) {u va : Nat} {w : Bool} (hm : MayReach s u va w) : MayReach t u va w := by
  unfold MayReach
  rw [looks_unitOf h, looks_guardAt h, looks_leasedAt h, looks_openAt h, looks_narrowedAt h, h.walk]
  exact hm

theorem looks_paOf {s t : State} (h : Looks s t) (ctx va : Nat) : paOf t ctx va = paOf s ctx va := by
  simp only [paOf, h.walk]

/-- The kind of access that a write or a read is. -/
def accOf (write : Bool) : Acc := if write then .write else .read

/-- Pieces name the bytes of a range in order, and only pages that the range lies on. -/
structure Covers (s : State) (u va n : Nat) (ps : List Piece) : Prop where
  pas : ps.flatMap (fun p => (List.range p.n).map (p.pa + ·)) = (List.range n).map fun i => paOf s (unitOf s u).ctx (va + i)
  leaf : ∀ p ∈ ps, ∃ i < n, ∃ b, walk s (unitOf s u).ctx (va + i) = .leaf b p.leaf

theorem range_split (m n : Nat) (h : m ≤ n) (f : Nat → Nat) :
    (List.range n).map f = (List.range m).map f ++ (List.range (n - m)).map fun i => f (m + i) := by
  obtain ⟨k, rfl⟩ := Nat.exists_eq_add_of_le h
  rw [List.range_add, List.map_append, List.map_map, Nat.add_sub_cancel_left]; rfl

/-- Translation of a range that may be reached, page by page (R212, R333). -/
theorem translate_spec {u wa ea : Nat} {w settled : Bool} (fuel : Nat) : ∀ (va n : Nat) (ps : List Piece) (s : State), TlbsAgree s →
    n ≤ 4096 * fuel - va % 4096 → (n ≠ 0 → 0 < fuel) →
    (∀ i < n, MayReach s u (va + i) w) →
    ∃ qs t, translate u (accOf w) settled wa ea fuel va n ps s = (.ok (ps ++ qs), t) ∧ Covers s u va n qs ∧ Looks s t ∧ TlbsAgree t ∧
      t.l1 = s.l1 := by
  induction fuel with
  | zero =>
    intro va n ps s ha hn hf hr
    have : n = 0 := by by_contra h; exact absurd (hf h) (by omega)
    subst this
    exact ⟨[], s, by simp [translate], ⟨by simp, by simp⟩, .refl s, ha, rfl⟩
  | succ k ih =>
    intro va n ps s ha hn hf hr
    unfold translate
    by_cases h0 : n = 0
    · subst h0; exact ⟨[], s, by simp, ⟨by simp, by simp⟩, .refl s, ha, rfl⟩
    · obtain ⟨r1, r2, r3, b, l, r4, r5⟩ := hr 0 (by omega)
      rw [Nat.add_zero] at r1 r2 r3 r4
      have hl := lookup_spec ha (unitOf s u).core (unitOf s u).ctx va
      rw [if_neg h0, if_neg (by omega), if_neg (by rw [r2]; simp)]
      generalize lookup (unitOf s u).core (unitOf s u).ctx va s = q at hl ⊢
      obtain ⟨r, s1⟩ := q
      have hw : r = .leaf b l := by rw [← r4]; exact hl.walk
      subst hw
      have hlook : Looks s s1 := hl.looks
      have htr : trOf (.leaf b l) va (accOf w) (leasedAt s1 u va) (openAt s1 u va) (narrowedAt s1 u va) = .ok (l.pa + (va - b)) l := by
        rw [looks_leasedAt hlook, looks_openAt hlook, looks_narrowedAt hlook]
        have h1 : (! leasedAt s u va && ! openAt s u va) = false := by rcases r3 with h | h <;> simp [h]
        have h2 : (narrowedAt s u va && ! l.w) = false := by
          cases hn : narrowedAt s u va
          · rfl
          · simp [r5 (.inr hn)]
        simp only [trOf, h1, h2, Bool.false_eq_true, if_false]
        cases w
        · rfl
        · simp [accOf, r5 (.inl rfl)]
      simp only [htr]
      obtain ⟨w1, w2, w3, w4, w5⟩ := walk_leaf r4
      have hpage : ∀ i < min n (4096 - va % 4096), walk s (unitOf s u).ctx (va + i) = .leaf b l := by
        intro i hi
        refine w5 _ (by omega) ?_
        have e : 2 ^ l.lg = 4096 * 2 ^ (l.lg - 12) := by
          rw [show (4096 : Nat) = 2 ^ 12 by rfl, ← Nat.pow_add]; congr 1; omega
        have e2 : b = va / 2 ^ l.lg * (4096 * 2 ^ (l.lg - 12)) := by rw [← e]; exact w3
        have e3 : b = 4096 * (va / 2 ^ l.lg * 2 ^ (l.lg - 12)) := by rw [e2]; ring
        rw [e] at w2 ⊢
        generalize va / 2 ^ l.lg * 2 ^ (l.lg - 12) = x at e3
        generalize 2 ^ (l.lg - 12) = y at w2 ⊢
        omega
      obtain ⟨qs, t, i1, i2, i3, i4, i5⟩ := ih (va + min n (4096 - va % 4096)) (n - min n (4096 - va % 4096))
        (ps ++ [⟨va, min n (4096 - va % 4096), l.pa + (va - b), l⟩]) s1 hl.agree (by omega) (by omega)
        (fun i hi => looks_mayReach hlook (by have := hr (min n (4096 - va % 4096) + i) (by omega); rwa [← Nat.add_assoc] at this))
      refine ⟨⟨va, min n (4096 - va % 4096), l.pa + (va - b), l⟩ :: qs, t, ?_, ⟨?_, ?_⟩, hlook.trans i3, i4, i5.trans hl.l1⟩
      · rw [i1]; simp
      · rw [range_split (min n (4096 - va % 4096)) n (by omega), List.flatMap_cons, i2.pas]
        congr 1
        · apply List.map_congr_left
          intro i hi
          rw [paOf, hpage i (by simpa using hi)]
          simp only; omega
        · simp only [looks_unitOf hlook, looks_paOf hlook, Nat.add_assoc]
      · intro p hp
        rcases List.mem_cons.mp hp with rfl | hp
        · exact ⟨0, by omega, b, r4⟩
        · obtain ⟨i, hi, b', hb⟩ := i2.leaf p hp
          rw [looks_unitOf hlook, hlook.walk, Nat.add_assoc] at hb
          exact ⟨_, by omega, b', hb⟩

theorem foldl_more_pas (ps : List Piece) (h : Hit) :
    (ps.foldl Hit.more h).pas = h.pas ++ ps.flatMap fun p => (List.range p.n).map (p.pa + ·) := by
  induction ps generalizing h with
  | nil => simp
  | cons p ps ih => rw [List.foldl_cons, ih]; simp [Hit.more]

theorem Scope.max_wide {a b : Scope} (h : a.isLocal = false ∨ b.isLocal = false) : (a.max b).isLocal = false := by
  cases a <;> cases b <;> revert h <;> decide

theorem foldl_more_wide (ps : List Piece) (h : Hit)
    (hw : h.scope.isLocal = false ∨ (ps ≠ [] ∧ ∀ p ∈ ps, p.leaf.scope.isLocal = false)) : (ps.foldl Hit.more h).scope.isLocal = false := by
  induction ps generalizing h with
  | nil => rcases hw with h | h
           · exact h
           · exact absurd rfl h.1
  | cons p ps ih =>
    refine ih (h.more p) (.inl ?_)
    exact Scope.max_wide (hw.imp id fun h => h.2 p (by simp))

/-! ### Reading through the L1 -/

theorem l1Agrees_looks {s t : State} {core : Nat} (h : L1Agrees s core) (hl : Looks s t) (h1 : t.l1 = s.l1) : L1Agrees t core := by
  intro x hx hc
  obtain ⟨a, b⟩ := h x (h1 ▸ hx) hc
  exact ⟨a, by rw [b]; simp only [homeRead, hl.keeps (·.mem) fun _ _ _ _ _ _ _ _ _ => rfl]⟩

theorem sectorOf_mod (pa : Nat) : sectorOf pa % 32 = 0 := by simp [sectorOf]

theorem mem_l1Others {core pa : Nat} {l : List Sector} {x : Sector} (h : x ∈ l1Others core pa l) : x ∈ l := by
  rcases List.mem_append.mp h with h | h
  · exact (List.mem_filter.mp (List.mem_of_mem_take h)).1
  · exact (List.mem_filter.mp h).1

/-- What a core's access of memory leaves, where its L1 agrees with memory. -/
structure Reads (s t : State) (core : Nat) : Prop where
  looks : Looks s t
  l1 : L1Agrees t core
  tlbs : SameTlbs s t

theorem Reads.refl {s : State} {core : Nat} (h : L1Agrees s core) : Reads s s core := ⟨.refl s, h, .refl s⟩

theorem Reads.trans {s t r : State} {core : Nat} (h : Reads s t core) (h' : Reads t r core) : Reads s r core :=
  ⟨h.looks.trans h'.looks, h'.l1, h.tlbs.trans h'.tlbs⟩

theorem reads_count {s : State} {core : Nat} (h : L1Agrees s core) (ev ctx tag n : Nat) : Reads s (countCore core ev ctx tag n s) core :=
  ⟨looks_countCore .., l1Agrees_looks h (looks_countCore ..) (countCore_l1 ..), sameTlbs_countCore ..⟩

theorem reads_bit {s : State} {core : Nat} (h : L1Agrees s core) : Reads s (takeBit s).2 core :=
  ⟨looks_takeBit s, l1Agrees_looks h (looks_takeBit s) rfl, rfl, rfl, rfl⟩

theorem reads_fetch {s : State} {core : Nat} (h : L1Agrees s core) (ctx va : Nat) {pa : Nat} (hp : pa % 32 = 0) (sc : Scope) :
    Reads s (fetchSector core ctx va pa sc s) core := by
  refine ⟨looks_iff.mpr ⟨_, _, _, _, _, _, _, _, rfl⟩, fun x hx hc => ?_, rfl, rfl, rfl⟩
  rcases List.mem_cons.mp hx with rfl | hx
  · exact ⟨hp, rfl⟩
  · exact h x (mem_l1Others hx) hc

theorem accessSector_spec {s : State} {core : Nat} (h : L1Agrees s core) (ctx va : Nat) {pa : Nat} (hp : pa % 32 = 0) (sc : Scope) :
    Reads s (accessSector core ctx va pa sc s) core := by
  unfold accessSector
  simp only
  have r1 := reads_count h 0x0A ctx (curTag s) 1
  refine r1.trans ?_
  generalize countCore core 0x0A ctx (curTag s) 1 s = s1 at r1 ⊢
  have miss : ∀ s2, L1Agrees s2 core → Reads s2 (fetchSector core ctx va pa sc (countCore core 0x0B ctx (curTag s2) 1 s2)) core := fun s2 h2 =>
    (reads_count h2 ..).trans (reads_fetch (reads_count h2 ..).l1 ctx va hp sc)
  split
  · have r2 := reads_bit r1.l1
    refine r2.trans ?_
    generalize takeBit s1 = q at r2 ⊢
    obtain ⟨keep, s2⟩ := q
    simp only at r2 ⊢
    split
    · exact .refl r2.l1
    · exact miss s2 r2.l1
  · exact miss s1 r1.l1

/-- Touching a sector keeps the L1s in agreement with memory. -/
theorem touchSector_spec {s : State} {core : Nat} (h : L1Agrees s core) (ctx va : Nat) {pa : Nat} (hp : pa % 32 = 0) (sc : Scope) :
    Reads s (touchSector core ctx va pa sc s) core := by
  unfold touchSector
  split
  · exact .refl h
  · have hl : Looks s { s with secs := (core, pa) :: s.secs } := looks_iff.mpr ⟨_, _, _, _, _, _, _, _, rfl⟩
    have h1 : L1Agrees { s with secs := (core, pa) :: s.secs } core := l1Agrees_looks h hl rfl
    exact Reads.trans ⟨hl, h1, rfl, rfl, rfl⟩ (accessSector_spec h1 ctx va hp sc)

/-- Where the L1s agree with memory, a byte of the L1 is home's. -/
theorem l1Byte_eq {s : State} {core : Nat} (h : L1Agrees s core) (pa : Nat) : l1Byte s core pa = s.mem.read pa := by
  unfold l1Byte
  split
  · rename_i x hx
    have h1 := List.mem_of_find?_eq_some hx
    have h2 := List.find?_some hx
    simp only [Bool.and_eq_true, beq_iff_eq] at h2
    obtain ⟨-, hb⟩ := h x h1 h2.1
    have hlt : pa - x.pa < 32 := by rw [h2.2]; simp only [sectorOf]; omega
    have e : x.pa + (pa - x.pa) = pa := by rw [h2.2]; simp only [sectorOf]; omega
    rw [hb]
    simp only [homeRead, List.getD_eq_getElem?_getD, List.getElem?_map, List.getElem?_range hlt, Option.map_some, Option.getD_some, e]
  · rfl

theorem foldl_touch {core ctx : Nat} {sc : Scope} (l : List (Nat × Nat)) (hl : ∀ p ∈ l, p.2 % 32 = 0) (s : State) (h : L1Agrees s core) :
    Reads s (l.foldl (fun s p => touchSector core ctx p.1 p.2 sc s) s) core := by
  induction l generalizing s with
  | nil => exact .refl h
  | cons p l ih =>
    have r := touchSector_spec h ctx p.1 (hl p (by simp)) sc
    exact r.trans (ih (fun q hq => hl q (by simp [hq])) _ r.l1)

theorem mem_sectorsOf {va : Nat} {pas : List Nat} {p : Nat × Nat} (h : p ∈ sectorsOf va pas) : p.2 % 32 = 0 := by
  simp only [sectorsOf, List.mem_dedup, List.mem_mapIdx] at h
  obtain ⟨i, hi, rfl⟩ := h
  exact sectorOf_mod _

/-- Where the L1s agree with memory, a core reads home's bytes under its own committed writes (R80, R213). -/
theorem coreRead_spec {s : State} {core : Nat} (h : L1Agrees s core) (ctx va : Nat) (pas : List Nat) (sc : Scope) (stream : Bool) :
    ∃ t, coreRead core ctx va pas sc stream s = (pas.map fun p => overlay s.wq core p (s.mem.read p), t) ∧ Reads s t core := by
  have r := foldl_touch (core := core) (ctx := ctx) (sc := sc) (sectorsOf va pas) (fun p hp => mem_sectorsOf hp) s h
  unfold coreRead
  simp only
  generalize (sectorsOf va pas).foldl (fun s p => touchSector core ctx p.1 p.2 sc s) s = s1 at r ⊢
  have hb : (pas.map fun p => overlay s1.wq core p (l1Byte s1 core p)) = pas.map fun p => overlay s.wq core p (s.mem.read p) := by
    apply List.map_congr_left
    intro p _
    rw [l1Byte_eq r.l1, r.looks.keeps (·.wq) fun _ _ _ _ _ _ _ _ _ => rfl, r.looks.keeps (·.mem) fun _ _ _ _ _ _ _ _ _ => rfl]
  rw [hb]
  cases stream
  · exact ⟨s1, by simp, r⟩
  · exact ⟨{ s1 with l1 := s1.l1.filter fun x => ! (x.core == core && (sectorsOf va pas).any fun p => p.2 == x.pa) }, by simp,
      r.trans ⟨looks_iff.mpr ⟨_, _, _, _, _, _, _, _, rfl⟩, fun x hx hc => r.l1 x (List.mem_filter.mp hx).1 hc, rfl, rfl, rfl⟩⟩

/-! ### Checks -/

/-- A checked element names the bytes of the range. -/
def Placed (s : State) (r : LaneRef) (sp : Space) (ea : Int) (n : Nat) (a : At) : Prop :=
  match sp with
  | .sc => a = .scr ea.toNat
  | .ob => a = .ob ea.toNat
  | _ => ∃ h : Hit, a = .mem ea.toNat h ∧ (h.pas = (List.range n).map fun i => paOf s (unitOf s r.u).ctx (ea.toNat + i)) ∧
      (0 < n → WidePages s (unitOf s r.u).ctx ea.toNat n → h.scope.isLocal = false)

theorem checkMem_spec {s : State} {r : LaneRef} {ea : Int} {n wa : Nat} {w settled : Bool} {core : Nat} (ha : TlbsAgree s) (h1 : L1Agrees s core)
    (hr : ∀ i < n, MayReach s r.u (ea.toNat + i) w) :
    ∃ ps t, translate r.u (accOf w) settled wa (faddrOf ea) (n / 4096 + 2) ea.toNat n [] s = (.ok ps, t) ∧
      (ps.foldl Hit.more {}).pas = (List.range n).map (fun i => paOf s (unitOf s r.u).ctx (ea.toNat + i)) ∧
      (0 < n → WidePages s (unitOf s r.u).ctx ea.toNat n → (ps.foldl Hit.more {}).scope.isLocal = false) ∧ Looks s t ∧ TlbsAgree t ∧ L1Agrees t core := by
  obtain ⟨qs, t, e, c, l, a, f⟩ := translate_spec (wa := wa) (ea := faddrOf ea) (settled := settled) (n / 4096 + 2) ea.toNat n [] s ha
    (by omega) (by omega) hr
  refine ⟨qs, t, e, ?_, fun hn hw => ?_, l, a, l1Agrees_looks h1 l f⟩
  · rw [foldl_more_pas, c.pas]; rfl
  · refine foldl_more_wide qs {} (.inr ⟨?_, fun p hp => ?_⟩)
    · rintro rfl
      have := congrArg List.length c.pas
      simp at this; omega
    · obtain ⟨i, hi, b, hb⟩ := c.leaf p hp
      exact hw i hi b _ hb

/-- An element in reach passes its checks (R209, R210, R212). -/
theorem checkElem_spec {s : State} {r : LaneRef} {sp : Space} {ea : Int} {n wa : Nat} {w settled : Bool} {core : Nat} (ha : TlbsAgree s)
    (h1 : L1Agrees s core) (hr : InReach s r sp ea n w) :
    ∃ a t, checkElem r sp ea n (accOf w) settled wa s = (.ok a, t) ∧ Placed s r sp ea n a ∧ Looks s t ∧ TlbsAgree t ∧ L1Agrees t core := by
  obtain ⟨h0, hr⟩ := hr
  cases sp
  case gl =>
    obtain ⟨ps, t, e, p, pw, l, a, b⟩ := checkMem_spec (wa := wa) (settled := settled) ha h1 hr
    exact ⟨.mem ea.toNat (ps.foldl Hit.more {}), t, by simp only [checkElem, e], ⟨_, rfl, p, pw⟩, l, a, b⟩
  case sk =>
    obtain ⟨r1, r2, r3⟩ := hr
    obtain ⟨ps, t, e, p, pw, l, a, b⟩ := checkMem_spec (wa := wa) (settled := settled) ha h1 r3
    exact ⟨.mem ea.toNat (ps.foldl Hit.more {}), t, by simp only [checkElem, e]; rw [if_pos ⟨r1, r2⟩], ⟨_, rfl, p, pw⟩, l, a, b⟩
  case sc => exact ⟨.scr ea.toNat, s, by simp only [checkElem]; rw [if_pos ⟨h0, hr⟩], rfl, .refl s, ha, h1⟩
  case ob => exact ⟨.ob ea.toNat, s, by simp only [checkElem]; rw [if_pos ⟨h0, hr⟩], rfl, .refl s, ha, h1⟩

/-! ### What looking keeps of an element's view -/

theorem looks_eaOf {s t : State} (h : Looks s t) (r : LaneRef) (sp : Space) (a : Opnd) (off : BitVec 24) (ix : Word) (w : Nat) :
    eaOf t r sp a off ix w = eaOf s r sp a off ix w := h.keeps (fun s => eaOf s r sp a off ix w) fun _ _ _ _ _ _ _ _ _ => rfl

theorem looks_idxOf {s t : State} (h : Looks s t) (r : LaneRef) (i : Option Opnd) : idxOf t r i = idxOf s r i :=
  h.keeps (fun s => idxOf s r i) fun _ _ _ _ _ _ _ _ _ => rfl

theorem looks_keyOf {s t : State} (h : Looks s t) (r : LaneRef) (sp : Space) (a : Nat) : keyOf t r sp a = keyOf s r sp a := by
  simp only [keyOf, looks_paOf h, looks_unitOf h]

theorem looks_ownByte {s t : State} (h : Looks s t) (r : LaneRef) (sp : Space) (k : Nat) : ownByte t r sp k = ownByte s r sp k :=
  h.keeps (fun s => ownByte s r sp k) fun _ _ _ _ _ _ _ _ _ => rfl

theorem looks_byteUnder {s t : State} (h : Looks s t) (r : LaneRef) (sp : Space) (k : Nat) : byteUnder t r sp k = byteUnder s r sp k :=
  h.keeps (fun s => byteUnder s r sp k) fun _ _ _ _ _ _ _ _ _ => rfl

theorem looks_keyPoisoned {s t : State} (h : Looks s t) (r : LaneRef) (sp : Space) (k : Nat) :
    keyPoisoned t r sp k = keyPoisoned s r sp k := h.keeps (fun s => keyPoisoned s r sp k) fun _ _ _ _ _ _ _ _ _ => rfl

theorem looks_seenBytes {s t : State} (h : Looks s t) (r : LaneRef) (sp : Space) (ea : Int) (n : Nat) :
    seenBytes t r sp ea n = seenBytes s r sp ea n := by
  simp only [seenBytes, looks_keyOf h, looks_ownByte h, looks_byteUnder h]

theorem looks_inReach {s t : State} (h : Looks s t) {r : LaneRef} {sp : Space} {ea : Int} {n : Nat} {w : Bool} (hi : InReach s r sp ea n w) :
    InReach t r sp ea n w := by
  obtain ⟨h0, h1⟩ := hi
  refine ⟨h0, ?_⟩
  have hu := looks_unitOf h
  cases sp
  · exact fun i hi => looks_mayReach h (h1 i hi)
  · simp only [bindOf, hu]; exact h1
  · obtain ⟨a, b, c⟩ := h1
    exact ⟨by simpa only [bindOf, hu] using a, by simpa only [bindOf, hu] using b, fun i hi => looks_mayReach h (c i hi)⟩
  · have : reserved t r.u ea.toNat n = reserved s r.u ea.toNat n := h.keeps (fun s => reserved s r.u ea.toNat n) fun _ _ _ _ _ _ _ _ _ => rfl
    simp only [this]; exact h1

theorem looks_loadable {s t : State} (h : Looks s t) {r : LaneRef} {sp : Space} {ea : Int} {n : Nat} (hi : Loadable s r sp ea n) :
    Loadable t r sp ea n := by
  refine ⟨looks_inReach h hi.1, fun i hn => ?_⟩
  rw [looks_keyOf h, looks_ownByte h, looks_keyPoisoned h]
  exact hi.2 i hn

theorem looks_plain {s t : State} {u : Nat} (h : Looks s t) (p : Plain s u) (ha : TlbsAgree t)
    (hb : L1Agrees t (unitOf s u).core) : Plain t u :=
  ⟨ha, by rw [looks_unitOf h]; exact hb, (h.keeps (fun s => isDet s u) fun _ _ _ _ _ _ _ _ _ => rfl).trans p.nodet, by rw [looks_unitOf h]; exact p.nostaged,
    (h.keeps (·.hstage) fun _ _ _ _ _ _ _ _ _ => rfl).trans p.nohelp,
    (h.keeps (·.cxl) fun _ _ _ _ _ _ _ _ _ => rfl).trans p.alive⟩

/-! ### Loads -/

theorem placed_space {s : State} {r : LaneRef} {sp : Space} {ea : Int} {n : Nat} {a : At} (h : Placed s r sp ea n a) :
    (sp = .sc ∧ a = .scr ea.toNat) ∨ (sp = .ob ∧ a = .ob ea.toNat) ∨
      (sp.cached = true ∧ ∃ hh : Hit, a = .mem ea.toNat hh ∧ (hh.pas = (List.range n).map fun i => keyOf s r sp (ea.toNat + i)) ∧
        (0 < n → WidePages s (unitOf s r.u).ctx ea.toNat n → hh.scope.isLocal = false)) := by
  cases sp
  · exact .inr (.inr ⟨rfl, h⟩)
  · exact .inl ⟨rfl, h⟩
  · exact .inr (.inr ⟨rfl, h⟩)
  · exact .inr (.inl ⟨rfl, h⟩)

theorem keyOf_un {s : State} {r : LaneRef} {sp : Space} (h : sp.cached = false) (a : Nat) : keyOf s r sp a = a := by simp [keyOf, h]

theorem placed_looks {s t : State} (l : Looks s t) {r : LaneRef} {sp : Space} {ea : Int} {n : Nat} {a : At} (h : Placed t r sp ea n a) :
    Placed s r sp ea n a := by
  rcases placed_space h with ⟨rfl, rfl⟩ | ⟨rfl, rfl⟩ | ⟨hc, hh, rfl, hpas, hwd⟩
  · rfl
  · rfl
  · have : ∃ h : Hit, At.mem ea.toNat hh = .mem ea.toNat h ∧ (h.pas = (List.range n).map fun i => paOf s (unitOf s r.u).ctx (ea.toNat + i)) ∧
        (0 < n → WidePages s (unitOf s r.u).ctx ea.toNat n → h.scope.isLocal = false) := by
      refine ⟨hh, rfl, hpas.trans ?_, fun hn hw => hwd hn ?_⟩
      · simp only [keyOf, hc, if_true, looks_paOf l, looks_unitOf l]
      · simpa only [WidePages, l.walk, looks_unitOf l] using hw
    cases sp <;> first | exact this | cases hc

/-- No byte of a loadable element raises POISON (R347). -/
theorem poisonOf_none {s : State} {r : LaneRef} {sp : Space} {ea : Int} {n wa : Nat} {a : At} (h : Placed s r sp ea n a)
    (hl : Loadable s r sp ea n) : poisonOf s r.u (isOwn s r a) a n wa = none := by
  have hp := hl.2
  rcases placed_space h with ⟨rfl, rfl⟩ | ⟨rfl, rfl⟩ | ⟨hc, hh, rfl, hpas, hwd⟩
  · simp only [poisonOf, isOwn, Option.map_eq_none_iff, List.find?_eq_none, List.mem_map, List.mem_range]
    rintro _ ⟨i, hi, rfl⟩
    have := hp i hi
    simp only [keyOf_un (show Space.cached .sc = false from rfl), ownByte, keyPoisoned] at this
    rcases this with h | h <;> simp_all [Space.cached]
  · simp only [poisonOf, isOwn, Option.map_eq_none_iff, List.find?_eq_none, List.mem_map, List.mem_range]
    rintro _ ⟨i, hi, rfl⟩
    have := hp i hi
    simp only [keyOf_un (show Space.cached .ob = false from rfl), ownByte, keyPoisoned] at this
    rcases this with h | h <;> simp_all [Space.cached]
  · simp only [poisonOf, isOwn, Option.map_eq_none_iff, List.find?_eq_none, List.mem_mapIdx]
    rintro _ ⟨i, hi, rfl⟩
    simp only [hpas, List.getElem_map, List.getElem_range]
    have hi' : i < n := by simpa [hpas] using hi
    have := hp i hi'
    have hown : ownByte s r sp = fun k => bufByte (s.buf.get r []) true .gl k := by
      funext k; simp [ownByte, hc, bufByte]
    have hpo : keyPoisoned s r sp = poisonSeen s (unitOf s r.u).core := by
      funext k; cases sp <;> first | rfl | cases hc
    rw [hown, hpo] at this
    rcases this with h | h <;> simp_all

/-- What a lane reads at a checked element (R38, R216). -/
theorem readAt_spec {s : State} {r : LaneRef} {sp : Space} {ea : Int} {n : Nat} {a : At} {stream : Bool} (h : Placed s r sp ea n a)
    (hp : Plain s r.u) : ∃ t, readAt r a n stream s = (seenBytes s r sp ea n, t) ∧ Looks s t ∧ TlbsAgree t ∧
      L1Agrees t (unitOf s r.u).core := by
  rcases placed_space h with ⟨rfl, rfl⟩ | ⟨rfl, rfl⟩ | ⟨hc, hh, rfl, hpas, hwd⟩
  · refine ⟨s, ?_, .refl s, hp.tlbs, hp.l1⟩
    simp only [readAt, seenBytes, keyOf_un (show Space.cached .sc = false from rfl), ownByte, byteUnder, Space.cached, List.map_map]; rfl
  · refine ⟨s, ?_, .refl s, hp.tlbs, hp.l1⟩
    simp only [readAt, seenBytes, keyOf_un (show Space.cached .ob = false from rfl), ownByte, byteUnder, Space.cached, List.map_map]; rfl
  · obtain ⟨t, e, l, b, c⟩ := coreRead_spec hp.l1 (unitOf s r.u).ctx ea.toNat hh.pas hh.scope stream
    refine ⟨t, ?_, l, tlbsAgree_looks hp.tlbs l c, b⟩
    have hstaged : ownStaged t r = [] := by
      have h1 : ownStaged t r = ownStaged s r := l.keeps (fun s => ownStaged s r) fun _ _ _ _ _ _ _ _ _ => rfl
      rw [h1]
      simp only [ownStaged, hp.nostaged, hp.nohelp]
      split
      · split <;> rfl
      · rfl
    simp only [readAt, hp.nodet, Bool.false_eq_true, if_false, e, hstaged, List.isEmpty_nil, if_true, Prod.mk.injEq, and_true]
    apply List.ext_getElem
    · simp [hpas, seenBytes]
    · intro i h1 h2
      have hi : i < n := by simpa [seenBytes] using h2
      have hown : ∀ k, ownByte s r sp k = bufByte (s.buf.get r []) true .gl k := fun k => by simp [ownByte, hc, bufByte]
      have hby : ∀ k, byteUnder s r sp k = overlay s.wq (unitOf s r.u).core k (s.mem.read k) := fun k => by
        cases sp <;> first | rfl | cases hc
      simp only [List.getElem_mapIdx, seenBytes, List.getElem_map, List.getElem_range, hown, hby]
      simp only [hpas, List.getElem_map, List.getElem_range, List.map_map, List.getD_eq_getElem?_getD, List.getElem?_map,
        List.getElem?_range hi, Option.map_some, Option.getD_some, Function.comp]

/-- A loadable element is loaded (R216). -/
theorem loadElem_spec {s : State} {r : LaneRef} {sp : Space} {ea : Int} {n wa : Nat} {stream : Bool} (hp : Plain s r.u)
    (hl : Loadable s r sp ea n) :
    ∃ t, loadElem r sp ea n stream wa s = (.ok (seenBytes s r sp ea n), t) ∧ Looks s t ∧ TlbsAgree t ∧
      L1Agrees t (unitOf s r.u).core := by
  obtain ⟨a, t, e, p, l, ha, hb⟩ := checkElem_spec (wa := wa) (settled := false) hp.tlbs hp.l1 hl.1
  have e' : checkElem r sp ea n .read false wa s = (.ok a, t) := e
  have p' : Placed t r sp ea n a := by
    rcases placed_space p with ⟨rfl, rfl⟩ | ⟨rfl, rfl⟩ | ⟨hc, hh, rfl, hpas, hwd⟩
    · rfl
    · rfl
    · have : ∃ h : Hit, At.mem ea.toNat hh = .mem ea.toNat h ∧ (h.pas = (List.range n).map fun i => paOf t (unitOf t r.u).ctx (ea.toNat + i)) ∧
          (0 < n → WidePages t (unitOf t r.u).ctx ea.toNat n → h.scope.isLocal = false) := by
        refine ⟨hh, rfl, hpas.trans ?_, fun hn hw => hwd hn ?_⟩
        · simp only [keyOf, hc, if_true, looks_paOf l, looks_unitOf l]
        · simpa only [WidePages, l.walk, looks_unitOf l] using hw
      cases sp <;> first | exact this | cases hc
  have hp' := looks_plain l hp ha hb
  obtain ⟨t2, e2, l2, a2, b2⟩ := readAt_spec (stream := stream) p' hp'
  refine ⟨t2, ?_, l.trans l2, a2, by rw [← looks_unitOf l]; exact b2⟩
  simp only [loadElem, e', poisonOf_none (wa := wa) p' (looks_loadable l hl), e2, looks_seenBytes l]

end Sys2Proof.Machine
end

