-- ==== Sys2Proof/Laws/Compute.lean ====
section
/-! SUPPORT. What the shared meaning of the computing instructions leaves, lane by lane and once for an issue. -/

namespace Sys2Proof.Machine

/-! ### The lanes of an issue -/

theorem mem_refsOf {t : ThreadId} {m : BitVec 4} {r : LaneRef} :
    r ∈ refsOf t m ↔ ∃ i < 4, m.getLsbD i = true ∧ r = ⟨t.u, t.g, 4 * t.j + i, t.h⟩ := by
  simp only [refsOf, lanesOf, List.mem_map, List.mem_filter]
  constructor
  · rintro ⟨i, ⟨hi, hm⟩, rfl⟩
    exact ⟨i, by simp at hi; omega, hm, rfl⟩
  · rintro ⟨i, hi, hm, rfl⟩
    exact ⟨i, ⟨by simp; omega, hm⟩, rfl⟩

theorem nodup_refsOf (t : ThreadId) (m : BitVec 4) : (refsOf t m).Nodup := by
  refine List.Nodup.map (fun a b h => ?_) (List.Nodup.filter _ (by decide))
  simp only [LaneRef.mk.injEq, true_and, and_true] at h; omega

theorem refsOf_thread {t : ThreadId} {m : BitVec 4} {r : LaneRef} (h : r ∈ refsOf t m) : r.thread = t := by
  obtain ⟨i, hi, -, rfl⟩ := mem_refsOf.mp h
  obtain ⟨u, g, j, b⟩ := t
  simp [LaneRef.thread]; omega

theorem refsOf_disjoint {t t' : ThreadId} {m m' : BitVec 4} {r : LaneRef} (h : r ∈ refsOf t m) (h' : r ∈ refsOf t' m') : t = t' := by
  rw [← refsOf_thread h, ← refsOf_thread h']

theorem nodup_threads {iss : Issue} (h : iss.js.Nodup) : iss.threads.Nodup :=
  h.map fun a b e => by simpa using e

theorem nodup_flat {iss : Issue} (h : iss.js.Nodup) (f : ThreadId → BitVec 4) : (iss.threads.flatMap fun t => refsOf t (f t)).Nodup := by
  rw [List.nodup_flatMap]
  exact ⟨fun t _ => nodup_refsOf t _, (nodup_threads h).imp fun hne r hr hr' => hne (refsOf_disjoint hr hr')⟩

theorem nodup_issueLanes (s : State) {iss : Issue} (h : iss.js.Nodup) : (issueLanes s iss).Nodup := nodup_flat h _

theorem idleLanes_eq (s : State) (iss : Issue) : idleLanes s iss =
    iss.threads.flatMap fun t => refsOf t (if (threadOf s t).mask = 0 then 0 else ~~~(threadOf s t).mask) := by
  unfold idleLanes; congr 1; funext t; split <;> simp [refsOf, lanesOf]

theorem wholeSlices_eq (s : State) (iss : Issue) : wholeSlices s iss =
    iss.threads.flatMap fun t => refsOf t (if (threadOf s t).mask = 0 then 0 else 0xF) := by
  unfold wholeSlices; congr 1; funext t; split <;> simp [refsOf, lanesOf, threadLanes]

theorem nodup_idleLanes (s : State) {iss : Issue} (h : iss.js.Nodup) : (idleLanes s iss).Nodup := by
  rw [idleLanes_eq]; exact nodup_flat h _

theorem nodup_wholeSlices (s : State) {iss : Issue} (h : iss.js.Nodup) : (wholeSlices s iss).Nodup := by
  rw [wholeSlices_eq]; exact nodup_flat h _

theorem idle_not_active {s : State} {iss : Issue} {r : LaneRef} (h : r ∈ idleLanes s iss) : r ∉ issueLanes s iss := by
  rw [idleLanes_eq] at h
  simp only [issueLanes, List.mem_flatMap] at h ⊢
  rintro ⟨t', -, hr'⟩
  obtain ⟨t, -, hr⟩ := h
  obtain rfl := refsOf_disjoint hr hr'
  obtain ⟨i, hi, hm, rfl⟩ := mem_refsOf.mp hr
  obtain ⟨i', hi', hm', e⟩ := mem_refsOf.mp hr'
  obtain rfl : i = i' := by simp only [LaneRef.mk.injEq, true_and, and_true] at e; omega
  split at hm
  · simp at hm
  · rw [BitVec.getLsbD_not, hm'] at hm
    simp at hm

/-! ### Slots and echoes -/

theorem slot_setSlot (r r' : LaneRef) (n m : Nat) (v : Word) (s : State) :
    slot (setSlot r n v s) r' m = if r' = r ∧ m = n then v else slot s r' m := by
  simp only [slot, setSlot_slot, Map.get_set, Ix.mk.injEq]

theorem dirty_setSlot (r r' : LaneRef) (n m : Nat) (v : Word) (s : State) :
    isDirty (setSlot r n v s) r' m = if r' = r ∧ m = n then true else isDirty s r' m := by
  simp only [isDirty, setSlot_dirty]
  split <;> rename_i h <;> split <;> rename_i h' <;> simp_all

theorem echo_setSlot (r r' : LaneRef) (n k : Nat) (v : Word) (s : State) : echo (setSlot r n v s) r' k = echo s r' k := rfl

theorem slot_setSlots (r r' : LaneRef) (n m : Nat) (ws : List Word) (s : State) :
    slot (setSlots r n ws s) r' m = if r' = r ∧ n ≤ m ∧ m < n + ws.length then ws.getD (m - n) 0 else slot s r' m := by
  induction ws generalizing n s with
  | nil => simp [setSlots]
  | cons w ws ih =>
    rw [setSlots, ih, slot_setSlot]
    by_cases hr : r' = r
    · subst hr
      by_cases h1 : m = n
      · subst h1; simp
      · by_cases h2 : n + 1 ≤ m ∧ m < n + 1 + ws.length
        · have h3 : n ≤ m ∧ m < n + (w :: ws).length := by simp; omega
          obtain ⟨k, rfl⟩ : ∃ k, m = n + 1 + k := ⟨m - (n + 1), by omega⟩
          have h4 : n + 1 + k - n = k + 1 := by omega
          rw [if_pos ⟨rfl, h2⟩, if_pos ⟨rfl, h3⟩, h4]; simp
        · have h3 : ¬ (n ≤ m ∧ m < n + (w :: ws).length) := by simp; omega
          simp only [true_and, h2, h3, h1, if_false]
    · simp [hr]

theorem dirty_setSlots (r r' : LaneRef) (n m : Nat) (ws : List Word) (s : State) :
    isDirty (setSlots r n ws s) r' m = if r' = r ∧ n ≤ m ∧ m < n + ws.length then true else isDirty s r' m := by
  induction ws generalizing n s with
  | nil => simp [setSlots]
  | cons w ws ih =>
    rw [setSlots, ih, dirty_setSlot]
    by_cases hr : r' = r
    · subst hr
      by_cases h1 : m = n
      · subst h1; simp
      · by_cases h2 : n + 1 ≤ m ∧ m < n + 1 + ws.length
        · have h3 : n ≤ m ∧ m < n + (w :: ws).length := by simp; omega
          simp only [true_and, h2, h3, if_true]
        · have h3 : ¬ (n ≤ m ∧ m < n + (w :: ws).length) := by simp; omega
          simp only [true_and, h2, h3, h1, if_false]
    · simp [hr]

theorem setSlots_rest (r : LaneRef) (n : Nat) (ws : List Word) (s : State) :
    setSlots r n ws s = { s with slot := (setSlots r n ws s).slot, dirty := (setSlots r n ws s).dirty } := by
  induction ws generalizing n s with
  | nil => rfl
  | cons w ws ih => rw [setSlots, ih]; rfl

theorem echo_setSlots (r r' : LaneRef) (n k : Nat) (ws : List Word) (s : State) : echo (setSlots r n ws s) r' k = echo s r' k := by
  rw [setSlots_rest]; rfl

theorem echo_shiftEcho (r r' : LaneRef) (k : Nat) (v : Word) (s : State) :
    echo (shiftEcho r v s) r' k = if r' = r ∧ k < 4 then [v, echo s r 0, echo s r 1, echo s r 2].getD k 0 else echo s r' k := by
  show Map.get (((((s.echo.set _ _).set _ _).set _ _).set _ _) : Map (Ix LaneRef) Word) _ 0 = _
  simp only [echo, Map.get_set, Ix.mk.injEq]
  by_cases hr : r' = r
  · subst hr
    match k with
    | 0 => simp
    | 1 => simp
    | 2 => simp
    | 3 => simp
    | k + 4 => simp
  · simp [hr]

theorem shiftEchoes_rest (r : LaneRef) (ws : List Word) (s : State) :
    shiftEchoes r ws s = { s with echo := (shiftEchoes r ws s).echo } := by
  induction ws generalizing s with
  | nil => rfl
  | cons w ws ih => rw [shiftEchoes, ih]; rfl

theorem slot_shiftEchoes (r r' : LaneRef) (m : Nat) (ws : List Word) (s : State) : slot (shiftEchoes r ws s) r' m = slot s r' m := by
  rw [shiftEchoes_rest]; rfl

theorem dirty_shiftEchoes (r r' : LaneRef) (m : Nat) (ws : List Word) (s : State) : isDirty (shiftEchoes r ws s) r' m = isDirty s r' m := by
  rw [shiftEchoes_rest]; rfl

theorem echo_shiftEchoes_ne {r r' : LaneRef} (h : r' ≠ r) (k : Nat) (ws : List Word) (s : State) :
    echo (shiftEchoes r ws s) r' k = echo s r' k := by
  induction ws generalizing s with
  | nil => rfl
  | cons w ws ih => rw [shiftEchoes, ih, echo_shiftEcho]; simp [h]

theorem echo_shiftEchoes_ge (r r' : LaneRef) {k : Nat} (hk : 4 ≤ k) (ws : List Word) (s : State) :
    echo (shiftEchoes r ws s) r' k = echo s r' k := by
  induction ws generalizing s with
  | nil => rfl
  | cons w ws ih =>
    have h : ¬ (r' = r ∧ k < 4) := by omega
    rw [shiftEchoes, ih, echo_shiftEcho, if_neg h]

theorem echo_shiftEchoes (r : LaneRef) {k : Nat} (hk : k < 4) (ws : List Word) (s : State) :
    echo (shiftEchoes r ws s) r k = echoAfter s r ws k := by
  induction ws generalizing s with
  | nil => match k, hk with
    | 0, _ => rfl
    | 1, _ => rfl
    | 2, _ => rfl
    | 3, _ => rfl
  | cons w ws ih =>
    rw [shiftEchoes, ih]
    simp only [echoAfter, echo_shiftEcho, List.reverse_cons, List.append_assoc, List.getD_eq_getElem?_getD]
    by_cases h : k < ws.reverse.length
    · rw [List.getElem?_append_left h, List.getElem?_append_left h]
    · have h' := Nat.le_of_not_lt h
      rw [List.getElem?_append_right h', List.getElem?_append_right h']
      obtain hj : k - ws.reverse.length < 4 := by omega
      match k - ws.reverse.length, hj with
      | 0, _ => simp
      | 1, _ => simp
      | 2, _ => simp
      | 3, _ => simp

/-! ### Threads -/

theorem threadOf_modThread (t x : ThreadId) (f : Thread → Thread) (s : State) :
    threadOf (modThread t f s) x = if x = t then f (threadOf s x) else threadOf s x := by
  unfold threadOf
  by_cases h : x = t
  · subst h; simp
  · simp [Map.get_modify_ne _ _ _ h, h]

theorem threadOf_modThreads {iss : Issue} (h : iss.js.Nodup) (f : Thread → Thread) (s : State) (x : ThreadId) :
    threadOf (modThreads iss f s) x = if x ∈ iss.threads then f (threadOf s x) else threadOf s x := by
  unfold modThreads
  have hn := nodup_threads h
  revert hn
  generalize iss.threads = ts
  intro hn
  induction ts generalizing s with
  | nil => simp
  | cons t ts ih =>
    obtain ⟨h1, h2⟩ := List.nodup_cons.mp hn
    rw [List.foldl_cons, ih _ h2, threadOf_modThread]
    by_cases hx : x = t
    · subst hx; simp [h1]
    · simp [hx]

theorem modThreads_rest (iss : Issue) (f : Thread → Thread) (s : State) : modThreads iss f s = { s with thr := (modThreads iss f s).thr } := by
  unfold modThreads
  generalize iss.threads = ts
  induction ts generalizing s with
  | nil => rfl
  | cons t ts ih => rw [List.foldl_cons, ih]; rfl

theorem Runs.nodup {s : State} {iss : Issue} (h : Runs s iss) : iss.js.Nodup := h.rising.imp Nat.ne_of_lt

theorem wentOn_advance {iss : Issue} (h : iss.js.Nodup) (m : State) : WentOn m (advance iss m) iss :=
  ⟨modThreads_rest _ _ _, fun x => threadOf_modThreads h _ _ _⟩

/-! ### Changes lane by lane -/

/-- What changes made for lanes one after the other, each of its own lane only, leave of one lane. -/
theorem foldl_lane {α β : Type} (key : β → LaneRef) (step : State → β → State) (obs : State → LaneRef → α) (F : β → α → α)
    (hs : ∀ s b, obs (step s b) (key b) = F b (obs s (key b))) (hn : ∀ s b r, r ≠ key b → obs (step s b) r = obs s r)
    (l : List β) (hl : (l.map key).Nodup) (s : State) (r : LaneRef) :
    (∀ b ∈ l, key b = r → obs (l.foldl step s) r = F b (obs s r)) ∧ (r ∉ l.map key → obs (l.foldl step s) r = obs s r) := by
  induction l generalizing s with
  | nil => simp
  | cons c l ih =>
    obtain ⟨h1, h2⟩ := List.nodup_cons.mp hl
    obtain ⟨i1, i2⟩ := ih h2 (step s c)
    constructor
    · intro b hb hk
      subst hk
      rcases List.mem_cons.mp hb with rfl | hb
      · rw [List.foldl_cons, i2 h1, hs]
      · rw [List.foldl_cons, i1 b hb rfl, hn]
        intro e; exact h1 (e ▸ List.mem_map_of_mem hb)
    · intro hr
      simp only [List.map_cons, List.mem_cons, not_or] at hr
      rw [List.foldl_cons, i2 hr.2, hn _ _ _ hr.1]

/-! ### Delivering results -/

/-- The slots that a destination of a lane takes, and their words. -/
def inDst (d : Opnd) (ws : List Word) (m : Nat) : Option Word :=
  match d with
  | .slot n => if n.toNat ≤ m ∧ m < n.toNat + ws.length then some (ws.getD (m - n.toNat) 0) else none
  | _ => none

theorem writeDst_rest (r : LaneRef) {d : Opnd} (hd : d.isGang = false) (ws : List Word) (s : State) :
    writeDst r d ws s = { s with slot := (writeDst r d ws s).slot, dirty := (writeDst r d ws s).dirty } := by
  cases d <;> first | rfl | exact setSlots_rest _ _ _ _ | simp [Opnd.isGang] at hd

theorem slot_writeDst (r r' : LaneRef) {d : Opnd} (hd : d.isGang = false) (ws : List Word) (m : Nat) (s : State) :
    slot (writeDst r d ws s) r' m = if r' = r then (inDst d ws m).getD (slot s r' m) else slot s r' m := by
  cases d <;> simp [Opnd.isGang, writeDst, inDst] at hd ⊢
  rw [slot_setSlots]
  by_cases hr : r' = r <;> simp [hr]
  split <;> simp

theorem dirty_writeDst (r r' : LaneRef) {d : Opnd} (hd : d.isGang = false) (ws : List Word) (m : Nat) (s : State) :
    isDirty (writeDst r d ws s) r' m = if r' = r then (inDst d ws m).isSome || isDirty s r' m else isDirty s r' m := by
  cases d <;> simp [Opnd.isGang, writeDst, inDst] at hd ⊢
  rw [dirty_setSlots]
  by_cases hr : r' = r
  · simp only [hr, true_and, if_true]
    split <;> simp
  · simp [hr]

theorem echo_writeDst (r r' : LaneRef) {d : Opnd} (hd : d.isGang = false) (ws : List Word) (k : Nat) (s : State) :
    echo (writeDst r d ws s) r' k = echo s r' k := by
  rw [writeDst_rest r hd]; rfl

/-- One lane's result delivered. -/
def deliver1 (d : Opnd) (s : State) (p : LaneRef × Res) : State := shiftEchoes p.1 p.2.e (writeDst p.1 d p.2.d s)

theorem deliver_eq (iss : Issue) (d : Opnd) (rs : List (LaneRef × Res)) (n : Nat) (s : State) :
    deliver iss d rs n s = (idleLanes s iss).foldl (fun s r => shiftEchoes r (List.replicate n 0) s) (rs.foldl (deliver1 d) s) := rfl

/-- Two states differ in the trace registers of lanes only. -/
def SameButLanes (s t : State) : Prop := ∃ a b c, t = { s with slot := a, dirty := b, echo := c }

theorem deliver1_rest {d : Opnd} (hd : d.isGang = false) (s t : State) (p : LaneRef × Res) (h : SameButLanes s t) :
    SameButLanes s (deliver1 d t p) := by
  obtain ⟨a, b, c, rfl⟩ := h
  rw [deliver1, shiftEchoes_rest, writeDst_rest _ hd]
  exact ⟨_, _, _, rfl⟩

theorem shift_rest (s t : State) (r : LaneRef) (ws : List Word) (h : SameButLanes s t) : SameButLanes s (shiftEchoes r ws t) := by
  obtain ⟨a, b, c, rfl⟩ := h
  rw [shiftEchoes_rest]
  exact ⟨_, _, _, rfl⟩

theorem foldl_same {β : Type} (step : State → β → State) (s : State) (hP : ∀ t b, SameButLanes s t → SameButLanes s (step t b)) (l : List β)
    (t : State) (h : SameButLanes s t) : SameButLanes s (l.foldl step t) := by
  induction l generalizing t with
  | nil => exact h
  | cons b l ih => exact ih _ (hP _ _ h)

theorem deliver_rest (iss : Issue) {d : Opnd} (hd : d.isGang = false) (rs : List (LaneRef × Res)) (n : Nat) (s : State) :
    SameButLanes s (deliver iss d rs n s) := by
  rw [deliver_eq]
  exact foldl_same _ _ (fun t r h => shift_rest s t r _ h) _ _
    (foldl_same _ _ (fun t p h => deliver1_rest hd s t p h) _ _ ⟨_, _, _, rfl⟩)

/-- Lane by lane, what is delivered (R31, R115, R166). -/
theorem laneResult_deliver {s : State} {iss : Issue} {d : Opnd} (hj : iss.js.Nodup) (hd : d.isGang = false) (g : LaneRef → Res) (n : Nat)
    (hl : ∀ r ∈ issueLanes s iss, (g r).e.length = n) :
    LaneResult s (deliver iss d ((issueLanes s iss).map fun r => (r, g r)) n s) iss d g := by
  have hk : ((issueLanes s iss).map fun r => (r, g r)).map Prod.fst = issueLanes s iss := by simp [Function.comp_def]
  have hkn : (((issueLanes s iss).map fun r => (r, g r)).map Prod.fst).Nodup := by rw [hk]; exact nodup_issueLanes s hj
  have hin : ((idleLanes s iss).map id).Nodup := by simpa using nodup_idleLanes s hj
  generalize hT : deliver iss d ((issueLanes s iss).map fun r => (r, g r)) n s = T
  have key : ∀ {α : Type} (obs : State → LaneRef → α) (F : LaneRef × Res → α → α) (G : α → α),
      (∀ s p, obs (deliver1 d s p) p.1 = F p (obs s p.1)) → (∀ s p r, r ≠ p.1 → obs (deliver1 d s p) r = obs s r) →
      (∀ s r, obs (shiftEchoes r (List.replicate n 0) s) r = G (obs s r)) →
      (∀ s q r, r ≠ q → obs (shiftEchoes q (List.replicate n 0) s) r = obs s r) → ∀ r,
      (r ∈ issueLanes s iss → obs T r = F (r, g r) (obs s r)) ∧ (r ∈ idleLanes s iss → obs T r = G (obs s r)) ∧
        (r ∉ issueLanes s iss → r ∉ idleLanes s iss → obs T r = obs s r) := by
    intro α obs F G h1 h2 h3 h4 r
    obtain ⟨a1, a2⟩ := foldl_lane Prod.fst (deliver1 d) obs F h1 h2 _ hkn s r
    obtain ⟨b1, b2⟩ := foldl_lane id (fun s r => shiftEchoes r (List.replicate n 0) s) obs (fun _ => G) h3 h4 _ hin
      (((issueLanes s iss).map fun r => (r, g r)).foldl (deliver1 d) s) r
    rw [hk] at a2
    rw [List.map_id] at b2
    rw [← hT, deliver_eq]
    refine ⟨fun h => ?_, fun h => ?_, fun h h' => ?_⟩
    · rw [b2 fun h' => idle_not_active h' h]
      exact a1 (r, g r) (List.mem_map.mpr ⟨r, h, rfl⟩) rfl
    · rw [b1 r h rfl, a2 (idle_not_active h)]
    · rw [b2 h', a2 h]
  have hs := key (fun s r m => slot s r m) (fun p a m => (inDst d p.2.d m).getD (a m)) id
    (fun s p => by funext m; simp only [deliver1, slot_shiftEchoes, slot_writeDst _ _ hd, if_true])
    (fun s p r hr => by funext m; simp only [deliver1, slot_shiftEchoes, slot_writeDst _ _ hd, hr, if_false])
    (fun s r => by funext m; simp only [slot_shiftEchoes, id]) (fun s q r _ => by funext m; simp only [slot_shiftEchoes])
  have hdy := key (fun s r m => isDirty s r m) (fun p a m => (inDst d p.2.d m).isSome || a m) id
    (fun s p => by funext m; simp only [deliver1, dirty_shiftEchoes, dirty_writeDst _ _ hd, if_true])
    (fun s p r hr => by funext m; simp only [deliver1, dirty_shiftEchoes, dirty_writeDst _ _ hd, hr, if_false])
    (fun s r => by funext m; simp only [dirty_shiftEchoes, id]) (fun s q r _ => by funext m; simp only [dirty_shiftEchoes])
  have after : ∀ (s t : State) (r : LaneRef) (es : List Word), (∀ j, echo s r j = echo t r j) → echoAfter s r es = echoAfter t r es := by
    intro s t r es h; funext k; simp [echoAfter, h]
  have he := key (fun s r (k : Fin 4) => echo s r k)
    (fun p a k => (p.2.e.reverse ++ [a 0, a 1, a 2, a 3]).getD k 0)
    (fun a k => ((List.replicate n 0).reverse ++ [a 0, a 1, a 2, a 3]).getD k 0)
    (fun s p => by
      funext k
      simp only [deliver1]
      rw [echo_shiftEchoes _ k.2, after _ s _ _ fun j => echo_writeDst _ _ hd _ _ _]; rfl)
    (fun s p r hr => by funext k; simp only [deliver1, echo_shiftEchoes_ne hr, echo_writeDst _ _ hd])
    (fun s r => by funext k; rw [echo_shiftEchoes _ k.2]; rfl)
    (fun s q r hr => by funext k; rw [echo_shiftEchoes_ne hr])
  have hek := key (fun s r (k : {k : Nat // 4 ≤ k}) => echo s r k) (fun _ a => a) id
    (fun s p => by funext k; simp only [deliver1, echo_shiftEchoes_ge _ _ k.2, echo_writeDst _ _ hd])
    (fun s p r hr => by funext k; simp only [deliver1, echo_shiftEchoes_ne hr, echo_writeDst _ _ hd])
    (fun s r => by funext k; simp only [echo_shiftEchoes_ge _ _ k.2, id])
    (fun s q r hr => by funext k; rw [echo_shiftEchoes_ne hr])
  obtain ⟨a, b, c, hr⟩ := deliver_rest iss hd ((issueLanes s iss).map fun r => (r, g r)) n s
  rw [hT] at hr
  refine ⟨by rw [hr], ?_, ?_, ?_, ?_, ?_⟩
  · intro r h k hk m w hw
    have hm : m < (g r).d.length := (List.getElem?_eq_some_iff.mp hw).1
    have hi : inDst d (g r).d (k.toNat + m) = some w := by
      subst hk
      have e : k.toNat + m - k.toNat = m := by omega
      simp only [inDst]
      rw [if_pos (by omega), e, List.getD_eq_getElem?_getD, hw]; rfl
    have h1 := congrFun ((hs r).1 h) (k.toNat + m)
    have h2 := congrFun ((hdy r).1 h) (k.toNat + m)
    simp only [hi] at h1 h2
    exact ⟨by rw [h1]; rfl, by rw [h2]; rfl⟩
  · intro r m hno
    by_cases h : r ∈ issueLanes s iss
    · have hi : inDst d (g r).d m = none := by
        cases d <;> simp only [inDst]
        rename_i k
        exact if_neg (hno k rfl h)
      have h1 := congrFun ((hs r).1 h) m
      have h2 := congrFun ((hdy r).1 h) m
      simp only [hi] at h1 h2
      exact ⟨h1, h2⟩
    · by_cases h' : r ∈ idleLanes s iss
      · exact ⟨congrFun ((hs r).2.1 h') m, congrFun ((hdy r).2.1 h') m⟩
      · exact ⟨congrFun ((hs r).2.2 h h') m, congrFun ((hdy r).2.2 h h') m⟩
  · intro r h k hk
    exact congrFun ((he r).1 h) ⟨k, hk⟩
  · intro r h r' h' k hk
    rw [hl r' h']
    exact congrFun ((he r).2.1 h) ⟨k, hk⟩
  · intro r h h' k
    by_cases hk : k < 4
    · exact congrFun ((he r).2.2 h h') ⟨k, hk⟩
    · exact congrFun ((hek r).2.2 h h') ⟨k, by omega⟩

/-! ### Once for an issue -/

theorem greg_setGreg (g g' : GangId) (n m : Nat) (v : Word) (s : State) :
    greg (setGreg g n v s) g' m = if g' = g ∧ m = n then v else greg s g' m := by
  show Map.get (s.greg.set _ _) _ 0 = _
  simp only [greg, Map.get_set, Ix.mk.injEq]

theorem gpoi_setGreg (g g' : GangId) (n m : Nat) (v : Word) (s : State) :
    (⟨g', m⟩ : Ix GangId) ∈ (setGreg g n v s).gpoi ↔ ¬ (g' = g ∧ m = n) ∧ (⟨g', m⟩ : Ix GangId) ∈ s.gpoi := by
  show _ ∈ s.gpoi.filter _ ↔ _
  simp [List.mem_filter, Ix.mk.injEq, and_comm]

theorem setGregs_spec (g g' : GangId) (n m : Nat) (ws : List Word) (s : State) :
    (greg (setGregs g n ws s) g' m = if g' = g ∧ n ≤ m ∧ m < n + ws.length then ws.getD (m - n) 0 else greg s g' m) ∧
    ((⟨g', m⟩ : Ix GangId) ∈ (setGregs g n ws s).gpoi ↔ ¬ (g' = g ∧ n ≤ m ∧ m < n + ws.length) ∧ (⟨g', m⟩ : Ix GangId) ∈ s.gpoi) := by
  induction ws generalizing n s with
  | nil => simp [setGregs]
  | cons w ws ih =>
    obtain ⟨h1, h2⟩ := ih (n + 1) (setGreg g n w s)
    rw [setGregs, h1, h2, greg_setGreg, gpoi_setGreg]
    by_cases hg : g' = g
    · subst hg
      by_cases e : m = n
      · subst e; simp
      · by_cases e2 : n + 1 ≤ m ∧ m < n + 1 + ws.length
        · have e3 : n ≤ m ∧ m < n + (w :: ws).length := by simp; omega
          obtain ⟨k, rfl⟩ : ∃ k, m = n + 1 + k := ⟨m - (n + 1), by omega⟩
          have e4 : n + 1 + k - n = k + 1 := by omega
          have e5 : n + 1 + k - (n + 1) = k := by omega
          simp only [true_and, e2, e3, e4, e5, if_true, and_self, not_true, false_and]
          simp
        · have e3 : ¬ (n ≤ m ∧ m < n + (w :: ws).length) := by simp; omega
          simp only [true_and, e2, e3, e, if_false, not_false_eq_true]
    · simp [hg]

theorem setGregs_rest (g : GangId) (n : Nat) (ws : List Word) (s : State) :
    ∃ a b, setGregs g n ws s = { s with greg := a, gpoi := b } := by
  induction ws generalizing n s with
  | nil => exact ⟨_, _, rfl⟩
  | cons w ws ih =>
    obtain ⟨a, b, h⟩ := ih (n + 1) (setGreg g n w s)
    exact ⟨a, b, by rw [setGregs, h]; rfl⟩

theorem foldl_shift_rest (l : List LaneRef) (ws : List Word) (s : State) :
    ∃ c, l.foldl (fun s r => shiftEchoes r ws s) s = { s with echo := c } := by
  induction l generalizing s with
  | nil => exact ⟨_, rfl⟩
  | cons r l ih =>
    obtain ⟨c, h⟩ := ih (shiftEchoes r ws s)
    exact ⟨c, by rw [List.foldl_cons, h, shiftEchoes_rest]⟩

theorem foldl_shift_ne {l : List LaneRef} {r : LaneRef} (hr : r ∉ l) (ws : List Word) (s : State) (k : Nat) :
    echo (l.foldl (fun s r => shiftEchoes r ws s) s) r k = echo s r k := by
  induction l generalizing s with
  | nil => rfl
  | cons q l ih =>
    simp only [List.mem_cons, not_or] at hr
    rw [List.foldl_cons, ih hr.2, echo_shiftEchoes_ne hr.1]

/-- Once for the issue, what is delivered (R36, R115, R166). -/
theorem uniResult_deliver {s : State} {iss : Issue} {d : Opnd} (hj : iss.js.Nodup) (x : Res) :
    UniResult s (deliverUniform iss d x s) iss d x := by
  have hin : ((wholeSlices s iss).map id).Nodup := by simpa using nodup_wholeSlices s hj
  generalize hM : (match d with
    | .gang n => setGregs iss.gang n.toNat x.d s
    | _ => s : State) = M
  have hT : deliverUniform iss d x s = (wholeSlices s iss).foldl (fun s r => shiftEchoes r x.e s) M := by
    rw [← hM]; cases d <;> rfl
  have hMr : ∃ a b, M = { s with greg := a, gpoi := b } := by
    rw [← hM]; cases d <;> first | exact ⟨_, _, rfl⟩ | exact setGregs_rest _ _ _ _
  obtain ⟨c, hc⟩ := foldl_shift_rest (wholeSlices s iss) x.e M
  obtain ⟨a, b, hab⟩ := hMr
  have egreg : ∀ g m, greg (deliverUniform iss d x s) g m = greg M g m := by intro g m; rw [hT, hc]; rfl
  have egpoi : (deliverUniform iss d x s).gpoi = M.gpoi := by rw [hT, hc]
  have eecho : ∀ r k, echo (deliverUniform iss d x s) r k =
      echo ((wholeSlices s iss).foldl (fun s r => shiftEchoes r x.e s) M) r k := by intro r k; rw [hT]
  have emecho : ∀ r k, echo M r k = echo s r k := by intro r k; rw [hab]; rfl
  refine ⟨by rw [hT, hc, hab], ?_, ?_, ?_, ?_⟩
  · rintro n rfl k w hw
    have hk : k < x.d.length := (List.getElem?_eq_some_iff.mp hw).1
    obtain ⟨h1, h2⟩ := setGregs_spec iss.gang iss.gang n.toNat (n.toNat + k) x.d s
    have hin : iss.gang = iss.gang ∧ n.toNat ≤ n.toNat + k ∧ n.toNat + k < n.toNat + x.d.length := ⟨rfl, by omega, by omega⟩
    have e : n.toNat + k - n.toNat = k := by omega
    rw [egreg, egpoi, ← hM]
    refine ⟨?_, fun h => (h2.mp h).1 hin⟩
    rw [h1, if_pos hin, e, List.getD_eq_getElem?_getD, hw]; rfl
  · intro g m hno
    rw [egreg, egpoi, ← hM]
    cases d with
    | gang n =>
      obtain ⟨h1, h2⟩ := setGregs_spec iss.gang g n.toNat m x.d s
      have h3 := hno n rfl
      exact ⟨by simp only [h1, if_neg h3], by simp only [h2, h3, not_false_eq_true, true_and]⟩
    | _ => exact ⟨rfl, Iff.rfl⟩
  · intro r hr k hk
    have := (foldl_lane id (fun s r => shiftEchoes r x.e s) (fun s r (k : Fin 4) => echo s r k)
      (fun _ a k => (x.e.reverse ++ [a 0, a 1, a 2, a 3]).getD k 0)
      (fun s r => by funext k; exact echo_shiftEchoes _ k.2 _ _)
      (fun s q r hr => by funext k; exact echo_shiftEchoes_ne hr _ _ _) _ hin M r).1 r hr rfl
    rw [eecho, congrFun this ⟨k, hk⟩]
    simp only [echoAfter, emecho]; rfl
  · intro r hr k
    rw [eecho, foldl_shift_ne hr, emecho]

/-! ### The shared meaning -/

/-- Where nothing is pending and nothing read is poisoned, a meaning runs on the issue in hand (R233, R347). -/
theorem withIssue_clear {s : State} {iss : Issue} (h : Runs s iss) {reads writes : List Nat} (hc : Clear s iss.gang reads writes)
    (f : Issue → State → State) : withIssue reads writes s f = .next (f iss s) := by
  have h1 : (issueLanes s iss).isEmpty = false := by simpa using h.active
  have h2 : ((reads ++ writes).any fun n => tokenPending s iss.gang n) = false := by
    rw [List.any_eq_false]; intro n hn; simp [hc.tokens n hn]
  have h3 : (reads.find? fun n => s.gpoi.contains ⟨iss.gang, n⟩) = none := by
    rw [List.find?_eq_none]; intro n hn; simpa using hc.poison n hn
  simp only [withIssue, h.cur, h1, h2, h3, Bool.false_eq_true, if_false]

/-- Without an active lane an issue only goes on (R46). -/
theorem withIssue_idle {s : State} {iss : Issue} (h : s.cur = some iss) (ha : issueLanes s iss = []) (reads writes : List Nat)
    (f : Issue → State → State) : withIssue reads writes s f = .next (advance iss s) := by
  simp [withIssue, h, ha]

theorem readsOf_map (srcs : List (Opnd × Size × KType)) :
    readsOf (srcs.map fun p => (p.1, p.2.1)) = gangRegs (srcs.map fun p => (p.1, p.2.1.regs)) := by
  simp [readsOf, List.map_map, Function.comp_def]

/-- The computing instructions, lane by lane. -/
theorem compute_lane {d : Opnd} (hd : d.isGang = false) (dsz : Size) (srcs : List (Opnd × Size × KType)) (f : List DWord → Res) {n : Nat}
    (hf : ∀ v, (f v).e.length = n) {s : State} {iss : Issue} (h : Runs s iss)
    (hc : Clear s iss.gang (gangRegs (srcs.map fun p => (p.1, p.2.1.regs))) (gangRegs [(d, dsz.regs)])) :
    ∃ m t, compute false d dsz srcs f s = .next t ∧ (LaneResult s m iss d fun r => f (sources s r srcs)) ∧ WentOn m t iss := by
  unfold compute
  rw [readsOf_map, withIssue_clear h hc]
  refine ⟨_, _, rfl, ?_, wentOn_advance h.nodup _⟩
  have hh : (((issueLanes s iss).map fun r => (r, f (sources s r srcs))).head?.map fun p => p.2.e.length).getD 0 = n := by
    cases hl : issueLanes s iss with
    | nil => exact absurd hl h.active
    | cons r l => simp [hf]
  have := laneResult_deliver (s := s) h.nodup hd (fun r => f (sources s r srcs)) n fun r _ => hf _
  rw [← hh] at this
  exact this

/-- The computing instructions, once for an issue. -/
theorem compute_uniform (d : Opnd) (dsz : Size) (srcs : List (Opnd × Size × KType)) (f : List DWord → Res)
    {s : State} {iss : Issue} (h : Runs s iss)
    (hc : Clear s iss.gang (gangRegs (srcs.map fun p => (p.1, p.2.1.regs))) (gangRegs [(d, dsz.regs)])) :
    ∃ m t, compute true d dsz srcs f s = .next t ∧ UniResult (uniformStart s iss d) m iss d (f (sources s (uniRef iss) srcs)) ∧
      WentOn m t iss := by
  unfold compute
  rw [readsOf_map, withIssue_clear h hc]
  exact ⟨_, _, rfl, uniResult_deliver h.nodup _, wentOn_advance h.nodup _⟩

/-- Both forms, from the instruction's meaning. -/
theorem computes_of {i : Bool → Instr} {d : Opnd} {dsz : Size} {srcs : List (Opnd × Size × KType)} {f g : List DWord → Res} {n : Nat}
    (hi : ∀ u s, exec (i u) s = compute u d dsz srcs f s) (hf : ∀ v, (f v).e.length = n) (hg : ∀ v, f v = g v) :
    Computes i d dsz srcs g := by
  obtain rfl : f = g := funext hg
  exact ⟨fun hd s iss h hc => by unfold GivesLanes; rw [hi]; exact compute_lane hd dsz srcs f hf h hc,
    fun s iss h hc => by unfold GivesUniform; rw [hi]; exact compute_uniform d dsz srcs f h hc⟩

/-- The one form of an instruction that has no uniform form, from its meaning. -/
theorem computesLanes_of {i : Instr} {d : Opnd} {dsz : Size} {srcs : List (Opnd × Size × KType)} {f g : List DWord → Res} {n : Nat}
    (hi : ∀ s, exec i s = compute false d dsz srcs f s) (hf : ∀ v, (f v).e.length = n) (hg : ∀ v, f v = g v) :
    ComputesLanes i d dsz srcs g := by
  obtain rfl : f = g := funext hg
  exact fun hd s iss h hc => by unfold GivesLanes; rw [hi]; exact compute_lane hd dsz srcs f hf h hc

/-- Both forms from a meaning of one source. -/
theorem computes1_of {i : Bool → Instr} {d : Opnd} {dsz : Size} {a : Opnd × Size × KType} {f : DWord → Res} {g : List DWord → Res} {n : Nat}
    (hi : ∀ u s, exec (i u) s = compute1 u d dsz a f s) (hf : ∀ x, (f x).e.length = n)
    (hg : ∀ v, f (arg v 0) = g v) : Computes i d dsz [a] g :=
  computes_of (f := fun l => f (l.getD 0 0)) hi (fun _ => hf _) hg

/-- Both forms from a meaning of two sources. -/
theorem computes2_of {i : Bool → Instr} {d : Opnd} {dsz : Size} {a b : Opnd × Size × KType} {f : DWord → DWord → Res} {g : List DWord → Res} {n : Nat}
    (hi : ∀ u s, exec (i u) s = compute2 u d dsz a b f s) (hf : ∀ x y, (f x y).e.length = n)
    (hg : ∀ v, f (arg v 0) (arg v 1) = g v) : Computes i d dsz [a, b] g :=
  computes_of (f := fun l => f (l.getD 0 0) (l.getD 1 0)) hi (fun _ => hf _ _) hg

/-- Both forms from a meaning of three sources. -/
theorem computes3_of {i : Bool → Instr} {d : Opnd} {dsz : Size} {a b c : Opnd × Size × KType} {f : DWord → DWord → DWord → Res} {g : List DWord → Res} {n : Nat}
    (hi : ∀ u s, exec (i u) s = compute3 u d dsz a b c f s) (hf : ∀ x y z, (f x y z).e.length = n)
    (hg : ∀ v, f (arg v 0) (arg v 1) (arg v 2) = g v) : Computes i d dsz [a, b, c] g :=
  computes_of (f := fun l => f (l.getD 0 0) (l.getD 1 0) (l.getD 2 0)) hi (fun _ => hf _ _ _) hg

/-- The one form from a meaning of one source. -/
theorem computesLanes1_of {i : Instr} {d : Opnd} {dsz : Size} {a : Opnd × Size × KType} {f : DWord → Res} {g : List DWord → Res} {n : Nat}
    (hi : ∀ s, exec i s = compute1 false d dsz a f s) (hf : ∀ x, (f x).e.length = n)
    (hg : ∀ v, f (arg v 0) = g v) : ComputesLanes i d dsz [a] g :=
  computesLanes_of (f := fun l => f (l.getD 0 0)) hi (fun _ => hf _) hg

/-- The one form from a meaning of two sources. -/
theorem computesLanes2_of {i : Instr} {d : Opnd} {dsz : Size} {a b : Opnd × Size × KType} {f : DWord → DWord → Res} {g : List DWord → Res} {n : Nat}
    (hi : ∀ s, exec i s = compute2 false d dsz a b f s) (hf : ∀ x y, (f x y).e.length = n)
    (hg : ∀ v, f (arg v 0) (arg v 1) = g v) : ComputesLanes i d dsz [a, b] g :=
  computesLanes_of (f := fun l => f (l.getD 0 0) (l.getD 1 0)) hi (fun _ => hf _ _) hg

/-- The one form from a meaning of three sources. -/
theorem computesLanes3_of {i : Instr} {d : Opnd} {dsz : Size} {a b c : Opnd × Size × KType} {f : DWord → DWord → DWord → Res} {g : List DWord → Res} {n : Nat}
    (hi : ∀ s, exec i s = compute3 false d dsz a b c f s) (hf : ∀ x y z, (f x y z).e.length = n)
    (hg : ∀ v, f (arg v 0) (arg v 1) (arg v 2) = g v) : ComputesLanes i d dsz [a, b, c] g :=
  computesLanes_of (f := fun l => f (l.getD 0 0) (l.getD 1 0) (l.getD 2 0)) hi (fun _ => hf _ _ _) hg

end Sys2Proof.Machine
end

