-- ==== Sys2Proof/Laws/Commit.lean ====
section
/-! SUPPORT. What a memory commit changes, and what it keeps. -/

namespace Sys2Proof.Machine

/-- Two states differ in what the memory commit of lanes may change only. -/
def CommitFrame (s t : State) : Prop :=
  ∃ mon buf scr scrpoi opbuf oppoi launches units hstage dieCtr msix wq,
    t = { s with mon := mon, buf := buf, scr := scr, scrpoi := scrpoi, opbuf := opbuf, oppoi := oppoi, launches := launches,
                 units := units, hstage := hstage, dieCtr := dieCtr, msix := msix, wq := wq }

namespace CommitFrame

theorem refl (s : State) : CommitFrame s s := ⟨_, _, _, _, _, _, _, _, _, _, _, _, rfl⟩

theorem trans {s t r : State} (h : CommitFrame s t) (h' : CommitFrame t r) : CommitFrame s r := by
  obtain ⟨_, _, _, _, _, _, _, _, _, _, _, _, rfl⟩ := h
  obtain ⟨_, _, _, _, _, _, _, _, _, _, _, _, rfl⟩ := h'
  exact ⟨_, _, _, _, _, _, _, _, _, _, _, _, rfl⟩

theorem foldl {β : Type} (step : State → β → State) (h : ∀ s b, CommitFrame s (step s b)) (l : List β) (s : State) :
    CommitFrame s (l.foldl step s) := by
  induction l generalizing s with
  | nil => exact refl s
  | cons b l ih => exact (h s b).trans (ih _)

theorem modUnit (u : Nat) (f : UnitSt → UnitSt) (s : State) : CommitFrame s (modUnit u f s) :=
  ⟨_, _, _, _, _, _, _, _, _, _, _, _, rfl⟩

theorem countDie (d e c n : Nat) (s : State) : CommitFrame s (countDie d e c n s) := by
  unfold Machine.countDie
  split
  · exact ⟨_, _, _, _, _, _, _, _, _, _, _, _, rfl⟩
  · exact ⟨_, _, _, _, _, _, _, _, _, _, _, _, rfl⟩

theorem stageEntry (r : LaneRef) (e : Staged) (s : State) : CommitFrame s (stageEntry r e s) := by
  unfold Machine.stageEntry
  have h := countDie (dieOf (unitOf s r.u).core) 6 (unitOf s r.u).ctx 1 s
  simp only
  split
  · split
    · exact h
    · exact h.trans ⟨_, _, _, _, _, _, _, _, _, _, _, _, rfl⟩
  · exact h.trans (modUnit _ _ _)

theorem writeScratch (u off : Nat) (bs : List Byte) (s : State) : CommitFrame s (writeScratch u off bs s) :=
  ⟨_, _, _, _, _, _, _, _, _, _, _, _, rfl⟩

theorem writeOpbuf (c off : Nat) (bs : List Byte) (s : State) : CommitFrame s (writeOpbuf c off bs s) :=
  ⟨_, _, _, _, _, _, _, _, _, _, _, _, rfl⟩

theorem touchLines (u : Nat) (pas : List Nat) (s : State) : CommitFrame s (touchLines u pas s) := by
  unfold Machine.touchLines
  split
  · exact refl _
  · exact ⟨_, _, _, _, _, _, _, _, _, _, _, _, rfl⟩

theorem enqueue (e : WEntry) (s : State) : CommitFrame s (enqueue e s) := by
  unfold Machine.enqueue
  split
  · exact refl _
  · exact ⟨_, _, _, _, _, _, _, _, _, _, _, _, rfl⟩

theorem commitLane (r : LaneRef) (s : State) : CommitFrame s (commitLane r s) := by
  unfold Machine.commitLane
  simp only
  refine (trans ?_ (enqueue _ _)).trans (enqueue _ _)
  have h1 : CommitFrame s ((s.buf.get r []).foldl (fun s' b => match b.sp with
      | .sc => Machine.writeScratch r.u b.addr b.bytes s'
      | .ob => Machine.writeOpbuf (clusterOf (unitOf s r.u).core) b.addr b.bytes s'
      | _ => s') { s with buf := s.buf.erase r }) := by
    refine trans (t := { s with buf := s.buf.erase r }) ⟨_, _, _, _, _, _, _, _, _, _, _, _, rfl⟩ (foldl _ (fun s' b => ?_) _ _)
    split
    · exact writeScratch _ _ _ _
    · exact writeOpbuf _ _ _ _
    · exact refl _
  have h2 : ∀ bs : List Buf, CommitFrame s (bs.foldl (fun s b => Machine.touchLines r.u b.det s) _) :=
    fun bs => h1.trans (foldl _ (fun s b => touchLines _ _ _) bs _)
  split <;> split <;> first | exact h1 | exact h2 _ | exact h1.trans (stageEntry _ _ _) | exact (h2 _).trans (stageEntry _ _ _)

theorem lanes (l : List LaneRef) (s : State) : CommitFrame s (l.foldl (fun s r => Machine.commitLane r s) s) :=
  foldl _ (fun s r => commitLane r s) l s

theorem commit (iss : Issue) (s : State) : CommitFrame { s with thr := (commit iss s).thr } (commit iss s) := by
  unfold Machine.commit
  split
  · exact refl _
  · obtain ⟨_, _, _, _, _, _, _, _, _, _, _, _, h⟩ := lanes (issueLanes s iss) s
    rw [h, modThreads_rest]
    exact ⟨_, _, _, _, _, _, _, _, _, _, _, _, rfl⟩

end CommitFrame

/-- A commit marks the threads of the issue as committed, and changes no thread otherwise. -/
theorem threadOf_commit {iss : Issue} (h : iss.js.Nodup) (s : State) (x : ThreadId) :
    threadOf (commit iss s) x = if (headThread s iss).committed = false ∧ x ∈ iss.threads then { threadOf s x with committed := true }
      else threadOf s x := by
  unfold commit
  split
  · rename_i hc; simp [hc]
  · rename_i hc
    obtain ⟨_, _, _, _, _, _, _, _, _, _, _, _, hl⟩ := CommitFrame.lanes (issueLanes s iss) s
    rw [threadOf_modThreads h, hl]
    simp [hc, threadOf]

theorem mask_commit {iss : Issue} (h : iss.js.Nodup) (s : State) (x : ThreadId) :
    (threadOf (commit iss s) x).mask = (threadOf s x).mask := by
  rw [threadOf_commit h]; split <;> rfl

theorem issueLanes_commit {iss : Issue} (h : iss.js.Nodup) (s : State) : issueLanes (commit iss s) iss = issueLanes s iss := by
  unfold issueLanes; simp only [mask_commit h]

/-- What a commit keeps, field by field. -/
theorem commit_keeps {α : Type} (f : State → α) (hf : ∀ s : State, ∀ thr mon buf scr scrpoi opbuf oppoi launches units hstage dieCtr msix wq,
    f { s with thr := thr, mon := mon, buf := buf, scr := scr, scrpoi := scrpoi, opbuf := opbuf, oppoi := oppoi, launches := launches,
               units := units, hstage := hstage, dieCtr := dieCtr, msix := msix, wq := wq } = f s) (iss : Issue) (s : State) :
    f (commit iss s) = f s := by
  obtain ⟨_, _, _, _, _, _, _, _, _, _, _, _, h⟩ := CommitFrame.commit iss s
  rw [h]; exact hf s _ _ _ _ _ _ _ _ _ _ _ _ _

/-! ### Units -/

/-- Units differ in the Sluice's entries only. -/
def UnitsBut (s t : State) : Prop := ∀ u, unitOf t u = { unitOf s u with staged := (unitOf t u).staged }

theorem UnitsBut.refl (s : State) : UnitsBut s s := fun _ => rfl
theorem UnitsBut.trans {s t r : State} (h : UnitsBut s t) (h' : UnitsBut t r) : UnitsBut s r := fun u => by rw [h' u, h u]
theorem UnitsBut.of_eq {s t : State} (h : t.units = s.units) : UnitsBut s t := fun u => by unfold unitOf; rw [h]

theorem unitsBut_foldl {β : Type} (step : State → β → State) (h : ∀ s b, UnitsBut s (step s b)) (l : List β) (s : State) :
    UnitsBut s (l.foldl step s) := by
  induction l generalizing s with
  | nil => exact .refl s
  | cons b l ih => exact (h s b).trans (ih _)

theorem countDie_units (d e c n : Nat) (s : State) : (countDie d e c n s).units = s.units := by
  unfold countDie; simp only; split <;> rfl

theorem unitsBut_modStaged (v : Nat) (f : List ((Nat × Nat × Nat) × Staged) → List ((Nat × Nat × Nat) × Staged)) (s : State) :
    UnitsBut s (modUnit v (fun x => { x with staged := f x.staged }) s) := fun u => by
  unfold unitOf modUnit
  by_cases h : u = v
  · subst h; simp
  · simp [Map.get_modify_ne _ _ _ h]

theorem unitsBut_stageEntry (r : LaneRef) (e : Staged) (s : State) : UnitsBut s (stageEntry r e s) := by
  unfold stageEntry
  have h : UnitsBut s (countDie (dieOf (unitOf s r.u).core) 6 (unitOf s r.u).ctx 1 s) := .of_eq (countDie_units ..)
  simp only
  split
  · split
    · exact h
    · exact h.trans (.of_eq rfl)
  · exact h.trans (unitsBut_modStaged r.u (insertStaged (placeOf (countDie (dieOf (unitOf s r.u).core) 6 (unitOf s r.u).ctx 1 s) ⟨r.u, r.g, r.l / 4⟩) [e]) _)

theorem unitsBut_touchLines (u : Nat) (pas : List Nat) (s : State) : UnitsBut s (touchLines u pas s) := by
  unfold touchLines
  split
  · exact .refl s
  · exact .of_eq rfl

theorem unitsBut_enqueue (e : WEntry) (s : State) : UnitsBut s (enqueue e s) := by
  unfold enqueue
  split
  · exact .refl s
  · exact .of_eq rfl

theorem unitsBut_commitLane (r : LaneRef) (s : State) : UnitsBut s (commitLane r s) := by
  unfold commitLane
  simp only
  refine (UnitsBut.trans ?_ (unitsBut_enqueue _ _)).trans (unitsBut_enqueue _ _)
  have h1 : UnitsBut s ((s.buf.get r []).foldl (fun s' b => match b.sp with
      | .sc => writeScratch r.u b.addr b.bytes s'
      | .ob => writeOpbuf (clusterOf (unitOf s r.u).core) b.addr b.bytes s'
      | _ => s') { s with buf := s.buf.erase r }) := by
    refine UnitsBut.trans (t := { s with buf := s.buf.erase r }) (.of_eq rfl) (unitsBut_foldl _ (fun s' b => ?_) _ _)
    split <;> exact .of_eq rfl
  have h2 : ∀ bs : List Buf, UnitsBut s (bs.foldl (fun s b => touchLines r.u b.det s) _) :=
    fun bs => h1.trans (unitsBut_foldl _ (fun s b => unitsBut_touchLines _ _ _) bs _)
  split <;> split <;> first | exact h1 | exact h2 _ | exact h1.trans (unitsBut_stageEntry _ _ _) | exact (h2 _).trans (unitsBut_stageEntry _ _ _)

/-- A commit changes units in the Sluice's entries only (R36, R92). -/
theorem unitOf_commit (iss : Issue) (s : State) : UnitsBut s (commit iss s) := by
  unfold commit
  split
  · exact .refl s
  · have h := unitsBut_foldl (fun s r => commitLane r s) (fun s r => unitsBut_commitLane r s) (issueLanes s iss) s
    rw [modThreads_rest]
    exact h.trans (.of_eq rfl)

theorem core_commit (iss : Issue) (s : State) (u : Nat) : (unitOf (commit iss s) u).core = (unitOf s u).core := by rw [unitOf_commit iss s u]
theorem ctx_commit (iss : Issue) (s : State) (u : Nat) : (unitOf (commit iss s) u).ctx = (unitOf s u).ctx := by rw [unitOf_commit iss s u]
theorem bindOf_commit (iss : Issue) (s : State) (u g : Nat) : bindOf (commit iss s) u g = bindOf s u g := by
  unfold bindOf; rw [unitOf_commit iss s u]
theorem isDet_commit (iss : Issue) (s : State) (u : Nat) : isDet (commit iss s) u = isDet s u := by unfold isDet; rw [bindOf_commit]
theorem status_commit (iss : Issue) (s : State) (u : Nat) : (unitOf (commit iss s) u).status = (unitOf s u).status := by
  rw [unitOf_commit iss s u]

end Sys2Proof.Machine
end

