-- ==== Sys2Proof/Laws/Memory.lean ====
section
/-! SUPPORT. Loads and stores as a whole: every lane's element, where each is in reach. -/

namespace Sys2Proof.Machine

/-- A meaning that ends by delivering results and going on gives lanes their results. -/
theorem givesLanes_of {i : Instr} {s s1 : State} {iss : Issue} {d : Opnd} {f : LaneRef → Res} {n : Nat} (hj : iss.js.Nodup)
    (hd : d.isGang = false) (hl : ∀ r ∈ issueLanes s1 iss, (f r).e.length = n)
    (h : exec i s = .next (advance iss (deliver iss d ((issueLanes s1 iss).map fun r => (r, f r)) n s1))) : GivesLanes i s s1 iss d f :=
  ⟨_, _, h, laneResult_deliver hj hd f n hl, wentOn_advance hj _⟩

/-- A meaning that ends by delivering one result and going on gives the issue its result. -/
theorem givesUniform_of {i : Instr} {s s1 : State} {iss : Issue} {d : Opnd} {x : Res} (hj : iss.js.Nodup)
    (h : exec i s = .next (advance iss (deliverUniform iss d x s1))) : GivesUniform i s s1 iss d x :=
  ⟨_, _, h, uniResult_deliver hj x, wentOn_advance hj _⟩

theorem looks_issueLanes {s t : State} (h : Looks s t) (iss : Issue) : issueLanes t iss = issueLanes s iss :=
  h.keeps (fun s => issueLanes s iss) fun _ _ _ _ _ _ _ _ _ => rfl

theorem issueLanes_unit {s : State} {iss : Issue} {r : LaneRef} (h : r ∈ issueLanes s iss) : r.u = iss.u ∧ r.g = iss.g ∧ r.h = iss.h := by
  simp only [issueLanes, Issue.threads, List.mem_flatMap, List.mem_map] at h
  obtain ⟨_, ⟨j, -, rfl⟩, hr⟩ := h
  have := refsOf_thread hr
  simp only [LaneRef.thread, ThreadId.mk.injEq] at this
  exact ⟨this.1, this.2.1, this.2.2.2⟩

/-! ### Loads -/

theorem loadWords_length (w : Width) (bs : List Byte) : (loadWords w.bytes bs).length = w.size.regs := by cases w <;> rfl

theorem load_fold {s : State} {iss : Issue} {sp : Space} {w : Width} {hint : Hint} {off : BitVec 24} {a : Opnd} {i : Option Opnd} {wa : Nat}
    (l : List LaneRef) : ∀ (acc : List (LaneRef × Res)) (t : State), (∀ r ∈ l, r.u = iss.u) →
    (∀ r ∈ l, Loadable s r sp (elemAt s sp w off a i r) w.bytes) → Looks s t → Plain t iss.u →
    ∃ t', l.foldl (fun (acc : List (LaneRef × Res) × State) (r : LaneRef) =>
      match loadElem r sp (eaOf acc.2 r sp a off (idxOf acc.2 r i) w.bytes) w.bytes (hint == .sm) wa acc.2 with
      | (.ok bs, s1) => (acc.1 ++ [(r, ⟨loadWords w.bytes bs, loadWords w.bytes bs⟩)], s1)
      | (.error f, s1) => (acc.1 ++ [(r, ⟨loadWords w.bytes (List.replicate w.bytes 0), loadWords w.bytes (List.replicate w.bytes 0)⟩)],
          holdFault r f s1)) (acc, t) =
      (acc ++ l.map fun r => (r, (⟨loadWords w.bytes (seenBytes s r sp (elemAt s sp w off a i r) w.bytes),
        loadWords w.bytes (seenBytes s r sp (elemAt s sp w off a i r) w.bytes)⟩ : Res)), t') ∧ Looks s t' ∧ Plain t' iss.u := by
  induction l with
  | nil => intro acc t _ _ h hp; exact ⟨t, by simp, h, hp⟩
  | cons r l ih =>
    intro acc t hu hl h hp
    have he : eaOf t r sp a off (idxOf t r i) w.bytes = elemAt s sp w off a i r := by rw [looks_eaOf h, looks_idxOf h]; rfl
    have hr : r.u = iss.u := hu r (by simp)
    obtain ⟨t1, e, l1, a1, b1⟩ := loadElem_spec (wa := wa) (stream := hint == .sm) (hr ▸ hp) (looks_loadable h (hl r (by simp)))
    obtain ⟨t2, e2, l2, p2⟩ := ih (acc ++ [(r, ⟨loadWords w.bytes (seenBytes s r sp (elemAt s sp w off a i r) w.bytes),
        loadWords w.bytes (seenBytes s r sp (elemAt s sp w off a i r) w.bytes)⟩)]) t1 (fun q hq => hu q (by simp [hq]))
      (fun q hq => hl q (by simp [hq])) (h.trans l1) (looks_plain l1 hp a1 (hr ▸ b1))
    refine ⟨t2, ?_, l2, p2⟩
    rw [List.foldl_cons]
    simp only [he, e, looks_seenBytes h]
    rw [e2]; simp

/-- Every load whose elements are in reach gives each lane the words of its element (R216). -/
theorem loadAll_spec {ins : Instr} {sp : Space} {w : Width} {hint : Hint} {off : BitVec 24} {d a : Opnd} {i : Option Opnd} {s : State}
    {iss : Issue} (hx : exec ins s = loadAll sp w hint off d a i s) (h : Runs s iss) (hc : Clear s iss.gang (addrReads sp a i) [])
    (hd : d.isGang = false) (hp : Plain s iss.u) (hl : ∀ r ∈ issueLanes s iss, Loadable s r sp (elemAt s sp w off a i r) w.bytes) :
    ∃ s1, Looks s s1 ∧ GivesLanes ins s s1 iss d fun r => ⟨loadWords w.bytes (seenBytes s r sp (elemAt s sp w off a i r) w.bytes),
      loadWords w.bytes (seenBytes s r sp (elemAt s sp w off a i r) w.bytes)⟩ := by
  obtain ⟨t, e, l, -⟩ := load_fold (hint := hint) (wa := wordAddr (headThread s iss)) (issueLanes s iss) [] s
    (fun r hr => (issueLanes_unit hr).1) hl (.refl s) hp
  refine ⟨t, l, givesLanes_of (n := w.size.regs) h.nodup hd (fun r _ => loadWords_length w _) ?_⟩
  rw [hx, loadAll, withIssue_clear h hc]
  rw [looks_issueLanes l]
  exact congrArg (fun p : List (LaneRef × Res) × State => Host.Outcome.next (advance iss (deliver iss d p.1 w.size.regs p.2))) e

/-! ### Stores -/

theorem storeElem_spec {s : State} {r : LaneRef} {sp : Space} {ea : Int} {bytes : List Byte} {wa core : Nat} (ha : TlbsAgree s)
    (h1 : L1Agrees s core) (hr : InReach s r sp ea bytes.length true) :
    ∃ t b, storeElem r sp ea bytes wa s = { t with buf := t.buf.set r b } ∧ Stored s r sp ea bytes b ∧ Looks s t ∧ TlbsAgree t ∧
      L1Agrees t core := by
  obtain ⟨a, t, e, p, l, ha', hb'⟩ := checkElem_spec (wa := wa) (settled := false) ha h1 hr
  have e' : checkElem r sp ea bytes.length .write false wa s = (.ok a, t) := e
  have hbuf : t.buf.get r [] = s.buf.get r [] := by rw [l.keeps (·.buf) fun _ _ _ _ _ _ _ _ _ => rfl]
  simp only [storeElem, e']
  rcases placed_space p with ⟨rfl, rfl⟩ | ⟨rfl, rfl⟩ | ⟨hc, hh, rfl, hpas, -⟩
  · refine ⟨t, _, rfl, ⟨_, by rw [hbuf], rfl, rfl, ?_⟩, l, ha', hb'⟩
    simp [Space.cached]
  · refine ⟨t, _, rfl, ⟨_, by rw [hbuf], rfl, rfl, ?_⟩, l, ha', hb'⟩
    simp [Space.cached]
  · refine ⟨t, _, rfl, ⟨_, by rw [hbuf], rfl, rfl, ?_⟩, l, ha', hb'⟩
    rw [if_pos hc]
    refine ⟨rfl, hpas.trans ?_⟩
    simp only [keyOf, hc, if_true]

theorem store_fold {s : State} {sp : Space} {w : Width} {off : BitVec 24} {x a : Opnd} {i : Option Opnd} {wa core : Nat}
    (l : List LaneRef) : ∀ t : State, l.Nodup → (∀ r ∈ l, InReach s r sp (elemAt s sp w off a i r)
        (storeBytes w.bytes (srcWords s r w.size x)).length true) → (∃ t', Looks s t' ∧ t = { t' with buf := t.buf }) →
    TlbsAgree t → L1Agrees t core → (∀ r ∈ l, t.buf.get r [] = s.buf.get r []) →
    ∃ T, l.foldl (fun s r => storeElem r sp (eaOf s r sp a off (idxOf s r i) w.bytes) (storeBytes w.bytes (srcWords s r w.size x)) wa s) t = T ∧
      (∃ t', Looks s t' ∧ T = { t' with buf := T.buf }) ∧
      (∀ r ∈ l, Stored s r sp (elemAt s sp w off a i r) (storeBytes w.bytes (srcWords s r w.size x)) (T.buf.get r [])) ∧
      (∀ r ∉ l, T.buf.get r [] = t.buf.get r []) ∧ TlbsAgree T ∧ L1Agrees T core := by
  induction l with
  | nil => intro t _ _ h ha hb _; exact ⟨t, rfl, h, by simp, by simp, ha, hb⟩
  | cons r l ih =>
    intro t hn hr h ha hb hbuf
    obtain ⟨t', hl, ht⟩ := h
    have hctx : ∀ (b : State) (c : Map LaneRef (List Buf)), TlbsAgree { b with buf := c } ↔ TlbsAgree b := fun b c => by
      have : ∀ ctx va, walk { b with buf := c } ctx va = walk b ctx va := fun ctx va => walk_congr rfl rfl ctx va
      refine ⟨fun h => ⟨fun e he va h1 h2 => ?_, fun p hp => ?_⟩, fun h => ⟨fun e he va h1 h2 => ?_, fun p hp => ?_⟩⟩
      · rw [← this]; exact h.entries e he va h1 h2
      · rw [← this]; exact h.made p hp
      · rw [this]; exact h.entries e he va h1 h2
      · rw [this]; exact h.made p hp
    have hctx2 : ∀ (b : State) (c : Map LaneRef (List Buf)), L1Agrees { b with buf := c } core ↔ L1Agrees b core := fun b c => Iff.rfl
    have ea : eaOf t r sp a off (idxOf t r i) w.bytes = elemAt s sp w off a i r := by
      have : eaOf t r sp a off (idxOf t r i) w.bytes = eaOf t' r sp a off (idxOf t' r i) w.bytes := by rw [ht]; rfl
      rw [this, looks_eaOf hl, looks_idxOf hl]; rfl
    have eb : srcWords t r w.size x = srcWords s r w.size x := by
      have : srcWords t r w.size x = srcWords t' r w.size x := by rw [ht]; rfl
      rw [this]; exact hl.keeps (fun s => srcWords s r w.size x) fun _ _ _ _ _ _ _ _ _ => rfl
    have hin : InReach t r sp (elemAt s sp w off a i r) (storeBytes w.bytes (srcWords s r w.size x)).length true := by
      have h1 := looks_inReach hl (hr r (by simp))
      rw [ht]
      refine ⟨h1.1, ?_⟩
      have h2 := h1.2
      cases sp
      · intro k hk
        have := h2 k hk
        unfold MayReach at this ⊢
        have hw : ∀ ctx va, walk { t' with buf := t.buf } ctx va = walk t' ctx va := fun ctx va => walk_congr rfl rfl ctx va
        rw [hw]; exact this
      · exact h2
      · refine ⟨h2.1, h2.2.1, fun k hk => ?_⟩
        have := h2.2.2 k hk
        unfold MayReach at this ⊢
        have hw : ∀ ctx va, walk { t' with buf := t.buf } ctx va = walk t' ctx va := fun ctx va => walk_congr rfl rfl ctx va
        rw [hw]; exact this
      · exact h2
    obtain ⟨t1, b, e1, s1, l1, a1, b1⟩ := storeElem_spec (wa := wa) ha hb hin
    have hst : Stored s r sp (elemAt s sp w off a i r) (storeBytes w.bytes (srcWords s r w.size x)) b := by
      obtain ⟨b0, q1, q2, q3, q4⟩ := s1
      refine ⟨b0, by rw [q1, hbuf r (by simp)], q2, q3, ?_⟩
      have hpa : ∀ va, paOf t (unitOf t r.u).ctx va = paOf s (unitOf s r.u).ctx va := fun va => by
        have h1 : paOf t (unitOf t r.u).ctx va = paOf t' (unitOf t' r.u).ctx va := by
          have hw : ∀ ctx va, walk { t' with buf := t.buf } ctx va = walk t' ctx va := fun ctx va => walk_congr rfl rfl ctx va
          rw [ht]; simp only [paOf, hw]; rfl
        rw [h1, looks_paOf hl, looks_unitOf hl]
      simpa only [hpa] using q4
    have hT : ∃ t'', Looks s t'' ∧ ({ t1 with buf := t1.buf.set r b } : State) = { t'' with buf := t1.buf.set r b } := by
      obtain ⟨x1, x2, x3, x4, x5, x6, x7, x8, hx⟩ := looks_iff.mp l1
      refine ⟨{ t' with tlbCore := x1, tlbCluster := x2, l1 := x3, coreCtr := x4, msix := x5, free := x6, pgs := x7, secs := x8 },
        hl.trans (looks_iff.mpr ⟨_, _, _, _, _, _, _, _, rfl⟩), ?_⟩
      rw [hx, ht]
    have hbuf1 : t1.buf = t.buf := l1.keeps (·.buf) fun _ _ _ _ _ _ _ _ _ => rfl
    obtain ⟨T, f1, f2, f3, f4, f5, f6⟩ := ih { t1 with buf := t1.buf.set r b } (List.nodup_cons.mp hn).2 (fun q hq => hr q (by simp [hq])) hT
      ((hctx _ _).mpr a1) ((hctx2 _ _).mpr b1) (fun q hq => by
        have hne : q ≠ r := fun e => (List.nodup_cons.mp hn).1 (e ▸ hq)
        simp only [Map.get_set_ne _ _ _ hne, hbuf1]
        exact hbuf q (by simp [hq]))
    refine ⟨T, ?_, f2, fun q hq => ?_, fun q hq => ?_, f5, f6⟩
    · rw [List.foldl_cons]; simp only [ea, eb, e1]; exact f1
    · rcases List.mem_cons.mp hq with rfl | hq
      · rw [f4 q (List.nodup_cons.mp hn).1]; simp only [Map.get_set_self]; exact hst
      · exact f3 q hq
    · have hq' : q ≠ r ∧ q ∉ l := by simpa using hq
      rw [f4 q hq'.2]; simp only [Map.get_set_ne _ _ _ hq'.1, hbuf1]

/-- Every store whose elements are in reach buffers each lane's bytes (R38, R216). -/
theorem storeAll_spec {ins : Instr} {sp : Space} {w : Width} {off : BitVec 24} {x a : Opnd} {i : Option Opnd} {s : State} {iss : Issue}
    (hx : exec ins s = storeAll sp w off x a i s) (h : Runs s iss)
    (hc : Clear s iss.gang (addrReads sp a i ++ gangRegs [(x, w.size.regs)]) []) (hp : Plain s iss.u)
    (hr : ∀ r ∈ issueLanes s iss, InReach s r sp (elemAt s sp w off a i r) (storeBytes w.bytes (srcWords s r w.size x)).length true) :
    ∃ m t, exec ins s = .next t ∧ WentOn m t iss ∧ (∃ t', Looks s t' ∧ m = { t' with buf := m.buf }) ∧
      (∀ r ∈ issueLanes s iss, Stored s r sp (elemAt s sp w off a i r) (storeBytes w.bytes (srcWords s r w.size x)) (m.buf.get r [])) ∧
      ∀ r ∉ issueLanes s iss, m.buf.get r [] = s.buf.get r [] := by
  obtain ⟨T, e, f1, f2, f3, -, -⟩ := store_fold (wa := wordAddr (headThread s iss)) (issueLanes s iss) s (nodup_issueLanes s h.nodup) hr
    ⟨s, .refl s, rfl⟩ hp.tlbs hp.l1 fun _ _ => rfl
  refine ⟨T, _, ?_, wentOn_advance h.nodup _, f1, f2, f3⟩
  rw [hx, storeAll, withIssue_clear h hc, ← e]

end Sys2Proof.Machine
end

