-- ==== Sys2Proof/Laws/Rmw.lean ====
section
/-! SUPPORT. Committed writes, home memory and a core's own view of it, and one read-modify-write (R36, R80, R81, R88, R222). -/

namespace Sys2Proof.Machine

/-! ### Cells over a byte -/

/-- A byte at an address under cells, the last first. -/
def under (cells : List Host.Cell) (p : Nat) (b : Byte) : Byte := cells.foldl (fun b c => if c.1 = p then c.2 else b) b

theorem under_none {cells : List Host.Cell} {p : Nat} (h : ∀ c ∈ cells, c.1 ≠ p) (b : Byte) : under cells p b = b := by
  unfold under
  induction cells generalizing b with
  | nil => rfl
  | cons c cs ih => rw [List.foldl_cons, if_neg (h c (by simp)), ih fun x hx => h x (by simp [hx])]

theorem under_some {cells : List Host.Cell} {p : Nat} (h : ∃ c ∈ cells, c.1 = p) (b b' : Byte) : under cells p b = under cells p b' := by
  unfold under
  induction cells generalizing b b' with
  | nil => simp at h
  | cons c cs ih =>
    rw [List.foldl_cons, List.foldl_cons]
    by_cases hc : c.1 = p
    · rw [if_pos hc, if_pos hc]
    · obtain ⟨x, hx, hp⟩ := h
      rcases List.mem_cons.mp hx with rfl | hx
      · exact absurd hp hc
      · exact ih ⟨x, hx, hp⟩ _ _

theorem read_writeAll_under (m : Memory) (cells : List Host.Cell) (p : Nat) : (m.writeAll cells).read p = under cells p (m.read p) := by
  induction cells generalizing m with
  | nil => rfl
  | cons c cs ih =>
    obtain ⟨a, v⟩ := c
    show ((m.write a v).writeAll cs).read p = under cs p (if a = p then v else m.read p)
    rw [ih, Memory.read_write]
    by_cases h : p = a
    · rw [if_pos h, if_pos h.symm]
    · rw [if_neg h, if_neg fun e => h e.symm]

/-- A byte of consecutive cells. -/
theorem under_zip {ks : List Nat} {bs : List Byte} (hn : ks.Nodup) (hl : bs.length = ks.length) (p : Nat) (b : Byte) :
    under (ks.zip bs) p b = match ks.idxOf? p with
      | some i => bs.getD i 0
      | none => b := by
  induction ks generalizing bs b with
  | nil => simp [under]
  | cons k ks ih =>
    obtain ⟨n1, n2⟩ := List.nodup_cons.mp hn
    obtain ⟨x, bs, rfl⟩ : ∃ x bs', bs = x :: bs' := by cases bs with
      | nil => simp at hl
      | cons x bs => exact ⟨x, bs, rfl⟩
    have hl' : bs.length = ks.length := by simpa using hl
    have e : under ((k :: ks).zip (x :: bs)) p b = under (ks.zip bs) p (if k = p then x else b) := rfl
    rw [e, ih n2 hl']
    by_cases hk : k = p
    · subst hk
      have : ks.idxOf? k = none := by simpa [List.idxOf?_eq_none_iff] using n1
      rw [this, if_pos rfl]
      simp [List.idxOf?_cons]
    · rw [if_neg hk]
      have : (k :: ks).idxOf? p = (ks.idxOf? p).map (· + 1) := by simp [List.idxOf?_cons, hk]
      rw [this]
      cases ks.idxOf? p <;> simp

theorem overlay_nil (core p : Nat) (b : Byte) : overlay [] core p b = b := rfl
theorem overlay_cons (e : WEntry) (es : List WEntry) (core p : Nat) (b : Byte) :
    overlay (e :: es) core p b = overlay es core p (if e.core = core then under e.cells p b else b) := rfl
theorem overlay_append (xs ys : List WEntry) (core p : Nat) (b : Byte) : overlay (xs ++ ys) core p b = overlay ys core p (overlay xs core p b) := by
  simp [overlay, List.foldl_append]

theorem overlay_none {es : List WEntry} {core p : Nat} (h : ∀ e ∈ es, e.core = core → ∀ c ∈ e.cells, c.1 ≠ p) (b : Byte) :
    overlay es core p b = b := by
  induction es generalizing b with
  | nil => rfl
  | cons e es ih =>
    rw [overlay_cons, ih fun x hx => h x (by simp [hx])]
    split
    · exact under_none (h e (by simp) ‹_›) b
    · rfl

/-! ### Writes that an access waits for -/

theorem overlaps_iff (a b : List Host.Cell) : overlaps a b = true ↔ ∃ x ∈ a, ∃ y ∈ b, x.1 = y.1 := by simp [overlaps]

/-- What is picked out of the committed writes, and what is left (R81). -/
theorem entangled_spec (core : Nat) (cells : List Host.Cell) (es : List WEntry) :
    let q := entangled core cells es
    (∀ e ∈ q.1, e.core = core) ∧ (∀ c ∈ cells, c ∈ q.2.2) ∧ (∀ e ∈ q.1, ∀ c ∈ e.cells, c ∈ q.2.2) ∧
    (∀ e ∈ q.2.1, e.core = core → ∀ c ∈ e.cells, ∀ x ∈ cells, c.1 ≠ x.1) ∧ (∀ e ∈ q.2.1, e ∈ es) ∧
    ∀ p b, overlay es core p b = overlay q.2.1 core p (overlay q.1 core p b) := by
  induction es with
  | nil => simp [entangled, overlay_nil]
  | cons e es ih =>
    obtain ⟨i1, i2, i3, i4, i6, i5⟩ := ih
    unfold entangled
    generalize entangled core cells es = q at i1 i2 i3 i4 i5 i6
    obtain ⟨hit, rest, cs⟩ := q
    simp only at i1 i2 i3 i4 i5 i6 ⊢
    split
    · rename_i hc
      simp only [Bool.and_eq_true, beq_iff_eq] at hc
      refine ⟨?_, ?_, ?_, i4, fun x hx => List.mem_cons_of_mem _ (i6 x hx), fun p b => ?_⟩
      · intro x hx; rcases List.mem_cons.mp hx with rfl | hx
        · exact hc.1
        · exact i1 x hx
      · intro c hx; exact List.mem_append_right _ (i2 c hx)
      · intro x hx c hcc
        rcases List.mem_cons.mp hx with rfl | hx
        · exact List.mem_append_left _ hcc
        · exact List.mem_append_right _ (i3 x hx c hcc)
      · rw [overlay_cons, i5, overlay_cons]
    · rename_i hc
      have hdis : e.core = core → ∀ c ∈ e.cells, ∀ x ∈ cs, c.1 ≠ x.1 := by
        intro he c hcc x hx hh
        apply hc
        simp only [Bool.and_eq_true, beq_iff_eq]
        exact ⟨he, (overlaps_iff _ _).mpr ⟨c, hcc, x, hx, hh⟩⟩
      refine ⟨i1, i2, i3, ?_, fun x hx => (List.mem_cons.mp hx).elim (fun e => e ▸ List.mem_cons_self) fun h => List.mem_cons_of_mem _ (i6 x h), fun p b => ?_⟩
      · intro x hx hxc c hcc y hy
        rcases List.mem_cons.mp hx with rfl | hx
        · exact hdis hxc c hcc y (i2 y hy)
        · exact i4 x hx hxc c hcc y hy
      · rw [overlay_cons, i5, overlay_cons]
        congr 1
        by_cases he : e.core = core
        · rw [if_pos he, if_pos he]
          by_cases hp : ∃ c ∈ e.cells, c.1 = p
          · have : ∀ b, overlay hit core p b = b := fun b => overlay_none (fun x hx hxc c hcc hh => by
              obtain ⟨c', hc', hp'⟩ := hp
              exact hdis he c' hc' c (i3 x hx c hcc) (by rw [hp', hh])) b
            rw [this, this]
          · have : ∀ b, under e.cells p b = b := fun b => under_none (fun c hcc hh => hp ⟨c, hcc, hh⟩) b
            rw [this, this]
        · rw [if_neg he, if_neg he]

/-! ### Performing -/

theorem reachable_all {s : State} (h : s.cxl = []) (cells : List Host.Cell) : reachable s cells = cells := by
  unfold reachable
  rw [List.filter_eq_self]
  intro c _
  have hc : ∀ d off, cxlOff s d off = false := fun d off => by unfold cxlOff; rw [h]; rfl
  split <;> simp [hc]

/-- Two states differ in home memory, its poison, monitors, the L1s and committed writes only. -/
def Homes (s t : State) : Prop := ∃ a b c d e, t = { s with mem := a, mempoi := b, mon := c, l1 := d, wq := e }

theorem Homes.refl (s : State) : Homes s s := ⟨_, _, _, _, _, rfl⟩
theorem Homes.trans {s t r : State} (h : Homes s t) (h' : Homes t r) : Homes s r := by
  obtain ⟨_, _, _, _, _, rfl⟩ := h
  obtain ⟨_, _, _, _, _, rfl⟩ := h'
  exact ⟨_, _, _, _, _, rfl⟩

theorem patch_getD (cells : List Host.Cell) (x : Sector) (i : Nat) (h : i < x.bytes.length) :
    (patchSector cells x).bytes.getD i 0 = under cells (x.pa + i) (x.bytes.getD i 0) := by
  simp [patchSector, under, List.getD_eq_getElem?_getD, h]

/-- Sectors that agree with memory agree after both take the same cells. -/
theorem l1Agrees_patch {s t : State} {core : Nat} {cells : List Host.Cell} (h : L1Agrees s core)
    (hm : ∀ p, t.mem.read p = under cells p (s.mem.read p))
    (hl : ∀ x ∈ t.l1, x.core = core → ∃ y ∈ s.l1, y.core = core ∧ x = patchSector cells y) : L1Agrees t core := by
  intro x hx hc
  obtain ⟨y, hy, hyc, rfl⟩ := hl x hx hc
  obtain ⟨a, b⟩ := h y hy hyc
  refine ⟨a, ?_⟩
  have hlen : y.bytes.length = 32 := by rw [b]; simp [homeRead]
  apply List.ext_getElem
  · simp [patchSector, hlen, homeRead]
  · intro i h1 h2
    have hi : i < 32 := by simpa [homeRead] using h2
    have e := patch_getD cells y i (by omega)
    rw [List.getD_eq_getElem?_getD, List.getElem?_eq_getElem h1] at e
    simp only [Option.getD_some] at e
    rw [e, b]
    simp only [homeRead, List.getElem_map, List.getElem_range, List.getD_eq_getElem?_getD, List.getElem?_map, List.getElem?_range hi,
      Option.map_some, Option.getD_some, hm]
    rfl

/-- One committed write of a core is performed (R80, R214). -/
theorem performEntry_spec {s : State} (h : s.cxl = []) (e : WEntry) (hl : L1Agrees s e.core) :
    Homes s (performEntry e s) ∧ (performEntry e s).wq = s.wq ∧ (∀ p, (performEntry e s).mem.read p = under e.cells p (s.mem.read p)) ∧
      L1Agrees (performEntry e s) e.core := by
  have hm : ∀ p, (performEntry e s).mem.read p = under e.cells p (s.mem.read p) := fun p => by
    show (s.mem.writeAll (reachable s e.cells)).read p = _
    rw [reachable_all h, read_writeAll_under]
  refine ⟨⟨_, _, _, _, _, rfl⟩, rfl, hm, l1Agrees_patch hl hm fun x hx hc => ?_⟩
  have hx' : x ∈ s.l1.map fun x => if x.core = e.core then patchSector e.cells x else x := hx
  obtain ⟨y, hy, rfl⟩ := List.mem_map.mp hx'
  by_cases hyc : y.core = e.core
  · rw [if_pos hyc]; exact ⟨y, hy, hyc, rfl⟩
  · rw [if_neg hyc] at hc; exact absurd hc hyc

theorem performAll_spec (core : Nat) (es : List WEntry) (he : ∀ e ∈ es, e.core = core) (s : State) (h : s.cxl = [])
    (hl : L1Agrees s core) :
    Homes s (es.foldl (fun s e => performEntry e s) s) ∧ (es.foldl (fun s e => performEntry e s) s).wq = s.wq ∧
      (∀ p, (es.foldl (fun s e => performEntry e s) s).mem.read p = overlay es core p (s.mem.read p)) ∧
      L1Agrees (es.foldl (fun s e => performEntry e s) s) core := by
  induction es generalizing s with
  | nil => exact ⟨.refl s, rfl, fun _ => rfl, hl⟩
  | cons e es ih =>
    obtain rfl : e.core = core := he e (by simp)
    obtain ⟨p1, p2, p3, p4⟩ := performEntry_spec h e hl
    obtain ⟨q1, q2, q3, q4⟩ := ih (fun x hx => he x (by simp [hx])) (performEntry e s) (by obtain ⟨_, _, _, _, _, e⟩ := p1; rw [e]; exact h) p4
    refine ⟨p1.trans q1, q2.trans p2, fun p => ?_, q4⟩
    rw [List.foldl_cons, q3, p3, overlay_cons, if_pos rfl]

/-- No committed write of a core to a byte is waiting. -/
def Quiet (wq : List WEntry) (core p : Nat) : Prop := ∀ e ∈ wq, e.core = core → ∀ c ∈ e.cells, c.1 ≠ p

theorem Quiet.overlay {wq : List WEntry} {core p : Nat} (h : Quiet wq core p) (b : Byte) : overlay wq core p b = b := overlay_none h b

/-- The writes that an access waits for have been performed: the core sees what it saw, and home holds it at the access's bytes (R81). -/
theorem drainOverlap_spec {s : State} {core : Nat} (h : s.cxl = []) (hl : L1Agrees s core) (pas : List Nat) :
    let t := drainOverlap core pas s
    Homes s t ∧ L1Agrees t core ∧ (∀ p, overlay t.wq core p (t.mem.read p) = overlay s.wq core p (s.mem.read p)) ∧
      (∀ p ∈ pas, Quiet t.wq core p) ∧ ∀ p, Quiet s.wq core p → Quiet t.wq core p := by
  obtain ⟨e1, -, -, e4, e6, e5⟩ := entangled_spec core (pas.map fun p => (p, 0)) s.wq
  unfold drainOverlap
  generalize entangled core (pas.map fun p => (p, 0)) s.wq = q at e1 e4 e5 e6
  obtain ⟨hit, rest, cs⟩ := q
  simp only at e1 e4 e5 e6 ⊢
  obtain ⟨p1, p2, p3, p4⟩ := performAll_spec core hit e1 { s with wq := rest } h hl
  refine ⟨Homes.trans ⟨_, _, _, _, _, rfl⟩ p1, p4, fun p => ?_, fun p hp => ?_, fun p hp => ?_⟩
  · rw [p2, p3, e5]
  · rw [p2]
    exact fun e he hc c hcc hh => e4 e he hc c hcc (p, 0) (List.mem_map.mpr ⟨p, hp, rfl⟩) hh
  · rw [p2]
    exact fun e he => hp e (e6 e he)

/-! ### One element at its home -/

theorem Touched.refl (s : State) : Touched s s := rfl

theorem touched_iff {s t : State} : Touched s t ↔ ∃ a b c d e f g h i j k l m n o p,
    t = { s with tlbCore := a, tlbCluster := b, l1 := c, coreCtr := d, msix := e, free := f, pgs := o, secs := p, mem := g, mempoi := h, mon := i, wq := j,
                 scr := k, scrpoi := l, opbuf := m, oppoi := n } :=
  ⟨fun h => ⟨_, _, _, _, _, _, _, _, _, _, _, _, _, _, _, _, h⟩, fun ⟨_, _, _, _, _, _, _, _, _, _, _, _, _, _, _, _, h⟩ => by rw [h]; rfl⟩

theorem Touched.trans {s t r : State} (h : Touched s t) (h' : Touched t r) : Touched s r := by
  obtain ⟨_, _, _, _, _, _, _, _, _, _, _, _, _, _, _, _, rfl⟩ := touched_iff.mp h
  obtain ⟨_, _, _, _, _, _, _, _, _, _, _, _, _, _, _, _, rfl⟩ := touched_iff.mp h'
  exact touched_iff.mpr ⟨_, _, _, _, _, _, _, _, _, _, _, _, _, _, _, _, rfl⟩

theorem Looks.touched {s t : State} (h : Looks s t) : Touched s t := by
  obtain ⟨_, _, _, _, _, _, _, _, rfl⟩ := looks_iff.mp h
  exact touched_iff.mpr ⟨_, _, _, _, _, _, _, _, _, _, _, _, _, _, _, _, rfl⟩

theorem Homes.touched {s t : State} (h : Homes s t) : Touched s t := by
  obtain ⟨_, _, _, _, _, rfl⟩ := h
  exact touched_iff.mpr ⟨_, _, _, _, _, _, _, _, _, _, _, _, _, _, _, _, rfl⟩

/-- What touching memory keeps, field by field. -/
theorem Touched.keeps {α : Type} (f : State → α)
    (hf : ∀ s : State, ∀ a b c d e g h i j k l m n o p p', f { s with tlbCore := a, tlbCluster := b, l1 := c, coreCtr := d, msix := e,
                                                                       free := g, pgs := p, secs := p', mem := h, mempoi := i, mon := j, wq := k,
                                                                       scr := l, scrpoi := m, opbuf := n, oppoi := o } = f s)
    {s t : State} (h : Touched s t) : f t = f s := by
  obtain ⟨_, _, _, _, _, _, _, _, _, _, _, _, _, _, _, _, rfl⟩ := touched_iff.mp h; exact hf s _ _ _ _ _ _ _ _ _ _ _ _ _ _ _ _

/-- An element's place and the keys of its bytes. -/
def AtKeys (sp : Space) (ks : List Nat) (a : At) : Prop :=
  match sp with
  | .sc => ∃ off, a = .scr off ∧ ks = (List.range ks.length).map (off + ·)
  | .ob => ∃ off, a = .ob off ∧ ks = (List.range ks.length).map (off + ·)
  | _ => ∃ va h, a = .mem va h ∧ h.pas = ks

/-- The element lies on pages of a scope wider than core. -/
def At.wide : At → Bool
  | .mem _ h => ! h.scope.isLocal
  | _ => false

theorem atKeys_cases {sp : Space} {ks : List Nat} {a : At} (h : AtKeys sp ks a) :
    (sp = .sc ∧ ∃ off, a = .scr off ∧ ks = (List.range ks.length).map (off + ·)) ∨
    (sp = .ob ∧ ∃ off, a = .ob off ∧ ks = (List.range ks.length).map (off + ·)) ∨
    (sp.cached = true ∧ ∃ va h, a = .mem va h ∧ h.pas = ks) := by
  cases sp
  · exact .inr (.inr ⟨rfl, h⟩)
  · exact .inl ⟨rfl, h⟩
  · exact .inr (.inr ⟨rfl, h⟩)
  · exact .inr (.inl ⟨rfl, h⟩)

theorem byteUnder_mem {sp : Space} (h : sp.cached = true) (s : State) (r : LaneRef) (k : Nat) :
    byteUnder s r sp k = overlay s.wq (unitOf s r.u).core k (s.mem.read k) := by
  cases sp <;> first | rfl | cases h

theorem readN_eq (m : Memory) (a n : Nat) : m.readN a n = (List.range n).map fun i => m.read (a + i) := by
  induction n generalizing a with
  | zero => rfl
  | succ n ih =>
    rw [List.range_succ_eq_map, List.map_cons, List.map_map]
    show m.read a :: m.readN (a + 1) n = _
    rw [ih]
    congr 1
    apply List.map_congr_left
    intro i _
    simp only [Function.comp]; congr 1; omega

theorem writeN_eq (m : Memory) (off : Nat) (bytes : List Byte) :
    m.writeN off bytes = m.writeAll (((List.range bytes.length).map (off + ·)).zip bytes) := by
  induction bytes generalizing m off with
  | nil => rfl
  | cons b bs ih =>
    show (m.write off b).writeN (off + 1) bs = _
    rw [ih, List.length_cons, List.range_succ_eq_map, List.map_cons, List.zip_cons_cons, List.map_map]
    show _ = (m.write (off + 0) b).writeAll _
    rw [Nat.add_zero]
    congr 2
    apply List.map_congr_left
    intro i _
    simp only [Function.comp]; omega

/-- A byte of consecutive bytes written. -/
theorem read_writeN_idx (m : Memory) (off : Nat) (bytes : List Byte) (k : Nat) : (m.writeN off bytes).read k =
    match ((List.range bytes.length).map (off + ·)).idxOf? k with
    | some i => bytes.getD i 0
    | none => m.read k := by
  rw [writeN_eq, read_writeAll_under, under_zip (List.Nodup.map (fun a b h => by simpa using h) List.nodup_range) (by simp)]

theorem patchSame_spec {s : State} {core : Nat} (hl : L1Agrees s core) (ks : List Nat) :
    L1Agrees (patchL1 core (cellsOf ks (homeRead s ks)) s) core := by
  refine l1Agrees_patch (cells := cellsOf ks (homeRead s ks)) hl (fun p => ?_) fun x hx hc => ?_
  · have : ∀ (l : List Nat) b, b = s.mem.read p → under (cellsOf l (homeRead s l)) p b = s.mem.read p := by
      intro l
      induction l with
      | nil => intro b h; exact h
      | cons k l ih =>
        intro b h
        show under (cellsOf l (homeRead s l)) p (if k = p then s.mem.read k else b) = _
        apply ih
        split
        · rename_i e; rw [e]
        · exact h
    exact (this ks _ rfl).symm
  · have hx' : x ∈ s.l1.map fun x => if x.core = core then patchSector (cellsOf ks (homeRead s ks)) x else x := hx
    obtain ⟨y, hy, rfl⟩ := List.mem_map.mp hx'
    by_cases hyc : y.core = core
    · rw [if_pos hyc]; exact ⟨y, hy, hyc, rfl⟩
    · rw [if_neg hyc] at hc; exact absurd hc hyc

/-- What a lane finds at the home of an element is what it sees there (R88, R223). -/
theorem readHome_spec {s : State} {r : LaneRef} {sp : Space} {ks : List Nat} {a : At} (hd : s.cxl = [])
    (hl : L1Agrees s (unitOf s r.u).core) (hk : AtKeys sp ks a) :
    ∃ t, readHome r a ks.length s = (ks.map (byteUnder s r sp), t) ∧ Touched s t ∧ L1Agrees t (unitOf s r.u).core ∧
      SameTlbs s t ∧ (∀ k, byteUnder t r sp k = byteUnder s r sp k) ∧
      (a.wide = true → (∀ k ∈ ks, Quiet t.wq (unitOf s r.u).core k) ∧ ∀ k, Quiet s.wq (unitOf s r.u).core k → Quiet t.wq (unitOf s r.u).core k) := by
  rcases atKeys_cases hk with ⟨rfl, off, rfl, e⟩ | ⟨rfl, off, rfl, e⟩ | ⟨hc, va, hh, rfl, rfl⟩
  · refine ⟨s, ?_, .refl s, hl, .refl s, fun _ => rfl, by simp [At.wide]⟩
    simp only [readHome, readN_eq]
    conv_rhs => rw [e]
    simp only [List.map_map]; rfl
  · refine ⟨s, ?_, .refl s, hl, .refl s, fun _ => rfl, by simp [At.wide]⟩
    simp only [readHome, readN_eq]
    conv_rhs => rw [e]
    simp only [List.map_map]; rfl
  · simp only [readHome]
    by_cases hs : hh.scope.isLocal = true
    · obtain ⟨t, e, l, b, c⟩ := coreRead_spec hl (unitOf s r.u).ctx va hh.pas hh.scope false
      refine ⟨t, ?_, l.touched, b, c, fun k => looks_byteUnder l r sp k, by simp [At.wide, hs]⟩
      rw [if_pos hs, e]
      exact congrArg (fun f => (hh.pas.map f, t)) (funext fun k => (byteUnder_mem hc s r k).symm)
    · rw [if_neg hs]
      obtain ⟨h1, h2, h3, h4, h6⟩ := drainOverlap_spec hd hl hh.pas
      have hu : ∀ u, unitOf (drainOverlap (unitOf s r.u).core hh.pas s) u = unitOf s u := fun u => by obtain ⟨_, _, _, _, _, e⟩ := h1; rw [e]; rfl
      have hb : homeRead (drainOverlap (unitOf s r.u).core hh.pas s) hh.pas = hh.pas.map (byteUnder s r sp) := by
        apply List.map_congr_left
        intro p hp
        rw [byteUnder_mem hc, ← h3, (h4 p hp).overlay]
      refine ⟨patchL1 (unitOf s r.u).core (cellsOf hh.pas (hh.pas.map (byteUnder s r sp))) (drainOverlap (unitOf s r.u).core hh.pas s),
        by rw [hb], ?_, ?_, ?_, fun k => ?_, fun _ => ⟨h4, h6⟩⟩
      · exact (h1.trans ⟨_, _, _, _, _, rfl⟩).touched
      · rw [← hb]; exact patchSame_spec h2 hh.pas
      · obtain ⟨_, _, _, _, _, e⟩ := h1; rw [e]; exact ⟨rfl, rfl, rfl⟩
      · rw [byteUnder_mem hc, byteUnder_mem hc, ← h3]
        show overlay (drainOverlap (unitOf s r.u).core hh.pas s).wq (unitOf (drainOverlap (unitOf s r.u).core hh.pas s) r.u).core k _ = _
        rw [hu]; rfl

/-- A write at the home of an element is what the lane sees there (R88, R223). -/
theorem writeHome_spec {s : State} {r : LaneRef} {sp : Space} {ks : List Nat} {a : At} {bytes : List Byte} (hd : s.cxl = [])
    (hl : L1Agrees s (unitOf s r.u).core) (hk : AtKeys sp ks a) (hn : ks.Nodup) (hb : bytes.length = ks.length) :
    Touched s (writeHome r a bytes s) ∧ L1Agrees (writeHome r a bytes s) (unitOf s r.u).core ∧
      SameTlbs s (writeHome r a bytes s) ∧
      (∀ k, byteUnder (writeHome r a bytes s) r sp k = match ks.idxOf? k with
        | some i => bytes.getD i 0
        | none => byteUnder s r sp k) ∧
      (a.wide = true → (∀ k ∈ ks, Quiet (writeHome r a bytes s).wq (unitOf s r.u).core k) ∧
        ∀ k, Quiet s.wq (unitOf s r.u).core k → Quiet (writeHome r a bytes s).wq (unitOf s r.u).core k) := by
  rcases atKeys_cases hk with ⟨rfl, off, rfl, e⟩ | ⟨rfl, off, rfl, e⟩ | ⟨hc, va, hh, rfl, rfl⟩
  · have key : ∀ (m : Memory) k, (m.writeN off bytes).read k = match ks.idxOf? k with
        | some i => bytes.getD i 0
        | none => m.read k := fun m k => by rw [e, ← hb]; exact read_writeN_idx m off bytes k
    refine ⟨touched_iff.mpr ⟨_, _, _, _, _, _, _, _, _, _, _, _, _, _, _, _, rfl⟩, hl, ⟨rfl, rfl, rfl⟩, fun k => ?_, by simp [At.wide]⟩
    show ((s.scr.set r.u _).get r.u {}).read k = _
    rw [Map.get_set_self, key]; rfl
  · have key : ∀ (m : Memory) k, (m.writeN off bytes).read k = match ks.idxOf? k with
        | some i => bytes.getD i 0
        | none => m.read k := fun m k => by rw [e, ← hb]; exact read_writeN_idx m off bytes k
    refine ⟨touched_iff.mpr ⟨_, _, _, _, _, _, _, _, _, _, _, _, _, _, _, _, rfl⟩, hl, ⟨rfl, rfl, rfl⟩, fun k => ?_, by simp [At.wide]⟩
    show ((s.opbuf.set (clusterOf (unitOf s r.u).core) _).get (clusterOf (unitOf s r.u).core) {}).read k = _
    rw [Map.get_set_self, key]; rfl
  · simp only [writeHome]
    by_cases hs : hh.scope.isLocal = true
    · rw [if_pos hs]
      have h0 : (enqueue ⟨(unitOf s r.u).core, r, (unitOf s r.u).ctx, hh.scope, cellsOf hh.pas bytes, hh.loc, false⟩ s) =
          if (cellsOf hh.pas bytes).isEmpty then s else fireMem (((cellsOf hh.pas bytes).map (·.1)).filter fun p => hh.loc.contains p)
            { s with wq := s.wq ++ [⟨(unitOf s r.u).core, r, (unitOf s r.u).ctx, hh.scope, cellsOf hh.pas bytes, hh.loc, false⟩] } := rfl
      by_cases he : (cellsOf hh.pas bytes).isEmpty = true
      · rw [h0, if_pos he]
        have hp : hh.pas = [] := by
          cases hpp : hh.pas with
          | nil => rfl
          | cons k ks =>
            rw [hpp] at hb he
            cases bytes with
            | nil => simp at hb
            | cons x bs => simp [cellsOf] at he
        exact ⟨.refl s, hl, .refl s, fun k => by rw [hp]; rfl, by simp [At.wide, hs]⟩
      · rw [h0, if_neg he]
        refine ⟨touched_iff.mpr ⟨_, _, _, _, _, _, _, _, _, _, _, _, _, _, _, _, rfl⟩, hl, ⟨rfl, rfl, rfl⟩, fun k => ?_, by simp [At.wide, hs]⟩
        rw [byteUnder_mem hc, byteUnder_mem hc]
        show overlay (s.wq ++ [_]) (unitOf s r.u).core k (s.mem.read k) = _
        rw [overlay_append, overlay_cons, overlay_nil, if_pos rfl]
        exact under_zip hn hb k _
    · rw [if_neg hs]
      obtain ⟨h1, h2, h3, h4, h6⟩ := drainOverlap_spec hd hl hh.pas
      generalize drainOverlap (unitOf s r.u).core hh.pas s = s1 at h1 h2 h3 h4 h6
      have hd1 : s1.cxl = [] := by obtain ⟨_, _, _, _, _, e⟩ := h1; rw [e]; exact hd
      have hu : ∀ u, unitOf s1 u = unitOf s u := fun u => by obtain ⟨_, _, _, _, _, e⟩ := h1; rw [e]; rfl
      have hm : ∀ p, (patchL1 (unitOf s r.u).core (cellsOf hh.pas bytes) (homeWrite (cellsOf hh.pas bytes) s1)).mem.read p =
          under (cellsOf hh.pas bytes) p (s1.mem.read p) := fun p => by
        show (s1.mem.writeAll (reachable s1 (cellsOf hh.pas bytes))).read p = _
        rw [reachable_all hd1, read_writeAll_under]
      have hw : (patchL1 (unitOf s r.u).core (cellsOf hh.pas bytes) (homeWrite (cellsOf hh.pas bytes) s1)).wq = s1.wq := rfl
      refine ⟨(h1.trans ⟨_, _, _, _, _, rfl⟩).touched, l1Agrees_patch h2 hm fun x hx hcx => ?_, ?_, fun k => ?_, fun _ => ⟨h4, h6⟩⟩
      · have hx' : x ∈ s1.l1.map fun x => if x.core = (unitOf s r.u).core then patchSector (cellsOf hh.pas bytes) x else x := hx
        obtain ⟨y, hy, rfl⟩ := List.mem_map.mp hx'
        by_cases hyc : y.core = (unitOf s r.u).core
        · rw [if_pos hyc]; exact ⟨y, hy, hyc, rfl⟩
        · rw [if_neg hyc] at hcx; exact absurd hcx hyc
      · obtain ⟨_, _, _, _, _, e⟩ := h1; rw [e]; exact ⟨rfl, rfl, rfl⟩
      · rw [byteUnder_mem hc, byteUnder_mem hc]
        show overlay s1.wq (unitOf s1 r.u).core k _ = _
        rw [hu, hm]
        have hz := under_zip hn hb k (s1.mem.read k)
        unfold cellsOf
        rw [hz]
        cases hix : hh.pas.idxOf? k with
        | none => exact h3 k
        | some i =>
          have hin : k ∈ hh.pas := by
            by_contra hno
            rw [List.idxOf?_eq_none_iff.mpr hno] at hix; cases hix
          exact (h4 k hin).overlay _

theorem rmwPlace_keys {sp : Space} {ks : List Nat} {a : At} (h : AtKeys sp ks a) : AtKeys sp ks (rmwPlace a) := by
  rcases atKeys_cases h with ⟨rfl, off, rfl, e⟩ | ⟨rfl, off, rfl, e⟩ | ⟨hc, va, hh, rfl, rfl⟩
  · exact h
  · exact h
  · have : ∃ va' h', rmwPlace (.mem va hh) = .mem va' h' ∧ h'.pas = hh.pas := by
      simp only [rmwPlace]
      split
      · exact ⟨va, hh, rfl, rfl⟩
      · exact ⟨va, _, rfl, rfl⟩
    cases sp <;> first | exact this | cases hc

theorem rmwPlace_wide {a : At} (h : a.wide = true) : (rmwPlace a).wide = true := by
  cases a with
  | mem va hh =>
    simp only [rmwPlace]
    split
    · exact h
    · rfl
  | scr _ => cases h
  | ob _ => cases h

/-- One read-modify-write of a lane (R222). -/
theorem rmwOne_spec {s : State} {r : LaneRef} {sp : Space} {ks : List Nat} {a : At} {w : Nat} {op : AluOp} {b c : DWord}
    (hd : s.cxl = []) (hl : L1Agrees s (unitOf s r.u).core) (hk : AtKeys sp ks a) (hn : ks.Nodup) (hw : ks.length = w)
    (hb : ∀ old : List Byte, old.length = w → (rmwBytes op w old b c).length = w) :
    ∃ t, rmwOne r a w op b c s = (ks.map (byteUnder s r sp), t) ∧ Touched s t ∧ L1Agrees t (unitOf s r.u).core ∧
      SameTlbs s t ∧
      (∀ k, byteUnder t r sp k = match ks.idxOf? k with
        | some i => (rmwBytes op w (ks.map (byteUnder s r sp)) b c).getD i 0
        | none => byteUnder s r sp k) ∧
      (a.wide = true → (∀ k ∈ ks, Quiet t.wq (unitOf s r.u).core k) ∧ ∀ k, Quiet s.wq (unitOf s r.u).core k → Quiet t.wq (unitOf s r.u).core k) := by
  subst hw
  have hk' := rmwPlace_keys hk
  obtain ⟨t1, e, t2, t3, t4, t6, t7⟩ := readHome_spec hd hl hk'
  have hu : ∀ u, unitOf t1 u = unitOf s u := fun u => t2.keeps (fun s => unitOf s u) fun _ _ _ _ _ _ _ _ _ _ _ _ _ _ _ _ _ => rfl
  obtain ⟨q1, q2, q3, q5, q6⟩ := writeHome_spec (bytes := rmwBytes op ks.length (ks.map (byteUnder s r sp)) b c)
    ((t2.keeps (·.cxl) fun _ _ _ _ _ _ _ _ _ _ _ _ _ _ _ _ _ => rfl).trans hd) (hu r.u ▸ t3) hk' hn (hb _ (by simp))
  refine ⟨_, by simp only [rmwOne, e], t2.trans q1, hu r.u ▸ q2, t4.trans q3, fun k => ?_, fun hwd => ?_⟩
  · rw [q5]
    cases ks.idxOf? k with
    | none => exact t6 k
    | some i => rfl
  · obtain ⟨a1, a2⟩ := q6 (rmwPlace_wide hwd)
    rw [hu] at a1 a2
    exact ⟨a1, fun k hk => a2 k ((t7 (rmwPlace_wide hwd)).2 k hk)⟩

/-! ### Instructions of the settled part -/

/-- Elements that are aligned and in reach pass their checks, one after the other (R40). -/
theorem checkAll_spec {write : Bool} {n wa align core : Nat} {sp : Space} (es : List (LaneRef × Int)) (s : State) (ha : TlbsAgree s)
    (h1 : L1Agrees s core) (hr : ∀ p ∈ es, p.2 % (align : Int) = 0 ∧ InReach s p.1 sp p.2 n write) :
    ∃ as t, checkAll (accOf write) n wa align sp es s = (as, [], t) ∧
      List.Forall₂ (fun p q => q.1 = p.1 ∧ Placed s p.1 sp p.2 n q.2) es as ∧ Looks s t ∧ TlbsAgree t ∧ L1Agrees t core := by
  have key : ∀ (es : List (LaneRef × Int)) (acc : List (LaneRef × At)) (t : State), Looks s t → TlbsAgree t → L1Agrees t core →
      (∀ p ∈ es, p.2 % (align : Int) = 0 ∧ InReach s p.1 sp p.2 n write) →
      ∃ as t', es.foldl (fun (acc : List (LaneRef × At) × List (LaneRef × Flt) × State) p =>
        if p.2 % (align : Int) ≠ 0 then (acc.1, acc.2.1 ++ [(p.1, ⟨.align, 0, faddrOf p.2, 0, wa⟩)], acc.2.2)
        else match checkElem p.1 sp p.2 n (accOf write) true wa acc.2.2 with
          | (.error f, s1) => (acc.1, acc.2.1 ++ [(p.1, f)], s1)
          | (.ok a, s1) => (acc.1 ++ [(p.1, a)], acc.2.1, s1)) (acc, [], t) = (acc ++ as, [], t') ∧
        List.Forall₂ (fun p q => q.1 = p.1 ∧ Placed s p.1 sp p.2 n q.2) es as ∧ Looks s t' ∧ TlbsAgree t' ∧ L1Agrees t' core := by
    intro es
    induction es with
    | nil => intro acc t hl ha h1 _; exact ⟨[], t, by simp, .nil, hl, ha, h1⟩
    | cons p es ih =>
      intro acc t hl ha h1 hr
      obtain ⟨al, rch⟩ := hr p (by simp)
      obtain ⟨a, t1, e, pl, l1, a1, b1⟩ := checkElem_spec (wa := wa) (settled := true) ha h1 (looks_inReach hl rch)
      obtain ⟨as, t2, e2, f2, l2, a2, b2⟩ := ih (acc ++ [(p.1, a)]) t1 (hl.trans l1) a1 b1 fun q hq => hr q (by simp [hq])
      refine ⟨(p.1, a) :: as, t2, ?_, .cons ⟨rfl, placed_looks hl pl⟩ f2, l2, a2, b2⟩
      rw [List.foldl_cons, if_neg (by simpa using al)]
      simp only [e]
      rw [e2]; simp
  obtain ⟨as, t, e, r⟩ := key es [] s (.refl s) ha h1 hr
  exact ⟨as, t, e, r⟩

theorem placed_keys {s : State} {r : LaneRef} {sp : Space} {ea : Int} {n : Nat} {a : At} (h : Placed s r sp ea n a) :
    AtKeys sp (keysOf s r sp ea n) a := by
  rcases placed_space h with ⟨rfl, rfl⟩ | ⟨rfl, rfl⟩ | ⟨hc, hh, rfl, hpas, hwd⟩
  · exact ⟨ea.toNat, rfl, by simp [keysOf, keyOf, Space.cached]⟩
  · exact ⟨ea.toNat, rfl, by simp [keysOf, keyOf, Space.cached]⟩
  · have : ∃ va h, At.mem ea.toNat hh = .mem va h ∧ h.pas = keysOf s r sp ea n := ⟨_, hh, rfl, hpas⟩
    cases sp <;> first | exact this | cases hc

/-- The bytes of an element that does not cross a page have different keys. -/
theorem keysOf_nodup {s : State} {r : LaneRef} {sp : Space} {ea : Int} {n : Nat} {w : Bool} (hr : InReach s r sp ea n w)
    (hp : ea.toNat % 4096 + n ≤ 4096) : (keysOf s r sp ea n).Nodup := by
  have un : sp.cached = false → (keysOf s r sp ea n).Nodup := fun h => by
    simp only [keysOf, keyOf, h, Bool.false_eq_true, if_false]
    exact List.Nodup.map (fun a b h => by simpa using h) List.nodup_range
  have me : sp.cached = true → (∀ i < n, MayReach s r.u (ea.toNat + i) w) → (keysOf s r sp ea n).Nodup := fun h hm => by
    by_cases h0 : n = 0
    · subst h0; simp [keysOf]
    · obtain ⟨-, -, -, b, l, e, -⟩ := hm 0 (by omega)
      obtain ⟨l1, l2, l3, l4, l5⟩ := walk_leaf e
      rw [Nat.add_zero] at l1 l2 l3
      have hk : ∀ i ∈ List.range n, keyOf s r sp (ea.toNat + i) = l.pa + (ea.toNat - b) + i := by
        intro i hi
        have hi : i < n := by simpa using hi
        have e5 := l5 (ea.toNat + i) (by omega) (by
          have e1 : 2 ^ l.lg = 4096 * 2 ^ (l.lg - 12) := by
            rw [show (4096 : Nat) = 2 ^ 12 by rfl, ← Nat.pow_add]; congr 1; omega
          have e2 : b = 4096 * (ea.toNat / 2 ^ l.lg * 2 ^ (l.lg - 12)) := by rw [l3, e1]; ring
          rw [e1] at l2 ⊢
          generalize ea.toNat / 2 ^ l.lg * 2 ^ (l.lg - 12) = x at e2
          generalize 2 ^ (l.lg - 12) = y at l2 ⊢
          omega)
        simp only [keyOf, h, if_true, paOf, e5]
        omega
      rw [keysOf, List.map_congr_left hk]
      exact List.Nodup.map (fun a b h => by simpa using h) List.nodup_range
  cases sp
  · exact me rfl hr.2
  · exact un rfl
  · exact me rfl hr.2.2.2
  · exact un rfl

/-- No byte of a clean element raises POISON, whatever the lane has stored (R347). -/
theorem poisonOf_clean {s : State} {r : LaneRef} {sp : Space} {ea : Int} {n wa : Nat} {a : At} {own : Nat → Bool} (h : Placed s r sp ea n a)
    (hp : ∀ i < n, keyPoisoned s r sp (keyOf s r sp (ea.toNat + i)) = false) : poisonOf s r.u own a n wa = none := by
  rcases placed_space h with ⟨rfl, rfl⟩ | ⟨rfl, rfl⟩ | ⟨hc, hh, rfl, hpas, hwd⟩
  · simp only [poisonOf, Option.map_eq_none_iff, List.find?_eq_none, List.mem_map, List.mem_range]
    rintro _ ⟨i, hi, rfl⟩
    have := hp i hi
    simp only [keyOf_un (show Space.cached .sc = false from rfl), keyPoisoned] at this
    simp_all
  · simp only [poisonOf, Option.map_eq_none_iff, List.find?_eq_none, List.mem_map, List.mem_range]
    rintro _ ⟨i, hi, rfl⟩
    have := hp i hi
    simp only [keyOf_un (show Space.cached .ob = false from rfl), keyPoisoned] at this
    simp_all
  · simp only [poisonOf, Option.map_eq_none_iff, List.find?_eq_none, List.mem_mapIdx]
    rintro _ ⟨i, hi, rfl⟩
    simp only [hpas, List.getElem_map, List.getElem_range]
    have hi' : i < n := by simpa [hpas] using hi
    have hpo : keyPoisoned s r sp = poisonSeen s (unitOf s r.u).core := by
      funext k; cases sp <;> first | rfl | cases hc
    have := hp i hi'
    rw [hpo] at this
    simp [this]

theorem byteUnder_unit {s : State} {r q : LaneRef} (h : r.u = q.u) (sp : Space) (k : Nat) : byteUnder s r sp k = byteUnder s q sp k := by
  cases sp <;> simp only [byteUnder, h]

theorem rmwBytes_length {op : AluOp} {w : Nat} (hw : w = 4 ∨ w = 8) (old : List Byte) (b c : DWord) (ho : old.length = w) :
    (rmwBytes op w old b c).length = w := by
  have hl : ∀ n x, (leBytes n x).length = n := fun n x => by
    induction n generalizing x with
    | zero => rfl
    | succ n ih => simp [leBytes, ih]
  have ha : (aluBytes op w old b.toNat).length = w := by
    rcases hw with rfl | rfl <;> simp [aluBytes, hl]
  unfold rmwBytes
  split
  · exact hl _ _
  · split
    · exact hl _ _
    · exact ho
  · exact ha

/-- Read-modify-writes of lanes of one unit, one after the other (R87, R222). -/
theorem rmw_fold {s : State} {q : LaneRef} {sp : Space} {w : Nat} {op : AluOp} {B C : LaneRef → DWord} {ea : LaneRef → Int} {core : Nat}
    {stage : Bool} (hw : w = 4 ∨ w = 8) (hc : (unitOf s q.u).core = core) (hdet : isDet s q.u = false) (b : State → LaneRef → DWord)
    (c : State → LaneRef → DWord) (hB : ∀ t r, Touched s t → b t r = B r) (hC : ∀ t r, Touched s t → c t r = C r)
    (l : List LaneRef) : ∀ (as : List (LaneRef × At)) (acc : List (LaneRef × Res)) (t : State),
    (∀ r ∈ l, r.u = q.u ∧ (keysOf s r sp (ea r) w).Nodup) →
    List.Forall₂ (fun r p => p.1 = r ∧ Placed s r sp (ea r) w p.2) l as → Touched s t → t.cxl = [] → L1Agrees t core →
    ∃ t', as.foldl (fun (acc : List (LaneRef × Res) × State) p =>
        ((acc.1 ++ [(p.1, (⟨loadWords w (rmwLane p.1 p.2 w op (b acc.2 p.1) (c acc.2 p.1) stage acc.2).1,
          loadWords w (rmwLane p.1 p.2 w op (b acc.2 p.1) (c acc.2 p.1) stage acc.2).1⟩ : Res))]),
          (rmwLane p.1 p.2 w op (b acc.2 p.1) (c acc.2 p.1) stage acc.2).2)) (acc, t) =
        (acc ++ (homeSeq (fun r => keysOf s r sp (ea r) w) (fun r old => rmwBytes op w old (B r) (C r)) l (byteUnder t q sp)).1.map fun p =>
          (p.1, (⟨loadWords w p.2, loadWords w p.2⟩ : Res)), t') ∧ Touched s t' ∧ t'.cxl = [] ∧ L1Agrees t' core ∧
      SameTlbs t t' ∧
      (∀ k, byteUnder t' q sp k = (homeSeq (fun r => keysOf s r sp (ea r) w) (fun r old => rmwBytes op w old (B r) (C r)) l (byteUnder t q sp)).2 k) ∧
      (sp.cached = true → (∀ r ∈ l, 0 < w ∧ WidePages s (unitOf s r.u).ctx (ea r).toNat w) →
        (∀ r ∈ l, ∀ k ∈ keysOf s r sp (ea r) w, Quiet t'.wq core k) ∧ ∀ k, Quiet t.wq core k → Quiet t'.wq core k) := by
  induction l with
  | nil =>
    intro as acc t _ h ht hd h1
    cases h
    exact ⟨t, by simp [homeSeq], ht, hd, h1, .refl t, fun _ => rfl, fun _ _ => ⟨by simp, fun _ h => h⟩⟩
  | cons r l ih =>
    intro as acc t hl h ht hd h1
    cases h with
    | @cons _ p _ as h2 h3 =>
    obtain ⟨hp, hpl⟩ := h2
    obtain ⟨p1, a⟩ := p
    obtain rfl : p1 = r := hp
    obtain ⟨hu, hn⟩ := hl p1 (by simp)
    have hun : ∀ (u : Nat) (t : State), Touched s t → unitOf t u = unitOf s u := fun u t ht =>
      ht.keeps (fun s => unitOf s u) fun _ _ _ _ _ _ _ _ _ _ _ _ _ _ _ _ _ => rfl
    have hcore : (unitOf t p1.u).core = core := by rw [hun _ _ ht, hu, hc]
    have hkl : (keysOf s p1 sp (ea p1) w).length = w := by simp [keysOf]
    obtain ⟨t1, e, q1, q2, q3, q5, q6⟩ := rmwOne_spec (s := t) (r := p1) (op := op) (b := B p1) (c := C p1) hd (hcore ▸ h1)
      (placed_keys hpl) hn hkl fun old ho => rmwBytes_length hw old _ _ ho
    have hdt : isDet t p1.u = false := by
      rw [hu, ht.keeps (fun s => isDet s q.u) fun _ _ _ _ _ _ _ _ _ _ _ _ _ _ _ _ _ => rfl, hdet]
    have hlane : rmwLane p1 a w op (b t p1) (c t p1) stage t = ((keysOf s p1 sp (ea p1) w).map (byteUnder t p1 sp), t1) := by
      unfold rmwLane
      rw [if_neg (by simp [detAt, hdt]), hB t p1 ht, hC t p1 ht, e]
    have hbu : ∀ k, byteUnder t p1 sp k = byteUnder t q sp k := fun k => byteUnder_unit hu sp k
    have hd1 : t1.cxl = [] := (q1.keeps (·.cxl) fun _ _ _ _ _ _ _ _ _ _ _ _ _ _ _ _ _ => rfl).trans hd
    obtain ⟨t2, e2, r1, r2, r3, r4, r6, r7⟩ := ih as (acc ++ [(p1, ⟨loadWords w ((keysOf s p1 sp (ea p1) w).map (byteUnder t p1 sp)),
      loadWords w ((keysOf s p1 sp (ea p1) w).map (byteUnder t p1 sp))⟩)]) t1 (fun x hx => hl x (by simp [hx])) h3 (ht.trans q1) hd1 (hcore ▸ q2)
    have hview : byteUnder t1 q sp = viewWith (byteUnder t q sp) (keysOf s p1 sp (ea p1) w)
        (rmwBytes op w ((keysOf s p1 sp (ea p1) w).map (byteUnder t q sp)) (B p1) (C p1)) := by
      funext k
      rw [← byteUnder_unit hu, q5, funext hbu]; rfl
    rw [hview] at e2 r6
    refine ⟨t2, ?_, r1, r2, r3, q3.trans r4, fun k => ?_, fun hcd hwd => ?_⟩
    · rw [List.foldl_cons]
      simp only [hlane]
      rw [e2, funext hbu]
      simp [homeSeq]
    · rw [r6]; rfl
    · obtain ⟨s1, s2⟩ := r7 hcd fun x hx => hwd x (by simp [hx])
      have haw : a.wide = true := by
        rcases placed_space hpl with ⟨rfl, -⟩ | ⟨rfl, -⟩ | ⟨-, hh, rfl, -, hwd'⟩
        · cases hcd
        · cases hcd
        · have := hwd p1 (by simp)
          simp [At.wide, hwd' this.1 this.2]
      obtain ⟨s3, s4⟩ := q6 haw
      rw [hcore] at s3 s4
      refine ⟨fun x hx k hk => ?_, fun k hk => s2 k (s4 k hk)⟩
      rcases List.mem_cons.mp hx with rfl | hx
      · exact s2 k (s3 k hk)
      · exact s1 x hx k hk

theorem homeSeq_fst (key : LaneRef → List Nat) (new : LaneRef → List Byte → List Byte) (l : List LaneRef) (f : Nat → Byte) :
    (homeSeq key new l f).1.map (·.1) = l := by
  induction l generalizing f with
  | nil => rfl
  | cons r l ih => simp [homeSeq, ih]

theorem foundBy_map {q : List (LaneRef × List Byte)} {l : List LaneRef} (h : q.map (·.1) = l) (hn : l.Nodup) :
    q = l.map fun r => (r, foundBy q r) := by
  subst h
  induction q with
  | nil => rfl
  | cons p q ih =>
    obtain ⟨n1, n2⟩ := List.nodup_cons.mp hn
    simp only [List.map_cons]
    congr 1
    · simp [foundBy]
    · refine (ih n2).trans ?_
      apply List.map_congr_left
      intro r hr
      have : p.1 ≠ r := fun e => n1 (by show p.1 ∈ _; rw [e]; exact hr)
      simp [foundBy, this]

theorem tlbsAgree_congr {s t : State} (h : TlbsAgree s) (h1 : SameTlbs s t) (h3 : t.mem = s.mem) (h4 : t.ctxs = s.ctxs) : TlbsAgree t := by
  refine ⟨fun e he va => ?_, fun p hp => ?_⟩
  · rw [h1.core, h1.cluster] at he
    rw [walk_congr h3 h4]
    exact h.entries e he va
  · rw [walk_congr h3 h4]; exact h.made p (h1.pgs ▸ hp)

theorem l1Agrees_congr {s t : State} {core : Nat} (h : L1Agrees s core) (h1 : t.l1 = s.l1) (h2 : t.mem = s.mem) : L1Agrees t core := by
  intro x hx hc
  rw [h1] at hx
  obtain ⟨a, b⟩ := h x hx hc
  exact ⟨a, by rw [b]; simp only [homeRead, h2]⟩

/-- A commit keeps what a unit's memory looks like to its instructions (R36). -/
theorem commit_looks (iss : Issue) (s : State) {core : Nat} (ha : TlbsAgree s) (h1 : L1Agrees s core) (hd : s.cxl = []) :
    TlbsAgree (commit iss s) ∧ L1Agrees (commit iss s) core ∧ (commit iss s).cxl = [] := by
  have k : ∀ {α : Type} (f : State → α), (∀ s : State, ∀ thr mon buf scr scrpoi opbuf oppoi launches units hstage dieCtr msix wq,
    f { s with thr := thr, mon := mon, buf := buf, scr := scr, scrpoi := scrpoi, opbuf := opbuf, oppoi := oppoi, launches := launches,
               units := units, hstage := hstage, dieCtr := dieCtr, msix := msix, wq := wq } = f s) → f (commit iss s) = f s :=
    fun f hf => commit_keeps f hf iss s
  exact ⟨tlbsAgree_congr ha ⟨k (·.tlbCore) fun _ _ _ _ _ _ _ _ _ _ _ _ _ _ => rfl, k (·.tlbCluster) fun _ _ _ _ _ _ _ _ _ _ _ _ _ _ => rfl,
      k (·.pgs) fun _ _ _ _ _ _ _ _ _ _ _ _ _ _ => rfl⟩ (k (·.mem) fun _ _ _ _ _ _ _ _ _ _ _ _ _ _ => rfl) (k (·.ctxs) fun _ _ _ _ _ _ _ _ _ _ _ _ _ _ => rfl),
    l1Agrees_congr h1 (k (·.l1) fun _ _ _ _ _ _ _ _ _ _ _ _ _ _ => rfl) (k (·.mem) fun _ _ _ _ _ _ _ _ _ _ _ _ _ _ => rfl),
    (k (·.cxl) fun _ _ _ _ _ _ _ _ _ _ _ _ _ _ => rfl).trans hd⟩

theorem refused_none {op : AluOp} {s s' : State} {r : LaneRef} {sp : Space} {ea : Int} {n : Nat} {a : At} (h : Placed s r sp ea n a)
    (ht : sp.cached = true → ∀ k ∈ keysOf s r sp ea n, targetOf k = .package) : refusedAt op a s' = (none, s') := by
  rcases placed_space h with ⟨rfl, rfl⟩ | ⟨rfl, rfl⟩ | ⟨hc, hh, rfl, hpas, -⟩
  · rfl
  · rfl
  · have : targetOf (hh.pas.headD 0) = .package := by
      cases hp : hh.pas with
      | nil => decide
      | cons k ks => exact ht hc k (by unfold keysOf; rw [← hpas, hp]; simp)
    simp only [refusedAt, this]

theorem forall2_mem {α β : Type} {R : α → β → Prop} {f : β → α} {l : List α} {m : List β} (h : List.Forall₂ (fun a b => f b = a ∧ R a b) l m) :
    ∀ b ∈ m, f b ∈ l ∧ R (f b) b := by
  induction h with
  | nil => simp
  | cons h _ ih =>
    intro b hb
    rcases List.mem_cons.mp hb with rfl | hb
    · obtain ⟨rfl, h2⟩ := h; exact ⟨by simp, h2⟩
    · obtain ⟨h1, h2⟩ := ih b hb; exact ⟨by simp [h1], h2⟩

theorem filterMap_none' {α β : Type} (l : List α) : (l.filterMap fun _ => (none : Option β)) = [] := by
  induction l with
  | nil => rfl
  | cons a l ih => simp [ih]

theorem foldl_fix {α β : Type} {F : α → β → α} {x : α} {l : List β} (h : ∀ b ∈ l, F x b = x) : l.foldl F x = x := by
  induction l with
  | nil => rfl
  | cons b l ih => rw [List.foldl_cons, h b (by simp), ih fun c hc => h c (by simp [hc])]

theorem placed_looks' {s t : State} (l : Looks s t) {r : LaneRef} {sp : Space} {ea : Int} {n : Nat} {a : At} (h : Placed s r sp ea n a) :
    Placed t r sp ea n a := by
  obtain ⟨_, _, _, _, _, _, _, _, rfl⟩ := looks_iff.mp l
  exact placed_looks (looks_iff.mpr ⟨_, _, _, _, _, _, _, _, rfl⟩) h

/-- The read-modify-write instructions, where every element is ready (R40, R87, R222). -/
theorem rmwAll_spec {u : Bool} {sp : GS} {w : Width} {op : AluOp} {stage : Bool} {d : Option Opnd} {a b : Opnd} {i c : Option Opnd}
    {s : State} {iss : Issue} (hw : w.bytes = 4 ∨ w.bytes = 8) (h : Runs s iss)
    (hc : Clear s iss.gang (addrReads sp.space a i ++ readsOf ((b, rmwSize w) :: c.toList.map fun o => (o, rmwSize w)))
      (gangRegs (d.toList.map fun o => (o, (rmwSize w).regs))))
    (hp : TlbsAgree s) (h1 : L1Agrees s (unitOf s iss.u).core) (hd : s.cxl = []) (hdet : isDet (commit iss s) iss.u = false)
    (hcore : (unitOf (commit iss s) iss.u).core = (unitOf s iss.u).core)
    (hr : ∀ r ∈ actsFor u (commit iss s) iss,
      AtHome (commit iss s) r sp.space (eaOf (commit iss s) (opRef u iss r) sp.space a 0 (idxOf (commit iss s) (opRef u iss r) i) w.bytes)
        w.bytes true true ∧ (sp.space.cached = true → ∀ k ∈ keysOf (commit iss s) r sp.space
          (eaOf (commit iss s) (opRef u iss r) sp.space a 0 (idxOf (commit iss s) (opRef u iss r) i) w.bytes) w.bytes, targetOf k = .package)) :
    let c0 := commit iss s
    let ea := fun r => eaOf c0 (opRef u iss r) sp.space a 0 (idxOf c0 (opRef u iss r) i) w.bytes
    let q := homeSeq (fun r => keysOf c0 r sp.space (ea r) w.bytes) (fun r old => rmwBytes op w.bytes old
        (srcW c0 (opRef u iss r) (opType op) (rmwSize w) b) ((c.map fun o => srcW c0 (opRef u iss r) (opType op) (rmwSize w) o).getD 0))
      (actsFor u c0 iss) (byteUnder c0 (uniRef iss) sp.space)
    ∃ s1, Touched c0 s1 ∧ (∀ k, byteUnder s1 (uniRef iss) sp.space k = q.2 k) ∧
      (sp.space.cached = true → (∀ r ∈ actsFor u c0 iss, WidePages c0 (unitOf c0 r.u).ctx (ea r).toNat w.bytes) →
        ∀ r ∈ actsFor u c0 iss, ∀ k ∈ keysOf c0 r sp.space (ea r) w.bytes, s1.mem.read k = q.2 k) ∧
      rmwAll u sp w op stage d a b i c s = .next (advance iss (deliverOpt u iss d
        (q.1.map fun p => (p.1, (⟨loadWords w.bytes p.2, loadWords w.bytes p.2⟩ : Res))) (rmwSize w).regs s1)) := by
  obtain ⟨ha0, hb0, hd0⟩ := commit_looks iss s hp h1 hd
  intro c0 ea q
  have hE' : ∀ r, eaOf c0 (opRef u iss r) sp.space a 0 (idxOf c0 (opRef u iss r) i) w.bytes = ea r := fun r => rfl
  obtain ⟨L, hL⟩ : ∃ L, actsFor u c0 iss = L := ⟨_, rfl⟩
  have hLu : ∀ r ∈ L, r.u = iss.u := by
    intro r hr
    rw [← hL] at hr
    unfold actsFor at hr
    split at hr
    · split at hr
      · cases hr
      · rename_i heq
        have : r ∈ issueLanes c0 iss := by rw [heq]; simp at hr; simp [hr]
        exact (issueLanes_unit this).1
    · exact (issueLanes_unit hr).1
  have hrL : ∀ r ∈ L, AtHome c0 r sp.space (ea r) w.bytes true true ∧
      (sp.space.cached = true → ∀ k ∈ keysOf c0 r sp.space (ea r) w.bytes, targetOf k = .package) := fun r h => hr r (hL ▸ h)
  obtain ⟨as, t, e, f2, l, at_, bt⟩ := checkAll_spec (write := true) (n := w.bytes) (wa := wordAddr (headThread s iss)) (align := w.bytes)
    (sp := sp.space) (L.map fun r => (r, ea r)) c0 ha0 hb0 (by
      intro p hp
      obtain ⟨r, hr', rfl⟩ := List.mem_map.mp hp
      exact ⟨(hrL r hr').1.aligned, (hrL r hr').1.reach⟩)
  have e' : checkAll .write w.bytes (wordAddr (headThread s iss)) w.bytes sp.space (L.map fun r => (r, ea r)) c0 = (as, [], t) := e
  have f3 : List.Forall₂ (fun r p => p.1 = r ∧ Placed c0 r sp.space (ea r) w.bytes p.2) L as := by
    rw [List.forall₂_map_left_iff] at f2; exact f2
  have hmem : ∀ p ∈ as, p.1 ∈ L ∧ Placed c0 p.1 sp.space (ea p.1) w.bytes p.2 := forall2_mem f3
  have hdet0 : ∀ t, Touched c0 t → isDet t iss.u = false := fun t ht =>
    (ht.keeps (fun s => isDet s iss.u) fun _ _ _ _ _ _ _ _ _ _ _ _ _ _ _ _ _ => rfl).trans hdet
  have hpoi : as.filterMap (fun p => (poisonOf t iss.u (fun _ => false) p.2 w.bytes (wordAddr (headThread s iss))).map fun f => (p.1, f)) = [] := by
    rw [List.filterMap_eq_nil_iff]
    intro p hp
    obtain ⟨m1, m2⟩ := hmem p hp
    have := poisonOf_clean (own := fun _ => false) (wa := wordAddr (headThread s iss)) (placed_looks' l m2) (fun i hi => by
      rw [looks_keyOf l, looks_keyPoisoned l]; exact (hrL _ m1).1.clean rfl i hi)
    rw [hLu _ m1] at this
    rw [this]; rfl
  obtain ⟨t', g1, g2, g3, g4, g5, g7, g8⟩ := rmw_fold (s := c0) (q := uniRef iss) (sp := sp.space) (w := w.bytes) (op := op)
    (ea := ea) (core := (unitOf s iss.u).core) (stage := stage) hw hcore hdet
    (B := fun r => srcW c0 (opRef u iss r) (opType op) (rmwSize w) b)
    (C := fun r => (c.map fun o => srcW c0 (opRef u iss r) (opType op) (rmwSize w) o).getD 0)
    (fun t r => srcW t (opRef u iss r) (opType op) (rmwSize w) b)
    (fun t r => (c.map fun o => srcW t (opRef u iss r) (opType op) (rmwSize w) o).getD 0)
    (fun t r ht => ht.keeps (fun s => srcW s (opRef u iss r) (opType op) (rmwSize w) b) fun _ _ _ _ _ _ _ _ _ _ _ _ _ _ _ _ _ => rfl)
    (fun t r ht => ht.keeps (fun s => (c.map fun o => srcW s (opRef u iss r) (opType op) (rmwSize w) o).getD 0)
      fun _ _ _ _ _ _ _ _ _ _ _ _ _ _ _ _ _ => rfl)
    L as [] t (fun r hr => ⟨hLu r hr, keysOf_nodup (hrL r hr).1.reach (by
      have h1 := (hrL r hr).1.aligned
      have h2 := (hrL r hr).1.reach.1
      rcases hw with hw | hw <;> rw [hw] at h1 ⊢ <;> omega)⟩) f3 l.touched
    ((l.keeps (·.cxl) fun _ _ _ _ _ _ _ _ _ => rfl).trans hd0) bt
  have hview : byteUnder t (uniRef iss) sp.space = byteUnder c0 (uniRef iss) sp.space := funext fun k => looks_byteUnder l _ _ k
  rw [hview] at g1 g7
  have hq : q = homeSeq (fun r => keysOf c0 r sp.space (ea r) w.bytes) (fun r old => rmwBytes op w.bytes old
        (srcW c0 (opRef u iss r) (opType op) (rmwSize w) b) ((c.map fun o => srcW c0 (opRef u iss r) (opType op) (rmwSize w) o).getD 0))
      L (byteUnder c0 (uniRef iss) sp.space) := by
    rw [← hL]
  rw [← hq] at g1 g7
  rw [List.nil_append] at g1
  refine ⟨t', g2, g7, fun hcd hwd r hr k hk => ?_, ?_⟩
  · rw [hL] at hwd hr
    have hquiet := (g8 hcd fun r hr => ⟨by rcases hw with h | h <;> omega, hwd r hr⟩).1 r hr k hk
    rw [← g7, byteUnder_mem hcd]
    have : (unitOf t' (uniRef iss).u).core = (unitOf s iss.u).core :=
      (g2.keeps (fun s => (unitOf s iss.u).core) fun _ _ _ _ _ _ _ _ _ _ _ _ _ _ _ _ _ => rfl).trans hcore
    rw [this, hquiet.overlay]
  · have href : refuseAll op (wordAddr (headThread s iss)) as t = ([], t) := foldl_fix fun p hp => by
      obtain ⟨m1, m2⟩ := hmem p hp
      simp only [refused_none m2 (hrL _ m1).2]
    have hany : (as.any fun p => detAt t iss.u p.2) = false := by
      rw [List.any_eq_false]; intro p _; simp [detAt, hdet0 t l.touched]
    have hloop : rmwLoop w.bytes op (fun s r => srcW s (opRef u iss r) (opType op) (rmwSize w) b)
        (fun s r => (c.map fun o => srcW s (opRef u iss r) (opType op) (rmwSize w) o).getD 0) stage as t =
        (q.1.map fun p => (p.1, (⟨loadWords w.bytes p.2, loadWords w.bytes p.2⟩ : Res)), t') := g1
    unfold rmwAll
    rw [withIssue_clear h hc]
    simp only
    rw [show commit iss s = c0 from rfl, hL, e']
    simp only [hpoi, href, List.append_nil, List.find?_nil, filterMap_none', List.isEmpty_nil, Bool.not_true, Bool.false_eq_true, if_false, hany,
      Bool.and_false, Bool.false_and, hloop]

end Sys2Proof.Machine
end

