-- ==== Sys2Proof/Laws/Acquire.lean ====
section
/-! SUPPORT. Acquires and releases of objects: one lane's event, and the instructions (R40, R70, R72, R87, R224). -/

namespace Sys2Proof.Machine

/-- Every sector of the L1s stood there already, for the same page. -/
def FromL1 (s t : State) : Prop := ∀ x ∈ t.l1, ∃ y ∈ s.l1, x.core = y.core ∧ x.ctx = y.ctx ∧ x.va = y.va ∧ x.scope = y.scope ∧ x.pa = y.pa

theorem FromL1.refl (s : State) : FromL1 s s := fun x h => ⟨x, h, rfl, rfl, rfl, rfl, rfl⟩
theorem FromL1.trans {s t r : State} (h : FromL1 s t) (h' : FromL1 t r) : FromL1 s r := fun x hx => by
  obtain ⟨y, hy, a, b, c, d, e⟩ := h' x hx
  obtain ⟨z, hz, a', b', c', d', e'⟩ := h y hy
  exact ⟨z, hz, a.trans a', b.trans b', c.trans c', d.trans d', e.trans e'⟩

theorem fromL1_map {s t : State} {p : Sector → Prop} [DecidablePred p] {cells : List Host.Cell}
    (h : t.l1 = s.l1.map fun x => if p x then patchSector cells x else x) : FromL1 s t := fun x hx => by
  rw [h] at hx
  obtain ⟨y, hy, rfl⟩ := List.mem_map.mp hx
  refine ⟨y, hy, ?_⟩
  split <;> exact ⟨rfl, rfl, rfl, rfl, rfl⟩

theorem fromL1_filter {s t : State} {p : Sector → Bool} (h : t.l1 = s.l1.filter p) : FromL1 s t := fun x hx => by
  rw [h] at hx; exact ⟨x, (List.mem_filter.mp hx).1, rfl, rfl, rfl, rfl, rfl⟩

theorem fromL1_performEntry (e : WEntry) (s : State) : FromL1 s (performEntry e s) := fromL1_map (p := fun x => x.core = e.core) rfl

theorem fromL1_drain (core : Nat) (pas : List Nat) (s : State) : FromL1 s (drainOverlap core pas s) := by
  unfold drainOverlap
  generalize entangled core (pas.map fun p => (p, 0)) s.wq = q
  obtain ⟨hit, rest, cs⟩ := q
  have : ∀ (l : List WEntry) (s : State), FromL1 s (l.foldl (fun s e => performEntry e s) s) := by
    intro l
    induction l with
    | nil => exact fun s => .refl s
    | cons e l ih => exact fun s => (fromL1_performEntry e s).trans (ih _)
  exact this hit { s with wq := rest }

theorem fromL1_readHome {r : LaneRef} {a : At} (hw : a.wide = true) (n : Nat) (s : State) : FromL1 s (readHome r a n s).2 := by
  cases a with
  | mem va h =>
    have : h.scope.isLocal = false := by simpa [At.wide] using hw
    simp only [readHome, this, Bool.false_eq_true, if_false]
    exact (fromL1_drain _ _ _).trans (fromL1_map (p := fun x => x.core = (unitOf s r.u).core) rfl)
  | scr _ => cases hw
  | ob _ => cases hw

theorem fromL1_writeHome {r : LaneRef} {a : At} (hw : a.wide = true) (bs : List Byte) (s : State) : FromL1 s (writeHome r a bs s) := by
  cases a with
  | mem va h =>
    have : h.scope.isLocal = false := by simpa [At.wide] using hw
    simp only [writeHome, this, Bool.false_eq_true, if_false]
    exact (fromL1_drain _ _ _).trans (fromL1_map (p := fun x => x.core = (unitOf s r.u).core) rfl)
  | scr _ => cases hw
  | ob _ => cases hw

theorem noteAcquire_rest (r : LaneRef) (a : At) (s : State) : ∃ mon, noteAcquire r a s = { s with mon := mon } := by
  unfold noteAcquire
  split
  · exact ⟨_, rfl⟩
  · split <;> exact ⟨_, rfl⟩

theorem acquire_rest (r : LaneRef) (a : At) (s : State) :
    ∃ l1 mon, acquireObject r a (noteAcquire r a s) = { s with l1 := l1, mon := mon } ∧ ∃ p, l1 = s.l1.filter p := by
  obtain ⟨mon, e⟩ := noteAcquire_rest r a s
  rw [e]
  unfold acquireObject
  split
  · split
    · exact ⟨s.l1, mon, rfl, fun _ => true, by simp⟩
    · exact ⟨_, mon, rfl, _, rfl⟩
  · exact ⟨s.l1, mon, rfl, fun _ => true, by simp⟩

/-- With no committed write waiting, none waits afterwards and memory is as it was. -/
def KeepsMem (s t : State) : Prop := s.wq = [] → t.wq = [] ∧ t.mem = s.mem

theorem KeepsMem.refl (s : State) : KeepsMem s s := fun h => ⟨h, rfl⟩
theorem KeepsMem.trans {s t r : State} (h : KeepsMem s t) (h' : KeepsMem t r) : KeepsMem s r := fun hw => by
  obtain ⟨a, b⟩ := h hw
  obtain ⟨c, d⟩ := h' a
  exact ⟨c, d.trans b⟩
theorem Looks.keepsMem {s t : State} (h : Looks s t) : KeepsMem s t := fun hw =>
  ⟨(h.keeps (·.wq) fun _ _ _ _ _ _ _ _ _ => rfl).trans hw, h.keeps (·.mem) fun _ _ _ _ _ _ _ _ _ => rfl⟩

theorem readHome_keepsMem {s : State} {r : LaneRef} (hl : L1Agrees s (unitOf s r.u).core) (a : At) (n : Nat) :
    KeepsMem s (readHome r a n s).2 := by
  cases a with
  | mem va h =>
    simp only [readHome]
    split
    · obtain ⟨t, e, q⟩ := coreRead_spec hl (unitOf s r.u).ctx va h.pas h.scope false
      rw [e]; exact q.looks.keepsMem
    · intro hw
      unfold drainOverlap
      rw [hw]
      exact ⟨rfl, rfl⟩
  | scr _ => exact .refl s
  | ob _ => exact .refl s

/-- A page of a region that maps a sector's memory is one of the pages that an acquire looks at. -/
theorem sectorIn_of {s : State} {ctx va pa : Nat} {x : Sector} {g : Region} (h : sysAddr s ctx va = some pa) (hx : x.pa = sectorOf pa)
    (h1 : g.base ≤ va) (h2 : va < g.base + g.size) : sectorIn s ctx x g = true := by
  obtain ⟨base, e, hb, rfl⟩ := sysAddr_page h
  unfold sectorIn
  rw [Bool.or_eq_true]
  right
  rw [List.any_eq_true]
  refine ⟨va / 4096 - g.base / 4096, List.mem_range.mpr (by omega), ?_⟩
  have hp : (g.base / 4096 + (va / 4096 - g.base / 4096)) * 4096 = va / 4096 * 4096 := by
    rw [Nat.add_sub_cancel' (Nat.div_le_div_right h1)]
  simp only [hp, e, hx, sectorOf]
  have hm := Nat.mod_lt va (show 4096 > 0 by omega)
  simp only [Bool.and_eq_true, decide_eq_true_eq]
  omega

/-- What an acquire of an object on pages wider than core leaves in its core's L1 (R72). -/
theorem acquireObject_discards {s : State} {r : LaneRef} {va : Nat} {h : Hit} (hs : h.scope.isLocal = false) :
    Discarded s (unitOf s r.u).core (unitOf s r.u).ctx va (acquireObject r (.mem va h) s) := by
  intro x hx hxc hxs i g hg ho
  simp only [acquireObject, hs, Bool.false_eq_true, if_false, discardL1, List.mem_filter] at hx
  have hin : sectorIn s (unitOf s r.u).ctx x g = false := by
    have h2 := hx.2
    simp only [hxc, hxs, beq_self_eq_true, Bool.true_and, Bool.not_false, Bool.not_eq_eq_eq_not, Bool.not_true, List.any_eq_false] at h2
    have h3 := h2 g (by
      simp only [regionsOf, List.mem_filter, List.mem_append, List.mem_map, beq_iff_eq]
      exact ⟨.inl ⟨(i, g), hg, rfl⟩, ho⟩)
    simpa using h3
  refine ⟨fun hctx => ?_, fun _ va' pa h1 h2 he hpa => ?_⟩
  · rintro ⟨g1, g2⟩
    have : sectorIn s (unitOf s r.u).ctx x g = true := by simp [sectorIn, hctx, g1, g2]
    rw [hin] at this; cases this
  · rw [sectorIn_of he hpa h1 h2] at hin; cases hin

theorem Discarded.before {s s1 t : State} {core ctx obj : Nat} (h : Discarded s1 core ctx obj t) (hc : s1.ctxs = s.ctxs) (hk : KeepsMem s s1) :
    Discarded s core ctx obj t := by
  intro x hx hxc hxs i g hg ho
  have hcc : ctxOf s1 ctx = ctxOf s ctx := by unfold ctxOf; rw [hc]
  obtain ⟨a, b⟩ := h x hx hxc hxs i g (hcc ▸ hg) ho
  refine ⟨a, fun hw va pa h1 h2 he => ?_⟩
  obtain ⟨k1, k2⟩ := hk hw
  exact b k1 va pa h1 h2 (by rw [sysAddr_congr k2 hc]; exact he)

theorem viewWith_same (f : Nat → Byte) (ks : List Nat) : viewWith f ks (ks.map f) = f := by
  funext k
  unfold viewWith
  cases h : ks.idxOf? k with
  | none => rfl
  | some i =>
    obtain ⟨hi, e⟩ := List.idxOf?_eq_some_iff.mp h |>.imp fun _ h => h.1
    simp [List.getD_eq_getElem?_getD, hi, e]

/-- One lane's event on its object (R72, R224). -/
theorem objectOne_spec {s : State} {r q : LaneRef} {sp : Space} {ks : List Nat} {a : At} (op : ObjOp) (hd : s.cxl = [])
    (hl : L1Agrees s (unitOf s r.u).core) (hk : AtKeys sp ks a) (hn : ks.Nodup) (hw : ks.length = 8) :
    ∃ t, objectOne r q a op s = (ks.map (byteUnder s r sp), t) ∧ Touched s t ∧ L1Agrees t (unitOf s r.u).core ∧
      SameTlbs s t ∧ byteUnder t r sp = viewWith (byteUnder s r sp) ks (op.new s q (ks.map (byteUnder s r sp))) ∧
      (a.wide = true → FromL1 s t) ∧
      (op.releases = false → KeepsMem s t ∧ ∀ va h, a = .mem va h → h.scope.isLocal = false →
        Discarded s (unitOf s r.u).core (unitOf s r.u).ctx va t) := by
  obtain ⟨t1, e, t2, t3, t4, t6, -⟩ := readHome_spec hd hl hk
  have km : KeepsMem s t1 := by have := readHome_keepsMem hl a ks.length; rwa [e] at this
  rw [hw] at e
  have hd1 : t1.cxl = [] := (t2.keeps (·.cxl) fun _ _ _ _ _ _ _ _ _ _ _ _ _ _ _ _ _ => rfl).trans hd
  have hu : unitOf t1 r.u = unitOf s r.u := t2.keeps (fun s => unitOf s r.u) fun _ _ _ _ _ _ _ _ _ _ _ _ _ _ _ _ _ => rfl
  have hc : t1.ctxs = s.ctxs := t2.keeps (·.ctxs) fun _ _ _ _ _ _ _ _ _ _ _ _ _ _ _ _ _ => rfl
  have hsame : byteUnder t1 r sp = byteUnder s r sp := funext t6
  have hfrom : a.wide = true → FromL1 s t1 := fun h => by have := fromL1_readHome (r := r) h 8 s; rwa [e] at this
  have acq : ∀ op : ObjOp, op.new s q = (fun old => old) → objectOne r q a op s = (ks.map (byteUnder s r sp), acquireObject r a (noteAcquire r a t1)) →
      ∃ t, objectOne r q a op s = (ks.map (byteUnder s r sp), t) ∧ Touched s t ∧ L1Agrees t (unitOf s r.u).core ∧
      SameTlbs s t ∧ byteUnder t r sp = viewWith (byteUnder s r sp) ks (op.new s q (ks.map (byteUnder s r sp))) ∧
      (a.wide = true → FromL1 s t) ∧
      (op.releases = false → KeepsMem s t ∧ ∀ va h, a = .mem va h → h.scope.isLocal = false →
        Discarded s (unitOf s r.u).core (unitOf s r.u).ctx va t) := by
    intro op hnew hop
    obtain ⟨l1, mon, er, p, hp⟩ := acquire_rest r a t1
    refine ⟨_, hop, ?_, ?_, ?_, ?_, fun hw => ?_, fun _ => ⟨?_, fun va h ha hs => ?_⟩⟩
    · rw [er]; exact t2.trans (touched_iff.mpr ⟨_, _, _, _, _, _, _, _, _, _, _, _, _, _, _, _, rfl⟩)
    · rw [er]
      intro x hx hxc
      have hx' : x ∈ l1 := hx
      rw [hp] at hx'
      exact t3 x (List.mem_filter.mp hx').1 hxc
    · rw [er]; exact ⟨t4.core, t4.cluster, t4.pgs⟩
    · rw [er, hnew, viewWith_same]; exact hsame
    · rw [er]; exact (hfrom hw).trans (fromL1_filter hp)
    · rw [er]; exact km.trans fun h => ⟨h, rfl⟩
    · subst ha
      obtain ⟨mon', em⟩ := noteAcquire_rest r (.mem va h) t1
      rw [em]
      have hx := acquireObject_discards (s := { t1 with mon := mon' }) (r := r) (va := va) hs
      have hu' : unitOf { t1 with mon := mon' } r.u = unitOf s r.u := hu
      rw [hu'] at hx
      exact hx.before hc (km.trans fun h => ⟨h, rfl⟩)
  cases op with
  | acq => exact acq .acq rfl (by simp only [objectOne, e])
  | acqld d => exact acq (.acqld d) rfl (by simp only [objectOne, e])
  | rel =>
    obtain ⟨q1, q2, q3, q5, -⟩ := writeHome_spec (bytes := ks.map (byteUnder s r sp)) hd1 (hu ▸ t3) hk hn (by simp)
    refine ⟨_, by simp only [objectOne, e], t2.trans q1, hu ▸ q2, t4.trans q3, ?_, fun h => (hfrom h).trans (fromL1_writeHome h _ _),
      fun h => by cases h⟩
    funext k; rw [q5, hsame]; rfl
  | relst x =>
    obtain ⟨q1, q2, q3, q5, -⟩ := writeHome_spec (bytes := leBytes 8 (src64 s q .int x).toNat) hd1 (hu ▸ t3) hk hn (by
      rw [hw]; simp [leBytes])
    refine ⟨_, by simp only [objectOne, e], t2.trans q1, hu ▸ q2, t4.trans q3, ?_,
      fun h => (hfrom h).trans (fromL1_writeHome h _ _), fun h => by cases h⟩
    funext k; rw [q5, hsame]; rfl

theorem Discarded.from {s t r : State} {core ctx obj : Nat} (h : Discarded s core ctx obj t) (hf : FromL1 t r) : Discarded s core ctx obj r := by
  intro x hx hc hs i g hg ho
  obtain ⟨y, hy, a, b, c, d, e⟩ := hf x hx
  obtain ⟨p, q⟩ := h y hy (a ▸ hc) (d ▸ hs) i g hg ho
  exact ⟨fun hcx => by rw [c]; exact p (b ▸ hcx), by rw [e]; exact q⟩

/-- Events of lanes of one unit on their objects, one after the other (R87, R224). -/
theorem object_fold {s : State} {iss : Issue} {q : LaneRef} {sp : Space} {ea : LaneRef → Int} {core : Nat} {u : Bool} (op : ObjOp)
    (hc : (unitOf s q.u).core = core) (l : List LaneRef) : ∀ (as : List (LaneRef × At)) (acc : List (LaneRef × Res)) (t : State),
    (∀ r ∈ l, r.u = q.u ∧ (keysOf s r sp (ea r) 8).Nodup) →
    List.Forall₂ (fun r p => p.1 = r ∧ Placed s r sp (ea r) 8 p.2) l as → Touched s t → t.cxl = [] → L1Agrees t core →
    (op.releases = false → KeepsMem s t) →
    ∃ t', as.foldl (fun (acc : List (LaneRef × Res) × State) p =>
        (acc.1 ++ [(p.1, res64 (BitVec.ofNat 64 (leNat (objectOne p.1 (opRef u iss p.1) p.2 op acc.2).1)))],
          (objectOne p.1 (opRef u iss p.1) p.2 op acc.2).2)) (acc, t) =
        (acc ++ (homeSeq (fun r => keysOf s r sp (ea r) 8) (fun r old => op.new s (opRef u iss r) old) l (byteUnder t q sp)).1.map fun p =>
          (p.1, res64 (BitVec.ofNat 64 (leNat p.2))), t') ∧ Touched s t' ∧ t'.cxl = [] ∧ L1Agrees t' core ∧
      SameTlbs t t' ∧
      (∀ k, byteUnder t' q sp k = (homeSeq (fun r => keysOf s r sp (ea r) 8) (fun r old => op.new s (opRef u iss r) old) l (byteUnder t q sp)).2 k) ∧
      (sp.cached = true → (∀ r ∈ l, WidePages s (unitOf s r.u).ctx (ea r).toNat 8) → FromL1 t t' ∧
        (op.releases = false → ∀ r ∈ l, Discarded s core (unitOf s q.u).ctx (ea r).toNat t')) := by
  induction l with
  | nil =>
    intro as acc t _ h ht hd h1 _
    cases h
    exact ⟨t, by simp [homeSeq], ht, hd, h1, .refl t, fun _ => rfl, fun _ _ => ⟨.refl t, by simp⟩⟩
  | cons r l ih =>
    intro as acc t hl h ht hd h1 hkm
    cases h with
    | @cons _ p _ as h2 h3 =>
    obtain ⟨hp, hpl⟩ := h2
    obtain ⟨p1, a⟩ := p
    obtain rfl : p1 = r := hp
    obtain ⟨hu, hn⟩ := hl p1 (by simp)
    have hun : ∀ u : Nat, unitOf t u = unitOf s u := fun u => ht.keeps (fun s => unitOf s u) fun _ _ _ _ _ _ _ _ _ _ _ _ _ _ _ _ _ => rfl
    have hcore : (unitOf t p1.u).core = core := by rw [hun, hu, hc]
    have hkl : (keysOf s p1 sp (ea p1) 8).length = 8 := by simp [keysOf]
    obtain ⟨t1, e, q1, q2, q3, q5, q6, q7⟩ := objectOne_spec (s := t) (r := p1) (q := opRef u iss p1) op hd (hcore ▸ h1)
      (placed_keys hpl) hn hkl
    have hnew : op.new t (opRef u iss p1) = op.new s (opRef u iss p1) :=
      ht.keeps (fun s => op.new s (opRef u iss p1)) fun _ _ _ _ _ _ _ _ _ _ _ _ _ _ _ _ _ => rfl
    have hbu : byteUnder t p1 sp = byteUnder t q sp := funext fun k => byteUnder_unit hu sp k
    have hd1 : t1.cxl = [] := (q1.keeps (·.cxl) fun _ _ _ _ _ _ _ _ _ _ _ _ _ _ _ _ _ => rfl).trans hd
    obtain ⟨t2, e2, r1, r2, r3, r4, r6, r7⟩ := ih as
      (acc ++ [(p1, res64 (BitVec.ofNat 64 (leNat ((keysOf s p1 sp (ea p1) 8).map (byteUnder t p1 sp)))))]) t1
      (fun x hx => hl x (by simp [hx])) h3 (ht.trans q1) hd1 (hcore ▸ q2) (fun h => (hkm h).trans (q7 h).1)
    have hview : byteUnder t1 q sp = viewWith (byteUnder t q sp) (keysOf s p1 sp (ea p1) 8)
        (op.new s (opRef u iss p1) ((keysOf s p1 sp (ea p1) 8).map (byteUnder t q sp))) := by
      rw [← hbu, ← hnew, ← q5]
      exact funext fun k => (byteUnder_unit hu sp k).symm
    rw [hview] at e2 r6
    refine ⟨t2, ?_, r1, r2, r3, q3.trans r4, fun k => ?_, fun hcd hwd => ?_⟩
    · rw [List.foldl_cons]
      simp only [e]
      rw [e2, hbu]
      simp [homeSeq]
    · rw [r6]; rfl
    · obtain ⟨s1, s2⟩ := r7 hcd fun x hx => hwd x (by simp [hx])
      rcases placed_space hpl with ⟨rfl, -⟩ | ⟨rfl, -⟩ | ⟨-, hh, rfl, -, hwd'⟩
      · cases hcd
      · cases hcd
      · have hloc := hwd' (by omega) (hwd p1 (by simp))
        have haw : (At.mem (ea p1).toNat hh).wide = true := by simp [At.wide, hloc]
        refine ⟨(q6 haw).trans s1, fun hrel x hx => ?_⟩
        rcases List.mem_cons.mp hx with rfl | hx
        · have hd : Discarded t core (unitOf t x.u).ctx (ea x).toNat t1 := hcore ▸ (q7 hrel).2 _ hh rfl hloc
          rw [hun, hu] at hd
          exact (hd.before (ht.keeps (·.ctxs) fun _ _ _ _ _ _ _ _ _ _ _ _ _ _ _ _ _ => rfl) (hkm hrel)).from s1
        · exact s2 hrel x hx

theorem releaseLanes_spec (rs : List LaneRef) (s : State) : Touched s (releaseLanes rs s) ∧
    ∀ r sp k, byteUnder (releaseLanes rs s) r sp k = byteUnder s r sp k := by
  refine ⟨touched_iff.mpr ⟨_, _, _, _, _, _, _, _, _, _, _, _, _, _, _, _, rfl⟩, fun r sp k => ?_⟩
  have ho : ∀ (es : List WEntry) core p b, overlay (es.map fun e => if e.scope.isLocal && rs.contains e.lane then { e with released := true } else e) core p b =
      overlay es core p b := by
    intro es
    induction es with
    | nil => exact fun _ _ _ => rfl
    | cons e es ih =>
      intro core p b
      rw [List.map_cons, overlay_cons, overlay_cons, ih]
      split <;> rfl
  cases sp
  · exact ho ..
  · rfl
  · exact ho ..
  · rfl

/-- The instructions on objects, where every object is ready and a release has nothing to wait for (R40, R72, R87, R224). -/
theorem objectAll_spec {u : Bool} {sp : GS} {off : BitVec 24} {a : Opnd} (op : ObjOp) {s : State} {iss : Issue} (h : Runs s iss)
    (hc : Clear s iss.gang (gangRegs ((a, if sp.space.cached then 2 else 1) :: op.src.toList.map fun x => (x, 2)))
      (gangRegs (op.dst.toList.map fun x => (x, 2))))
    (hp : TlbsAgree s) (h1 : L1Agrees s (unitOf s iss.u).core) (hd : s.cxl = [])
    (hr : ∀ r ∈ actsFor u (commit iss s) iss,
      AtHome (commit iss s) r sp.space (eaOf (commit iss s) (opRef u iss r) sp.space a off 0 8) 8 op.releases op.reads)
    (hdr : op.releases = true → ∀ r ∈ issueLanes s iss, undrained (commit iss s) r = false) :
    let c0 := commit iss s
    let ea := fun r => eaOf c0 (opRef u iss r) sp.space a off 0 8
    let q := homeSeq (fun r => keysOf c0 r sp.space (ea r) 8) (fun r old => op.new c0 (opRef u iss r) old) (actsFor u c0 iss)
      (byteUnder c0 (uniRef iss) sp.space)
    ∃ s1, Touched c0 s1 ∧ (∀ k, byteUnder s1 (uniRef iss) sp.space k = q.2 k) ∧
      (sp.space.cached = true → op.releases = false →
        (∀ r ∈ actsFor u c0 iss, WidePages c0 (unitOf c0 iss.u).ctx (ea r).toNat 8) →
        ∀ r ∈ actsFor u c0 iss, Discarded c0 (unitOf s iss.u).core (unitOf s iss.u).ctx (ea r).toNat s1) ∧
      objectAll u sp off a op s = .next (advance iss (deliverOpt u iss op.dst
        (q.1.map fun p => (p.1, res64 (BitVec.ofNat 64 (leNat p.2)))) 2 s1)) := by
  obtain ⟨ha0, hb0, hd0⟩ := commit_looks iss s hp h1 hd
  have hlan : issueLanes (commit iss s) iss = issueLanes s iss := issueLanes_commit h.nodup s
  have hcore : (unitOf (commit iss s) iss.u).core = (unitOf s iss.u).core := core_commit iss s iss.u
  have hctx : (unitOf (commit iss s) iss.u).ctx = (unitOf s iss.u).ctx := ctx_commit iss s iss.u
  intro c0 ea q
  have hE' : ∀ r, eaOf c0 (opRef u iss r) sp.space a off 0 8 = ea r := fun r => rfl
  obtain ⟨L, hL⟩ : ∃ L, actsFor u c0 iss = L := ⟨_, rfl⟩
  have hLu : ∀ r ∈ L, r.u = iss.u := by
    intro r hr
    rw [← hL] at hr
    unfold actsFor at hr
    split at hr
    · split at hr
      · cases hr
      · rename_i heq
        have : r ∈ issueLanes c0 iss := by rw [heq]; simp at hr; simp [hr]
        exact (issueLanes_unit this).1
    · exact (issueLanes_unit hr).1
  have hrL : ∀ r ∈ L, AtHome c0 r sp.space (ea r) 8 op.releases op.reads := fun r h => hr r (hL ▸ h)
  obtain ⟨as, t, e, f2, l, at_, bt⟩ := checkAll_spec (write := op.releases) (n := 8) (wa := wordAddr (headThread s iss)) (align := 8)
    (sp := sp.space) (L.map fun r => (r, ea r)) c0 ha0 hb0 (by
      intro p hp
      obtain ⟨r, hr', rfl⟩ := List.mem_map.mp hp
      exact ⟨(hrL r hr').aligned, (hrL r hr').reach⟩)
  have e' : checkAll (if op.releases then .write else .read) 8 (wordAddr (headThread s iss)) 8 sp.space (L.map fun r => (r, ea r)) c0 =
      (as, [], t) := e
  have f3 : List.Forall₂ (fun r p => p.1 = r ∧ Placed c0 r sp.space (ea r) 8 p.2) L as := by
    rw [List.forall₂_map_left_iff] at f2; exact f2
  have hmem : ∀ p ∈ as, p.1 ∈ L ∧ Placed c0 p.1 sp.space (ea p.1) 8 p.2 := forall2_mem f3
  have hpoi : (if op.reads then as.filterMap (fun p => (poisonOf t iss.u (fun _ => false) p.2 8 (wordAddr (headThread s iss))).map fun f =>
      (p.1, f)) else []) = [] := by
    by_cases hrd : op.reads = true
    · rw [if_pos hrd, List.filterMap_eq_nil_iff]
      intro p hp
      obtain ⟨m1, m2⟩ := hmem p hp
      have := poisonOf_clean (own := fun _ => false) (wa := wordAddr (headThread s iss)) (placed_looks' l m2) (fun i hi => by
        rw [looks_keyOf l, looks_keyPoisoned l]; exact (hrL _ m1).clean hrd i hi)
      rw [hLu _ m1] at this
      rw [this]; rfl
    · rw [if_neg hrd]
  have hdrain : (op.releases && mustDrain t (releasers t iss)) = false := by
    by_cases hrel : op.releases = true
    · rw [hrel, Bool.true_and]
      unfold mustDrain releasers
      rw [List.any_eq_false, looks_issueLanes l, hlan]
      intro r hr
      have : undrained t r = undrained c0 r := l.keeps (fun s => undrained s r) fun _ _ _ _ _ _ _ _ _ => rfl
      rw [this, hdr hrel r hr]; simp
    · simp [Bool.not_eq_true _ ▸ hrel]
  obtain ⟨tr, htr⟩ : ∃ tr, (if op.releases then releaseLanes (releasers t iss) t else t) = tr := ⟨_, rfl⟩
  have htr1 : Touched t tr ∧ (∀ r sp k, byteUnder tr r sp k = byteUnder t r sp k) ∧ L1Agrees tr (unitOf s iss.u).core ∧
      (op.releases = false → tr = t) := by
    by_cases hrel : op.releases = true
    · rw [if_pos hrel] at htr
      subst htr
      obtain ⟨a, b⟩ := releaseLanes_spec (releasers t iss) t
      exact ⟨a, b, bt, fun h => by rw [h] at hrel; cases hrel⟩
    · rw [if_neg hrel] at htr
      subst htr
      exact ⟨.refl t, fun _ _ _ => rfl, bt, fun _ => rfl⟩
  obtain ⟨htr1, htr2, htr3, htr4⟩ := htr1
  obtain ⟨t', g1, g2, g3, g4, g5, g7, g8⟩ := object_fold (s := c0) (iss := iss) (q := uniRef iss) (sp := sp.space) (ea := ea)
    (core := (unitOf s iss.u).core) (u := u) op hcore L as [] tr (fun r hr => ⟨hLu r hr, keysOf_nodup (hrL r hr).reach (by
      have h1 := (hrL r hr).aligned
      have h2 := (hrL r hr).reach.1
      omega)⟩) f3 (l.touched.trans htr1) ((htr1.keeps (·.cxl) fun _ _ _ _ _ _ _ _ _ _ _ _ _ _ _ _ _ => rfl).trans
      ((l.keeps (·.cxl) fun _ _ _ _ _ _ _ _ _ => rfl).trans hd0)) htr3 (fun h => by rw [htr4 h]; exact l.keepsMem)
  have hview : byteUnder tr (uniRef iss) sp.space = byteUnder c0 (uniRef iss) sp.space := funext fun k =>
    (htr2 _ _ k).trans (looks_byteUnder l _ _ k)
  rw [hview] at g1 g7
  have hq : q = homeSeq (fun r => keysOf c0 r sp.space (ea r) 8) (fun r old => op.new c0 (opRef u iss r) old) L
      (byteUnder c0 (uniRef iss) sp.space) := by rw [← hL]
  rw [← hq] at g1 g7
  rw [List.nil_append] at g1
  refine ⟨t', g2, g7, fun hcd hrel hwd r hr => ?_, ?_⟩
  · rw [hL] at hwd hr
    have hx := (g8 hcd fun r hr => by rw [hLu r hr]; exact hwd r hr).2 hrel r hr
    rw [← hctx]; exact hx
  · have hloop : objectLoop u iss op as tr = (q.1.map fun p => (p.1, res64 (BitVec.ofNat 64 (leNat p.2))), t') := g1
    unfold objectAll
    rw [withIssue_clear h hc]
    simp only
    rw [show commit iss s = c0 from rfl, hL, e']
    simp only [hpoi, List.append_nil, List.find?_nil, filterMap_none', List.isEmpty_nil, Bool.not_true, Bool.false_eq_true, if_false, hdrain,
      htr, hloop]

end Sys2Proof.Machine
end

