-- ==== Sys2Proof/Laws/Encode.lean ====
section
/-! SUPPORT. The words of the instruction formats taken apart again (R111 to R127), and the pieces of a modifier field:
what the lemmas of Laws/PerInstr.lean cite instead of unfolding a word. -/

namespace Sys2Proof.Laws

/-! ### Words as numbers -/

theorem append_toNat {m n : Nat} (x : BitVec m) (y : BitVec n) : (x ++ y).toNat = x.toNat * 2 ^ n + y.toNat := by
  rw [BitVec.toNat_append, ← Nat.shiftLeft_add_eq_or_of_lt y.isLt, Nat.shiftLeft_eq]

theorem extract_toNat {n : Nat} (x : BitVec n) (lo len : Nat) : (x.extractLsb' lo len).toNat = x.toNat / 2 ^ lo % 2 ^ len := by
  rw [BitVec.extractLsb'_toNat, Nat.shiftRight_eq_div_pow]

theorem lsb_toNat {n : Nat} (x : BitVec n) (i : Nat) : x.getLsbD i = decide (x.toNat / 2 ^ i % 2 = 1) := by
  rw [BitVec.getLsbD, Nat.testBit_eq_decide_div_mod_eq]

theorem V_toNat (v : V) : (V.word v).toNat =
    (((((v.op.toNat * 2 + v.g.toNat) * 256 + v.d.toNat) * 256 + v.a.toNat) * 256 + v.b.toNat) * 256 + v.c.toNat) * 8388608 + v.mods.toNat := by
  show BitVec.toNat (w := 8 + 1 + 8 + 8 + 8 + 8 + 23) (v.op ++ BitVec.ofBool v.g ++ v.d ++ v.a ++ v.b ++ v.c ++ v.mods) = _
  simp only [append_toNat, BitVec.toNat_ofBool]; omega

theorem I_toNat (v : I) : (I.word v).toNat =
    ((((((v.op.toNat * 2 + v.g.toNat) * 256 + v.d.toNat) * 256 + v.a.toNat) * 2 + 1) * 64 + v.mods.toNat)) * 4294967296 + v.imm.toNat := by
  show BitVec.toNat (w := 8 + 1 + 8 + 8 + 1 + 6 + 32) (v.op ++ BitVec.ofBool v.g ++ v.d ++ v.a ++ (1 : BitVec 1) ++ v.mods ++ v.imm) = _
  simp only [append_toNat, BitVec.toNat_ofBool]; rfl

theorem M_toNat (v : M) : (M.word v).toNat =
    (((((((v.op.toNat * 2 + v.g.toNat) * 256 + v.d.toNat) * 256 + v.a.toNat) * 256 + v.b.toNat) * 4 + v.space.toNat) * 8 + v.width.toNat) * 4
      + v.hint.toNat) * 16777216 + v.off.toNat := by
  show BitVec.toNat (w := 8 + 1 + 8 + 8 + 8 + 2 + 3 + 2 + 24)
    (v.op ++ BitVec.ofBool v.g ++ v.d ++ v.a ++ v.b ++ v.space ++ v.width ++ v.hint ++ v.off) = _
  simp only [append_toNat, BitVec.toNat_ofBool]; omega

theorem T_toNat (v : T) : (T.word v).toNat =
    (((v.op.toNat * 2 + v.g.toNat) * 65536 + v.h.toNat) * 128 + v.l.toNat) * 4294967296 + v.target.toNat := by
  show BitVec.toNat (w := 8 + 1 + 16 + 7 + 32) (v.op ++ BitVec.ofBool v.g ++ v.h ++ v.l ++ v.target) = _
  simp only [append_toNat, BitVec.toNat_ofBool]; omega

theorem X_toNat (v : X) : (X.word v).toNat =
    (((((((v.op.toNat * 2 + v.g.toNat) * 256 + v.d.toNat) * 256 + v.a.toNat) * 256 + v.b.toNat) * 64 + v.ga.toNat) * 64 + v.gb.toNat) * 64
      + v.gc.toNat) * 8192 + v.mods.toNat := by
  show BitVec.toNat (w := 8 + 1 + 8 + 8 + 8 + 6 + 6 + 6 + 13)
    (v.op ++ BitVec.ofBool v.g ++ v.d ++ v.a ++ v.b ++ v.ga ++ v.gb ++ v.gc ++ v.mods) = _
  simp only [append_toNat, BitVec.toNat_ofBool]; omega

/-! ### The fields of a word -/

theorem V_of (v : V) : V.of (V.word v) = v := by
  have h := V_toNat v
  obtain ⟨op, g, d, a, b, c, mods⟩ := v
  have hg : g.toNat ≤ 1 := by cases g <;> decide
  have := op.isLt; have := d.isLt; have := a.isLt; have := b.isLt; have := c.isLt; have := mods.isLt
  simp only at h
  rw [V.of, V.mk.injEq]
  refine ⟨?_, ?_, ?_, ?_, ?_, ?_, ?_⟩
  case refine_2 => rw [lsb_toNat, h]; cases g <;> simp <;> omega
  all_goals (apply BitVec.eq_of_toNat_eq; rw [extract_toNat, h]; omega)

theorem I_of (v : I) : I.of (I.word v) = v := by
  have h := I_toNat v
  obtain ⟨op, g, d, a, mods, imm⟩ := v
  have hg : g.toNat ≤ 1 := by cases g <;> decide
  have := op.isLt; have := d.isLt; have := a.isLt; have := mods.isLt; have := imm.isLt
  simp only at h
  rw [I.of, I.mk.injEq]
  refine ⟨?_, ?_, ?_, ?_, ?_, ?_⟩
  case refine_2 => rw [lsb_toNat, h]; cases g <;> simp <;> omega
  all_goals (apply BitVec.eq_of_toNat_eq; rw [extract_toNat, h]; omega)

theorem M_of (v : M) : M.of (M.word v) = v := by
  have h := M_toNat v
  obtain ⟨op, g, d, a, b, space, width, hint, off⟩ := v
  have hg : g.toNat ≤ 1 := by cases g <;> decide
  have := op.isLt; have := d.isLt; have := a.isLt; have := b.isLt; have := space.isLt; have := width.isLt
  have := hint.isLt; have := off.isLt
  simp only at h
  rw [M.of, M.mk.injEq]
  refine ⟨?_, ?_, ?_, ?_, ?_, ?_, ?_, ?_, ?_⟩
  case refine_2 => rw [lsb_toNat, h]; cases g <;> simp <;> omega
  all_goals (apply BitVec.eq_of_toNat_eq; rw [extract_toNat, h]; omega)

theorem T_of (v : T) : T.of (T.word v) = v := by
  have h := T_toNat v
  obtain ⟨op, g, hh, l, target⟩ := v
  have hg : g.toNat ≤ 1 := by cases g <;> decide
  have := op.isLt; have := hh.isLt; have := l.isLt; have := target.isLt
  simp only at h
  rw [T.of, T.mk.injEq]
  refine ⟨?_, ?_, ?_, ?_, ?_⟩
  case refine_2 => rw [lsb_toNat, h]; cases g <;> simp <;> omega
  all_goals (apply BitVec.eq_of_toNat_eq; rw [extract_toNat, h]; omega)

theorem X_of (v : X) : X.of (X.word v) = v := by
  have h := X_toNat v
  obtain ⟨op, g, d, a, b, ga, gb, gc, mods⟩ := v
  have hg : g.toNat ≤ 1 := by cases g <;> decide
  have := op.isLt; have := d.isLt; have := a.isLt; have := b.isLt; have := ga.isLt; have := gb.isLt
  have := gc.isLt; have := mods.isLt
  simp only at h
  rw [X.of, X.mk.injEq]
  refine ⟨?_, ?_, ?_, ?_, ?_, ?_, ?_, ?_, ?_⟩
  case refine_2 => rw [lsb_toNat, h]; cases g <;> simp <;> omega
  all_goals (apply BitVec.eq_of_toNat_eq; rw [extract_toNat, h]; omega)

/-! ### The opcode of a word, and its form bit -/

/-- The opcode's upper and lower nibble: bits 63 to 60 and 59 to 56 (R110). -/
theorem op_nibbles (w : DWord) (op : BitVec 8) (h : w.extractLsb' 56 8 = op) :
    (w.extractLsb' 60 4).toNat = op.toNat / 16 ∧ (w.extractLsb' 56 4).toNat = op.toNat % 16 := by
  subst h
  simp only [extract_toNat]
  omega

theorem V_op (v : V) : (V.word v).extractLsb' 56 8 = v.op := congrArg V.op (V_of v)
theorem I_op (v : I) : (I.word v).extractLsb' 56 8 = v.op := congrArg I.op (I_of v)
theorem M_op (v : M) : (M.word v).extractLsb' 56 8 = v.op := congrArg M.op (M_of v)
theorem T_op (v : T) : (T.word v).extractLsb' 56 8 = v.op := congrArg T.op (T_of v)
theorem X_op (v : X) : (X.word v).extractLsb' 56 8 = v.op := congrArg X.op (X_of v)


/-- The form bit of an I word is 1 (R112). -/
theorem I_form (v : I) : (I.word v).getLsbD 38 = true := by
  have h := I_toNat v
  have := v.mods.isLt; have := v.imm.isLt
  rw [lsb_toNat, h, decide_eq_true_iff]; omega

/-- The form bit of a V word is the upper bit of its B field (R112). -/
theorem V_form (v : V) : (V.word v).getLsbD 38 = v.b.getLsbD 7 := by
  have h := V_toNat v
  have := v.c.isLt; have := v.mods.isLt; have := v.b.isLt
  rw [lsb_toNat, lsb_toNat, h, decide_eq_decide]; omega

/-- Bit 17 of a V word is bit 17 of its modifiers (R133). -/
theorem V_bit17 (v : V) : (V.word v).getLsbD 17 = v.mods.getLsbD 17 := by
  have h := V_toNat v
  have := v.mods.isLt
  rw [lsb_toNat, lsb_toNat, h, decide_eq_decide]; omega

/-! ### The row of the opcode map that a word falls in (R131) -/

theorem row0 (w : DWord) (op : BitVec 8) (lo : Nat) (h : w.extractLsb' 56 8 = op) (hn : op.toNat / 16 = 0x0 ∧ op.toNat % 16 = lo) :
    decodeWord w = decodeRow0 lo w := by
  simp only [decodeWord, op_nibbles w op h, hn]

theorem row1 (w : DWord) (op : BitVec 8) (lo : Nat) (h : w.extractLsb' 56 8 = op) (hn : op.toNat / 16 = 0x1 ∧ op.toNat % 16 = lo) :
    decodeWord w = decodeRow1 lo w := by
  simp only [decodeWord, op_nibbles w op h, hn]

theorem row2 (w : DWord) (op : BitVec 8) (lo : Nat) (h : w.extractLsb' 56 8 = op) (hn : op.toNat / 16 = 0x2 ∧ op.toNat % 16 = lo) :
    decodeWord w = decodeRow2 lo w := by
  simp only [decodeWord, op_nibbles w op h, hn]

theorem row3 (w : DWord) (op : BitVec 8) (lo : Nat) (h : w.extractLsb' 56 8 = op) (hn : op.toNat / 16 = 0x3 ∧ op.toNat % 16 = lo) :
    decodeWord w = decodeRow3 lo w := by
  simp only [decodeWord, op_nibbles w op h, hn]

theorem row4 (w : DWord) (op : BitVec 8) (lo : Nat) (h : w.extractLsb' 56 8 = op) (hn : op.toNat / 16 = 0x4 ∧ op.toNat % 16 = lo) :
    decodeWord w = decodeRow4 lo w := by
  simp only [decodeWord, op_nibbles w op h, hn]

theorem row6 (w : DWord) (op : BitVec 8) (lo : Nat) (h : w.extractLsb' 56 8 = op) (hn : op.toNat / 16 = 0x6 ∧ op.toNat % 16 = lo) :
    decodeWord w = decodeRow6 lo w := by
  simp only [decodeWord, op_nibbles w op h, hn]

theorem row7 (w : DWord) (op : BitVec 8) (lo : Nat) (h : w.extractLsb' 56 8 = op) (hn : op.toNat / 16 = 0x7 ∧ op.toNat % 16 = lo) :
    decodeWord w = decodeRow7 lo w := by
  simp only [decodeWord, op_nibbles w op h, hn]

theorem row8 (w : DWord) (op : BitVec 8) (lo : Nat) (h : w.extractLsb' 56 8 = op) (hn : op.toNat / 16 = 0x8 ∧ op.toNat % 16 = lo) :
    decodeWord w = decodeRow8 lo w := by
  simp only [decodeWord, op_nibbles w op h, hn]

theorem row9 (w : DWord) (op : BitVec 8) (lo : Nat) (h : w.extractLsb' 56 8 = op) (hn : op.toNat / 16 = 0x9 ∧ op.toNat % 16 = lo) :
    decodeWord w = decodeRow9 lo w := by
  simp only [decodeWord, op_nibbles w op h, hn]

theorem rowA (w : DWord) (op : BitVec 8) (lo : Nat) (h : w.extractLsb' 56 8 = op) (hn : op.toNat / 16 = 0xA ∧ op.toNat % 16 = lo) :
    decodeWord w = decodeRowA lo w := by
  simp only [decodeWord, op_nibbles w op h, hn]

theorem rowB (w : DWord) (op : BitVec 8) (lo : Nat) (h : w.extractLsb' 56 8 = op) (hn : op.toNat / 16 = 0xB ∧ op.toNat % 16 = lo) :
    decodeWord w = decodeRowB lo w := by
  simp only [decodeWord, op_nibbles w op h, hn]

theorem rowC (w : DWord) (op : BitVec 8) (lo : Nat) (h : w.extractLsb' 56 8 = op) (hn : op.toNat / 16 = 0xC ∧ op.toNat % 16 = lo) :
    decodeWord w = decodeRowC lo w := by
  simp only [decodeWord, op_nibbles w op h, hn]

theorem rowD (w : DWord) (op : BitVec 8) (lo : Nat) (h : w.extractLsb' 56 8 = op) (hn : op.toNat / 16 = 0xD ∧ op.toNat % 16 = lo) :
    decodeWord w = decodeRowD lo w := by
  simp only [decodeWord, op_nibbles w op h, hn]

theorem rowE (w : DWord) (op : BitVec 8) (lo : Nat) (h : w.extractLsb' 56 8 = op) (hn : op.toNat / 16 = 0xE ∧ op.toNat % 16 = lo) :
    decodeWord w = decodeRowE lo w := by
  simp only [decodeWord, op_nibbles w op h, hn]

/-! ### Operand codes -/

theorem code_of (o : Opnd) : Opnd.of o.code = some o := by
  cases o with
  | slot n => revert n; decide
  | echo n => revert n; decide
  | zero => rfl
  | const n => revert n; decide
  | gang n => revert n; decide

theorem operand_code (o : Opnd) (k : Opnd → Except Bad Instr) : operand o.code k = k o := by rw [operand, code_of]

/-- No operand code has its upper bit set, so no V word passes for an I word (R112, R113). -/
theorem code_top (o : Opnd) : o.code.getLsbD 7 = false := by
  cases o with
  | slot n => revert n; decide
  | echo n => revert n; decide
  | zero => rfl
  | const n => revert n; decide
  | gang n => revert n; decide

theorem code_zero (o : Opnd) : (o.code = 0x24) = (o = .zero) := by
  refine propext ⟨fun h => ?_, fun h => by rw [h]; rfl⟩
  have := code_of o
  rw [h] at this
  exact (Option.some.inj this).symm

/-! ### Field values -/

theorem round_of (x : Round) : Round.of x.bits = some x := by cases x <;> rfl
theorem cond_of (x : Cond) : Cond.of x.bits = some x := by cases x <;> rfl
theorem alu_of (x : AluOp) : AluOp.of x.bits = some x := by cases x <;> rfl
theorem space_of (x : Space) : Space.of x.bits = some x := by cases x <;> rfl
theorem width_of (x : Width) : Width.of x.bits = some x := by cases x <;> rfl
theorem hint_of (x : Hint) : Hint.of x.bits = some x := by cases x <;> rfl
theorem pk_of (x : PkType) : PkType.of x.bits = some x := by cases x <;> rfl
theorem ftype_of (x : FType) : FType.of x.bits = some x := by cases x <;> rfl
theorem iwidth_of (x : IWidth) : IWidth.of x.bits = some x := by cases x <;> rfl
theorem xmode_of (x : XMode) : XMode.of x.bits = some x := by cases x <;> rfl
theorem vmode_of (x : VMode) : VMode.of x.bits = some x := by cases x <;> rfl
theorem path_of (x : APath) : APath.of x.bits = some x := by cases x <;> rfl
theorem gs_of (x : GS) : GS.of x.bits = some x := by cases x <;> rfl
theorem cw_of (x : CWidth) : CWidth.of x.bits = some x := by cases x <;> rfl
theorem vw_of (x : VWidth) : VWidth.of x.bits = some x := by cases x <;> rfl
theorem part_of (x : RowPart) : RowPart.of x.bits = some x := by cases x <;> rfl
theorem role_of (x : Role) : Role.of x.bits = some x := by cases x <;> rfl
theorem sreg_of (x : SReg) : SReg.of x.bits = some x := by cases x <;> rfl

theorem val_some {α : Type} (x : α) (k : α → Except Bad Instr) : val (some x) k = k x := rfl
theorem need_true (k : Except Bad Instr) : need true k = k := rfl
theorem opnd_true (k : Except Bad Instr) : opnd true k = k := rfl
theorem accept_wf (i : Instr) (h : i.wf = true) : accept i = .ok i := by rw [accept, if_pos h]

/-! ### The pieces of a modifier field -/

/-- A field read from several pieces. -/
theorem read_or {n : Nat} (x y : BitVec n) (lo len : Nat) :
    (x ||| y).extractLsb' lo len = x.extractLsb' lo len ||| y.extractLsb' lo len := by
  refine BitVec.eq_of_getLsbD_eq fun i hi => ?_
  simp [BitVec.getLsbD_or, *]

/-- A piece read where it was placed. -/
theorem read_same {n m : Nat} (x : BitVec m) (k : Nat) (h : k + m ≤ n) : ((x.setWidth n) <<< k).extractLsb' k m = x := by
  refine BitVec.eq_of_getLsbD_eq fun i hi => ?_
  simp only [BitVec.getLsbD_extractLsb', BitVec.getLsbD_shiftLeft, BitVec.getLsbD_setWidth]
  have h1 : k + i < n := by omega
  have h2 : ¬ k + i < k := by omega
  have h3 : k + i - k = i := by omega
  have h4 : i < n := by omega
  simp [h1, h2, h3, h4, hi]

/-- A piece read beside its place. -/
theorem read_apart {n m : Nat} (x : BitVec m) (k lo len : Nat) (h : lo + len ≤ k ∨ k + m ≤ lo) :
    ((x.setWidth n) <<< k).extractLsb' lo len = 0#len := by
  refine BitVec.eq_of_getLsbD_eq fun i hi => ?_
  simp only [BitVec.getLsbD_extractLsb', BitVec.getLsbD_shiftLeft, BitVec.getLsbD_setWidth, BitVec.getLsbD_zero]
  rcases h with h | h
  · have : lo + i < k := by omega
    simp [this]
  · have : x.getLsbD (lo + i - k) = false := BitVec.getLsbD_of_ge x _ (by omega)
    simp [this]

/-- A single bit read from several pieces. -/
theorem bit_or {n : Nat} (x y : BitVec n) (i : Nat) : (x ||| y).getLsbD i = (x.getLsbD i || y.getLsbD i) := BitVec.getLsbD_or

/-- A single bit read where it was placed. -/
theorem bit_same {n : Nat} (b : Bool) (k : Nat) (h : k < n) : (((BitVec.ofBool b).setWidth n) <<< k).getLsbD k = b := by
  simp only [BitVec.getLsbD_shiftLeft, BitVec.getLsbD_setWidth]
  have h2 : k - k < n := by omega
  cases b <;> simp [h]; omega

/-- A single bit read beside a piece. -/
theorem bit_apart {n m : Nat} (x : BitVec m) (k i : Nat) (h : i < k ∨ k + m ≤ i) : ((x.setWidth n) <<< k).getLsbD i = false := by
  simp only [BitVec.getLsbD_shiftLeft, BitVec.getLsbD_setWidth]
  rcases h with h | h
  · simp [h]
  · have : x.getLsbD (i - k) = false := BitVec.getLsbD_of_ge x _ (by omega)
    simp [this]

/-- The reserved bits of several pieces. -/
theorem mask_or {n : Nat} (x y c : BitVec n) : (x ||| y) &&& c = (x &&& c) ||| (y &&& c) := by
  refine BitVec.eq_of_getLsbD_eq fun i hi => ?_
  simp [Bool.and_or_distrib_right]

/-- A piece has no bit in a mask that leaves its place out. -/
theorem mask_apart {n m : Nat} (x : BitVec m) (k : Nat) (c : BitVec n) (h : c.extractLsb' k m = 0#m) :
    ((x.setWidth n) <<< k) &&& c = 0#n := by
  refine BitVec.eq_of_getLsbD_eq fun i hi => ?_
  simp only [BitVec.getLsbD_and, BitVec.getLsbD_shiftLeft, BitVec.getLsbD_setWidth, BitVec.getLsbD_zero]
  by_cases hk : i < k
  · simp [hk]
  by_cases hm : i - k < m
  · have := congrArg (fun y => BitVec.getLsbD y (i - k)) h
    simp only [BitVec.getLsbD_extractLsb', BitVec.getLsbD_zero] at this
    have e : k + (i - k) = i := by omega
    rw [e] at this
    simp [hm] at this
    simp [this]
  · have : x.getLsbD (i - k) = false := BitVec.getLsbD_of_ge x _ (by omega)
    simp [this]

/-- A narrow field in a wider place reads back. -/
theorem low_same {n m : Nat} (x : BitVec m) (h : m ≤ n) : (x.setWidth n).extractLsb' 0 m = x := by
  refine BitVec.eq_of_getLsbD_eq fun i hi => ?_
  have : i < n := by omega
  simp [hi, this]

theorem low_apart {n m : Nat} (x : BitVec m) (lo len : Nat) (h : m ≤ lo) : (x.setWidth n).extractLsb' lo len = 0#len := by
  refine BitVec.eq_of_getLsbD_eq fun i hi => ?_
  have : x.getLsbD (lo + i) = false := BitVec.getLsbD_of_ge x _ (by omega)
  simp [BitVec.getLsbD_extractLsb', BitVec.getLsbD_setWidth, this]

/-- A TENDI or CALLI slot number (R125). -/
theorem target_slot (x : BitVec 5) : (((x.setWidth 32) <<< 24).extractLsb' 24 8).toNat < 32 := by revert x; decide

/-- The code of a gang register (R113). -/
theorem gang_code (x : BitVec 6) : 64 ≤ (0x40 + x.setWidth 8 : BitVec 8).toNat ∧ (0x40 + x.setWidth 8 : BitVec 8).toNat < 128 ∧
    (0x40 + x.setWidth 8 : BitVec 8).extractLsb' 0 6 = x := by revert x; decide

theorem slot_lt (x : BitVec 5) : (x.setWidth 8).toNat < 32 := by revert x; decide
theorem or_zero_r {n : Nat} (x : BitVec n) : x ||| 0#n = x := BitVec.or_zero
theorem or_zero_l {n : Nat} (x : BitVec n) : 0#n ||| x = x := BitVec.zero_or

end Sys2Proof.Laws
end

