-- ==== Sys2Proof/Laws/Exec.lean ====
section
/-! SUPPORT. What `exec` runs for each constructor. -/

namespace Sys2Proof.Machine

theorem exec_nop (σ : State) : exec (.nop) σ = execNop σ := rfl
theorem exec_trace (stages : BitVec 6) (guards : BitVec 4) (σ : State) : exec (.trace stages guards) σ = execTrace stages guards σ := rfl
theorem exec_stg (d : BitVec 5) (n : BitVec 8) (k1 : BitVec 5) (σ : State) : exec (.stg d n k1) σ = execStg d n k1 σ := rfl
theorem exec_wbind (d : BitVec 5) (n : BitVec 8) (k1 : BitVec 5) (σ : State) : exec (.wbind d n k1) σ = execWbind d n k1 σ := rfl
theorem exec_guard (z : Bool) (g : BitVec 3) (a : Opnd) (σ : State) : exec (.guard z g a) σ = execGuard z g a σ := rfl
theorem exec_settle (σ : State) : exec (.settle) σ = execSettle σ := rfl
theorem exec_tend (tok : BitVec 16) (off : BitVec 32) (σ : State) : exec (.tend tok off) σ = execTend tok off σ := rfl
theorem exec_tendi (tok : BitVec 16) (a : BitVec 5) (σ : State) : exec (.tendi tok a) σ = execTendi tok a σ := rfl
theorem exec_call (tok : BitVec 16) (off : BitVec 32) (σ : State) : exec (.call tok off) σ = execCall tok off σ := rfl
theorem exec_calli (tok : BitVec 16) (a : BitVec 5) (σ : State) : exec (.calli tok a) σ = execCalli tok a σ := rfl
theorem exec_ret (tok : BitVec 16) (σ : State) : exec (.ret tok) σ = execRet tok σ := rfl
theorem exec_merge (tok : BitVec 16) (σ : State) : exec (.merge tok) σ = execMerge tok σ := rfl
theorem exec_regang (σ : State) : exec (.regang) σ = execRegang σ := rfl
theorem exec_exit (σ : State) : exec (.exit) σ = execExit σ := rfl
theorem exec_yield (σ : State) : exec (.yield) σ = execYield σ := rfl
theorem exec_trap (imm : BitVec 32) (σ : State) : exec (.trap imm) σ = execTrap imm σ := rfl
theorem exec_bkpt (code : BitVec 16) (σ : State) : exec (.bkpt code) σ = execBkpt code σ := rfl
theorem exec_iadd (u : Bool) (sat : Bool) (d : Opnd) (a : Opnd) (b : Opnd) (σ : State) :
    exec (.iadd u sat d a b) σ = execIadd u sat d a b σ := rfl
theorem exec_iaddI (u : Bool) (sat : Bool) (d : Opnd) (a : Opnd) (imm : BitVec 32) (σ : State) :
    exec (.iaddI u sat d a imm) σ = execIaddI u sat d a imm σ := rfl
theorem exec_isub (u : Bool) (sat : Bool) (d : Opnd) (a : Opnd) (b : Opnd) (σ : State) :
    exec (.isub u sat d a b) σ = execIsub u sat d a b σ := rfl
theorem exec_isubI (u : Bool) (sat : Bool) (d : Opnd) (a : Opnd) (imm : BitVec 32) (σ : State) :
    exec (.isubI u sat d a imm) σ = execIsubI u sat d a imm σ := rfl
theorem exec_iaddc (u : Bool) (d : Opnd) (a : Opnd) (b : Opnd) (c : Opnd) (σ : State) :
    exec (.iaddc u d a b c) σ = execIaddc u d a b c σ := rfl
theorem exec_isubb (u : Bool) (d : Opnd) (a : Opnd) (b : Opnd) (c : Opnd) (σ : State) :
    exec (.isubb u d a b c) σ = execIsubb u d a b c σ := rfl
theorem exec_iadd64 (u : Bool) (d : Opnd) (a : Opnd) (b : Opnd) (σ : State) : exec (.iadd64 u d a b) σ = execIadd64 u d a b σ := rfl
theorem exec_iadd64I (u : Bool) (d : Opnd) (a : Opnd) (imm : BitVec 32) (σ : State) :
    exec (.iadd64I u d a imm) σ = execIadd64I u d a imm σ := rfl
theorem exec_isub64 (u : Bool) (d : Opnd) (a : Opnd) (b : Opnd) (σ : State) : exec (.isub64 u d a b) σ = execIsub64 u d a b σ := rfl
theorem exec_isub64I (u : Bool) (d : Opnd) (a : Opnd) (imm : BitVec 32) (σ : State) :
    exec (.isub64I u d a imm) σ = execIsub64I u d a imm σ := rfl
theorem exec_imul (u : Bool) (sat : Bool) (d : Opnd) (a : Opnd) (b : Opnd) (σ : State) :
    exec (.imul u sat d a b) σ = execImul u sat d a b σ := rfl
theorem exec_imulI (u : Bool) (sat : Bool) (d : Opnd) (a : Opnd) (imm : BitVec 32) (σ : State) :
    exec (.imulI u sat d a imm) σ = execImulI u sat d a imm σ := rfl
theorem exec_imulh (u : Bool) (d : Opnd) (a : Opnd) (b : Opnd) (σ : State) : exec (.imulh u d a b) σ = execImulh u d a b σ := rfl
theorem exec_imulhI (u : Bool) (d : Opnd) (a : Opnd) (imm : BitVec 32) (σ : State) :
    exec (.imulhI u d a imm) σ = execImulhI u d a imm σ := rfl
theorem exec_imulhu (u : Bool) (d : Opnd) (a : Opnd) (b : Opnd) (σ : State) : exec (.imulhu u d a b) σ = execImulhu u d a b σ := rfl
theorem exec_imulhuI (u : Bool) (d : Opnd) (a : Opnd) (imm : BitVec 32) (σ : State) :
    exec (.imulhuI u d a imm) σ = execImulhuI u d a imm σ := rfl
theorem exec_imad (u : Bool) (sat : Bool) (d : Opnd) (a : Opnd) (b : Opnd) (c : Opnd) (σ : State) :
    exec (.imad u sat d a b c) σ = execImad u sat d a b c σ := rfl
theorem exec_imad64 (u : Bool) (zx : Bool) (d : Opnd) (a : Opnd) (b : Opnd) (c : Opnd) (σ : State) :
    exec (.imad64 u zx d a b c) σ = execImad64 u zx d a b c σ := rfl
theorem exec_divs (u : Bool) (d : Opnd) (a : Opnd) (b : Opnd) (σ : State) : exec (.divs u d a b) σ = execDivs u d a b σ := rfl
theorem exec_divsI (u : Bool) (d : Opnd) (a : Opnd) (imm : BitVec 32) (σ : State) : exec (.divsI u d a imm) σ = execDivsI u d a imm σ := rfl
theorem exec_divu (u : Bool) (d : Opnd) (a : Opnd) (b : Opnd) (σ : State) : exec (.divu u d a b) σ = execDivu u d a b σ := rfl
theorem exec_divuI (u : Bool) (d : Opnd) (a : Opnd) (imm : BitVec 32) (σ : State) : exec (.divuI u d a imm) σ = execDivuI u d a imm σ := rfl
theorem exec_rems (u : Bool) (d : Opnd) (a : Opnd) (b : Opnd) (σ : State) : exec (.rems u d a b) σ = execRems u d a b σ := rfl
theorem exec_remsI (u : Bool) (d : Opnd) (a : Opnd) (imm : BitVec 32) (σ : State) : exec (.remsI u d a imm) σ = execRemsI u d a imm σ := rfl
theorem exec_remu (u : Bool) (d : Opnd) (a : Opnd) (b : Opnd) (σ : State) : exec (.remu u d a b) σ = execRemu u d a b σ := rfl
theorem exec_remuI (u : Bool) (d : Opnd) (a : Opnd) (imm : BitVec 32) (σ : State) : exec (.remuI u d a imm) σ = execRemuI u d a imm σ := rfl
theorem exec_iabs (u : Bool) (sat : Bool) (d : Opnd) (a : Opnd) (σ : State) : exec (.iabs u sat d a) σ = execIabs u sat d a σ := rfl
theorem exec_ineg (u : Bool) (sat : Bool) (d : Opnd) (a : Opnd) (σ : State) : exec (.ineg u sat d a) σ = execIneg u sat d a σ := rfl
theorem exec_imin (u : Bool) (d : Opnd) (a : Opnd) (b : Opnd) (σ : State) : exec (.imin u d a b) σ = execImin u d a b σ := rfl
theorem exec_iminI (u : Bool) (d : Opnd) (a : Opnd) (imm : BitVec 32) (σ : State) : exec (.iminI u d a imm) σ = execIminI u d a imm σ := rfl
theorem exec_imax (u : Bool) (d : Opnd) (a : Opnd) (b : Opnd) (σ : State) : exec (.imax u d a b) σ = execImax u d a b σ := rfl
theorem exec_imaxI (u : Bool) (d : Opnd) (a : Opnd) (imm : BitVec 32) (σ : State) : exec (.imaxI u d a imm) σ = execImaxI u d a imm σ := rfl
theorem exec_iminu (u : Bool) (d : Opnd) (a : Opnd) (b : Opnd) (σ : State) : exec (.iminu u d a b) σ = execIminu u d a b σ := rfl
theorem exec_iminuI (u : Bool) (d : Opnd) (a : Opnd) (imm : BitVec 32) (σ : State) :
    exec (.iminuI u d a imm) σ = execIminuI u d a imm σ := rfl
theorem exec_imaxu (u : Bool) (d : Opnd) (a : Opnd) (b : Opnd) (σ : State) : exec (.imaxu u d a b) σ = execImaxu u d a b σ := rfl
theorem exec_imaxuI (u : Bool) (d : Opnd) (a : Opnd) (imm : BitVec 32) (σ : State) :
    exec (.imaxuI u d a imm) σ = execImaxuI u d a imm σ := rfl
theorem exec_isat (u : Bool) (zx : Bool) (d : Opnd) (a : Opnd) (b : Opnd) (σ : State) :
    exec (.isat u zx d a b) σ = execIsat u zx d a b σ := rfl
theorem exec_isatI (u : Bool) (zx : Bool) (d : Opnd) (a : Opnd) (imm : BitVec 32) (σ : State) :
    exec (.isatI u zx d a imm) σ = execIsatI u zx d a imm σ := rfl
theorem exec_icmp (u : Bool) (cond : Cond) (dbl : Bool) (d : Opnd) (a : Opnd) (b : Opnd) (σ : State) :
    exec (.icmp u cond dbl d a b) σ = execIcmp u cond dbl d a b σ := rfl
theorem exec_icmpI (u : Bool) (cond : Cond) (dbl : Bool) (d : Opnd) (a : Opnd) (imm : BitVec 32) (σ : State) :
    exec (.icmpI u cond dbl d a imm) σ = execIcmpI u cond dbl d a imm σ := rfl
theorem exec_sel (u : Bool) (d : Opnd) (a : Opnd) (b : Opnd) (c : Opnd) (σ : State) : exec (.sel u d a b c) σ = execSel u d a b c σ := rfl
theorem exec_and (u : Bool) (d : Opnd) (a : Opnd) (b : Opnd) (σ : State) : exec (.and u d a b) σ = execAnd u d a b σ := rfl
theorem exec_andI (u : Bool) (d : Opnd) (a : Opnd) (imm : BitVec 32) (σ : State) : exec (.andI u d a imm) σ = execAndI u d a imm σ := rfl
theorem exec_or (u : Bool) (d : Opnd) (a : Opnd) (b : Opnd) (σ : State) : exec (.or u d a b) σ = execOr u d a b σ := rfl
theorem exec_orI (u : Bool) (d : Opnd) (a : Opnd) (imm : BitVec 32) (σ : State) : exec (.orI u d a imm) σ = execOrI u d a imm σ := rfl
theorem exec_xor (u : Bool) (d : Opnd) (a : Opnd) (b : Opnd) (σ : State) : exec (.xor u d a b) σ = execXor u d a b σ := rfl
theorem exec_xorI (u : Bool) (d : Opnd) (a : Opnd) (imm : BitVec 32) (σ : State) : exec (.xorI u d a imm) σ = execXorI u d a imm σ := rfl
theorem exec_andn (u : Bool) (d : Opnd) (a : Opnd) (b : Opnd) (σ : State) : exec (.andn u d a b) σ = execAndn u d a b σ := rfl
theorem exec_andnI (u : Bool) (d : Opnd) (a : Opnd) (imm : BitVec 32) (σ : State) : exec (.andnI u d a imm) σ = execAndnI u d a imm σ := rfl
theorem exec_not (u : Bool) (d : Opnd) (a : Opnd) (σ : State) : exec (.not u d a) σ = execNot u d a σ := rfl
theorem exec_shl (u : Bool) (d : Opnd) (a : Opnd) (b : Opnd) (σ : State) : exec (.shl u d a b) σ = execShl u d a b σ := rfl
theorem exec_shlI (u : Bool) (d : Opnd) (a : Opnd) (imm : BitVec 32) (σ : State) : exec (.shlI u d a imm) σ = execShlI u d a imm σ := rfl
theorem exec_shr (u : Bool) (d : Opnd) (a : Opnd) (b : Opnd) (σ : State) : exec (.shr u d a b) σ = execShr u d a b σ := rfl
theorem exec_shrI (u : Bool) (d : Opnd) (a : Opnd) (imm : BitVec 32) (σ : State) : exec (.shrI u d a imm) σ = execShrI u d a imm σ := rfl
theorem exec_sar (u : Bool) (d : Opnd) (a : Opnd) (b : Opnd) (σ : State) : exec (.sar u d a b) σ = execSar u d a b σ := rfl
theorem exec_sarI (u : Bool) (d : Opnd) (a : Opnd) (imm : BitVec 32) (σ : State) : exec (.sarI u d a imm) σ = execSarI u d a imm σ := rfl
theorem exec_shf (u : Bool) (left : Bool) (d : Opnd) (a : Opnd) (b : Opnd) (c : Opnd) (σ : State) :
    exec (.shf u left d a b c) σ = execShf u left d a b c σ := rfl
theorem exec_bfx (u : Bool) (d : Opnd) (a : Opnd) (b : Opnd) (c : Opnd) (σ : State) : exec (.bfx u d a b c) σ = execBfx u d a b c σ := rfl
theorem exec_bfxu (u : Bool) (d : Opnd) (a : Opnd) (b : Opnd) (c : Opnd) (σ : State) :
    exec (.bfxu u d a b c) σ = execBfxu u d a b c σ := rfl
theorem exec_bfi (u : Bool) (d : Opnd) (a : Opnd) (b : Opnd) (c : Opnd) (σ : State) : exec (.bfi u d a b c) σ = execBfi u d a b c σ := rfl
theorem exec_popc (u : Bool) (d : Opnd) (a : Opnd) (σ : State) : exec (.popc u d a) σ = execPopc u d a σ := rfl
theorem exec_clz (u : Bool) (d : Opnd) (a : Opnd) (σ : State) : exec (.clz u d a) σ = execClz u d a σ := rfl
theorem exec_ctz (u : Bool) (d : Opnd) (a : Opnd) (σ : State) : exec (.ctz u d a) σ = execCtz u d a σ := rfl
theorem exec_brev (u : Bool) (d : Opnd) (a : Opnd) (σ : State) : exec (.brev u d a) σ = execBrev u d a σ := rfl
theorem exec_bysel (u : Bool) (d : Opnd) (a : Opnd) (b : Opnd) (c : Opnd) (σ : State) :
    exec (.bysel u d a b c) σ = execBysel u d a b c σ := rfl
theorem exec_lea (u : Bool) (k : BitVec 3) (zx : Bool) (d : Opnd) (a : Opnd) (b : Opnd) (σ : State) :
    exec (.lea u k zx d a b) σ = execLea u k zx d a b σ := rfl
theorem exec_movi (u : Bool) (d : Opnd) (imm : BitVec 32) (σ : State) : exec (.movi u d imm) σ = execMovi u d imm σ := rfl
theorem exec_mov (u : Bool) (dbl : Bool) (d : Opnd) (a : Opnd) (σ : State) : exec (.mov u dbl d a) σ = execMov u dbl d a σ := rfl
theorem exec_fadd (u : Bool) (rm : Round) (ftz : Bool) (d : Opnd) (a : Opnd) (b : Opnd) (σ : State) :
    exec (.fadd u rm ftz d a b) σ = execFadd u rm ftz d a b σ := rfl
theorem exec_faddI (u : Bool) (rm : Round) (ftz : Bool) (d : Opnd) (a : Opnd) (imm : BitVec 32) (σ : State) :
    exec (.faddI u rm ftz d a imm) σ = execFaddI u rm ftz d a imm σ := rfl
theorem exec_fsub (u : Bool) (rm : Round) (ftz : Bool) (d : Opnd) (a : Opnd) (b : Opnd) (σ : State) :
    exec (.fsub u rm ftz d a b) σ = execFsub u rm ftz d a b σ := rfl
theorem exec_fsubI (u : Bool) (rm : Round) (ftz : Bool) (d : Opnd) (a : Opnd) (imm : BitVec 32) (σ : State) :
    exec (.fsubI u rm ftz d a imm) σ = execFsubI u rm ftz d a imm σ := rfl
theorem exec_fmul (u : Bool) (rm : Round) (ftz : Bool) (d : Opnd) (a : Opnd) (b : Opnd) (σ : State) :
    exec (.fmul u rm ftz d a b) σ = execFmul u rm ftz d a b σ := rfl
theorem exec_fmulI (u : Bool) (rm : Round) (ftz : Bool) (d : Opnd) (a : Opnd) (imm : BitVec 32) (σ : State) :
    exec (.fmulI u rm ftz d a imm) σ = execFmulI u rm ftz d a imm σ := rfl
theorem exec_ffma (u : Bool) (rm : Round) (ftz : Bool) (d : Opnd) (a : Opnd) (b : Opnd) (c : Opnd) (σ : State) :
    exec (.ffma u rm ftz d a b c) σ = execFfma u rm ftz d a b c σ := rfl
theorem exec_fmin (u : Bool) (ftz : Bool) (d : Opnd) (a : Opnd) (b : Opnd) (σ : State) :
    exec (.fmin u ftz d a b) σ = execFmin u ftz d a b σ := rfl
theorem exec_fminI (u : Bool) (ftz : Bool) (d : Opnd) (a : Opnd) (imm : BitVec 32) (σ : State) :
    exec (.fminI u ftz d a imm) σ = execFminI u ftz d a imm σ := rfl
theorem exec_fmax (u : Bool) (ftz : Bool) (d : Opnd) (a : Opnd) (b : Opnd) (σ : State) :
    exec (.fmax u ftz d a b) σ = execFmax u ftz d a b σ := rfl
theorem exec_fmaxI (u : Bool) (ftz : Bool) (d : Opnd) (a : Opnd) (imm : BitVec 32) (σ : State) :
    exec (.fmaxI u ftz d a imm) σ = execFmaxI u ftz d a imm σ := rfl
theorem exec_fcmp (u : Bool) (cond : Cond) (ftz : Bool) (d : Opnd) (a : Opnd) (b : Opnd) (σ : State) :
    exec (.fcmp u cond ftz d a b) σ = execFcmp u cond ftz d a b σ := rfl
theorem exec_fcmpI (u : Bool) (cond : Cond) (ftz : Bool) (d : Opnd) (a : Opnd) (imm : BitVec 32) (σ : State) :
    exec (.fcmpI u cond ftz d a imm) σ = execFcmpI u cond ftz d a imm σ := rfl
theorem exec_frcp (ftz : Bool) (d : Opnd) (a : Opnd) (σ : State) : exec (.frcp ftz d a) σ = execFrcp ftz d a σ := rfl
theorem exec_frsq (ftz : Bool) (d : Opnd) (a : Opnd) (σ : State) : exec (.frsq ftz d a) σ = execFrsq ftz d a σ := rfl
theorem exec_fsqrt (ftz : Bool) (d : Opnd) (a : Opnd) (σ : State) : exec (.fsqrt ftz d a) σ = execFsqrt ftz d a σ := rfl
theorem exec_fexp2 (ftz : Bool) (d : Opnd) (a : Opnd) (σ : State) : exec (.fexp2 ftz d a) σ = execFexp2 ftz d a σ := rfl
theorem exec_flog2 (ftz : Bool) (d : Opnd) (a : Opnd) (σ : State) : exec (.flog2 ftz d a) σ = execFlog2 ftz d a σ := rfl
theorem exec_fsin (ftz : Bool) (d : Opnd) (a : Opnd) (σ : State) : exec (.fsin ftz d a) σ = execFsin ftz d a σ := rfl
theorem exec_fcos (ftz : Bool) (d : Opnd) (a : Opnd) (σ : State) : exec (.fcos ftz d a) σ = execFcos ftz d a σ := rfl
theorem exec_frnd (rm : Round) (ftz : Bool) (d : Opnd) (a : Opnd) (σ : State) : exec (.frnd rm ftz d a) σ = execFrnd rm ftz d a σ := rfl
theorem exec_fclass (ftz : Bool) (d : Opnd) (a : Opnd) (σ : State) : exec (.fclass ftz d a) σ = execFclass ftz d a σ := rfl
theorem exec_pkadd (ty : PkType) (rm : Round) (ftz : Bool) (d : Opnd) (a : Opnd) (b : Opnd) (σ : State) :
    exec (.pkadd ty rm ftz d a b) σ = execPkadd ty rm ftz d a b σ := rfl
theorem exec_pkaddI (ty : PkType) (rm : Round) (ftz : Bool) (d : Opnd) (a : Opnd) (imm : BitVec 32) (σ : State) :
    exec (.pkaddI ty rm ftz d a imm) σ = execPkaddI ty rm ftz d a imm σ := rfl
theorem exec_pkmul (ty : PkType) (rm : Round) (ftz : Bool) (d : Opnd) (a : Opnd) (b : Opnd) (σ : State) :
    exec (.pkmul ty rm ftz d a b) σ = execPkmul ty rm ftz d a b σ := rfl
theorem exec_pkmulI (ty : PkType) (rm : Round) (ftz : Bool) (d : Opnd) (a : Opnd) (imm : BitVec 32) (σ : State) :
    exec (.pkmulI ty rm ftz d a imm) σ = execPkmulI ty rm ftz d a imm σ := rfl
theorem exec_pkfma (ty : PkType) (rm : Round) (ftz : Bool) (d : Opnd) (a : Opnd) (b : Opnd) (c : Opnd) (σ : State) :
    exec (.pkfma ty rm ftz d a b c) σ = execPkfma ty rm ftz d a b c σ := rfl
theorem exec_dadd (rm : Round) (ftz : Bool) (d : Opnd) (a : Opnd) (b : Opnd) (σ : State) :
    exec (.dadd rm ftz d a b) σ = execDadd rm ftz d a b σ := rfl
theorem exec_daddI (rm : Round) (ftz : Bool) (d : Opnd) (a : Opnd) (imm : BitVec 32) (σ : State) :
    exec (.daddI rm ftz d a imm) σ = execDaddI rm ftz d a imm σ := rfl
theorem exec_dsub (rm : Round) (ftz : Bool) (d : Opnd) (a : Opnd) (b : Opnd) (σ : State) :
    exec (.dsub rm ftz d a b) σ = execDsub rm ftz d a b σ := rfl
theorem exec_dsubI (rm : Round) (ftz : Bool) (d : Opnd) (a : Opnd) (imm : BitVec 32) (σ : State) :
    exec (.dsubI rm ftz d a imm) σ = execDsubI rm ftz d a imm σ := rfl
theorem exec_dmul (rm : Round) (ftz : Bool) (d : Opnd) (a : Opnd) (b : Opnd) (σ : State) :
    exec (.dmul rm ftz d a b) σ = execDmul rm ftz d a b σ := rfl
theorem exec_dmulI (rm : Round) (ftz : Bool) (d : Opnd) (a : Opnd) (imm : BitVec 32) (σ : State) :
    exec (.dmulI rm ftz d a imm) σ = execDmulI rm ftz d a imm σ := rfl
theorem exec_dfma (rm : Round) (ftz : Bool) (d : Opnd) (a : Opnd) (b : Opnd) (c : Opnd) (σ : State) :
    exec (.dfma rm ftz d a b c) σ = execDfma rm ftz d a b c σ := rfl
theorem exec_dmin (ftz : Bool) (d : Opnd) (a : Opnd) (b : Opnd) (σ : State) : exec (.dmin ftz d a b) σ = execDmin ftz d a b σ := rfl
theorem exec_dminI (ftz : Bool) (d : Opnd) (a : Opnd) (imm : BitVec 32) (σ : State) :
    exec (.dminI ftz d a imm) σ = execDminI ftz d a imm σ := rfl
theorem exec_dmax (ftz : Bool) (d : Opnd) (a : Opnd) (b : Opnd) (σ : State) : exec (.dmax ftz d a b) σ = execDmax ftz d a b σ := rfl
theorem exec_dmaxI (ftz : Bool) (d : Opnd) (a : Opnd) (imm : BitVec 32) (σ : State) :
    exec (.dmaxI ftz d a imm) σ = execDmaxI ftz d a imm σ := rfl
theorem exec_dcmp (cond : Cond) (ftz : Bool) (d : Opnd) (a : Opnd) (b : Opnd) (σ : State) :
    exec (.dcmp cond ftz d a b) σ = execDcmp cond ftz d a b σ := rfl
theorem exec_dcmpI (cond : Cond) (ftz : Bool) (d : Opnd) (a : Opnd) (imm : BitVec 32) (σ : State) :
    exec (.dcmpI cond ftz d a imm) σ = execDcmpI cond ftz d a imm σ := rfl
theorem exec_drcp (ftz : Bool) (d : Opnd) (a : Opnd) (σ : State) : exec (.drcp ftz d a) σ = execDrcp ftz d a σ := rfl
theorem exec_drsq (ftz : Bool) (d : Opnd) (a : Opnd) (σ : State) : exec (.drsq ftz d a) σ = execDrsq ftz d a σ := rfl
theorem exec_cvtif (u : Bool) (ft : FType) (uns : Bool) (iw : IWidth) (rm : Round) (d : Opnd) (a : Opnd) (σ : State) :
    exec (.cvtif u ft uns iw rm d a) σ = execCvtif u ft uns iw rm d a σ := rfl
theorem exec_cvtfi (u : Bool) (uns : Bool) (iw : IWidth) (ft : FType) (rm : Round) (ftz : Bool) (d : Opnd) (a : Opnd) (σ : State) :
    exec (.cvtfi u uns iw ft rm ftz d a) σ = execCvtfi u uns iw ft rm ftz d a σ := rfl
theorem exec_cvtff (ftd : FType) (fta : FType) (rm : Round) (ftz : Bool) (d : Opnd) (a : Opnd) (σ : State) :
    exec (.cvtff ftd fta rm ftz d a) σ = execCvtff ftd fta rm ftz d a σ := rfl
theorem exec_cvtii (u : Bool) (wd : IWidth) (ud : Bool) (wa : IWidth) (ua : Bool) (sat : Bool) (d : Opnd) (a : Opnd) (σ : State) :
    exec (.cvtii u wd ud wa ua sat d a) σ = execCvtii u wd ud wa ua sat d a σ := rfl
theorem exec_packh (ty : PkType) (rm : Round) (ftz : Bool) (d : Opnd) (a : Opnd) (b : Opnd) (σ : State) :
    exec (.packh ty rm ftz d a b) σ = execPackh ty rm ftz d a b σ := rfl
theorem exec_unpkh (ty : PkType) (hi : Bool) (d : Opnd) (a : Opnd) (σ : State) : exec (.unpkh ty hi d a) σ = execUnpkh ty hi d a σ := rfl
theorem exec_xlane (mode : XMode) (dbl : Bool) (d : Opnd) (a : Opnd) (b : Opnd) (σ : State) :
    exec (.xlane mode dbl d a b) σ = execXlane mode dbl d a b σ := rfl
theorem exec_vote (mode : VMode) (d : Opnd) (a : Opnd) (σ : State) : exec (.vote mode d a) σ = execVote mode d a σ := rfl
theorem exec_gredux (op : AluOp) (d : Opnd) (a : Opnd) (σ : State) : exec (.gredux op d a) σ = execGredux op d a σ := rfl
theorem exec_scan (op : AluOp) (ex : Bool) (seg : Bool) (d : Opnd) (a : Opnd) (b : Opnd) (σ : State) :
    exec (.scan op ex seg d a b) σ = execScan op ex seg d a b σ := rfl
theorem exec_ld (sp : Space) (w : Width) (hint : Hint) (off : BitVec 24) (d : Opnd) (a : Opnd) (σ : State) :
    exec (.ld sp w hint off d a) σ = execLd sp w hint off d a σ := rfl
theorem exec_st (sp : Space) (w : Width) (hint : Hint) (off : BitVec 24) (s : Opnd) (a : Opnd) (σ : State) :
    exec (.st sp w hint off s a) σ = execSt sp w hint off s a σ := rfl
theorem exec_gather (sp : Space) (w : Width) (hint : Hint) (off : BitVec 24) (d : Opnd) (a : Opnd) (i : Opnd) (σ : State) :
    exec (.gather sp w hint off d a i) σ = execGather sp w hint off d a i σ := rfl
theorem exec_scatter (sp : Space) (w : Width) (hint : Hint) (off : BitVec 24) (s : Opnd) (a : Opnd) (i : Opnd) (σ : State) :
    exec (.scatter sp w hint off s a i) σ = execScatter sp w hint off s a i σ := rfl
theorem exec_scatterAdd (sp : GS) (w : Width) (op : AluOp) (hint : Hint) (a : Opnd) (i : Opnd) (c : Opnd) (σ : State) :
    exec (.scatterAdd sp w op hint a i c) σ = execScatterAdd sp w op hint a i c σ := rfl
theorem exec_atom (u : Bool) (sp : GS) (w : Width) (op : AluOp) (hint : Hint) (d : Opnd) (a : Opnd) (b : Opnd) (c : Opnd) (σ : State) :
    exec (.atom u sp w op hint d a b c) σ = execAtom u sp w op hint d a b c σ := rfl
theorem exec_red (u : Bool) (sp : GS) (w : Width) (op : AluOp) (hint : Hint) (a : Opnd) (b : Opnd) (σ : State) :
    exec (.red u sp w op hint a b) σ = execRed u sp w op hint a b σ := rfl
theorem exec_acq (u : Bool) (sp : GS) (hint : Hint) (off : BitVec 24) (a : Opnd) (σ : State) :
    exec (.acq u sp hint off a) σ = execAcq u sp hint off a σ := rfl
theorem exec_rel (u : Bool) (sp : GS) (hint : Hint) (off : BitVec 24) (a : Opnd) (σ : State) :
    exec (.rel u sp hint off a) σ = execRel u sp hint off a σ := rfl
theorem exec_acqld (u : Bool) (sp : GS) (hint : Hint) (off : BitVec 24) (d : Opnd) (a : Opnd) (σ : State) :
    exec (.acqld u sp hint off d a) σ = execAcqld u sp hint off d a σ := rfl
theorem exec_relst (u : Bool) (sp : GS) (hint : Hint) (off : BitVec 24) (s : Opnd) (a : Opnd) (σ : State) :
    exec (.relst u sp hint off s a) σ = execRelst u sp hint off s a σ := rfl
theorem exec_fence (σ : State) : exec (.fence) σ = execFence σ := rfl
theorem exec_xfence (p : APath) (q : APath) (σ : State) : exec (.xfence p q) σ = execXfence p q σ := rfl
theorem exec_bind (d : Opnd) (a : Opnd) (b : Opnd) (c : Opnd) (σ : State) : exec (.bind d a b c) σ = execBind d a b c σ := rfl
theorem exec_unbind (d : Opnd) (a : Opnd) (σ : State) : exec (.unbind d a) σ = execUnbind d a σ := rfl
theorem exec_pref (w : Width) (hint : Hint) (off : BitVec 24) (a : Opnd) (i : Opnd) (σ : State) :
    exec (.pref w hint off a i) σ = execPref w hint off a i σ := rfl
theorem exec_spill (sp : Space) (hint : Hint) (off : BitVec 24) (n : BitVec 8) (k1 : BitVec 5) (a : Opnd) (σ : State) :
    exec (.spill sp hint off n k1 a) σ = execSpill sp hint off n k1 a σ := rfl
theorem exec_fill (sp : Space) (hint : Hint) (off : BitVec 24) (n : BitVec 8) (k1 : BitVec 5) (a : Opnd) (σ : State) :
    exec (.fill sp hint off n k1 a) σ = execFill sp hint off n k1 a σ := rfl
theorem exec_cpy (tag : BitVec 3) (lk : Bool) (n1 : BitVec 5) (dsp : GS) (ssp : GS) (hint : Hint) (d : Opnd) (a : Opnd) (b : Opnd) (σ : State) :
    exec (.cpy tag lk n1 dsp ssp hint d a b) σ = execCpy tag lk n1 dsp ssp hint d a b σ := rfl
theorem exec_cpy2d (tag : BitVec 3) (lk : Bool) (dsp : GS) (ssp : GS) (hint : Hint) (d : Opnd) (a : Opnd) (b : Opnd) (ga : BitVec 6) (gb : BitVec 6) (gc : BitVec 6) (σ : State) :
    exec (.cpy2d tag lk dsp ssp hint d a b ga gb gc) σ = execCpy2d tag lk dsp ssp hint d a b ga gb gc σ := rfl
theorem exec_cseal (tag : BitVec 3) (d : BitVec 6) (σ : State) : exec (.cseal tag d) σ = execCseal tag d σ := rfl
theorem exec_cdec (tag : BitVec 3) (hint : Hint) (d : Opnd) (a : Opnd) (ga : BitVec 6) (gb : BitVec 6) (σ : State) :
    exec (.cdec tag hint d a ga gb) σ = execCdec tag hint d a ga gb σ := rfl
theorem exec_fopen (k : BitVec 3) (cw : CWidth) (vw : VWidth) (a : Opnd) (b : Opnd) (c : Opnd) (σ : State) :
    exec (.fopen k cw vw a b c) σ = execFopen k cw vw a b c σ := rfl
theorem exec_fnext (k : BitVec 3) (dbl : Bool) (hint : Hint) (d : Opnd) (c : Opnd) (σ : State) :
    exec (.fnext k dbl hint d c) σ = execFnext k dbl hint d c σ := rfl
theorem exec_ftest (k : BitVec 3) (d : Opnd) (σ : State) : exec (.ftest k d) σ = execFtest k d σ := rfl
theorem exec_fclose (k : BitVec 3) (σ : State) : exec (.fclose k) σ = execFclose k σ := rfl
theorem exec_orsv (d : Opnd) (ga : BitVec 6) (σ : State) : exec (.orsv d ga) σ = execOrsv d ga σ := rfl
theorem exec_orls (d : Opnd) (ga : BitVec 6) (σ : State) : exec (.orls d ga) σ = execOrls d ga σ := rfl
theorem exec_mgath (p : RowPart) (a : Opnd) (σ : State) : exec (.mgath p a) σ = execMgath p a σ := rfl
theorem exec_mma (spf : Bool) (co : Bool) (x : Opnd) (b : Opnd) (o : Opnd) (ga : BitVec 6) (gb : BitVec 6) (gc : BitVec 6) (σ : State) :
    exec (.mma spf co x b o ga gb gc) σ = execMma spf co x b o ga gb gc σ := rfl
theorem exec_mmap (spf : Bool) (t : BitVec 8) (x : Opnd) (b : Opnd) (o : Opnd) (ga : BitVec 6) (gb : BitVec 6) (gc : BitVec 6) (σ : State) :
    exec (.mmap spf t x b o ga gb gc) σ = execMmap spf t x b o ga gb gc σ := rfl
theorem exec_guide (d : Opnd) (o : Opnd) (ga : BitVec 6) (gb : BitVec 6) (gc : BitVec 6) (σ : State) :
    exec (.guide d o ga gb gc) σ = execGuide d o ga gb gc σ := rfl
theorem exec_mzero (o : Opnd) (ga : BitVec 6) (gb : BitVec 6) (σ : State) : exec (.mzero o ga gb) σ = execMzero o ga gb σ := rfl
theorem exec_mst (sp : GS) (bf : Bool) (hint : Hint) (a : Opnd) (o : Opnd) (ga : BitVec 6) (gb : BitVec 6) (gc : BitVec 6) (σ : State) :
    exec (.mst sp bf hint a o ga gb gc) σ = execMst sp bf hint a o ga gb gc σ := rfl
theorem exec_mld (sp : GS) (bf : Bool) (hint : Hint) (a : Opnd) (o : Opnd) (ga : BitVec 6) (gb : BitVec 6) (gc : BitVec 6) (σ : State) :
    exec (.mld sp bf hint a o ga gb gc) σ = execMld sp bf hint a o ga gb gc σ := rfl
theorem exec_mspsel (d : Opnd) (a : Opnd) (x : Opnd) (ga : BitVec 6) (gb : BitVec 6) (σ : State) :
    exec (.mspsel d a x ga gb) σ = execMspsel d a x ga gb σ := rfl
theorem exec_spst (sp : GS) (hint : Hint) (a : Opnd) (o : Opnd) (ga : BitVec 6) (gb : BitVec 6) (σ : State) :
    exec (.spst sp hint a o ga gb) σ = execSpst sp hint a o ga gb σ := rfl
theorem exec_mclaim (σ : State) : exec (.mclaim) σ = execMclaim σ := rfl
theorem exec_mpass (ga : BitVec 6) (σ : State) : exec (.mpass ga) σ = execMpass ga σ := rfl
theorem exec_recruit (d : Opnd) (w : BitVec 5) (k1 : BitVec 3) (n : BitVec 7) (off : BitVec 32) (σ : State) :
    exec (.recruit d w k1 n off) σ = execRecruit d w k1 n off σ := rfl
theorem exec_hread (d : Opnd) (i : BitVec 7) (σ : State) : exec (.hread d i) σ = execHread d i σ := rfl
theorem exec_hret (op : AluOp) (a : Opnd) (σ : State) : exec (.hret op a) σ = execHret op a σ := rfl
theorem exec_hend (σ : State) : exec (.hend) σ = execHend σ := rfl
theorem exec_join (nt : Bool) (d : Opnd) (m : Opnd) (c : Opnd) (σ : State) : exec (.join nt d m c) σ = execJoin nt d m c σ := rfl
theorem exec_dismiss (σ : State) : exec (.dismiss) σ = execDismiss σ := rfl
theorem exec_bar (b : BitVec 4) (a : Opnd) (σ : State) : exec (.bar b a) σ = execBar b a σ := rfl
theorem exec_barl (d : Opnd) (b : BitVec 4) (a : Opnd) (σ : State) : exec (.barl d b a) σ = execBarl d b a σ := rfl
theorem exec_arrive (b : BitVec 4) (a : Opnd) (σ : State) : exec (.arrive b a) σ = execArrive b a σ := rfl
theorem exec_mon (sp : GS) (off : BitVec 24) (a : Opnd) (σ : State) : exec (.mon sp off a) σ = execMon sp off a σ := rfl
theorem exec_waitmon (d : Opnd) (σ : State) : exec (.waitmon d) σ = execWaitmon d σ := rfl
theorem exec_qpush (u : Bool) (q : BitVec 6) (d : Opnd) (a : Opnd) (σ : State) : exec (.qpush u q d a) σ = execQpush u q d a σ := rfl
theorem exec_qpop (u : Bool) (q : BitVec 6) (d : Opnd) (s : Opnd) (σ : State) : exec (.qpop u q d s) σ = execQpop u q d s σ := rfl
theorem exec_qlen (u : Bool) (q : BitVec 6) (d : Opnd) (σ : State) : exec (.qlen u q d) σ = execQlen u q d σ := rfl
theorem exec_gets (u : Bool) (r : SReg) (d : Opnd) (σ : State) : exec (.gets u r d) σ = execGets u r d σ := rfl
theorem exec_sets (r : SReg) (a : Opnd) (σ : State) : exec (.sets r a) σ = execSets r a σ := rfl
theorem exec_role (r : Role) (σ : State) : exec (.role r) σ = execRole r σ := rfl
theorem exec_grow (n8 : BitVec 6) (d : Opnd) (σ : State) : exec (.grow n8 d) σ = execGrow n8 d σ := rfl
theorem exec_shrink (n8 : BitVec 6) (σ : State) : exec (.shrink n8) σ = execShrink n8 σ := rfl
theorem exec_guardedCommandResolution (id : Nat) (σ : State) :
    exec (.guardedCommandResolution id) σ = execGuardedCommandResolution id σ := rfl
theorem exec_copyCommandComplete (id : Nat) (σ : State) : exec (.copyCommandComplete id) σ = execCopyCommandComplete id σ := rfl
theorem exec_matrixEngineGrant (cluster : Nat) (σ : State) : exec (.matrixEngineGrant cluster) σ = execMatrixEngineGrant cluster σ := rfl
theorem exec_matrixCommandComplete (id : Nat) (σ : State) : exec (.matrixCommandComplete id) σ = execMatrixCommandComplete id σ := rfl
theorem exec_pairWaitExpiry (id : Nat) (σ : State) : exec (.pairWaitExpiry id) σ = execPairWaitExpiry id σ := rfl
theorem exec_cooperativeMatchTimeout (id : Nat) (σ : State) : exec (.cooperativeMatchTimeout id) σ = execCooperativeMatchTimeout id σ := rfl
theorem exec_growGrant (core : Nat) (σ : State) : exec (.growGrant core) σ = execGrowGrant core σ := rfl
theorem exec_growStuckDenial (core : Nat) (σ : State) : exec (.growStuckDenial core) σ = execGrowStuckDenial core σ := rfl
theorem exec_monitorEviction (core : Nat) (line : MonLine) (σ : State) :
    exec (.monitorEviction core line) σ = execMonitorEviction core line σ := rfl
theorem exec_waitmonTimerExpiry (t : ThreadId) (σ : State) : exec (.waitmonTimerExpiry t) σ = execWaitmonTimerExpiry t σ := rfl
theorem exec_sluiceRelease (u : Nat) (σ : State) : exec (.sluiceRelease u) σ = execSluiceRelease u σ := rfl
theorem exec_watchdogExpiry (u : Nat) (σ : State) : exec (.watchdogExpiry u) σ = execWatchdogExpiry u σ := rfl
theorem exec_trigger (ctx : Nat) (v : DWord) (σ : State) : exec (.trigger ctx v) σ = execTrigger ctx v σ := rfl
theorem exec_triggerBegin (ctx : Nat) (gid : Nat) (σ : State) : exec (.triggerBegin ctx gid) σ = execTriggerBegin ctx gid σ := rfl
theorem exec_gload (ctx : Nat) (v : DWord) (σ : State) : exec (.gload ctx v) σ = execGload ctx v σ := rfl
theorem exec_launchStart (gid : Nat) (node : Nat) (σ : State) : exec (.launchStart gid node) σ = execLaunchStart gid node σ := rfl
theorem exec_unitDispatch (launch : Nat) (idx : Nat) (core : Nat) (σ : State) :
    exec (.unitDispatch launch idx core) σ = execUnitDispatch launch idx core σ := rfl
theorem exec_unitDeschedule (u : Nat) (σ : State) : exec (.unitDeschedule u) σ = execUnitDeschedule u σ := rfl
theorem exec_quantumExpiry (u : Nat) (σ : State) : exec (.quantumExpiry u) σ = execQuantumExpiry u σ := rfl
theorem exec_cancelUnit (ctx : Nat) (v : DWord) (σ : State) : exec (.cancelUnit ctx v) σ = execCancelUnit ctx v σ := rfl
theorem exec_cancelLaunch (ctx : Nat) (v : DWord) (σ : State) : exec (.cancelLaunch ctx v) σ = execCancelLaunch ctx v σ := rfl
theorem exec_cancelGraph (ctx : Nat) (v : DWord) (σ : State) : exec (.cancelGraph ctx v) σ = execCancelGraph ctx v σ := rfl
theorem exec_cancelPhase (ctx : Nat) (v : DWord) (σ : State) : exec (.cancelPhase ctx v) σ = execCancelPhase ctx v σ := rfl
theorem exec_cancelJob (ctx : Nat) (v : DWord) (σ : State) : exec (.cancelJob ctx v) σ = execCancelJob ctx v σ := rfl
theorem exec_ctxcmdPreempt (ctx : Nat) (σ : State) : exec (.ctxcmdPreempt ctx) σ = execCtxcmdPreempt ctx σ := rfl
theorem exec_preemptSaveComplete (ctx : Nat) (σ : State) : exec (.preemptSaveComplete ctx) σ = execPreemptSaveComplete ctx σ := rfl
theorem exec_ctxcmdResume (ctx : Nat) (σ : State) : exec (.ctxcmdResume ctx) σ = execCtxcmdResume ctx σ := rfl
theorem exec_resumeComplete (ctx : Nat) (σ : State) : exec (.resumeComplete ctx) σ = execResumeComplete ctx σ := rfl
theorem exec_ctxcmdInval (ctx : Nat) (σ : State) : exec (.ctxcmdInval ctx) σ = execCtxcmdInval ctx σ := rfl
theorem exec_invalComplete (ctx : Nat) (σ : State) : exec (.invalComplete ctx) σ = execInvalComplete ctx σ := rfl
theorem exec_firmwarePageGrow (id : Nat) (σ : State) : exec (.firmwarePageGrow id) σ = execFirmwarePageGrow id σ := rfl
theorem exec_fcmdReplay (ctx : Nat) (v : DWord) (σ : State) : exec (.fcmdReplay ctx v) σ = execFcmdReplay ctx v σ := rfl
theorem exec_fcmdCancel (ctx : Nat) (v : DWord) (σ : State) : exec (.fcmdCancel ctx v) σ = execFcmdCancel ctx v σ := rfl
theorem exec_fcmdInvalid (ctx : Nat) (v : DWord) (σ : State) : exec (.fcmdInvalid ctx v) σ = execFcmdInvalid ctx v σ := rfl
theorem exec_fqtailWrite (ctx : Nat) (v : DWord) (σ : State) : exec (.fqtailWrite ctx v) σ = execFqtailWrite ctx v σ := rfl
theorem exec_softErrorCorrectable (t : SoftTarget) (σ : State) : exec (.softErrorCorrectable t) σ = execSoftErrorCorrectable t σ := rfl
theorem exec_softErrorUncorrectable (t : SoftTarget) (σ : State) :
    exec (.softErrorUncorrectable t) σ = execSoftErrorUncorrectable t σ := rfl
theorem exec_moduleLoad (ctx : Nat) (m : ModuleFile) (σ : State) : exec (.moduleLoad ctx m) σ = execModuleLoad ctx m σ := rfl
theorem exec_accessPerformed (core : Nat) (k : Nat) (σ : State) : exec (.accessPerformed core k) σ = execAccessPerformed core k σ := rfl
theorem exec_graphLoadComplete (ctx : Nat) (σ : State) : exec (.graphLoadComplete ctx) σ = execGraphLoadComplete ctx σ := rfl
theorem exec_carrBlockTransmit (link : Nat) (σ : State) : exec (.carrBlockTransmit link) σ = execCarrBlockTransmit link σ := rfl
theorem exec_carrctlEn (link : Nat) (on : Bool) (σ : State) : exec (.carrctlEn link on) σ = execCarrctlEn link on σ := rfl
theorem exec_carrctlRetrain (link : Nat) (σ : State) : exec (.carrctlRetrain link) σ = execCarrctlRetrain link σ := rfl
theorem exec_linkTrainingComplete (link : Nat) (lanes : BitVec 16) (peer : BitVec 16) (σ : State) :
    exec (.linkTrainingComplete link lanes peer) σ = execLinkTrainingComplete link lanes peer σ := rfl
theorem exec_linkTrainingTimeout (link : Nat) (σ : State) : exec (.linkTrainingTimeout link) σ = execLinkTrainingTimeout link σ := rfl
theorem exec_laneLoss (link : Nat) (lane : Nat) (σ : State) : exec (.laneLoss link lane) σ = execLaneLoss link lane σ := rfl
theorem exec_dataFlitReceive (link : Nat) (f : Flit) (op : RemoteOp) (σ : State) :
    exec (.dataFlitReceive link f op) σ = execDataFlitReceive link f op σ := rfl
theorem exec_idleFlitReceive (link : Nat) (f : Flit) (σ : State) : exec (.idleFlitReceive link f) σ = execIdleFlitReceive link f σ := rfl
theorem exec_nakFlitReceive (link : Nat) (f : Flit) (σ : State) : exec (.nakFlitReceive link f) σ = execNakFlitReceive link f σ := rfl
theorem exec_ackTimeoutResend (link : Nat) (σ : State) : exec (.ackTimeoutResend link) σ = execAckTimeoutResend link σ := rfl
theorem exec_linkCommandComplete (id : Nat) (n : Nat) (data : (List (Option (Byte × Bool)))) (σ : State) :
    exec (.linkCommandComplete id n data) σ = execLinkCommandComplete id n data σ := rfl
theorem exec_cxlCompletionTimeout (die : Nat) (σ : State) : exec (.cxlCompletionTimeout die) σ = execCxlCompletionTimeout die σ := rfl
theorem exec_pcieAtomicopReceived (addr : Nat) (σ : State) : exec (.pcieAtomicopReceived addr) σ = execPcieAtomicopReceived addr σ := rfl
theorem exec_boot (imgs : BootImages) (failed : (List Nat)) (σ : State) : exec (.boot imgs failed) σ = execBoot imgs failed σ := rfl
theorem exec_getMeasurements (index : MeasureReq) (σ : State) : exec (.getMeasurements index) σ = execGetMeasurements index σ := rfl
theorem exec_getCertificate (σ : State) : exec (.getCertificate) σ = execGetCertificate σ := rfl
theorem exec_negotiateAlgorithms (σ : State) : exec (.negotiateAlgorithms) σ = execNegotiateAlgorithms σ := rfl
theorem exec_challenge (nonce : (List Byte)) (σ : State) : exec (.challenge nonce) σ = execChallenge nonce σ := rfl
theorem exec_redfishRequest (r : Redfish) (σ : State) : exec (.redfishRequest r) σ = execRedfishRequest r σ := rfl
theorem exec_healthcmdAck (v : DWord) (σ : State) : exec (.healthcmdAck v) σ = execHealthcmdAck v σ := rfl
theorem exec_coreFence (core : Nat) (σ : State) : exec (.coreFence core) σ = execCoreFence core σ := rfl
theorem exec_channelDrain (ch : Nat) (σ : State) : exec (.channelDrain ch) σ = execChannelDrain ch σ := rfl
theorem exec_mgmtHeartbeatMiss (die : Nat) (σ : State) : exec (.mgmtHeartbeatMiss die) σ = execMgmtHeartbeatMiss die σ := rfl
theorem exec_thermalTrip (σ : State) : exec (.thermalTrip) σ = execThermalTrip σ := rfl
theorem exec_powerThrottle (σ : State) : exec (.powerThrottle) σ = execPowerThrottle σ := rfl
theorem exec_registerWrite (a : RegAddr) (v : DWord) (σ : State) : exec (.registerWrite a v) σ = execRegisterWrite a v σ := rfl
theorem exec_dieToDieLinkFailure (σ : State) : exec (.dieToDieLinkFailure) σ = execDieToDieLinkFailure σ := rfl
theorem exec_bootSecurityCoreFailure (σ : State) : exec (.bootSecurityCoreFailure) σ = execBootSecurityCoreFailure σ := rfl

end Sys2Proof.Machine
end

