-- ==== Sys2Proof/Laws/Flow.lean ====
section
/-! SUPPORT. Traces: what changes made key by key leave, staging, guards, settlement, and the head of a trace. -/

namespace Sys2Proof.Machine

/-! ### Changes key by key -/

/-- What changes made for keys one after the other, each of its own key only, leave of one key. -/
theorem foldl_keyed {κ α β : Type} [DecidableEq κ] (key : β → κ) (step : State → β → State) (obs : State → κ → α) (F : β → α → α)
    (hs : ∀ s b, obs (step s b) (key b) = F b (obs s (key b))) (hn : ∀ s b r, r ≠ key b → obs (step s b) r = obs s r)
    (l : List β) (hl : (l.map key).Nodup) (s : State) (r : κ) :
    (∀ b ∈ l, key b = r → obs (l.foldl step s) r = F b (obs s r)) ∧ (r ∉ l.map key → obs (l.foldl step s) r = obs s r) := by
  induction l generalizing s with
  | nil => simp
  | cons c l ih =>
    obtain ⟨h1, h2⟩ := List.nodup_cons.mp hl
    obtain ⟨i1, i2⟩ := ih h2 (step s c)
    constructor
    · intro b hb hk
      subst hk
      rcases List.mem_cons.mp hb with rfl | hb
      · rw [List.foldl_cons, i2 h1, hs]
      · rw [List.foldl_cons, i1 b hb rfl, hn]
        intro e; exact h1 (e ▸ List.mem_map_of_mem hb)
    · intro hr
      simp only [List.map_cons, List.mem_cons, not_or] at hr
      rw [List.foldl_cons, i2 hr.2, hn _ _ _ hr.1]

/-- A relation that every one of some changes keeps, all of them keep. -/
theorem foldl_rel {β : Type} (R : State → State → Prop) (hr : ∀ s, R s s) (ht : ∀ a b c, R a b → R b c → R a c) (step : State → β → State)
    (h : ∀ s b, R s (step s b)) (l : List β) (s : State) : R s (l.foldl step s) := by
  induction l generalizing s with
  | nil => exact hr s
  | cons b l ih => exact ht _ _ _ (h s b) (ih _)

/-! ### Held faults -/

theorem holdFault_rest (r : LaneRef) (f : Flt) (s : State) : holdFault r f s = { s with held := (holdFault r f s).held } := by
  unfold holdFault; split <;> rfl

theorem held_holdFault (r r' : LaneRef) (f : Flt) (s : State) :
    (holdFault r f s).held.find? r' = if r' = r ∧ s.held.find? r = none then some f else s.held.find? r' := by
  unfold holdFault
  by_cases h : r' = r
  · subst h; cases hh : s.held.find? r' <;> simp [hh]
  · cases hh : s.held.find? r <;> simp [h, Map.find?_set_ne _ _ h]

/-! ### Staging -/

theorem slot_loadSlot (r r' : LaneRef) (n m : Nat) (v : Word) (s : State) :
    slot (loadSlot r n v s) r' m = if r' = r ∧ m = n then v else slot s r' m := by
  simp only [slot, loadSlot, Map.get_set, Ix.mk.injEq]

/-- Slots loaded one after the other. -/
theorem loadSlots_spec (r : LaneRef) (d k : Nat) (f : Nat → Word) (s : State) :
    ∃ sl, (List.range k).foldl (fun s i => loadSlot r (d + i) (f i) s) s = { s with slot := sl } ∧
      ∀ r' m, sl.get ⟨r', m⟩ 0 = if r' = r ∧ d ≤ m ∧ m < d + k then f (m - d) else slot s r' m := by
  induction k with
  | zero => exact ⟨s.slot, rfl, fun r' m => by rw [if_neg (by omega)]; rfl⟩
  | succ k ih =>
    obtain ⟨sl, e, h⟩ := ih
    refine ⟨sl.set ⟨r, d + k⟩ (f k), ?_, fun r' m => ?_⟩
    · rw [List.range_succ, List.foldl_append, e]; rfl
    · rw [Map.get_set, h]
      simp only [Ix.mk.injEq]
      by_cases h1 : r' = r
      · by_cases h2 : m = d + k
        · subst h2
          rw [if_pos ⟨h1, rfl⟩, if_pos ⟨h1, by omega, by omega⟩]; congr 1; omega
        · rw [if_neg (by simp [h2])]
          by_cases h3 : d ≤ m ∧ m < d + k
          · rw [if_pos ⟨h1, h3⟩, if_pos ⟨h1, by omega, by omega⟩]
          · rw [if_neg (fun h => h3 h.2), if_neg (fun h => by omega)]
      · rw [if_neg (fun h => h1 h.1), if_neg (fun h => h1 h.1), if_neg (fun h => h1 h.1)]

/-- One lane of STG (R30, R347). -/
theorem stgLane_spec (d n k wa : Nat) (r : LaneRef) (s : State) :
    let sa := (List.range k).foldl (fun s i => loadSlot r (d + i) (vreg s r.lane (n + i)) s) s
    let t := if (List.range k).any fun i => regPoisoned s r.lane (n + i) then holdFault r ⟨.poison, 1, 0, 0, wa⟩ sa else sa
    t = { s with slot := t.slot, held := t.held } ∧
      (∀ r' m, slot t r' m = if r' = r ∧ d ≤ m ∧ m < d + k then vreg s r.lane (n + (m - d)) else slot s r' m) ∧
      ∀ r', t.held.find? r' = if r' = r ∧ s.held.find? r = none ∧ ((List.range k).any fun i => regPoisoned s r.lane (n + i)) = true
        then some ⟨.poison, 1, 0, 0, wa⟩ else s.held.find? r' := by
  have e0 : (List.range k).foldl (fun s i => loadSlot r (d + i) (vreg s r.lane (n + i)) s) s =
      (List.range k).foldl (fun s' i => loadSlot r (d + i) (vreg s r.lane (n + i)) s') s := by
    have : ∀ (l : List Nat) (s' : State), (∀ i, vreg s' r.lane (n + i) = vreg s r.lane (n + i)) →
        l.foldl (fun s i => loadSlot r (d + i) (vreg s r.lane (n + i)) s) s' =
          l.foldl (fun s' i => loadSlot r (d + i) (vreg s r.lane (n + i)) s') s' := by
      intro l
      induction l with
      | nil => intros; rfl
      | cons i l ih => intro s' h; rw [List.foldl_cons, List.foldl_cons, h]; exact ih _ fun j => h j
    exact this _ _ fun _ => rfl
  obtain ⟨sl, e, h⟩ := loadSlots_spec r d k (fun i => vreg s r.lane (n + i)) s
  simp only
  rw [e0, e]
  by_cases hp : (List.range k).any fun i => regPoisoned s r.lane (n + i)
  · rw [if_pos hp]
    refine ⟨by rw [holdFault_rest], fun r' m => ?_, fun r' => ?_⟩
    · rw [holdFault_rest]; exact h r' m
    · rw [held_holdFault]; simp [hp]
  · rw [if_neg hp]
    exact ⟨rfl, h, fun r' => by simp [hp]⟩

/-! ### Guards -/

theorem find?_filter_at {α : Type} (m : Map (Ix LaneRef) α) (r r' : LaneRef) (n : Nat) :
    Map.find? (m.filter fun p => p.1.at_ != r) ⟨r', n⟩ = if r' = r then none else Map.find? m ⟨r', n⟩ := by
  by_cases h : r' = r
  · subst h
    rw [if_pos rfl]
    induction m with
    | nil => rfl
    | cons p m ih =>
      obtain ⟨k, v⟩ := p
      by_cases hk : k.at_ = r'
      · simpa [List.filter_cons, hk] using ih
      · have : (⟨r', n⟩ : Ix LaneRef) ≠ k := fun e => hk (by rw [← e])
        rw [List.filter_cons, if_pos (by simpa using hk), Map.find?_cons, if_neg (fun e => this e.symm)]
        exact ih
  · rw [if_neg h]; exact Map.find?_filter _ _ _ fun v => by simpa using h

theorem get_filter_at {α : Type} (m : Map (Ix LaneRef) α) (r r' : LaneRef) (n : Nat) (d : α) :
    Map.get (m.filter fun p => p.1.at_ != r) ⟨r', n⟩ d = if r' = r then d else Map.get m ⟨r', n⟩ d := by
  simp only [Map.get, find?_filter_at]; split <;> rfl

theorem contains_filter_at (l : List (Ix LaneRef)) (r r' : LaneRef) (n : Nat) :
    (l.filter fun p => p.at_ != r).contains ⟨r', n⟩ = if r' = r then false else l.contains ⟨r', n⟩ := by
  rw [Bool.eq_iff_iff]
  by_cases h : r' = r <;> simp [h]

theorem get_erase {κ α : Type} [DecidableEq κ] (m : Map κ α) (k k' : κ) (d : α) : (m.erase k).get k' d = if k' = k then d else m.get k' d := by
  by_cases h : k' = k
  · subst h; simp [Map.get, Map.find?_erase_self]
  · simp [Map.get, Map.find?_erase_ne _ h, h]

theorem find?_erase {κ α : Type} [DecidableEq κ] (m : Map κ α) (k k' : κ) : (m.erase k).find? k' = if k' = k then none else m.find? k' := by
  by_cases h : k' = k
  · subst h; simp [Map.find?_erase_self]
  · simp [Map.find?_erase_ne _ h, h]

theorem traceOf_dropLane (r r' : LaneRef) (s : State) : traceOf (dropLane r s) r' = if r' = r then noTrace else traceOf s r' := by
  by_cases h : r' = r
  · subst h
    simp only [traceOf, noTrace, dropLane, get_erase, find?_erase, find?_filter_at, contains_filter_at, if_true]
  · simp only [traceOf, dropLane, get_erase, find?_erase, find?_filter_at, contains_filter_at, h, if_false]

theorem dropLane_rest (r : LaneRef) (s : State) : ∃ a b c d e, dropLane r s = { s with dirty := a, buf := b, held := c, shad := d, fill := e } :=
  ⟨_, _, _, _, _, rfl⟩

/-- Lanes dropped one after the other. -/
theorem dropLanes_spec (l : List LaneRef) (s : State) :
    (∃ a b c d e, l.foldl (fun s r => dropLane r s) s = { s with dirty := a, buf := b, held := c, shad := d, fill := e }) ∧
      ∀ r, traceOf (l.foldl (fun s r => dropLane r s) s) r = if r ∈ l then noTrace else traceOf s r := by
  induction l generalizing s with
  | nil => exact ⟨⟨_, _, _, _, _, rfl⟩, by simp⟩
  | cons r l ih =>
    obtain ⟨⟨a, b, c, d, e, h⟩, h2⟩ := ih (dropLane r s)
    refine ⟨⟨a, b, c, d, e, by rw [List.foldl_cons, h]; rfl⟩, fun q => ?_⟩
    rw [List.foldl_cons, h2, traceOf_dropLane]
    by_cases hq : q = r <;> simp [hq]

/-- One slice's lanes fail a guard (R32). -/
theorem failLanes_spec (t : ThreadId) (g : Nat) (m : BitVec 4) (s : State) :
    (∃ th a b c d e, failLanes t g m s = { s with thr := th, dirty := a, buf := b, held := c, shad := d, fill := e }) ∧
      (∀ r, traceOf (failLanes t g m s) r = if r ∈ refsOf t m then noTrace else traceOf s r) ∧
      ∀ x, threadOf (failLanes t g m s) x = if x = t then
        { threadOf s x with mask := (threadOf s x).mask &&& ~~~m, failed := (threadOf s x).failed ++ [(g, m)] } else threadOf s x := by
  obtain ⟨⟨a, b, c, d, e, h⟩, h2⟩ := dropLanes_spec (refsOf t m) s
  unfold failLanes
  simp only
  refine ⟨⟨_, a, b, c, d, e, by rw [h]; rfl⟩, fun r => ?_, fun x => ?_⟩
  · exact h2 r
  · rw [threadOf_modThread, h]; rfl

end Sys2Proof.Machine
end

