-- ==== Sys2Proof/Laws/PerInstr.lean ====
section
/-! SUPPORT. Every instruction reads back from its own word (R110 to R134): one lemma per constructor of `Instr`. -/

set_option linter.unusedSimpArgs false

namespace Sys2Proof.Laws.Encodable

/-- The word of a well-formed instruction decodes to it; an event of the device has no word. -/
def Statement (i : Instr) : Prop := i.wf = true → ∀ w, encode i = some w → decodeWord w = .ok i

theorem nop : Statement (.nop) := by
  intro hw w h
  obtain rfl := Option.some.inj h
  refine (row0 _ 0x0 0x0 (V_op _) (by decide)).trans ?_
  show (decNop _) = _
  simp (disch := decide) only [decNop, V_of, need_true, val_some, operand_code]
  simp_all [need, opnd, accept_wf]
theorem trace (stages : BitVec 6) (guards : BitVec 4) : Statement (.trace stages guards) := by
  intro hw w h
  obtain rfl := Option.some.inj h
  refine (row0 _ 0x1 0x1 (T_op _) (by decide)).trans ?_
  show (decTrace _) = _
  have hv : (decide (stages.toNat ≤ 32) && decide (guards.toNat ≤ 8)) = true := ((Bool.and_eq_true _ _).mp hw).1
  simp (disch := decide) only [decTrace, T_of, need_true, val_some, operand_code, read_or, read_same, read_apart, bit_or, bit_same, bit_apart, mask_or, mask_apart, or_zero_r, or_zero_l, Bool.false_or, Bool.or_false, Bool.or_self, low_same, low_apart]
  simp_all [need, opnd, accept_wf]
theorem stg (d : BitVec 5) (n : BitVec 8) (k1 : BitVec 5) : Statement (.stg d n k1) := by
  intro hw w h
  obtain rfl := Option.some.inj h
  refine (row0 _ 0x2 0x2 (V_op _) (by decide)).trans ?_
  show (decStg _) = _
  have hv : (decide (n.toNat + k1.toNat ≤ 255)) = true := ((Bool.and_eq_true _ _).mp hw).1
  have hs := slot_lt d
  simp (disch := decide) only [decStg, V_of, need_true, val_some, operand_code, read_or, read_same, read_apart, bit_or, bit_same, bit_apart, mask_or, mask_apart, or_zero_r, or_zero_l, Bool.false_or, Bool.or_false, Bool.or_self, low_same, low_apart]
  simp_all [need, opnd, accept_wf]
theorem wbind (d : BitVec 5) (n : BitVec 8) (k1 : BitVec 5) : Statement (.wbind d n k1) := by
  intro hw w h
  obtain rfl := Option.some.inj h
  refine (row0 _ 0x3 0x3 (V_op _) (by decide)).trans ?_
  show (decWbind _) = _
  have hv : (decide (n.toNat + k1.toNat ≤ 255)) = true := ((Bool.and_eq_true _ _).mp hw).1
  have hs := slot_lt d
  simp (disch := decide) only [decWbind, V_of, need_true, val_some, operand_code, read_or, read_same, read_apart, bit_or, bit_same, bit_apart, mask_or, mask_apart, or_zero_r, or_zero_l, Bool.false_or, Bool.or_false, Bool.or_self, low_same, low_apart]
  simp_all [need, opnd, accept_wf]
theorem guard (z : Bool) (g : BitVec 3) (a : Opnd) : Statement (.guard z g a) := by
  intro hw w h
  obtain rfl := Option.some.inj h
  refine (row0 _ 0x4 0x4 (V_op _) (by decide)).trans ?_
  show (decGuard _) = _
  simp (disch := decide) only [decGuard, V_of, need_true, val_some, operand_code, read_or, read_same, read_apart, bit_or, bit_same, bit_apart, mask_or, mask_apart, or_zero_r, or_zero_l, Bool.false_or, Bool.or_false, Bool.or_self]
  simp_all [need, opnd, accept_wf]
theorem settle : Statement (.settle) := by
  intro hw w h
  obtain rfl := Option.some.inj h
  refine (row0 _ 0x5 0x5 (V_op _) (by decide)).trans ?_
  show (decSettle _) = _
  simp (disch := decide) only [decSettle, V_of, need_true, val_some, operand_code]
  simp_all [need, opnd, accept_wf]
theorem tend (tok : BitVec 16) (off : BitVec 32) : Statement (.tend tok off) := by
  intro hw w h
  obtain rfl := Option.some.inj h
  refine (row0 _ 0x6 0x6 (T_op _) (by decide)).trans ?_
  show (decTend _) = _
  simp (disch := decide) only [decTend, T_of, need_true, val_some, operand_code, low_same, low_apart]
  simp_all [need, opnd, accept_wf]
theorem tendi (tok : BitVec 16) (a : BitVec 5) : Statement (.tendi tok a) := by
  intro hw w h
  obtain rfl := Option.some.inj h
  refine (row0 _ 0x7 0x7 (T_op _) (by decide)).trans ?_
  show (decTendi _) = _
  have hs := target_slot a
  simp (disch := decide) only [decTendi, T_of, need_true, val_some, operand_code, read_or, read_same, read_apart, bit_or, bit_same, bit_apart, mask_or, mask_apart, or_zero_r, or_zero_l, Bool.false_or, Bool.or_false, Bool.or_self, low_same, low_apart]
  simp_all [need, opnd, accept_wf]
theorem call (tok : BitVec 16) (off : BitVec 32) : Statement (.call tok off) := by
  intro hw w h
  obtain rfl := Option.some.inj h
  refine (row0 _ 0x8 0x8 (T_op _) (by decide)).trans ?_
  show (decCall _) = _
  simp (disch := decide) only [decCall, T_of, need_true, val_some, operand_code, low_same, low_apart]
  simp_all [need, opnd, accept_wf]
theorem calli (tok : BitVec 16) (a : BitVec 5) : Statement (.calli tok a) := by
  intro hw w h
  obtain rfl := Option.some.inj h
  refine (row0 _ 0x9 0x9 (T_op _) (by decide)).trans ?_
  show (decCalli _) = _
  have hs := target_slot a
  simp (disch := decide) only [decCalli, T_of, need_true, val_some, operand_code, read_or, read_same, read_apart, bit_or, bit_same, bit_apart, mask_or, mask_apart, or_zero_r, or_zero_l, Bool.false_or, Bool.or_false, Bool.or_self, low_same, low_apart]
  simp_all [need, opnd, accept_wf]
theorem ret (tok : BitVec 16) : Statement (.ret tok) := by
  intro hw w h
  obtain rfl := Option.some.inj h
  refine (row0 _ 0xa 0xa (T_op _) (by decide)).trans ?_
  show (decRet _) = _
  simp (disch := decide) only [decRet, T_of, need_true, val_some, operand_code, low_same, low_apart]
  simp_all [need, opnd, accept_wf]
theorem merge (tok : BitVec 16) : Statement (.merge tok) := by
  intro hw w h
  obtain rfl := Option.some.inj h
  refine (row0 _ 0xb 0xb (T_op _) (by decide)).trans ?_
  show (decMerge _) = _
  have hv : (decide (tok.toNat ≠ 0)) = true := ((Bool.and_eq_true _ _).mp hw).1
  simp (disch := decide) only [decMerge, T_of, need_true, val_some, operand_code, low_same, low_apart]
  simp_all [need, opnd, accept_wf]
theorem regang : Statement (.regang) := by
  intro hw w h
  obtain rfl := Option.some.inj h
  refine (row0 _ 0xc 0xc (T_op _) (by decide)).trans ?_
  show (decRegang _) = _
  simp (disch := decide) only [decRegang, T_of, need_true, val_some, operand_code, low_same, low_apart]
  simp_all [need, opnd, accept_wf]
theorem exit : Statement (.exit) := by
  intro hw w h
  obtain rfl := Option.some.inj h
  refine (row0 _ 0xd 0xd (V_op _) (by decide)).trans ?_
  show (decExit _) = _
  simp (disch := decide) only [decExit, V_of, need_true, val_some, operand_code]
  simp_all [need, opnd, accept_wf]
theorem yield : Statement (.yield) := by
  intro hw w h
  obtain rfl := Option.some.inj h
  refine (row0 _ 0xe 0xe (V_op _) (by decide)).trans ?_
  show (decYield _) = _
  simp (disch := decide) only [decYield, V_of, need_true, val_some, operand_code]
  simp_all [need, opnd, accept_wf]
theorem trap (imm : BitVec 32) : Statement (.trap imm) := by
  intro hw w h
  obtain rfl := Option.some.inj h
  refine (row0 _ 0xf 0xf (I_op _) (by decide)).trans ?_
  show (need ((I.word _).getLsbD 38) <| decTrap _) = _
  simp (disch := decide) only [I_form, need_true, if_true, if_false, Bool.false_eq_true]
  simp (disch := decide) only [decTrap, I_of, need_true, val_some, operand_code]
  simp_all [need, opnd, accept_wf]
theorem bkpt (code : BitVec 16) : Statement (.bkpt code) := by
  intro hw w h
  obtain rfl := Option.some.inj h
  refine (row1 _ 0x10 0x0 (V_op _) (by decide)).trans ?_
  show (decBkpt _) = _
  simp (disch := decide) only [decBkpt, V_of, need_true, val_some, operand_code, read_or, read_same, read_apart, bit_or, bit_same, bit_apart, mask_or, mask_apart, or_zero_r, or_zero_l, Bool.false_or, Bool.or_false, Bool.or_self]
  simp_all [need, opnd, accept_wf]
theorem iadd (u : Bool) (sat : Bool) (d : Opnd) (a : Opnd) (b : Opnd) : Statement (.iadd u sat d a b) := by
  intro hw w h
  obtain rfl := Option.some.inj h
  refine (row2 _ 0x20 0x0 (V_op _) (by decide)).trans ?_
  show (if (V.word _).getLsbD 38 then decIaddI _ else decIadd _) = _
  simp (disch := decide) only [V_form, code_top, if_true, if_false, Bool.false_eq_true]
  simp (disch := decide) only [decIadd, V_of, need_true, val_some, operand_code, read_or, read_same, read_apart, bit_or, bit_same, bit_apart, mask_or, mask_apart, or_zero_r, or_zero_l, Bool.false_or, Bool.or_false, Bool.or_self]
  simp_all [need, opnd, accept_wf]
theorem iaddI (u : Bool) (sat : Bool) (d : Opnd) (a : Opnd) (imm : BitVec 32) : Statement (.iaddI u sat d a imm) := by
  intro hw w h
  obtain rfl := Option.some.inj h
  refine (row2 _ 0x20 0x0 (I_op _) (by decide)).trans ?_
  show (if (I.word _).getLsbD 38 then decIaddI _ else decIadd _) = _
  simp (disch := decide) only [I_form, if_true, if_false, Bool.false_eq_true]
  simp (disch := decide) only [decIaddI, I_of, need_true, val_some, operand_code, read_or, read_same, read_apart, bit_or, bit_same, bit_apart, mask_or, mask_apart, or_zero_r, or_zero_l, Bool.false_or, Bool.or_false, Bool.or_self]
  simp_all [need, opnd, accept_wf]
theorem isub (u : Bool) (sat : Bool) (d : Opnd) (a : Opnd) (b : Opnd) : Statement (.isub u sat d a b) := by
  intro hw w h
  obtain rfl := Option.some.inj h
  refine (row2 _ 0x21 0x1 (V_op _) (by decide)).trans ?_
  show (if (V.word _).getLsbD 38 then decIsubI _ else decIsub _) = _
  simp (disch := decide) only [V_form, code_top, if_true, if_false, Bool.false_eq_true]
  simp (disch := decide) only [decIsub, V_of, need_true, val_some, operand_code, read_or, read_same, read_apart, bit_or, bit_same, bit_apart, mask_or, mask_apart, or_zero_r, or_zero_l, Bool.false_or, Bool.or_false, Bool.or_self]
  simp_all [need, opnd, accept_wf]
theorem isubI (u : Bool) (sat : Bool) (d : Opnd) (a : Opnd) (imm : BitVec 32) : Statement (.isubI u sat d a imm) := by
  intro hw w h
  obtain rfl := Option.some.inj h
  refine (row2 _ 0x21 0x1 (I_op _) (by decide)).trans ?_
  show (if (I.word _).getLsbD 38 then decIsubI _ else decIsub _) = _
  simp (disch := decide) only [I_form, if_true, if_false, Bool.false_eq_true]
  simp (disch := decide) only [decIsubI, I_of, need_true, val_some, operand_code, read_or, read_same, read_apart, bit_or, bit_same, bit_apart, mask_or, mask_apart, or_zero_r, or_zero_l, Bool.false_or, Bool.or_false, Bool.or_self]
  simp_all [need, opnd, accept_wf]
theorem iaddc (u : Bool) (d : Opnd) (a : Opnd) (b : Opnd) (c : Opnd) : Statement (.iaddc u d a b c) := by
  intro hw w h
  obtain rfl := Option.some.inj h
  refine (row2 _ 0x22 0x2 (V_op _) (by decide)).trans ?_
  show (decIaddc _) = _
  simp (disch := decide) only [decIaddc, V_of, need_true, val_some, operand_code]
  simp_all [need, opnd, accept_wf]
theorem isubb (u : Bool) (d : Opnd) (a : Opnd) (b : Opnd) (c : Opnd) : Statement (.isubb u d a b c) := by
  intro hw w h
  obtain rfl := Option.some.inj h
  refine (row2 _ 0x23 0x3 (V_op _) (by decide)).trans ?_
  show (decIsubb _) = _
  simp (disch := decide) only [decIsubb, V_of, need_true, val_some, operand_code]
  simp_all [need, opnd, accept_wf]
theorem iadd64 (u : Bool) (d : Opnd) (a : Opnd) (b : Opnd) : Statement (.iadd64 u d a b) := by
  intro hw w h
  obtain rfl := Option.some.inj h
  refine (row2 _ 0x24 0x4 (V_op _) (by decide)).trans ?_
  show (if (V.word _).getLsbD 38 then decIadd64I _ else decIadd64 _) = _
  simp (disch := decide) only [V_form, code_top, if_true, if_false, Bool.false_eq_true]
  simp (disch := decide) only [decIadd64, V_of, need_true, val_some, operand_code]
  simp_all [need, opnd, accept_wf]
theorem iadd64I (u : Bool) (d : Opnd) (a : Opnd) (imm : BitVec 32) : Statement (.iadd64I u d a imm) := by
  intro hw w h
  obtain rfl := Option.some.inj h
  refine (row2 _ 0x24 0x4 (I_op _) (by decide)).trans ?_
  show (if (I.word _).getLsbD 38 then decIadd64I _ else decIadd64 _) = _
  simp (disch := decide) only [I_form, if_true, if_false, Bool.false_eq_true]
  simp (disch := decide) only [decIadd64I, I_of, need_true, val_some, operand_code]
  simp_all [need, opnd, accept_wf]
theorem isub64 (u : Bool) (d : Opnd) (a : Opnd) (b : Opnd) : Statement (.isub64 u d a b) := by
  intro hw w h
  obtain rfl := Option.some.inj h
  refine (row2 _ 0x25 0x5 (V_op _) (by decide)).trans ?_
  show (if (V.word _).getLsbD 38 then decIsub64I _ else decIsub64 _) = _
  simp (disch := decide) only [V_form, code_top, if_true, if_false, Bool.false_eq_true]
  simp (disch := decide) only [decIsub64, V_of, need_true, val_some, operand_code]
  simp_all [need, opnd, accept_wf]
theorem isub64I (u : Bool) (d : Opnd) (a : Opnd) (imm : BitVec 32) : Statement (.isub64I u d a imm) := by
  intro hw w h
  obtain rfl := Option.some.inj h
  refine (row2 _ 0x25 0x5 (I_op _) (by decide)).trans ?_
  show (if (I.word _).getLsbD 38 then decIsub64I _ else decIsub64 _) = _
  simp (disch := decide) only [I_form, if_true, if_false, Bool.false_eq_true]
  simp (disch := decide) only [decIsub64I, I_of, need_true, val_some, operand_code]
  simp_all [need, opnd, accept_wf]
theorem imul (u : Bool) (sat : Bool) (d : Opnd) (a : Opnd) (b : Opnd) : Statement (.imul u sat d a b) := by
  intro hw w h
  obtain rfl := Option.some.inj h
  refine (row2 _ 0x26 0x6 (V_op _) (by decide)).trans ?_
  show (if (V.word _).getLsbD 38 then decImulI _ else decImul _) = _
  simp (disch := decide) only [V_form, code_top, if_true, if_false, Bool.false_eq_true]
  simp (disch := decide) only [decImul, V_of, need_true, val_some, operand_code, read_or, read_same, read_apart, bit_or, bit_same, bit_apart, mask_or, mask_apart, or_zero_r, or_zero_l, Bool.false_or, Bool.or_false, Bool.or_self]
  simp_all [need, opnd, accept_wf]
theorem imulI (u : Bool) (sat : Bool) (d : Opnd) (a : Opnd) (imm : BitVec 32) : Statement (.imulI u sat d a imm) := by
  intro hw w h
  obtain rfl := Option.some.inj h
  refine (row2 _ 0x26 0x6 (I_op _) (by decide)).trans ?_
  show (if (I.word _).getLsbD 38 then decImulI _ else decImul _) = _
  simp (disch := decide) only [I_form, if_true, if_false, Bool.false_eq_true]
  simp (disch := decide) only [decImulI, I_of, need_true, val_some, operand_code, read_or, read_same, read_apart, bit_or, bit_same, bit_apart, mask_or, mask_apart, or_zero_r, or_zero_l, Bool.false_or, Bool.or_false, Bool.or_self]
  simp_all [need, opnd, accept_wf]
theorem imulh (u : Bool) (d : Opnd) (a : Opnd) (b : Opnd) : Statement (.imulh u d a b) := by
  intro hw w h
  obtain rfl := Option.some.inj h
  refine (row2 _ 0x27 0x7 (V_op _) (by decide)).trans ?_
  show (if (V.word _).getLsbD 38 then decImulhI _ else decImulh _) = _
  simp (disch := decide) only [V_form, code_top, if_true, if_false, Bool.false_eq_true]
  simp (disch := decide) only [decImulh, V_of, need_true, val_some, operand_code]
  simp_all [need, opnd, accept_wf]
theorem imulhI (u : Bool) (d : Opnd) (a : Opnd) (imm : BitVec 32) : Statement (.imulhI u d a imm) := by
  intro hw w h
  obtain rfl := Option.some.inj h
  refine (row2 _ 0x27 0x7 (I_op _) (by decide)).trans ?_
  show (if (I.word _).getLsbD 38 then decImulhI _ else decImulh _) = _
  simp (disch := decide) only [I_form, if_true, if_false, Bool.false_eq_true]
  simp (disch := decide) only [decImulhI, I_of, need_true, val_some, operand_code]
  simp_all [need, opnd, accept_wf]
theorem imulhu (u : Bool) (d : Opnd) (a : Opnd) (b : Opnd) : Statement (.imulhu u d a b) := by
  intro hw w h
  obtain rfl := Option.some.inj h
  refine (row2 _ 0x28 0x8 (V_op _) (by decide)).trans ?_
  show (if (V.word _).getLsbD 38 then decImulhuI _ else decImulhu _) = _
  simp (disch := decide) only [V_form, code_top, if_true, if_false, Bool.false_eq_true]
  simp (disch := decide) only [decImulhu, V_of, need_true, val_some, operand_code]
  simp_all [need, opnd, accept_wf]
theorem imulhuI (u : Bool) (d : Opnd) (a : Opnd) (imm : BitVec 32) : Statement (.imulhuI u d a imm) := by
  intro hw w h
  obtain rfl := Option.some.inj h
  refine (row2 _ 0x28 0x8 (I_op _) (by decide)).trans ?_
  show (if (I.word _).getLsbD 38 then decImulhuI _ else decImulhu _) = _
  simp (disch := decide) only [I_form, if_true, if_false, Bool.false_eq_true]
  simp (disch := decide) only [decImulhuI, I_of, need_true, val_some, operand_code]
  simp_all [need, opnd, accept_wf]
theorem imad (u : Bool) (sat : Bool) (d : Opnd) (a : Opnd) (b : Opnd) (c : Opnd) : Statement (.imad u sat d a b c) := by
  intro hw w h
  obtain rfl := Option.some.inj h
  refine (row2 _ 0x29 0x9 (V_op _) (by decide)).trans ?_
  show (decImad _) = _
  simp (disch := decide) only [decImad, V_of, need_true, val_some, operand_code, read_or, read_same, read_apart, bit_or, bit_same, bit_apart, mask_or, mask_apart, or_zero_r, or_zero_l, Bool.false_or, Bool.or_false, Bool.or_self]
  simp_all [need, opnd, accept_wf]
theorem imad64 (u : Bool) (zx : Bool) (d : Opnd) (a : Opnd) (b : Opnd) (c : Opnd) : Statement (.imad64 u zx d a b c) := by
  intro hw w h
  obtain rfl := Option.some.inj h
  refine (row2 _ 0x2a 0xa (V_op _) (by decide)).trans ?_
  show (decImad64 _) = _
  simp (disch := decide) only [decImad64, V_of, need_true, val_some, operand_code, read_or, read_same, read_apart, bit_or, bit_same, bit_apart, mask_or, mask_apart, or_zero_r, or_zero_l, Bool.false_or, Bool.or_false, Bool.or_self]
  simp_all [need, opnd, accept_wf]
theorem divs (u : Bool) (d : Opnd) (a : Opnd) (b : Opnd) : Statement (.divs u d a b) := by
  intro hw w h
  obtain rfl := Option.some.inj h
  refine (row2 _ 0x2b 0xb (V_op _) (by decide)).trans ?_
  show (if (V.word _).getLsbD 38 then decDivsI _ else decDivs _) = _
  simp (disch := decide) only [V_form, code_top, if_true, if_false, Bool.false_eq_true]
  simp (disch := decide) only [decDivs, V_of, need_true, val_some, operand_code]
  simp_all [need, opnd, accept_wf]
theorem divsI (u : Bool) (d : Opnd) (a : Opnd) (imm : BitVec 32) : Statement (.divsI u d a imm) := by
  intro hw w h
  obtain rfl := Option.some.inj h
  refine (row2 _ 0x2b 0xb (I_op _) (by decide)).trans ?_
  show (if (I.word _).getLsbD 38 then decDivsI _ else decDivs _) = _
  simp (disch := decide) only [I_form, if_true, if_false, Bool.false_eq_true]
  simp (disch := decide) only [decDivsI, I_of, need_true, val_some, operand_code]
  simp_all [need, opnd, accept_wf]
theorem divu (u : Bool) (d : Opnd) (a : Opnd) (b : Opnd) : Statement (.divu u d a b) := by
  intro hw w h
  obtain rfl := Option.some.inj h
  refine (row2 _ 0x2c 0xc (V_op _) (by decide)).trans ?_
  show (if (V.word _).getLsbD 38 then decDivuI _ else decDivu _) = _
  simp (disch := decide) only [V_form, code_top, if_true, if_false, Bool.false_eq_true]
  simp (disch := decide) only [decDivu, V_of, need_true, val_some, operand_code]
  simp_all [need, opnd, accept_wf]
theorem divuI (u : Bool) (d : Opnd) (a : Opnd) (imm : BitVec 32) : Statement (.divuI u d a imm) := by
  intro hw w h
  obtain rfl := Option.some.inj h
  refine (row2 _ 0x2c 0xc (I_op _) (by decide)).trans ?_
  show (if (I.word _).getLsbD 38 then decDivuI _ else decDivu _) = _
  simp (disch := decide) only [I_form, if_true, if_false, Bool.false_eq_true]
  simp (disch := decide) only [decDivuI, I_of, need_true, val_some, operand_code]
  simp_all [need, opnd, accept_wf]
theorem rems (u : Bool) (d : Opnd) (a : Opnd) (b : Opnd) : Statement (.rems u d a b) := by
  intro hw w h
  obtain rfl := Option.some.inj h
  refine (row2 _ 0x2d 0xd (V_op _) (by decide)).trans ?_
  show (if (V.word _).getLsbD 38 then decRemsI _ else decRems _) = _
  simp (disch := decide) only [V_form, code_top, if_true, if_false, Bool.false_eq_true]
  simp (disch := decide) only [decRems, V_of, need_true, val_some, operand_code]
  simp_all [need, opnd, accept_wf]
theorem remsI (u : Bool) (d : Opnd) (a : Opnd) (imm : BitVec 32) : Statement (.remsI u d a imm) := by
  intro hw w h
  obtain rfl := Option.some.inj h
  refine (row2 _ 0x2d 0xd (I_op _) (by decide)).trans ?_
  show (if (I.word _).getLsbD 38 then decRemsI _ else decRems _) = _
  simp (disch := decide) only [I_form, if_true, if_false, Bool.false_eq_true]
  simp (disch := decide) only [decRemsI, I_of, need_true, val_some, operand_code]
  simp_all [need, opnd, accept_wf]
theorem remu (u : Bool) (d : Opnd) (a : Opnd) (b : Opnd) : Statement (.remu u d a b) := by
  intro hw w h
  obtain rfl := Option.some.inj h
  refine (row2 _ 0x2e 0xe (V_op _) (by decide)).trans ?_
  show (if (V.word _).getLsbD 38 then decRemuI _ else decRemu _) = _
  simp (disch := decide) only [V_form, code_top, if_true, if_false, Bool.false_eq_true]
  simp (disch := decide) only [decRemu, V_of, need_true, val_some, operand_code]
  simp_all [need, opnd, accept_wf]
theorem remuI (u : Bool) (d : Opnd) (a : Opnd) (imm : BitVec 32) : Statement (.remuI u d a imm) := by
  intro hw w h
  obtain rfl := Option.some.inj h
  refine (row2 _ 0x2e 0xe (I_op _) (by decide)).trans ?_
  show (if (I.word _).getLsbD 38 then decRemuI _ else decRemu _) = _
  simp (disch := decide) only [I_form, if_true, if_false, Bool.false_eq_true]
  simp (disch := decide) only [decRemuI, I_of, need_true, val_some, operand_code]
  simp_all [need, opnd, accept_wf]
theorem iabs (u : Bool) (sat : Bool) (d : Opnd) (a : Opnd) : Statement (.iabs u sat d a) := by
  intro hw w h
  obtain rfl := Option.some.inj h
  refine (row2 _ 0x2f 0xf (V_op _) (by decide)).trans ?_
  show (decIabs _) = _
  simp (disch := decide) only [decIabs, V_of, need_true, val_some, operand_code, read_or, read_same, read_apart, bit_or, bit_same, bit_apart, mask_or, mask_apart, or_zero_r, or_zero_l, Bool.false_or, Bool.or_false, Bool.or_self]
  simp_all [need, opnd, accept_wf]
theorem ineg (u : Bool) (sat : Bool) (d : Opnd) (a : Opnd) : Statement (.ineg u sat d a) := by
  intro hw w h
  obtain rfl := Option.some.inj h
  refine (row3 _ 0x30 0x0 (V_op _) (by decide)).trans ?_
  show (decIneg _) = _
  simp (disch := decide) only [decIneg, V_of, need_true, val_some, operand_code, read_or, read_same, read_apart, bit_or, bit_same, bit_apart, mask_or, mask_apart, or_zero_r, or_zero_l, Bool.false_or, Bool.or_false, Bool.or_self]
  simp_all [need, opnd, accept_wf]
theorem imin (u : Bool) (d : Opnd) (a : Opnd) (b : Opnd) : Statement (.imin u d a b) := by
  intro hw w h
  obtain rfl := Option.some.inj h
  refine (row3 _ 0x31 0x1 (V_op _) (by decide)).trans ?_
  show (if (V.word _).getLsbD 38 then decIminI _ else decImin _) = _
  simp (disch := decide) only [V_form, code_top, if_true, if_false, Bool.false_eq_true]
  simp (disch := decide) only [decImin, V_of, need_true, val_some, operand_code]
  simp_all [need, opnd, accept_wf]
theorem iminI (u : Bool) (d : Opnd) (a : Opnd) (imm : BitVec 32) : Statement (.iminI u d a imm) := by
  intro hw w h
  obtain rfl := Option.some.inj h
  refine (row3 _ 0x31 0x1 (I_op _) (by decide)).trans ?_
  show (if (I.word _).getLsbD 38 then decIminI _ else decImin _) = _
  simp (disch := decide) only [I_form, if_true, if_false, Bool.false_eq_true]
  simp (disch := decide) only [decIminI, I_of, need_true, val_some, operand_code]
  simp_all [need, opnd, accept_wf]
theorem imax (u : Bool) (d : Opnd) (a : Opnd) (b : Opnd) : Statement (.imax u d a b) := by
  intro hw w h
  obtain rfl := Option.some.inj h
  refine (row3 _ 0x32 0x2 (V_op _) (by decide)).trans ?_
  show (if (V.word _).getLsbD 38 then decImaxI _ else decImax _) = _
  simp (disch := decide) only [V_form, code_top, if_true, if_false, Bool.false_eq_true]
  simp (disch := decide) only [decImax, V_of, need_true, val_some, operand_code]
  simp_all [need, opnd, accept_wf]
theorem imaxI (u : Bool) (d : Opnd) (a : Opnd) (imm : BitVec 32) : Statement (.imaxI u d a imm) := by
  intro hw w h
  obtain rfl := Option.some.inj h
  refine (row3 _ 0x32 0x2 (I_op _) (by decide)).trans ?_
  show (if (I.word _).getLsbD 38 then decImaxI _ else decImax _) = _
  simp (disch := decide) only [I_form, if_true, if_false, Bool.false_eq_true]
  simp (disch := decide) only [decImaxI, I_of, need_true, val_some, operand_code]
  simp_all [need, opnd, accept_wf]
theorem iminu (u : Bool) (d : Opnd) (a : Opnd) (b : Opnd) : Statement (.iminu u d a b) := by
  intro hw w h
  obtain rfl := Option.some.inj h
  refine (row3 _ 0x33 0x3 (V_op _) (by decide)).trans ?_
  show (if (V.word _).getLsbD 38 then decIminuI _ else decIminu _) = _
  simp (disch := decide) only [V_form, code_top, if_true, if_false, Bool.false_eq_true]
  simp (disch := decide) only [decIminu, V_of, need_true, val_some, operand_code]
  simp_all [need, opnd, accept_wf]
theorem iminuI (u : Bool) (d : Opnd) (a : Opnd) (imm : BitVec 32) : Statement (.iminuI u d a imm) := by
  intro hw w h
  obtain rfl := Option.some.inj h
  refine (row3 _ 0x33 0x3 (I_op _) (by decide)).trans ?_
  show (if (I.word _).getLsbD 38 then decIminuI _ else decIminu _) = _
  simp (disch := decide) only [I_form, if_true, if_false, Bool.false_eq_true]
  simp (disch := decide) only [decIminuI, I_of, need_true, val_some, operand_code]
  simp_all [need, opnd, accept_wf]
theorem imaxu (u : Bool) (d : Opnd) (a : Opnd) (b : Opnd) : Statement (.imaxu u d a b) := by
  intro hw w h
  obtain rfl := Option.some.inj h
  refine (row3 _ 0x34 0x4 (V_op _) (by decide)).trans ?_
  show (if (V.word _).getLsbD 38 then decImaxuI _ else decImaxu _) = _
  simp (disch := decide) only [V_form, code_top, if_true, if_false, Bool.false_eq_true]
  simp (disch := decide) only [decImaxu, V_of, need_true, val_some, operand_code]
  simp_all [need, opnd, accept_wf]
theorem imaxuI (u : Bool) (d : Opnd) (a : Opnd) (imm : BitVec 32) : Statement (.imaxuI u d a imm) := by
  intro hw w h
  obtain rfl := Option.some.inj h
  refine (row3 _ 0x34 0x4 (I_op _) (by decide)).trans ?_
  show (if (I.word _).getLsbD 38 then decImaxuI _ else decImaxu _) = _
  simp (disch := decide) only [I_form, if_true, if_false, Bool.false_eq_true]
  simp (disch := decide) only [decImaxuI, I_of, need_true, val_some, operand_code]
  simp_all [need, opnd, accept_wf]
theorem isat (u : Bool) (zx : Bool) (d : Opnd) (a : Opnd) (b : Opnd) : Statement (.isat u zx d a b) := by
  intro hw w h
  obtain rfl := Option.some.inj h
  refine (row3 _ 0x35 0x5 (V_op _) (by decide)).trans ?_
  show (if (V.word _).getLsbD 38 then decIsatI _ else decIsat _) = _
  simp (disch := decide) only [V_form, code_top, if_true, if_false, Bool.false_eq_true]
  simp (disch := decide) only [decIsat, V_of, need_true, val_some, operand_code, read_or, read_same, read_apart, bit_or, bit_same, bit_apart, mask_or, mask_apart, or_zero_r, or_zero_l, Bool.false_or, Bool.or_false, Bool.or_self]
  simp_all [need, opnd, accept_wf]
theorem isatI (u : Bool) (zx : Bool) (d : Opnd) (a : Opnd) (imm : BitVec 32) : Statement (.isatI u zx d a imm) := by
  intro hw w h
  obtain rfl := Option.some.inj h
  refine (row3 _ 0x35 0x5 (I_op _) (by decide)).trans ?_
  show (if (I.word _).getLsbD 38 then decIsatI _ else decIsat _) = _
  simp (disch := decide) only [I_form, if_true, if_false, Bool.false_eq_true]
  simp (disch := decide) only [decIsatI, I_of, need_true, val_some, operand_code, read_or, read_same, read_apart, bit_or, bit_same, bit_apart, mask_or, mask_apart, or_zero_r, or_zero_l, Bool.false_or, Bool.or_false, Bool.or_self]
  simp_all [need, opnd, accept_wf]
theorem icmp (u : Bool) (cond : Cond) (dbl : Bool) (d : Opnd) (a : Opnd) (b : Opnd) : Statement (.icmp u cond dbl d a b) := by
  intro hw w h
  obtain rfl := Option.some.inj h
  refine (row3 _ 0x36 0x6 (V_op _) (by decide)).trans ?_
  show (if (V.word _).getLsbD 38 then decIcmpI _ else decIcmp _) = _
  simp (disch := decide) only [V_form, code_top, if_true, if_false, Bool.false_eq_true]
  have hv : (cond.isInt) = true := ((Bool.and_eq_true _ _).mp hw).1
  simp (disch := decide) only [decIcmp, V_of, need_true, val_some, operand_code, cond_of, read_or, read_same, read_apart, bit_or, bit_same, bit_apart, mask_or, mask_apart, or_zero_r, or_zero_l, Bool.false_or, Bool.or_false, Bool.or_self]
  simp_all [need, opnd, accept_wf]
theorem icmpI (u : Bool) (cond : Cond) (dbl : Bool) (d : Opnd) (a : Opnd) (imm : BitVec 32) : Statement (.icmpI u cond dbl d a imm) := by
  intro hw w h
  obtain rfl := Option.some.inj h
  refine (row3 _ 0x36 0x6 (I_op _) (by decide)).trans ?_
  show (if (I.word _).getLsbD 38 then decIcmpI _ else decIcmp _) = _
  simp (disch := decide) only [I_form, if_true, if_false, Bool.false_eq_true]
  have hv : (cond.isInt) = true := ((Bool.and_eq_true _ _).mp hw).1
  simp (disch := decide) only [decIcmpI, I_of, need_true, val_some, operand_code, cond_of, read_or, read_same, read_apart, bit_or, bit_same, bit_apart, mask_or, mask_apart, or_zero_r, or_zero_l, Bool.false_or, Bool.or_false, Bool.or_self]
  simp_all [need, opnd, accept_wf]
theorem sel (u : Bool) (d : Opnd) (a : Opnd) (b : Opnd) (c : Opnd) : Statement (.sel u d a b c) := by
  intro hw w h
  obtain rfl := Option.some.inj h
  refine (row3 _ 0x37 0x7 (V_op _) (by decide)).trans ?_
  show (decSel _) = _
  simp (disch := decide) only [decSel, V_of, need_true, val_some, operand_code]
  simp_all [need, opnd, accept_wf]
theorem and (u : Bool) (d : Opnd) (a : Opnd) (b : Opnd) : Statement (.and u d a b) := by
  intro hw w h
  obtain rfl := Option.some.inj h
  refine (row3 _ 0x38 0x8 (V_op _) (by decide)).trans ?_
  show (if (V.word _).getLsbD 38 then decAndI _ else decAnd _) = _
  simp (disch := decide) only [V_form, code_top, if_true, if_false, Bool.false_eq_true]
  simp (disch := decide) only [decAnd, V_of, need_true, val_some, operand_code]
  simp_all [need, opnd, accept_wf]
theorem andI (u : Bool) (d : Opnd) (a : Opnd) (imm : BitVec 32) : Statement (.andI u d a imm) := by
  intro hw w h
  obtain rfl := Option.some.inj h
  refine (row3 _ 0x38 0x8 (I_op _) (by decide)).trans ?_
  show (if (I.word _).getLsbD 38 then decAndI _ else decAnd _) = _
  simp (disch := decide) only [I_form, if_true, if_false, Bool.false_eq_true]
  simp (disch := decide) only [decAndI, I_of, need_true, val_some, operand_code]
  simp_all [need, opnd, accept_wf]
theorem or (u : Bool) (d : Opnd) (a : Opnd) (b : Opnd) : Statement (.or u d a b) := by
  intro hw w h
  obtain rfl := Option.some.inj h
  refine (row3 _ 0x39 0x9 (V_op _) (by decide)).trans ?_
  show (if (V.word _).getLsbD 38 then decOrI _ else decOr _) = _
  simp (disch := decide) only [V_form, code_top, if_true, if_false, Bool.false_eq_true]
  simp (disch := decide) only [decOr, V_of, need_true, val_some, operand_code]
  simp_all [need, opnd, accept_wf]
theorem orI (u : Bool) (d : Opnd) (a : Opnd) (imm : BitVec 32) : Statement (.orI u d a imm) := by
  intro hw w h
  obtain rfl := Option.some.inj h
  refine (row3 _ 0x39 0x9 (I_op _) (by decide)).trans ?_
  show (if (I.word _).getLsbD 38 then decOrI _ else decOr _) = _
  simp (disch := decide) only [I_form, if_true, if_false, Bool.false_eq_true]
  simp (disch := decide) only [decOrI, I_of, need_true, val_some, operand_code]
  simp_all [need, opnd, accept_wf]
theorem xor (u : Bool) (d : Opnd) (a : Opnd) (b : Opnd) : Statement (.xor u d a b) := by
  intro hw w h
  obtain rfl := Option.some.inj h
  refine (row3 _ 0x3a 0xa (V_op _) (by decide)).trans ?_
  show (if (V.word _).getLsbD 38 then decXorI _ else decXor _) = _
  simp (disch := decide) only [V_form, code_top, if_true, if_false, Bool.false_eq_true]
  simp (disch := decide) only [decXor, V_of, need_true, val_some, operand_code]
  simp_all [need, opnd, accept_wf]
theorem xorI (u : Bool) (d : Opnd) (a : Opnd) (imm : BitVec 32) : Statement (.xorI u d a imm) := by
  intro hw w h
  obtain rfl := Option.some.inj h
  refine (row3 _ 0x3a 0xa (I_op _) (by decide)).trans ?_
  show (if (I.word _).getLsbD 38 then decXorI _ else decXor _) = _
  simp (disch := decide) only [I_form, if_true, if_false, Bool.false_eq_true]
  simp (disch := decide) only [decXorI, I_of, need_true, val_some, operand_code]
  simp_all [need, opnd, accept_wf]
theorem andn (u : Bool) (d : Opnd) (a : Opnd) (b : Opnd) : Statement (.andn u d a b) := by
  intro hw w h
  obtain rfl := Option.some.inj h
  refine (row3 _ 0x3b 0xb (V_op _) (by decide)).trans ?_
  show (if (V.word _).getLsbD 38 then decAndnI _ else decAndn _) = _
  simp (disch := decide) only [V_form, code_top, if_true, if_false, Bool.false_eq_true]
  simp (disch := decide) only [decAndn, V_of, need_true, val_some, operand_code]
  simp_all [need, opnd, accept_wf]
theorem andnI (u : Bool) (d : Opnd) (a : Opnd) (imm : BitVec 32) : Statement (.andnI u d a imm) := by
  intro hw w h
  obtain rfl := Option.some.inj h
  refine (row3 _ 0x3b 0xb (I_op _) (by decide)).trans ?_
  show (if (I.word _).getLsbD 38 then decAndnI _ else decAndn _) = _
  simp (disch := decide) only [I_form, if_true, if_false, Bool.false_eq_true]
  simp (disch := decide) only [decAndnI, I_of, need_true, val_some, operand_code]
  simp_all [need, opnd, accept_wf]
theorem not (u : Bool) (d : Opnd) (a : Opnd) : Statement (.not u d a) := by
  intro hw w h
  obtain rfl := Option.some.inj h
  refine (row3 _ 0x3c 0xc (V_op _) (by decide)).trans ?_
  show (decNot _) = _
  simp (disch := decide) only [decNot, V_of, need_true, val_some, operand_code]
  simp_all [need, opnd, accept_wf]
theorem shl (u : Bool) (d : Opnd) (a : Opnd) (b : Opnd) : Statement (.shl u d a b) := by
  intro hw w h
  obtain rfl := Option.some.inj h
  refine (row3 _ 0x3d 0xd (V_op _) (by decide)).trans ?_
  show (if (V.word _).getLsbD 38 then decShlI _ else decShl _) = _
  simp (disch := decide) only [V_form, code_top, if_true, if_false, Bool.false_eq_true]
  simp (disch := decide) only [decShl, V_of, need_true, val_some, operand_code]
  simp_all [need, opnd, accept_wf]
theorem shlI (u : Bool) (d : Opnd) (a : Opnd) (imm : BitVec 32) : Statement (.shlI u d a imm) := by
  intro hw w h
  obtain rfl := Option.some.inj h
  refine (row3 _ 0x3d 0xd (I_op _) (by decide)).trans ?_
  show (if (I.word _).getLsbD 38 then decShlI _ else decShl _) = _
  simp (disch := decide) only [I_form, if_true, if_false, Bool.false_eq_true]
  simp (disch := decide) only [decShlI, I_of, need_true, val_some, operand_code]
  simp_all [need, opnd, accept_wf]
theorem shr (u : Bool) (d : Opnd) (a : Opnd) (b : Opnd) : Statement (.shr u d a b) := by
  intro hw w h
  obtain rfl := Option.some.inj h
  refine (row3 _ 0x3e 0xe (V_op _) (by decide)).trans ?_
  show (if (V.word _).getLsbD 38 then decShrI _ else decShr _) = _
  simp (disch := decide) only [V_form, code_top, if_true, if_false, Bool.false_eq_true]
  simp (disch := decide) only [decShr, V_of, need_true, val_some, operand_code]
  simp_all [need, opnd, accept_wf]
theorem shrI (u : Bool) (d : Opnd) (a : Opnd) (imm : BitVec 32) : Statement (.shrI u d a imm) := by
  intro hw w h
  obtain rfl := Option.some.inj h
  refine (row3 _ 0x3e 0xe (I_op _) (by decide)).trans ?_
  show (if (I.word _).getLsbD 38 then decShrI _ else decShr _) = _
  simp (disch := decide) only [I_form, if_true, if_false, Bool.false_eq_true]
  simp (disch := decide) only [decShrI, I_of, need_true, val_some, operand_code]
  simp_all [need, opnd, accept_wf]
theorem sar (u : Bool) (d : Opnd) (a : Opnd) (b : Opnd) : Statement (.sar u d a b) := by
  intro hw w h
  obtain rfl := Option.some.inj h
  refine (row3 _ 0x3f 0xf (V_op _) (by decide)).trans ?_
  show (if (V.word _).getLsbD 38 then decSarI _ else decSar _) = _
  simp (disch := decide) only [V_form, code_top, if_true, if_false, Bool.false_eq_true]
  simp (disch := decide) only [decSar, V_of, need_true, val_some, operand_code]
  simp_all [need, opnd, accept_wf]
theorem sarI (u : Bool) (d : Opnd) (a : Opnd) (imm : BitVec 32) : Statement (.sarI u d a imm) := by
  intro hw w h
  obtain rfl := Option.some.inj h
  refine (row3 _ 0x3f 0xf (I_op _) (by decide)).trans ?_
  show (if (I.word _).getLsbD 38 then decSarI _ else decSar _) = _
  simp (disch := decide) only [I_form, if_true, if_false, Bool.false_eq_true]
  simp (disch := decide) only [decSarI, I_of, need_true, val_some, operand_code]
  simp_all [need, opnd, accept_wf]
theorem shf (u : Bool) (left : Bool) (d : Opnd) (a : Opnd) (b : Opnd) (c : Opnd) : Statement (.shf u left d a b c) := by
  intro hw w h
  obtain rfl := Option.some.inj h
  refine (row4 _ 0x40 0x0 (V_op _) (by decide)).trans ?_
  show (decShf _) = _
  simp (disch := decide) only [decShf, V_of, need_true, val_some, operand_code, read_or, read_same, read_apart, bit_or, bit_same, bit_apart, mask_or, mask_apart, or_zero_r, or_zero_l, Bool.false_or, Bool.or_false, Bool.or_self]
  simp_all [need, opnd, accept_wf]
theorem bfx (u : Bool) (d : Opnd) (a : Opnd) (b : Opnd) (c : Opnd) : Statement (.bfx u d a b c) := by
  intro hw w h
  obtain rfl := Option.some.inj h
  refine (row4 _ 0x41 0x1 (V_op _) (by decide)).trans ?_
  show (decBfx _) = _
  simp (disch := decide) only [decBfx, V_of, need_true, val_some, operand_code]
  simp_all [need, opnd, accept_wf]
theorem bfxu (u : Bool) (d : Opnd) (a : Opnd) (b : Opnd) (c : Opnd) : Statement (.bfxu u d a b c) := by
  intro hw w h
  obtain rfl := Option.some.inj h
  refine (row4 _ 0x42 0x2 (V_op _) (by decide)).trans ?_
  show (decBfxu _) = _
  simp (disch := decide) only [decBfxu, V_of, need_true, val_some, operand_code]
  simp_all [need, opnd, accept_wf]
theorem bfi (u : Bool) (d : Opnd) (a : Opnd) (b : Opnd) (c : Opnd) : Statement (.bfi u d a b c) := by
  intro hw w h
  obtain rfl := Option.some.inj h
  refine (row4 _ 0x43 0x3 (V_op _) (by decide)).trans ?_
  show (decBfi _) = _
  simp (disch := decide) only [decBfi, V_of, need_true, val_some, operand_code]
  simp_all [need, opnd, accept_wf]
theorem popc (u : Bool) (d : Opnd) (a : Opnd) : Statement (.popc u d a) := by
  intro hw w h
  obtain rfl := Option.some.inj h
  refine (row4 _ 0x44 0x4 (V_op _) (by decide)).trans ?_
  show (decPopc _) = _
  simp (disch := decide) only [decPopc, V_of, need_true, val_some, operand_code]
  simp_all [need, opnd, accept_wf]
theorem clz (u : Bool) (d : Opnd) (a : Opnd) : Statement (.clz u d a) := by
  intro hw w h
  obtain rfl := Option.some.inj h
  refine (row4 _ 0x45 0x5 (V_op _) (by decide)).trans ?_
  show (decClz _) = _
  simp (disch := decide) only [decClz, V_of, need_true, val_some, operand_code]
  simp_all [need, opnd, accept_wf]
theorem ctz (u : Bool) (d : Opnd) (a : Opnd) : Statement (.ctz u d a) := by
  intro hw w h
  obtain rfl := Option.some.inj h
  refine (row4 _ 0x46 0x6 (V_op _) (by decide)).trans ?_
  show (decCtz _) = _
  simp (disch := decide) only [decCtz, V_of, need_true, val_some, operand_code]
  simp_all [need, opnd, accept_wf]
theorem brev (u : Bool) (d : Opnd) (a : Opnd) : Statement (.brev u d a) := by
  intro hw w h
  obtain rfl := Option.some.inj h
  refine (row4 _ 0x47 0x7 (V_op _) (by decide)).trans ?_
  show (decBrev _) = _
  simp (disch := decide) only [decBrev, V_of, need_true, val_some, operand_code]
  simp_all [need, opnd, accept_wf]
theorem bysel (u : Bool) (d : Opnd) (a : Opnd) (b : Opnd) (c : Opnd) : Statement (.bysel u d a b c) := by
  intro hw w h
  obtain rfl := Option.some.inj h
  refine (row4 _ 0x48 0x8 (V_op _) (by decide)).trans ?_
  show (decBysel _) = _
  simp (disch := decide) only [decBysel, V_of, need_true, val_some, operand_code]
  simp_all [need, opnd, accept_wf]
theorem lea (u : Bool) (k : BitVec 3) (zx : Bool) (d : Opnd) (a : Opnd) (b : Opnd) : Statement (.lea u k zx d a b) := by
  intro hw w h
  obtain rfl := Option.some.inj h
  refine (row4 _ 0x49 0x9 (V_op _) (by decide)).trans ?_
  show (decLea _) = _
  have hv : (decide (k.toNat ≤ 4)) = true := ((Bool.and_eq_true _ _).mp hw).1
  simp (disch := decide) only [decLea, V_of, need_true, val_some, operand_code, read_or, read_same, read_apart, bit_or, bit_same, bit_apart, mask_or, mask_apart, or_zero_r, or_zero_l, Bool.false_or, Bool.or_false, Bool.or_self]
  simp_all [need, opnd, accept_wf]
theorem movi (u : Bool) (d : Opnd) (imm : BitVec 32) : Statement (.movi u d imm) := by
  intro hw w h
  obtain rfl := Option.some.inj h
  refine (row4 _ 0x4a 0xa (I_op _) (by decide)).trans ?_
  show (need ((I.word _).getLsbD 38) <| decMovi _) = _
  simp (disch := decide) only [I_form, need_true, if_true, if_false, Bool.false_eq_true]
  simp (disch := decide) only [decMovi, I_of, need_true, val_some, operand_code]
  simp_all [need, opnd, accept_wf]
theorem mov (u : Bool) (dbl : Bool) (d : Opnd) (a : Opnd) : Statement (.mov u dbl d a) := by
  intro hw w h
  obtain rfl := Option.some.inj h
  refine (row4 _ 0x4b 0xb (V_op _) (by decide)).trans ?_
  show (decMov _) = _
  simp (disch := decide) only [decMov, V_of, need_true, val_some, operand_code, read_or, read_same, read_apart, bit_or, bit_same, bit_apart, mask_or, mask_apart, or_zero_r, or_zero_l, Bool.false_or, Bool.or_false, Bool.or_self]
  simp_all [need, opnd, accept_wf]
theorem fadd (u : Bool) (rm : Round) (ftz : Bool) (d : Opnd) (a : Opnd) (b : Opnd) : Statement (.fadd u rm ftz d a b) := by
  intro hw w h
  obtain rfl := Option.some.inj h
  refine (row6 _ 0x60 0x0 (V_op _) (by decide)).trans ?_
  show (if (V.word _).getLsbD 38 then decFaddI _ else decFadd _) = _
  simp (disch := decide) only [V_form, code_top, if_true, if_false, Bool.false_eq_true]
  simp (disch := decide) only [decFadd, V_of, need_true, val_some, operand_code, round_of, read_or, read_same, read_apart, bit_or, bit_same, bit_apart, mask_or, mask_apart, or_zero_r, or_zero_l, Bool.false_or, Bool.or_false, Bool.or_self]
  simp_all [need, opnd, accept_wf]
theorem faddI (u : Bool) (rm : Round) (ftz : Bool) (d : Opnd) (a : Opnd) (imm : BitVec 32) : Statement (.faddI u rm ftz d a imm) := by
  intro hw w h
  obtain rfl := Option.some.inj h
  refine (row6 _ 0x60 0x0 (I_op _) (by decide)).trans ?_
  show (if (I.word _).getLsbD 38 then decFaddI _ else decFadd _) = _
  simp (disch := decide) only [I_form, if_true, if_false, Bool.false_eq_true]
  simp (disch := decide) only [decFaddI, I_of, need_true, val_some, operand_code, round_of, read_or, read_same, read_apart, bit_or, bit_same, bit_apart, mask_or, mask_apart, or_zero_r, or_zero_l, Bool.false_or, Bool.or_false, Bool.or_self]
  simp_all [need, opnd, accept_wf]
theorem fsub (u : Bool) (rm : Round) (ftz : Bool) (d : Opnd) (a : Opnd) (b : Opnd) : Statement (.fsub u rm ftz d a b) := by
  intro hw w h
  obtain rfl := Option.some.inj h
  refine (row6 _ 0x61 0x1 (V_op _) (by decide)).trans ?_
  show (if (V.word _).getLsbD 38 then decFsubI _ else decFsub _) = _
  simp (disch := decide) only [V_form, code_top, if_true, if_false, Bool.false_eq_true]
  simp (disch := decide) only [decFsub, V_of, need_true, val_some, operand_code, round_of, read_or, read_same, read_apart, bit_or, bit_same, bit_apart, mask_or, mask_apart, or_zero_r, or_zero_l, Bool.false_or, Bool.or_false, Bool.or_self]
  simp_all [need, opnd, accept_wf]
theorem fsubI (u : Bool) (rm : Round) (ftz : Bool) (d : Opnd) (a : Opnd) (imm : BitVec 32) : Statement (.fsubI u rm ftz d a imm) := by
  intro hw w h
  obtain rfl := Option.some.inj h
  refine (row6 _ 0x61 0x1 (I_op _) (by decide)).trans ?_
  show (if (I.word _).getLsbD 38 then decFsubI _ else decFsub _) = _
  simp (disch := decide) only [I_form, if_true, if_false, Bool.false_eq_true]
  simp (disch := decide) only [decFsubI, I_of, need_true, val_some, operand_code, round_of, read_or, read_same, read_apart, bit_or, bit_same, bit_apart, mask_or, mask_apart, or_zero_r, or_zero_l, Bool.false_or, Bool.or_false, Bool.or_self]
  simp_all [need, opnd, accept_wf]
theorem fmul (u : Bool) (rm : Round) (ftz : Bool) (d : Opnd) (a : Opnd) (b : Opnd) : Statement (.fmul u rm ftz d a b) := by
  intro hw w h
  obtain rfl := Option.some.inj h
  refine (row6 _ 0x62 0x2 (V_op _) (by decide)).trans ?_
  show (if (V.word _).getLsbD 38 then decFmulI _ else decFmul _) = _
  simp (disch := decide) only [V_form, code_top, if_true, if_false, Bool.false_eq_true]
  simp (disch := decide) only [decFmul, V_of, need_true, val_some, operand_code, round_of, read_or, read_same, read_apart, bit_or, bit_same, bit_apart, mask_or, mask_apart, or_zero_r, or_zero_l, Bool.false_or, Bool.or_false, Bool.or_self]
  simp_all [need, opnd, accept_wf]
theorem fmulI (u : Bool) (rm : Round) (ftz : Bool) (d : Opnd) (a : Opnd) (imm : BitVec 32) : Statement (.fmulI u rm ftz d a imm) := by
  intro hw w h
  obtain rfl := Option.some.inj h
  refine (row6 _ 0x62 0x2 (I_op _) (by decide)).trans ?_
  show (if (I.word _).getLsbD 38 then decFmulI _ else decFmul _) = _
  simp (disch := decide) only [I_form, if_true, if_false, Bool.false_eq_true]
  simp (disch := decide) only [decFmulI, I_of, need_true, val_some, operand_code, round_of, read_or, read_same, read_apart, bit_or, bit_same, bit_apart, mask_or, mask_apart, or_zero_r, or_zero_l, Bool.false_or, Bool.or_false, Bool.or_self]
  simp_all [need, opnd, accept_wf]
theorem ffma (u : Bool) (rm : Round) (ftz : Bool) (d : Opnd) (a : Opnd) (b : Opnd) (c : Opnd) : Statement (.ffma u rm ftz d a b c) := by
  intro hw w h
  obtain rfl := Option.some.inj h
  refine (row6 _ 0x63 0x3 (V_op _) (by decide)).trans ?_
  show (decFfma _) = _
  simp (disch := decide) only [decFfma, V_of, need_true, val_some, operand_code, round_of, read_or, read_same, read_apart, bit_or, bit_same, bit_apart, mask_or, mask_apart, or_zero_r, or_zero_l, Bool.false_or, Bool.or_false, Bool.or_self]
  simp_all [need, opnd, accept_wf]
theorem fmin (u : Bool) (ftz : Bool) (d : Opnd) (a : Opnd) (b : Opnd) : Statement (.fmin u ftz d a b) := by
  intro hw w h
  obtain rfl := Option.some.inj h
  refine (row6 _ 0x64 0x4 (V_op _) (by decide)).trans ?_
  show (if (V.word _).getLsbD 38 then decFminI _ else decFmin _) = _
  simp (disch := decide) only [V_form, code_top, if_true, if_false, Bool.false_eq_true]
  simp (disch := decide) only [decFmin, V_of, need_true, val_some, operand_code, read_or, read_same, read_apart, bit_or, bit_same, bit_apart, mask_or, mask_apart, or_zero_r, or_zero_l, Bool.false_or, Bool.or_false, Bool.or_self]
  simp_all [need, opnd, accept_wf]
theorem fminI (u : Bool) (ftz : Bool) (d : Opnd) (a : Opnd) (imm : BitVec 32) : Statement (.fminI u ftz d a imm) := by
  intro hw w h
  obtain rfl := Option.some.inj h
  refine (row6 _ 0x64 0x4 (I_op _) (by decide)).trans ?_
  show (if (I.word _).getLsbD 38 then decFminI _ else decFmin _) = _
  simp (disch := decide) only [I_form, if_true, if_false, Bool.false_eq_true]
  simp (disch := decide) only [decFminI, I_of, need_true, val_some, operand_code, read_or, read_same, read_apart, bit_or, bit_same, bit_apart, mask_or, mask_apart, or_zero_r, or_zero_l, Bool.false_or, Bool.or_false, Bool.or_self]
  simp_all [need, opnd, accept_wf]
theorem fmax (u : Bool) (ftz : Bool) (d : Opnd) (a : Opnd) (b : Opnd) : Statement (.fmax u ftz d a b) := by
  intro hw w h
  obtain rfl := Option.some.inj h
  refine (row6 _ 0x65 0x5 (V_op _) (by decide)).trans ?_
  show (if (V.word _).getLsbD 38 then decFmaxI _ else decFmax _) = _
  simp (disch := decide) only [V_form, code_top, if_true, if_false, Bool.false_eq_true]
  simp (disch := decide) only [decFmax, V_of, need_true, val_some, operand_code, read_or, read_same, read_apart, bit_or, bit_same, bit_apart, mask_or, mask_apart, or_zero_r, or_zero_l, Bool.false_or, Bool.or_false, Bool.or_self]
  simp_all [need, opnd, accept_wf]
theorem fmaxI (u : Bool) (ftz : Bool) (d : Opnd) (a : Opnd) (imm : BitVec 32) : Statement (.fmaxI u ftz d a imm) := by
  intro hw w h
  obtain rfl := Option.some.inj h
  refine (row6 _ 0x65 0x5 (I_op _) (by decide)).trans ?_
  show (if (I.word _).getLsbD 38 then decFmaxI _ else decFmax _) = _
  simp (disch := decide) only [I_form, if_true, if_false, Bool.false_eq_true]
  simp (disch := decide) only [decFmaxI, I_of, need_true, val_some, operand_code, read_or, read_same, read_apart, bit_or, bit_same, bit_apart, mask_or, mask_apart, or_zero_r, or_zero_l, Bool.false_or, Bool.or_false, Bool.or_self]
  simp_all [need, opnd, accept_wf]
theorem fcmp (u : Bool) (cond : Cond) (ftz : Bool) (d : Opnd) (a : Opnd) (b : Opnd) : Statement (.fcmp u cond ftz d a b) := by
  intro hw w h
  obtain rfl := Option.some.inj h
  refine (row6 _ 0x66 0x6 (V_op _) (by decide)).trans ?_
  show (if (V.word _).getLsbD 38 then decFcmpI _ else decFcmp _) = _
  simp (disch := decide) only [V_form, code_top, if_true, if_false, Bool.false_eq_true]
  have hv : (cond.isFloat) = true := ((Bool.and_eq_true _ _).mp hw).1
  simp (disch := decide) only [decFcmp, V_of, need_true, val_some, operand_code, cond_of, read_or, read_same, read_apart, bit_or, bit_same, bit_apart, mask_or, mask_apart, or_zero_r, or_zero_l, Bool.false_or, Bool.or_false, Bool.or_self]
  simp_all [need, opnd, accept_wf]
theorem fcmpI (u : Bool) (cond : Cond) (ftz : Bool) (d : Opnd) (a : Opnd) (imm : BitVec 32) : Statement (.fcmpI u cond ftz d a imm) := by
  intro hw w h
  obtain rfl := Option.some.inj h
  refine (row6 _ 0x66 0x6 (I_op _) (by decide)).trans ?_
  show (if (I.word _).getLsbD 38 then decFcmpI _ else decFcmp _) = _
  simp (disch := decide) only [I_form, if_true, if_false, Bool.false_eq_true]
  have hv : (cond.isFloat) = true := ((Bool.and_eq_true _ _).mp hw).1
  simp (disch := decide) only [decFcmpI, I_of, need_true, val_some, operand_code, cond_of, read_or, read_same, read_apart, bit_or, bit_same, bit_apart, mask_or, mask_apart, or_zero_r, or_zero_l, Bool.false_or, Bool.or_false, Bool.or_self]
  simp_all [need, opnd, accept_wf]
theorem frcp (ftz : Bool) (d : Opnd) (a : Opnd) : Statement (.frcp ftz d a) := by
  intro hw w h
  obtain rfl := Option.some.inj h
  refine (row6 _ 0x67 0x7 (V_op _) (by decide)).trans ?_
  show (decFrcp _) = _
  simp (disch := decide) only [decFrcp, V_of, need_true, val_some, operand_code, read_or, read_same, read_apart, bit_or, bit_same, bit_apart, mask_or, mask_apart, or_zero_r, or_zero_l, Bool.false_or, Bool.or_false, Bool.or_self]
  simp_all [need, opnd, accept_wf]
theorem frsq (ftz : Bool) (d : Opnd) (a : Opnd) : Statement (.frsq ftz d a) := by
  intro hw w h
  obtain rfl := Option.some.inj h
  refine (row6 _ 0x68 0x8 (V_op _) (by decide)).trans ?_
  show (decFrsq _) = _
  simp (disch := decide) only [decFrsq, V_of, need_true, val_some, operand_code, read_or, read_same, read_apart, bit_or, bit_same, bit_apart, mask_or, mask_apart, or_zero_r, or_zero_l, Bool.false_or, Bool.or_false, Bool.or_self]
  simp_all [need, opnd, accept_wf]
theorem fsqrt (ftz : Bool) (d : Opnd) (a : Opnd) : Statement (.fsqrt ftz d a) := by
  intro hw w h
  obtain rfl := Option.some.inj h
  refine (row6 _ 0x69 0x9 (V_op _) (by decide)).trans ?_
  show (decFsqrt _) = _
  simp (disch := decide) only [decFsqrt, V_of, need_true, val_some, operand_code, read_or, read_same, read_apart, bit_or, bit_same, bit_apart, mask_or, mask_apart, or_zero_r, or_zero_l, Bool.false_or, Bool.or_false, Bool.or_self]
  simp_all [need, opnd, accept_wf]
theorem fexp2 (ftz : Bool) (d : Opnd) (a : Opnd) : Statement (.fexp2 ftz d a) := by
  intro hw w h
  obtain rfl := Option.some.inj h
  refine (row6 _ 0x6a 0xa (V_op _) (by decide)).trans ?_
  show (decFexp2 _) = _
  simp (disch := decide) only [decFexp2, V_of, need_true, val_some, operand_code, read_or, read_same, read_apart, bit_or, bit_same, bit_apart, mask_or, mask_apart, or_zero_r, or_zero_l, Bool.false_or, Bool.or_false, Bool.or_self]
  simp_all [need, opnd, accept_wf]
theorem flog2 (ftz : Bool) (d : Opnd) (a : Opnd) : Statement (.flog2 ftz d a) := by
  intro hw w h
  obtain rfl := Option.some.inj h
  refine (row6 _ 0x6b 0xb (V_op _) (by decide)).trans ?_
  show (decFlog2 _) = _
  simp (disch := decide) only [decFlog2, V_of, need_true, val_some, operand_code, read_or, read_same, read_apart, bit_or, bit_same, bit_apart, mask_or, mask_apart, or_zero_r, or_zero_l, Bool.false_or, Bool.or_false, Bool.or_self]
  simp_all [need, opnd, accept_wf]
theorem fsin (ftz : Bool) (d : Opnd) (a : Opnd) : Statement (.fsin ftz d a) := by
  intro hw w h
  obtain rfl := Option.some.inj h
  refine (row6 _ 0x6c 0xc (V_op _) (by decide)).trans ?_
  show (decFsin _) = _
  simp (disch := decide) only [decFsin, V_of, need_true, val_some, operand_code, read_or, read_same, read_apart, bit_or, bit_same, bit_apart, mask_or, mask_apart, or_zero_r, or_zero_l, Bool.false_or, Bool.or_false, Bool.or_self]
  simp_all [need, opnd, accept_wf]
theorem fcos (ftz : Bool) (d : Opnd) (a : Opnd) : Statement (.fcos ftz d a) := by
  intro hw w h
  obtain rfl := Option.some.inj h
  refine (row6 _ 0x6d 0xd (V_op _) (by decide)).trans ?_
  show (decFcos _) = _
  simp (disch := decide) only [decFcos, V_of, need_true, val_some, operand_code, read_or, read_same, read_apart, bit_or, bit_same, bit_apart, mask_or, mask_apart, or_zero_r, or_zero_l, Bool.false_or, Bool.or_false, Bool.or_self]
  simp_all [need, opnd, accept_wf]
theorem frnd (rm : Round) (ftz : Bool) (d : Opnd) (a : Opnd) : Statement (.frnd rm ftz d a) := by
  intro hw w h
  obtain rfl := Option.some.inj h
  refine (row6 _ 0x6e 0xe (V_op _) (by decide)).trans ?_
  show (decFrnd _) = _
  simp (disch := decide) only [decFrnd, V_of, need_true, val_some, operand_code, round_of, read_or, read_same, read_apart, bit_or, bit_same, bit_apart, mask_or, mask_apart, or_zero_r, or_zero_l, Bool.false_or, Bool.or_false, Bool.or_self]
  simp_all [need, opnd, accept_wf]
theorem fclass (ftz : Bool) (d : Opnd) (a : Opnd) : Statement (.fclass ftz d a) := by
  intro hw w h
  obtain rfl := Option.some.inj h
  refine (row6 _ 0x6f 0xf (V_op _) (by decide)).trans ?_
  show (decFclass _) = _
  simp (disch := decide) only [decFclass, V_of, need_true, val_some, operand_code, read_or, read_same, read_apart, bit_or, bit_same, bit_apart, mask_or, mask_apart, or_zero_r, or_zero_l, Bool.false_or, Bool.or_false, Bool.or_self]
  simp_all [need, opnd, accept_wf]
theorem pkadd (ty : PkType) (rm : Round) (ftz : Bool) (d : Opnd) (a : Opnd) (b : Opnd) : Statement (.pkadd ty rm ftz d a b) := by
  intro hw w h
  obtain rfl := Option.some.inj h
  refine (row7 _ 0x70 0x0 (V_op _) (by decide)).trans ?_
  show (if (V.word _).getLsbD 38 then decPkaddI _ else decPkadd _) = _
  simp (disch := decide) only [V_form, code_top, if_true, if_false, Bool.false_eq_true]
  simp (disch := decide) only [decPkadd, V_of, need_true, val_some, operand_code, pk_of, round_of, read_or, read_same, read_apart, bit_or, bit_same, bit_apart, mask_or, mask_apart, or_zero_r, or_zero_l, Bool.false_or, Bool.or_false, Bool.or_self]
  simp_all [need, opnd, accept_wf]
theorem pkaddI (ty : PkType) (rm : Round) (ftz : Bool) (d : Opnd) (a : Opnd) (imm : BitVec 32) : Statement (.pkaddI ty rm ftz d a imm) := by
  intro hw w h
  obtain rfl := Option.some.inj h
  refine (row7 _ 0x70 0x0 (I_op _) (by decide)).trans ?_
  show (if (I.word _).getLsbD 38 then decPkaddI _ else decPkadd _) = _
  simp (disch := decide) only [I_form, if_true, if_false, Bool.false_eq_true]
  simp (disch := decide) only [decPkaddI, I_of, need_true, val_some, operand_code, pk_of, round_of, read_or, read_same, read_apart, bit_or, bit_same, bit_apart, mask_or, mask_apart, or_zero_r, or_zero_l, Bool.false_or, Bool.or_false, Bool.or_self]
  simp_all [need, opnd, accept_wf]
theorem pkmul (ty : PkType) (rm : Round) (ftz : Bool) (d : Opnd) (a : Opnd) (b : Opnd) : Statement (.pkmul ty rm ftz d a b) := by
  intro hw w h
  obtain rfl := Option.some.inj h
  refine (row7 _ 0x71 0x1 (V_op _) (by decide)).trans ?_
  show (if (V.word _).getLsbD 38 then decPkmulI _ else decPkmul _) = _
  simp (disch := decide) only [V_form, code_top, if_true, if_false, Bool.false_eq_true]
  simp (disch := decide) only [decPkmul, V_of, need_true, val_some, operand_code, pk_of, round_of, read_or, read_same, read_apart, bit_or, bit_same, bit_apart, mask_or, mask_apart, or_zero_r, or_zero_l, Bool.false_or, Bool.or_false, Bool.or_self]
  simp_all [need, opnd, accept_wf]
theorem pkmulI (ty : PkType) (rm : Round) (ftz : Bool) (d : Opnd) (a : Opnd) (imm : BitVec 32) : Statement (.pkmulI ty rm ftz d a imm) := by
  intro hw w h
  obtain rfl := Option.some.inj h
  refine (row7 _ 0x71 0x1 (I_op _) (by decide)).trans ?_
  show (if (I.word _).getLsbD 38 then decPkmulI _ else decPkmul _) = _
  simp (disch := decide) only [I_form, if_true, if_false, Bool.false_eq_true]
  simp (disch := decide) only [decPkmulI, I_of, need_true, val_some, operand_code, pk_of, round_of, read_or, read_same, read_apart, bit_or, bit_same, bit_apart, mask_or, mask_apart, or_zero_r, or_zero_l, Bool.false_or, Bool.or_false, Bool.or_self]
  simp_all [need, opnd, accept_wf]
theorem pkfma (ty : PkType) (rm : Round) (ftz : Bool) (d : Opnd) (a : Opnd) (b : Opnd) (c : Opnd) : Statement (.pkfma ty rm ftz d a b c) := by
  intro hw w h
  obtain rfl := Option.some.inj h
  refine (row7 _ 0x72 0x2 (V_op _) (by decide)).trans ?_
  show (decPkfma _) = _
  simp (disch := decide) only [decPkfma, V_of, need_true, val_some, operand_code, pk_of, round_of, read_or, read_same, read_apart, bit_or, bit_same, bit_apart, mask_or, mask_apart, or_zero_r, or_zero_l, Bool.false_or, Bool.or_false, Bool.or_self]
  simp_all [need, opnd, accept_wf]
theorem dadd (rm : Round) (ftz : Bool) (d : Opnd) (a : Opnd) (b : Opnd) : Statement (.dadd rm ftz d a b) := by
  intro hw w h
  obtain rfl := Option.some.inj h
  refine (row8 _ 0x80 0x0 (V_op _) (by decide)).trans ?_
  show (if (V.word _).getLsbD 38 then decDaddI _ else decDadd _) = _
  simp (disch := decide) only [V_form, code_top, if_true, if_false, Bool.false_eq_true]
  simp (disch := decide) only [decDadd, V_of, need_true, val_some, operand_code, round_of, read_or, read_same, read_apart, bit_or, bit_same, bit_apart, mask_or, mask_apart, or_zero_r, or_zero_l, Bool.false_or, Bool.or_false, Bool.or_self]
  simp_all [need, opnd, accept_wf]
theorem daddI (rm : Round) (ftz : Bool) (d : Opnd) (a : Opnd) (imm : BitVec 32) : Statement (.daddI rm ftz d a imm) := by
  intro hw w h
  obtain rfl := Option.some.inj h
  refine (row8 _ 0x80 0x0 (I_op _) (by decide)).trans ?_
  show (if (I.word _).getLsbD 38 then decDaddI _ else decDadd _) = _
  simp (disch := decide) only [I_form, if_true, if_false, Bool.false_eq_true]
  simp (disch := decide) only [decDaddI, I_of, need_true, val_some, operand_code, round_of, read_or, read_same, read_apart, bit_or, bit_same, bit_apart, mask_or, mask_apart, or_zero_r, or_zero_l, Bool.false_or, Bool.or_false, Bool.or_self]
  simp_all [need, opnd, accept_wf]
theorem dsub (rm : Round) (ftz : Bool) (d : Opnd) (a : Opnd) (b : Opnd) : Statement (.dsub rm ftz d a b) := by
  intro hw w h
  obtain rfl := Option.some.inj h
  refine (row8 _ 0x81 0x1 (V_op _) (by decide)).trans ?_
  show (if (V.word _).getLsbD 38 then decDsubI _ else decDsub _) = _
  simp (disch := decide) only [V_form, code_top, if_true, if_false, Bool.false_eq_true]
  simp (disch := decide) only [decDsub, V_of, need_true, val_some, operand_code, round_of, read_or, read_same, read_apart, bit_or, bit_same, bit_apart, mask_or, mask_apart, or_zero_r, or_zero_l, Bool.false_or, Bool.or_false, Bool.or_self]
  simp_all [need, opnd, accept_wf]
theorem dsubI (rm : Round) (ftz : Bool) (d : Opnd) (a : Opnd) (imm : BitVec 32) : Statement (.dsubI rm ftz d a imm) := by
  intro hw w h
  obtain rfl := Option.some.inj h
  refine (row8 _ 0x81 0x1 (I_op _) (by decide)).trans ?_
  show (if (I.word _).getLsbD 38 then decDsubI _ else decDsub _) = _
  simp (disch := decide) only [I_form, if_true, if_false, Bool.false_eq_true]
  simp (disch := decide) only [decDsubI, I_of, need_true, val_some, operand_code, round_of, read_or, read_same, read_apart, bit_or, bit_same, bit_apart, mask_or, mask_apart, or_zero_r, or_zero_l, Bool.false_or, Bool.or_false, Bool.or_self]
  simp_all [need, opnd, accept_wf]
theorem dmul (rm : Round) (ftz : Bool) (d : Opnd) (a : Opnd) (b : Opnd) : Statement (.dmul rm ftz d a b) := by
  intro hw w h
  obtain rfl := Option.some.inj h
  refine (row8 _ 0x82 0x2 (V_op _) (by decide)).trans ?_
  show (if (V.word _).getLsbD 38 then decDmulI _ else decDmul _) = _
  simp (disch := decide) only [V_form, code_top, if_true, if_false, Bool.false_eq_true]
  simp (disch := decide) only [decDmul, V_of, need_true, val_some, operand_code, round_of, read_or, read_same, read_apart, bit_or, bit_same, bit_apart, mask_or, mask_apart, or_zero_r, or_zero_l, Bool.false_or, Bool.or_false, Bool.or_self]
  simp_all [need, opnd, accept_wf]
theorem dmulI (rm : Round) (ftz : Bool) (d : Opnd) (a : Opnd) (imm : BitVec 32) : Statement (.dmulI rm ftz d a imm) := by
  intro hw w h
  obtain rfl := Option.some.inj h
  refine (row8 _ 0x82 0x2 (I_op _) (by decide)).trans ?_
  show (if (I.word _).getLsbD 38 then decDmulI _ else decDmul _) = _
  simp (disch := decide) only [I_form, if_true, if_false, Bool.false_eq_true]
  simp (disch := decide) only [decDmulI, I_of, need_true, val_some, operand_code, round_of, read_or, read_same, read_apart, bit_or, bit_same, bit_apart, mask_or, mask_apart, or_zero_r, or_zero_l, Bool.false_or, Bool.or_false, Bool.or_self]
  simp_all [need, opnd, accept_wf]
theorem dfma (rm : Round) (ftz : Bool) (d : Opnd) (a : Opnd) (b : Opnd) (c : Opnd) : Statement (.dfma rm ftz d a b c) := by
  intro hw w h
  obtain rfl := Option.some.inj h
  refine (row8 _ 0x83 0x3 (V_op _) (by decide)).trans ?_
  show (decDfma _) = _
  simp (disch := decide) only [decDfma, V_of, need_true, val_some, operand_code, round_of, read_or, read_same, read_apart, bit_or, bit_same, bit_apart, mask_or, mask_apart, or_zero_r, or_zero_l, Bool.false_or, Bool.or_false, Bool.or_self]
  simp_all [need, opnd, accept_wf]
theorem dmin (ftz : Bool) (d : Opnd) (a : Opnd) (b : Opnd) : Statement (.dmin ftz d a b) := by
  intro hw w h
  obtain rfl := Option.some.inj h
  refine (row8 _ 0x84 0x4 (V_op _) (by decide)).trans ?_
  show (if (V.word _).getLsbD 38 then decDminI _ else decDmin _) = _
  simp (disch := decide) only [V_form, code_top, if_true, if_false, Bool.false_eq_true]
  simp (disch := decide) only [decDmin, V_of, need_true, val_some, operand_code, read_or, read_same, read_apart, bit_or, bit_same, bit_apart, mask_or, mask_apart, or_zero_r, or_zero_l, Bool.false_or, Bool.or_false, Bool.or_self]
  simp_all [need, opnd, accept_wf]
theorem dminI (ftz : Bool) (d : Opnd) (a : Opnd) (imm : BitVec 32) : Statement (.dminI ftz d a imm) := by
  intro hw w h
  obtain rfl := Option.some.inj h
  refine (row8 _ 0x84 0x4 (I_op _) (by decide)).trans ?_
  show (if (I.word _).getLsbD 38 then decDminI _ else decDmin _) = _
  simp (disch := decide) only [I_form, if_true, if_false, Bool.false_eq_true]
  simp (disch := decide) only [decDminI, I_of, need_true, val_some, operand_code, read_or, read_same, read_apart, bit_or, bit_same, bit_apart, mask_or, mask_apart, or_zero_r, or_zero_l, Bool.false_or, Bool.or_false, Bool.or_self]
  simp_all [need, opnd, accept_wf]
theorem dmax (ftz : Bool) (d : Opnd) (a : Opnd) (b : Opnd) : Statement (.dmax ftz d a b) := by
  intro hw w h
  obtain rfl := Option.some.inj h
  refine (row8 _ 0x85 0x5 (V_op _) (by decide)).trans ?_
  show (if (V.word _).getLsbD 38 then decDmaxI _ else decDmax _) = _
  simp (disch := decide) only [V_form, code_top, if_true, if_false, Bool.false_eq_true]
  simp (disch := decide) only [decDmax, V_of, need_true, val_some, operand_code, read_or, read_same, read_apart, bit_or, bit_same, bit_apart, mask_or, mask_apart, or_zero_r, or_zero_l, Bool.false_or, Bool.or_false, Bool.or_self]
  simp_all [need, opnd, accept_wf]
theorem dmaxI (ftz : Bool) (d : Opnd) (a : Opnd) (imm : BitVec 32) : Statement (.dmaxI ftz d a imm) := by
  intro hw w h
  obtain rfl := Option.some.inj h
  refine (row8 _ 0x85 0x5 (I_op _) (by decide)).trans ?_
  show (if (I.word _).getLsbD 38 then decDmaxI _ else decDmax _) = _
  simp (disch := decide) only [I_form, if_true, if_false, Bool.false_eq_true]
  simp (disch := decide) only [decDmaxI, I_of, need_true, val_some, operand_code, read_or, read_same, read_apart, bit_or, bit_same, bit_apart, mask_or, mask_apart, or_zero_r, or_zero_l, Bool.false_or, Bool.or_false, Bool.or_self]
  simp_all [need, opnd, accept_wf]
theorem dcmp (cond : Cond) (ftz : Bool) (d : Opnd) (a : Opnd) (b : Opnd) : Statement (.dcmp cond ftz d a b) := by
  intro hw w h
  obtain rfl := Option.some.inj h
  refine (row8 _ 0x86 0x6 (V_op _) (by decide)).trans ?_
  show (if (V.word _).getLsbD 38 then decDcmpI _ else decDcmp _) = _
  simp (disch := decide) only [V_form, code_top, if_true, if_false, Bool.false_eq_true]
  have hv : (cond.isFloat) = true := ((Bool.and_eq_true _ _).mp hw).1
  simp (disch := decide) only [decDcmp, V_of, need_true, val_some, operand_code, cond_of, read_or, read_same, read_apart, bit_or, bit_same, bit_apart, mask_or, mask_apart, or_zero_r, or_zero_l, Bool.false_or, Bool.or_false, Bool.or_self]
  simp_all [need, opnd, accept_wf]
theorem dcmpI (cond : Cond) (ftz : Bool) (d : Opnd) (a : Opnd) (imm : BitVec 32) : Statement (.dcmpI cond ftz d a imm) := by
  intro hw w h
  obtain rfl := Option.some.inj h
  refine (row8 _ 0x86 0x6 (I_op _) (by decide)).trans ?_
  show (if (I.word _).getLsbD 38 then decDcmpI _ else decDcmp _) = _
  simp (disch := decide) only [I_form, if_true, if_false, Bool.false_eq_true]
  have hv : (cond.isFloat) = true := ((Bool.and_eq_true _ _).mp hw).1
  simp (disch := decide) only [decDcmpI, I_of, need_true, val_some, operand_code, cond_of, read_or, read_same, read_apart, bit_or, bit_same, bit_apart, mask_or, mask_apart, or_zero_r, or_zero_l, Bool.false_or, Bool.or_false, Bool.or_self]
  simp_all [need, opnd, accept_wf]
theorem drcp (ftz : Bool) (d : Opnd) (a : Opnd) : Statement (.drcp ftz d a) := by
  intro hw w h
  obtain rfl := Option.some.inj h
  refine (row8 _ 0x87 0x7 (V_op _) (by decide)).trans ?_
  show (decDrcp _) = _
  simp (disch := decide) only [decDrcp, V_of, need_true, val_some, operand_code, read_or, read_same, read_apart, bit_or, bit_same, bit_apart, mask_or, mask_apart, or_zero_r, or_zero_l, Bool.false_or, Bool.or_false, Bool.or_self]
  simp_all [need, opnd, accept_wf]
theorem drsq (ftz : Bool) (d : Opnd) (a : Opnd) : Statement (.drsq ftz d a) := by
  intro hw w h
  obtain rfl := Option.some.inj h
  refine (row8 _ 0x88 0x8 (V_op _) (by decide)).trans ?_
  show (decDrsq _) = _
  simp (disch := decide) only [decDrsq, V_of, need_true, val_some, operand_code, read_or, read_same, read_apart, bit_or, bit_same, bit_apart, mask_or, mask_apart, or_zero_r, or_zero_l, Bool.false_or, Bool.or_false, Bool.or_self]
  simp_all [need, opnd, accept_wf]
theorem cvtif (u : Bool) (ft : FType) (uns : Bool) (iw : IWidth) (rm : Round) (d : Opnd) (a : Opnd) : Statement (.cvtif u ft uns iw rm d a) := by
  intro hw w h
  obtain rfl := Option.some.inj h
  refine (row9 _ 0x90 0x0 (V_op _) (by decide)).trans ?_
  show (decCvtif _) = _
  simp (disch := decide) only [decCvtif, V_of, need_true, val_some, operand_code, ftype_of, iwidth_of, round_of, read_or, read_same, read_apart, bit_or, bit_same, bit_apart, mask_or, mask_apart, or_zero_r, or_zero_l, Bool.false_or, Bool.or_false, Bool.or_self]
  simp_all [need, opnd, accept_wf]
theorem cvtfi (u : Bool) (uns : Bool) (iw : IWidth) (ft : FType) (rm : Round) (ftz : Bool) (d : Opnd) (a : Opnd) : Statement (.cvtfi u uns iw ft rm ftz d a) := by
  intro hw w h
  obtain rfl := Option.some.inj h
  refine (row9 _ 0x91 0x1 (V_op _) (by decide)).trans ?_
  show (decCvtfi _) = _
  simp (disch := decide) only [decCvtfi, V_of, need_true, val_some, operand_code, ftype_of, iwidth_of, round_of, read_or, read_same, read_apart, bit_or, bit_same, bit_apart, mask_or, mask_apart, or_zero_r, or_zero_l, Bool.false_or, Bool.or_false, Bool.or_self]
  simp_all [need, opnd, accept_wf]
theorem cvtff (ftd : FType) (fta : FType) (rm : Round) (ftz : Bool) (d : Opnd) (a : Opnd) : Statement (.cvtff ftd fta rm ftz d a) := by
  intro hw w h
  obtain rfl := Option.some.inj h
  refine (row9 _ 0x92 0x2 (V_op _) (by decide)).trans ?_
  show (decCvtff _) = _
  have hv : (decide (ftd ≠ fta)) = true := ((Bool.and_eq_true _ _).mp hw).1
  simp (disch := decide) only [decCvtff, V_of, need_true, val_some, operand_code, ftype_of, round_of, read_or, read_same, read_apart, bit_or, bit_same, bit_apart, mask_or, mask_apart, or_zero_r, or_zero_l, Bool.false_or, Bool.or_false, Bool.or_self]
  simp_all [need, opnd, accept_wf]
theorem cvtii (u : Bool) (wd : IWidth) (ud : Bool) (wa : IWidth) (ua : Bool) (sat : Bool) (d : Opnd) (a : Opnd) : Statement (.cvtii u wd ud wa ua sat d a) := by
  intro hw w h
  obtain rfl := Option.some.inj h
  refine (row9 _ 0x93 0x3 (V_op _) (by decide)).trans ?_
  show (decCvtii _) = _
  have hv : (decide (¬(wd = wa ∧ ud = ua))) = true := ((Bool.and_eq_true _ _).mp hw).1
  simp (disch := decide) only [decCvtii, V_of, need_true, val_some, operand_code, iwidth_of, read_or, read_same, read_apart, bit_or, bit_same, bit_apart, mask_or, mask_apart, or_zero_r, or_zero_l, Bool.false_or, Bool.or_false, Bool.or_self]
  simp_all [need, opnd, accept_wf]
theorem packh (ty : PkType) (rm : Round) (ftz : Bool) (d : Opnd) (a : Opnd) (b : Opnd) : Statement (.packh ty rm ftz d a b) := by
  intro hw w h
  obtain rfl := Option.some.inj h
  refine (row9 _ 0x94 0x4 (V_op _) (by decide)).trans ?_
  show (decPackh _) = _
  simp (disch := decide) only [decPackh, V_of, need_true, val_some, operand_code, pk_of, round_of, read_or, read_same, read_apart, bit_or, bit_same, bit_apart, mask_or, mask_apart, or_zero_r, or_zero_l, Bool.false_or, Bool.or_false, Bool.or_self]
  simp_all [need, opnd, accept_wf]
theorem unpkh (ty : PkType) (hi : Bool) (d : Opnd) (a : Opnd) : Statement (.unpkh ty hi d a) := by
  intro hw w h
  obtain rfl := Option.some.inj h
  refine (row9 _ 0x95 0x5 (V_op _) (by decide)).trans ?_
  show (decUnpkh _) = _
  simp (disch := decide) only [decUnpkh, V_of, need_true, val_some, operand_code, pk_of, read_or, read_same, read_apart, bit_or, bit_same, bit_apart, mask_or, mask_apart, or_zero_r, or_zero_l, Bool.false_or, Bool.or_false, Bool.or_self]
  simp_all [need, opnd, accept_wf]
theorem xlane (mode : XMode) (dbl : Bool) (d : Opnd) (a : Opnd) (b : Opnd) : Statement (.xlane mode dbl d a b) := by
  intro hw w h
  obtain rfl := Option.some.inj h
  refine (row9 _ 0x96 0x6 (V_op _) (by decide)).trans ?_
  show (decXlane _) = _
  simp (disch := decide) only [decXlane, V_of, need_true, val_some, operand_code, xmode_of, read_or, read_same, read_apart, bit_or, bit_same, bit_apart, mask_or, mask_apart, or_zero_r, or_zero_l, Bool.false_or, Bool.or_false, Bool.or_self]
  simp_all [need, opnd, accept_wf]
theorem vote (mode : VMode) (d : Opnd) (a : Opnd) : Statement (.vote mode d a) := by
  intro hw w h
  obtain rfl := Option.some.inj h
  refine (row9 _ 0x97 0x7 (V_op _) (by decide)).trans ?_
  show (decVote _) = _
  simp (disch := decide) only [decVote, V_of, need_true, val_some, operand_code, vmode_of, read_or, read_same, read_apart, bit_or, bit_same, bit_apart, mask_or, mask_apart, or_zero_r, or_zero_l, Bool.false_or, Bool.or_false, Bool.or_self]
  simp_all [need, opnd, accept_wf]
theorem gredux (op : AluOp) (d : Opnd) (a : Opnd) : Statement (.gredux op d a) := by
  intro hw w h
  obtain rfl := Option.some.inj h
  refine (row9 _ 0x98 0x8 (V_op _) (by decide)).trans ?_
  show (decGredux _) = _
  have hv : (op.isRed) = true := ((Bool.and_eq_true _ _).mp hw).1
  simp (disch := decide) only [decGredux, V_of, need_true, val_some, operand_code, alu_of, read_or, read_same, read_apart, bit_or, bit_same, bit_apart, mask_or, mask_apart, or_zero_r, or_zero_l, Bool.false_or, Bool.or_false, Bool.or_self]
  simp_all [need, opnd, accept_wf]
theorem scan (op : AluOp) (ex : Bool) (seg : Bool) (d : Opnd) (a : Opnd) (b : Opnd) : Statement (.scan op ex seg d a b) := by
  intro hw w h
  obtain rfl := Option.some.inj h
  refine (row9 _ 0x99 0x9 (V_op _) (by decide)).trans ?_
  show (decScan _) = _
  have hv : (op.isRed && decide (seg = true ∨ b = .zero)) = true := ((Bool.and_eq_true _ _).mp hw).1
  simp (disch := decide) only [decScan, V_of, need_true, val_some, operand_code, alu_of, read_or, read_same, read_apart, bit_or, bit_same, bit_apart, mask_or, mask_apart, or_zero_r, or_zero_l, Bool.false_or, Bool.or_false, Bool.or_self, code_zero]
  simp_all [need, opnd, accept_wf]
theorem ld (sp : Space) (w : Width) (hint : Hint) (off : BitVec 24) (d : Opnd) (a : Opnd) : Statement (.ld sp w hint off d a) := by
  intro hw w h
  obtain rfl := Option.some.inj h
  refine (rowA _ 0xa0 0x0 (M_op _) (by decide)).trans ?_
  show (decLd _) = _
  have hv : (decide (sp.cached = true ∨ hint = .none)) = true := ((Bool.and_eq_true _ _).mp hw).1
  simp (disch := decide) only [decLd, M_of, need_true, val_some, operand_code, hint_of, space_of, width_of]
  simp_all [need, opnd, accept_wf]
theorem st (sp : Space) (w : Width) (hint : Hint) (off : BitVec 24) (s : Opnd) (a : Opnd) : Statement (.st sp w hint off s a) := by
  intro hw w h
  obtain rfl := Option.some.inj h
  refine (rowA _ 0xa1 0x1 (M_op _) (by decide)).trans ?_
  show (decSt _) = _
  have hv : (decide (sp.cached = true ∨ hint = .none)) = true := ((Bool.and_eq_true _ _).mp hw).1
  simp (disch := decide) only [decSt, M_of, need_true, val_some, operand_code, hint_of, space_of, width_of]
  simp_all [need, opnd, accept_wf]
theorem gather (sp : Space) (w : Width) (hint : Hint) (off : BitVec 24) (d : Opnd) (a : Opnd) (i : Opnd) : Statement (.gather sp w hint off d a i) := by
  intro hw w h
  obtain rfl := Option.some.inj h
  refine (rowA _ 0xa2 0x2 (M_op _) (by decide)).trans ?_
  show (decGather _) = _
  have hv : (decide (sp.cached = true ∨ hint = .none)) = true := ((Bool.and_eq_true _ _).mp hw).1
  simp (disch := decide) only [decGather, M_of, need_true, val_some, operand_code, hint_of, space_of, width_of]
  simp_all [need, opnd, accept_wf]
theorem scatter (sp : Space) (w : Width) (hint : Hint) (off : BitVec 24) (s : Opnd) (a : Opnd) (i : Opnd) : Statement (.scatter sp w hint off s a i) := by
  intro hw w h
  obtain rfl := Option.some.inj h
  refine (rowA _ 0xa3 0x3 (M_op _) (by decide)).trans ?_
  show (decScatter _) = _
  have hv : (decide (sp.cached = true ∨ hint = .none)) = true := ((Bool.and_eq_true _ _).mp hw).1
  simp (disch := decide) only [decScatter, M_of, need_true, val_some, operand_code, hint_of, space_of, width_of]
  simp_all [need, opnd, accept_wf]
theorem scatterAdd (sp : GS) (w : Width) (op : AluOp) (hint : Hint) (a : Opnd) (i : Opnd) (c : Opnd) : Statement (.scatterAdd sp w op hint a i c) := by
  intro hw w h
  obtain rfl := Option.some.inj h
  refine (rowA _ 0xa5 0x5 (V_op _) (by decide)).trans ?_
  show (if (V.word _).getLsbD 17 then decScatterAdd _ else decRed _) = _
  simp (disch := decide) only [V_bit17, bit_or, bit_apart, bit_same, or_zero_r, if_true, if_false, Bool.false_eq_true]
  have hv : (op.isAdd && op.okWidth w && decide (sp = .gl ∨ hint = .none)) = true := ((Bool.and_eq_true _ _).mp hw).1
  simp (disch := decide) only [decScatterAdd, V_of, need_true, val_some, operand_code, alu_of, gs_of, hint_of, width_of, read_or, read_same, read_apart, bit_or, bit_same, bit_apart, mask_or, mask_apart, or_zero_r, or_zero_l, Bool.false_or, Bool.or_false, Bool.or_self]
  simp_all [need, opnd, accept_wf, val_some, alu_of, gs_of, hint_of, width_of]
theorem atom (u : Bool) (sp : GS) (w : Width) (op : AluOp) (hint : Hint) (d : Opnd) (a : Opnd) (b : Opnd) (c : Opnd) : Statement (.atom u sp w op hint d a b c) := by
  intro hw w h
  obtain rfl := Option.some.inj h
  refine (rowA _ 0xa4 0x4 (V_op _) (by decide)).trans ?_
  show (decAtom _) = _
  have hv : (op.okWidth w && decide (sp = .gl ∨ hint = .none) && decide (op = .cas ∨ c = .zero)) = true := ((Bool.and_eq_true _ _).mp hw).1
  simp (disch := decide) only [decAtom, V_of, need_true, val_some, operand_code, alu_of, gs_of, hint_of, width_of, read_or, read_same, read_apart, bit_or, bit_same, bit_apart, mask_or, mask_apart, or_zero_r, or_zero_l, Bool.false_or, Bool.or_false, Bool.or_self, code_zero]
  simp_all [need, opnd, accept_wf]
theorem red (u : Bool) (sp : GS) (w : Width) (op : AluOp) (hint : Hint) (a : Opnd) (b : Opnd) : Statement (.red u sp w op hint a b) := by
  intro hw w h
  obtain rfl := Option.some.inj h
  refine (rowA _ 0xa5 0x5 (V_op _) (by decide)).trans ?_
  show (if (V.word _).getLsbD 17 then decScatterAdd _ else decRed _) = _
  simp (disch := decide) only [V_bit17, bit_or, bit_apart, bit_same, or_zero_r, if_true, if_false, Bool.false_eq_true]
  have hv : (op.isRed && op.okWidth w && decide (sp = .gl ∨ hint = .none)) = true := ((Bool.and_eq_true _ _).mp hw).1
  simp (disch := decide) only [decRed, V_of, need_true, val_some, operand_code, alu_of, gs_of, hint_of, width_of, read_or, read_same, read_apart, bit_or, bit_same, bit_apart, mask_or, mask_apart, or_zero_r, or_zero_l, Bool.false_or, Bool.or_false, Bool.or_self]
  simp_all [need, opnd, accept_wf]
theorem acq (u : Bool) (sp : GS) (hint : Hint) (off : BitVec 24) (a : Opnd) : Statement (.acq u sp hint off a) := by
  intro hw w h
  obtain rfl := Option.some.inj h
  refine (rowA _ 0xa6 0x6 (M_op _) (by decide)).trans ?_
  show (decAcq _) = _
  have hv : (decide (sp = .gl ∨ hint = .none)) = true := ((Bool.and_eq_true _ _).mp hw).1
  simp (disch := decide) only [decAcq, M_of, need_true, val_some, operand_code, gs_of, hint_of]
  simp_all [need, opnd, accept_wf]
theorem rel (u : Bool) (sp : GS) (hint : Hint) (off : BitVec 24) (a : Opnd) : Statement (.rel u sp hint off a) := by
  intro hw w h
  obtain rfl := Option.some.inj h
  refine (rowA _ 0xa7 0x7 (M_op _) (by decide)).trans ?_
  show (decRel _) = _
  have hv : (decide (sp = .gl ∨ hint = .none)) = true := ((Bool.and_eq_true _ _).mp hw).1
  simp (disch := decide) only [decRel, M_of, need_true, val_some, operand_code, gs_of, hint_of]
  simp_all [need, opnd, accept_wf]
theorem acqld (u : Bool) (sp : GS) (hint : Hint) (off : BitVec 24) (d : Opnd) (a : Opnd) : Statement (.acqld u sp hint off d a) := by
  intro hw w h
  obtain rfl := Option.some.inj h
  refine (rowA _ 0xa8 0x8 (M_op _) (by decide)).trans ?_
  show (decAcqld _) = _
  have hv : (decide (sp = .gl ∨ hint = .none)) = true := ((Bool.and_eq_true _ _).mp hw).1
  simp (disch := decide) only [decAcqld, M_of, need_true, val_some, operand_code, gs_of, hint_of]
  simp_all [need, opnd, accept_wf]
theorem relst (u : Bool) (sp : GS) (hint : Hint) (off : BitVec 24) (s : Opnd) (a : Opnd) : Statement (.relst u sp hint off s a) := by
  intro hw w h
  obtain rfl := Option.some.inj h
  refine (rowA _ 0xa9 0x9 (M_op _) (by decide)).trans ?_
  show (decRelst _) = _
  have hv : (decide (sp = .gl ∨ hint = .none)) = true := ((Bool.and_eq_true _ _).mp hw).1
  simp (disch := decide) only [decRelst, M_of, need_true, val_some, operand_code, gs_of, hint_of]
  simp_all [need, opnd, accept_wf]
theorem fence : Statement (.fence) := by
  intro hw w h
  obtain rfl := Option.some.inj h
  refine (rowA _ 0xaa 0xa (V_op _) (by decide)).trans ?_
  show (decFence _) = _
  simp (disch := decide) only [decFence, V_of, need_true, val_some, operand_code]
  simp_all [need, opnd, accept_wf]
theorem xfence (p : APath) (q : APath) : Statement (.xfence p q) := by
  intro hw w h
  obtain rfl := Option.some.inj h
  refine (rowA _ 0xab 0xb (V_op _) (by decide)).trans ?_
  show (decXfence _) = _
  have hv : (decide (p ≠ q)) = true := ((Bool.and_eq_true _ _).mp hw).1
  simp (disch := decide) only [decXfence, V_of, need_true, val_some, operand_code, path_of, read_or, read_same, read_apart, bit_or, bit_same, bit_apart, mask_or, mask_apart, or_zero_r, or_zero_l, Bool.false_or, Bool.or_false, Bool.or_self]
  simp_all [need, opnd, accept_wf]
theorem bind (d : Opnd) (a : Opnd) (b : Opnd) (c : Opnd) : Statement (.bind d a b c) := by
  intro hw w h
  obtain rfl := Option.some.inj h
  refine (rowA _ 0xac 0xc (V_op _) (by decide)).trans ?_
  show (decBind _) = _
  simp (disch := decide) only [decBind, V_of, need_true, val_some, operand_code]
  simp_all [need, opnd, accept_wf]
theorem unbind (d : Opnd) (a : Opnd) : Statement (.unbind d a) := by
  intro hw w h
  obtain rfl := Option.some.inj h
  refine (rowA _ 0xad 0xd (V_op _) (by decide)).trans ?_
  show (decUnbind _) = _
  simp (disch := decide) only [decUnbind, V_of, need_true, val_some, operand_code]
  simp_all [need, opnd, accept_wf]
theorem pref (w : Width) (hint : Hint) (off : BitVec 24) (a : Opnd) (i : Opnd) : Statement (.pref w hint off a i) := by
  intro hw w h
  obtain rfl := Option.some.inj h
  refine (rowA _ 0xae 0xe (M_op _) (by decide)).trans ?_
  show (decPref _) = _
  simp (disch := decide) only [decPref, M_of, need_true, val_some, operand_code, hint_of, width_of]
  simp_all [need, opnd, accept_wf]
theorem spill (sp : Space) (hint : Hint) (off : BitVec 24) (n : BitVec 8) (k1 : BitVec 5) (a : Opnd) : Statement (.spill sp hint off n k1 a) := by
  intro hw w h
  obtain rfl := Option.some.inj h
  refine (rowA _ 0xaf 0xf (M_op _) (by decide)).trans ?_
  show (decSpill _) = _
  have hv : (sp.cached && decide (n.toNat + k1.toNat ≤ 255)) = true := ((Bool.and_eq_true _ _).mp hw).1
  simp (disch := decide) only [decSpill, M_of, need_true, val_some, operand_code, hint_of, space_of, low_same, low_apart]
  simp_all [need, opnd, accept_wf]
theorem fill (sp : Space) (hint : Hint) (off : BitVec 24) (n : BitVec 8) (k1 : BitVec 5) (a : Opnd) : Statement (.fill sp hint off n k1 a) := by
  intro hw w h
  obtain rfl := Option.some.inj h
  refine (rowB _ 0xb0 0x0 (M_op _) (by decide)).trans ?_
  show (decFill _) = _
  have hv : (sp.cached && decide (n.toNat + k1.toNat ≤ 255)) = true := ((Bool.and_eq_true _ _).mp hw).1
  simp (disch := decide) only [decFill, M_of, need_true, val_some, operand_code, hint_of, space_of, low_same, low_apart]
  simp_all [need, opnd, accept_wf]
theorem cpy (tag : BitVec 3) (lk : Bool) (n1 : BitVec 5) (dsp : GS) (ssp : GS) (hint : Hint) (d : Opnd) (a : Opnd) (b : Opnd) : Statement (.cpy tag lk n1 dsp ssp hint d a b) := by
  intro hw w h
  obtain rfl := Option.some.inj h
  refine (rowB _ 0xb1 0x1 (V_op _) (by decide)).trans ?_
  show (decCpy _) = _
  have hv : (decide (lk = false ∨ (dsp = .gl ∧ ssp = .gl)) && decide (ssp = .gl ∨ hint = .none)) = true := ((Bool.and_eq_true _ _).mp hw).1
  simp (disch := decide) only [decCpy, V_of, need_true, val_some, operand_code, gs_of, hint_of, read_or, read_same, read_apart, bit_or, bit_same, bit_apart, mask_or, mask_apart, or_zero_r, or_zero_l, Bool.false_or, Bool.or_false, Bool.or_self]
  simp_all [need, opnd, accept_wf]
theorem cpy2d (tag : BitVec 3) (lk : Bool) (dsp : GS) (ssp : GS) (hint : Hint) (d : Opnd) (a : Opnd) (b : Opnd) (ga : BitVec 6) (gb : BitVec 6) (gc : BitVec 6) : Statement (.cpy2d tag lk dsp ssp hint d a b ga gb gc) := by
  intro hw w h
  obtain rfl := Option.some.inj h
  refine (rowB _ 0xb2 0x2 (X_op _) (by decide)).trans ?_
  show (decCpy2d _) = _
  have hv : (decide (lk = false ∨ (dsp = .gl ∧ ssp = .gl)) && decide (ssp = .gl ∨ hint = .none)) = true := ((Bool.and_eq_true _ _).mp hw).1
  simp (disch := decide) only [decCpy2d, X_of, need_true, val_some, operand_code, gs_of, hint_of, read_or, read_same, read_apart, bit_or, bit_same, bit_apart, mask_or, mask_apart, or_zero_r, or_zero_l, Bool.false_or, Bool.or_false, Bool.or_self]
  simp_all [need, opnd, accept_wf]
theorem cseal (tag : BitVec 3) (d : BitVec 6) : Statement (.cseal tag d) := by
  intro hw w h
  obtain rfl := Option.some.inj h
  refine (rowB _ 0xb3 0x3 (V_op _) (by decide)).trans ?_
  show (decCseal _) = _
  have hs := gang_code d
  simp (disch := decide) only [decCseal, V_of, need_true, val_some, operand_code, read_or, read_same, read_apart, bit_or, bit_same, bit_apart, mask_or, mask_apart, or_zero_r, or_zero_l, Bool.false_or, Bool.or_false, Bool.or_self, low_same, low_apart]
  simp_all [need, opnd, accept_wf]
theorem cdec (tag : BitVec 3) (hint : Hint) (d : Opnd) (a : Opnd) (ga : BitVec 6) (gb : BitVec 6) : Statement (.cdec tag hint d a ga gb) := by
  intro hw w h
  obtain rfl := Option.some.inj h
  refine (rowB _ 0xb4 0x4 (X_op _) (by decide)).trans ?_
  show (decCdec _) = _
  simp (disch := decide) only [decCdec, X_of, need_true, val_some, operand_code, hint_of, read_or, read_same, read_apart, bit_or, bit_same, bit_apart, mask_or, mask_apart, or_zero_r, or_zero_l, Bool.false_or, Bool.or_false, Bool.or_self]
  simp_all [need, opnd, accept_wf]
theorem fopen (k : BitVec 3) (cw : CWidth) (vw : VWidth) (a : Opnd) (b : Opnd) (c : Opnd) : Statement (.fopen k cw vw a b c) := by
  intro hw w h
  obtain rfl := Option.some.inj h
  refine (rowB _ 0xb5 0x5 (V_op _) (by decide)).trans ?_
  show (decFopen _) = _
  simp (disch := decide) only [decFopen, V_of, need_true, val_some, operand_code, cw_of, vw_of, read_or, read_same, read_apart, bit_or, bit_same, bit_apart, mask_or, mask_apart, or_zero_r, or_zero_l, Bool.false_or, Bool.or_false, Bool.or_self]
  simp_all [need, opnd, accept_wf]
theorem fnext (k : BitVec 3) (dbl : Bool) (hint : Hint) (d : Opnd) (c : Opnd) : Statement (.fnext k dbl hint d c) := by
  intro hw w h
  obtain rfl := Option.some.inj h
  refine (rowB _ 0xb6 0x6 (V_op _) (by decide)).trans ?_
  show (decFnext _) = _
  simp (disch := decide) only [decFnext, V_of, need_true, val_some, operand_code, hint_of, read_or, read_same, read_apart, bit_or, bit_same, bit_apart, mask_or, mask_apart, or_zero_r, or_zero_l, Bool.false_or, Bool.or_false, Bool.or_self]
  simp_all [need, opnd, accept_wf]
theorem ftest (k : BitVec 3) (d : Opnd) : Statement (.ftest k d) := by
  intro hw w h
  obtain rfl := Option.some.inj h
  refine (rowB _ 0xb7 0x7 (V_op _) (by decide)).trans ?_
  show (decFtest _) = _
  simp (disch := decide) only [decFtest, V_of, need_true, val_some, operand_code, read_or, read_same, read_apart, bit_or, bit_same, bit_apart, mask_or, mask_apart, or_zero_r, or_zero_l, Bool.false_or, Bool.or_false, Bool.or_self]
  simp_all [need, opnd, accept_wf]
theorem fclose (k : BitVec 3) : Statement (.fclose k) := by
  intro hw w h
  obtain rfl := Option.some.inj h
  refine (rowB _ 0xb8 0x8 (V_op _) (by decide)).trans ?_
  show (decFclose _) = _
  simp (disch := decide) only [decFclose, V_of, need_true, val_some, operand_code, read_or, read_same, read_apart, bit_or, bit_same, bit_apart, mask_or, mask_apart, or_zero_r, or_zero_l, Bool.false_or, Bool.or_false, Bool.or_self]
  simp_all [need, opnd, accept_wf]
theorem orsv (d : Opnd) (ga : BitVec 6) : Statement (.orsv d ga) := by
  intro hw w h
  obtain rfl := Option.some.inj h
  refine (rowC _ 0xc0 0x0 (X_op _) (by decide)).trans ?_
  show (decOrsv _) = _
  simp (disch := decide) only [decOrsv, X_of, need_true, val_some, operand_code]
  simp_all [need, opnd, accept_wf]
theorem orls (d : Opnd) (ga : BitVec 6) : Statement (.orls d ga) := by
  intro hw w h
  obtain rfl := Option.some.inj h
  refine (rowC _ 0xc1 0x1 (X_op _) (by decide)).trans ?_
  show (decOrls _) = _
  simp (disch := decide) only [decOrls, X_of, need_true, val_some, operand_code]
  simp_all [need, opnd, accept_wf]
theorem mgath (p : RowPart) (a : Opnd) : Statement (.mgath p a) := by
  intro hw w h
  obtain rfl := Option.some.inj h
  refine (rowC _ 0xc2 0x2 (X_op _) (by decide)).trans ?_
  show (decMgath _) = _
  simp (disch := decide) only [decMgath, X_of, need_true, val_some, operand_code, part_of, read_or, read_same, read_apart, bit_or, bit_same, bit_apart, mask_or, mask_apart, or_zero_r, or_zero_l, Bool.false_or, Bool.or_false, Bool.or_self]
  simp_all [need, opnd, accept_wf]
theorem mma (spf : Bool) (co : Bool) (x : Opnd) (b : Opnd) (o : Opnd) (ga : BitVec 6) (gb : BitVec 6) (gc : BitVec 6) : Statement (.mma spf co x b o ga gb gc) := by
  intro hw w h
  obtain rfl := Option.some.inj h
  refine (rowC _ 0xc3 0x3 (X_op _) (by decide)).trans ?_
  show (decMma _) = _
  have hv : (decide (¬(spf = true ∧ co = true)) && decide (spf = true ∨ co = true ∨ x = .zero)) = true := ((Bool.and_eq_true _ _).mp hw).1
  simp (disch := decide) only [decMma, X_of, need_true, val_some, operand_code, read_or, read_same, read_apart, bit_or, bit_same, bit_apart, mask_or, mask_apart, or_zero_r, or_zero_l, Bool.false_or, Bool.or_false, Bool.or_self, code_zero]
  simp_all [need, opnd, accept_wf]
theorem mmap (spf : Bool) (t : BitVec 8) (x : Opnd) (b : Opnd) (o : Opnd) (ga : BitVec 6) (gb : BitVec 6) (gc : BitVec 6) : Statement (.mmap spf t x b o ga gb gc) := by
  intro hw w h
  obtain rfl := Option.some.inj h
  refine (rowC _ 0xc4 0x4 (X_op _) (by decide)).trans ?_
  show (decMmap _) = _
  have hv : (decide (spf = true ∨ x = .zero)) = true := ((Bool.and_eq_true _ _).mp hw).1
  simp (disch := decide) only [decMmap, X_of, need_true, val_some, operand_code, read_or, read_same, read_apart, bit_or, bit_same, bit_apart, mask_or, mask_apart, or_zero_r, or_zero_l, Bool.false_or, Bool.or_false, Bool.or_self, code_zero]
  simp_all [need, opnd, accept_wf]
theorem guide (d : Opnd) (o : Opnd) (ga : BitVec 6) (gb : BitVec 6) (gc : BitVec 6) : Statement (.guide d o ga gb gc) := by
  intro hw w h
  obtain rfl := Option.some.inj h
  refine (rowC _ 0xc5 0x5 (X_op _) (by decide)).trans ?_
  show (decGuide _) = _
  simp (disch := decide) only [decGuide, X_of, need_true, val_some, operand_code]
  simp_all [need, opnd, accept_wf]
theorem mzero (o : Opnd) (ga : BitVec 6) (gb : BitVec 6) : Statement (.mzero o ga gb) := by
  intro hw w h
  obtain rfl := Option.some.inj h
  refine (rowC _ 0xc6 0x6 (X_op _) (by decide)).trans ?_
  show (decMzero _) = _
  simp (disch := decide) only [decMzero, X_of, need_true, val_some, operand_code]
  simp_all [need, opnd, accept_wf]
theorem mst (sp : GS) (bf : Bool) (hint : Hint) (a : Opnd) (o : Opnd) (ga : BitVec 6) (gb : BitVec 6) (gc : BitVec 6) : Statement (.mst sp bf hint a o ga gb gc) := by
  intro hw w h
  obtain rfl := Option.some.inj h
  refine (rowC _ 0xc7 0x7 (X_op _) (by decide)).trans ?_
  show (decMst _) = _
  have hv : (decide (sp = .gl ∨ hint = .none)) = true := ((Bool.and_eq_true _ _).mp hw).1
  simp (disch := decide) only [decMst, X_of, need_true, val_some, operand_code, gs_of, hint_of, read_or, read_same, read_apart, bit_or, bit_same, bit_apart, mask_or, mask_apart, or_zero_r, or_zero_l, Bool.false_or, Bool.or_false, Bool.or_self]
  simp_all [need, opnd, accept_wf]
theorem mld (sp : GS) (bf : Bool) (hint : Hint) (a : Opnd) (o : Opnd) (ga : BitVec 6) (gb : BitVec 6) (gc : BitVec 6) : Statement (.mld sp bf hint a o ga gb gc) := by
  intro hw w h
  obtain rfl := Option.some.inj h
  refine (rowC _ 0xc8 0x8 (X_op _) (by decide)).trans ?_
  show (decMld _) = _
  have hv : (decide (sp = .gl ∨ hint = .none)) = true := ((Bool.and_eq_true _ _).mp hw).1
  simp (disch := decide) only [decMld, X_of, need_true, val_some, operand_code, gs_of, hint_of, read_or, read_same, read_apart, bit_or, bit_same, bit_apart, mask_or, mask_apart, or_zero_r, or_zero_l, Bool.false_or, Bool.or_false, Bool.or_self]
  simp_all [need, opnd, accept_wf]
theorem mspsel (d : Opnd) (a : Opnd) (x : Opnd) (ga : BitVec 6) (gb : BitVec 6) : Statement (.mspsel d a x ga gb) := by
  intro hw w h
  obtain rfl := Option.some.inj h
  refine (rowC _ 0xc9 0x9 (X_op _) (by decide)).trans ?_
  show (decMspsel _) = _
  simp (disch := decide) only [decMspsel, X_of, need_true, val_some, operand_code]
  simp_all [need, opnd, accept_wf]
theorem spst (sp : GS) (hint : Hint) (a : Opnd) (o : Opnd) (ga : BitVec 6) (gb : BitVec 6) : Statement (.spst sp hint a o ga gb) := by
  intro hw w h
  obtain rfl := Option.some.inj h
  refine (rowC _ 0xca 0xa (X_op _) (by decide)).trans ?_
  show (decSpst _) = _
  have hv : (decide (sp = .gl ∨ hint = .none)) = true := ((Bool.and_eq_true _ _).mp hw).1
  simp (disch := decide) only [decSpst, X_of, need_true, val_some, operand_code, gs_of, hint_of, read_or, read_same, read_apart, bit_or, bit_same, bit_apart, mask_or, mask_apart, or_zero_r, or_zero_l, Bool.false_or, Bool.or_false, Bool.or_self]
  simp_all [need, opnd, accept_wf]
theorem mclaim : Statement (.mclaim) := by
  intro hw w h
  obtain rfl := Option.some.inj h
  refine (rowC _ 0xcb 0xb (X_op _) (by decide)).trans ?_
  show (decMclaim _) = _
  simp (disch := decide) only [decMclaim, X_of, need_true, val_some, operand_code]
  simp_all [need, opnd, accept_wf]
theorem mpass (ga : BitVec 6) : Statement (.mpass ga) := by
  intro hw w h
  obtain rfl := Option.some.inj h
  refine (rowC _ 0xcc 0xc (X_op _) (by decide)).trans ?_
  show (decMpass _) = _
  simp (disch := decide) only [decMpass, X_of, need_true, val_some, operand_code]
  simp_all [need, opnd, accept_wf]
theorem recruit (d : Opnd) (w : BitVec 5) (k1 : BitVec 3) (n : BitVec 7) (off : BitVec 32) : Statement (.recruit d w k1 n off) := by
  intro hw w h
  obtain rfl := Option.some.inj h
  refine (rowD _ 0xd0 0x0 (T_op _) (by decide)).trans ?_
  show (decRecruit _) = _
  have hv : (decide (1 ≤ n.toNat ∧ n.toNat ≤ 30)) = true := ((Bool.and_eq_true _ _).mp hw).1
  simp (disch := decide) only [decRecruit, T_of, need_true, val_some, operand_code, read_or, read_same, read_apart, bit_or, bit_same, bit_apart, mask_or, mask_apart, or_zero_r, or_zero_l, Bool.false_or, Bool.or_false, Bool.or_self, low_same, low_apart]
  simp_all [need, opnd, accept_wf]
theorem hread (d : Opnd) (i : BitVec 7) : Statement (.hread d i) := by
  intro hw w h
  obtain rfl := Option.some.inj h
  refine (rowD _ 0xd1 0x1 (V_op _) (by decide)).trans ?_
  show (decHread _) = _
  have hv : (decide (i.toNat < 8 ∨ 64 ≤ i.toNat)) = true := ((Bool.and_eq_true _ _).mp hw).1
  simp (disch := decide) only [decHread, V_of, need_true, val_some, operand_code, read_or, read_same, read_apart, bit_or, bit_same, bit_apart, mask_or, mask_apart, or_zero_r, or_zero_l, Bool.false_or, Bool.or_false, Bool.or_self]
  simp_all [need, opnd, accept_wf]
theorem hret (op : AluOp) (a : Opnd) : Statement (.hret op a) := by
  intro hw w h
  obtain rfl := Option.some.inj h
  refine (rowD _ 0xd2 0x2 (V_op _) (by decide)).trans ?_
  show (decHret _) = _
  have hv : (op.isHret) = true := ((Bool.and_eq_true _ _).mp hw).1
  simp (disch := decide) only [decHret, V_of, need_true, val_some, operand_code, alu_of, read_or, read_same, read_apart, bit_or, bit_same, bit_apart, mask_or, mask_apart, or_zero_r, or_zero_l, Bool.false_or, Bool.or_false, Bool.or_self]
  simp_all [need, opnd, accept_wf]
theorem hend : Statement (.hend) := by
  intro hw w h
  obtain rfl := Option.some.inj h
  refine (rowD _ 0xd3 0x3 (V_op _) (by decide)).trans ?_
  show (decHend _) = _
  simp (disch := decide) only [decHend, V_of, need_true, val_some, operand_code]
  simp_all [need, opnd, accept_wf]
theorem join (nt : Bool) (d : Opnd) (m : Opnd) (c : Opnd) : Statement (.join nt d m c) := by
  intro hw w h
  obtain rfl := Option.some.inj h
  refine (rowD _ 0xd4 0x4 (V_op _) (by decide)).trans ?_
  show (decJoin _) = _
  simp (disch := decide) only [decJoin, V_of, need_true, val_some, operand_code, read_or, read_same, read_apart, bit_or, bit_same, bit_apart, mask_or, mask_apart, or_zero_r, or_zero_l, Bool.false_or, Bool.or_false, Bool.or_self]
  simp_all [need, opnd, accept_wf]
theorem dismiss : Statement (.dismiss) := by
  intro hw w h
  obtain rfl := Option.some.inj h
  refine (rowD _ 0xd5 0x5 (V_op _) (by decide)).trans ?_
  show (decDismiss _) = _
  simp (disch := decide) only [decDismiss, V_of, need_true, val_some, operand_code]
  simp_all [need, opnd, accept_wf]
theorem bar (b : BitVec 4) (a : Opnd) : Statement (.bar b a) := by
  intro hw w h
  obtain rfl := Option.some.inj h
  refine (rowD _ 0xd8 0x8 (V_op _) (by decide)).trans ?_
  show (decBar _) = _
  simp (disch := decide) only [decBar, V_of, need_true, val_some, operand_code, read_or, read_same, read_apart, bit_or, bit_same, bit_apart, mask_or, mask_apart, or_zero_r, or_zero_l, Bool.false_or, Bool.or_false, Bool.or_self]
  simp_all [need, opnd, accept_wf]
theorem barl (d : Opnd) (b : BitVec 4) (a : Opnd) : Statement (.barl d b a) := by
  intro hw w h
  obtain rfl := Option.some.inj h
  refine (rowD _ 0xd9 0x9 (V_op _) (by decide)).trans ?_
  show (decBarl _) = _
  simp (disch := decide) only [decBarl, V_of, need_true, val_some, operand_code, read_or, read_same, read_apart, bit_or, bit_same, bit_apart, mask_or, mask_apart, or_zero_r, or_zero_l, Bool.false_or, Bool.or_false, Bool.or_self]
  simp_all [need, opnd, accept_wf]
theorem arrive (b : BitVec 4) (a : Opnd) : Statement (.arrive b a) := by
  intro hw w h
  obtain rfl := Option.some.inj h
  refine (rowD _ 0xda 0xa (V_op _) (by decide)).trans ?_
  show (decArrive _) = _
  simp (disch := decide) only [decArrive, V_of, need_true, val_some, operand_code, read_or, read_same, read_apart, bit_or, bit_same, bit_apart, mask_or, mask_apart, or_zero_r, or_zero_l, Bool.false_or, Bool.or_false, Bool.or_self]
  simp_all [need, opnd, accept_wf]
theorem mon (sp : GS) (off : BitVec 24) (a : Opnd) : Statement (.mon sp off a) := by
  intro hw w h
  obtain rfl := Option.some.inj h
  refine (rowD _ 0xdb 0xb (M_op _) (by decide)).trans ?_
  show (decMon _) = _
  simp (disch := decide) only [decMon, M_of, need_true, val_some, operand_code, gs_of]
  simp_all [need, opnd, accept_wf]
theorem waitmon (d : Opnd) : Statement (.waitmon d) := by
  intro hw w h
  obtain rfl := Option.some.inj h
  refine (rowD _ 0xdc 0xc (V_op _) (by decide)).trans ?_
  show (decWaitmon _) = _
  simp (disch := decide) only [decWaitmon, V_of, need_true, val_some, operand_code]
  simp_all [need, opnd, accept_wf]
theorem qpush (u : Bool) (q : BitVec 6) (d : Opnd) (a : Opnd) : Statement (.qpush u q d a) := by
  intro hw w h
  obtain rfl := Option.some.inj h
  refine (rowD _ 0xdd 0xd (V_op _) (by decide)).trans ?_
  show (decQpush _) = _
  simp (disch := decide) only [decQpush, V_of, need_true, val_some, operand_code, read_or, read_same, read_apart, bit_or, bit_same, bit_apart, mask_or, mask_apart, or_zero_r, or_zero_l, Bool.false_or, Bool.or_false, Bool.or_self]
  simp_all [need, opnd, accept_wf]
theorem qpop (u : Bool) (q : BitVec 6) (d : Opnd) (s : Opnd) : Statement (.qpop u q d s) := by
  intro hw w h
  obtain rfl := Option.some.inj h
  refine (rowD _ 0xde 0xe (V_op _) (by decide)).trans ?_
  show (decQpop _) = _
  simp (disch := decide) only [decQpop, V_of, need_true, val_some, operand_code, read_or, read_same, read_apart, bit_or, bit_same, bit_apart, mask_or, mask_apart, or_zero_r, or_zero_l, Bool.false_or, Bool.or_false, Bool.or_self]
  simp_all [need, opnd, accept_wf]
theorem qlen (u : Bool) (q : BitVec 6) (d : Opnd) : Statement (.qlen u q d) := by
  intro hw w h
  obtain rfl := Option.some.inj h
  refine (rowD _ 0xdf 0xf (V_op _) (by decide)).trans ?_
  show (decQlen _) = _
  simp (disch := decide) only [decQlen, V_of, need_true, val_some, operand_code, read_or, read_same, read_apart, bit_or, bit_same, bit_apart, mask_or, mask_apart, or_zero_r, or_zero_l, Bool.false_or, Bool.or_false, Bool.or_self]
  simp_all [need, opnd, accept_wf]
theorem gets (u : Bool) (r : SReg) (d : Opnd) : Statement (.gets u r d) := by
  intro hw w h
  obtain rfl := Option.some.inj h
  refine (rowE _ 0xe0 0x0 (V_op _) (by decide)).trans ?_
  show (decGets _) = _
  have hv : (decide (u = false ∨ r.uniform = true)) = true := ((Bool.and_eq_true _ _).mp hw).1
  simp (disch := decide) only [decGets, V_of, need_true, val_some, operand_code, sreg_of, read_or, read_same, read_apart, bit_or, bit_same, bit_apart, mask_or, mask_apart, or_zero_r, or_zero_l, Bool.false_or, Bool.or_false, Bool.or_self]
  simp_all [need, opnd, accept_wf]
theorem sets (r : SReg) (a : Opnd) : Statement (.sets r a) := by
  intro hw w h
  obtain rfl := Option.some.inj h
  refine (rowE _ 0xe1 0x1 (V_op _) (by decide)).trans ?_
  show (decSets _) = _
  have hv : (r.writable) = true := ((Bool.and_eq_true _ _).mp hw).1
  simp (disch := decide) only [decSets, V_of, need_true, val_some, operand_code, sreg_of, read_or, read_same, read_apart, bit_or, bit_same, bit_apart, mask_or, mask_apart, or_zero_r, or_zero_l, Bool.false_or, Bool.or_false, Bool.or_self]
  simp_all [need, opnd, accept_wf]
theorem role (r : Role) : Statement (.role r) := by
  intro hw w h
  obtain rfl := Option.some.inj h
  refine (rowE _ 0xe2 0x2 (V_op _) (by decide)).trans ?_
  show (decRole _) = _
  simp (disch := decide) only [decRole, V_of, need_true, val_some, operand_code, role_of, read_or, read_same, read_apart, bit_or, bit_same, bit_apart, mask_or, mask_apart, or_zero_r, or_zero_l, Bool.false_or, Bool.or_false, Bool.or_self]
  simp_all [need, opnd, accept_wf]
theorem grow (n8 : BitVec 6) (d : Opnd) : Statement (.grow n8 d) := by
  intro hw w h
  obtain rfl := Option.some.inj h
  refine (rowE _ 0xe3 0x3 (V_op _) (by decide)).trans ?_
  show (decGrow _) = _
  have hv : (decide (8 ≤ n8.toNat ∧ n8.toNat ≤ 32)) = true := ((Bool.and_eq_true _ _).mp hw).1
  simp (disch := decide) only [decGrow, V_of, need_true, val_some, operand_code, read_or, read_same, read_apart, bit_or, bit_same, bit_apart, mask_or, mask_apart, or_zero_r, or_zero_l, Bool.false_or, Bool.or_false, Bool.or_self]
  simp_all [need, opnd, accept_wf]
theorem shrink (n8 : BitVec 6) : Statement (.shrink n8) := by
  intro hw w h
  obtain rfl := Option.some.inj h
  refine (rowE _ 0xe4 0x4 (V_op _) (by decide)).trans ?_
  show (decShrink _) = _
  have hv : (decide (8 ≤ n8.toNat ∧ n8.toNat ≤ 32)) = true := ((Bool.and_eq_true _ _).mp hw).1
  simp (disch := decide) only [decShrink, V_of, need_true, val_some, operand_code, read_or, read_same, read_apart, bit_or, bit_same, bit_apart, mask_or, mask_apart, or_zero_r, or_zero_l, Bool.false_or, Bool.or_false, Bool.or_self]
  simp_all [need, opnd, accept_wf]
theorem guardedCommandResolution (id : Nat) : Statement (.guardedCommandResolution id) := by intro _ _ h; cases h
theorem copyCommandComplete (id : Nat) : Statement (.copyCommandComplete id) := by intro _ _ h; cases h
theorem matrixEngineGrant (cluster : Nat) : Statement (.matrixEngineGrant cluster) := by intro _ _ h; cases h
theorem matrixCommandComplete (id : Nat) : Statement (.matrixCommandComplete id) := by intro _ _ h; cases h
theorem pairWaitExpiry (id : Nat) : Statement (.pairWaitExpiry id) := by intro _ _ h; cases h
theorem cooperativeMatchTimeout (id : Nat) : Statement (.cooperativeMatchTimeout id) := by intro _ _ h; cases h
theorem growGrant (core : Nat) : Statement (.growGrant core) := by intro _ _ h; cases h
theorem growStuckDenial (core : Nat) : Statement (.growStuckDenial core) := by intro _ _ h; cases h
theorem monitorEviction (core : Nat) (line : MonLine) : Statement (.monitorEviction core line) := by intro _ _ h; cases h
theorem waitmonTimerExpiry (t : ThreadId) : Statement (.waitmonTimerExpiry t) := by intro _ _ h; cases h
theorem sluiceRelease (u : Nat) : Statement (.sluiceRelease u) := by intro _ _ h; cases h
theorem watchdogExpiry (u : Nat) : Statement (.watchdogExpiry u) := by intro _ _ h; cases h
theorem trigger (ctx : Nat) (v : DWord) : Statement (.trigger ctx v) := by intro _ _ h; cases h
theorem triggerBegin (ctx : Nat) (gid : Nat) : Statement (.triggerBegin ctx gid) := by intro _ _ h; cases h
theorem gload (ctx : Nat) (v : DWord) : Statement (.gload ctx v) := by intro _ _ h; cases h
theorem launchStart (gid : Nat) (node : Nat) : Statement (.launchStart gid node) := by intro _ _ h; cases h
theorem unitDispatch (launch : Nat) (idx : Nat) (core : Nat) : Statement (.unitDispatch launch idx core) := by intro _ _ h; cases h
theorem unitDeschedule (u : Nat) : Statement (.unitDeschedule u) := by intro _ _ h; cases h
theorem quantumExpiry (u : Nat) : Statement (.quantumExpiry u) := by intro _ _ h; cases h
theorem cancelUnit (ctx : Nat) (v : DWord) : Statement (.cancelUnit ctx v) := by intro _ _ h; cases h
theorem cancelLaunch (ctx : Nat) (v : DWord) : Statement (.cancelLaunch ctx v) := by intro _ _ h; cases h
theorem cancelGraph (ctx : Nat) (v : DWord) : Statement (.cancelGraph ctx v) := by intro _ _ h; cases h
theorem cancelPhase (ctx : Nat) (v : DWord) : Statement (.cancelPhase ctx v) := by intro _ _ h; cases h
theorem cancelJob (ctx : Nat) (v : DWord) : Statement (.cancelJob ctx v) := by intro _ _ h; cases h
theorem ctxcmdPreempt (ctx : Nat) : Statement (.ctxcmdPreempt ctx) := by intro _ _ h; cases h
theorem preemptSaveComplete (ctx : Nat) : Statement (.preemptSaveComplete ctx) := by intro _ _ h; cases h
theorem ctxcmdResume (ctx : Nat) : Statement (.ctxcmdResume ctx) := by intro _ _ h; cases h
theorem resumeComplete (ctx : Nat) : Statement (.resumeComplete ctx) := by intro _ _ h; cases h
theorem ctxcmdInval (ctx : Nat) : Statement (.ctxcmdInval ctx) := by intro _ _ h; cases h
theorem invalComplete (ctx : Nat) : Statement (.invalComplete ctx) := by intro _ _ h; cases h
theorem firmwarePageGrow (id : Nat) : Statement (.firmwarePageGrow id) := by intro _ _ h; cases h
theorem fcmdReplay (ctx : Nat) (v : DWord) : Statement (.fcmdReplay ctx v) := by intro _ _ h; cases h
theorem fcmdCancel (ctx : Nat) (v : DWord) : Statement (.fcmdCancel ctx v) := by intro _ _ h; cases h
theorem fcmdInvalid (ctx : Nat) (v : DWord) : Statement (.fcmdInvalid ctx v) := by intro _ _ h; cases h
theorem fqtailWrite (ctx : Nat) (v : DWord) : Statement (.fqtailWrite ctx v) := by intro _ _ h; cases h
theorem softErrorCorrectable (t : SoftTarget) : Statement (.softErrorCorrectable t) := by intro _ _ h; cases h
theorem softErrorUncorrectable (t : SoftTarget) : Statement (.softErrorUncorrectable t) := by intro _ _ h; cases h
theorem moduleLoad (ctx : Nat) (m : ModuleFile) : Statement (.moduleLoad ctx m) := by intro _ _ h; cases h
theorem accessPerformed (core : Nat) (k : Nat) : Statement (.accessPerformed core k) := by intro _ _ h; cases h
theorem graphLoadComplete (ctx : Nat) : Statement (.graphLoadComplete ctx) := by intro _ _ h; cases h
theorem carrBlockTransmit (link : Nat) : Statement (.carrBlockTransmit link) := by intro _ _ h; cases h
theorem carrctlEn (link : Nat) (on : Bool) : Statement (.carrctlEn link on) := by intro _ _ h; cases h
theorem carrctlRetrain (link : Nat) : Statement (.carrctlRetrain link) := by intro _ _ h; cases h
theorem linkTrainingComplete (link : Nat) (lanes : BitVec 16) (peer : BitVec 16) : Statement (.linkTrainingComplete link lanes peer) := by intro _ _ h; cases h
theorem linkTrainingTimeout (link : Nat) : Statement (.linkTrainingTimeout link) := by intro _ _ h; cases h
theorem laneLoss (link : Nat) (lane : Nat) : Statement (.laneLoss link lane) := by intro _ _ h; cases h
theorem dataFlitReceive (link : Nat) (f : Flit) (op : RemoteOp) : Statement (.dataFlitReceive link f op) := by intro _ _ h; cases h
theorem idleFlitReceive (link : Nat) (f : Flit) : Statement (.idleFlitReceive link f) := by intro _ _ h; cases h
theorem nakFlitReceive (link : Nat) (f : Flit) : Statement (.nakFlitReceive link f) := by intro _ _ h; cases h
theorem ackTimeoutResend (link : Nat) : Statement (.ackTimeoutResend link) := by intro _ _ h; cases h
theorem cxlCompletionTimeout (die : Nat) : Statement (.cxlCompletionTimeout die) := by intro _ _ h; cases h
theorem pcieAtomicopReceived (addr : Nat) : Statement (.pcieAtomicopReceived addr) := by intro _ _ h; cases h
theorem getMeasurements (index : MeasureReq) : Statement (.getMeasurements index) := by intro _ _ h; cases h
theorem getCertificate : Statement (.getCertificate) := by intro _ _ h; cases h
theorem negotiateAlgorithms : Statement (.negotiateAlgorithms) := by intro _ _ h; cases h
theorem redfishRequest (r : Redfish) : Statement (.redfishRequest r) := by intro _ _ h; cases h
theorem healthcmdAck (v : DWord) : Statement (.healthcmdAck v) := by intro _ _ h; cases h
theorem coreFence (core : Nat) : Statement (.coreFence core) := by intro _ _ h; cases h
theorem channelDrain (ch : Nat) : Statement (.channelDrain ch) := by intro _ _ h; cases h
theorem mgmtHeartbeatMiss (die : Nat) : Statement (.mgmtHeartbeatMiss die) := by intro _ _ h; cases h
theorem thermalTrip : Statement (.thermalTrip) := by intro _ _ h; cases h
theorem powerThrottle : Statement (.powerThrottle) := by intro _ _ h; cases h
theorem registerWrite (a : RegAddr) (v : DWord) : Statement (.registerWrite a v) := by intro _ _ h; cases h
theorem dieToDieLinkFailure : Statement (.dieToDieLinkFailure) := by intro _ _ h; cases h
theorem bootSecurityCoreFailure : Statement (.bootSecurityCoreFailure) := by intro _ _ h; cases h

end Sys2Proof.Laws.Encodable
end

