-- ==== Sys2Proof/Tests/Slice0.lean ====
section
/-! SUPPORT. Tests: ill-formed terms that WellFormed refuses, words written out from the encodings, single steps of the manual's worked
examples, and for every statement that has hypotheses a state and operands that meet them. -/

namespace Sys2Proof.Tests
open Sys2Proof Sys2Proof.Machine
set_option Elab.async false

/-! ### Ill-formed instructions (R113, R116, R118, R128) -/

theorem test_wf_counts : ∀ i ∈ [Instr.trace 33 0, .trace 0 9, .stg 0 250 6, .wbind 0 255 1, .spill .gl .none 0 250 6 (.slot 0),
    .fill .sk .none 0 255 1 (.slot 0), .merge 0, .lea false 5 false (.slot 2) (.slot 0) (.slot 4), .recruit .zero 0 0 0 0,
    .recruit .zero 0 0 31 0, .hread (.slot 0) 8, .hread (.slot 0) 63, .grow 7 (.slot 0), .grow 33 (.slot 0), .shrink 7, .shrink 33],
    i.wf = false := by decide +kernel

theorem test_wf_modifiers : ∀ i ∈ [Instr.icmp false .un false .zero .zero .zero, .icmpI false .ord false .zero .zero 0,
    .fcmp false .ltu false .zero .zero .zero, .fcmpI false .geu false .zero .zero 0, .dcmp .leu false .zero .zero .zero,
    .dcmpI .gtu false .zero .zero 0, .cvtff .f32 .f32 .rn false .zero .zero, .cvtii false .w8 true .w8 true false .zero .zero,
    .gredux .cas .zero .zero, .scan .xchg false true .zero .zero .zero, .scan .add false false .zero .zero (.slot 0), .hret .dadd .zero,
    .xfence .mx .mx, .gets true .lane .zero, .gets true .helpidx .zero, .sets .lane .zero, .sets .clock .zero], i.wf = false := by
  decide +kernel

theorem test_wf_memory : ∀ i ∈ [Instr.ld .sc .b4 .ef 0 (.slot 0) .zero, .st .ob .b4 .sm 0 (.slot 0) .zero,
    .gather .sc .b4 .el 0 (.slot 0) .zero .zero, .scatter .ob .b4 .ef 0 (.slot 0) .zero .zero, .scatterAdd .gl .b4 .xor .none (.slot 0) .zero .zero,
    .scatterAdd .gl .b8 .fadd .none (.slot 0) .zero .zero, .scatterAdd .sc .b4 .add .ef .zero .zero .zero,
    .atom false .gl .b1 .add .none .zero (.slot 0) .zero .zero, .atom false .sc .b4 .add .ef .zero .zero .zero .zero,
    .atom false .gl .b4 .add .none .zero (.slot 0) .zero (.slot 1), .red false .gl .b4 .cas .none (.slot 0) .zero,
    .red false .gl .b4 .dadd .none (.slot 0) .zero, .red false .sc .b4 .add .ef .zero .zero, .acq false .sc .ef 0 .zero, .rel false .sc .ef 0 .zero,
    .acqld false .sc .ef 0 .zero .zero, .relst false .sc .ef 0 .zero .zero, .spill .sc .none 0 0 0 .zero, .fill .ob .none 0 0 0 .zero], i.wf = false := by
  decide +kernel

theorem test_wf_engines : ∀ i ∈ [Instr.cpy 0 true 0 .sc .gl .none .zero (.slot 0) .zero, .cpy 0 false 0 .gl .sc .ef (.slot 0) .zero .zero,
    .cpy2d 0 true .gl .sc .none (.slot 0) .zero .zero 0 0 0, .cpy2d 0 false .gl .sc .ef (.slot 0) .zero .zero 0 0 0,
    .mma true true .zero .zero .zero 0 0 0, .mma false false (.slot 0) .zero .zero 0 0 0, .mmap false 0 (.slot 0) .zero .zero 0 0 0,
    .mst .sc false .ef .zero .zero 0 0 0, .mld .sc true .ef .zero .zero 0 0 0, .spst .sc .ef .zero .zero 0 0], i.wf = false := by decide +kernel

/-- An odd pair, a quad that is not aligned, an echo in the place of a quad, a slot in a uniform form, a destination that is a constant, a base
that is no pair, a status that is a slot, an odd RELST pair. -/
theorem test_wf_operands : ∀ i ∈ [Instr.iadd64 false (.slot 1) .zero .zero, .iadd64 false (.slot 0) (.slot 3) .zero, .qpush false 0 .zero (.slot 2),
    .qpush false 0 .zero (.echo 0), .iadd true false (.gang 0) (.slot 0) .zero, .iadd true false (.slot 0) .zero .zero, .iadd false false (.gang 0) .zero .zero,
    .iadd false false (.const 1) .zero .zero, .iadd64 false .zero (.echo 1) .zero, .ld .gl .b4 .none 0 (.slot 0) (.slot 1), .ld .gl .b4 .none 0 (.slot 0) .zero,
    .guide (.slot 0) .zero 0 0 0, .join false (.const 0) .zero .zero, .bar 0 (.slot 0), .relst false .gl .none 0 (.slot 1) (.slot 0)], i.wf = false := by
  decide +kernel

theorem test_wf_accepts : ∀ i ∈ [Instr.trace 32 8, .stg 0 250 5, .hread (.slot 0) 7, .hread (.slot 0) 64, .recruit .zero 0 0 30 0, .grow 32 (.slot 0),
    .scan .dadd true true (.slot 0) (.slot 2) (.echo 0), .atom false .gl .b8 .cas .none (.slot 2) (.slot 0) (.slot 4) (.slot 6),
    .relst false .gl .none 0 (.const 1) (.slot 0), .gets true .clock (.gang 0)], i.wf = true := by decide +kernel

/-! ### Words written out from the encodings -/

theorem test_words_flow : decodeWord 0x0106200000000000 = .ok (.trace 3 1) ∧ decodeWord 0x06000080FFFFFFF9 = .ok (.tend 1 0xFFFFFFF9) ∧
    decodeWord 0x0800000000000008 = .ok (.call 0 8) ∧ decodeWord 0x0200121212000208 = .ok (.stg 0 8 2) ∧
    decodeWord 0x041210121200000A = .ok (.guard true 2 (.echo 0)) ∧ decodeWord 0x0512121212000000 = .ok .settle ∧
    decodeWord 0x0012121212000000 = .ok .nop ∧ decodeWord 0x0F12124000000077 = .ok (.trap 0x77) := by decide +kernel

theorem test_words_integer : decodeWord 0x2000001892000000 = .ok (.iadd false false (.slot 0) (.slot 0) (.const 1)) ∧
    decodeWord 0x24000040FFFFFFC0 = .ok (.iadd64I false (.slot 0) (.slot 0) 0xFFFFFFC0) ∧
    decodeWord 0x2901800081000200 = .ok (.imad false true (.slot 3) (.slot 0) (.slot 1) (.slot 2)) ∧
    decodeWord 0x3500804000000010 = .ok (.isatI false false (.slot 1) (.slot 0) 16) ∧
    decodeWord 0x36120121120000C0 = .ok (.icmp false .ltu false .zero (.slot 2) (.gang 2)) ∧
    decodeWord 0x49010002120C0000 = .ok (.lea false 3 false (.slot 2) (.slot 0) (.slot 4)) ∧
    decodeWord 0x49010082120C0000 = .error .illopnd ∧ decodeWord 0x4901000212180000 = .error .illop := by decide +kernel

theorem test_words_float : decodeWord 0x600100413F800000 = .ok (.faddI false .rz false (.slot 2) (.slot 0) 0x3F800000) ∧
    decodeWord 0x6301800081000000 = .ok (.ffma false .rn false (.slot 3) (.slot 0) (.slot 1) (.slot 2)) ∧
    decodeWord 0x8302000103000000 = .ok (.dfma .rn false (.slot 4) (.slot 0) (.slot 2) (.slot 6)) ∧
    decodeWord 0x9100801212080001 = .ok (.cvtfi false false .w16 .f32 .rz false (.slot 1) (.slot 0)) ∧
    decodeWord 0x9902800092000C00 = .ok (.scan .add true true (.slot 5) (.slot 0) (.slot 1)) := by decide +kernel

theorem test_words_memory : decodeWord 0xA000801228000000 = .ok (.ld .sc .b4 .none 0 (.slot 1) (.slot 0)) ∧
    decodeWord 0xA102001208000000 = .ok (.st .gl .b4 .none 0 (.slot 4) (.slot 0)) ∧
    decodeWord 0xA201800108000000 = .ok (.gather .gl .b4 .none 0 (.slot 3) (.slot 0) (.slot 2)) ∧
    decodeWord 0xA512000112080000 = .ok (.red false .gl .b4 .add .none (.slot 0) (.slot 2)) ∧
    decodeWord 0xA91881120C000000 = .ok (.relst false .gl .none 0 (.const 1) (.slot 2)) ∧ decodeWord 0xAA12121212000000 = .ok .fence ∧
    decodeWord 0xB1010001920003F0 = .ok (.cpy 0 false 31 .sc .gl .none (.slot 2) (.slot 0) (.slot 3)) ∧
    decodeWord 0xB325121212000000 = .ok (.cseal 0 10) := by decide +kernel

theorem test_words_engines : decodeWord 0xC312020302106000 = .ok (.mma false false .zero (.slot 4) (.slot 6) 1 2 3) ∧
    decodeWord 0xD02A01830000000C = .ok (.recruit (.gang 20) 0 3 3 12) ∧
    decodeWord 0xD402030292000000 = .ok (.join false (.slot 4) (.slot 5) (.slot 6)) ∧
    decodeWord 0xD902921212000002 = .ok (.barl (.slot 5) 2 .zero) := by decide +kernel

theorem test_words_refused : decodeWord 0 = .error .illop ∧ decodeWord 0x7300000000000000 = .error .illop ∧
    decodeWord 0x7080000000000000 = .error .illop ∧ decodeWord 0x3612012112000140 = .error .illop ∧
    decodeWord 0xA5120001120AA000 = .error .illop := by decide +kernel

theorem test_table_word : decodeTableWord 64 0x0012121212000000 = some .nop ∧ decodeTableWord 64 0 = none := by decide +kernel

theorem test_encode : encode (.tend 1 0xFFFFFFF9) = some 0x06000080FFFFFFF9 ∧
    encode (.icmp false .ltu false .zero (.slot 2) (.gang 2)) = some 0x36120121120000C0 ∧ encode .thermalTrip = none := by decide +kernel

/-! ### One step on a small state -/

/-- A thread at the first word of a trace after its TRACE word, with all four lanes. -/
def th4 : Thread := { pos := .body 1, mask := 0xF, head := 0xF, tr := placeCode, words := [0, 0, 0], stages := 32 }
/-- Its issue. -/
def iss1 : Issue := ⟨0, 0, [0], false⟩
/-- Its lanes. -/
def ln (l : Nat) : LaneRef := ⟨0, 0, l, false⟩
/-- Stage slots: lane, slot, word. -/
def slots (vs : List (Nat × Nat × Word)) : Map (Ix LaneRef) Word := vs.map fun p => (⟨ln p.1, p.2.1⟩, p.2.2)
/-- A unit of one slice with a thread in hand. -/
def on (th : Thread) : State := { placeUnit {} with thr := [(hostThread false, th)], cur := some iss1 }
/-- The state after an instruction. -/
def after (i : Instr) (s : State) : State :=
  match exec i s with
  | .next t => t
  | _ => s
/-- One lane, whose slots from 0 upward hold words. -/
def one (vs : List Word) : State :=
  { on { th4 with mask := 1, head := 1 } with slot := slots (vs.mapIdx fun i v => (0, i, v)) }
/-- Slot 8 of lane 0 after an instruction on such a lane. -/
def out8 (i : Instr) (vs : List Word) : Word := slot (after i (one vs)) (ln 0) 8
/-- Slots 8 and 9 as one number. -/
def out64 (i : Instr) (vs : List Word) : Nat :=
  (slot (after i (one vs)) (ln 0) 8).toNat + 2 ^ 32 * (slot (after i (one vs)) (ln 0) 9).toNat
/-- A slot in the first lanes of a slice. -/
def lanesOf (s : State) (n k : Nat) : List Word := (List.range k).map fun l => slot s (ln l) n

/-- The table of BYSEL's examples after R175, but for its last row (log 17). -/
theorem test_bysel : ([0x14020100, 0x17020100, 0x00010203].map fun c =>
    out8 (.bysel false (.slot 8) (.slot 0) (.slot 1) (.slot 2)) [0x44332211, 0x88776655, c]) = [0x00332211, 0xFF332211, 0x11223344] := by
  decide +kernel

/-- R171: division truncates toward zero; a divisor of 0; the quotient that does not fit. -/
theorem test_division : out8 (.divs false (.slot 8) (.slot 0) (.slot 1)) [0xFFFFFFF9, 2] = 0xFFFFFFFD ∧
    out8 (.rems false (.slot 8) (.slot 0) (.slot 1)) [0xFFFFFFF9, 2] = 0xFFFFFFFF ∧
    out8 (.divu false (.slot 8) (.slot 0) (.slot 1)) [7, 0] = 0xFFFFFFFF ∧ out8 (.remu false (.slot 8) (.slot 0) (.slot 1)) [7, 0] = 7 ∧
    out8 (.divs false (.slot 8) (.slot 0) (.slot 1)) [0x80000000, 0xFFFFFFFF] = 0x80000000 ∧
    out8 (.rems false (.slot 8) (.slot 0) (.slot 1)) [0x80000000, 0xFFFFFFFF] = 0 := by decide +kernel

/-- R169, R172: .SAT clamps, and without it the result wraps. -/
theorem test_saturation : out8 (.iabs false true (.slot 8) (.slot 0)) [0x80000000] = 0x7FFFFFFF ∧
    out8 (.iabs false false (.slot 8) (.slot 0)) [0x80000000] = 0x80000000 ∧
    out8 (.iadd false true (.slot 8) (.slot 0) (.slot 1)) [0x7FFFFFFF, 1] = 0x7FFFFFFF ∧
    out8 (.isatI false false (.slot 8) (.slot 0) 16) [0xFFFF0000] = 0xFFFF8000 := by decide +kernel

/-- R115, R169: the carry is the newest echo, and the sum the one before. -/
theorem test_carry : let t := after (.iaddc false (.slot 8) (.slot 0) (.slot 1) (.slot 2)) (one [0xFFFFFFFF, 1, 1])
    echo t (ln 0) 0 = 1 ∧ echo t (ln 0) 1 = 1 ∧ slot t (ln 0) 8 = 1 ∧ isDirty t (ln 0) 8 = true ∧ isDirty t (ln 0) 0 = false := by decide +kernel

/-- R169, R170: 64-bit results by exact arithmetic. -/
theorem test_wide : out64 (.lea false 3 false (.slot 8) (.slot 0) (.slot 2)) [0, 1, 0xFFFFFFFF] = 0xFFFFFFF8 ∧
    out64 (.imad64 false true (.slot 8) (.slot 0) (.slot 0) (.slot 2)) [0xFFFFFFFF, 0, 1, 0] = 0xFFFFFFFE00000002 ∧
    out64 (.iadd64I false (.slot 8) (.slot 0) 0xFFFFFFC0) [0, 1] = 0xFFFFFFC0 := by decide +kernel

/-- R173: a shift by 32 and more; the funnel takes its count modulo 32. -/
theorem test_shifts : out8 (.shl false (.slot 8) (.slot 0) (.slot 1)) [1, 32] = 0 ∧ out8 (.sar false (.slot 8) (.slot 0) (.slot 1)) [0x80000000, 99] = 0xFFFFFFFF ∧
    out8 (.shf false false (.slot 8) (.slot 0) (.slot 1) (.slot 2)) [0x11112222, 0x33334444, 48] = 0x44441111 ∧
    out8 (.bfx false (.slot 8) (.slot 0) (.slot 1) (.slot 2)) [0x00000F00, 8, 4] = 0xFFFFFFFF := by decide +kernel

/-- The example of CVTII: −1 to an unsigned 16-bit value, with and without .SAT (R205). -/
theorem test_cvtii : out8 (.cvtii false .w16 true .w32 false false (.slot 8) (.slot 0)) [0xFFFFFFFF] = 0xFFFF ∧
    out8 (.cvtii false .w16 true .w32 false true (.slot 8) (.slot 0)) [0xFFFFFFFF] = 0 := by decide +kernel

/-- The example of CVTFI.S16.RZ (R203). -/
theorem test_cvtfi : ([0x471C40B3, 0xC0200000, 0x7FC00000, 0xFF800000].map fun x => out8 (.cvtfi false false .w16 .f32 .rz false (.slot 8) (.slot 0)) [x]) =
    [0x7FFF, 0xFFFFFFFE, 0, 0xFFFF8000] := by decide +kernel

/-- The example of FFMA, and of FMUL and FADD in its place (R194). -/
theorem test_ffma : out8 (.ffma false .rn false (.slot 8) (.slot 0) (.slot 0) (.slot 1)) [0x3F800800, 0xBF800000] = 0x3A000400 ∧
    out8 (.fmul false .rn false (.slot 8) (.slot 0) (.slot 0)) [0x3F800800] = 0x3F801000 ∧
    out8 (.faddI false .rn false (.slot 8) (.slot 0) 0xBF800000) [0x3F801000] = 0x3A000000 := by decide +kernel

/-- R190, R195, R196, R199: the ordering of zeros, comparison with a NaN, the class of a subnormal. -/
theorem test_float_zero : out8 (.fmin false false (.slot 8) (.slot 0) (.slot 1)) [0, 0x80000000] = 0x80000000 ∧
    out8 (.fmax false false (.slot 8) (.slot 0) (.slot 1)) [0x7FC00000, 0x40000000] = 0x40000000 ∧
    out8 (.fcmp false .ne false (.slot 8) (.slot 0) (.slot 1)) [0x7FC00000, 0x7FC00000] = 1 ∧
    out8 (.fclass false (.slot 8) (.slot 0)) [0x80000001] = 16 ∧ out8 (.fclass true (.slot 8) (.slot 0)) [0x80000001] = 32 := by decide +kernel

/-- R197: values that the manual fixes. -/
theorem test_functions : out8 (.frcp false (.slot 8) (.slot 0)) [0x80000000] = 0xFF800000 ∧ out8 (.fsqrt false (.slot 8) (.slot 0)) [0x40800000] = 0x40000000 ∧
    out8 (.fexp2 false (.slot 8) (.slot 0)) [0x80000000] = 0x3F800000 ∧ out8 (.flog2 false (.slot 8) (.slot 0)) [0] = 0xFF800000 := by decide +kernel

/-- R194, R206: binary64 arithmetic with rounding, and packed halves. -/
theorem test_double : out64 (.dadd .rn false (.slot 8) (.slot 0) (.slot 2)) [0, 0x3FF00000, 0, 0x3CA00000] = 0x3FF0000000000000 ∧
    out8 (.pkadd .bf16 .rn false (.slot 8) (.slot 0) (.slot 1)) [0x3F803F80, 0x40003F80] = 0x40404000 ∧
    out8 (.packh .fp16 .rn false (.slot 8) (.slot 0) (.slot 1)) [0x3F800000, 0xC0000000] = 0xC0003C00 := by decide +kernel

/-- The example of R182: GREDUX.FADD over four lanes, and the strides of SCAN.FADD (R184). -/
theorem test_gredux : let s := { on th4 with slot := slots [(0, 0, 0x4B800000), (1, 0, 0x3F800000), (2, 0, 0x3F800000), (3, 0, 0x3F800000)] }
    lanesOf (after (.gredux .fadd (.slot 8) (.slot 0)) s) 8 4 = [0x4B800001, 0x4B800001, 0x4B800001, 0x4B800001] ∧
    lanesOf (after (.scan .fadd false true (.slot 8) (.slot 0) .zero) s) 8 4 = [0x4B800000, 0x4B800000, 0x4B800001, 0x4B800001] := by decide +kernel

/-- A joined gang of two slices whose lane 5 has failed a guard, with the values of the example after R183. -/
def scanState : State :=
  let b : Bind := { valid := true, regN := 32, regMax := 32, slices := 1 }
  { units := [(0, { core := 0, slots := [0], binds := [b] })], gangs := [(⟨0, 0⟩, { nslices := 2 })],
    thr := [(⟨0, 0, 0, false⟩, th4), (⟨0, 0, 1, false⟩, { th4 with mask := 0xD })], cur := some ⟨0, 0, [0, 1], false⟩,
    slot := slots ((([3, 1, 4, 1, 5, 9, 2, 6] : List Word).mapIdx fun i v => (i, 0, v)) ++
      (([1, 0, 0, 1, 0, 0, 1, 0] : List Word).mapIdx fun i v => (i, 1, v))) }

theorem test_scan : lanesOf (after (.scan .add false true (.slot 4) (.slot 0) (.slot 1)) scanState) 4 8 = [3, 4, 8, 1, 6, 0, 2, 8] ∧
    lanesOf (after (.scan .add true true (.slot 5) (.slot 0) (.slot 1)) scanState) 5 8 = [0, 3, 4, 0, 1, 0, 0, 2] := by decide +kernel

/-- R179, R180: a lane without a source keeps its own value; the mask of the lanes that hold what is not zero. -/
theorem test_exchange : let s := { on th4 with slot := slots [(0, 0, 7), (1, 0, 8), (2, 0, 0), (3, 0, 10)] }
    lanesOf (after (.xlane .below false (.slot 8) (.slot 0) (.const 1)) s) 8 4 = [7, 7, 8, 0] ∧
    lanesOf (after (.vote .mask (.slot 8) (.slot 0)) s) 8 4 = [11, 11, 11, 11] := by decide +kernel

/-- The table after R41: guard 0 fails lane 1, whose x is zero. -/
theorem test_guard : let s := { on { th4 with head := 0xF } with slot := slots [(0, 0, 4), (1, 0, 0), (2, 0, 1), (3, 0, 5)] }
    let t := threadOf (after (.guard false 0 (.slot 0)) s) (hostThread false)
    t.mask = 0xD ∧ t.failed = [(0, 2)] ∧ t.pos = .body 2 := by decide +kernel

/-- The table after R41: TEND with token 5 pushes the join entry, then Tbig of guard 1, then Tz of guard 0, and lanes 0 and 3 go on; V9 takes S1 in
the lanes that have written it. -/
theorem test_tend :
    let th : Thread := { th4 with pos := .body 2, mask := 9, failed := [(0, 2), (1, 4)], alts := [0x100, 0x200], binds := [(1, 9)], settled := true }
    let m : LoadedModule := ⟨0, placeCode, 0, 8, [], [(0, 0, false)], [(5, 6)], false, [], [], []⟩
    let s := { on th with slot := slots [(0, 1, 25), (1, 1, 9), (3, 1, 20)], dirty := [⟨ln 0, 1⟩, ⟨ln 3, 1⟩], modules := [m] }
    let t := after (.tend 5 16) s
    (sliceOf t ⟨0, 0, 0⟩).stack = [⟨false, 2, 0x100, 5⟩, ⟨false, 4, 0x200, 5⟩, ⟨true, 0xF, placeCode + 48, 5⟩] ∧
      (threadOf t (hostThread false)).pos = .head (placeCode + 16 + 128) ∧ (threadOf t (hostThread false)).mask = 9 ∧
      vreg t ⟨0, 0, 0⟩ 9 = 25 ∧ vreg t ⟨0, 0, 1⟩ 9 = 0 ∧ vreg t ⟨0, 0, 3⟩ 9 = 20 := by decide +kernel

/-- The text after R45: at MERGE #5 the slice takes the fragment on top, and at its join entry the united mask. -/
theorem test_merge :
    let s := fun st : List Frag => { on { th4 with pos := .head 0x500, mask := 9 } with slices := [(⟨0, 0, 0⟩, { nreg := 256, stack := st })] }
    let t := after (.merge 5) (s [⟨false, 2, 0x100, 5⟩, ⟨true, 0xF, 0x500, 5⟩])
    let t' := after (.merge 5) (s [⟨true, 0xF, 0x500, 5⟩])
    (threadOf t (hostThread false)).pos = .head 0x100 ∧ (threadOf t (hostThread false)).mask = 2 ∧
      (threadOf t' (hostThread false)).pos = .head 0x508 ∧ (threadOf t' (hostThread false)).mask = 0xF := by decide +kernel

/-- R30, R46: STG stages consecutive registers without making the slots dirty; SETTLE fixes the passing set. -/
theorem test_stage : let s := { on th4 with vreg := [(⟨⟨0, 0, 2⟩, 8⟩, 77), (⟨⟨0, 0, 2⟩, 9⟩, 78)] }
    let t := after (.stg 0 8 1) s
    slot t (ln 2) 1 = 78 ∧ isDirty t (ln 2) 1 = false ∧ (threadOf t (hostThread false)).binds = [(0, 8), (1, 9)] ∧
      (threadOf (after .settle s) (hostThread false)).settled = true := by decide +kernel

/-- R38, R209, R216: a lane reads its own buffered store over the scratchpad, which holds it after the memory commit only (R36). -/
theorem test_store_load : let s := { on { th4 with mask := 1 } with slot := slots [(0, 0, 100), (0, 1, 0x11223344)], scr := [(0, ⟨[(100, 1), (101, 2), (102, 3), (103, 4)]⟩)] }
    let t := after (.st .sc .b2 .none 1 (.slot 1) (.slot 0)) s
    slot (after (.ld .sc .b4 .none 0 (.slot 8) (.slot 0)) s) (ln 0) 8 = 0x04030201 ∧ (t.scr.get 0 {}).readN 100 4 = [1, 2, 3, 4] ∧
      slot (after (.ld .sc .b4 .none 0 (.slot 8) (.slot 0)) t) (ln 0) 8 = 0x04334401 ∧ ((commit iss1 t).scr.get 0 {}).readN 100 4 = [1, 0x44, 0x33, 4] := by
  decide +kernel

/-- R209, R223: an element outside the scratchpad holds LEASE subcode 3 before SETTLE, and a misaligned SPILL is a fault held too. -/
theorem test_held : let t := after (.ld .sc .b4 .none 0 (.slot 8) (.slot 0)) { on th4 with slot := slots [(2, 0, 0x80000)] }
    (t.held.find? (ln 2)).map (fun f => (f.cls, f.sub, f.faddr)) = some (.lease, 3, 0x80000) ∧ t.held.find? (ln 0) = none ∧
      (threadOf t (hostThread false)).pos = .body 2 := by decide +kernel

/-- R87, R222: the lanes of an ATOM act in ascending order, each on what the one before has left. -/
theorem test_atomics : let s := on { th4 with settled := true, committed := true }
    let t := after (.atom false .sc .b4 .add .none (.slot 8) .zero (.const 3) .zero) s
    lanesOf t 8 4 = [0, 3, 6, 9] ∧ (t.scr.get 0 {}).readN 0 4 = [12, 0, 0, 0] ∧
      ((after (.red true .sc .b4 .add .none .zero (.const 3)) s).scr.get 0 {}).readN 0 4 = [3, 0, 0, 0] := by decide +kernel

/-- R74, R155: of gangs 0 and 1, gang 1 is the last arriver whatever the order: it departs with 1, gang 0 with 0. -/
theorem test_barl :
    let s := { on { th4 with settled := true, committed := true, wait := .departed 1 } with slot := [] }
    slot (after (.barl (.slot 8) 2 .zero) s) (ln 0) 8 = 0 ∧
      slot (after (.barl (.slot 8) 2 .zero) { s with thr := [(hostThread false, { th4 with settled := true, committed := true, wait := .departed 0 })] }) (ln 0) 8 = 1 := by
  decide +kernel

/-- R153: the first arrival of two waits; the second completes the instance and both depart. -/
theorem test_bar : let b : Bind := { valid := true }
    let x : Barrier := { inst := 7, expect := some 0, arrived := [1] }
    let s := { on { th4 with settled := true, committed := true } with units := [(0, { binds := [b, b], barriers := [(3, x)] })], gangs := [(⟨0, 0⟩, {}), (⟨0, 1⟩, {})] }
    let s := { s with thr := s.thr ++ [(⟨0, 1, 0, false⟩, { th4 with wait := .barrier 3 7 })] }
    let t := after (.bar 3 .zero) s
    (threadOf t (hostThread false)).wait = .departed 1 ∧ (threadOf t ⟨0, 1, 0, false⟩).wait = .departed 1 ∧
      ((unitOf t 0).barriers.get 3 {}).inst = 8 ∧ (threadOf (after (.bar 3 .zero) { s with units := [(0, { binds := [b, b] })] }) (hostThread false)).wait = .barrier 3 0 := by
  decide +kernel

/-- R160: an item pushed to a mapped queue is the item popped, with status 1. -/
theorem test_queue : let s := { on { th4 with mask := 1, settled := true, committed := true } with ctxs := [(0, { queues := [(5, ⟨0, 9, 2, 0⟩)] })], slot := slots [(0, 0, 1), (0, 1, 2), (0, 2, 3), (0, 3, 4)] }
    let t := after (.qpush false 5 (.slot 8) (.slot 0)) s
    let t' := after (.qpop false 5 (.slot 4) (.slot 9)) { t with thr := s.thr }
    slot t (ln 0) 8 = 1 ∧ (List.range 4).map (slot t' (ln 0) <| 4 + ·) = [1, 2, 3, 4] ∧ slot t' (ln 0) 9 = 1 ∧
      slot (after (.qlen false 5 (.slot 8)) t) (ln 0) 8 = 1 := by decide +kernel

/-- R54, R161, R162: a GROW that is satisfied answers 1; LANE and MARK. -/
theorem test_special : let s := on { th4 with settled := true, committed := true }
    lanesOf (after (.grow 32 (.slot 8)) s) 8 4 = [1, 1, 1, 1] ∧ lanesOf (after (.gets false .lane (.slot 8)) s) 8 4 = [0, 1, 2, 3] ∧
      (gangOf (after (.sets .mark (.const 5)) s) ⟨0, 0⟩).mark = 5 ∧ (gangOf (after (.sets .evtag (.const 31)) s) ⟨0, 0⟩).evtag = 15 := by decide +kernel

/-- R237, R238: FNEXT at the end of a fibre, and FTEST of an open one. -/
theorem test_fibres : let s := { on { th4 with mask := 1 } with fib := [(⟨⟨0, 0, 0⟩, 2⟩, { len := 9, pos := 4 }), (⟨⟨0, 0, 0⟩, 3⟩, { len := 9, pos := 9 })] }
    let t := after (.fnext 3 false .none (.slot 8) (.slot 9)) s
    slot (after (.ftest 2 (.slot 8)) s) (ln 0) 8 = 5 ∧ slot t (ln 0) 8 = 0 ∧ slot t (ln 0) 9 = 0xFFFFFFFF := by decide +kernel

/-- The example after R247: BX8 element 0xA5 and BX4 nibble 6, with E_lo = 127 and E_hi = 130. -/
theorem test_conversion : let desc := fun fmt : Nat => [fmt * 256, 0, 64, 16, 32, 64, 0, 0]
    let c := fun fmt : Nat => (⟨1, false, 0, 0, 0, 2, 0, .conv 0 1 (desc fmt), [⟨0, .mem 0, .ob 0, 1, 0⟩], [(0, 0)], [], [], false, [], 0, 0, false, [], [], none, 0, []⟩ : CopyCmd)
    let s := fun fmt : Nat => { on th4 with mem := { cells := [(0, if fmt = 3 then 0xA5 else 6), (64, 127), (65, 130)] }, copies := [c fmt] }
    ((after (.copyCommandComplete 1) (s 3)).opbuf.get 0 {}).readN 0 2 = [0x14, 0x41] ∧
      ((after (.copyCommandComplete 1) (s 4)).opbuf.get 0 {}).readN 0 2 = [0x80, 0xBF] := by decide +kernel

/-- The pass worked through after R253: row 0 holds 0x4B800005 after one pass, and row 1, whose lane has failed, nothing. -/
theorem test_pass :
    let row := fun (p : Nat) (first : Nat) => (List.range 10).flatMap fun k => [(p + 2 * k, BitVec.ofNat 8 (if k = 0 then first else 0x3F80)),
      (p + 2 * k + 1, BitVec.ofNat 8 ((if k = 0 then first else 0x3F80) / 256))]
    let col := (List.range 10).flatMap fun k => [(32 * k, (0x80 : Byte)), (32 * k + 1, if k = 0 then (0x45 : Byte) else 0x3F)]
    let c : MatCmd := ⟨1, 0, 0, 0, .mma false false, [⟨0, 0, 0, 0, 0, 16, 1, 1⟩], 2, 1, 10, [0], [], [], [], false, true, some 0, false, false, none, false, false, [0], [], 0, false⟩
    let s := { on th4 with mats := [c], gangs := [(⟨0, 0⟩, { rows := [(0, 0), (1, 32)] })], scr := [(0, Memory.writeAll {} (row 0 0x4580 ++ row 32 0x3F80))],
                           opbuf := [(0, Memory.writeAll {} col)] }
    let t := after (.matrixEngineGrant 0) s
    t.acc.get (0, 0, 0) 0 = 0x4B800005 ∧ t.passes.get (0, 0) 0 = 1 ∧ t.acc.get (0, 1, 0) 0 = 0 ∧ t.passes.get (0, 1) 0 = 0 := by decide +kernel

/-- The example after R261: SPST writes (0, 1, 1.5) and (1, 0, −2.0), and meets its bound at entry 2. -/
theorem test_spst :
    let c : MatCmd := ⟨1, 0, 0, 0, .spst .sc 0 2, [⟨0, 0, 0, 0, 0, 1, 1, 1⟩, ⟨1, 0, 0, 0, 0, 1, 1, 1⟩], 2, 3, 0, [], [], [], [], false, true, some 0, false, false, none, false, false, [0], [], 0, false⟩
    let s := { on th4 with mats := [c], acc := [((0, 0, 1), 0x3FC00000), ((0, 1, 0), 0xC0000000), ((0, 1, 2), 0x40800000)], scr := [(0, Memory.writeN {} 0 [2])] }
    let t := after (.matrixEngineGrant 0) s
    let word := fun a => leNat ((t.scr.get 0 {}).readN a 4)
    word 4 = 2 ∧ word 16 = 0x10000 ∧ word 20 = 0x3FC00000 ∧ word 24 = 1 ∧ word 28 = 0xC0000000 ∧ word 32 = 0 ∧
      t.mats.map (fun c => (c.performed, c.ovf, c.res)) = [(true, true, 2)] := by decide +kernel

/-- R150, R39, R341: TRAP before SETTLE holds its immediate, and SETTLE then ends the unit with a record of class TRAP. -/
theorem test_trap : let s := after (.trap 0x77) (on { th4 with mask := 5 })
    let t := after .settle s
    (s.held.find? (ln 2)).map (fun f => (f.cls, f.faddr)) = some (.trap, 0x77) ∧ s.held.find? (ln 1) = none ∧ (unitOf t 0).status = .done ∧
      t.frecs.map (fun r => (r.cls, r.pending, r.image.extractLsb' 0 8, r.image.extractLsb' 112 4, r.image.extractLsb' 320 64)) =
        [(.trap, false, 9, 5, 0x77)] := by decide +kernel

/-- R147, R318: the EXIT of the last slice ends the unit. R151: BKPT stops the slice with a pending record. -/
theorem test_exit : (unitOf (after .exit (on { th4 with settled := true, committed := true })) 0).status = .done ∧
    (after (.bkpt 5) (on th4)).frecs.map (fun r => (r.cls, r.pending)) = [(.bkpt, true)] ∧
    (threadOf (after (.bkpt 5) (on th4)) (hostThread false)).wait = .stopped 1 := by decide +kernel

/-- R272: of two lanes asked for one is idle; the record keeps the window. -/
theorem test_recruit : let s := { on { th4 with mask := 7, head := 7, settled := true, committed := true } with slot := slots [(0, 0, 11), (0, 1, 22)] }
    let t := after (.recruit (.gang 20) 0 1 2 8) s
    greg t ⟨0, 0⟩ 20 = 1 ∧ (gangOf t ⟨0, 0⟩).recs.map (fun p => (p.1, p.2.window, p.2.helpers.map (·.l))) = [(0, [11, 22], [3])] ∧
      (threadOf t (hostThread true)).pos = .head (placeCode + 8 + 64) ∧ (threadOf t (hostThread true)).mask = 8 := by decide +kernel

/-- R275, R276: JOIN combines the values of delivered helpers with c; a lane without a record receives c and 0x7FFFFFFE. -/
theorem test_join : let x : Recr := ⟨0, 2, 0, [], [], [⟨0, 2, .delivered, some (.add, 5)⟩, ⟨0, 3, .delivered, some (.add, 6)⟩], 0⟩
    let s := { on { th4 with mask := 3, head := 3, settled := true, committed := true } with gangs := [(⟨0, 0⟩, { recs := [(0, x)] })] }
    let t := after (.join false (.slot 8) (.slot 9) (.const 1)) s
    slot t (ln 0) 8 = 12 ∧ slot t (ln 0) 9 = 0x7FFFFFF8 ∧ slot t (ln 1) 8 = 1 ∧ slot t (ln 1) 9 = 0x7FFFFFFE ∧ (gangOf t ⟨0, 0⟩).recs = [] := by
  decide +kernel

/-- R229, R230, R232: a copy of 3 of 4 bytes is filled with zeros, and a sealed batch that waits for nothing else writes its token. -/
theorem test_copy :
    let c : CopyCmd := ⟨1, false, 0, 0, 0, 2, 0, .lanes 4, [⟨0, .scr 0, .scr 8, 3, 0⟩], [], [], [], false, [], 0, 0, false, [], [], none, 0, []⟩
    let s := { on th4 with copies := [c], gangs := [(⟨0, 0⟩, { batches := [⟨2, 0, 4, [1], some 10⟩] })], scr := [(0, Memory.writeN {} 0 [1, 2, 3, 4, 0, 0, 0, 0, 9, 9, 9, 9])] }
    let t := after (.copyCommandComplete 1) s
    ((t.scr.get 0 {}).readN 8 4) = [1, 2, 3, 0] ∧ greg t ⟨0, 0⟩ 10 = 7 ∧ t.copies = [] ∧ tokenPending s ⟨0, 0⟩ 10 = true ∧ tokenPending t ⟨0, 0⟩ 10 = false := by
  decide +kernel

/-- R52, R232: behind a copy that is under way, one that has no byte with it completes, one that reads what the first writes does not, and none
does behind a held one. -/
theorem test_copies_under_way :
    let cmd := fun (id src dst : Nat) (held : Bool) =>
      (⟨id, false, 0, 0, 0, 2, 0, .lanes 4, [⟨0, .scr src, .scr dst, 3, 0⟩], [], [], [], held, [], 0, 0, false, [], [], none, 0, []⟩ : CopyCmd)
    let left := fun (a b : CopyCmd) => (after (.copyCommandComplete 2) { on th4 with copies := [a, b] }).copies.map CopyCmd.id
    left (cmd 1 0 8 false) (cmd 2 4 16 false) = [1] ∧ left (cmd 1 0 8 false) (cmd 2 12 16 false) = [1] ∧
      left (cmd 1 0 8 false) (cmd 2 11 16 false) = [1, 2] ∧ left (cmd 1 0 8 true) (cmd 2 4 16 false) = [1, 2] := by decide +kernel

/-- The first gibibyte of context 0 maps to itself, and the device answers the host. -/
def mapped (cells : List Host.Cell) : State :=
  let cells := wordCells placeRoot (2 * placeRoot + 1) ++ wordCells (2 * placeRoot) 0xCF ++ cells
  { health := .ok, booted := true, mem := Memory.writeAll {} cells, ctxs := [(0, { ptroot := BitVec.ofNat 64 (placeRoot + 1) })] }

/-- The trigger of the example after R311 is accepted with its phase and patches; when it begins, node 7 has the extents 1000 × 1 × 1 and P0. -/
theorem test_trigger :
    let s0 := mapped (cellsOf ((List.range 48).map (0x12345670 + ·)) (leBytes 16 0x30002 ++ leBytes 16 (7 + 64 * 2 ^ 16 + 0x4000000000 * 2 ^ 64)
      ++ leBytes 16 (7 + 8 * 2 ^ 16 + 0x00010001000003E8 * 2 ^ 64)))
    let s := { s0 with graphs := [(0x0205, ⟨0, List.replicate 8 0, [], []⟩)] }
    let t := after (.trigger 0 0x0205000012345670) s
    let t' := after (.triggerBegin 0 0x0205) t
    t.trigs.map (fun x => (x.gid, x.seq, x.phase)) = [(0x0205, 1, 3)] ∧ (ctxOf t 0).trigstat = 0x100000000 ∧
      ((t'.launches.filter fun p => p.2.node == 7).map fun p => (nodeField p.2.desc 64 32, nodeField p.2.desc 96 16, nodeField p.2.desc 112 16, nodeField p.2.desc 512 64)) =
        [(1000, 1, 1, 0x4000000000)] := by decide +kernel

/-- R304: an image whose magic is wrong is refused with code 1, and one of no node frees its slot. -/
theorem test_gload :
    let s := fun magic : Nat => let m := mapped (wordCells 0x1000 (magic + 5 * 2 ^ 48))
      { m with graphs := [(5, ⟨0, [0], [], []⟩)], ctxs := [(0, { ptroot := BitVec.ofNat 64 (placeRoot + 1), gload := some 0x1000 })] }
    let bad := after (.graphLoadComplete 0) (s 0x47525A54)
    let free := after (.graphLoadComplete 0) (s 0x47525A55)
    (ctxOf bad 0).gloadstat = 16 ∧ bad.graphs.length = 1 ∧ (ctxOf free 0).gloadstat = 0 ∧ free.graphs = [] := by decide +kernel

/-- The example of a lane lost in mid-stream after R363: link 4 is UP8LO with E = 0x1211. A loss of lane 3
before the link is up again makes it FAILED. -/
theorem test_lane_loss :
    let k : Link := { en := true, state := .up16, laneok := 0xFFFF, expect := 0x1211 }
    let s : State := { health := .ok, booted := true, links := [(4, k)] }
    let t := after (.laneLoss 4 11) s
    let u := after (.linkTrainingComplete 4 0x00FF 7) t
    (linkOf t 4).laneok = 0xF7FF ∧ (linkOf t 4).expect = 0x1211 ∧ (linkOf u 4).state = .up8lo ∧ (linkOf (after (.laneLoss 4 3) t) 4).state = .failed := by
  decide +kernel

/-- R348, R354: a pre-emption of a context without units heads the save area; RESUME then runs the context again. -/
theorem test_preempt : let s : State := { mapped [] with ctxs := [(0, { savebase := 0x40000, savesize := 0x10000 })] }
    let t := after (.ctxcmdPreempt 0) s
    let u := after (.preemptSaveComplete 0) t
    let v := after (.resumeComplete 0) (after (.ctxcmdResume 0) u)
    (ctxOf t 0).state = .saving ∧ (ctxOf u 0).state = .saved ∧ (ctxOf v 0).state = .running := by decide +kernel

/-- R343, R344, R363, R374: a write of CARRID, of an unlisted offset, of FCMD with an opcode that is none, and a power limit out of range. -/
theorem test_registers : readReg (after (.registerWrite (.pf 0x80300) 0xABCD1234) (mapped [])) (.pf 0x80300) = 0x1234 ∧
    after (.registerWrite (.pf 0x80308) 5) (mapped []) = mapped [] ∧ (ctxOf (after (.fcmdInvalid 0 0) (mapped [])) 0).fcmdbad = true ∧
    (after (.redfishRequest (.powerLimit 1499)) (mapped [])).cap = 3000 ∧ (after (.redfishRequest (.powerLimit 1500)) (mapped [])).cap = 1500 := by decide +kernel

/-- R346, R347: an uncorrectable error of a main register poisons it, and a STG of it holds POISON subcode 1. -/
theorem test_poison : let t := after (.softErrorUncorrectable (.mainReg 0 0 2 8)) (on th4)
    let u := after (.stg 0 8 0) { t with cur := some iss1 }
    (u.held.find? (ln 2)).map (fun f => (f.cls, f.sub)) = some (.poison, 1) ∧ u.held.find? (ln 1) = none := by decide +kernel

/-- R80, R81: a committed write is performed at home, and the device's own view of it does not change. -/
theorem test_performed : let s := { on th4 with wq := [⟨0, ln 0, 0, .package, [(0x100, 7)], [], false⟩] }
    let t := after (.accessPerformed 0 0) s
    s.mem.read 0x100 = 0 ∧ t.mem.read 0x100 = 7 ∧ t.wq = [] := by decide +kernel

/-- Load buffering and coherence of the litmus catalogue: both loads taking the other's store is forbidden (R84), one of them is allowed; a lane's two
reads of one byte do not go back in its order (R81). -/
theorem test_litmus :
    let lb := fun rf => ({ events := [{ lane := 0, pos := 0, reads := [0] }, { lane := 0, pos := 1, writes := [8] }, { lane := 1, pos := 0, reads := [8] },
      { lane := 1, pos := 1, writes := [0] }], co := [(0, [3]), (8, [1])], rf := rf } : OExec)
    (lb [((0, 0), 3), ((2, 8), 1)]).allowed = false ∧ (lb [((2, 8), 1)]).allowed = true ∧ (lb []).allowed = true := by decide +kernel

/-- A TRACE word that is placed is entered by the next step, at its first word (R143); a NOP goes on. -/
theorem test_step : (match step (State.reset.withFetchWord 64 0x0106200000000000) with
    | .next t => decide ((threadOf t (hostThread false)).pos = .body 2)
    | _ => false) = true ∧
  (match step (State.reset.withFetchWord 64 0x0012121212000000) with
    | .next t => decide ((threadOf t (hostThread false)).pos = .body 2)
    | _ => false) = true := by decide +kernel

/-! ### States that meet the hypotheses of the statements -/

/-- The first gibibyte of the unit's context maps to itself, and its launch leases the first half of it. -/
def wst (th : Thread) : State :=
  { on th with
    health := .ok
    booted := true
    mem := (mapped []).mem
    ctxs := [(0, { ptroot := BitVec.ofNat 64 (placeRoot + 1) })]
    launches := [(0, ⟨0, 0, 0, 1, 0, .running, [], [0], 0, [], [(0, 0x20000000)], none, []⟩)] }

/-- A thread past the memory commit of its trace. -/
def late : Thread := { th4 with settled := true, committed := true }

/-- The issue of a state's one slice is in hand. -/
theorem runs_of (s : State) (h : s.cur = some iss1) (h' : (issueLanes s iss1).isEmpty = false) : Runs s iss1 :=
  ⟨h, by decide, by decide, by intro e; simp [e] at h'⟩

/-- Without TLB and L1 entries, nothing disagrees with memory. -/
theorem plain_of {s : State} {u : Nat} (h : s.tlbCore = [] ∧ s.tlbCluster = [] ∧ s.pgs = [] ∧ s.l1 = [] ∧ isDet s u = false ∧ (unitOf s u).staged = [] ∧
    s.hstage = [] ∧ s.cxl = []) : Plain s u := by
  obtain ⟨h1, h2, h3, h4, h5, h6, h7, h8⟩ := h
  exact ⟨⟨by simp [h1, h2], by simp [h3]⟩, by simp [L1Agrees, h4], h5, h6, h7, h8⟩

/-- Gang registers are clear, by evaluation. -/
theorem clear_of {s : State} {g : GangId} {rd wr : List Nat}
    (h : (∀ n ∈ rd ++ wr, tokenPending s g n = false) ∧ ∀ n ∈ rd, (⟨g, n⟩ : Ix GangId) ∉ s.gpoi) : Clear s g rd wr := ⟨h.1, h.2⟩

/-- What an evaluation says of every lane of a list. -/
theorem each {l : List LaneRef} {P : LaneRef → Prop} {f : LaneRef → Bool} (hp : ∀ r, f r = true → P r) (h : l.all f = true) : ∀ r ∈ l, P r :=
  fun r hr => hp r (List.all_eq_true.1 h r hr)

/-- A byte of the context's memory may be reached, by evaluation. -/
def byteOk (s : State) (u va : Nat) (write : Bool) : Bool :=
  decide (va < 2 ^ 52) && ! guardAt s (unitOf s u).ctx va && (leasedAt s u va || openAt s u va) && (match walk s (unitOf s u).ctx va with
    | .leaf _ l => ! (write || narrowedAt s u va) || l.w
    | _ => false)

theorem mayReach_of {s : State} {u va : Nat} {write : Bool} (h : byteOk s u va write = true) : MayReach s u va write := by
  simp only [byteOk, Bool.and_eq_true, decide_eq_true_eq, Bool.not_eq_true', Bool.or_eq_true] at h
  obtain ⟨⟨⟨h1, h2⟩, h3⟩, h4⟩ := h
  refine ⟨h1, h2, h3, ?_⟩
  split at h4
  · next b l e =>
    refine ⟨b, l, e, fun w => ?_⟩
    rcases Bool.or_eq_true _ _ ▸ h4 with hn | hw
    · rcases w with w | w <;> simp [w] at hn
    · exact hw
  · cases h4

/-- An element of the scratchpad or of global memory is in reach, by evaluation. -/
def reachOk (s : State) (r : LaneRef) (sp : Space) (ea : Int) (n : Nat) (write : Bool) : Bool :=
  decide (0 ≤ ea) && match sp with
    | .gl => (List.range n).all fun i => byteOk s r.u (ea.toNat + i) write
    | .sc => decide (ea + n ≤ ((bindOf s r.u 0).scrSize * 1024 : Nat))
    | _ => false

theorem inReach_of {s : State} {r : LaneRef} {sp : Space} {ea : Int} {n : Nat} {w : Bool} (h : reachOk s r sp ea n w = true) : InReach s r sp ea n w := by
  simp only [reachOk, Bool.and_eq_true, decide_eq_true_eq] at h
  refine ⟨h.1, ?_⟩
  cases sp with
  | gl => exact fun i hi => mayReach_of (List.all_eq_true.1 h.2 i (List.mem_range.2 hi))
  | sc => simpa using h.2
  | sk => simp at h
  | ob => simp at h

/-- It can be loaded, by evaluation. -/
def loadOk (s : State) (r : LaneRef) (sp : Space) (ea : Int) (n : Nat) : Bool :=
  reachOk s r sp ea n false && (List.range n).all fun i => (ownByte s r sp (keyOf s r sp (ea.toNat + i))).isSome || ! keyPoisoned s r sp (keyOf s r sp (ea.toNat + i))

theorem loadable_of {s : State} {r : LaneRef} {sp : Space} {ea : Int} {n : Nat} (h : loadOk s r sp ea n = true) : Loadable s r sp ea n := by
  simp only [loadOk, Bool.and_eq_true, List.all_eq_true, List.mem_range, Bool.or_eq_true, Bool.not_eq_true'] at h
  exact ⟨inReach_of h.1, h.2⟩

/-- It may be read and written where it is performed, by evaluation. -/
def homeOk (s : State) (r : LaneRef) (sp : Space) (ea : Int) (n : Nat) (write read : Bool) : Bool :=
  decide (ea % (n : Int) = 0) && reachOk s r sp ea n write && (! read || (List.range n).all fun i => ! keyPoisoned s r sp (keyOf s r sp (ea.toNat + i)))

theorem atHome_of {s : State} {r : LaneRef} {sp : Space} {ea : Int} {n : Nat} {w rd : Bool} (h : homeOk s r sp ea n w rd = true) : AtHome s r sp ea n w rd := by
  simp only [homeOk, Bool.and_eq_true, decide_eq_true_eq, Bool.or_eq_true, Bool.not_eq_true', List.all_eq_true, List.mem_range] at h
  exact ⟨h.1.1, inReach_of h.1.2, fun e => h.2.resolve_left (by simp [e])⟩

theorem wst_runs : Runs (wst th4) iss1 := runs_of _ rfl (by decide +kernel)
theorem late_runs : Runs (wst late) iss1 := runs_of _ rfl (by decide +kernel)
theorem wst_plain : Plain (wst th4) 0 := plain_of (by decide +kernel)
theorem late_plain : Plain (wst late) 0 := plain_of (by decide +kernel)

/-- A computing form: gang registers 0 and 62 to 63 as sources, a slot or a gang register as the destination. -/
theorem witness_computing : Runs (wst th4) iss1 ∧ Clear (wst th4) iss1.gang (gangRegs [(.gang 0, 1), (.gang 62, 2)]) (gangRegs [(.gang 62, 2)]) ∧
    (Opnd.slot 31).isGang = false :=
  ⟨wst_runs, clear_of (by decide +kernel), rfl⟩

theorem witness_AdditionResults : Runs (wst th4) iss1 ∧ Clear (wst th4) iss1.gang (gangRegs [(.slot 0, 1), (.gang 63, 1)]) (gangRegs [(.gang 63, 1)]) :=
  ⟨wst_runs, clear_of (by decide +kernel)⟩
theorem witness_ProductResults : Runs (wst th4) iss1 ∧ Clear (wst th4) iss1.gang (gangRegs [(.gang 0, 1), (.gang 1, 1), (.gang 62, 2)]) (gangRegs [(.gang 62, 2)]) :=
  ⟨wst_runs, clear_of (by decide +kernel)⟩
theorem witness_DivisionResults : Runs (wst th4) iss1 ∧ Clear (wst th4) iss1.gang (gangRegs [(.gang 0, 1), (.zero, 1)]) (gangRegs [(.slot 31, 1)]) :=
  ⟨wst_runs, clear_of (by decide +kernel)⟩
theorem witness_CompareLogicAndFieldResults : Runs (wst th4) iss1 ∧
    Clear (wst th4) iss1.gang (gangRegs [(.gang 62, 2), (.gang 0, 2)]) (gangRegs [(.gang 63, 1)]) ∧ Cond.geu ≠ .un ∧ Cond.geu ≠ .ord :=
  ⟨wst_runs, clear_of (by decide +kernel), by decide, by decide⟩
theorem witness_FloatArithmeticAndCompareResults : (Runs (wst th4) iss1 ∧
      Clear (wst th4) iss1.gang (gangRegs [(.gang 62, 2), (.gang 0, 2), (.const 0, 2)]) (gangRegs [(.gang 62, 2)])) ∧
    ((∃ neg e, Val.num true 0 0 = .num neg 0 e) ∧ (∃ neg e, Val.num false 0 5 = .num neg 0 e) ∧ (Val.num true 0 0).sign = true ∧ (Val.num false 0 5).sign = false) ∧
    (Val.num true 1 0).lt (.num false 0 0) = true ∧ (Val.nan.isNan || Val.nan.isNan) = true ∧ ((Val.inf true).isNan || (Val.inf false).isNan) = false :=
  ⟨⟨wst_runs, clear_of (by decide +kernel)⟩, ⟨⟨_, _, rfl⟩, ⟨_, _, rfl⟩, by decide +kernel, by decide +kernel⟩, by decide +kernel, by decide +kernel, by decide +kernel⟩
/-- A number in each range of the special values, and the ends of the range that FRND leaves alone. -/
theorem witness_FloatFunctionResults : (Runs (wst th4) iss1 ∧ Clear (wst th4) iss1.gang (gangRegs [(.gang 62, 2)]) (gangRegs [(.slot 30, 2)])) ∧
    ((∀ p ∈ [(0, Val.num false 0 (-149)), (0x80000000, .num true 0 (-149)), (0x7F800000, .inf false), (0xFF800000, .inf true), (0x7FFFFFFF, .nan), (0xBF800000, .num true 8388608 (-23)),
        (0x43000000, .num false 8388608 (-16)), (0xC3160000, .num true 9830400 (-16)), (0x3F800000, .num false 8388608 (-23)), (0xC0000000, .num true 8388608 (-22)),
        (0x3F000000, .num false 8388608 (-24))], binary32.read false p.1 = p.2) ∧
      (150 ≤ (0x4B000000 : Word).toNat / 2 ^ 23 % 256 ∧ (0xFF7FFFFF : Word).toNat / 2 ^ 23 % 256 < 255)) ∧
    (128 ≤ ((8388608 : Nat) : ℚ) * (2 : ℚ) ^ (-16 : Int) ∧ 150 ≤ ((9830400 : Nat) : ℚ) * (2 : ℚ) ^ (-16 : Int) ∧ ((8388608 : Nat) : ℚ) * (2 : ℚ) ^ (-23 : Int) = 1 ∧
      ((8388608 : Nat) : ℚ) * (2 : ℚ) ^ (-22 : Int) = (2 : Nat) ∧ ((8388608 : Nat) : ℚ) * (2 : ℚ) ^ (-24 : Int) = (0 : Nat) + 1 / 2) :=
  ⟨⟨wst_runs, clear_of (by decide +kernel)⟩, ⟨by decide +kernel, by simp⟩, by norm_num⟩
theorem witness_ConversionResults : Runs (wst th4) iss1 ∧ Clear (wst th4) iss1.gang (gangRegs [(.gang 62, 2)]) (gangRegs [(.gang 62, 2)]) :=
  ⟨wst_runs, clear_of (by decide +kernel)⟩

/-- STG of two registers of which lane 2 has a poisoned one. -/
theorem witness_StagingResults : let s := { wst th4 with vpoi := [⟨⟨0, 0, 2⟩, 255⟩] }
    Runs s iss1 ∧ ln 2 ∈ issueLanes s iss1 ∧ s.held.find? (ln 2) = none ∧ ∃ i ≤ (1 : BitVec 5).toNat, (⟨(ln 2).lane, (254 : BitVec 8).toNat + i⟩ : Ix LaneId) ∈ s.vpoi :=
  ⟨runs_of _ rfl (by decide +kernel), by decide +kernel, rfl, 1, by decide, by decide +kernel⟩

theorem witness_GuardResults : Runs (wst th4) iss1 ∧ Clear (wst th4) iss1.gang (gangRegs [(.gang 63, 1)]) [] :=
  ⟨wst_runs, clear_of (by decide +kernel)⟩

theorem witness_SettleResults : Runs (wst th4) iss1 ∧ (headThread (wst th4) iss1).settled = false ∧ ∀ r ∈ issueLanes (wst th4) iss1, (wst th4).held.find? r = none :=
  ⟨wst_runs, by decide +kernel, by decide +kernel⟩

/-- The words of a trace with one guard: TRACE, its table, GUARD 0 and EXIT. -/
def headWords : List DWord := [(encode (.trace 32 1)).getD 0, 0x20, (encode (.guard false 0 .zero)).getD 0, (encode .exit).getD 0]

/-- A thread at the head of that trace. -/
def headSt : State :=
  { wst { th4 with pos := .head 0x5000 } with
    mem := Memory.writeAll (mapped []).mem ((headWords.mapIdx fun k x => wordCells (0x5000 + 8 * k) x.toNat).flatten)
    modules := [⟨0, 0x5000, 0, 4, [], [(0, 0, false)], [], false, [], [], []⟩] }

theorem codeWord_of {s : State} {u va : Nat} {w : DWord} (h : va < 2 ^ 52) (h' : (match walk s (unitOf s u).ctx va with
    | .leaf b l => l.x && (! narrowedAt s u va || l.w) && decide (w = BitVec.ofNat 64 (leNat (s.mem.readN (l.pa + (va - b)) 8)))
    | _ => false) = true) : CodeWord s u va w := by
  refine ⟨h, ?_⟩
  split at h'
  · next b l e =>
    simp only [Bool.and_eq_true, Bool.or_eq_true, Bool.not_eq_true', decide_eq_true_eq] at h'
    exact ⟨b, l, e, h'.1.1, fun n => h'.1.2.resolve_left (by simp [n]), h'.2⟩
  · cases h'

theorem head_words : ∀ k w, headWords[k]? = some w → CodeWord headSt 0 (0x5000 + 8 * k) w := by
  have h : ∀ k < 4, ∀ w, headWords[k]? = some w → CodeWord headSt 0 (0x5000 + 8 * k) w := by
    intro k hk w hw
    match k, hk with
    | 0, _ => cases hw; exact codeWord_of (by decide) (by decide +kernel)
    | 1, _ => cases hw; exact codeWord_of (by decide) (by decide +kernel)
    | 2, _ => cases hw; exact codeWord_of (by decide) (by decide +kernel)
    | 3, _ => cases hw; exact codeWord_of (by decide) (by decide +kernel)
  intro k w hw
  exact h k (by have := (List.getElem?_eq_some_iff.1 hw).1; simpa [headWords] using this) w hw

theorem witness_TraceEntry : Runs headSt iss1 ∧ TlbsAgree headSt ∧ (headThread headSt iss1).pos = .head 0x5000 ∧
    TraceAt headSt iss1.u 0x5000 iss1.h 32 1 (leastAlloc headSt iss1) headWords ∧
    (iss1.h = false → ∀ j ∈ iss1.js, (sliceOf headSt ⟨iss1.u, iss1.g, j⟩).stack.length ≤ 3) := by
  refine ⟨runs_of _ rfl (by decide +kernel), ⟨fun e he => by simp [headSt, wst, on, placeUnit] at he, fun e he => by simp [headSt, wst, on, placeUnit] at he⟩,
    rfl, ⟨by decide +kernel, by decide, by decide, fun k w _ h => head_words k w h, ?_, by decide +kernel⟩, by decide +kernel⟩
  intro k w h1 h2 h3
  have : k = 1 := by simp at h2; omega
  subst this; cases h3; decide

/-- A trace whose SETTLE has been executed, and one in which no lane holds a fault. -/
theorem witness_TraceEndResults : let s := fun done : Bool => wst { th4 with pos := .body 2, settled := done }
    (∀ done : Bool, Runs (s done) iss1 ∧ (unitOf (s done) iss1.u).status ≠ .ending ∧ ∀ x ∈ iss1.threads, (threadOf (s done) x).mask ≠ 0 ∧
      (sliceOf (s done) ⟨x.u, x.g, x.j⟩).shrink = none ∧ ((sliceOf (s done) ⟨x.u, x.g, x.j⟩).stack = [] → (sliceOf (s done) ⟨x.u, x.g, x.j⟩).spilled = 0)) ∧
    iss1.h = false ∧ (headThread (s true) iss1).settled = true ∧ ∀ r ∈ issueLanes (s false) iss1, (s false).held.find? r = none :=
  ⟨fun d => ⟨runs_of _ rfl (by cases d <;> decide +kernel), by cases d <;> decide +kernel⟩, rfl, rfl, by decide +kernel⟩

/-- Groups of two lanes; a thread two of whose guards have failed lanes; a push that joins the top and one that does not; a trace end with a token, one without,
and one whose top carries it, that joins the top and that does not. -/
theorem witness_FragmentOrder :
    let frag : Frag := ⟨false, 1, 8, 5⟩
    let gs : List (BitVec 4 × Nat) := [(2, 0x100)]
    let qs : List (BitVec 4 × Nat) := [(4, 0x200)]
    ((([(0, 8), (3, 8)] : List (Nat × Nat)).map (·.1)).Pairwise (· < ·) ∧ (∀ p ∈ ([(0, 8), (3, 8)] : List (Nat × Nat)), p.1 < 4)) ∧
    failedGroups { failed := [(0, 2), (1, 4)], alts := [0x100, 0x200] } = [(4, 0x200), (2, 0x100)] ∧ frag.mask ≠ 0 ∧ (0 : BitVec 4) = 0 ∧
    ((∀ p ∈ gs ++ qs, p.1 ≠ 0) ∧ ((gs ++ qs).map (·.2)).Nodup ∧ gs ++ qs = (2, 0x100) :: [(4, 0x200)] ∧ (5 : Nat) ≠ 0 ∧ ∀ x ∈ ([] : List Frag).head?, x.tok ≠ 5) ∧
    (∃ x ∈ [frag].head?, x.tok = 5) ∧ ((⟨false, 1, 0x100, 5⟩ : Frag).join = false ∧ (⟨false, 1, 0x100, 5⟩ : Frag).addr = 0x100) ∧
    ∀ x ∈ [frag].head?, ¬ (x.join = false ∧ x.addr = 0x100 ∧ x.tok = 5) := by decide

/-- Each clause: no entry of the token, a fragment of it, slices of a gang that all wait, and one that does not. -/
theorem witness_MergeResults :
    let sl := fun s (x : ThreadId) => sliceOf s ⟨x.u, x.g, x.j⟩
    let s0 := wst { th4 with pos := .head 0x500 }
    let s1 := { s0 with slices := [(⟨0, 0, 0⟩, { nreg := 256, stack := [⟨false, 2, 0x100, 5⟩] })] }
    let s2 := { s0 with gangs := [(⟨0, 0⟩, { nslices := 2, joined := false })], thr := s0.thr ++ [(⟨0, 0, 1, false⟩, { th4 with pos := .regang 0x500 })] }
    let s3 := { s0 with gangs := [(⟨0, 0⟩, { nslices := 2, joined := false })], thr := s0.thr ++ [(⟨0, 0, 1, false⟩, th4)] }
    (Runs s0 iss1 ∧ iss1.h = false ∧ (headThread s0 iss1).pos = .head 0x500 ∧
      ∀ x ∈ iss1.threads, ((sl s0 x).stack = [] → (sl s0 x).spilled = 0) ∧ ∀ f ∈ (sl s0 x).stack.head?, f.tok ≠ 5) ∧
    (Runs s1 iss1 ∧ (headThread s1 iss1).pos = .head 0x500 ∧ ∀ x ∈ iss1.threads, (sl s1 x).stack = ⟨false, 2, 0x100, 5⟩ :: [] ∧
      (2 : BitVec 4) &&& ~~~(sl s1 x).exited ≠ 0 ∧ s1.serve.find? ⟨x.u, x.g, x.j⟩ = none) ∧
    (Runs s2 iss1 ∧ (headThread s2 iss1).pos = .head 0x500 ∧ (∀ j ∈ iss1.js, j ∈ liveSlices s2 iss1.gang) ∧
      ∀ j ∈ liveSlices s2 iss1.gang, j ∈ iss1.js ∨ (threadOf s2 ⟨iss1.u, iss1.g, j, false⟩).pos = .regang 0x500) ∧
    (Runs s3 iss1 ∧ (headThread s3 iss1).pos = .head 0x500 ∧ (∀ j ∈ iss1.js, j ∈ liveSlices s3 iss1.gang) ∧
      ∃ j ∈ liveSlices s3 iss1.gang, j ∉ iss1.js ∧ (threadOf s3 ⟨iss1.u, iss1.g, j, false⟩).pos ≠ .regang 0x500) :=
  ⟨⟨runs_of _ rfl (by decide +kernel), rfl, rfl, by decide +kernel⟩, ⟨runs_of _ rfl (by decide +kernel), rfl, by decide +kernel⟩,
    ⟨runs_of _ rfl (by decide +kernel), rfl, by decide +kernel, by decide +kernel⟩,
    ⟨runs_of _ rfl (by decide +kernel), rfl, by decide +kernel, 1, by decide +kernel, by decide, by decide +kernel⟩⟩

/-- Each clause: the last slice of its unit, one of two, a helper; and a YIELD, a TRAP and a BKPT that begin. -/
theorem witness_ExitYieldTrapResults :
    let s := wst late
    let ends := fun s : State => (headThread s iss1).settled = true ∧ (unitOf s iss1.u).status = .resident ∧ (gangOf s iss1.gang).recs = [] ∧
      (∀ r ∈ issueLanes s iss1, laneDone (commit iss1 (settle iss1 s).2) r = true) ∧
      ∀ x ∈ iss1.threads, (threadOf s x).mask ≠ 0 ∧ (threadOf s x).failed = [] ∧ s.serve.find? ⟨x.u, x.g, x.j⟩ = none ∧
        (sliceOf s ⟨x.u, x.g, x.j⟩).stack = [] ∧ (sliceOf s ⟨x.u, x.g, x.j⟩).spilled = 0
    let two := { s with gangs := [(⟨0, 0⟩, { nslices := 2, joined := false })], thr := s.thr ++ [(⟨0, 0, 1, false⟩, th4)] }
    let hlp := { placeRecord (wst late) with thr := [(hostThread true, { late with mask := 1 })], cur := some ⟨0, 0, [0], true⟩ }
    let trap := wst th4
    (Runs s iss1 ∧ ends s ∧ ∀ g < (unitOf s iss1.u).binds.length, ∀ j ∈ liveSlices s ⟨iss1.u, g⟩, g = iss1.g ∧ j ∈ iss1.js) ∧
    (Runs two iss1 ∧ ends two ∧ ∃ g < (unitOf two iss1.u).binds.length, ∃ j ∈ liveSlices two ⟨iss1.u, g⟩, ¬ (g = iss1.g ∧ j ∈ iss1.js)) ∧
    ((hlp.serve.find? ⟨0, 0, 0⟩).isSome = true ∧ (unitOf hlp 0).status = .resident ∧ issueLanes hlp ⟨0, 0, [0], true⟩ ≠ []) ∧
    (waitOf s iss1 = .none ∧ waitOf (wst { late with wait := .yield }) iss1 = .yield) ∧
    (Runs trap iss1 ∧ (headThread trap iss1).settled = false) ∧
    ((∀ q, waitOf trap iss1 ≠ .stopped q) ∧ (unitOf trap iss1.u).status = .resident ∧ ∀ x ∈ iss1.threads, (threadOf trap x).mask ≠ 0) :=
  ⟨⟨late_runs, by decide +kernel, by decide +kernel⟩, ⟨runs_of _ rfl (by decide +kernel), by decide +kernel, 0, by decide +kernel, 1, by decide +kernel, by decide⟩,
    by decide +kernel, by decide +kernel, ⟨wst_runs, rfl⟩, ⟨fun q h => by
      have e : waitOf (wst th4) iss1 = .none := by decide +kernel
      exact Wait.noConfusion (e.symm.trans h), by decide +kernel, by decide +kernel⟩⟩

/-! ### Memory -/

/-- G0:G1 hold the last word of the scratchpad's 512 KiB, and G2 the index −1. -/
def memSt (th : Thread) : State := { wst th with greg := [(⟨⟨0, 0⟩, 0⟩, 0x7FFFC), (⟨⟨0, 0⟩, 2⟩, 0xFFFFFFFF)] }

theorem mem_runs : Runs (memSt th4) iss1 := runs_of _ rfl (by decide +kernel)
theorem mem_plain : Plain (memSt th4) 0 := plain_of (by decide +kernel)
theorem memLate_runs : Runs (memSt late) iss1 := runs_of _ rfl (by decide +kernel)
theorem memLate_plain : Plain (memSt late) 0 := plain_of (by decide +kernel)
/-- The last word of the scratchpad, and a word of global memory. -/
theorem witness_LoadResults : let s := memSt th4
    Runs s iss1 ∧ Plain s 0 ∧ (Opnd.slot 31).isGang = false ∧ Clear s iss1.gang (gangRegs [(.gang 0, 2)] ++ gangRegs [(.gang 2, 1)]) [] ∧
    (∀ r ∈ issueLanes s iss1, Loadable s r .sc ((src32 s r .int (.gang 0)).toNat + (0 : BitVec 24).toInt + 0 * 4) 4) ∧
    (∀ r ∈ issueLanes s iss1, Loadable s r .gl (((src64 s r .int (.gang 0)).toNat + (0 : BitVec 24).toInt + (src32 s r .int (.gang 2)).toInt * 4) % 2 ^ 64) 4) :=
  ⟨mem_runs, mem_plain, rfl, clear_of (by decide +kernel), each (fun _ h => loadable_of h) (by decide +kernel), each (fun _ h => loadable_of h) (by decide +kernel)⟩

theorem witness_StoreResults : let s := memSt th4
    Runs s iss1 ∧ Plain s 0 ∧ Clear s iss1.gang (gangRegs [(.gang 0, 2)] ++ gangRegs [(.gang 2, 1)] ++ gangRegs [(.gang 63, 1)]) [] ∧
    (∀ r ∈ issueLanes s iss1, InReach s r .sc ((src32 s r .int (.gang 0)).toNat + (0 : BitVec 24).toInt + 0 * 4) 4 true) ∧
    (∀ r ∈ issueLanes s iss1, InReach s r .gl (((src64 s r .int (.gang 0)).toNat + (0 : BitVec 24).toInt + (src32 s r .int (.gang 2)).toInt * 4) % 2 ^ 64) 4 true) :=
  ⟨mem_runs, mem_plain, clear_of (by decide +kernel), each (fun _ h => inReach_of h) (by decide +kernel), each (fun _ h => inReach_of h) (by decide +kernel)⟩

/-- One register that is spilled to, filled from, the last word of the scratchpad; and a prefetch into an L1 with room. -/
theorem witness_SpillFillPrefetchResults : let s := memSt th4
    Runs s iss1 ∧ Plain s 0 ∧ Clear s iss1.gang (gangRegs [(.gang 0, 1)]) [] ∧ Clear s iss1.gang (gangRegs [(.gang 0, 2)] ++ gangRegs [(.gang 2, 1)]) [] ∧
    (∀ r ∈ issueLanes s iss1, (((src32 s r .int (.gang 0)).toNat : Int) + (0 : BitVec 24).toInt) % 4 = 0) ∧ s.vpoi = [] ∧
    (∀ r ∈ issueLanes s iss1, InReach s r .sc ((src32 s r .int (.gang 0)).toNat + (0 : BitVec 24).toInt) (4 * 1) true) ∧
    (∀ r ∈ issueLanes s iss1, Loadable s r .sc ((src32 s r .int (.gang 0)).toNat + (0 : BitVec 24).toInt) (4 * 1)) ∧
    (s.secs = [] ∧ (s.l1.filter fun x => x.core == (unitOf s iss1.u).core).length + 64 ≤ 32768) ∧
    (∀ r ∈ issueLanes s iss1, InReach s r .gl (((src64 s r .int (.gang 0)).toNat + (0 : BitVec 24).toInt + (src32 s r .int (.gang 2)).toInt * 4) % 2 ^ 64) 4 false) ∧
    ∀ r ∈ issueLanes s iss1, ∀ j < 4,
      leasedAt s 0 ((((src64 s r .int (.gang 0)).toNat + (0 : BitVec 24).toInt + (src32 s r .int (.gang 2)).toInt * 4) % 2 ^ 64).toNat + j) = true :=
  ⟨mem_runs, mem_plain, clear_of (by decide +kernel), clear_of (by decide +kernel), by decide +kernel, rfl, each (fun _ h => inReach_of h) (by decide +kernel),
    each (fun _ h => loadable_of h) (by decide +kernel), by decide +kernel, each (fun _ h => inReach_of h) (by decide +kernel), by decide +kernel⟩

/-- Both clauses: a trace before its memory commit, with a store in a lane's write area, and one after it. -/
theorem witness_CommitResults : let s := { memSt th4 with buf := [(ln 1, [⟨.sc, 0x7FFFC, [1, 2, 3, 4], [], .unit, [], []⟩])] }
    (Runs s iss1 ∧ isDet s iss1.u = false ∧ (headThread s iss1).committed = false) ∧
    (Runs (memSt late) iss1 ∧ isDet (memSt late) iss1.u = false ∧ (headThread (memSt late) iss1).committed = true) :=
  ⟨⟨runs_of _ rfl (by decide +kernel), by decide +kernel, rfl⟩, memLate_runs, by decide +kernel, rfl⟩

/-- A committed write may be performed. -/
def mayGo (q : List WEntry) (k : Nat) (e : WEntry) : Bool :=
  let share := fun x : WEntry => x.cells.any fun c => e.cells.any fun c' => c.1 == c'.1
  decide (q[k]? = some e) && e.core == 0 && ((q.take k).all fun x => ! (x.core == 0 && share x)) &&
    (! e.scope.isLocal || e.released || (q.drop (k + 1)).any fun x => x.core == 0 && ! x.scope.isLocal && share x)

/-- Every clause: the second of two writes to one byte has to wait, and the first may be performed; a write to a page of unit scope has to wait for a release of its
lane, and may be performed after one, or where a later write of wider scope waits for it. -/
theorem witness_WritesPerformed :
    let e : WEntry := ⟨0, ln 0, 0, .package, [(0x100, 7)], [], false⟩
    let u := { e with scope := .unit, loc := [0x100] }
    let v := { u with released := true }
    (wst th4).cxl = [] ∧ mayGo [e, e] 0 e = true ∧ mayGo [e, e] 1 e = false ∧ mayGo [u] 0 u = false ∧ mayGo [v] 0 v = true ∧ mayGo [u, e] 0 u = true := by decide +kernel

/-- A word of the scratchpad, its last, and a word of package memory, that every lane changes. -/
theorem witness_AtomicResults : let s := memSt late
    let c0 := commit iss1 s
    let ea := fun (sp : GS) (ix : Option Opnd) (r : LaneRef) => eaOf c0 r sp.space (.gang 0) 0 (idxOf c0 r ix) 4
    Runs s iss1 ∧ Plain s 0 ∧ (Width.b4.bytes = 4 ∨ Width.b4.bytes = 8) ∧
    Clear s iss1.gang (gangRegs [(.gang 0, 2)] ++ gangRegs [(.gang 62, 1), (.gang 63, 1)]) (gangRegs [(.slot 31, 1)]) ∧
    Clear s iss1.gang (gangRegs [(.gang 0, 2)] ++ gangRegs [(.gang 2, 1)] ++ gangRegs [(.gang 63, 1)]) [] ∧
    (∀ u : Bool, ∀ r ∈ actsFor u c0 iss1, AtHome c0 r .sc (ea .sc none r) 4 true true) ∧
    (∀ r ∈ actsFor false c0 iss1, AtHome c0 r .gl (ea .gl (some (.gang 2)) r) 4 true true) ∧
    ∀ r ∈ actsFor false c0 iss1, ∀ k ∈ keysOf c0 r .gl (ea .gl (some (.gang 2)) r) 4, targetOf k = .package :=
  ⟨memLate_runs, memLate_plain, by decide, clear_of (by decide +kernel), clear_of (by decide +kernel),
    fun u => each (fun _ h => atHome_of h) (by cases u <;> decide +kernel), each (fun _ h => atHome_of h) (by decide +kernel), by decide +kernel⟩

/-- An object in the last 8 bytes of the scratchpad (OFF is −4), every write of the lanes having been performed. -/
theorem witness_ObjectResults : let s := memSt late
    let c0 := commit iss1 s
    Runs s iss1 ∧ Plain s 0 ∧ Clear s iss1.gang (gangRegs [(.gang 0, 1)] ++ gangRegs [(.gang 62, 2)]) (gangRegs [(.slot 30, 2)]) ∧
    (∀ r ∈ actsFor false c0 iss1, AtHome c0 r .sc (eaOf c0 r .sc (.gang 0) 0xFFFFFC 0 8) 8 true true) ∧ ∀ r ∈ issueLanes s iss1, undrained c0 r = false :=
  ⟨memLate_runs, memLate_plain, clear_of (by decide +kernel), each (fun _ h => atHome_of h) (by decide +kernel), by decide +kernel⟩

/-- Every write of the issue's lanes has been performed and no command is left; and a write of lane 0 that waits. -/
theorem witness_FenceResults : let s := memSt late
    let s' := { s with wq := [⟨0, ln 0, 0, .package, [(0x100, 7)], [], false⟩] }
    (Runs s iss1 ∧ (∀ r ∈ issueLanes s iss1, undrained (commit iss1 s) r = false) ∧
      (∀ c ∈ (commit iss1 s).copies ++ (commit iss1 s).copyLog, ¬ (c.u = iss1.u ∧ c.g = iss1.g ∧ c.link = false)) ∧
      ∀ c ∈ (commit iss1 s).mats ++ (commit iss1 s).matLog, ¬ (c.u = iss1.u ∧ c.g = iss1.g)) ∧
    (Runs s' iss1 ∧ (¬ ∀ r ∈ issueLanes s' iss1, undrained (commit iss1 s') r = false) ∧ (unitOf s' iss1.u).status = .resident) :=
  ⟨⟨memLate_runs, by decide +kernel⟩, runs_of _ rfl (by decide +kernel), by decide +kernel⟩

/-- A region of one line bound at the first entry, and at the last; a full table; an entry that is there, and one that is not; a monitor without an acquire read, and with
one whose line has been written, has left tracking, or neither; an acquire read of one lane. -/
theorem witness_BindingMonitorResults :
    let s := { memSt late with greg := [(⟨⟨0, 0⟩, 4⟩, 0x40), (⟨⟨0, 0⟩, 6⟩, 64), (⟨⟨0, 0⟩, 8⟩, 8), (⟨⟨0, 0⟩, 10⟩, 1023), (⟨⟨0, 0⟩, 11⟩, 1024)] }
    let full := fun n : Nat => ((List.range n).map fun i => (i, ⟨64, 64, 8⟩) : Map Nat Region)
    let one := { memSt { late with mask := 8 } with mon := [(⟨0, 0, 3⟩, { acq := [(.scr 0 0x40, false, true), (.scr 0 0, true, true)] })] }
    let num := fun n : Nat => (src32 s (ln 0) .int (.gang (BitVec.ofNat 6 n))).toNat
    let base := (src64 s (ln 0) .int (.gang 4)).toNat
    let obj := (src64 s (ln 0) .int (.gang 8)).toNat
    (Runs s iss1 ∧ Clear s iss1.gang (gangRegs [(.gang 4, 2), (.gang 6, 1), (.gang 8, 2)]) [] ∧ Clear s iss1.gang (gangRegs [(.gang 0, 1)]) []) ∧
    ((Opnd.slot 31).isGang = false ∧ (issueLanes s iss1).head? = some (ln 0) ∧ base % 64 = 0 ∧ num 6 % 64 = 0 ∧ num 6 ≠ 0 ∧ obj % 8 = 0 ∧
      undrained (commit iss1 s) (ln 0) = false ∧ (ctxOf s 0).bindtab.find? 0 = none ∧ Map.find? (full 1023) 1023 = none ∧
      (num 10 < 1024 ∧ Map.find? (full 1024) 1023 ≠ none) ∧ ¬ num 11 < 1024 ∧ iss1.h = false) ∧
    (∀ r ∈ issueLanes s iss1, InReach (commit iss1 s) r .sc (eaOf (commit iss1 s) r .sc (.gang 0) 0 0 1) 1 false) ∧
    (let m := ((commit iss1 one).mon.get ⟨0, 0, 3⟩ {}).acq
     m.find? (fun p => p.1 == .scr 0 0) = some (.scr 0 0, true, true) ∧ m.find? (fun p => p.1 == .scr 0 0x40) = some (.scr 0 0x40, false, true) ∧
      m.find? (fun p => p.1 == .scr 0 0x80) = none) ∧
    (Runs one iss1 ∧ Plain one 0 ∧ issueLanes one iss1 = [ln 3] ∧ AtHome (commit iss1 one) (ln 3) .sc (eaOf (commit iss1 one) (ln 3) .sc .zero 0 0 8) 8 false true) :=
  ⟨⟨runs_of _ rfl (by decide +kernel), clear_of (by decide +kernel), clear_of (by decide +kernel)⟩, by decide +kernel,
    each (fun _ h => inReach_of h) (by decide +kernel), by decide +kernel, runs_of _ rfl (by decide +kernel), plain_of (by decide +kernel), by decide +kernel,
    atHome_of (by decide +kernel)⟩

/-! ### Lane exchange, queues, barriers, allocation, fibres -/

theorem witness_LaneExchangeResults : Runs (memSt th4) iss1 ∧ (Opnd.slot 30).isGang = false ∧
    Clear (memSt th4) iss1.gang (gangRegs [(.gang 62, 2), (.gang 0, 1)]) [] ∧ Clear (memSt th4) iss1.gang (gangRegs [(.gang 63, 1)]) [] :=
  ⟨mem_runs, rfl, clear_of (by decide +kernel), clear_of (by decide +kernel)⟩

/-- A departure, and the first arrival of a whole gang at barrier 15. -/
theorem witness_BarrierResults : let s := memSt late
    let s' := memSt { late with wait := .departed 31 }
    (Runs s' iss1 ∧ Clear s' iss1.gang (gangRegs [(.gang 63, 1)]) [] ∧ waitOf s' iss1 = .departed 31) ∧
    (Runs s iss1 ∧ waitOf s iss1 = .none ∧ (unitOf s iss1.u).status = .resident ∧ iss1.h = false ∧ (∀ y ∈ iss1.threads, (threadOf s y).mask ≠ 0) ∧
      iss1.js = liveSlices s iss1.gang ∧ ((unitOf s iss1.u).barriers.get 15 {}).executed = [] ∧ iss1.g ∉ ((unitOf s iss1.u).barriers.get 15 {}).arrived ∧
      (((unitOf s iss1.u).barriers.get 15 {}).arrived = [] → ((unitOf s iss1.u).barriers.get 15 {}).expect = none)) :=
  ⟨⟨runs_of _ rfl (by decide +kernel), clear_of (by decide +kernel), by decide +kernel⟩, memLate_runs, by decide +kernel⟩

/-- Every lane has a cause, no monitor being armed; one whose monitor has not fired has none, before it waits, and while it waits, where pre-emption gives it one; and a
gang of two slices of which one has causes in all its lanes. -/
theorem witness_WaitmonResults :
    let armed : Map LaneId Mon := [(⟨0, 0, 3⟩, { armed := some (.mem 0) })]
    let s := memSt late
    let s' := { s with mon := armed }
    let w := fun c : Option Nat => { memSt { late with wait := .monitor 7 c } with mon := armed }
    let two := { s' with gangs := [(⟨0, 0⟩, { nslices := 2 })], thr := [(⟨0, 0, 0, false⟩, late), (⟨0, 0, 1, false⟩, late)], cur := some ⟨0, 0, [0, 1], false⟩ }
    let own := fun (s : State) (r : LaneRef) => match ((commit iss1 s).mon.get r.lane {}).fired with
      | some c => some c
      | none => if ((commit iss1 s).mon.get r.lane {}).armed = none then some 5 else none
    ((Opnd.slot 31).isGang = false ∧ Runs s iss1 ∧ waitOf s iss1 = .none ∧ ∀ r ∈ issueLanes s iss1, own s r ≠ none) ∧
    (Runs s' iss1 ∧ waitOf s' iss1 = .none ∧ own s' (ln 3) = none ∧ ln 3 ∈ issueLanes s' iss1 ∧ (unitOf s' iss1.u).status = .resident) ∧
    (Runs (w none) iss1 ∧ waitOf (w none) iss1 = .monitor 7 none ∧ waitOf (w (some 3)) iss1 = .monitor 7 (some 3) ∧ own (w none) (ln 3) = none) ∧
    (two.cur = some ⟨0, 0, [0, 1], false⟩ ∧ own two (ln 3) = none ∧ ∀ r ∈ refsOf ⟨0, 0, 1, false⟩ 0xF, own two r ≠ none) :=
  ⟨⟨rfl, memLate_runs, by decide +kernel⟩, ⟨runs_of _ rfl (by decide +kernel), by decide +kernel⟩, ⟨runs_of _ rfl (by decide +kernel), by decide +kernel⟩, by decide +kernel⟩

/-- Queue 63 mapped with room for one, and queue 0, which is not mapped. -/
theorem witness_QueueResults : let s := { memSt late with ctxs := [(0, { queues := [(63, ⟨7, 2047, 1, 0⟩)] })] }
    Runs s iss1 ∧ (ctxOf s (unitOf s iss1.u).ctx).queues.find? 63 = some ⟨7, 2047, 1, 0⟩ ∧ (1 : Nat) ≠ 0 ∧
    Clear s iss1.gang (gangRegs [(.gang 60, 4)]) (gangRegs [(.gang 60, 4), (.gang 0, 1)]) ∧
    ∀ m, (ctxOf s (unitOf s iss1.u).ctx).queues.find? 0 = some m → m.caplog = 0 := by
  intro s
  have e : (ctxOf s 0).queues.find? 0 = none := by decide +kernel
  exact ⟨runs_of _ rfl (by decide +kernel), by decide +kernel, by decide, clear_of (by decide +kernel), fun m h => absurd (e.symm.trans h) (by simp)⟩

theorem witness_SpecialRegisterResults : Runs (memSt late) iss1 ∧ (issueLanes (memSt late) iss1).head? = some (ln 0) ∧
    Clear (memSt late) iss1.gang (gangRegs [(.gang 63, 1)]) (gangRegs [(.gang 62, 2)]) ∧ SReg.clock ∉ [.lane, .slice, .helpidx] :=
  ⟨memLate_runs, by decide +kernel, clear_of (by decide +kernel), by decide⟩

/-- A slice of 8 registers in a launch with a maximum, whose thread may wait for more. -/
def fewSt (most : Nat) (wait : Wait) : State :=
  { memSt { late with wait := wait } with units := [(0, { core := 0, slots := [0], binds := [{ valid := true, regN := 1, regMax := most }] })]
                                          slices := [(⟨0, 0, 0⟩, { nreg := 8 })] }

/-- A GROW that is satisfied, one above the launch's maximum, one that has to wait and one that has been answered; a SHRINK, the first and a second, at a trace end. -/
theorem witness_AllocationResults :
    let enough := fun (s : State) (n : Nat) => ∀ j ∈ (if (gangOf s iss1.gang).joined then liveSlices s iss1.gang else iss1.js), n ≤ (sliceOf s ⟨iss1.u, iss1.g, j⟩).nreg
    let few := fun most : Nat => fewSt most .none
    (Runs (memSt late) iss1 ∧ (Opnd.slot 31).isGang = false ∧ waitOf (memSt late) iss1 = .none ∧ enough (memSt late) (8 * 32)) ∧
    (Runs (few 31) iss1 ∧ waitOf (few 31) iss1 = .none ∧ ¬ enough (few 31) (8 * 32) ∧ 8 * (bindOf (few 31) iss1.u iss1.g).regMax < 8 * 32) ∧
    (Runs (few 32) iss1 ∧ ¬ enough (few 32) (8 * 32) ∧ 8 * 32 ≤ 8 * (bindOf (few 32) iss1.u iss1.g).regMax ∧ (unitOf (few 32) iss1.u).status = .resident) ∧
    (Runs (fewSt 32 (.grown true)) iss1 ∧ waitOf (fewSt 32 (.grown true)) iss1 = .grown true) ∧
    (let t := fun k => { memSt late with slices := [(⟨0, 0, 0⟩, { nreg := 256, shrink := k })] }
     (sliceOf (t none) ⟨0, 0, 0⟩).shrink = none ∧ (sliceOf (t (some 8)) ⟨0, 0, 0⟩).shrink = some 8 ∧ 8 ≤ 8 ∧ 8 ≤ 256) :=
  ⟨⟨memLate_runs, by decide +kernel⟩, ⟨runs_of _ rfl (by decide +kernel), by decide +kernel⟩, ⟨runs_of _ rfl (by decide +kernel), by decide +kernel⟩,
    ⟨runs_of _ rfl (by decide +kernel), by decide +kernel⟩, by decide +kernel⟩

/-- One slice asks, and no other does. -/
theorem asks_one {most n u g j n' : Nat} (hu : ∃ x, (fewSt most (.grow n)).units.find? u = some x) (hg : g < (unitOf (fewSt most (.grow n)) u).binds.length)
    (hj : j ∈ liveSlices (fewSt most (.grow n)) ⟨u, g⟩) (hw : (threadOf (fewSt most (.grow n)) ⟨u, g, j, false⟩).wait = .grow n') : u = 0 ∧ g = 0 ∧ j = 0 ∧ n' = n := by
  obtain ⟨x, hx⟩ := hu
  obtain rfl : u = 0 := by
    by_contra h
    simp [fewSt, Map.find?] at hx
    exact h hx.1.symm
  obtain rfl : g = 0 := Nat.lt_one_iff.1 hg
  have e : liveSlices (fewSt most (.grow n)) ⟨0, 0⟩ = [0] := rfl
  rw [e, List.mem_singleton] at hj; subst hj
  exact ⟨rfl, rfl, rfl, (Wait.grow.inj hw).symm⟩

/-- Of a joined gang and of a parted one, that slice's request is the first: it may be granted, or the registers are too few and the core is stuck. -/
theorem witness_AllocationRequests : let s := fun n => fewSt 32 (.grow n)
    let p := fun n => { s n with gangs := [(⟨0, 0⟩, { joined := false })] }
    (∀ n, KeysOnce (s n).units ∧ (∃ x, (s n).units.find? 0 = some x ∧ x.core = 0 ∧ x.status = .resident) ∧ 0 < (unitOf (s n) 0).binds.length ∧
      0 ∈ liveSlices (s n) ⟨0, 0⟩ ∧ (threadOf (s n) ⟨0, 0, 0, false⟩).wait = .grow n ∧ (gangOf (s n) ⟨0, 0⟩).joined = true ∧ (gangOf (p n) ⟨0, 0⟩).joined = false) ∧
    ([0].map fun j => 256 - (sliceOf (s 256) ⟨0, 0, j⟩).nreg).sum ≤ freeRows (s 256) 0 ∧
    freeRows (s 50000) 0 < ([0].map fun j => 50000 - (sliceOf (s 50000) ⟨0, 0, j⟩).nreg).sum ∧ (∀ j ∈ liveSlices (s 50000) ⟨0, 0⟩, j = 0) := by
  refine ⟨fun n => ⟨?_, ⟨_, rfl, rfl, rfl⟩, Nat.one_pos, List.mem_singleton.2 rfl, rfl, rfl, rfl⟩, by decide +kernel⟩
  exact List.nodup_singleton _

/-- FOPEN's pairs; a fibre whose last element is at the top of the lease, and one that is at its end. -/
theorem witness_FibreResults : let s := { memSt th4 with fib := [(⟨⟨0, 0, 0⟩, 7⟩, { cptr := 0, vptr := 8, len := 3, pos := 2 })] }
    let f := fun r : LaneRef => (s.shad.find? ⟨r, 7⟩).getD (s.fib.get ⟨r.lane, 7⟩ {})
    Runs s iss1 ∧ Plain s 0 ∧ Clear s iss1.gang (gangRegs [(.gang 62, 2), (.gang 60, 2), (.gang 0, 1)]) [] ∧ (Opnd.slot 31).isGang = false ∧
    ∀ r ∈ issueLanes s iss1, decide ((f r).pos.toNat < (f r).len.toNat) = true →
      Loadable s r .gl (((f r).cptr.toNat + 2 * (f r).pos.toNat) % 2 ^ 64 : Nat) 2 ∧ Loadable s r .gl (((f r).vptr.toNat + 2 * (f r).pos.toNat) % 2 ^ 64 : Nat) 2 :=
  by
    intro s f
    refine ⟨runs_of _ rfl (by decide +kernel), plain_of (by decide +kernel), clear_of (by decide +kernel), rfl, fun r hr h => ?_⟩
    have e : ∀ r ∈ issueLanes s iss1, decide ((f r).pos.toNat < (f r).len.toNat) = true → r = ln 0 := by decide +kernel
    obtain rfl := e r hr h
    exact ⟨loadable_of (by decide +kernel), loadable_of (by decide +kernel)⟩

/-! ### Engines -/

/-- An end of a copy may be used, by evaluation. -/
def endOk (s : State) (r : LaneRef) (lk : Bool) (sp : GS) (x : Int) (n : Nat) (write : Bool) : Bool :=
  match if lk then routeOf s (unitOf s r.u).ctx (x % 2 ^ 64).toNat else none with
  | some (_, b, m, w) => decide ((x % 2 ^ 64).toNat + n ≤ b + m) && (! write || w)
  | none => n == 0 || reachOk s r sp.space (inSpace sp x) n write

theorem end_of {s : State} {r : LaneRef} {lk : Bool} {sp : GS} {x : Int} {n : Nat} {w : Bool} (h : endOk s r lk sp x n w = true) : EndInReach s r lk sp x n w := by
  unfold EndInReach
  unfold endOk at h
  generalize (if lk then routeOf s (unitOf s r.u).ctx (x % 2 ^ 64).toNat else none) = o at h ⊢
  rcases o with _ | ⟨i, b, m, w'⟩
  · simp only [Bool.or_eq_true, beq_iff_eq] at h
    exact h.imp id inReach_of
  · simp only [Bool.and_eq_true, decide_eq_true_eq, Bool.or_eq_true, Bool.not_eq_true'] at h
    exact ⟨h.1, fun e => h.2.resolve_left (by simp [e])⟩

/-- What an evaluation says of every lane, at each of some numbers. -/
theorem each_at {l : List LaneRef} {n : Nat} {P : LaneRef → Nat → Prop} {f : LaneRef → Nat → Bool} (hp : ∀ r i, f r i = true → P r i)
    (h : (l.all fun r => (List.range n).all (f r)) = true) : ∀ r ∈ l, ∀ i < n, P r i :=
  fun r hr i hi => hp r i (List.all_eq_true.1 (List.all_eq_true.1 h r hr) i (List.mem_range.2 hi))

/-- Record 2, the ends of the scratchpad and of the record, and a route of one page that may be written. -/
def copySt (th : Thread) : State :=
  { memSt th with
    oprecs := [((0, 2), ⟨0, [2, 0x1FFFC0, 64, 16, 32, 0, 0, 0]⟩)]
    greg := [(⟨⟨0, 0⟩, 0⟩, 0x7FFFC), (⟨⟨0, 0⟩, 1⟩, 2), (⟨⟨0, 0⟩, 2⟩, 4), (⟨⟨0, 0⟩, 3⟩, 0xFFFFFFFC), (⟨⟨0, 0⟩, 4⟩, 0x1FFFFE), (⟨⟨0, 0⟩, 5⟩, 1), (⟨⟨0, 0⟩, 9⟩, 1)]
    ctxs := [(0, { ptroot := BitVec.ofNat 64 (placeRoot + 1), route := [(0, BitVec.ofNat 128 (3 + 7 * 2 ^ 5 + 2 ^ 46 + 2048 * 2 ^ 66))] })] }

/-- CPY of the scratchpad's last 4 bytes, before SETTLE and after; CPY2D of two rows of 4 bytes that end with them; CDEC of an element to the last of a record; a copy of one byte to
another device; and CSEAL without an open batch, of one that waits for nothing, and of one that waits. -/
theorem witness_CopyIssueAndSealResults :
    let rc : OpRec := ⟨0, [2, 0x1FFFC0, 64, 16, 32, 0, 0, 0]⟩
    let s := copySt th4
    let num := fun g : Nat => (greg s iss1.gang g).toNat
    let batch := fun out : List Nat => { memSt late with gangs := [(⟨0, 0⟩, { batches := [⟨9, 7, 12, out, none⟩] })] }
    (Runs s iss1 ∧ Plain s iss1.u ∧ Runs (copySt late) iss1 ∧ isSettled (copySt late) iss1 = true ∧ isSettled s iss1 = false ∧ tagFull s iss1.gang 7 = false ∧
      Clear s iss1.gang (gangRegs [(.gang 0, 1)] ++ gangRegs [(.gang 0, 1)] ++ gangRegs [(.const 4, 1)] ++ [1, 2, 3]) []) ∧
    ((∀ r ∈ issueLanes s iss1, EndInReach s r false .sc (src32 s r .int (.gang 0)).toNat (min 4 4) false) ∧
      (∀ r ∈ issueLanes s iss1, EndInReach s r false .sc (src32 s r .int (.gang 0)).toNat 4 true) ∧ num 2 % 2 ^ 16 ≠ 0 ∧
      ∀ r ∈ issueLanes s iss1, ∀ i < 2, EndInReach s r false .sc ((src32 s r .int (.gang 0)).toNat + (i : Nat) * (greg s iss1.gang 3).toInt) (num 2 % 2 ^ 16) false) ∧
    (num 1 < 64 ∧ s.oprecs.find? (clusterOf (unitOf s iss1.u).core, num 1) = some rc ∧ rc.u = iss1.u ∧
      (∀ r ∈ issueLanes s iss1, ∀ e < num 5, (recRange rc.words).1 ≤ (src32 s r .int (.gang 4)).toNat ∧
        (src32 s r .int (.gang 4)).toNat + convOff rc.words e + 2 ≤ (recRange rc.words).1 + (recRange rc.words).2) ∧
      convReads rc.words (num 5) = [(0, 2)] ∧ ∀ r ∈ issueLanes s iss1, EndInReach s r false .gl (0x1000 + 0) 2 false) ∧
    ((∀ r ∈ issueLanes s iss1, EndInReach s r true .gl 0x1000 1 false) ∧ (∀ r ∈ issueLanes s iss1, EndInReach s r true .gl 0x100000000 1 true) ∧
      routeOf s 0 0x1000 = none ∧ (routeOf s 0 0x100000000).isSome = true) ∧
    (Runs (memSt late) iss1 ∧ Clear (memSt late) iss1.gang [] [63] ∧ ∀ y ∈ (gangOf (memSt late) iss1.gang).batches, ¬ (y.tag = 7 ∧ y.reg = none)) ∧
    (∀ out ∈ [[], [5]], Runs (batch out) iss1 ∧ Clear (batch out) iss1.gang [] [63] ∧ (gangOf (batch out) iss1.gang).batches = [] ++ ⟨9, 7, 12, out, none⟩ :: []) :=
  by refine ⟨⟨runs_of _ rfl (by decide +kernel), plain_of (by decide +kernel), runs_of _ rfl (by decide +kernel), by decide +kernel, by decide +kernel, by decide +kernel,
      clear_of (by decide +kernel)⟩,
    ⟨each (fun _ h => end_of h) (by decide +kernel), each (fun _ h => end_of h) (by decide +kernel), by decide +kernel, each_at (fun _ _ h => end_of h) (by decide +kernel)⟩,
    ⟨by decide +kernel, by decide +kernel, rfl, by decide +kernel, by decide +kernel, each (fun _ h => end_of h) (by decide +kernel)⟩,
    ⟨each (fun _ h => end_of h) (by decide +kernel), each (fun _ h => end_of h) (by decide +kernel), by decide +kernel⟩,
    ⟨memLate_runs, clear_of (by decide +kernel), by decide +kernel⟩,
    fun out hout => ?_⟩
     have h : ∀ out ∈ [[], [5]], (issueLanes { memSt late with gangs := [(⟨0, 0⟩, { batches := [⟨9, 7, 12, out, none⟩] })] } iss1).isEmpty = false ∧
       tokenPending { memSt late with gangs := [(⟨0, 0⟩, { batches := [⟨9, 7, 12, out, none⟩] })] } iss1.gang 63 = false := by decide +kernel
     exact ⟨runs_of _ rfl (h out hout).1, clear_of ⟨by simpa using (h out hout).2, by simp⟩, rfl⟩


/-- A copy command of unit 0 and the state in which it is the only one, of a batch that CSEAL has closed under G63. -/
def cmdOf (lk : Bool) (kind : CopyKind) (src dst : Loc) (via : Option Nat) : CopyCmd :=
  ⟨1, lk, 0, 0, 0, 2, 0, kind, [⟨0, src, dst, 4, 0⟩], [], [], [], false, [], 0, 0, false, [], [], via, 0, []⟩
def cmdSt (c : CopyCmd) : State := { wst th4 with copies := [c], gangs := [(⟨0, 0⟩, { batches := [⟨2, 0, 4, [1], some 63⟩] })] }

/-- A local copy, a conversion, a link command from here, and one to here, each the only command of a batch, on a link and on none; and a command that has left its engine, whose
trace's commit is still to come or is no longer in progress. -/
theorem witness_CopyCompletion :
    let a := cmdOf false (.lanes 4) (.scr 0) (.scr 0x7FFFC) none
    let b := cmdOf false (.conv 0 1 [0, 0, 64, 16, 32, 0, 0, 0]) (.mem 0) (.ob 0) none
    let c := cmdOf true (.lanes 4) (.mem 0) (.far 0 0x1000) (some 11)
    let d := cmdOf true (.lanes 4) (.far 0 0x1000) (.mem 0) (some 11)
    let e := cmdOf true (.lanes 4) (.mem 0) (.far 0 0x1000) none
    (∀ x ∈ [a, b, c, d, e], (cmdSt x).copies.find? (fun y => y.id == 1) = some x ∧
      (cmdSt x).copies.find? (fun y => y.core == x.core && y.link == x.link && ! y.finished && (unitOf (cmdSt x) y.u).status != .saving) = some x ∧
      (gangOf (cmdSt x) ⟨x.u, x.g⟩).batches = [] ++ ⟨2, 0, 4, [1], some 63⟩ :: [] ∧ x.id ∈ [1]) ∧
    (∀ x ∈ [a, b, c, d, e], x.held = false ∧ x.finished = false ∧ x.next = 0 ∧ x.done = [] ∧ x.written = 0 ∧ x.acked = 0 ∧ (cmdSt x).cxl = [] ∧ x.insts = []) ∧
    ((∀ x ∈ a.lanes, x.src.isFar = false ∧ x.dst.isFar = false ∧ x.n ≤ 4) ∧ b.lanes.head? = some ⟨0, .mem 0, .ob 0, 4, 0⟩ ∧
      (∀ x ∈ c.lanes, x.src.isFar = false ∧ x.dst.isFar = true) ∧ ∀ x ∈ d.lanes, x.src.isFar = true ∧ x.dst.isFar = false ∧ x.n ≤ 4) ∧
    (c.via ≠ none ∧ e.via = none ∧ linkFor (cmdSt e) e = none ∧ { a with finished := true }.finished = true) ∧
    (let t := cmdSt { a with insts := [(0, 0)] }
     (threadOf t ⟨0, 0, 0, false⟩).inst = 0 ∧ (threadOf t ⟨0, 0, 0, false⟩).committed = false ∧ (threadOf t ⟨0, 0, 0, false⟩).pos = .body 1) ∧
    ∀ num n desc, a.kind ≠ .conv num n desc :=
  ⟨by decide +kernel, by decide +kernel, by decide +kernel, by decide +kernel, by decide +kernel, fun _ _ _ h => by cases h⟩

/-- Extents of one row and one column in G1 and G2, K = 8 in G3, the last tile element of row 64 in G5, whose row list entry names the scratchpad's
last 16 bytes, and record 0 at offset 0. -/
def matSt (th : Thread) (pair : Nat) : State :=
  { memSt th with
    greg := [(⟨⟨0, 0⟩, 0⟩, 0x7FFFC), (⟨⟨0, 0⟩, 1⟩, 1), (⟨⟨0, 0⟩, 2⟩, 1), (⟨⟨0, 0⟩, 3⟩, 8), (⟨⟨0, 0⟩, 5⟩, if pair = 0 then 0xBF0040 else 0xBF0020), (⟨⟨0, 0⟩, 6⟩, 0x7FFF8)]
    units := [(0, { core := 0, slots := [0], binds := [{ valid := true, regN := 32, regMax := 32, scrSize := 512, pair := pair, pairWait := 64 }] })]
    gangs := [(⟨0, 0⟩, { rows := [(64, 0x7FFF0), (32, 0x7FFF0)] })]
    oprecs := [((0, 0), ⟨0, [0, 0, 64, 1, 32, 0, 0, 0]⟩)] }

/-- The command of a pass, of a tile, and of a move, as MatrixIssueResults makes them. -/
def passOf (s : State) (kind : MatKind) (settled : Bool) : MatCmd :=
  freshMat s iss1 kind (fun r => ⟨r.l, (src32 s r .int (.gang 5)).toNat, 0, 32, 0, pitchAt s 0 0, pitchAt s 0 32, 1⟩) 1 1 8 settled
def tileOf (s : State) (kind : MatKind) : MatCmd := freshMat s iss1 kind (fun r => { l := r.l, o := (src32 s r .int (.gang 5)).toNat }) 1 1 0 true
def moveOf (s : State) (kind : MatKind) : MatCmd := freshMat s iss1 kind (fun r => { l := r.l, o := (src32 s r .int (.gang 5)).toNat, a := (src32 s r .int (.gang 0)).toNat }) 1 1 0 true
def sparseOf (s : State) : MatCmd := freshMat s iss1 (.spst .sc 0 0) (fun r => { l := r.l, o := (src32 s r .int (.gang 5)).toNat, a := (src32 s r .int (.gang 6)).toNat }) 1 1 0 true
def selectOf (s : State) : MatCmd := freshMat s iss1 .mspsel (fun r => ⟨r.l, 0, 32, 62, 0, 1, 1, 1⟩) 0 1 8 true

theorem matChecks_of {s : State} {c : MatCmd} {x : MatLane} (h : c.lanes.take 1 = [x]) (h' : MatOk s c ⟨0, 0, x.l, false⟩ x (wordAddr (headThread s iss1))) :
    MatChecks s iss1 c true := by
  intro y hy; simp only [if_true, h, List.mem_singleton] at hy; subst hy; exact h'

theorem and_split {a b c d : Prop} (h : a ∧ b ∧ c) (h' : d) : a ∧ b ∧ c ∧ d := ⟨h.1, h.2.1, h.2.2, h'⟩

/-- Every range of a list may be moved, by evaluation. -/
theorem ends_of {s : State} {r : LaneRef} {l : List (Int × Nat)} {sp : GS} {wr : Bool} (h : (l.all fun p => endOk s r false sp p.1 p.2 wr) = true) :
    ∀ p ∈ l, MoveInReach s r sp p.1 p.2 wr := fun p hp => end_of (List.all_eq_true.1 h p hp)

theorem moves_of {s : State} {r : LaneRef} {l : List (Int × Nat)} {w : Int} {sp : GS} {wr : Bool}
    (h : (l.all fun p => p.1 % w == 0 && endOk s r false sp p.1 p.2 wr) = true) : ∀ p ∈ l, p.1 % w = 0 ∧ MoveInReach s r sp p.1 p.2 wr := fun p hp => by
  have := List.all_eq_true.1 h p hp
  simp only [Bool.and_eq_true, beq_iff_eq] at this
  exact ⟨this.1, end_of this.2⟩

/-- A pass and a pass for a partner, a tile, a guidance, a store, a load and a sparse store at the ends of their ranges, a selection; a command that waits, and one
that has completed. -/
theorem witness_MatrixIssueResults :
    let s := matSt late 0
    let p := matSt late 1
    let x : MatLane := ⟨0, 0xBF0040, 0, 32, 0, 1, 1, 1⟩
    (Runs s iss1 ∧ Plain s iss1.u ∧ Clear s iss1.gang (gangRegs [(.zero, 1), (.gang 5, 1), (.const 5, 1)] ++ [1, 2, 3]) (gangRegs [(.gang 63, 1)]) ∧ isStatusDst (.gang 63)) ∧
    (waitOf s iss1 = .none ∧ (unitOf s iss1.u).status = .resident ∧ waitOf (matSt { late with wait := .done 9 } 0) iss1 = .done 9 ∧
      (passOf s (.mma true false) true).lanes.take 1 = [x] ∧ (∀ i < 8, (0, (0x7FFF8 + i) / 4 * 4) ∉ (commit iss1 s).scrpoi)) ∧
    (Runs p iss1 ∧ Plain p iss1.u) ∧
    (MatChecks s iss1 (passOf s (.mma true false) true) true ∧ MatChecks p iss1 (passOf p (.mmap false 255) true) true) ∧
    (MatChecks s iss1 (tileOf s .mzero) true ∧ MatChecks p iss1 (tileOf p (.guide 0)) true) ∧
    (MatChecks s iss1 (moveOf s (.mst .sc false (-4))) true ∧ MatChecks s iss1 (moveOf s (.mld .sc false 4)) true) ∧
    (MatChecks s iss1 (sparseOf s) true ∧ MoveInReach s (ln 0) .sc 0x7FFF8 8 false) ∧ MatChecks s iss1 (selectOf s) true := by
  refine ⟨⟨runs_of _ rfl (by decide +kernel), plain_of (by decide +kernel), clear_of (by decide +kernel), Or.inr ⟨_, rfl⟩⟩, by decide +kernel,
    ⟨runs_of _ rfl (by decide +kernel), plain_of (by decide +kernel)⟩, ⟨?_, ?_⟩, ⟨?_, ?_⟩, ⟨?_, ?_⟩, ⟨?_, end_of (by decide +kernel)⟩, ?_⟩
  · exact matChecks_of (x := ⟨0, 0xBF0040, 0, 32, 0, 1, 1, 1⟩) (by decide +kernel) (.inr (.inr (.inr (and_split (by decide +kernel)
      ⟨⟨[0], rfl⟩, by unfold RowsInReach; decide +kernel⟩))))
  · exact matChecks_of (x := ⟨0, 0xBF0020, 0, 32, 0, 1, 1, 1⟩) (by decide +kernel) ⟨by decide +kernel, .inr (.inr (.inr (and_split (by decide +kernel)
      ⟨⟨[0], rfl⟩, by unfold RowsInReach; decide +kernel⟩)))⟩
  · exact matChecks_of (x := { l := 0, o := 0xBF0040 }) (by decide +kernel) (.inr (.inr (by decide +kernel)))
  · exact matChecks_of (x := { l := 0, o := 0xBF0020 }) (by decide +kernel) ⟨by decide +kernel, .inr (.inr (by decide +kernel))⟩
  · exact matChecks_of (x := { l := 0, o := 0xBF0040, a := 0x7FFFC }) (by decide +kernel) (.inr (.inr ⟨by decide +kernel, moves_of (by decide +kernel)⟩))
  · exact matChecks_of (x := { l := 0, o := 0xBF0040, a := 0x7FFFC }) (by decide +kernel) (.inr (.inr ⟨by decide +kernel, moves_of (by decide +kernel)⟩))
  · exact matChecks_of (x := { l := 0, o := 0xBF0040, a := 0x7FFF8 }) (by decide +kernel) (.inr (.inr ⟨by decide +kernel, ends_of (by decide +kernel)⟩))
  · exact matChecks_of (x := ⟨0, 0, 32, 62, 0, 1, 1, 1⟩) (by decide +kernel) (.inr (.inr ⟨by decide +kernel, by decide +kernel, ⟨[0], rfl⟩⟩))

/-- A state with a description in G0 to G7 that names a record number, and with records. -/
def recSt (n : Nat) (recs : Map (Nat × Nat) OpRec) : State :=
  { memSt late with greg := [(⟨⟨0, 0⟩, 0⟩, BitVec.ofNat 32 n), (⟨⟨0, 0⟩, 2⟩, 64), (⟨⟨0, 0⟩, 3⟩, 1), (⟨⟨0, 0⟩, 4⟩, 1)], oprecs := recs }

/-- A description that is valid, in BF16 with a BLK that is not used, and in BX8 with each block, and one that is not, for each of these. -/
theorem witness_descriptions :
    let w := fun (n i : Nat) => (greg (recSt n []) iss1.gang (i % 64)).toNat
    let block := fun n : Nat => if w n 0 / 2 ^ 12 % 4 = 0 then 32 else if w n 0 / 2 ^ 12 % 4 = 1 then 16 else 64
    let valid := fun n : Nat => w n 0 / 2 ^ 6 % 4 = 0 ∧ w n 0 / 2 ^ 8 % 8 ≤ 4 ∧ w n 0 / 2 ^ 11 % 2 = 0 ∧ (3 ≤ w n 0 / 2 ^ 8 % 8 → w n 0 / 2 ^ 12 % 4 ≤ 2) ∧
      w n 0 / 2 ^ 14 % 4 = 0 ∧ w n 0 / 2 ^ 18 = 0
    let place := fun n : Nat => w n 1 % 64 = 0 ∧ w n 2 ≠ 0 ∧ w n 2 % 64 = 0 ∧ w n 1 + w n 2 ≤ 0x200000 ∧ w n 3 ≠ 0 ∧ w n 4 ≠ 0 ∧
      (3 ≤ w n 0 / 2 ^ 8 % 8 → w n 4 % block n = 0) ∧ w n 7 = 0
    (∀ n ∈ [63, 0x3000], valid n ∧ place n) ∧ ¬ valid 64 ∧ (valid 0x300 ∧ ¬ place 0x300) ∧ ¬ valid 0x3300 := by decide +kernel

/-- A record of another unit's under the number and over the range, of this unit, and in use; an earlier command of the gang; the baton held, free, held by another, and passed to
a live gang and to none. -/
theorem witness_RecordAndBatonResults :
    let other : OpRec := ⟨7, [0, 0, 64, 1, 1, 0, 0, 0]⟩
    let own : OpRec := ⟨0, [63, 0, 64, 1, 1, 0, 0, 0]⟩
    let c : MatCmd := { freshMat (memSt late) iss1 .mzero (fun r => { l := r.l }) 0 0 0 true with recs := [63] }
    let two := { memSt late with units := [(0, { binds := [{}, {}] })], thr := (memSt late).thr ++ [(⟨0, 1, 0, false⟩, th4)], gangs := [(⟨0, 0⟩, {}), (⟨0, 1⟩, {})] }
    let held := fun g : GangId => { memSt late with baton := [(0, g)] }
    (Runs (recSt 63 []) iss1 ∧ isStatusDst .zero ∧ Clear (recSt 63 []) iss1.gang ((List.range 8).map fun i => (0 + i) % 64) (gangRegs [(.gang 63, 1)])) ∧
    ((recSt 63 [((0, 63), other)]).oprecs.find? (0, 63) = some other ∧ other.u ≠ 0 ∧
      (∃ p ∈ (recSt 63 [((0, 1), other)]).oprecs, p.1.1 = 0 ∧ p.2.u ≠ 0 ∧ (recRange p.2.words).1 < 0 + 64 ∧ 0 < (recRange p.2.words).1 + (recRange p.2.words).2) ∧
      (recSt 63 [((0, 63), own)]).oprecs.find? (0, 63) = some own ∧ own.u = 0) ∧
    (c.u = 0 ∧ c.g = 0 ∧ 63 ∈ c.recs ∧ (∀ ids, waitOf (recSt 63 []) iss1 = .fence ids → c.id ∈ ids) ∧ waitOf (recSt 63 []) iss1 = .none) ∧
    (Runs (held ⟨0, 0⟩) iss1 ∧ (held ⟨0, 0⟩).baton.find? 0 = some iss1.gang) ∧
    ((memSt late).baton.find? 0 = none ∧ ((memSt late).batonq.find? fun p => p.1 == 0).map (·.2) = none) ∧
    (Runs (held ⟨9, 0⟩) iss1 ∧ (held ⟨9, 0⟩).baton.find? 0 = some ⟨9, 0⟩ ∧ (⟨9, 0⟩ : GangId) ≠ iss1.gang ∧ (0, iss1.gang) ∉ (held ⟨9, 0⟩).batonq) ∧
    (1 < (unitOf two iss1.u).binds.length ∧ liveSlices two ⟨iss1.u, 1⟩ ≠ [] ∧ ¬ 63 < (unitOf two iss1.u).binds.length) := by
  intro other own c two held
  have e : waitOf (recSt 63 []) iss1 = .none := by decide +kernel
  exact ⟨⟨runs_of _ rfl (by decide +kernel), .inl rfl, clear_of (by decide +kernel)⟩, by decide +kernel,
    ⟨rfl, rfl, by decide +kernel, fun _ h => Wait.noConfusion (e.symm.trans h), e⟩, ⟨runs_of _ rfl (by decide +kernel), by decide +kernel⟩, by decide +kernel,
    ⟨runs_of _ rfl (by decide +kernel), by decide +kernel⟩, by decide +kernel⟩

/-- A pass whose row 0 belongs to a lane of its performing set, and a gathering of rows by two lanes. -/
theorem witness_MatrixPassResults :
    let c : MatCmd := passOf (matSt late 0) (.mma false false) true
    let d : MatCmd := freshMat (matSt late 0) iss1 (.mgath 2) (fun r => { l := r.l, a := 0 }) 0 0 0 true
    c.kind.isPass = true ∧ tileRow c 0 = some 64 ∧ (∃ x ∈ c.lanes, x.l = 64 % 32) ∧ tileCol c 0 = some 191 ∧ (d.lanes.map (·.l)).Nodup ∧ d.kind = .mgath 2 := by
  decide +kernel

/-- R75, R76, R79: for a gang that has made no XFENCE to MX, the engine may see a byte as it was before another gang's copy, until another byte
stands there. -/
theorem test_engine_pad :
    let s := { matSt late 0 with scr := [(0, Memory.writeN {} 64 [7, 8])], gangs := [(⟨0, 0⟩, { mxOld := [(64, 1, 7), (65, 2, 9)] })] }
    let c := passOf s (.mma false false) true
    padByte s c 64 = 1 ∧ padByte s c 65 = 8 ∧ padByte (seePad ⟨0, 0⟩ s) c 64 = 7 := by decide +kernel

/-- Each kind of tile command, without an expander that does not answer; a guidance of a paired launch within a bank's half, and pitches that take a selection's rows. -/
theorem witness_MatrixTileResults : let s := matSt late 1
    let g : MatCmd := tileOf s (.guide 0)
    let x := g.lanes.headD { l := 0 }
    s.cxl = [] ∧ g.kind.isCo = false ∧ g.kind = .guide 0 ∧ g.isZero = false ∧ (bindOf s g.u g.g).pair = 1 ∧ (∀ i < 2, x.o % 512 + i < 48 ∨ g.m ≤ i) ∧
      (tileOf s .mzero).kind = .mzero ∧ (moveOf s (.mld .sc false 4)).kind = .mld .sc false 4 ∧ (moveOf s (.mst .sc true 4)).kind = .mst .sc true 4 ∧
      (sparseOf s).kind = .spst .sc 0 0 ∧ ∀ x ∈ (selectOf s).lanes, (selectOf s).n ≤ x.pb ∧ (selectOf s).n ≤ x.px := by decide +kernel

/-- A pass of the reservation table, eligible since cycle 0, and the state in which a list of commands is on core 0. -/
def passCmd : MatCmd := { passOf (matSt late 0) (.mma false false) true with id := 1, since := some 0, table := true }
def matsSt (cs : List MatCmd) : State := { matSt late 0 with mats := cs }

/-- An engine with a command that has been performed; one with a later part of a match to perform; one that may grant, to one command and to a pair; a command that has completed. -/
theorem witness_EngineEventResults :
    let busy := { passCmd with performed := true }
    let part := { passCmd with kind := .mma false true, granted := true }
    let m := { passCmd with kind := .mmap false 255, alone := true, why := some .late }
    let grants := fun (c : MatCmd) => tickEngines (matsSt [c]) = matsSt [c] ∧ grantSet (matsSt [c]) c = some [c] ∧ readsPoison c (matsSt [c]) = none ∧
      ((matsSt [c]).mats.filter fun x => clusterOf x.core == 0 && x.since.isSome && ! x.performed && ! x.granted && ! x.isFree && (grantSet (matsSt [c]) x).isSome) = [] ++ c :: []
    (tickEngines (matsSt [busy]) = matsSt [busy] ∧ clusterOf busy.core = 0 ∧ busy.performed = true ∧ busy.isFree = false ∧ busy.granted = false ∧
      (matsSt [busy]).mats.find? (fun y => y.id == 1) = some busy ∧ busy.ovf = false ∧ busy.isZero = false) ∧
    (tickEngines (matsSt [part]) = matsSt [part] ∧ clusterOf part.core = 0 ∧ part.granted = true ∧ part.performed = false ∧
      (matsSt [part]).mats.find? (fun y => y.core == part.core && y.granted && ! y.performed) = some part) ∧
    grants passCmd ∧ grants m ∧ (∀ sp bf st, busy.kind ≠ .mst sp bf st) ∧ ∀ sp tk, passCmd.kind ≠ .mmap sp tk := by
  refine ⟨by decide +kernel, by decide +kernel, by decide +kernel, by decide +kernel, (fun _ _ _ h => by cases h), (fun _ _ h => by cases h)⟩

/-- Commands that go alone and that match: an MMAP, an MMA.CO, and an MMA. -/
theorem witness_EngineMatches :
    (passCmd.kind.isCo = false ∧ ∀ sp tk, passCmd.kind ≠ .mmap sp tk) ∧ { passCmd with alone := true }.alone = true ∧
    { passCmd with kind := .mmap false 255 }.kind = .mmap false 255 ∧ passCmd.alone = false ∧ { passCmd with kind := .mma true true }.kind.isCo = true :=
  ⟨⟨rfl, fun _ _ h => by cases h⟩, rfl, rfl, rfl, rfl⟩

/-- An MMAP and an MMA.CO that wait; held commands of a copy engine and of a matrix engine with a passing lane and with none. -/
theorem witness_EngineWaits :
    let m := { passCmd with kind := .mmap false 255 }
    let co := { passCmd with kind := .mma false true }
    let copy : CopyCmd := { cmdOf false (.lanes 4) (.scr 0) (.scr 8) none with pass := [0], held := true }
    let h := { passCmd with held := true, pass := [0], since := none, table := false }
    (tickEngines (matsSt [m]) = matsSt [m] ∧ partnerMmap (matsSt [m]) m 255 = none ∧ m.since = some 0 ∧ m.alone = false ∧ m.performed = false ∧ m.granted = false ∧ m.isZero = false) ∧
    (tickEngines (matsSt [co]) = matsSt [co] ∧ co.kind.isCo = true ∧ coMatch (matsSt [co]) co = none) ∧
    (let t := { matSt late 0 with copies := [copy] }; tickEngines t = t ∧ t.copies.find? (fun y => y.id == 1) = some copy ∧ copy.held = true ∧ copy.hold = [] ∧
      copy.lanes.filter (fun x => copy.pass.contains x.l) ≠ [] ∧ copy.lanes.filter (fun x => ([] : List Nat).contains x.l) = []) ∧
    (tickEngines (matsSt [h]) = matsSt [h] ∧ (matsSt [h]).copies.find? (fun y => y.id == 1) = none ∧ (matsSt [h]).mats.find? (fun y => y.id == 1) = some h ∧ h.hold = [] ∧
      h.lanes.filter (fun x => h.pass.contains x.l) ≠ []) := by decide +kernel

/-! ### Helpers -/

/-- A recruitment refused for want of idle lanes, one that takes a lane, an HRET and an HEND of a helper, and an HEND with a write that waits. -/
theorem witness_HelperTraceResults :
    let s := memSt { late with mask := 7, head := 7 }
    let recs := (gangOf s iss1.gang).recs
    let taken := fun s : State => (((List.range (4 * (gangOf s ⟨iss1.u, 0⟩).nslices)).map fun l => ((0, l) : Nat × Nat)).filter fun p =>
      decide (s.serve.find? ⟨iss1.u, p.1, p.2 / 4⟩ = none ∧ ((sliceOf s ⟨iss1.u, p.1, p.2 / 4⟩).exited.getLsbD (p.2 % 4) = true ∨
        (threadOf s ⟨iss1.u, p.1, p.2 / 4, false⟩).head.getLsbD (p.2 % 4) = false))).take 31
    let hi : Issue := ⟨0, 0, [0], true⟩
    let h := { placeRecord (wst late) with thr := [(hostThread true, { late with mask := 1 })], cur := some hi }
    (Runs s iss1 ∧ isStatusDst (.gang 63) ∧ Clear s iss1.gang [] (gangRegs [(.gang 63, 1)]) ∧ taken s ≠ [] ∧ iss1.h = false ∧ (unitOf s iss1.u).status = .resident ∧
      (issueLanes s iss1).head? = some (ln 0) ∧ recs.find? 0 = none ∧ taken (memSt late) = []) ∧
    (h.cur = some hi ∧ issueLanes h hi = [⟨0, 0, 0, true⟩] ∧ hi.h = true ∧ Clear h hi.gang (gangRegs [(.gang 63, 1)]) [] ∧
      ∀ r ∈ issueLanes h hi, undrained (commit hi h) r = false) ∧
    (let t := { memSt late with wq := [⟨0, ln 0, 0, .package, [(0x100, 7)], [], false⟩] }; Runs t iss1 ∧ (∃ r ∈ issueLanes t iss1, undrained (commit iss1 t) r = true)) :=
  ⟨⟨runs_of _ rfl (by decide +kernel), .inr ⟨_, rfl⟩, clear_of (by decide +kernel), by decide +kernel⟩,
    ⟨rfl, by decide +kernel, rfl, clear_of (by decide +kernel), by decide +kernel⟩, runs_of _ rfl (by decide +kernel), by decide +kernel⟩

/-- Lane 0 has a record whose helper runs, is delivered, or has faulted, and the other lanes have none. -/
theorem witness_HelperJoinResults :
    let rec1 := fun st : HState => (⟨0, 30, 0, [], [], [⟨0, 3, st, none⟩], 0⟩ : Recr)
    let s := fun st : HState => { memSt late with gangs := [(⟨0, 0⟩, { recs := [(3, rec1 st)] })], serve := [(⟨0, 0, 0⟩, ⟨0, 3, [(3, 1)]⟩)] }
    let own := fun (st : HState) (r : LaneRef) => if r.l = 0 then some (3, rec1 st) else (none : Option (Nat × Recr))
    (∀ st ∈ [HState.running, .delivered, .faulted], Runs (s st) iss1 ∧ KeysOnce (gangOf (s st) iss1.gang).recs ∧ Clear (s st) iss1.gang (gangRegs [(.gang 63, 1)]) (gangRegs [(.gang 62, 1), (.slot 0, 1)]) ∧
      ∀ r ∈ issueLanes (s st) iss1, match own st r with
        | none => ∀ p ∈ (gangOf (s st) iss1.gang).recs, p.2.lane ≠ r.l
        | some q => q ∈ (gangOf (s st) iss1.gang).recs ∧ q.2.lane = r.l ∧ ∀ p ∈ (gangOf (s st) iss1.gang).recs, p.2.lane = r.l → p ≠ q → q.2.age < p.2.age) ∧
    iss1.h = false ∧ (unitOf (s .running) iss1.u).status = .resident ∧
    ((rec1 .running).helpers.map fun h => (h.g, h.l)).Nodup ∧ (threadOf (s .running) ⟨0, 0, 0, true⟩).committed = false ∧
      ∃ sv, (s .running).serve.find? ⟨0, 0, 0⟩ = some sv ∧ sv.g = 0 ∧ sv.rid = 3 ∧ (3, 1) ∈ sv.lanes := by
  intro rec1 s own
  have one : ∀ st : HState, Runs (s st) iss1 ∧ KeysOnce (gangOf (s st) iss1.gang).recs ∧ Clear (s st) iss1.gang (gangRegs [(.gang 63, 1)]) (gangRegs [(.gang 62, 1), (.slot 0, 1)]) ∧
      ∀ r ∈ issueLanes (s st) iss1, match own st r with
        | none => ∀ p ∈ (gangOf (s st) iss1.gang).recs, p.2.lane ≠ r.l
        | some q => q ∈ (gangOf (s st) iss1.gang).recs ∧ q.2.lane = r.l ∧ ∀ p ∈ (gangOf (s st) iss1.gang).recs, p.2.lane = r.l → p ≠ q → q.2.age < p.2.age := by
    intro st
    refine ⟨runs_of _ rfl (by cases st <;> decide +kernel), by unfold KeysOnce; cases st <;> decide +kernel, clear_of (by cases st <;> decide +kernel), ?_⟩
    have hr : (gangOf (s st) iss1.gang).recs = [(3, rec1 st)] := rfl
    have none_ : ∀ l : Nat, l ≠ 0 → ∀ p ∈ (gangOf (s st) iss1.gang).recs, p.2.lane ≠ l := by
      intro l hl p hp; rw [hr, List.mem_singleton] at hp; subst hp; exact fun h => hl h.symm
    intro r _
    by_cases h0 : r.l = 0
    · simp only [own, if_pos h0]
      exact ⟨by rw [hr]; exact List.mem_singleton.2 rfl, h0.symm, fun p hp _ h => absurd (by rwa [hr, List.mem_singleton] at hp) h⟩
    · simp only [own, if_neg h0]
      exact none_ r.l h0
  exact ⟨fun st _ => one st, rfl, by decide +kernel, by decide, by decide +kernel, ⟨_, rfl, rfl, rfl, by decide⟩⟩

/-! ### Events of cores, units and contexts -/

/-- The record of a launch of two units, and the launch. -/
def twoUnits : BitVec 1024 := BitVec.ofNat 1024 (2 * 2 ^ 64 + 2 ^ 96 + 2 ^ 112)
def twoLaunch : Launch := ⟨0, 0, 0, 1, twoUnits, .running, [], [0], 0, [], [], none, []⟩

/-- A WAITMON that waits; an ended unit with a store in the Sluice, and one with a reduction; a quantum that ends, and one that has ended while a new unit waits; a unit that yields for
another; a watchdog over a trace before its memory commit, and over one past it. -/
theorem witness_CoreEventResults :
    let un : UnitSt := { launch := 0, status := .done, staged := [((0, 0, 0), .store [(0x100, 7)])] }
    let s := { wst th4 with units := [(0, un)], launches := [(0, twoLaunch)] }
    let y := { wst { late with wait := .yield } with launches := [(0, twoLaunch)] }
    let q := fun th : Thread => { wst th with units := [(0, { binds := [{ mode := 1, wdog := 5 }] })] }
    ((threadOf (wst { late with wait := .monitor 0 none }) (hostThread false)).wait = .monitor 0 none) ∧
    (s.units.find? 0 = some un ∧ s.launches.find? un.launch = some twoLaunch ∧ un.staged ≠ [] ∧ (∀ i < un.idx, i ∈ twoLaunch.completed) ∧
      twoLaunch.completed.length ≠ unitsIn twoLaunch.desc ∧ s.cxl = [] ∧ s.wq = []) ∧
    (let t := { s with units := [(0, { un with staged := [((0, 0, 0), .red 0x100 4 .add 5)] })], launches := [] }; t.launches.find? 0 = none ∧ t.cxl = [] ∧ t.wq = []) ∧
    (∀ p ∈ [(th4, false), (late, true)], (unitOf (q p.1) 0).status = .resident ∧ (unitOf (q p.1) 0).recs = [] ∧ (bindOf (q p.1) 0 0).mode = 1 ∧ (bindOf (q p.1) 0 0).wdog ≠ 0xFFFFFFFF ∧
      (∀ t ∈ (q p.1).thr, t.1.u = 0 → t.2.parked = [] ∧ t.2.wait = .none) ∧ ((q p.1).thr.map (·.1)).Nodup ∧ runsOn (threadOf (q p.1) (hostThread false)) = p.2) ∧
    ((y.thr.map (·.1)).Nodup ∧ y.launches.find? (unitOf y 0).launch = some twoLaunch ∧ (unitOf y 0).status = .resident ∧ (∃ p ∈ y.thr, p.1.u = 0 ∧ p.2.wait = .yield) ∧
      ∃ i < min (doneOf twoLaunch + 256) (unitsIn twoLaunch.desc), i ≠ (unitOf y 0).idx ∧ i ∉ twoLaunch.completed ∧ i ∉ twoLaunch.begun) := by decide +kernel

/-- A running context, one that is saved; one whose units have come to rest, at a wait and at a trace head, no flit of theirs being unacknowledged; one restored; and one that waits for
INVAL. -/
theorem witness_PreemptionResults :
    let s := fun (th : Thread) (c : Ctx) => { wst th with ctxs := [(0, c)], units := [(0, { status := if c.state = .saving then .saving else .resident, binds := [{}] })] }
    let w := s { late with wait := .drain }
    (answersHost (w {}) = true ∧ (ctxOf (w {}) 0).invbusy = false ∧ (ctxOf (w {}) 0).state = .running ∧ ((w {}).units.map (·.1)).Nodup ∧ ((w {}).thr.map (·.1)).Nodup) ∧
    ((ctxOf (w { invbusy := true }) 0).invbusy = true ∧ (ctxOf (w { state := .saved }) 0).state ≠ .running) ∧
    (∀ th ∈ [{ late with wait := .drain }, { th4 with pos := .head 0x5000 }], let t := s th { state := .saving }
      (ctxOf t 0).state = .saving ∧ t.cxl = [] ∧ t.copyLog = [] ∧ ∀ p ∈ t.thr, p.1.h = false ∧ (p.2.pos = .head 0x5000 ∨ (p.2.committed = true ∧ p.2.wait ≠ .none))) ∧
    (let t := w { state := .restoring }; (ctxOf t 0).state = .restoring ∧ ∀ p ∈ t.units, p.2.ctx = 0 → p.2.status ≠ .saved) := by decide +kernel

/-- An INVAL that may begin and one that has to wait, one with nothing left of it; a growable page of which one table is missing, with frames enough and with one too few. -/
theorem witness_InvalidationAndGrowth :
    let inv := { wst th4 with ctxs := [(0, { invbusy := true, invaddr := 1, invcur := (1, 0), cmdq := [2] })] }
    let grown := fun tail : Nat =>
      { mapped (wordCells (2 * placeRoot + 8) 0x30001 ++ wordCells 0x30000 0x400 ++ wordCells 0x1000 0x200000 ++ wordCells 0x1008 0x201000 ++ wordCells 0x1010 0x202000) with
        ctxs := [(0, { ptroot := BitVec.ofNat 64 (placeRoot + 1), poolbase := 0x1000, poolcfg := 2, pooltail := BitVec.ofNat 32 tail })]
        parks := [⟨1, 0, some (hostThread false), 0, 0x40000000, 0, 0, false, 1, 0⟩] }
    let frame := fun (s : State) (k : Nat) => bitsOf (leNat (s.mem.readN (bitsOf (ctxOf s 0).poolbase.toNat 12 40 * 4096
      + 8 * (((ctxOf s 0).poolhead.toNat + k) % 2 ^ ((ctxOf s 0).poolcfg.extractLsb' 0 4).toNat)) 8)) 12 40 * 4096
    (answersHost (wst th4) = true ∧ (ctxOf (wst th4) 0).invbusy = false ∧ answersHost inv = true ∧ (ctxOf inv 0).invbusy = true ∧ (ctxOf inv 0).cmdq = [2] ∧ inv.buf = [] ∧
      (ctxOf inv 0).invcur = (1, 0) ∧ inv.wq = [] ∧ allCopies inv = [] ∧ allMats inv = []) ∧
    (let s := grown 2; walk s 0 0x40000000 = .absent true 0x30000 1 0x400 ∧ s.cxl = [] ∧ 1 < ((ctxOf s 0).pooltail - (ctxOf s 0).poolhead).toNat ∧
      frame s 0 = 0x200000 ∧ frame s 1 = 0x201000 ∧ 0x30000 % 8 = 0) ∧
    (let s := grown 1; walk s 0 0x40000000 = .absent true 0x30000 1 0x400 ∧ ((ctxOf s 0).pooltail - (ctxOf s 0).poolhead).toNat ≤ 1) := by decide +kernel

/-! ### Faults, graphs, launches -/

theorem forall_lt {n : Nat} {P : Nat → Prop} (h : ∀ i : Fin n, P i.1) : ∀ i < n, P i := fun i hi => h ⟨i, hi⟩

/-- The largest subcode; a ring that is off, one that is full, and one with its last slot free; a record that waits for room; an open record, the last that REPLAY may name. -/
theorem witness_FaultRecordsAndAnswers :
    let ring := fun (cfg : DWord) (head tail : Word) => { mapped [] with ctxs := [(0, { ptroot := BitVec.ofNat 64 (placeRoot + 1), fqbase := 0x2000, fqcfg := cfg, fqhead := head, fqtail := tail })] }
    let on := fun s : State => (ctxOf s 0).fqcfg.getLsbD 8 = true ∧ 6 ≤ (ctxOf s 0).fqcfg.toNat % 32 ∧ (ctxOf s 0).fqcfg.toNat % 32 ≤ 16
    let used := fun s : State => ((ctxOf s 0).fqhead - (ctxOf s 0).fqtail).toNat
    let r : FRec := ⟨0, 1, .bkpt, 0, true, true, 0, hostThread false, none⟩
    let h : FRec := ⟨0, 2, .page, 0, true, false, 0, hostThread false, none⟩
    let s := { wst { late with wait := .stopped 1 } with frecs := [r], ctxs := [(0, { nextRec := 2 ^ 31 + 1 })] }
    (∃ x : RecFields, x.sub < 256) ∧ ¬ on (ring 0x005 0 0) ∧ (on (ring 0x106 64 0) ∧ 2 ^ 6 ≤ used (ring 0x106 64 0)) ∧
    (on (ring 0x106 63 0) ∧ used (ring 0x106 63 0) < 2 ^ 6 ∧ (ring 0x106 63 0).cxl = [] ∧ ∀ i < 64, sysAddr (ring 0x106 63 0) 0 (0x2000 + 64 * (63 % 2 ^ 6) + i) = some (0x2FC0 + i)) ∧
    (let t := { ring 0x106 64 0 with frecs := [h] }; answersHost t = true ∧ on t ∧ (t.frecs.map fun r => (r.ctx, r.seq)).Nodup ∧
      (t.frecs.filter fun r => r.ctx == 0 && ! r.written).Pairwise (fun a b => a.seq < b.seq ∧ b.seq < a.seq + 2 ^ 31)) ∧
    (answersHost s = true ∧ s.frecs = [] ++ r :: [] ∧ r.seq < (ctxOf s 0).nextRec ∧ (ctxOf s 0).nextRec ≤ r.seq + 2 ^ 31 ∧ (s.frecs.map fun r => (r.ctx, r.seq)).Nodup ∧
      (ctxOf s 0).state = .running ∧ s.parks = [] ∧ (unitOf s r.u).status = .resident ∧ (s.thr.map (·.1)).Nodup ∧ (threadOf s (hostThread false)).wait = .stopped 1 ∧ r.thread.h = false) := by
  refine ⟨⟨⟨.trap, 255, false, false, 0, 0, 0, 0, 0, 0, 0, 0, 0, 0, 0, 0, 0, 0, 0⟩, by decide⟩, by decide +kernel, by decide +kernel, ⟨by decide +kernel, by decide +kernel, rfl, ?_⟩, by decide +kernel, by decide +kernel⟩
  exact forall_lt (by decide +kernel)

/-- An error that a core counts and one that a die counts; one in the trace state of a slice before its memory commit, after it, and in the control state of its unit; one in scheduler memory. -/
theorem witness_SoftErrorResults :
    let s := wst { th4 with pos := .body 2 }
    let t := wst { late with pos := .body 2 }
    let y := hostThread false
    let g := { wst th4 with graphs := [(5, ⟨0, [0], [], []⟩)], trigs := [⟨0, 5, 1, 0, [], true⟩], launches := [(0, ⟨0, 5, 0, 1, 0, .running, [], [], 0, [], [], none, []⟩)] }
    errorPlace s (.mainReg 0 0 0 255) = .inl (0, 0) ∧ (errorPlace s (.memSector 0)).isRight = true ∧
    ((threadOf s y).pos = .body 2 ∧ y.h = false ∧ (unitOf s y.u).status = .resident ∧ (threadOf s y).committed = false ∧ y.j ∈ (issueOf s y).js) ∧
    ((threadOf t y).pos = .body 2 ∧ (threadOf t y).committed = true ∧ (t.thr.map (·.1)).Nodup) ∧ firstLive s 0 = some y ∧
    (g.graphs.find? 5 = some ⟨0, [0], [], []⟩ ∧ (launchAt g 5 0).isSome = true ∧ (g.launches.map (·.1)).Nodup) := by decide +kernel

/-- The node record of a launch of one unit of one gang of one slice, at its limits where it has any. -/
def node1 : BitVec 1024 :=
  BitVec.ofNat 1024 (0x5000 + 2 ^ 64 + 2 ^ 96 + 2 ^ 112 + 8 * 2 ^ 128 + 32 * 2 ^ 136 + 4 * 2 ^ 154)

/-- A GLOAD and one that finds another in progress; images that break each check; the sound image of one node, without edge or cycle; a trigger that is accepted, one for a full
die, for an empty slot, and patch lists that are bad and that cannot be read; a trigger that may begin. -/
theorem witness_GraphResults :
    let img := fun (h : Nat) (n : Nat) => { mapped (wordCells 0x1000 h ++ cellsOf ((List.range 128).map (0x1040 + ·)) (leBytes 128 n)) with
      ctxs := [(0, { ptroot := BitVec.ofNat 64 (placeRoot + 1), gload := some 0x1000 })] }
    let head := 0x47525A55 + 2 ^ 32 + 2047 * 2 ^ 48
    let queued := fun n : Nat => { mapped [] with trigs := List.replicate n ⟨0, 2047, 1, 0, [], false⟩, graphs := [(2047, ⟨0, [node1], [], []⟩)] }
    let v : DWord := 2047 * 2 ^ 48
    (answersHost (mapped []) = true ∧ (ctxOf (mapped []) 0).gload = none ∧ (ctxOf (img 0 0) 0).gload = some 0x1000) ∧
    ((sysRead (img head node1.toNat) 0 0x1000 64).isSome = true ∧ sysRead (img head node1.toNat) 0 0x40000000 64 = none) ∧
    (let hb := (sysRead (img head node1.toNat) 0 0x1000 64).getD []; leNat hb % 2 ^ 32 = 0x47525A55 ∧ leNat hb / 2 ^ 96 = 0 ∧ leNat hb / 2 ^ 48 % 2 ^ 16 = 2047 ∧
      leNat hb / 2 ^ 32 % 2 ^ 16 = 1 ∧ leNat hb / 2 ^ 64 % 2 ^ 32 = 0) ∧
    ((sysRead (img head node1.toNat) 0 0x1040 128).map fun b => (BitVec.ofNat 1024 (leNat b)).toNat) = some node1.toNat ∧
    (∀ p ∈ [(60, 4), (134, 2), (142, 2), (167, 1), (242, 14), (383, 1), (436, 12), (500, 12)], nodeField node1 p.1 p.2 = 0) ∧ limitsOk node1 = true ∧ limitsOk 0 = false ∧
    nodeField (2 ^ 60) 60 4 ≠ 0 ∧
    (let s := queued 63; ¬ 64 ≤ (s.trigs.filter fun t => ! t.running && t.gid / 256 % 8 == v.toNat / 2 ^ 48 / 256 % 8).length ∧ v.toNat / 2 ^ 48 < 2048 ∧
      s.graphs.find? (v.toNat / 2 ^ 48) = some ⟨0, [node1], [], []⟩ ∧ readPatches s 0 (v.toNat % 2 ^ 48) ⟨0, [node1], [], []⟩ = .ok 0 []) ∧
    64 ≤ ((queued 64).trigs.filter fun t => ! t.running && t.gid / 256 % 8 == v.toNat / 2 ^ 48 / 256 % 8).length ∧ (mapped []).graphs.find? 2047 = none ∧
    readPatches (mapped (wordCells 0x1000 0x400000)) 0 0x1000 ⟨0, [node1], [], []⟩ = .bad ∧ readPatches (mapped []) 0 0x40000000 ⟨0, [node1], [], []⟩ = .fault ∧
    ((queued 1).trigs.find? (fun y => y.gid == 2047 && y.ctx == 0) = some ⟨0, 2047, 1, 0, [], false⟩) := by decide +kernel

/-- A graph whose one edge closes no cycle has a rank, and one whose edge closes a cycle has none. -/
theorem witness_GraphCycles : (∃ rank : Nat → Nat, ∀ i < 1, rank (([(0, 1)] : List (Nat × Nat)).getD i (0, 0)).1 < rank (([(0, 1)] : List (Nat × Nat)).getD i (0, 0)).2) ∧
    ∀ rank : Nat → Nat, ∃ i < 1, rank (([(0, 0)] : List (Nat × Nat)).getD i (0, 0)).2 ≤ rank (([(0, 0)] : List (Nat × Nat)).getD i (0, 0)).1 :=
  ⟨⟨id, by decide⟩, fun _ => ⟨0, by decide, Nat.le_refl _⟩⟩

/-- The launch of node 0 of graph 5, with leases listed at an address, in a state. -/
def launchSt (list : Nat) (st : LState) (cells : List Host.Cell) : State :=
  let l : Launch := ⟨0, 5, 0, 1, node1 + BitVec.ofNat 1024 (list * 2 ^ 256 + 2 ^ 308 + 0x3000 * 2 ^ 448), st, [], [], 0, [], [], none, []⟩
  { mapped cells with graphs := [(5, ⟨0, [node1], [], []⟩)], trigs := [⟨0, 5, 1, 0, [], true⟩], launches := [(1, l)] }

def leaf? : Walk → Bool
  | .leaf _ _ => true
  | _ => false

/-- A launch that may start, whose list cannot be read, breaks a check, names a page that is not present, and names one that is. -/
theorem witness_LaunchStartResults :
    let s := launchSt 0x1000 .waiting (wordCells 0x1000 0x5000 ++ wordCells 0x1008 0x1000)
    let l := (s.launches.find? 1).getD default
    let w := fun s : State => (sysRead s 0 0x1000 16).map leNat
    ((launchAt s 5 0 = some (1, l) ∧ s.launches.find? 1 = some l ∧ l.state = .waiting ∧ l.node = 0 ∧ ((s.graphs.find? l.gid).map (·.edges)).getD [] = [] ∧
      ∀ p ∈ s.launches, p.1 = 1) ∧
     (s.parks.length = 0 ∧ nodeField l.desc 308 12 = 1 ∧ nodeField l.desc 256 52 = 0x1000 ∧ nodeField l.desc 320 52 = 0 ∧ nodeField l.desc 384 52 = 0)) ∧
    (w s = some (0x5000 + 0x1000 * 2 ^ 64) ∧ leaf? (walk s 0 0x5000) = true ∧ sysRead (launchSt 0x40000000 .waiting []) 0 0x40000000 16 = none ∧
      w (launchSt 0x1000 .waiting []) = some 0 ∧ walk s 0 0x40000000 = .absent false (2 * placeRoot + 8) 2 0) ∧
    (l.state.final = false ∧ (s.launches.map (·.1)).Nodup ∧ doneOf l < 2 ^ 64 ∧ l.errors < 2 ^ 64 ∧ s.cxl.length = 0 ∧ nodeField l.desc 448 52 = 0x3000) := by
  decide +kernel

/-- The same launch with a binding table of one region, and a queue map that cannot be read; a table whose region is bad. -/
theorem witness_LaunchTable :
    let s := mapped (wordCells 0x2000 0x5000 ++ wordCells 0x2008 64 ++ wordCells 0x2010 8)
    let d : BitVec 1024 := node1 + BitVec.ofNat 1024 (0x2000 * 2 ^ 320 + 2 ^ 372 + 0x40000000 * 2 ^ 384)
    (nodeField d 320 52 = 0x2000 ∧ nodeField d 372 11 = 1 ∧ nodeField d 384 52 = 0x40000000 ∧ sysRead s 0 0x40000000 1024 = none) ∧
    (sysRead s 0 0x2000 32).map leNat = some (0x5000 + 64 * 2 ^ 64 + 8 * 2 ^ 128) ∧ (sysRead (mapped []) 0 0x2000 32).map leNat = some 0 := by
  decide +kernel

/-- The bytes of the completion record of that launch. -/
theorem witness_CompletionRecord : ∀ i < 32, sysAddr (launchSt 0x1000 .waiting []) 0 (0x3000 + i) = some (0x3000 + i) := by
  have h : ∀ i : Fin 32, sysAddr (launchSt 0x1000 .waiting []) 0 (0x3000 + i.1) = some (0x3000 + i.1) := by decide +kernel
  intro i hi
  have := h ⟨i, hi⟩
  generalize 0x3000 = k at this ⊢
  exact this

theorem placeIn_mod (used : List (Nat × Nat)) (lo hi n al p : Nat) (h : lo + n ≤ hi) :
    placeIn used lo hi n al p = placeIn used lo hi n al (p % ((hi - lo - n) / al + 1)) := by
  have : max ((hi - lo - n) / al + 1) 1 = (hi - lo - n) / al + 1 := Nat.max_eq_left (Nat.succ_le_succ (Nat.zero_le _))
  simp only [placeIn, if_pos h, this, Nat.mod_mod]

theorem stacks_all : ((List.range 493).all fun i => (List.range 4).all fun j => match placeIn [] 0x20000000 0x20200000 0x14000 4096 i with
    | some a => (placeIn [(a, 0x14000)] 0x20000000 0x20200000 0x80000 0x80000 j).isSome
    | none => false) = true := by decide +kernel

/-- Wherever its window is put, the spill region of a gang of one slice with the least stack finds room in 2 MiB. -/
theorem stacks_fit (p q : Nat) : ∃ a b, placeIn [] 0x20000000 0x20200000 0x14000 4096 p = some a ∧ placeIn [(a, 0x14000)] 0x20000000 0x20200000 0x80000 0x80000 q = some b := by
  have h := List.all_eq_true.1 (List.all_eq_true.1 stacks_all (p % 493) (List.mem_range.2 (Nat.mod_lt _ (by decide)))) (q % 4) (List.mem_range.2 (Nat.mod_lt _ (by decide)))
  rw [placeIn_mod _ _ _ _ _ p (by decide)]
  have e : (0x20200000 - 0x20000000 - 0x14000) / 4096 + 1 = 493 := by decide
  rw [e]
  split at h
  · next a ha =>
    obtain ⟨b, hb⟩ := Option.isSome_iff_exists.1 h
    refine ⟨a, b, ha, ?_⟩
    rw [placeIn_mod _ _ _ _ _ q (by decide)]
    exact hb
  · cases h

theorem placeStacks_succ {c : Ctx} {d : BitVec 1024} {k : Nat} {used : List (Nat × Nat)} {s : State} {p : Nat × Nat} (h : placeStack c d used s = some p) :
    (placeStacks c d (k + 1) used s).1 =
      (placeStacks c d k ((p.1, stackBytes d) :: (p.2, Config.spillBytes) :: used) { s with free := s.free + 2 }).1.map fun l => p :: l := by
  rw [placeStacks, h]; rfl

theorem placeStacks_one {c : Ctx} {d : BitVec 1024} {used : List (Nat × Nat)} {s : State} {p : Nat × Nat} (h : placeStack c d used s = some p) :
    (placeStacks c d 1 used s).1.isSome = true := by
  rw [placeStacks_succ h, placeStacks]; rfl

/-- A launch that runs, with room for its one unit on a core of die 0 and its context's areas for stacks and for saves. -/
def runLaunch : Launch := ⟨0, 5, 0, 1, node1, .running, [], [], 0, [], [], none, []⟩
def dispatchSt : State :=
  { mapped [] with trigs := [⟨0, 5, 1, 0, [], true⟩], launches := [(1, runLaunch)]
                   ctxs := [(0, { ptroot := BitVec.ofNat 64 (placeRoot + 1), growbase := 0x20000000, growsize := 0x200000, savesize := 0x20000000000000 })] }

theorem dispatch_places : (unitPlaces runLaunch dispatchSt).1.isSome = true := by
  have hu : usedGrow dispatchSt 0 = [] := by decide +kernel
  have hg : gangsOfDesc node1 = 1 := by decide +kernel
  have hl : bitsOf (ctxOf dispatchSt 0).growbase.toNat 21 31 * Config.growUnit = 0x20000000 := by decide +kernel
  have hh : 0x20000000 + (ctxOf dispatchSt 0).growsize.toNat / Config.growUnit * Config.growUnit = 0x20200000 := by decide +kernel
  have hn : stackBytes node1 = 0x14000 := by decide +kernel
  have hm : Config.spillBytes = 0x80000 := rfl
  obtain ⟨a, b, ha, hb⟩ := stacks_fit (Config.freeNat dispatchSt.free) (Config.freeNat (dispatchSt.free + 1))
  show (placeStacks (ctxOf dispatchSt 0) node1 (gangsOfDesc node1) (usedGrow dispatchSt 0) dispatchSt).1.isSome = true
  rw [hu, hg]
  refine placeStacks_one (p := (a, b)) ?_
  rw [placeStack, hl, hh, hn, hm, ha, Option.bind_some, hb, Option.map_some]

theorem dispatch_saves : saveFull dispatchSt (newUnit 1 0 191 runLaunch [] dispatchSt) = false := by
  have e1 : blockBytes (newUnit 1 0 191 runLaunch [] dispatchSt) 1024 0 0 = 13312 := by decide +kernel
  have e2 : ((newUnit 1 0 191 runLaunch [] dispatchSt).binds.map fun b => 4 * (b.slices + 1) * 8 * b.regMax).sum = 1024 := by decide +kernel
  have e3 : (ctxOf dispatchSt (newUnit 1 0 191 runLaunch [] dispatchSt).ctx).savesize.toNat = 2 ^ 53 := by decide +kernel
  have e4 : reservedBlocks dispatchSt (newUnit 1 0 191 runLaunch [] dispatchSt).ctx = 0 := by decide +kernel
  have hs := Config.blockSlack.isLt
  rw [saveFull, worstBlock, e2, e1, e3, e4, Config.saveHeader, roundUp]
  exact decide_eq_false (by omega)

/-- A new unit on core 191, the last of its die, and none on core 192; and a saved unit of the launch. -/
theorem witness_DispatchResults :
    let s := dispatchSt
    let t := { s with units := [(3, { launch := 1, status := .saved, binds := [{}] })] }
    (s.launches.find? 1 = some runLaunch ∧ runLaunch.state = .running ∧ nextUnit s 1 191 runLaunch = some 0 ∧ nextUnit s 1 192 runLaunch = none ∧ outranked s 1 191 runLaunch = false ∧
      savedUnit s 1 0 = none) ∧
    (savedUnit t 1 0 = some 3 ∧ nextUnit t 1 191 runLaunch = some 0 ∧ outranked t 1 191 runLaunch = false ∧ t.frecs = []) := by
  have fits : unitFits dispatchSt 1 0 191 runLaunch = true := by
    simp only [unitFits, dispatch_places, dispatch_saves, Bool.not_false, Bool.and_self, Bool.or_true]
  have ok : (dispatches dispatchSt && coreAllowed dispatchSt runLaunch 191 && restoreFirst dispatchSt runLaunch.ctx 1 0 && (waiting dispatchSt 1 runLaunch).contains 0 &&
    roomOn dispatchSt 1 0 191 runLaunch) = true := by decide +kernel
  have order : unitOrder dispatchSt 1 runLaunch = [0] := by decide +kernel
  refine ⟨⟨rfl, rfl, ?_, by decide +kernel, by decide +kernel, by decide +kernel⟩, by decide +kernel⟩
  have q : qualifies dispatchSt 1 0 191 runLaunch = true := by rw [qualifies, ok, fits, Bool.and_self]
  show ((unitOrder dispatchSt 1 runLaunch).filter fun i => qualifies dispatchSt 1 i 191 runLaunch).head? = some 0
  rw [order]; simp [q]

/-- The launch in ordered mode, which has made no room, and which has; and in quantum mode with a unit that comes back, and one that fits. -/
theorem witness_DispatchOrder :
    let q := { runLaunch with desc := node1 ||| (1 : BitVec 1024) <<< 164 }
    let t := { dispatchSt with launches := [(1, q)], units := [(3, { launch := 1, status := .saved, binds := [{}] })] }
    nodeField runLaunch.desc 164 2 ≠ 1 ∧ runLaunch.justOut = none ∧ { runLaunch with justOut := some (0, 191) }.justOut = some (0, 191) ∧
      (t.launches.find? 1 = some q ∧ nodeField q.desc 164 2 = 1 ∧ q.justOut = none ∧ nextUnit t 1 191 q = some 0 ∧ qualifies t 1 0 191 q = true ∧
        savedUnit t 1 0 = some 3) := by decide +kernel

/-! ### Cancelling, links, the fleet, registers, modules, boot, the whole machine -/

/-- A launch of two units that has ended, and one that runs with a resident unit 1, of which index 2 lies beyond the last and index 0 is completed or not yet begun; a slot
that runs nothing; a trigger that waits and one that runs, in a graph with no launch left to come. -/
theorem witness_CancelResults :
    let desc : BitVec 1024 := BitVec.ofNat 1024 (2 * 2 ^ 64 + 2 ^ 96 + 2 ^ 112)
    let l := fun (st : LState) (done : List Nat) => (⟨3, 5, 0, 1, desc, st, done, done, 0, [], [], none, []⟩ : Launch)
    let s := fun (st : LState) (done : List Nat) (u : List (Nat × UnitSt)) (k : Nat) => { wst th4 with
      launches := [(1, l st done)], trigs := [⟨3, 5, 1, 0, [], true⟩], graphs := [(5, ⟨0, [desc], [], []⟩)], units := u, ctxs := [(3, { cancelunit := BitVec.ofNat 64 k })] }
    let v : DWord := 5 * 2 ^ 32
    let u1 : UnitSt := { launch := 1, idx := 1, ctx := 3, status := .resident, binds := [{}] }
    let q := { s .running [] [] 0 with trigs := [⟨3, 5, 1, 0, [], true⟩, ⟨3, 5, 2, 1, [], false⟩, ⟨2, 6, 1, 0, [], false⟩] }
    let w := { s .running [] [] 0 with trigs := [⟨3, 5, 2, 1, [], false⟩, ⟨2, 6, 1, 0, [], false⟩], launches := [] }
    (answersHost (s .running [] [(1, u1)] 1) = true ∧ KeysOnce (s .running [] [(1, u1)] 1).launches ∧ KeysOnce (s .running [] [(1, u1)] 1).units ∧ KeysOnce (s .running [] [(1, u1)] 1).thr) ∧
    (v.toNat / 2 ^ 32 % 2 ^ 16 = 5 ∧ v.toNat / 2 ^ 20 % 2 ^ 12 = 0 ∧ (ctxOf (s .running [] [] 2) 3).cancelunit.toNat % 2 ^ 48 = 2) ∧
    (launchAt (s .complete [0, 1] [] 0) 5 0 = some (1, l .complete [0, 1]) ∧ (l .complete [0, 1]).state.final = true ∧ (l .running []).state.final = false ∧
      unitsIn (l .running []).desc = 2) ∧
    (launchAt (s .running [] [(1, u1)] 1) 5 0 = some (1, l .running []) ∧ (s .running [] [(1, u1)] 1).units = [(1, u1)] ∧ u1.launch = 1 ∧ u1.idx = 1 ∧ 1 ∉ (l .running []).completed) ∧
    (launchAt (s .running [] [] 0) 5 0 = some (1, l .running []) ∧ (l .running []).completed.length + 1 ≠ unitsIn (l .running []).desc) ∧
    launchAt (wst th4) 5 0 = none ∧
    ((q.trigs.map fun t => (t.ctx, t.seq)).Nodup ∧ (launchesOf q 5 1 3).map (·.1) = [1] ∧ ∀ x ∈ w.trigs, x.ctx = 3 → x.running = false) := by
  unfold KeysOnce; decide +kernel

/-! #### Links -/

theorem crc_congr {n : Nat} {v w : BitVec 2048} (h : ∀ i < n, v.getLsbD i = w.getLsbD i) : crc32 n v = crc32 n w := by
  unfold crc32
  exact congrArg _ (List.foldl_ext _ _ _ fun c i hi => by rw [h i (List.mem_range.1 hi)])

/-- Any first 252 bytes make a sound flit with the CRC that belongs to them. -/
theorem sound_flit (x : BitVec 2016) : ∃ f : Flit, f.bits.extractLsb' 2016 32 = crc32 2016 f.bits ∧ ∀ i < 2016, f.bits.getLsbD i = x.getLsbD i := by
  let c := crc32 2016 (x.setWidth 2048)
  let f : BitVec 2048 := c.setWidth 2048 <<< 2016 ||| x.setWidth 2048
  have low : ∀ i < 2016, f.getLsbD i = x.getLsbD i := fun i hi => by
    simp only [f, BitVec.getLsbD_or, BitVec.getLsbD_shiftLeft, BitVec.getLsbD_setWidth]
    simp [hi, show i < 2048 by omega]
  have e : crc32 2016 f = c := crc_congr fun i hi => by
    rw [low i hi, BitVec.getLsbD_setWidth, decide_eq_true (show i < 2048 by omega), Bool.true_and]
  refine ⟨⟨f⟩, ?_, low⟩
  rw [e]
  ext i hi
  simp only [f, BitVec.getElem_extractLsb', BitVec.getLsbD_or, BitVec.getLsbD_shiftLeft, BitVec.getLsbD_setWidth]
  rw [BitVec.getLsbD_of_ge x (2016 + i) (by omega), Nat.add_sub_cancel_left]
  simp [show 2016 + i < 2048 by omega, show i < 2048 by omega, hi]

/-- A sound flit with any sequence number, acknowledgement and type. -/
theorem sound_fields (seq ack : BitVec 16) (ty : BitVec 8) : ∃ f : Flit, f.bits.extractLsb' 2016 32 = crc32 2016 f.bits ∧ f.bits.extractLsb' 0 16 = seq ∧
    f.bits.extractLsb' 16 16 = ack ∧ f.bits.extractLsb' 64 8 = ty := by
  obtain ⟨f, h, hl⟩ := sound_flit (seq.setWidth 2016 ||| ack.setWidth 2016 <<< 16 ||| ty.setWidth 2016 <<< 64)
  refine ⟨f, h, ?_, ?_, ?_⟩
  · ext i hi
    rw [BitVec.getElem_extractLsb', hl (0 + i) (by omega), BitVec.getLsbD_or, BitVec.getLsbD_or, BitVec.getLsbD_shiftLeft, BitVec.getLsbD_shiftLeft, BitVec.getLsbD_setWidth]
    simp [show i < 2016 by omega, show i < 64 by omega, hi]
  · ext i hi
    rw [BitVec.getElem_extractLsb', hl (16 + i) (by omega), BitVec.getLsbD_or, BitVec.getLsbD_or, BitVec.getLsbD_shiftLeft, BitVec.getLsbD_shiftLeft, BitVec.getLsbD_setWidth,
      BitVec.getLsbD_of_ge seq (16 + i) (by omega)]
    simp [show 16 + i < 2016 by omega, show 16 + i < 64 by omega, show i < 2016 by omega, hi]
  · ext i hi
    rw [BitVec.getElem_extractLsb', hl (64 + i) (by omega), BitVec.getLsbD_or, BitVec.getLsbD_or, BitVec.getLsbD_shiftLeft, BitVec.getLsbD_shiftLeft, BitVec.getLsbD_setWidth,
      BitVec.getLsbD_of_ge seq (64 + i) (by omega), BitVec.getLsbD_setWidth, BitVec.getLsbD_of_ge ack (64 + i - 16) (by omega)]
    simp [show 64 + i < 2016 by omega, show i < 2016 by omega, hi]

/-- Every kind of flit: at each type, expected, already taken, and out of order, at the ends of the ranges; and an unsound one. -/
theorem witness_flits (e : BitVec 16) : (∀ ty : BitVec 8, ty.toNat ≤ 2 → ∀ back : BitVec 16, ∃ f : Flit, f.bits.extractLsb' 2016 32 = crc32 2016 f.bits ∧
      f.bits.extractLsb' 64 8 = ty ∧ e - f.bits.extractLsb' 0 16 = back) ∧
    ∃ f : Flit, f.bits.extractLsb' 64 8 = 3 := by
  refine ⟨fun ty _ back => ?_, ⟨⟨3 * 2 ^ 64⟩, by decide +kernel⟩⟩
  obtain ⟨f, h, h1, -, h3⟩ := sound_fields (e - back) 0 ty
  exact ⟨f, h, h3, by rw [h1]; bv_omega⟩

/-- Link 11 down, training and up on either half, healthy, frozen, with nothing, four, five or 4096 flits in its buffers; the loss of lane 15; a route that names an element, over
whose page a peer may write. -/
theorem witness_LinkResults :
    let s := fun k : Link => { mapped [] with links := [(11, k)] }
    let up : Link := { en := true, state := .up16, laneok := 0xFFFF }
    let lo := fun m : BitVec 16 => m &&& 0x00FF = 0x00FF
    let hi := fun m : BitVec 16 => m &&& 0xFF00 = 0xFF00
    let d := fun n : Nat => (⟨BitVec.ofNat 16 n, 240, 0, 0⟩ : DataFlit)
    (answersHost (s {}) = true ∧ (s {}).health ≠ .failed ∧ (linkOf (s {}) 11).state = .down ∧ (linkOf (s up) 11).state ≠ .down ∧ (linkOf (s { up with frozen := some true }) 11).frozen ≠ none ∧
      (linkOf (s { up with state := .training }) 11).state = .training ∧ (linkOf (s up) 11).frozen = none ∧ (linkOf (s up) 11).state ≠ .training) ∧
    (lo 0x00FF ∧ ¬ hi 0x00FF ∧ hi 0xFF00 ∧ ¬ lo 0xFF00 ∧ lo 0x7FFF ∧ hi 0xFFFE ∧ (0x00FF : BitVec 16) ≠ 0xFFFF) ∧
    ((linkOf (s { up with state := .training, former := .up8hi }) 11).former = .up8hi ∧ (linkOf (s { up with state := .training }) 11).former ≠ .up8hi) ∧
    ((linkOf (s { up with state := .up8hi }) 11).state = .up8hi ∧ (linkOf (s { up with state := .up8lo }) 11).state = .up8lo ∧ decide (8 ≤ 15) = true ∧ decide (8 ≤ 7) = false) ∧
    (linkOf (s { up with replay := [d 7] }) 11).replay ≠ [] ∧ 5 ≤ (linkOf (s { up with resend := [d 1, d 2, d 3, d 4, d 5] }) 11).resend.length ∧
    (4096 ≤ (linkOf (s { up with replay := List.replicate 4096 (d 0) }) 11).replay.length ∧ carries (s up) 11 = false ∧ ∀ p ∈ (s up).replies, p.1 ≠ 11) ∧
    (let t := { s { up with nakDue := true } with replies := [(11, 0, .wrote 1)] }; (linkOf t 11).nakDue = true ∧ (linkOf t 11).resend = [] ∧ (linkOf t 11).replay.length < 4096 ∧
      carries t 11 = false) ∧
    (let r : QWord := BitVec.ofNat 128 (1 + 7 * 2 ^ 5 + 9 * 2 ^ 21 + 2 ^ 46)
     let t := { s up with ctxs := [(3, { ptroot := BitVec.ofNat 64 (placeRoot + 1), route := [(0, r)] })] }
     t.cxl = [] ∧ ([(7, true)] : List (Byte × Bool)).length ≤ 240 ∧ r.getLsbD 0 = true ∧ r.toNat / 2 ^ 5 % 2 ^ 16 = 7 ∧ r.toNat / 2 ^ 21 % 2 ^ 13 = 9 ∧ r.toNat / 2 ^ 46 % 2 ^ 20 ≠ 0 ∧ (ctxOf t 3).route = [(0, r)] ∧
       (ctxOf (s up) 3).route = []) := by decide +kernel

/-- A byte that a peer may write. -/
theorem witness_peerPage : ∃ b x, walk (mapped []) 0 0x5000 = .leaf b x ∧ x.w = true ∧ (x.scope = .fabric ∨ x.scope = .system) ∧ x.pa + (0x5000 - b) = 0x5000 :=
  ⟨0, ⟨0, 30, false, false, 0, .system, true, true, 2 * placeRoot⟩, by decide +kernel, by decide +kernel, by decide +kernel, by decide +kernel⟩

/-! #### The fleet, registers, modules, boot -/

/-- A device with a resident unit and one that has drained a channel; a core that is fenced, one that is not. -/
theorem witness_FleetResults :
    let s := { wst th4 with drain := some 383, fenced := [1535], diedead := [0, 1], chanoff := [383] }
    (s.health ≠ .failed ∧ KeysOnce s.units ∧ KeysOnce s.thr ∧ (unitOf s 0).status = .resident ∧ s.units.find? 0 = some (unitOf s 0) ∧ answersHost s = true ∧ s.drain = some 383) ∧
    (1534 ∉ s.fenced ∧ 1534 ∉ s.fencing ∧ 1534 / 192 ∉ s.diedead ∧ 1535 ∈ s.fenced ∧ (unitOf (wst th4) 0).core = 0 ∧ 0 ∉ (wst th4).fenced ∧ 0 / 192 ∉ (wst th4).diedead) ∧
    ((wst th4).drain = none ∧ 383 ∉ (wst th4).chanoff ∧ 383 ∈ s.chanoff) := by
  unfold KeysOnce; decide +kernel

/-- A die whose pair is not over, one whose pair is, and one that leaves the device without a core. -/
theorem witness_HeartbeatResults :
    let u := wst th4
    let o := { u with dieover := [6] }
    let e := { o with diedead := [0, 1, 2, 3, 4, 5] }
    (7 ∉ o.dieover ∧ 7 ∉ e.diedead ∧ 6 ∈ o.dieover ∧ 6 ∉ u.dieover ∧ 7 ∉ u.dieover) ∧
    coresOff { e with dieover := [], diedead := [7, 6] ++ e.diedead } = 1536 ∧ coresOff { o with dieover := [], diedead := [7, 6] } ≠ 1536 ∧ e.health ≠ .failed := by
  decide +kernel

/-- Registers that the context's state closes and opens; offsets of a doorbell page that have a register and one that has none; links off and on. -/
theorem witness_RegisterResults :
    let c := { wst th4 with ctxs := [(8191, { ptroot := 1, state := .running }), (8190, { ptroot := 1, state := .saved })] }
    (answersHost c = true ∧ (ctxOf c 8191).ptroot.getLsbD 0 = true ∧ (ctxOf c 8191).state ≠ .saved ∧ (ctxOf c 8190).state = .saved ∧ (ctxOf c 0).ptroot.getLsbD 0 = false) ∧
    (0x018 ∉ [0x000, 0x008, 0x010, 0x020, 0x028, 0x038] ∧ ∀ r ∈ c.frecs, r.ctx = 8191 → r.written = true) ∧
    ((linkOf c 11).en = false ∧ (linkOf { c with links := [(11, { en := true })] } 11).en = true) := by
  decide +kernel

/-- The links of the last number answer a host's writes. -/
theorem witness_LinkWrites : (∃ t, exec (.carrctlEn 11 true) (wst th4) = .next t) ∧ ∃ t, exec (.carrctlRetrain 11) (wst th4) = .next t := ⟨⟨_, rfl⟩, _, rfl⟩

/-- A module of one trace of an EXIT. -/
def mod1 : ModuleFile where
  file := [0x7F, 0x45, 0x4C, 0x46, 2, 1, 1] ++ List.replicate 9 0 ++ [3, 0, 0x5E, 0xA1] ++ List.replicate 28 0 ++ [1, 0, 0, 0] ++ List.replicate 12 0
  sections := [⟨true, 8, 16⟩]
  symbols := []
  code := (encode (.trace 0 0)).toList ++ (encode .exit).toList
  data := []
  frames := []
  relocs := []
  kernels := []
  codeBase := 0x40000000
  dataBase := 0

/-- It passes every check, and no cache entry is used; its words lie where they are loaded; the same one without its header does not, and with its code at an odd address it does not; a
measurement that has been recorded. -/
theorem witness_ModuleResults :
    (answersHost (mapped []) = true ∧ loadFails (mapped []) 0 (sha384 mod1.file) mod1 = none ∧ cacheHit (mapped []) (sha384 mod1.file) = none ∧ mod1.relocs = [] ∧ mod1.data = [] ∧
      (mapped []).cxl = []) ∧
    ((List.range 16).map fun i => sysAddr (mapped []) 0 (0x3000 + i)) = (List.range 16).map (fun i => some (0x3000 + i)) ∧ ({ mod1 with file := [] }).machine ≠ 0xA15E ∧
    loadFails (mapped []) 0 (sha384 mod1.file) { mod1 with codeBase := 0x40000004 } = some (0, 9) ∧
    ({ mapped [] with measure := [(1, [])] }).measure.find? 1 = some [] ∧ (mapped []).measure.find? 1 = none := by decide +kernel

/-- A cache entry with the tag of its image, of the running version, is used. -/
theorem witness_cacheHit : let image := List.replicate 6 0 ++ leBytes 2 Config.xver.toNat ++ List.replicate 8 0 ++ List.replicate 48 7
    let e : CacheEntry := ⟨image, hmac384 Config.cacheKey image⟩
    cacheHit { mapped [] with cache := [e] } (List.replicate 48 7) = some e := by
  intro image e
  have hx : e.xver = Config.xver.toNat := by
    show (BitVec.ofNat 8 Config.xver.toNat).toNat + 256 * ((BitVec.ofNat 8 (Config.xver.toNat / 256)).toNat + 256 * 0) = _
    have := Config.xver.isLt
    simp only [BitVec.toNat_ofNat]
    omega
  have hd : e.digest = List.replicate 48 7 := rfl
  simp [cacheHit, hd, CacheEntry.usable, hx, e]

/-! #### The machine as a whole -/

theorem witness_EncodeDecode : (Instr.mma false false .zero (.slot 4) (.slot 6) 1 2 3).wf = true ∧ encode (.mma false false .zero (.slot 4) (.slot 6) 1 2 3) = some 0xC312020302106000 ∧
    decodeWord 0xC312020302106000 = .ok (.mma false false .zero (.slot 4) (.slot 6) 1 2 3) := by decide +kernel

/-- A state with memories in the canonical form, of which a step is one that writes memory. -/
theorem witness_StepKeepsMemories : memoriesOk (mapped []) = true ∧ ∃ t, step { mapped [] with agenda := [.event .powerThrottle] } = .next t := ⟨by decide +kernel, _, rfl⟩

/-- An event, a word in a trace, and a TRACE, a MERGE and a REGANG at a head of a directory. -/
theorem witness_StepRunsDecodedInstruction :
    let x : ThreadId := hostThread false
    let e := { wst th4 with agenda := [.event .powerThrottle] }
    let b := State.reset.withFetchWord 64 0x2000001892000000
    let h := State.reset.withFetchWord 64 0x0106200000000000
    let s0 := fun s : State => { s with cur := none, agenda := [] }
    (e.off = false ∧ e.agenda = .event .powerThrottle :: []) ∧
    (b.off = false ∧ b.agenda = [.issue x] ∧ canIssue (s0 b) x = true ∧ (headThread (s0 b) (issueOf (s0 b) x)).pos = .body 1 ∧
      decodeWord ((headThread (s0 b) (issueOf (s0 b) x)).words.getD 1 0) = .ok (.iadd false false (.slot 0) (.slot 0) (.const 1))) ∧
    (h.off = false ∧ h.agenda = [.issue x] ∧ canIssue (s0 h) x = true ∧ (headThread (s0 h) (issueOf (s0 h) x)).pos = .head placeCode ∧
      inDirectory h (unitOf h (issueOf (s0 h) x).u).ctx placeCode = true ∧ h.tlbCore ++ h.tlbCluster = [] ∧
      walk h (unitOf h (issueOf (s0 h) x).u).ctx placeCode = .leaf 0x40000000 ⟨0x40000000, 30, false, false, 0, .system, true, true, 131080⟩ ∧
      h.mem.readN 0x40000000 8 = leBytes 8 0x0106200000000000 ∧ decodeWord 0x0106200000000000 = .ok (.trace 3 1) ∧ h.pgs = []) ∧
    (∀ m ∈ [(792634084173021184, Instr.merge 1), (864691128455135232, Instr.regang)],
      let h := State.reset.withFetchWord 64 m.1
      h.agenda = [.issue x] ∧ canIssue (s0 h) x = true ∧ (headThread (s0 h) (issueOf (s0 h) x)).pos = .head placeCode ∧
        inDirectory h (unitOf h (issueOf (s0 h) x).u).ctx placeCode = true ∧ (headThread (s0 h) (issueOf (s0 h) x)).need = 0 ∧ decodeWord (BitVec.ofNat 64 m.1) = .ok m.2) := by
  decide +kernel

/-- A parked thread lets its turn pass. -/
theorem witness_NotReady : canIssue (wst { th4 with parked := [1] }) (hostThread false) = false := by decide +kernel

/-- The allowed outcome of message passing, in which a release synchronises with an acquire. -/
theorem witness_MessagePassing :
    let o : OObj := .word 8
    let x : OExec :=
      { events := [{ lane := 0, pos := 0, writes := [0] }, { lane := 0, pos := 1, writes := [8], rel := some o },
                   { lane := 1, pos := 0, reads := [8], acq := some o }, { lane := 1, pos := 1, reads := [0] }]
        co := [(0, [0]), (8, [1])], rf := [((2, 8), 1), ((3, 0), 0)], table := [⟨0, 1, 8⟩] }
    x.allowed = true ∧ (x.ev 0).writes.contains 0 = true ∧ (x.ev 3).reads.contains 0 = true ∧ x.ppo 0 1 = true ∧ x.swO (x.objOf 0 0) 1 2 = true ∧ x.ppo 2 3 = true ∧ (0, 3) ∉ x.apart := by
  decide +kernel

end Sys2Proof.Tests
end

section
/-! PROOFS. Every step keeps every memory in its canonical form (log 2). -/

namespace Sys2Proof.Machine

/-! ### The invariant and how it passes through a state function's body

One lemma per function of the model says that the function keeps the invariant. Its proof follows the function's definition: a
conditional or a fold by one of the lemmas here, a call by the callee's own lemma, and a change of fields other than `mem`, `scr` and
`opbuf` by the hypothesis itself, since the invariant speaks of no other field. Only `homePut`, `writeScratch`, `writeOpbuf`,
`finishUnit` and the two resets change those three fields. -/

/-- The invariant as a proposition: home memory, every scratchpad and every operand buffer is in its canonical form. -/
def MemsOk (s : State) : Prop := memoriesOk s = true

/-- The invariant of the state that an outcome hands on; an outcome that hands none on has nothing to keep. -/
def NextOk : Host.Outcome State Fault Refusal → Prop
  | .next s => MemsOk s
  | .fault _ => True
  | .refused _ => True

variable {s : State}

theorem MemsOk.ite {c : Prop} [Decidable c] {a b : State} (ha : MemsOk a) (hb : MemsOk b) : MemsOk (if c then a else b) := by
  split <;> assumption

theorem MemsOk.snd_ite {α : Type} {c : Prop} [Decidable c] {a b : α × State} (ha : MemsOk a.2) (hb : MemsOk b.2) :
    MemsOk (if c then a else b).2 := by
  split <;> assumption

theorem MemsOk.snd₂_ite {α β : Type} {c : Prop} [Decidable c] {a b : α × β × State} (ha : MemsOk a.2.2) (hb : MemsOk b.2.2) :
    MemsOk (if c then a else b).2.2 := by
  split <;> assumption

/-- For `match f s with | (a, t) => …`: the state matched is the one that `f` returns. -/
theorem MemsOk.of_eq {α : Type} {p : α × State} {a : α} {t : State} (e : p = (a, t)) (h : MemsOk p.2) : MemsOk t := by
  subst e; exact h

theorem MemsOk.of_eq₂ {α β : Type} {p : α × β × State} {a : α} {b : β} {t : State} (e : p = (a, b, t)) (h : MemsOk p.2.2) :
    MemsOk t := by
  subst e; exact h

theorem NextOk.next {s : State} (h : MemsOk s) : NextOk (.next s) := h

theorem NextOk.ite {c : Prop} [Decidable c] {a b : Host.Outcome State Fault Refusal} (ha : NextOk a) (hb : NextOk b) :
    NextOk (if c then a else b) := by
  split <;> assumption

theorem MemsOk.foldl {α : Type} {f : State → α → State} {l : List α} {s : State} (hf : ∀ s x, MemsOk s → MemsOk (f s x))
    (h : MemsOk s) : MemsOk (l.foldl f s) :=
  List.foldlRecOn l f h fun t ht x _ => hf t x ht

theorem MemsOk.foldr {α : Type} {f : α → State → State} {l : List α} {s : State} (hf : ∀ s x, MemsOk s → MemsOk (f x s))
    (h : MemsOk s) : MemsOk (l.foldr f s) :=
  List.foldrRecOn l f h fun t ht x _ => hf t x ht

theorem MemsOk.foldl_snd {α β : Type} {f : β × State → α → β × State} {l : List α} {p : β × State}
    (hf : ∀ p x, MemsOk p.2 → MemsOk (f p x).2) (h : MemsOk p.2) : MemsOk (l.foldl f p).2 :=
  List.foldlRecOn (motive := fun p => MemsOk p.2) l f h fun q hq x _ => hf q x hq

theorem MemsOk.foldl_snd₂ {α β γ : Type} {f : β × γ × State → α → β × γ × State} {l : List α} {p : β × γ × State}
    (hf : ∀ p x, MemsOk p.2.2 → MemsOk (f p x).2.2) (h : MemsOk p.2.2) : MemsOk (l.foldl f p).2.2 :=
  List.foldlRecOn (motive := fun p => MemsOk p.2.2) l f h fun q hq x _ => hf q x hq

/-! ### The functions that write a memory -/

theorem memsOk_iff (s : State) :
    MemsOk s ↔ s.mem.wf = true ∧ (∀ p ∈ s.scr, p.2.wf = true) ∧ ∀ p ∈ s.opbuf, p.2.wf = true := by
  simp [MemsOk, memoriesOk, and_assoc]

theorem wf_get {m : Map Nat Memory} (h : ∀ p ∈ m, p.2.wf = true) (k : Nat) : (m.get k {}).wf = true := by
  unfold Map.get
  cases e : m.find? k with
  | none => rfl
  | some v => exact h _ (Map.mem_of_find? e)

theorem wf_set {m : Map Nat Memory} (h : ∀ p ∈ m, p.2.wf = true) (k : Nat) {v : Memory} (hv : v.wf = true) :
    ∀ p ∈ m.set k v, p.2.wf = true := by
  intro p hp
  rcases Map.mem_set hp with rfl | hp
  · exact hv
  · exact h p hp

theorem MemsOk.homePut {c} (h : MemsOk s) : MemsOk (homePut c s) := by
  rw [memsOk_iff] at *
  exact ⟨Memory.wf_writeAll _ _ h.1, h.2⟩

theorem MemsOk.writeScratch {u off : Nat} {bytes : List Byte} (h : MemsOk s) : MemsOk (writeScratch u off bytes s) := by
  rw [memsOk_iff] at *
  obtain ⟨hmem, hscr, hop⟩ := h
  exact ⟨hmem, wf_set hscr _ (Memory.wf_writeN _ _ _ (wf_get hscr u)), hop⟩

theorem MemsOk.writeOpbuf {cl off : Nat} {bytes : List Byte} (h : MemsOk s) : MemsOk (writeOpbuf cl off bytes s) := by
  rw [memsOk_iff] at *
  obtain ⟨hmem, hscr, hop⟩ := h
  exact ⟨hmem, hscr, wf_set hop _ (Memory.wf_writeN _ _ _ (wf_get hop cl))⟩

theorem MemsOk.eraseScr {u : Nat} (h : MemsOk s) : MemsOk { s with scr := s.scr.erase u } := by
  rw [memsOk_iff] at *
  obtain ⟨hmem, hscr, hop⟩ := h
  exact ⟨hmem, fun p hp => hscr p (List.mem_filter.mp hp).1, hop⟩

/-! ### Memory as cores and engines reach it -/

theorem MemsOk.takeBit (h : MemsOk s) : MemsOk (takeBit s).2 := h

theorem MemsOk.takeNat (h : MemsOk s) : MemsOk (takeNat s).2 := h

theorem MemsOk.takeFresh (h : MemsOk s) : MemsOk (takeFresh s).2 := h

theorem MemsOk.raiseMsix {fn vec : Nat} (h : MemsOk s) : MemsOk (raiseMsix fn vec s) := h

theorem MemsOk.countCore {core ev ctx tag n : Nat} (h : MemsOk s) : MemsOk (countCore core ev ctx tag n s) := .ite h h

theorem MemsOk.countDie {die ev ctx n : Nat} (h : MemsOk s) : MemsOk (countDie die ev ctx n s) := .ite h h

theorem MemsOk.fireMem {pas : List Nat} (h : MemsOk s) : MemsOk (fireMem pas s) := h

theorem MemsOk.homeWrite {cells : List Host.Cell} (h : MemsOk s) : MemsOk (homeWrite cells s) := .fireMem (.homePut h)

theorem MemsOk.performEntry {e : WEntry} (h : MemsOk s) : MemsOk (performEntry e s) := .homePut h

theorem MemsOk.releaseLanes {rs : List LaneRef} (h : MemsOk s) : MemsOk (releaseLanes rs s) := h

theorem MemsOk.drainOverlap {core : Nat} {pas : List Nat} (h : MemsOk s) : MemsOk (drainOverlap core pas s) :=
  .foldl (fun _ _ h' => .performEntry h') h

theorem MemsOk.enqueue {e : WEntry} (h : MemsOk s) : MemsOk (enqueue e s) := .ite h h

theorem MemsOk.fetchSector {core ctx va pa : Nat} {sc : Scope} (h : MemsOk s) : MemsOk (fetchSector core ctx va pa sc s) := h

theorem MemsOk.accessSector {core ctx va pa : Nat} {sc : Scope} (h : MemsOk s) : MemsOk (accessSector core ctx va pa sc s) :=
  .ite (.ite (.takeBit (.countCore h)) (.fetchSector (.countCore (.takeBit (.countCore h))))) (.fetchSector (.countCore (.countCore h)))

theorem MemsOk.touchSector {core ctx va pa : Nat} {sc : Scope} (h : MemsOk s) : MemsOk (touchSector core ctx va pa sc s) :=
  .ite h (.accessSector h)

theorem MemsOk.coreRead {core ctx va : Nat} {pas : List Nat} {sc : Scope} {stream : Bool} (h : MemsOk s) :
    MemsOk (coreRead core ctx va pas sc stream s).2 :=
  .ite (.foldl (fun _ _ h' => .touchSector h') h) (.foldl (fun _ _ h' => .touchSector h') h)

theorem MemsOk.discardL1 {core : Nat} {p : Sector → Bool} (h : MemsOk s) : MemsOk (discardL1 core p s) := h

theorem MemsOk.modCtx {c : Nat} {f : Ctx → Ctx} (h : MemsOk s) : MemsOk (modCtx c f s) := h

theorem MemsOk.tlbFillCore {core ctx b : Nat} {l : Leaf} (h : MemsOk s) : MemsOk (tlbFillCore core ctx b l s) := h

theorem MemsOk.walkFill {core ctx va : Nat} (h : MemsOk s) : MemsOk (walkFill core ctx va s).2 := by
  unfold Machine.walkFill
  split <;> exact h

theorem MemsOk.lookupPage {core ctx va : Nat} (h : MemsOk s) : MemsOk (lookupPage core ctx va s).2 := by
  unfold Machine.lookupPage
  split
  · exact .snd_ite (.countCore h) (.snd_ite h (.walkFill (.countCore h)))
  · dsimp only
    split
    · exact .snd_ite (.tlbFillCore (.takeBit (.countCore h))) (.walkFill (.takeBit (.countCore h)))
    · exact .walkFill (.countCore h)

theorem MemsOk.lookup {core ctx va : Nat} (h : MemsOk s) : MemsOk (lookup core ctx va s).2 := by
  unfold Machine.lookup
  split
  · exact h
  · exact .lookupPage h

theorem MemsOk.newAccess (h : MemsOk s) : MemsOk (newAccess s) := h

/-! ### The named operations over the state -/

theorem MemsOk.modUnit {u : Nat} {f : UnitSt → UnitSt} (h : MemsOk s) : MemsOk (modUnit u f s) := h

theorem MemsOk.modGang {i : GangId} {f : Gang → Gang} (h : MemsOk s) : MemsOk (modGang i f s) := h

theorem MemsOk.modSlice {i : SliceId} {f : Slice → Slice} (h : MemsOk s) : MemsOk (modSlice i f s) := h

theorem MemsOk.modThread {i : ThreadId} {f : Thread → Thread} (h : MemsOk s) : MemsOk (modThread i f s) := h

theorem MemsOk.modThreads {iss : Issue} {f : Thread → Thread} (h : MemsOk s) : MemsOk (modThreads iss f s) := .foldl (fun _ _ h' => h') h

theorem MemsOk.advance {iss : Issue} (h : MemsOk s) : MemsOk (advance iss s) := .modThreads h

theorem MemsOk.stall {iss : Issue} {w : Wait} (h : MemsOk s) : MemsOk (stall iss w s) := .modThreads h

theorem MemsOk.setSlot {r : LaneRef} {n : Nat} {v : Word} (h : MemsOk s) : MemsOk (setSlot r n v s) := h

theorem MemsOk.shiftEcho {r : LaneRef} {v : Word} (h : MemsOk s) : MemsOk (shiftEcho r v s) := h

theorem MemsOk.setGreg {g : GangId} {n : Nat} {v : Word} (h : MemsOk s) : MemsOk (setGreg g n v s) := h

theorem NextOk.hostDoes {o : Host.Outcome State Fault Refusal} (h : MemsOk s) (ho : NextOk o) : NextOk (hostDoes s o) :=
  .ite ho (.next h)

theorem MemsOk.sysWrite {ctx va : Nat} {bytes : List Byte} (h : MemsOk s) : MemsOk (sysWrite ctx va bytes s) := .homeWrite h

theorem MemsOk.writeCompl {l : Launch} (h : MemsOk s) : MemsOk (writeCompl l s) := .sysWrite h

theorem MemsOk.drainCtx {ctx : Nat} (h : MemsOk s) : MemsOk (drainCtx ctx s) := .foldl (fun _ _ h' => .performEntry h') h

theorem MemsOk.checkTrigger {gid seq ctx : Nat} (h : MemsOk s) : MemsOk (checkTrigger gid seq ctx s) := by
  unfold Machine.checkTrigger
  dsimp only
  split
  · exact h
  · exact .ite h h

theorem MemsOk.finishLaunch {lid : Nat} {st : LState} (h : MemsOk s) : MemsOk (finishLaunch lid st s) := by
  unfold Machine.finishLaunch
  split
  · exact h
  · exact .ite h (.checkTrigger (.ite (.foldl (fun _ _ h' => .ite (.writeCompl h') h') (.writeCompl (.drainCtx h))) (.writeCompl (.drainCtx h))))

theorem MemsOk.checkLaunch {lid : Nat} (h : MemsOk s) : MemsOk (checkLaunch lid s) := by
  unfold Machine.checkLaunch
  split
  · exact h
  · exact .ite (.ite (.finishLaunch h) h) (.ite (.finishLaunch h) h)

theorem MemsOk.countUnit {lid idx : Nat} {failed : Bool} (h : MemsOk s) : MemsOk (countUnit lid idx failed s) := by
  unfold Machine.countUnit
  split
  · exact h
  · exact .ite h (.checkLaunch (.ite h (.writeCompl h)))

theorem MemsOk.writeRing {r : FRec} (h : MemsOk s) : MemsOk (writeRing r s) := by
  unfold Machine.writeRing
  extract_lets c s1 s2 s3
  have h1 : MemsOk s1 := .sysWrite h
  clear_value s1
  exact .ite h1 h1

theorem MemsOk.flushRing {ctx : Nat} (h : MemsOk s) : MemsOk (flushRing ctx s) := .foldl (fun _ _ h' => .ite (.writeRing h') h') h

theorem MemsOk.raiseRecord {ctx u : Nat} {t : ThreadId} {r : RecFields} (h : MemsOk s) : MemsOk (raiseRecord ctx u t r s).2 := .flushRing h

theorem MemsOk.writeRecords {u : Nat} (h : MemsOk s) : MemsOk (writeRecords u s) := .foldl (fun _ _ h' => .raiseRecord h') h

theorem MemsOk.raiseFault {t : ThreadId} {f : Flt} {mask : BitVec 4} {pend : Bool} (h : MemsOk s) : MemsOk (raiseFault t f mask pend s).2 :=
  .raiseRecord h

theorem MemsOk.discardCmds {u g : Nat} {p : Nat → Bool} (h : MemsOk s) : MemsOk (discardCmds u g p s) := .foldl (fun _ _ h' => h') h

theorem MemsOk.writeTokens {gi : GangId} (h : MemsOk s) : MemsOk (writeTokens gi s) := .modGang (.foldl (fun _ _ h' => h') h)

theorem MemsOk.freeHelper {t : ThreadId} (h : MemsOk s) : MemsOk (freeHelper t s) := h

theorem MemsOk.leaveHelper {t : ThreadId} {lanes : BitVec 4} {st : HState} (h : MemsOk s) : MemsOk (leaveHelper t lanes st s) := by
  unfold Machine.leaveHelper
  split
  · exact h
  · exact .ite (.freeHelper (.modThread (.foldl (fun _ _ h' => h') (.foldl (fun _ _ h' => .ite h' h') h)))) (.foldl (fun _ _ h' => h') (.foldl
        (fun _ _ h' => .ite h' h') h))

theorem MemsOk.releaseRecord {u g rid : Nat} (h : MemsOk s) : MemsOk (releaseRecord u g rid s) := by
  unfold Machine.releaseRecord
  split
  · exact h
  · exact .foldl (fun _ _ h' => .ite (.leaveHelper h') h') h

theorem MemsOk.giveBaton {cl : Nat} (h : MemsOk s) : MemsOk (giveBaton cl s) := by
  unfold Machine.giveBaton
  split <;> exact h

theorem MemsOk.freeBaton {cl : Nat} (h : MemsOk s) : MemsOk (freeBaton cl s) := .giveBaton h

theorem MemsOk.dropBatons {u : Nat} (h : MemsOk s) : MemsOk (dropBatons u s) := .foldl (fun _ _ h' => .freeBaton h') h

theorem MemsOk.settleRecords {u : Nat} (h : MemsOk s) : MemsOk (settleRecords u s) := h

theorem MemsOk.moveStaged {u : Nat} {k : Nat × Nat × Nat} {p : Nat × Nat × Nat × Nat → Bool} (h : MemsOk s) : MemsOk (moveStaged u k p s) := h

theorem MemsOk.drainUnit {u : Nat} (h : MemsOk s) : MemsOk (drainUnit u s) := .drainOverlap h

theorem MemsOk.finishUnit {u : Nat} (h : MemsOk s) : MemsOk (finishUnit u s) :=
  .ite h (.countUnit (.writeRecords (.modUnit
    (MemsOk.eraseScr (u := u) (.moveStaged (.drainUnit (.settleRecords (.dropBatons h))))))))

theorem MemsOk.endUnit {u : Nat} {cls : Option FClass} (h : MemsOk s) : MemsOk (endUnit u cls s) := .ite h (.ite h (.finishUnit h))

theorem MemsOk.reapThread {t : ThreadId} (h : MemsOk s) : MemsOk (reapThread t s) := .ite (.ite h (.finishUnit h)) h

theorem MemsOk.holdFault {r : LaneRef} {f : Flt} (h : MemsOk s) : MemsOk (holdFault r f s) := by
  unfold Machine.holdFault
  split <;> exact h

theorem MemsOk.fatal {t : ThreadId} {f : Flt} {mask : BitVec 4} (h : MemsOk s) : MemsOk (fatal t f mask s) :=
  .ite (.reapThread h) (.ite (.leaveHelper (.raiseFault h)) (.endUnit h))

theorem MemsOk.settledFault {iss : Issue} {fs : List (LaneRef × Flt)} (h : MemsOk s) : MemsOk (settledFault iss fs s) := by
  unfold Machine.settledFault
  refine .ite (.foldl (fun _ _ h' => .fatal h') (.modThreads h)) ?_
  split
  · exact h
  · exact .fatal (.modThreads h)

theorem MemsOk.parkOn {t : ThreadId} {f : Flt} {mask : BitVec 4} (h : MemsOk s) : MemsOk (parkOn t f mask s) := .ite h (.raiseFault h)

theorem MemsOk.dropStop {t : ThreadId} (h : MemsOk s) : MemsOk (dropStop t s) := by
  unfold Machine.dropStop
  split <;> exact h

theorem MemsOk.abandon {u g : Nat} {js : List Nat} {hp : Bool} (h : MemsOk s) : MemsOk (abandon u g js hp s) :=
  .foldl (fun _ _ h' => .modThread (.countCore (.foldl (fun _ _ h'' => h'') (.dropStop h')))) (.discardCmds h)

theorem MemsOk.parkIssue {iss : Issue} {fs : List (LaneRef × Flt)} (h : MemsOk s) : MemsOk (parkIssue iss fs s) := by
  unfold Machine.parkIssue
  refine .ite (.foldl (fun _ _ h' => .parkOn h') (.modThreads (.abandon h))) (.foldl (fun _ _ h' => .foldl (fun _ _ h'' => ?_) h') (.modThreads
      (.abandon h)))
  split
  · exact h''
  · exact .parkOn h''

theorem MemsOk.raiseHeld {iss : Issue} (h : MemsOk s) : MemsOk (raiseHeld iss s).2 :=
  .snd_ite (.snd_ite (.foldl (fun _ _ h' => .fatal h') h) (.parkIssue (.foldl (fun _ _ h' => .fatal h') h))) (.snd_ite h (.snd_ite (.parkIssue h)
    (.settledFault h)))

theorem MemsOk.noteSettled {iss : Issue} (h : MemsOk s) : MemsOk (noteSettled iss s) := .ite h h

theorem MemsOk.settle {iss : Issue} (h : MemsOk s) : MemsOk (settle iss s).2 :=
  .snd_ite h (.snd_ite (.modThreads (.noteSettled (.raiseHeld h))) (.raiseHeld h))

/-! ### Traces -/

theorem MemsOk.fetchWord {u va : Nat} (h : MemsOk s) : MemsOk (fetchWord u va s).2 := by
  unfold Machine.fetchWord
  refine .snd_ite h ?_
  dsimp only
  split <;> exact .lookup h

theorem MemsOk.scanWords {hp : Bool} {u a gd stages nreg fuel : Nat} {c : Scan} {acc : List DWord} (h : MemsOk s) :
    MemsOk (scanWords hp u a gd stages nreg fuel c acc s).2 := by
  induction fuel generalizing c acc s with
  | zero =>
    unfold Machine.scanWords
    dsimp only
    split <;> next e => exact .of_eq e (.fetchWord h)
  | succ k ih =>
    unfold Machine.scanWords
    dsimp only
    split
    next e => exact .of_eq e (.fetchWord h)
    next e =>
      have h1 := MemsOk.of_eq e (.fetchWord h)
      split
      · exact h1
      · exact h1
      · split
        · exact h1
        · exact .snd_ite h1 (.snd_ite h1 (ih h1))

theorem MemsOk.fetchTable {u a n : Nat} {acc : List DWord} (h : MemsOk s) : MemsOk (fetchTable u a n acc s).2 := by
  induction n generalizing acc s with
  | zero => exact h
  | succ k ih =>
    unfold Machine.fetchTable
    dsimp only
    split
    next e => exact .of_eq e (.fetchWord h)
    next e => exact .snd_ite (.of_eq e (.fetchWord h)) (ih (.of_eq e (.fetchWord h)))

theorem MemsOk.fetchTrace {hp : Bool} {u a stages gd nreg : Nat} {w0 : DWord} (h : MemsOk s) :
    MemsOk (fetchTrace hp u a stages gd nreg w0 s).2 := by
  unfold Machine.fetchTrace
  split
  next e => exact .of_eq e (.fetchTable h)
  next e => exact .scanWords (.of_eq e (.fetchTable h))

theorem MemsOk.spillStack {t : ThreadId} {n : Nat} (h : MemsOk s) : MemsOk (spillStack t n s).2 := by
  induction n generalizing s with
  | zero => exact h
  | succ k ih =>
    unfold Machine.spillStack
    refine .snd_ite h ?_
    split
    · exact h
    · refine .snd_ite h ?_
      dsimp only
      split
      · exact .lookup h
      · exact ih (.modSlice (.countCore (.homeWrite (.lookup h))))

theorem MemsOk.refillStack {t : ThreadId} {n : Nat} (h : MemsOk s) : MemsOk (refillStack t n s).2 := by
  induction n generalizing s with
  | zero => exact h
  | succ k ih =>
    unfold Machine.refillStack
    refine .snd_ite h ?_
    dsimp only
    split
    · exact .lookup h
    · exact ih (.modSlice (.lookup h))

theorem MemsOk.popSlice_go {t : ThreadId} {i : SliceId} {ht : ThreadId} {n : Nat} (h : MemsOk s) : MemsOk (popSlice.go t i ht n s) := by
  induction n generalizing s with
  | zero => exact h
  | succ k ih =>
    unfold popSlice.go
    dsimp only
    split
    · refine .ite (.modThread h) ?_
      split
      next e => exact ih (.of_eq e (.refillStack h))
      next e =>
        have h1 := MemsOk.of_eq e (.refillStack h)
        exact .ite (.ite (.fatal (.modThread h1)) (.parkOn (.modThread h1))) (ih h1)
    · exact .ite (.modThread (.ite h (.leaveHelper h)))
        (.ite (ih (.modSlice (.ite h (.leaveHelper h)))) (.modThread (.modSlice (.ite h (.leaveHelper h)))))

theorem MemsOk.popSlice {t : ThreadId} (h : MemsOk s) : MemsOk (popSlice t s) := .popSlice_go h

theorem MemsOk.updateJoined {g : GangId} (h : MemsOk s) : MemsOk (updateJoined g s) := .ite h h

theorem MemsOk.tryRegang {g : GangId} (h : MemsOk s) : MemsOk (tryRegang g s) := by
  unfold Machine.tryRegang
  dsimp only
  split
  · exact .ite (.foldl (fun _ _ h' => h') h) h
  · exact h

theorem MemsOk.updateBarrier {u n k : Nat} (h : MemsOk s) : MemsOk (updateBarrier u n k s) := by
  induction k generalizing s with
  | zero => exact h
  | succ k ih =>
    unfold Machine.updateBarrier
    exact .ite (ih h) (.modUnit h)

theorem MemsOk.noteArrival {u g n a : Nat} {js : List Nat} (h : MemsOk s) : MemsOk (noteArrival u g n a js s).2 := h

theorem MemsOk.exitBarriers {u : Nat} (h : MemsOk s) : MemsOk (exitBarriers u s) := .foldl (fun _ _ h' => .updateBarrier h') h

theorem MemsOk.touchLines {u : Nat} {pas : List Nat} (h : MemsOk s) : MemsOk (touchLines u pas s) := by
  unfold Machine.touchLines
  split <;> exact h

theorem MemsOk.stageEntry {r : LaneRef} {e : Staged} (h : MemsOk s) : MemsOk (stageEntry r e s) := by
  unfold Machine.stageEntry
  refine .ite ?_ (.modUnit (.countDie h))
  split <;> exact .countDie h

theorem MemsOk.commitLane {r : LaneRef} (h : MemsOk s) : MemsOk (commitLane r s) := by
  unfold Machine.commitLane
  extract_lets bufs un s1 s2 gl det s3 goes cells staged s4 loc
  have h2 : MemsOk s2 := by
    refine .foldl (fun _ _ h' => ?_) h
    split
    · exact .writeScratch h'
    · exact .writeOpbuf h'
    · exact h'
  have h3 : MemsOk s3 := .ite (.foldl (fun _ _ h' => .touchLines h') h2) h2
  exact .enqueue (.enqueue (.ite h3 (.stageEntry h3)))

theorem MemsOk.commit {iss : Issue} (h : MemsOk s) : MemsOk (commit iss s) := .ite h (.modThreads (.foldl (fun _ _ h' => .commitLane h') h))

theorem MemsOk.writeBack {binds : List (Nat × Nat)} {r : LaneRef} (h : MemsOk s) : MemsOk (writeBack binds r s) :=
  .foldr (fun _ _ h' => h') (.foldl (fun _ _ h' => .ite h' h') h)

theorem MemsOk.applyShrink {t : ThreadId} (h : MemsOk s) : MemsOk (applyShrink t s) := by
  unfold Machine.applyShrink
  dsimp only
  split
  · exact h
  · exact .modSlice (.ite h h)

theorem MemsOk.exposeTop {t : ThreadId} (h : MemsOk s) : MemsOk (exposeTop t s) := .ite (.refillStack h) h

theorem MemsOk.leaveTrace {t : ThreadId} {tok : Nat} {next : List (Nat × Nat)} (h : MemsOk s) : MemsOk (leaveTrace t tok next s) := by
  unfold Machine.leaveTrace
  dsimp only
  split
  · exact .popSlice (.modThread (.foldl (fun _ _ h' => h') (.countCore (.modSlice (.ite h (.exposeTop h))))))
  · exact .modThread (.modThread (.foldl (fun _ _ h' => h') (.countCore (.modSlice (.ite h (.exposeTop h))))))

theorem MemsOk.endTrace {iss : Issue} {tok : Nat} {k : EndKind} {link : Option Nat} (h : MemsOk s) : MemsOk (endTrace iss tok k link s) := by
  unfold Machine.endTrace
  extract_lets s1 s2
  have h2 : MemsOk s2 := by
    refine .foldl (fun t _ ht => ?_) (.commit h)
    extract_lets th rs tgt sa sb sc next un sd
    have ha : MemsOk sa := .foldl (fun _ _ h' => .writeBack h') ht
    have hb : MemsOk sb := by
      dsimp only [sb]
      split
      · exact ha
      · exact .foldl (fun _ _ h' => h') ha
    have hd : MemsOk sd := .ite (.applyShrink hb) (.countCore (.applyShrink hb))
    exact .ite (.modThread hd) (.leaveTrace hd)
  exact .ite (.ite h2 (.finishUnit h2)) h2

theorem MemsOk.traceEnd {iss : Issue} {tok : Nat} {k : EndKind} {link : Option Nat} (h : MemsOk s) : MemsOk (traceEnd iss tok k link s) := by
  unfold Machine.traceEnd
  split
  next e => exact .endTrace (.of_eq e (.settle h))
  next e => exact .of_eq e (.settle h)

theorem MemsOk.skipEmpty {iss : Issue} (h : MemsOk s) : MemsOk (skipEmpty iss s) :=
  .ite (.modThreads (.ite h (.noteSettled h))) (.ite h (.noteSettled h))

/-! ### Operands -/

theorem MemsOk.setSlots {r : LaneRef} {n : Nat} {ws : List Word} (h : MemsOk s) : MemsOk (setSlots r n ws s) := by
  induction ws generalizing n s with
  | nil => exact h
  | cons w ws ih => exact ih (.setSlot h)

theorem MemsOk.setGregs {g : GangId} {n : Nat} {ws : List Word} (h : MemsOk s) : MemsOk (setGregs g n ws s) := by
  induction ws generalizing n s with
  | nil => exact h
  | cons w ws ih => exact ih (.setGreg h)

theorem MemsOk.writeDst {r : LaneRef} {o : Opnd} {ws : List Word} (h : MemsOk s) : MemsOk (writeDst r o ws s) := by
  unfold Machine.writeDst
  split
  · exact .setSlots h
  · exact .setGregs h
  · exact h

theorem MemsOk.shiftEchoes {r : LaneRef} {ws : List Word} (h : MemsOk s) : MemsOk (shiftEchoes r ws s) := by
  induction ws generalizing s with
  | nil => exact h
  | cons w ws ih => exact ih (.shiftEcho h)

theorem MemsOk.deliver {iss : Issue} {d : Opnd} {rs : List (LaneRef × Res)} {n : Nat} (h : MemsOk s) : MemsOk (deliver iss d rs n s) :=
  .foldl (fun _ _ h' => .shiftEchoes h') (.foldl (fun _ _ h' => .shiftEchoes (.writeDst h')) h)

theorem MemsOk.deliverUniform {iss : Issue} {d : Opnd} {x : Res} (h : MemsOk s) : MemsOk (deliverUniform iss d x s) := by
  unfold Machine.deliverUniform
  refine .foldl (fun _ _ h' => .shiftEchoes h') ?_
  split
  · exact .setGregs h
  · exact h

theorem MemsOk.deliverOpt {u : Bool} {iss : Issue} {d : Option Opnd} {rs : List (LaneRef × Res)} {n : Nat} (h : MemsOk s) :
    MemsOk (deliverOpt u iss d rs n s) := by
  unfold Machine.deliverOpt
  split
  · exact h
  · refine .ite ?_ (.deliver h)
    split
    · exact .deliverUniform h
    · exact h

theorem MemsOk.reapThreads {iss : Issue} (h : MemsOk s) : MemsOk (withIssue.reapThreads iss s) :=
  .ite (.foldl (fun _ _ h' => .reapThread h') h) h

theorem NextOk.withIssue {reads writes : List Nat} {f : Issue → State → State} (h : MemsOk s)
    (hf : ∀ iss t, MemsOk t → MemsOk (f iss t)) : NextOk (withIssue reads writes s f) := by
  unfold Machine.withIssue
  split
  · exact .next h
  · refine .ite (.next (.advance h)) (.ite (.next (.reapThreads (.stall h))) ?_)
    split
    · exact .next (hf _ _ h)
    · exact .ite (.next (.settledFault h)) (.next (hf _ _ (.foldl (fun _ _ h' => .holdFault h') h)))

theorem MemsOk.block {iss : Issue} {w : Wait} (h : MemsOk s) : MemsOk (block iss w s) :=
  .ite (.foldl (fun _ _ h' => .reapThread h') (.stall h)) (.stall h)

theorem NextOk.compute {u : Bool} {d : Opnd} {dsz : Size} {srcs : List (Opnd × Size × KType)} {f : List DWord → Res} (h : MemsOk s) :
    NextOk (compute u d dsz srcs f s) :=
  .withIssue h (fun _ _ h' => .ite (.advance (.deliverUniform (.ite (.commit h') h'))) (.advance (.deliver h')))

theorem NextOk.compute1 {u : Bool} {d : Opnd} {dsz : Size} {a : Opnd × Size × KType} {f : DWord → Res} (h : MemsOk s) :
    NextOk (compute1 u d dsz a f s) :=
  .compute h

theorem NextOk.compute2 {u : Bool} {d : Opnd} {dsz : Size} {a b : Opnd × Size × KType} {f : DWord → DWord → Res} (h : MemsOk s) :
    NextOk (compute2 u d dsz a b f s) :=
  .compute h

theorem NextOk.compute3 {u : Bool} {d : Opnd} {dsz : Size} {a b c : Opnd × Size × KType} {f : DWord → DWord → DWord → Res} (h : MemsOk s) :
    NextOk (compute3 u d dsz a b c f s) :=
  .compute h

/-! ### Elements of memory instructions -/

theorem MemsOk.translate {u : Nat} {k : Acc} {settled : Bool} {wa ea fuel va n : Nat} {ps : List Piece} (h : MemsOk s) :
    MemsOk (translate u k settled wa ea fuel va n ps s).2 := by
  induction fuel generalizing va n ps s with
  | zero => exact h
  | succ fuel ih =>
    unfold Machine.translate
    refine .snd_ite h (.snd_ite h (.snd_ite h ?_))
    dsimp only
    split
    · exact .snd_ite (.lookup h) (.lookup h)
    · exact .lookup h
    · exact ih (.lookup h)

theorem MemsOk.checkElem {r : LaneRef} {sp : Space} {ea : Int} {n : Nat} {k : Acc} {settled : Bool} {wa : Nat} (h : MemsOk s) :
    MemsOk (checkElem r sp ea n k settled wa s).2 := by
  unfold Machine.checkElem
  extract_lets mem b
  have hmem : MemsOk (mem s).2 := by
    dsimp only [mem]
    split <;> next e => exact .of_eq e (.translate h)
  split
  · exact hmem
  · exact .snd_ite hmem h
  · exact .snd_ite h h
  · exact .snd_ite h h

theorem MemsOk.readAt {r : LaneRef} {at_ : At} {n : Nat} {stream : Bool} (h : MemsOk s) : MemsOk (readAt r at_ n stream s).2 := by
  unfold Machine.readAt
  dsimp only
  split
  · exact .coreRead (.ite (.touchLines h) h)
  · exact h
  · exact h

theorem MemsOk.loadElem {r : LaneRef} {sp : Space} {ea : Int} {n : Nat} {stream : Bool} {wa : Nat} (h : MemsOk s) :
    MemsOk (loadElem r sp ea n stream wa s).2 := by
  unfold Machine.loadElem
  split
  next e => exact .of_eq e (.checkElem h)
  next e =>
    have h1 := MemsOk.of_eq e (.checkElem h)
    split
    · exact h1
    · exact .readAt h1

theorem MemsOk.storeElem {r : LaneRef} {sp : Space} {ea : Int} {bytes : List Byte} {wa : Nat} (h : MemsOk s) :
    MemsOk (storeElem r sp ea bytes wa s) := by
  unfold Machine.storeElem
  split
  next e => exact .holdFault (.of_eq e (.checkElem h))
  next e =>
    have h1 := MemsOk.of_eq e (.checkElem h)
    exact h1

theorem MemsOk.patchL1 {core : Nat} {cells : List Host.Cell} (h : MemsOk s) : MemsOk (patchL1 core cells s) := h

theorem MemsOk.readHome {r : LaneRef} {at_ : At} {n : Nat} (h : MemsOk s) : MemsOk (readHome r at_ n s).2 := by
  unfold Machine.readHome
  dsimp only
  split
  · exact .snd_ite (.coreRead h) (.patchL1 (.drainOverlap h))
  · exact h
  · exact h

theorem MemsOk.writeHome {r : LaneRef} {at_ : At} {bytes : List Byte} (h : MemsOk s) : MemsOk (writeHome r at_ bytes s) := by
  unfold Machine.writeHome
  dsimp only
  split
  · exact .ite (.enqueue h) (.patchL1 (.homeWrite (.drainOverlap h)))
  · exact .writeScratch h
  · exact .writeOpbuf h

theorem MemsOk.raiseAll {u : Bool} {iss : Issue} {fs : List (LaneRef × Flt)} (h : MemsOk s) : MemsOk (raiseAll u iss fs s) := by
  unfold Machine.raiseAll
  refine .ite ?_ (.settledFault h)
  split
  · exact h
  · exact .settledFault h

theorem MemsOk.checkAll {k : Acc} {n wa align : Nat} {sp : Space} {es : List (LaneRef × Int)} (h : MemsOk s) :
    MemsOk (checkAll k n wa align sp es s).2.2 := by
  unfold Machine.checkAll
  refine .foldl_snd₂ (fun _ _ h' => .snd₂_ite h' ?_) h
  split <;> next e => exact .of_eq e (.checkElem h')

/-! ### Acquires, releases and the binding table -/

theorem MemsOk.noteAcquire {r : LaneRef} {at_ : At} (h : MemsOk s) : MemsOk (noteAcquire r at_ s) := by
  unfold Machine.noteAcquire
  refine .ite h ?_
  split <;> exact h

theorem MemsOk.acquireObject {r : LaneRef} {at_ : At} (h : MemsOk s) : MemsOk (acquireObject r at_ s) := by
  unfold Machine.acquireObject
  split
  · exact .ite h h
  · exact h

theorem MemsOk.acquireContext {core : Nat} (h : MemsOk s) : MemsOk (acquireContext core s) := h

theorem MemsOk.objectOne {r q : LaneRef} {at_ : At} {op : ObjOp} (h : MemsOk s) : MemsOk (objectOne r q at_ op s).2 := by
  unfold Machine.objectOne
  dsimp only
  split
  · exact .acquireObject (.noteAcquire (.readHome h))
  · exact .acquireObject (.noteAcquire (.readHome h))
  · exact .writeHome (.readHome h)
  · exact .writeHome (.readHome h)

theorem MemsOk.objectLoop {u : Bool} {iss : Issue} {op : ObjOp} {as : List (LaneRef × At)} (h : MemsOk s) : MemsOk (objectLoop u iss op as s).2 :=
  .foldl_snd (fun _ _ h' => .objectOne h') h

theorem NextOk.objectAll {u : Bool} {sp : GS} {off : BitVec 24} {a : Opnd} {op : ObjOp} (h : MemsOk s) : NextOk (objectAll u sp off a op s) :=
  .withIssue h (fun _ _ h' => .ite (.raiseAll (.checkAll (.commit h'))) (.ite (.block (.checkAll (.commit h'))) (.advance (.deliverOpt
    (.objectLoop (.ite (.releaseLanes (.checkAll (.commit h'))) (.checkAll (.commit h'))))))))

theorem NextOk.execFence (h : MemsOk s) : NextOk (execFence s) :=
  .withIssue h (fun _ _ h' => .ite (.block (.commit h')) (.advance (.acquireContext (.releaseLanes (.commit h')))))

theorem MemsOk.seePad {g : GangId} (h : MemsOk s) : MemsOk (seePad g s) := h

theorem NextOk.execXfence {p q : APath} (h : MemsOk s) : NextOk (execXfence p q s) := by
  unfold Machine.execXfence
  refine .withIssue h (fun _ _ h' => .ite (.block (.commit h')) (.advance ?_))
  split
  · exact .discardL1 (.commit h')
  · exact .seePad (.commit h')
  · exact .commit h'

theorem NextOk.execBind {d a b c : Opnd} (h : MemsOk s) : NextOk (execBind d a b c s) := by
  unfold Machine.execBind
  refine .withIssue h (fun _ _ h' => ?_)
  dsimp only
  split
  · exact .advance (.commit h')
  · split
    · exact .settledFault (.commit h')
    · refine .ite (.block (.commit h')) ?_
      split
      · exact .advance (.deliver (.commit h'))
      · exact .advance (.deliver (.modCtx (.releaseLanes (.commit h'))))

theorem MemsOk.unbind {ctx i : Nat} (h : MemsOk s) : MemsOk (unbind ctx i s) := h

theorem NextOk.execUnbind {d a : Opnd} (h : MemsOk s) : NextOk (execUnbind d a s) := by
  unfold Machine.execUnbind
  refine .withIssue h (fun _ _ h' => ?_)
  dsimp only
  split
  · exact .advance (.commit h')
  · exact .ite (.block (.commit h')) (.advance (.deliver (.ite (.unbind (.releaseLanes (.commit h'))) (.commit h'))))

theorem NextOk.execMon {sp : GS} {off : BitVec 24} {a : Opnd} (h : MemsOk s) : NextOk (execMon sp off a s) := by
  unfold Machine.execMon
  refine .withIssue h (fun _ _ h' => .ite (.settledFault (.checkAll (.commit h'))) (.advance (.foldl (fun _ _ h'' => ?_) (.checkAll (.commit
      h')))))
  split <;> exact h''

/-! ### Loads and stores -/

theorem NextOk.loadAll {sp : Space} {w : Width} {hint : Hint} {off : BitVec 24} {d a : Opnd} {i : Option Opnd} (h : MemsOk s) :
    NextOk (loadAll sp w hint off d a i s) := by
  unfold Machine.loadAll
  refine .withIssue h (fun _ _ h' => .advance (.deliver (.foldl_snd (fun _ _ h'' => ?_) h')))
  dsimp only
  split
  next e => exact .of_eq e (.loadElem h'')
  next e => exact .holdFault (.of_eq e (.loadElem h''))

theorem NextOk.storeAll {sp : Space} {w : Width} {off : BitVec 24} {x a : Opnd} {i : Option Opnd} (h : MemsOk s) :
    NextOk (storeAll sp w off x a i s) :=
  .withIssue h (fun _ _ h' => .advance (.foldl (fun _ _ h'' => .storeElem h'') h'))

theorem MemsOk.prefetchPart {u : Nat} {hint : Hint} {p : Nat × Nat} (h : MemsOk s) : MemsOk (prefetchPart u hint s p) := by
  unfold Machine.prefetchPart
  refine .ite ?_ h
  split
  next e =>
    have h1 := MemsOk.of_eq e (.translate h)
    exact .ite h1 (.foldl (fun _ _ h' => .touchSector h') h1)
  next e => exact .of_eq e (.translate h)

theorem NextOk.execPref {w : Width} {hint : Hint} {off : BitVec 24} {a i : Opnd} (h : MemsOk s) : NextOk (execPref w hint off a i s) :=
  .withIssue h (fun _ _ h' => .advance (.foldl (fun _ _ h'' => .foldl (fun _ _ h3 => .prefetchPart h3) h'') h'))

theorem NextOk.execSpill {sp : Space} {hint : Hint} {off : BitVec 24} {n : BitVec 8} {k1 : BitVec 5} {a : Opnd} (h : MemsOk s) :
    NextOk (execSpill sp hint off n k1 a s) :=
  .withIssue h (fun _ _ h' => .advance (.foldl (fun _ _ h'' => .ite (.holdFault h'') (.ite (.holdFault h'') (.storeElem h''))) h'))

theorem NextOk.execFill {sp : Space} {hint : Hint} {off : BitVec 24} {n : BitVec 8} {k1 : BitVec 5} {a : Opnd} (h : MemsOk s) :
    NextOk (execFill sp hint off n k1 a s) := by
  unfold Machine.execFill
  refine .withIssue h (fun _ _ h' => .advance (.foldl (fun _ _ h'' => .ite (.holdFault h'') ?_) h'))
  split
  next e => exact .holdFault (.of_eq e (.loadElem h''))
  next e =>
    have h1 := MemsOk.of_eq e (.loadElem h'')
    exact h1

/-! ### Read-modify-write -/

theorem MemsOk.refusedAt {op : AluOp} {at_ : At} (h : MemsOk s) : MemsOk (refusedAt op at_ s).2 := by
  unfold Machine.refusedAt
  split
  · dsimp only
    split
    · exact .snd_ite h h
    · exact h
    · exact h
  · exact h

theorem MemsOk.writeThrough {core : Nat} {cells : List Host.Cell} (h : MemsOk s) : MemsOk (writeThrough core cells s) :=
  .patchL1 (.homeWrite (.drainOverlap h))

theorem MemsOk.applyStaged {core : Nat} {e : Staged} (h : MemsOk s) : MemsOk (applyStaged core e s) := by
  unfold Machine.applyStaged
  split <;> exact .writeThrough h

theorem MemsOk.drainLines {u : Nat} {lines : List Nat} (h : MemsOk s) : MemsOk (drainLines u lines s) := .foldl (fun _ _ h' => .applyStaged h') h

theorem MemsOk.discardTracked {u : Nat} (h : MemsOk s) : MemsOk (discardTracked u s) := by
  unfold Machine.discardTracked
  split <;> exact h

theorem MemsOk.rmwOne {r : LaneRef} {at_ : At} {w : Nat} {op : AluOp} {b c : DWord} (h : MemsOk s) : MemsOk (rmwOne r at_ w op b c s).2 :=
  .writeHome (.readHome h)

theorem MemsOk.rmwLane {r : LaneRef} {at_ : At} {w : Nat} {op : AluOp} {b c : DWord} {stage : Bool} (h : MemsOk s) :
    MemsOk (rmwLane r at_ w op b c stage s).2 := by
  unfold Machine.rmwLane
  refine .snd_ite (.snd_ite ?_ (.rmwOne (.discardTracked (.drainLines ?_)))) (.rmwOne h)
  · split
    · exact .stageEntry (.touchLines h)
    · dsimp only
      split
      · exact .touchLines h
      · exact h
  · split
    · exact .touchLines h
    · exact h

theorem MemsOk.refuseAll {op : AluOp} {wa : Nat} {as : List (LaneRef × At)} (h : MemsOk s) : MemsOk (refuseAll op wa as s).2 := by
  refine .foldl_snd (fun _ _ h' => ?_) h
  split
  next e _ => exact .of_eq e (.refusedAt h')
  next e _ => exact .of_eq e (.refusedAt h')

theorem MemsOk.rmwLoop {w : Nat} {op : AluOp} {b c : State → LaneRef → DWord} {stage : Bool} {as : List (LaneRef × At)} (h : MemsOk s) :
    MemsOk (rmwLoop w op b c stage as s).2 :=
  .foldl_snd (fun _ _ h' => .rmwLane h') h

theorem NextOk.rmwAll {u : Bool} {sp : GS} {w : Width} {op : AluOp} {stage : Bool} {d : Option Opnd} {a b : Opnd} {i c : Option Opnd}
    (h : MemsOk s) : NextOk (rmwAll u sp w op stage d a b i c s) := by
  unfold Machine.rmwAll
  refine .withIssue h fun _ _ h' => ?_
  dsimp only
  exact .ite (.raiseAll (.refuseAll (.checkAll (.commit h')))) (.ite (.block (.refuseAll (.checkAll (.commit h'))))
    (.advance (.deliverOpt (.rmwLoop (.refuseAll (.checkAll (.commit h')))))))

/-! ### Building, ending and joining traces -/

theorem NextOk.execNop (h : MemsOk s) : NextOk (execNop s) := .withIssue h (fun _ _ h' => .advance h')

theorem MemsOk.loadWindow {t : ThreadId} (h : MemsOk s) : MemsOk (loadWindow t s) := by
  unfold Machine.loadWindow
  split
  · exact h
  · exact .foldl (fun _ _ h' => .foldl (fun _ _ h'' => h'') h') h

theorem MemsOk.enterTrace {a stages gd : Nat} {ws : List DWord} {grp : Bool} {t : ThreadId} (h : MemsOk s) :
    MemsOk (enterTrace a stages gd ws grp t s) := by
  unfold Machine.enterTrace
  split
  next e =>
    have h1 := MemsOk.of_eq e (.snd_ite h (.spillStack h))
    exact .ite (.fatal h1) (.parkOn (.modThread h1))
  next e =>
    have h1 := MemsOk.of_eq e (.snd_ite h (.spillStack h))
    exact .ite (.loadWindow (.modThread (.foldl (fun _ _ h' => h') h1))) (.modThread (.foldl (fun _ _ h' => h') h1))

theorem NextOk.execTrace {stages : BitVec 6} {guards : BitVec 4} (h : MemsOk s) : NextOk (execTrace stages guards s) := by
  unfold Machine.execTrace
  split
  · exact .next h
  · split
    · dsimp only
      split
      next e =>
        have h1 := MemsOk.of_eq e (.fetchTrace h)
        exact .next (.ite (.settledFault h1) (.parkIssue (.modThreads h1)))
      next e => exact .next (.foldl (fun _ _ h' => .enterTrace h') (.of_eq e (.fetchTrace h)))
    · exact .next h

theorem MemsOk.bindSlots {iss : Issue} {d n k : Nat} (h : MemsOk s) : MemsOk (bindSlots iss d n k s) := .modThreads h

theorem NextOk.execStg {d : BitVec 5} {n : BitVec 8} {k1 : BitVec 5} (h : MemsOk s) : NextOk (execStg d n k1 s) :=
  .withIssue h (fun _ _ h' => .advance (.bindSlots (.foldl (fun _ _ h'' => .ite (.holdFault (.foldl (fun _ _ h3 => h3) h'')) (.foldl (fun _ _ h3
    => h3) h'')) h')))

theorem NextOk.execWbind {d : BitVec 5} {n : BitVec 8} {k1 : BitVec 5} (h : MemsOk s) : NextOk (execWbind d n k1 s) :=
  .withIssue h (fun _ _ h' => .advance (.bindSlots h'))

theorem MemsOk.failLanes {t : ThreadId} {g : Nat} {m : BitVec 4} (h : MemsOk s) : MemsOk (failLanes t g m s) :=
  .modThread (.foldl (fun _ _ h' => h') h)

theorem NextOk.execGuard {z : Bool} {g : BitVec 3} {a : Opnd} (h : MemsOk s) : NextOk (execGuard z g a s) :=
  .withIssue h (fun _ _ h' => .skipEmpty (.advance (.countCore (.foldl (fun _ _ h'' => .ite h'' (.failLanes h'')) h'))))

theorem NextOk.execSettle (h : MemsOk s) : NextOk (execSettle s) := by
  unfold Machine.execSettle
  refine .withIssue h (fun _ _ h' => ?_)
  split
  next e => exact .advance (.of_eq e (.settle h'))
  next e => exact .of_eq e (.settle h')

theorem NextOk.atEnd {tok : BitVec 16} {k : Nat → EndKind} {link : Bool} (h : MemsOk s) : NextOk (atEnd tok k link s) := by
  unfold Machine.atEnd
  split
  · exact .next h
  · exact .next (.traceEnd h)

theorem MemsOk.dismissAll {iss : Issue} {ls : List Nat} (h : MemsOk s) : MemsOk (dismissAll iss ls s) :=
  .foldl (fun _ _ h' => .releaseRecord h') h

theorem MemsOk.closeRecords {iss : Issue} {ls : List Nat} (h : MemsOk s) : MemsOk (closeRecords iss ls s) :=
  .foldl (fun _ _ h' => .modGang (.foldl (fun _ _ h'' => h'') h')) h

theorem MemsOk.exitSlice {t : ThreadId} (h : MemsOk s) : MemsOk (exitSlice t s) := .leaveTrace (.applyShrink h)

theorem MemsOk.endBind {g : GangId} (h : MemsOk s) : MemsOk (endBind g s) := h

theorem MemsOk.afterExit {g : GangId} (h : MemsOk s) : MemsOk (afterExit g s) :=
  .ite (.finishUnit (.exitBarriers (.ite (.endBind (.foldl (fun _ _ h' => .freeBaton h') h)) (.tryRegang h)))) (.exitBarriers (.ite (.endBind
    (.foldl (fun _ _ h' => .freeBaton h') h)) (.tryRegang h)))

theorem MemsOk.helperExit {iss : Issue} (h : MemsOk s) : MemsOk (helperExit iss s) := .foldl (fun _ _ h' => .leaveHelper h') h

theorem NextOk.execExit (h : MemsOk s) : NextOk (execExit s) := by
  unfold Machine.execExit
  split
  · exact .next h
  · split
    next e => exact .next (.of_eq e (.settle h))
    next e =>
      have h1 := MemsOk.of_eq e (.settle h)
      refine .ite (.next (.helperExit (.commit h1))) (.ite (.next (.foldl (fun _ _ h' => .reapThread h') (.commit h1))) ?_)
      exact .ite (.next (.block (.dismissAll (.releaseLanes (.commit h1)))))
        (.ite (.next (.afterExit (.foldl (fun _ _ h' => .exitSlice h') (.closeRecords (.dismissAll (.releaseLanes (.commit h1)))))))
          (.next (.block (.dismissAll (.releaseLanes (.commit h1))))))

theorem MemsOk.mergeSlice_goOn {tok a : Nat} {t : ThreadId} (h : MemsOk s) : MemsOk (mergeSlice.goOn tok a t s) := by
  unfold mergeSlice.goOn
  split
  · exact .ite (.popSlice h) (.modThread h)
  · exact .modThread h

theorem MemsOk.mergeSlice {tok a : Nat} {t : ThreadId} (h : MemsOk s) : MemsOk (mergeSlice tok a t s) := by
  unfold Machine.mergeSlice
  dsimp only
  split
  next e =>
    have h1 := MemsOk.of_eq e (.snd_ite (.refillStack h) h)
    exact .ite (.ite (.fatal h1) (.parkOn (.modThread h1))) (.mergeSlice_goOn h1)
  next e => exact .mergeSlice_goOn (.of_eq e (.snd_ite (.refillStack h) h))

theorem NextOk.execMerge {tok : BitVec 16} (h : MemsOk s) : NextOk (execMerge tok s) := by
  unfold Machine.execMerge
  split
  · exact .next h
  · split
    · exact .next (.foldl (fun _ _ h' => .mergeSlice h') h)
    · exact .next h

theorem NextOk.execRegang (h : MemsOk s) : NextOk (execRegang s) := by
  unfold Machine.execRegang
  split
  · exact .next h
  · split
    · exact .next (.tryRegang (.modThreads h))
    · exact .next h

theorem NextOk.execYield (h : MemsOk s) : NextOk (execYield s) := .withIssue h (fun _ _ h' => .ite (.advance (.commit h')) (.stall (.commit h')))

theorem NextOk.execTrap {imm : BitVec 32} (h : MemsOk s) : NextOk (execTrap imm s) :=
  .withIssue h (fun _ _ h' => .ite (.settledFault h') (.advance (.foldl (fun _ _ h'' => .holdFault h'') h')))

theorem MemsOk.stopAt {code : BitVec 16} {t : ThreadId} (h : MemsOk s) : MemsOk (stopAt code t s) := .ite h (.modThread (.raiseFault h))

theorem NextOk.execBkpt {code : BitVec 16} (h : MemsOk s) : NextOk (execBkpt code s) := by
  unfold Machine.execBkpt
  refine .withIssue h (fun _ _ h' => ?_)
  split
  · exact h'
  · exact .ite (.foldl (fun _ _ h' => .reapThread h') h') (.foldl (fun _ _ h' => .stopAt h') h')

/-! ### The copy and link engines -/

theorem MemsOk.checkRange {r : LaneRef} {sp : GS} {ea : Int} {n : Nat} {k : Acc} {settled : Bool} {wa : Nat} (h : MemsOk s) :
    MemsOk (checkRange r sp ea n k settled wa s).2 := by
  unfold Machine.checkRange
  refine .snd_ite h ?_
  split
  · split <;> next e => exact .of_eq e (.translate h)
  · exact .snd_ite h h

theorem MemsOk.engWrite {u : Nat} {pages : Map Nat Nat} {l : Loc} {bs : List (Byte × Bool)} (h : MemsOk s) :
    MemsOk (engWrite u pages l bs s) := by
  unfold Machine.engWrite
  dsimp only
  split
  · exact .homeWrite h
  · exact .writeScratch h
  · exact h
  · exact .writeOpbuf h

theorem MemsOk.enqueueCopy {iss : Issue} {link : Bool} {tag : Nat} {kind : CopyKind} {lanes : List LaneCopy} {pages : Map Nat Nat}
    {settled : Bool} (h : MemsOk s) : MemsOk (enqueueCopy iss link tag kind lanes pages settled s) :=
  h

theorem MemsOk.checkEnd {r : LaneRef} {ea : Int} {n : Nat} {k : Acc} {settled : Bool} {wa : Nat} (h : MemsOk s) :
    MemsOk (checkEnd r ea n k settled wa s).2 := by
  unfold Machine.checkEnd
  split
  · exact .snd_ite h (.snd_ite h h)
  · split <;> next e => exact .of_eq e (.checkRange h)

theorem MemsOk.checkEnds {lk : Bool} {r : LaneRef} {ssp dsp : GS} {src dst : Int} {n m : Nat} {settled : Bool} {wa : Nat}
    (h : MemsOk s) : MemsOk (checkEnds lk r ssp dsp src dst n m settled wa s).2 := by
  unfold Machine.checkEnds
  extract_lets one
  have hone : ∀ {sp ea n k t}, MemsOk t → MemsOk (one sp ea n k t).2 := by
    intro sp ea n k t ht
    refine .snd_ite (.checkEnd ht) ?_
    split <;> next e => exact .of_eq e (.checkRange ht)
  split
  next e => exact .of_eq e (hone h)
  next e =>
    split
    next e' => exact .of_eq e' (hone (.of_eq e (hone h)))
    next e' => exact .snd_ite (.of_eq e' (hone (.of_eq e (hone h)))) (.of_eq e' (hone (.of_eq e (hone h))))

theorem MemsOk.issueCopy {iss : Issue} {link : Bool} {tag : Nat} {kind : CopyKind} {sup : Supply LaneCopy} {settled : Bool} (h : MemsOk s) :
    MemsOk (issueCopy iss link tag kind sup settled s) :=
  .ite (.settledFault h) (.advance (.enqueueCopy (.foldl (fun _ _ h' => .holdFault h') h)))

theorem NextOk.execCpy {tag : BitVec 3} {lk : Bool} {n1 : BitVec 5} {dsp ssp : GS} {hint : Hint} {d a b : Opnd} (h : MemsOk s) :
    NextOk (execCpy tag lk n1 dsp ssp hint d a b s) := by
  unfold Machine.execCpy
  refine .withIssue h (fun _ _ h' => .ite (.block (.ite (.commit h') h')) (.issueCopy (.foldl_snd (fun _ _ h'' => ?_) (.ite (.commit h') h'))))
  dsimp only
  split <;> next e => exact .of_eq e (.checkEnds h'')

theorem MemsOk.checkRows {lk : Bool} {r : LaneRef} {ssp dsp : GS} {src dst sst dst' : Int} {nb : Nat} {settled : Bool} {wa n i : Nat}
    {ps : Map Nat Nat} (h : MemsOk s) : MemsOk (checkRows lk r ssp dsp src dst sst dst' nb settled wa n i ps s).2 := by
  induction n generalizing i ps s with
  | zero => exact h
  | succ k ih =>
    unfold Machine.checkRows
    split
    next e => exact ih (.of_eq e (.checkEnds h))
    next e => exact .of_eq e (.checkEnds h)

theorem MemsOk.checkEmpty {lk : Bool} {r : LaneRef} {ssp dsp : GS} {src dst : Int} {settled : Bool} {wa : Nat} (h : MemsOk s) :
    MemsOk (checkEmpty lk r ssp dsp src dst settled wa s).2 := by
  unfold Machine.checkEmpty
  refine .snd_ite h ?_
  split <;> next e => exact .of_eq e (.checkEnds h)

theorem NextOk.execCpy2d {tag : BitVec 3} {lk : Bool} {dsp ssp : GS} {hint : Hint} {d a b : Opnd} {ga gb gc : BitVec 6} (h : MemsOk s) :
    NextOk (execCpy2d tag lk dsp ssp hint d a b ga gb gc s) := by
  unfold Machine.execCpy2d
  refine .withIssue h (fun _ _ h' => .ite (.block (.ite (.commit h') h')) (.issueCopy (.foldl_snd (fun _ _ h'' => ?_) (.ite (.commit h') h'))))
  dsimp only
  split <;> next e => exact .of_eq e (.snd_ite (.checkEmpty h'') (.checkRows h''))

theorem MemsOk.checkConv {r : LaneRef} {num count : Nat} {a : Int} {dst : Nat} {settled : Bool} {wa : Nat} (h : MemsOk s) :
    MemsOk (checkConv r num count a dst settled wa s).2 := by
  unfold Machine.checkConv
  dsimp only
  split
  · exact h
  · refine .snd_ite h (.snd_ite h (.snd_ite h (.foldl_snd (fun _ _ h' => ?_) h)))
    split
    · exact h'
    · split <;> next e => exact .of_eq e (.checkRange h')

theorem NextOk.execCdec {tag : BitVec 3} {hint : Hint} {d a : Opnd} {ga gb : BitVec 6} (h : MemsOk s) :
    NextOk (execCdec tag hint d a ga gb s) := by
  unfold Machine.execCdec
  refine .withIssue h (fun _ _ h' => .ite (.block (.ite (.commit h') h')) (.issueCopy (.foldl_snd₂ (fun _ _ h'' => ?_) (.ite (.commit h') h'))))
  dsimp only
  split <;> next e => exact .of_eq e (.checkConv h'')

theorem NextOk.execCseal {tag : BitVec 3} {d : BitVec 6} (h : MemsOk s) : NextOk (execCseal tag d s) := by
  unfold Machine.execCseal
  refine .withIssue h (fun _ _ h' => ?_)
  dsimp only
  split
  · exact .advance (.deliver (.commit h'))
  · exact .ite (.advance (.deliver (.modGang (.commit h')))) (.advance (.deliver (.modGang (.commit h'))))

theorem MemsOk.modCopy {id : Nat} {f : CopyCmd → CopyCmd} (h : MemsOk s) : MemsOk (modCopy id f s) := h

theorem MemsOk.copyElems {c : CopyCmd} {n i : Nat} (h : MemsOk s) : MemsOk (copyElems c n i s).2 := by
  induction n generalizing i s with
  | zero => exact h
  | succ k ih =>
    unfold Machine.copyElems
    split
    · exact ih h
    · exact ih (.engWrite h)

theorem MemsOk.writeRest {u : Nat} {pages : Map Nat Nat} {k : Nat} {ws : List EngWr} (h : MemsOk s) :
    MemsOk (writeRest u pages k ws s) := by
  induction ws generalizing k s with
  | nil => unfold Machine.writeRest; exact h
  | cons w ws ih => exact ih (.ite h (.engWrite h))

theorem MemsOk.healCopy {c : CopyCmd} {ws : List EngWr} (h : MemsOk s) : MemsOk (healCopy c ws s) := h

theorem MemsOk.performCopy {c : CopyCmd} (h : MemsOk s) : MemsOk (performCopy c s) := .healCopy (.copyElems (.writeRest h))

theorem MemsOk.completeCopy {c : CopyCmd} {n : Nat} (h : MemsOk s) : MemsOk (completeCopy c n s) := .writeTokens h

theorem MemsOk.leaveEngine {c : CopyCmd} {n : Nat} (h : MemsOk s) : MemsOk (leaveEngine c n s) := .ite h (.completeCopy h)

theorem NextOk.execCopyCommandComplete {id : Nat} (h : MemsOk s) : NextOk (execCopyCommandComplete id s) := by
  unfold Machine.execCopyCommandComplete
  split
  · exact .next h
  · exact .ite (.next (.ite h (.completeCopy h))) (.ite (.next h) (.next (.leaveEngine (.performCopy h))))

theorem MemsOk.copyStep {id : Nat} (h : MemsOk s) : MemsOk (copyStep id s) := by
  unfold Machine.copyStep
  split
  · exact h
  · dsimp only
    split
    · exact .modCopy (.engWrite h)
    · refine .ite ?_ h
      split <;> exact h

theorem MemsOk.copySteps {id n : Nat} (h : MemsOk s) : MemsOk (copySteps id n s) := by
  induction n generalizing s with
  | zero => exact h
  | succ n ih => exact ih (.copyStep h)

theorem MemsOk.staleSector {c : CopyCmd} (h : MemsOk s) : MemsOk (staleSector c s) := by
  unfold Machine.staleSector
  dsimp only
  split
  · exact h
  · refine .ite h ?_
    split
    · exact .ite h h
    · exact h

theorem MemsOk.stalePads {id : Nat} (h : MemsOk s) : MemsOk (stalePads id s) := by
  unfold Machine.stalePads
  split
  · exact h
  · exact .ite h (.foldl (fun _ _ h' => h') h)

theorem MemsOk.progressCopies (h : MemsOk s) : MemsOk (progressCopies s) :=
  .foldl (fun _ _ h' => .stalePads (.copySteps (.takeNat (.staleSector h')))) h

theorem MemsOk.startLinks (h : MemsOk s) : MemsOk (startLinks s) := .foldl (fun _ _ h' => .leaveEngine h') h

theorem MemsOk.landAnswer {c : CopyCmd} {n : Nat} {data : List (Option (Byte × Bool))} (h : MemsOk s) : MemsOk (landAnswer c n data s) :=
  .ite (.modCopy (.foldl (fun _ _ h' => .engWrite h') h)) h

theorem MemsOk.linkAnswer {l n : Nat} {data : List (Option (Byte × Bool))} (h : MemsOk s) : MemsOk (linkAnswer l n data s) := by
  unfold Machine.linkAnswer
  split
  · exact h
  · exact .landAnswer h

theorem NextOk.execLinkCommandComplete {id n : Nat} {data : List (Option (Byte × Bool))} (h : MemsOk s) :
    NextOk (execLinkCommandComplete id n data s) := by
  unfold Machine.execLinkCommandComplete
  split
  · exact .next h
  · exact .ite (.next (.ite h (.completeCopy h))) (.ite (.next h) (.ite (.next (.leaveEngine h)) (.next (.leaveEngine (.foldl (fun _ _ h' =>
        .engWrite h') (.writeRest (.landAnswer h)))))))

/-! ### Matrix commands as they issue -/

theorem MemsOk.checkMem {r : LaneRef} {sp : GS} {k : Acc} {align wa : Nat} {rs : List (Int × Nat)} (h : MemsOk s) :
    MemsOk (checkMem r sp k align wa rs s).2 := by
  refine .foldl_snd (fun _ _ h' => ?_) h
  split
  · exact h'
  · refine .snd_ite h' ?_
    split <;> next e => exact .of_eq e (.checkRange h')

theorem MemsOk.checkScalars {c : MatCmd} {r : LaneRef} {x : MatLane} {wa : Nat} (h : MemsOk s) :
    MemsOk (checkScalars c r x wa s).2 := by
  unfold Machine.checkScalars
  extract_lets shape ob mem
  have hmem : ∀ {sp k al rs}, MemsOk (mem sp k al rs).2 := by
    intro sp k al rs
    dsimp only [mem]
    split <;> next e => exact .of_eq e (.checkMem h)
  split
  · exact .snd_ite h (.snd_ite h (.snd_ite h h))
  · exact .snd_ite h (.snd_ite h h)
  · exact .snd_ite h h
  · exact .snd_ite h h
  · exact .snd_ite h (.snd_ite h hmem)
  · exact .snd_ite h (.snd_ite h hmem)
  · exact .snd_ite h h
  · exact .snd_ite h (.snd_ite h hmem)
  · exact h

theorem MemsOk.checkMat {iss : Issue} {c : MatCmd} {settled : Bool} {wa : Nat} (h : MemsOk s) :
    MemsOk (checkMat iss c settled wa s).2.2.2 := by
  refine List.foldlRecOn (motive := fun p : List (LaneRef × Flt) × List Nat × Map Nat Nat × State => MemsOk p.2.2.2) _ _ h
    fun p hp x _ => ?_
  dsimp only
  split <;> next e => exact .of_eq e (.checkScalars hp)

theorem MemsOk.enqueueMat {c : MatCmd} (h : MemsOk s) : MemsOk (enqueueMat c s).2 := h

theorem MemsOk.issueAsync {iss : Issue} {mk : State → MatCmd} (h : MemsOk s) : MemsOk (issueAsync iss mk s) :=
  .ite (.settledFault (.checkMat (.ite (.commit h) h))) (.advance (.enqueueMat (.foldl (fun _ _ h' => .holdFault h') (.checkMat (.ite (.commit h)
    h)))))

theorem MemsOk.issueSync {iss : Issue} {mk : State → MatCmd} {done : Nat → State → State}
    (hd : ∀ v t, MemsOk t → MemsOk (done v t)) (h : MemsOk s) : MemsOk (issueSync iss mk done s) := by
  unfold Machine.issueSync
  split
  · exact h
  · exact .advance (hd _ _ h)
  · exact .ite (.settledFault (.checkMat (.commit h))) (.block (.enqueueMat (.checkMat (.commit h))))

theorem NextOk.execMgath {p : RowPart} {a : Opnd} (h : MemsOk s) : NextOk (execMgath p a s) := .withIssue h (fun _ _ h' => .issueAsync h')

theorem NextOk.execMma {sp co : Bool} {x b o : Opnd} {ga gb gc : BitVec 6} (h : MemsOk s) : NextOk (execMma sp co x b o ga gb gc s) :=
  .withIssue h (fun _ _ h' => .issueAsync h')

theorem NextOk.execMmap {sp : Bool} {t : BitVec 8} {x b o : Opnd} {ga gb gc : BitVec 6} (h : MemsOk s) :
    NextOk (execMmap sp t x b o ga gb gc s) :=
  .withIssue h (fun _ _ h' => .issueAsync h')

theorem NextOk.execMzero {o : Opnd} {ga gb : BitVec 6} (h : MemsOk s) : NextOk (execMzero o ga gb s) :=
  .withIssue h (fun _ _ h' => .issueAsync h')

theorem NextOk.execGuide {d o : Opnd} {ga gb gc : BitVec 6} (h : MemsOk s) : NextOk (execGuide d o ga gb gc s) :=
  .withIssue h (fun _ _ h' => .issueSync (fun _ _ h'' => .deliver h'') h')

theorem NextOk.execMst {sp : GS} {bf : Bool} {hint : Hint} {a o : Opnd} {ga gb gc : BitVec 6} (h : MemsOk s) :
    NextOk (execMst sp bf hint a o ga gb gc s) :=
  .withIssue h (fun _ _ h' => .issueSync (fun _ _ h'' => h'') h')

theorem NextOk.execMld {sp : GS} {bf : Bool} {hint : Hint} {a o : Opnd} {ga gb gc : BitVec 6} (h : MemsOk s) :
    NextOk (execMld sp bf hint a o ga gb gc s) :=
  .withIssue h (fun _ _ h' => .issueSync (fun _ _ h'' => h'') h')

theorem NextOk.execMspsel {d a x : Opnd} {ga gb : BitVec 6} (h : MemsOk s) : NextOk (execMspsel d a x ga gb s) :=
  .withIssue h (fun _ _ h' => .issueSync (fun _ _ h'' => h'') h')

theorem NextOk.execSpst {sp : GS} {hint : Hint} {a o : Opnd} {ga gb : BitVec 6} (h : MemsOk s) :
    NextOk (execSpst sp hint a o ga gb s) := by
  refine .withIssue h fun _ _ h' => ?_
  split
  · exact h'
  · exact h'
  · exact .advance h'
  · exact .ite (.settledFault (.commit h')) (.issueSync (fun _ _ h'' => h'') (.commit h'))

theorem MemsOk.deliverStatus {iss : Issue} {d : Opnd} {v : Nat} (h : MemsOk s) : MemsOk (deliverStatus iss d v s) := .deliver h

theorem NextOk.execOrsv {d : Opnd} {ga : BitVec 6} (h : MemsOk s) : NextOk (execOrsv d ga s) :=
  .withIssue h (fun _ _ h' => .advance (.deliverStatus (.ite (.commit h') (.commit h'))))

theorem NextOk.execOrls {d : Opnd} {ga : BitVec 6} (h : MemsOk s) : NextOk (execOrls d ga s) :=
  .withIssue h (fun _ _ h' => .ite (.block (.commit h')) (.ite (.advance (.deliverStatus (.commit h'))) (.advance (.deliverStatus (.commit h')))))

theorem NextOk.execMclaim (h : MemsOk s) : NextOk (execMclaim s) :=
  .withIssue h (fun _ _ h' => .ite (.advance (.ite (.giveBaton (.ite (.commit h') (.commit h'))) (.ite (.commit h') (.commit h')))) (.block (.ite
    (.giveBaton (.ite (.commit h') (.commit h'))) (.ite (.commit h') (.commit h')))))

theorem NextOk.execMpass {ga : BitVec 6} (h : MemsOk s) : NextOk (execMpass ga s) :=
  .withIssue h (fun _ _ h' => .advance (.ite (.commit h') (.ite (.commit h') (.freeBaton (.commit h')))))

/-! ### The matrix engines at work -/

theorem MemsOk.countPass {u r : Nat} (h : MemsOk s) : MemsOk (countPass u r s) := h

theorem MemsOk.performPass {c : MatCmd} (h : MemsOk s) : MemsOk (performPass c s) :=
  .ite h (.foldl (fun _ _ h' => .countPass (.foldl (fun _ _ h'' => h'') h')) h)

theorem MemsOk.performTile {c : MatCmd} (h : MemsOk s) : MemsOk (performTile c s) := by
  unfold Machine.performTile
  refine .foldl (fun _ _ h' => ?_) h
  dsimp only
  split
  · exact .foldl (fun _ _ h' => h') h'
  · exact .foldl (fun _ _ h' => .engWrite h') h'
  · exact .foldl (fun _ _ h' => h') h'
  · exact h'

theorem MemsOk.guideRows {c : MatCmd} {w : Word} (h : MemsOk s) : MemsOk (guideRows c w s).2 :=
  .foldl_snd (fun _ _ h' => .snd_ite h' (.foldl (fun _ _ h'' => h'') h')) h

theorem MemsOk.performGuide {c : MatCmd} {w : Word} (h : MemsOk s) : MemsOk (performGuide c w s).2 :=
  .modGang (.modGang (.snd_ite h (.guideRows h)))

theorem MemsOk.performSel {c : MatCmd} (h : MemsOk s) : MemsOk (performSel c s) :=
  .foldl (fun _ _ h' => .writeOpbuf (.writeOpbuf (.writeOpbuf h'))) h

theorem MemsOk.performSpst {c : MatCmd} {sp : GS} {count bound : Nat} (h : MemsOk s) : MemsOk (performSpst c sp count bound s).2 :=
  .engWrite (.foldl (fun _ _ h' => .engWrite h') h)

theorem MemsOk.modMat {id : Nat} {f : MatCmd → MatCmd} (h : MemsOk s) : MemsOk (modMat id f s) := h

theorem MemsOk.performMat {c : MatCmd} (h : MemsOk s) : MemsOk (performMat c s) := by
  unfold Machine.performMat
  cases c.kind with
  | mgath => exact .modMat h
  | mma => exact .modMat (.performPass h)
  | mmap => exact .modMat (.performPass h)
  | guide => exact .modMat (.performGuide h)
  | mspsel => exact .modMat (.performSel h)
  | spst =>
    dsimp only
    split <;> next e => exact .modMat (.of_eq e (.performSpst h))
  | mzero => exact .modMat (.performTile h)
  | mst => exact .modMat (.performTile h)
  | mld => exact .modMat (.performTile h)

theorem MemsOk.goAlone {id : Nat} {why : Option Alone} (h : MemsOk s) : MemsOk (goAlone id why s) := h

theorem MemsOk.expirePair {c : MatCmd} (h : MemsOk s) : MemsOk (expirePair c s) := h

theorem MemsOk.arriveMmap {c : MatCmd} {t : Nat} (h : MemsOk s) : MemsOk (arriveMmap c t s) := .ite h (.ite h (.ite h (.ite h h)))

theorem MemsOk.checkPair {c : MatCmd} {t : Nat} (h : MemsOk s) : MemsOk (checkPair c t s) := by
  unfold Machine.checkPair
  split
  · exact h
  · exact .ite h h

theorem MemsOk.checkCo {c : MatCmd} (h : MemsOk s) : MemsOk (checkCo c s) := by
  unfold Machine.checkCo
  split
  · exact .ite h (.foldl (fun _ _ h' => h') h)
  · exact h

theorem MemsOk.expireMat {id : Nat} (h : MemsOk s) : MemsOk (expireMat id s) := by
  unfold Machine.expireMat
  split
  · exact h
  · dsimp only
    split
    · exact .ite h h
    · exact .ite h h
    · exact h

theorem MemsOk.tickMat {id : Nat} (h : MemsOk s) : MemsOk (tickMat id s) := by
  unfold Machine.tickMat
  split
  · exact h
  · dsimp only
    split
    · exact .ite h h
    · refine .ite ?_ ?_
      · split
        · exact .arriveMmap (.modMat (.ite h h))
        · exact .modMat (.ite h h)
      · split
        · exact .ite (.checkPair (.ite h h)) (.ite h h)
        · exact .ite (.checkCo (.ite h h)) (.ite h h)
        · exact .ite h h

theorem MemsOk.tickEngines (h : MemsOk s) : MemsOk (tickEngines s) := .foldl (fun _ _ h' => .tickMat h') (.foldl (fun _ _ h' => .expireMat h') h)

theorem MemsOk.poisonEnd {c : MatCmd} {sub : Nat} (h : MemsOk s) : MemsOk (poisonEnd c sub s) := .settledFault h

theorem MemsOk.countMat {c : MatCmd} (h : MemsOk s) : MemsOk (countMat c s) := by
  unfold Machine.countMat
  dsimp only
  split
  · exact .ite (.countDie (.countDie h)) (.ite (.countDie (.countDie h)) (.countDie h))
  · exact .countDie h

theorem MemsOk.countMiss {c : MatCmd} {t : Nat} (h : MemsOk s) : MemsOk (countMiss c t s) := by
  unfold Machine.countMiss
  split <;> exact h

theorem MemsOk.afterSolo {c : MatCmd} (h : MemsOk s) : MemsOk (afterSolo c s) := by
  unfold Machine.afterSolo
  split
  · exact .ite (.ite (.countMiss h) h) h
  · exact h

theorem MemsOk.performGrant {cs : List MatCmd} (h : MemsOk s) : MemsOk (performGrant cs s) :=
  .foldl (fun _ _ h' => .afterSolo (.countMat (.performMat h'))) h

theorem MemsOk.grantMat {c : MatCmd} (h : MemsOk s) : MemsOk (grantMat s c) := by
  unfold Machine.grantMat
  split
  · exact .performGrant (.foldl (fun _ _ h' => h') h)
  · exact .performGrant h

theorem NextOk.execMatrixEngineGrant {cl : Nat} (h : MemsOk s) : NextOk (execMatrixEngineGrant cl s) := by
  unfold Machine.execMatrixEngineGrant
  dsimp only
  split
  · exact .next (.performGrant (.tickEngines h))
  · refine .ite (.next (.tickEngines h)) ?_
    split
    · exact .next (.tickEngines h)
    · split
      · exact .next (.poisonEnd (.tickEngines h))
      · exact .next (.grantMat (.tickEngines h))

theorem NextOk.execPairWaitExpiry {id : Nat} (h : MemsOk s) : NextOk (execPairWaitExpiry id s) := by
  unfold Machine.execPairWaitExpiry
  dsimp only
  split
  · exact .next (.tickEngines h)
  · split
    · exact .ite (.next (.tickEngines h)) (.next (.expirePair (.tickEngines h)))
    · exact .next (.tickEngines h)

theorem NextOk.execCooperativeMatchTimeout {id : Nat} (h : MemsOk s) : NextOk (execCooperativeMatchTimeout id s) := by
  unfold Machine.execCooperativeMatchTimeout
  dsimp only
  split
  · exact .next (.tickEngines h)
  · split
    · exact .ite (.next (.tickEngines h)) (.next (.goAlone (.tickEngines h)))
    · exact .next (.tickEngines h)

theorem MemsOk.wakeCmd {c : MatCmd} {v : Nat} (h : MemsOk s) : MemsOk (wakeCmd c v s) := .modThreads h

theorem MemsOk.stopSpst {c : MatCmd} (h : MemsOk s) : MemsOk (stopSpst c s) := by
  unfold Machine.stopSpst
  split
  · exact h
  · exact .modThreads (.raiseFault h)

theorem MemsOk.partnerGone {c : MatCmd} {t : Nat} (h : MemsOk s) : MemsOk (partnerGone c t s) := by
  unfold Machine.partnerGone
  split <;> exact h

theorem MemsOk.finishMat {c : MatCmd} (h : MemsOk s) : MemsOk (finishMat c s) := by
  unfold Machine.finishMat
  refine .ite (.stopSpst h) ?_
  split
  · exact h
  · exact .ite (.partnerGone h) h
  · exact .ite (.wakeCmd (.performGuide h)) (.wakeCmd h)
  · exact .wakeCmd h

theorem NextOk.execMatrixCommandComplete {id : Nat} (h : MemsOk s) : NextOk (execMatrixCommandComplete id s) := by
  unfold Machine.execMatrixCommandComplete
  dsimp only
  split
  · exact .next (.tickEngines h)
  · exact .ite (.next (.tickEngines (.finishMat (.tickEngines h)))) (.next (.tickEngines h))

theorem MemsOk.resolveCopy {c : CopyCmd} (h : MemsOk s) : MemsOk (resolveCopy c s) := .ite (.writeTokens h) h

theorem MemsOk.resolveMat {c : MatCmd} (h : MemsOk s) : MemsOk (resolveMat c s) := by
  unfold Machine.resolveMat
  refine .ite ?_ h
  dsimp only
  split
  · exact .partnerGone h
  · exact h

theorem NextOk.execGuardedCommandResolution {id : Nat} (h : MemsOk s) : NextOk (execGuardedCommandResolution id s) := by
  unfold Machine.execGuardedCommandResolution
  split
  · exact .ite (.next (.resolveCopy h)) (.next h)
  · split
    · exact .ite (.next (.tickEngines (.resolveMat h))) (.next h)
    · exact .next h

/-! ### Special registers and the register allocation -/

theorem NextOk.execGets {u : Bool} {x : SReg} {d : Opnd} (h : MemsOk s) : NextOk (execGets u x d s) :=
  .withIssue h (fun _ _ h' => .ite (.advance (.deliverUniform (.ite (.commit h') h'))) (.advance (.deliver h')))

theorem NextOk.execSets {x : SReg} {a : Opnd} (h : MemsOk s) : NextOk (execSets x a s) := by
  unfold Machine.execSets
  refine .withIssue h (fun _ _ h' => .advance ?_)
  split
  · exact .modGang (.commit h')
  · exact .modGang (.commit h')
  · exact .commit h'

theorem NextOk.execRole {r : Role} (h : MemsOk s) : NextOk (execRole r s) := .withIssue h (fun _ _ h' => .advance (.modGang (.commit h')))

theorem MemsOk.countDenial {u : Nat} (h : MemsOk s) : MemsOk (countDenial u s) := .countCore h

theorem NextOk.execGrow {n8 : BitVec 6} {d : Opnd} (h : MemsOk s) : NextOk (execGrow n8 d s) := by
  unfold Machine.execGrow
  refine .withIssue h (fun _ _ h' => ?_)
  dsimp only
  split
  · exact h'
  · exact .advance (.deliver h')
  · exact .ite (.advance (.deliver (.commit h'))) (.ite (.advance (.deliver (.countDenial (.commit h')))) (.block (.commit h')))

theorem NextOk.execShrink {n8 : BitVec 6} (h : MemsOk s) : NextOk (execShrink n8 s) :=
  .withIssue h (fun _ _ h' => .advance (.foldl (fun _ _ h'' => .ite h'' h'') (.commit h')))

/-! ### Events of a core -/

theorem MemsOk.answerGrow {r : GrowReq} {ok : Bool} (h : MemsOk s) : MemsOk (answerGrow r ok s) :=
  .foldl (fun _ _ h' => .modThread (.ite h' h')) h

theorem MemsOk.grantGrows {core n : Nat} (h : MemsOk s) : MemsOk (grantGrows core n s) := by
  induction n generalizing s with
  | zero => exact h
  | succ n ih =>
    unfold Machine.grantGrows
    split
    · exact h
    · exact .ite (ih (.answerGrow h)) h

theorem NextOk.execGrowStuckDenial {core : Nat} (h : MemsOk s) : NextOk (execGrowStuckDenial core s) := by
  unfold Machine.execGrowStuckDenial
  refine .ite ?_ (.next h)
  split
  · exact .next h
  · exact .next (.foldl (fun _ _ h' => .answerGrow (.countDenial h')) h)

theorem NextOk.execWaitmonTimerExpiry {t : ThreadId} (h : MemsOk s) : NextOk (execWaitmonTimerExpiry t s) := by
  unfold Machine.execWaitmonTimerExpiry
  split <;> exact .next h

theorem NextOk.execSluiceRelease {u : Nat} (h : MemsOk s) : NextOk (execSluiceRelease u s) :=
  .ite (.next (.checkLaunch (.foldl (fun _ _ h' => .applyStaged h') h))) (.next h)

theorem NextOk.execAccessPerformed {core k : Nat} (h : MemsOk s) : NextOk (execAccessPerformed core k s) := by
  unfold Machine.execAccessPerformed
  split
  · exact .next h
  · exact .ite (.next (.performEntry h)) (.next h)

/-! ### Saving units and bringing them back -/

theorem MemsOk.giveBack {c : MatCmd} (h : MemsOk s) : MemsOk (giveBack c s) := by
  unfold Machine.giveBack
  split <;> exact h

theorem MemsOk.recordMats {u : Nat} (h : MemsOk s) : MemsOk (recordMats u s) := .foldl (fun _ _ h' => .giveBack h') h

theorem MemsOk.stopEngines {u : Nat} (h : MemsOk s) : MemsOk (stopEngines u s) := .recordMats (.foldl (fun _ _ h' => .finishMat h') h)

theorem MemsOk.disarm {u : Nat} (h : MemsOk s) : MemsOk (disarm u s) := h

theorem MemsOk.freeBatons {u : Nat} (h : MemsOk s) : MemsOk (freeBatons u s) := .dropBatons (.foldl (fun _ _ h' => h') h)

theorem MemsOk.beginSave {u : Nat} (h : MemsOk s) : MemsOk (beginSave u s) :=
  .ite h (.freeBatons (.disarm (.stopEngines (.foldl (fun _ _ h' => .ite (.abandon h') h') (.foldl (fun _ _ h' => .foldl (fun _ _ h'' =>
    .releaseRecord h'') h') h)))))

theorem MemsOk.saveUnit {u : Nat} (h : MemsOk s) : MemsOk (saveUnit u s) := by
  unfold Machine.saveUnit
  extract_lets un s1 s2
  have h2 : MemsOk s2 := .discardL1 (.drainCtx (.disarm (.stopEngines h)))
  clear_value s2
  exact h2

theorem MemsOk.unpark {id : Nat} (h : MemsOk s) : MemsOk (unpark id s) := h

theorem MemsOk.replayRecord {r : FRec} (h : MemsOk s) : MemsOk (replayRecord r s) := .foldl (fun _ _ h' => h') h

theorem MemsOk.partAnswered {rs : List FRec} (h : MemsOk s) : MemsOk (partAnswered rs s) := .foldl (fun _ _ h' => .updateJoined h') h

theorem MemsOk.faultHelper {r : FRec} (h : MemsOk s) : MemsOk (faultHelper r s) := by
  unfold Machine.faultHelper
  split
  · exact h
  · exact .leaveHelper (.foldl (fun _ _ h' => h') h)

theorem MemsOk.cancelRecord {r : FRec} (h : MemsOk s) : MemsOk (cancelRecord r s) := .ite (.faultHelper h) (.ite (.finishUnit h) (.endUnit h))

theorem MemsOk.applyAnswers {u : Nat} (h : MemsOk s) : MemsOk (applyAnswers u s) :=
  .partAnswered (.foldl (fun _ _ h' => .ite (.replayRecord h') (.cancelRecord h')) h)

theorem MemsOk.restoreRanges {u cl : Nat} (h : MemsOk s) : MemsOk (restoreRanges u cl s) := .modUnit (.foldl (fun _ _ h' => .writeOpbuf h') h)

theorem MemsOk.reclaim {u cl : Nat} (h : MemsOk s) : MemsOk (reclaim u cl s) := .foldl (fun _ _ h' => .ite (.ite (.giveBaton h') h') h') h

theorem MemsOk.restoreUnit {u core : Nat} {slots : List Nat} (h : MemsOk s) : MemsOk (restoreUnit u core slots s) :=
  .applyAnswers (.reclaim (.restoreRanges h))

theorem MemsOk.writeSaveArea {ctx : Nat} (h : MemsOk s) : MemsOk (writeSaveArea ctx s) := by
  unfold Machine.writeSaveArea
  extract_lets us base first put blocks s1
  have h1 : MemsOk s1 := .homeWrite (.homeWrite h)
  clear_value s1
  exact h1

/-! ### Graphs, launches and dispatch -/

theorem NextOk.execGload {ctx : Nat} {v : DWord} (h : MemsOk s) : NextOk (execGload ctx v s) := .hostDoes h (.ite (.next h) (.next h))

theorem NextOk.execGraphLoadComplete {ctx : Nat} (h : MemsOk s) : NextOk (execGraphLoadComplete ctx s) := by
  unfold Machine.execGraphLoadComplete
  split
  · exact .next h
  · refine .next ?_
    split <;> exact h

theorem NextOk.execTrigger {ctx : Nat} {v : DWord} (h : MemsOk s) : NextOk (execTrigger ctx v s) := by
  unfold Machine.execTrigger
  refine .hostDoes h ?_
  dsimp only
  split <;> exact .next h

theorem MemsOk.openLaunches {ctx gid seq i : Nat} {ds : List (BitVec 1024)} (h : MemsOk s) :
    MemsOk (openLaunches ctx gid seq i ds s) := by
  induction ds generalizing i s with
  | nil => exact h
  | cons d ds ih => exact ih h

theorem MemsOk.failBad {ctx gid seq : Nat} {bad : List Nat} (h : MemsOk s) : MemsOk (failBad ctx gid seq bad s) :=
  .foldl (fun _ _ h' => .finishLaunch h') h

theorem NextOk.execTriggerBegin {ctx gid : Nat} (h : MemsOk s) : NextOk (execTriggerBegin ctx gid s) := by
  unfold Machine.execTriggerBegin
  split
  · exact .ite (.next h) (.next (.failBad (.openLaunches h)))
  · exact .next h

theorem MemsOk.modLaunch {lid : Nat} {f : Launch → Launch} (h : MemsOk s) : MemsOk (modLaunch lid f s) := by
  unfold Machine.modLaunch
  split <;> exact h

theorem MemsOk.fillRecord {lid va epa : Nat} (h : MemsOk s) : MemsOk (fillRecord lid va epa s) := by
  unfold Machine.fillRecord
  split
  · exact h
  · exact .raiseRecord h

theorem MemsOk.loadQmap {ctx : Nat} {qs : List (Nat × QMap × List QWord)} (h : MemsOk s) : MemsOk (loadQmap ctx qs s) :=
  .foldl (fun _ _ h' => h') h

theorem MemsOk.startTable {l : Launch} (h : MemsOk s) : MemsOk (startTable l s).2 := by
  unfold Machine.startTable
  refine .snd_ite h ?_
  split <;> exact h

theorem MemsOk.startQueues {l : Launch} (h : MemsOk s) : MemsOk (startQueues l s).2 := by
  unfold Machine.startQueues
  refine .snd_ite h ?_
  split
  · exact h
  · exact .loadQmap h

theorem MemsOk.startLaunch {lid : Nat} {l : Launch} (h : MemsOk s) : MemsOk (startLaunch lid l s) := by
  unfold Machine.startLaunch
  split
  next e => exact .finishLaunch (.of_eq e (.startTable h))
  next e =>
    have h1 := MemsOk.of_eq e (.startTable h)
    split
    next e' => exact .finishLaunch (.of_eq e' (.startQueues h1))
    next e' =>
      have h2 := MemsOk.of_eq e' (.startQueues h1)
      exact .modLaunch h2

theorem NextOk.execLaunchStart {gid node : Nat} (h : MemsOk s) : NextOk (execLaunchStart gid node s) := by
  unfold Machine.execLaunchStart
  split
  · exact .next h
  · refine .ite (.next h) ?_
    split
    · dsimp only
      split
      · exact .next (.finishLaunch (.writeCompl h))
      · refine .next (.ite (.startLaunch (.foldl (fun _ _ h' => ?_) (.modLaunch (.writeCompl h)))) (.foldl (fun _ _ h' => ?_) (.modLaunch
            (.writeCompl h))))
        · split
          · exact h'
          · exact .fillRecord h'
        · split
          · exact h'
          · exact .fillRecord h'
    · exact .next (.ite (.startLaunch h) h)
    · exact .next h

theorem MemsOk.placeStacks {c : Ctx} {d : BitVec 1024} {n : Nat} {used : List (Nat × Nat)} (h : MemsOk s) :
    MemsOk (placeStacks c d n used s).2 := by
  induction n generalizing used s with
  | zero => exact h
  | succ k ih =>
    unfold Machine.placeStacks
    cases placeStack c d used s with
    | none => exact h
    | some p => exact ih h

theorem MemsOk.unitPlaces {l : Launch} (h : MemsOk s) : MemsOk (unitPlaces l s).2 := .placeStacks h

theorem MemsOk.startGangs {u : Nat} {l : Launch} (h : MemsOk s) : MemsOk (startGangs u l s) :=
  .foldl (fun _ _ h' => .foldl (fun _ _ h'' => .foldl (fun _ _ h3 => h3) h'') (.foldl (fun _ _ h'' => h'') h')) h

theorem MemsOk.dispatchAt {lid idx core : Nat} {l : Launch} {places : List (Nat × Nat)} (h : MemsOk s) :
    MemsOk (dispatchAt lid idx core l places s) :=
  .startGangs (.modLaunch h)

/-- `unfold` has the kernel evaluate the places that the unit is given; the body is exposed as a function instead. -/
theorem MemsOk.dispatchNew {lid idx core : Nat} {l : Launch} (h : MemsOk s) : MemsOk (dispatchNew lid idx core l s) := by
  have hr : MemsOk (Machine.unitPlaces l s).2 := .unitPlaces h
  have body : Machine.dispatchNew = Machine.dispatchNew := rfl
  conv at body => rhs; delta Machine.dispatchNew
  rw [body]
  dsimp only
  generalize Machine.unitPlaces l s = r at hr ⊢
  split
  · exact h
  · exact .dispatchAt hr

theorem MemsOk.dispatchUnit {lid idx core : Nat} {l : Launch} (h : MemsOk s) : MemsOk (dispatchUnit lid idx core l s) := by
  unfold Machine.dispatchUnit
  dsimp only
  split
  · exact .restoreUnit (.modLaunch h)
  · exact .dispatchNew (.modLaunch h)

theorem NextOk.execUnitDispatch {lid idx core : Nat} (h : MemsOk s) : NextOk (execUnitDispatch lid idx core s) := by
  unfold Machine.execUnitDispatch
  split
  · exact .next h
  · exact .ite (.next (.dispatchUnit h)) (.next h)

theorem MemsOk.finishSaves (h : MemsOk s) : MemsOk (finishSaves s) := .foldl (fun _ _ h' => .ite (.writeSaveArea (.saveUnit h')) h') h

theorem MemsOk.cancelResident {u : Nat} (h : MemsOk s) : MemsOk (cancelResident u s) := by
  unfold Machine.cancelResident
  split
  · exact .finishUnit h
  · exact .endUnit h

theorem MemsOk.cancelIndex {lid idx : Nat} (h : MemsOk s) : MemsOk (cancelIndex lid idx s) := by
  unfold Machine.cancelIndex
  split
  · exact h
  · refine .ite h ?_
    split
    · exact .cancelResident h
    · exact .countUnit (.modLaunch h)

theorem MemsOk.failFill {lid : Nat} (h : MemsOk s) : MemsOk (failFill lid s) := .finishLaunch h

theorem MemsOk.cancelLaunchAt {lid : Nat} (h : MemsOk s) : MemsOk (cancelLaunchAt lid s) := by
  unfold Machine.cancelLaunchAt
  split
  · exact h
  · exact .ite h (.checkLaunch (.foldl (fun _ _ h' => .cancelIndex h') (.modLaunch h)))

theorem NextOk.execCancelUnit {ctx : Nat} {v : DWord} (h : MemsOk s) : NextOk (execCancelUnit ctx v s) := by
  unfold Machine.execCancelUnit
  refine .hostDoes h ?_
  split
  · exact .next h
  · exact .ite (.next (.cancelIndex h)) (.next h)

theorem NextOk.execCancelLaunch {ctx : Nat} {v : DWord} (h : MemsOk s) : NextOk (execCancelLaunch ctx v s) := by
  unfold Machine.execCancelLaunch
  refine .hostDoes h ?_
  split
  · exact .next h
  · exact .ite (.next (.cancelLaunchAt h)) (.next h)

theorem MemsOk.cancelTrigger {t : Trig} (h : MemsOk s) : MemsOk (cancelTrigger t s) := .ite (.foldl (fun _ _ h' => .cancelLaunchAt h') h) h

theorem MemsOk.cancelTriggers {p : Trig → Bool} (h : MemsOk s) : MemsOk (cancelTriggers p s) := .foldl (fun _ _ h' => .cancelTrigger h') h

theorem NextOk.execCancelGraph {ctx : Nat} {v : DWord} (h : MemsOk s) : NextOk (execCancelGraph ctx v s) :=
  .hostDoes h (.next (.cancelTriggers h))

theorem NextOk.execCancelPhase {ctx : Nat} {v : DWord} (h : MemsOk s) : NextOk (execCancelPhase ctx v s) :=
  .hostDoes h (.next (.cancelTriggers h))

theorem NextOk.execCancelJob {ctx : Nat} {v : DWord} (h : MemsOk s) : NextOk (execCancelJob ctx v s) := .hostDoes h (.next (.cancelTriggers h))

theorem NextOk.execWatchdogExpiry {u : Nat} (h : MemsOk s) : NextOk (execWatchdogExpiry u s) :=
  .ite (.next (.endUnit (.foldl (fun _ _ h' => h') h))) (.next h)

/-! ### Contexts, pages and uncorrectable errors -/

theorem MemsOk.doPreempt {ctx : Nat} (h : MemsOk s) : MemsOk (doPreempt ctx s) := .ite (.foldl (fun _ _ h' => .beginSave h') h) h

theorem MemsOk.doResume {ctx : Nat} (h : MemsOk s) : MemsOk (doResume ctx s) := by
  unfold Machine.doResume
  split <;> exact h

theorem MemsOk.ctxCommand {ctx op : Nat} (h : MemsOk s) : MemsOk (ctxCommand ctx op s) := by
  unfold Machine.ctxCommand
  split
  · exact .doPreempt h
  · exact .doResume h
  · exact h
  · exact h

theorem MemsOk.writeCtxcmd {ctx op : Nat} (h : MemsOk s) : MemsOk (writeCtxcmd ctx op s) := .ite h (.ctxCommand h)

theorem NextOk.execPreemptSaveComplete {ctx : Nat} (h : MemsOk s) : NextOk (execPreemptSaveComplete ctx s) :=
  .ite (.next (.ite (.doResume (.modCtx (.writeSaveArea (.foldl (fun _ _ h' => .saveUnit h') h)))) (.modCtx (.writeSaveArea (.foldl (fun _ _ h' =>
    .saveUnit h') h))))) (.next h)

theorem MemsOk.runCmdq {ctx : Nat} {ops : List Nat} (h : MemsOk s) : MemsOk (runCmdq ctx ops s) := by
  induction ops generalizing s with
  | nil => exact h
  | cons op ops ih => exact .ite (.modCtx h) (ih (.ctxCommand h))

theorem MemsOk.writeEntry {pa e : Nat} (h : MemsOk s) : MemsOk (writeEntry pa e s) := .homeWrite h

theorem MemsOk.zeroFrame {pa : Nat} (h : MemsOk s) : MemsOk (zeroFrame pa s) := by
  unfold Machine.zeroFrame
  extract_lets s1
  have h1 : MemsOk s1 := .homeWrite h
  clear_value s1
  exact h1

theorem MemsOk.growTable {pa attrs : Nat} (h : MemsOk s) : MemsOk (growTable pa attrs s) := .foldl (fun _ _ h' => .writeEntry h') (.zeroFrame h)

theorem MemsOk.growFrom {va attrs epa level : Nat} {fs : List Nat} (h : MemsOk s) : MemsOk (growFrom va attrs epa level fs s) := by
  induction fs generalizing epa level s with
  | nil => unfold Machine.growFrom; exact h
  | cons f fs ih =>
    cases fs with
    | nil => unfold Machine.growFrom; exact .writeEntry (.zeroFrame h)
    | cons g gs => unfold Machine.growFrom; exact ih (.writeEntry (.growTable h))

theorem NextOk.execFirmwarePageGrow {id : Nat} (h : MemsOk s) : NextOk (execFirmwarePageGrow id s) := by
  unfold Machine.execFirmwarePageGrow
  split
  · exact .next h
  · split
    · exact .next h
    · refine .ite (.next h) ?_
      split
      · dsimp only
        split
        · exact .next (.raiseFault h)
        · exact .next (.raiseFault (.unpark (.growFrom h)))
      · exact .next h

theorem MemsOk.refill {r : FRec} {p : Park} (h : MemsOk s) : MemsOk (refill r p s) := by
  unfold Machine.refill
  dsimp only
  split
  · exact h
  · exact .fillRecord h

theorem MemsOk.replayOne {r : FRec} (h : MemsOk s) : MemsOk (replayOne r s) := by
  unfold Machine.replayOne
  split
  · exact .refill h
  · exact .ite h (.replayRecord h)

theorem NextOk.execFcmdReplay {ctx : Nat} {v : DWord} (h : MemsOk s) : NextOk (execFcmdReplay ctx v s) := by
  unfold Machine.execFcmdReplay
  refine .hostDoes h ?_
  dsimp only
  split
  · exact .next h
  · exact .next (.modCtx (.partAnswered (.foldl (fun _ _ h' => .replayOne h') h)))

theorem NextOk.execFcmdCancel {ctx : Nat} {v : DWord} (h : MemsOk s) : NextOk (execFcmdCancel ctx v s) := by
  unfold Machine.execFcmdCancel
  refine .hostDoes h ?_
  dsimp only
  split
  · exact .next h
  · split
    · exact .next (.failFill h)
    · exact .next (.ite h (.cancelRecord h))

theorem NextOk.execFcmdInvalid {ctx : Nat} {v : DWord} (h : MemsOk s) : NextOk (execFcmdInvalid ctx v s) := .hostDoes h (.next h)

theorem NextOk.execFqtailWrite {ctx : Nat} {v : DWord} (h : MemsOk s) : NextOk (execFqtailWrite ctx v s) := .hostDoes h (.next (.flushRing h))

theorem NextOk.execSoftErrorCorrectable {t : SoftTarget} (h : MemsOk s) : NextOk (execSoftErrorCorrectable t s) := by
  unfold Machine.execSoftErrorCorrectable
  refine .next ?_
  split
  · exact .countCore h
  · exact .countDie h

theorem MemsOk.traceError {t : ThreadId} (h : MemsOk s) : MemsOk (traceError t s) := by
  unfold Machine.traceError
  dsimp only
  split
  · exact .ite (.fatal h) (.abandon h)
  · exact h

theorem MemsOk.hardError {t : SoftTarget} (h : MemsOk s) : MemsOk (hardError t s) := by
  unfold Machine.hardError
  cases t with
  | mainReg | gangReg | l1Clean | scratchWord | opbufGranule | l2Clean | memSector | tlbEntry | tlbCluster => exact h
  | traceState => exact .traceError h
  | l1Written => exact .discardL1 (.drainOverlap h)
  | accElement => exact .foldl (fun _ _ h' => .ite h' h') h
  | control =>
    dsimp only
    split
    · exact h
    · exact .fatal h
  | schedMem gid node =>
    dsimp -zeta only
    extract_lets s1
    have h1 : MemsOk s1 := by
      dsimp only [s1]
      split <;> exact h
    split
    · exact h1
    · exact .cancelLaunchAt h1

/-! ### The device in a fleet -/

theorem MemsOk.modLink {l : Nat} {f : Link → Link} (h : MemsOk s) : MemsOk (modLink l f s) := h

theorem MemsOk.noteHealth {before : State} (h : MemsOk s) : MemsOk (noteHealth before s) := .ite h h

theorem MemsOk.degrade (h : MemsOk s) : MemsOk (degrade s) := h

theorem MemsOk.endResident {reach : Bool} (h : MemsOk s) : MemsOk (endResident reach s) :=
  .foldl (fun _ _ h' => .ite (.cancelResident h') (.ite (.cancelResident h') h')) h

theorem MemsOk.enterFailed {reach : Bool} (h : MemsOk s) : MemsOk (enterFailed reach s) := .ite h (.noteHealth (.endResident h))

theorem MemsOk.checkDies (h : MemsOk s) : MemsOk (checkDies s) := .ite (.enterFailed h) h

theorem MemsOk.writeEn {l : Nat} {on : Bool} (h : MemsOk s) : MemsOk (writeEn l on s) := .ite h (.noteHealth h)

theorem MemsOk.retrain {l : Nat} (h : MemsOk s) : MemsOk (retrain l s) := .ite h (.noteHealth h)

theorem MemsOk.agentDoes {l : Nat} {op : RemoteOp} (h : MemsOk s) : MemsOk (agentDoes l op s) := by
  unfold Machine.agentDoes
  split
  · exact h
  · exact .countDie (.homeWrite h)
  · exact .countDie h
  · exact .linkAnswer h

theorem MemsOk.receiveFlit {l : Nat} {f : Flit} {op : RemoteOp} (h : MemsOk s) : MemsOk (receiveFlit l f op s) := .ite (.ite (.agentDoes h) h) h

theorem MemsOk.emptyFlit {l : Nat} {ty : BitVec 8} (h : MemsOk s) : MemsOk (emptyFlit l ty s).2 := h

theorem MemsOk.dataReady {l : Nat} (h : MemsOk s) : MemsOk (dataReady l s).2 := by
  unfold Machine.dataReady
  split
  · exact h
  · exact .snd_ite h h

theorem MemsOk.sendData {l ctx : Nat} (h : MemsOk s) : MemsOk (sendData l ctx s).2 := .countDie h

theorem MemsOk.sendFlit {l : Nat} (h : MemsOk s) : MemsOk (sendFlit l s).2 := by
  unfold Machine.sendFlit
  refine .snd_ite h ?_
  split
  · exact .countDie h
  · refine .snd_ite h ?_
    split
    next e => exact .sendData (.of_eq e (.dataReady h))
    next e => exact .emptyFlit (.of_eq e (.dataReady h))

theorem MemsOk.sendFlits {l n : Nat} (h : MemsOk s) : MemsOk (sendFlits l n s).2 := by
  induction n generalizing s with
  | zero => exact h
  | succ n ih => exact ih (.sendFlit h)

theorem NextOk.execCarrBlockTransmit {l : Nat} (h : MemsOk s) : NextOk (execCarrBlockTransmit l s) := by
  unfold Machine.execCarrBlockTransmit
  dsimp only
  exact .next (.ite (.modLink (.sendFlits h)) h)

theorem NextOk.execHealthcmdAck {v : DWord} (h : MemsOk s) : NextOk (execHealthcmdAck v s) := by
  unfold Machine.execHealthcmdAck
  refine .hostDoes h (.next ?_)
  split
  · exact h
  · exact .ite (.noteHealth h) h

theorem NextOk.execCoreFence {core : Nat} (h : MemsOk s) : NextOk (execCoreFence core s) :=
  .next (.ite (.foldl (fun _ _ h' => .beginSave h') h) h)

theorem MemsOk.finishFences (h : MemsOk s) : MemsOk (finishFences s) := .foldl (fun _ _ h' => .ite (.checkDies (.noteHealth h')) h') h

theorem MemsOk.answer {m : Msg} (h : MemsOk s) : MemsOk (answer m s) := h

theorem NextOk.execRedfishRequest {r : Redfish} (h : MemsOk s) : NextOk (execRedfishRequest r s) := by
  unfold Machine.execRedfishRequest
  refine .next ?_
  split
  · exact h
  · exact h
  · exact .ite h h
  · exact .ite (.answer (.writeEn h)) h
  · exact .ite (.answer (.retrain h)) h
  · exact h
  · exact h

/-! ### Registers that the host writes -/

theorem MemsOk.writeCtxBlock {ctx off : Nat} {v : DWord} (h : MemsOk s) : MemsOk (writeCtxBlock ctx off v s) := by
  unfold Machine.writeCtxBlock
  dsimp only
  split
  · exact .ite h h
  · exact .ite h h
  · exact .ite h h
  · exact .writeCtxcmd h
  · exact h
  · exact h
  · exact h
  · exact h
  · exact h
  · exact .ite h h
  · exact .ite h h
  · exact h

theorem NextOk.writePf {r : PfReg} {v : DWord} (h : MemsOk s) : NextOk (writePf r v s) := by
  unfold Machine.writePf
  split
  · exact .execHealthcmdAck h
  · exact .next (.ite (.retrain (.ite h (.writeEn h))) (.ite h (.writeEn h)))
  · exact .next h
  · exact .next (.writeCtxBlock h)
  · exact .next h
  · exact .next h
  · exact .next h
  · exact .next h

theorem NextOk.writeCancel {ctx : Nat} {v : DWord} (h : MemsOk s) : NextOk (writeCancel ctx v s) := by
  unfold Machine.writeCancel
  split
  · exact .execCancelUnit h
  · exact .execCancelLaunch h
  · exact .execCancelGraph h
  · exact .execCancelPhase h
  · exact .execCancelJob h
  · exact .next h

theorem NextOk.writeDoorbell {ctx off : Nat} {v : DWord} (h : MemsOk s) : NextOk (writeDoorbell ctx off v s) := by
  unfold Machine.writeDoorbell
  split
  · exact .execTrigger h
  · exact .next h
  · exact .execGload h
  · exact .next h
  · exact .writeCancel h
  · exact .next h
  · exact .next h

theorem NextOk.writeFcmd {ctx : Nat} {v : DWord} (h : MemsOk s) : NextOk (writeFcmd ctx v s) := by
  unfold Machine.writeFcmd
  split
  · exact .execFcmdReplay h
  · exact .execFcmdCancel h
  · exact .execFcmdInvalid h

theorem NextOk.writeFaultPage {ctx off : Nat} {v : DWord} (h : MemsOk s) : NextOk (writeFaultPage ctx off v s) := by
  unfold Machine.writeFaultPage
  split
  · exact .next h
  · exact .next (.flushRing h)
  · exact .execFqtailWrite h
  · exact .next (.ite h h)
  · exact .writeFcmd h
  · exact .next (.ite h h)
  · exact .next h

theorem NextOk.execRegisterWrite {a : RegAddr} {v : DWord} (h : MemsOk s) : NextOk (execRegisterWrite a v s) := by
  unfold Machine.execRegisterWrite
  refine .hostDoes h ?_
  split
  · split
    · exact .writePf h
    · exact .next h
  · exact .ite (.writeDoorbell h) (.next h)
  · exact .ite (.writeFaultPage h) (.next h)
  · exact .next (.ite h h)

/-! ### Resets and the boot -/

theorem MemsOk.reset : MemsOk State.reset := rfl

theorem MemsOk.packageReset : MemsOk (packageReset s) := MemsOk.reset

theorem MemsOk.bootFails {stage : Nat} (h : MemsOk s) : MemsOk (bootFails stage s) := .answer (.enterFailed h)

theorem MemsOk.measured {i : Nat} {d : List Byte} (h : MemsOk s) : MemsOk (measured i d s) := h

theorem MemsOk.blowFuse {c : FuseCmd} (h : MemsOk s) : MemsOk (blowFuse s c) := by
  unfold Machine.blowFuse
  refine .ite h ?_
  split <;> exact h

theorem MemsOk.applyFuses {cs : List FuseCmd} (h : MemsOk s) : MemsOk (applyFuses cs s) := .measured (.foldl (fun _ _ h' => .blowFuse h') h)

theorem MemsOk.bootOn {imgs : BootImages} {bad : List Nat} (h : MemsOk s) : MemsOk (bootOn imgs bad s) := by
  unfold Machine.bootOn
  split
  · exact .bootFails h
  · exact .ite (.bootFails h) (.ite (.bootFails h) (.checkDies (.noteHealth h)))

theorem NextOk.execBoot {imgs : BootImages} {bad : List Nat} : NextOk (execBoot imgs bad s) := by
  unfold Machine.execBoot
  extract_lets p s0 on
  have h0 : MemsOk s0 := MemsOk.reset
  have hon : ∀ {i}, MemsOk (on i) := .bootOn (.applyFuses h0)
  exact .next (.ite hon (.ite hon (.bootFails h0)))

theorem NextOk.execGetMeasurements {q : MeasureReq} (h : MemsOk s) : NextOk (execGetMeasurements q s) := by
  unfold Machine.execGetMeasurements
  refine .next ?_
  split <;> exact h

/-! ### Fibres -/

theorem NextOk.execFopen {k : BitVec 3} {cw : CWidth} {vw : VWidth} {a b c : Opnd} (h : MemsOk s) : NextOk (execFopen k cw vw a b c s) :=
  .withIssue h (fun _ _ h' => .advance (.foldl (fun _ _ h'' => h'') h'))

theorem NextOk.execFclose {k : BitVec 3} (h : MemsOk s) : NextOk (execFclose k s) :=
  .withIssue h (fun _ _ h' => .advance (.foldl (fun _ _ h'' => h'') h'))

theorem NextOk.execFtest {k : BitVec 3} {d : Opnd} (h : MemsOk s) : NextOk (execFtest k d s) :=
  .withIssue h (fun _ _ h' => .advance (.deliver (.foldl (fun _ _ h'' => h'') h')))

theorem MemsOk.nextOf {r : LaneRef} {k : Nat} {hint : Hint} {wa : Nat} (h : MemsOk s) : MemsOk (nextOf r k hint wa s).2.2 := by
  unfold Machine.nextOf
  extract_lets f s0 rd
  have hrd : ∀ {p w t}, MemsOk t → MemsOk (rd p w t).2 := by
    intro p w t ht
    dsimp only [rd]
    split
    next e => exact .of_eq e (.loadElem ht)
    next e => exact .holdFault (.of_eq e (.loadElem ht))
  have h0 : MemsOk s0 := h
  exact .snd₂_ite h (hrd (hrd h0))

theorem NextOk.execFnext {k : BitVec 3} {dbl : Bool} {hint : Hint} {d c : Opnd} (h : MemsOk s) : NextOk (execFnext k dbl hint d c s) :=
  .withIssue h (fun _ _ h' => .advance (.deliver (.deliver (.foldl_snd (fun _ _ h'' => .nextOf h'') h'))))

/-! ### Floating-point instructions -/

theorem NextOk.unary32 {f : Val → Val} {ftz : Bool} {d a : Opnd} (h : MemsOk s) : NextOk (unary32 f ftz d a s) := .compute1 h

theorem NextOk.unary64 {f : Val → Val} {ftz : Bool} {d a : Opnd} (h : MemsOk s) : NextOk (unary64 f ftz d a s) := .compute1 h

/-! ### Helpers -/

theorem MemsOk.startHelpers {u g rid trace hg j : Nat} {ls : List (Nat × Nat)} (h : MemsOk s) : MemsOk (startHelpers u g rid trace hg j ls s) :=
  .foldl (fun _ _ h' => h') h

theorem MemsOk.openRecord {iss : Issue} {r : LaneRef} {rid n w k trace : Nat} {taken : List (Nat × Nat)} (h : MemsOk s) :
    MemsOk (openRecord iss r rid n w k trace taken s) :=
  .foldl (fun _ _ h' => .startHelpers h') h

theorem NextOk.execRecruit {d : Opnd} {w : BitVec 5} {k1 : BitVec 3} {n : BitVec 7} {off : BitVec 32} (h : MemsOk s) :
    NextOk (execRecruit d w k1 n off s) := by
  unfold Machine.execRecruit
  refine .withIssue h (fun _ _ h' => ?_)
  dsimp only
  split
  · exact .ite (.advance (.deliver (.commit h'))) (.advance (.deliver (.countCore (.openRecord (.commit h')))))
  · exact .advance (.deliver (.commit h'))

theorem NextOk.execHread {d : Opnd} {i : BitVec 7} (h : MemsOk s) : NextOk (execHread d i s) :=
  .withIssue h (fun _ _ h' => .advance (.deliver h'))

theorem MemsOk.modMyHelper {r : LaneRef} {f : Helper → Helper} (h : MemsOk s) : MemsOk (modMyHelper r f s) := by
  unfold Machine.modMyHelper
  refine .ite ?_ h
  split
  · exact h
  · split <;> exact h

theorem NextOk.execHret {op : AluOp} {a : Opnd} (h : MemsOk s) : NextOk (execHret op a s) :=
  .withIssue h (fun _ _ h' => .advance (.foldl (fun _ _ h'' => .modMyHelper h'') (.commit h')))

theorem NextOk.execHend (h : MemsOk s) : NextOk (execHend s) :=
  .withIssue h (fun _ _ h' => .ite (.block (.releaseLanes (.commit h'))) (.advance (.foldl (fun _ _ h'' => .modMyHelper h'') (.releaseLanes
    (.commit h')))))

theorem NextOk.execJoin {nt : Bool} {d m c : Opnd} (h : MemsOk s) : NextOk (execJoin nt d m c s) := by
  unfold Machine.execJoin
  refine .withIssue h (fun _ _ h' => .ite (.block (.commit h')) (.ite (.settledFault (.foldl (fun _ _ h'' => ?_) (.commit h'))) (.advance
      (.deliver (.deliver (.foldl (fun _ _ h'' => ?_) (.commit h')))))))
  · dsimp only
    split
    · exact h''
    · exact .modGang (.foldl (fun _ _ h' => h') h'')
  · dsimp only
    split
    · exact h''
    · exact .modGang (.foldl (fun _ _ h' => h') h'')

theorem NextOk.execDismiss (h : MemsOk s) : NextOk (execDismiss s) :=
  .withIssue h (fun _ _ h' => .ite (.block (.foldl (fun _ _ h'' => .releaseRecord h'') (.commit h'))) (.advance (.foldl (fun _ _ h'' =>
    .releaseRecord h'') (.commit h'))))

/-! ### Exchange between lanes -/

theorem NextOk.exchange {d : Opnd} {dsz : Size} {srcs : List (Opnd × Size × KType)} {n : Nat}
    {f : Positions (List DWord) → Nat → List DWord → Res} (h : MemsOk s) : NextOk (exchange d dsz srcs n f s) :=
  .withIssue h (fun _ _ h' => .advance (.deliver h'))

/-! ### The module loader -/

theorem NextOk.execModuleLoad {ctx : Nat} {m : ModuleFile} (h : MemsOk s) : NextOk (execModuleLoad ctx m s) := by
  unfold Machine.execModuleLoad
  refine .hostDoes h (.next ?_)
  split
  · exact .answer h
  · refine .answer ?_
    generalize hs : Machine.sysWrite _ _ _ (Machine.sysWrite _ _ _ s) = s1
    have h1 : MemsOk s1 := hs ▸ .sysWrite (.sysWrite h)
    exact h1

/-! ### Barriers and monitors -/

theorem MemsOk.partEmpty {iss : Issue} (h : MemsOk s) : MemsOk (partEmpty iss s) := .foldl (fun _ _ h' => .ite h' h') h

theorem NextOk.barrier {b : BitVec 4} {a : Opnd} {done : Issue → Nat → State → State}
    (hd : ∀ iss v t, MemsOk t → MemsOk (done iss v t)) (h : MemsOk s) : NextOk (barrier b a done s) := by
  refine .withIssue h fun _ _ h' => ?_
  split
  · exact .advance (hd _ _ _ h')
  · exact h'
  · exact .updateBarrier (.partEmpty (.block (.noteArrival (.commit h'))))

theorem NextOk.execBar {b : BitVec 4} {a : Opnd} (h : MemsOk s) : NextOk (execBar b a s) := .barrier (fun _ _ _ h' => h') h

theorem NextOk.execBarl {d : Opnd} {b : BitVec 4} {a : Opnd} (h : MemsOk s) : NextOk (execBarl d b a s) :=
  .barrier (fun _ _ _ h' => .deliver h') h

theorem NextOk.execArrive {b : BitVec 4} {a : Opnd} (h : MemsOk s) : NextOk (execArrive b a s) :=
  .withIssue h (fun _ _ h' => .updateBarrier (.advance (.noteArrival (.commit h'))))

theorem MemsOk.giveCauses {iss : Issue} {d : Opnd} {woken : Option Nat} {other : Nat} (h : MemsOk s) : MemsOk (giveCauses iss d woken other s) :=
  .advance (.deliver h)

theorem MemsOk.waitSlice {iss : Issue} {d : Opnd} {j : Nat} (h : MemsOk s) : MemsOk (waitSlice iss d j s) :=
  .ite (.giveCauses h) (.ite (.giveCauses h) (.stall h))

theorem NextOk.execWaitmon {d : Opnd} (h : MemsOk s) : NextOk (execWaitmon d s) :=
  .withIssue h (fun _ _ h' => .ite (.giveCauses (.commit h')) (.ite (.block (.commit h')) (.foldl (fun _ _ h'' => .waitSlice h'') (.partEmpty
    (.commit h')))))

theorem MemsOk.deliverU {u : Bool} {iss : Issue} {d : Opnd} {rs : List (LaneRef × Res)} {n : Nat} (h : MemsOk s) :
    MemsOk (deliverU u iss d rs n s) := by
  unfold Machine.deliverU
  refine .ite ?_ (.deliver h)
  split
  · exact .deliverUniform h
  · exact h

theorem NextOk.execQpush {u : Bool} {q : BitVec 6} {d a : Opnd} (h : MemsOk s) : NextOk (execQpush u q d a s) :=
  .withIssue h (fun _ _ h' => .advance (.deliverU (.ite (.commit h') (.commit h'))))

theorem NextOk.execQpop {u : Bool} {q : BitVec 6} {d st : Opnd} (h : MemsOk s) : NextOk (execQpop u q d st s) :=
  .withIssue h (fun _ _ h' => .advance (.deliverU (.deliverU (.ite (.commit h') (.commit h')))))

theorem NextOk.execQlen {u : Bool} {q : BitVec 6} {d : Opnd} (h : MemsOk s) : NextOk (execQlen u q d s) :=
  .withIssue h (fun _ _ h' => .advance (.deliverU (.commit h')))

/-! ### Executing one instruction or event -/

theorem NextOk.exec {i : Instr} (h : MemsOk s) : NextOk (exec i s) := by
  unfold Machine.exec
  cases i with
  | nop => exact .execNop h
  | trace => exact .execTrace h
  | stg => exact .execStg h
  | wbind => exact .execWbind h
  | guard => exact .execGuard h
  | settle => exact .execSettle h
  | tend | tendi | call | calli | ret => exact .atEnd h
  | merge => exact .execMerge h
  | regang => exact .execRegang h
  | exit => exact .execExit h
  | yield => exact .execYield h
  | trap => exact .execTrap h
  | bkpt => exact .execBkpt h
  | iadd | isub | iadd64 | isub64 | imul | imulh | imulhu | divs | divu | rems | remu | imin | imax | iminu | imaxu | isat | icmp | and |
    or | xor | andn | shl | shr | sar | lea | fadd | fsub | fmul | fmin | fmax | fcmp | pkadd | pkmul | dadd | dsub | dmul | dmin | dmax |
    dcmp | packh => exact .compute2 h
  | iaddI | isubI | iadd64I | isub64I | imulI | imulhI | imulhuI | divsI | divuI | remsI | remuI | iabs | ineg | iminI | imaxI | iminuI |
    imaxuI | isatI | icmpI | andI | orI | xorI | andnI | not | shlI | shrI | sarI | popc | clz | ctz | brev | mov | faddI | fsubI | fmulI |
    fminI | fmaxI | fcmpI | fexp2 | flog2 | fsin | fcos | fclass | pkaddI | pkmulI | daddI | dsubI | dmulI | dminI | dmaxI | dcmpI | cvtif |
    cvtfi | cvtff | cvtii | unpkh => exact .compute1 h
  | iaddc | isubb | imad | imad64 | sel | shf | bfx | bfxu | bfi | bysel | ffma | pkfma | dfma => exact .compute3 h
  | movi => exact .compute h
  | frcp | frsq | fsqrt | frnd => exact .unary32 h
  | drcp | drsq => exact .unary64 h
  | xlane | vote | gredux | scan => exact .exchange h
  | ld | gather => exact .loadAll h
  | st | scatter => exact .storeAll h
  | scatterAdd | atom | red => exact .rmwAll h
  | acq | rel | acqld | relst => exact .objectAll h
  | fence => exact .execFence h
  | xfence => exact .execXfence h
  | bind => exact .execBind h
  | unbind => exact .execUnbind h
  | pref => exact .execPref h
  | spill => exact .execSpill h
  | fill => exact .execFill h
  | cpy => exact .execCpy h
  | cpy2d => exact .execCpy2d h
  | cseal => exact .execCseal h
  | cdec => exact .execCdec h
  | fopen => exact .execFopen h
  | fnext => exact .execFnext h
  | ftest => exact .execFtest h
  | fclose => exact .execFclose h
  | orsv => exact .execOrsv h
  | orls => exact .execOrls h
  | mgath => exact .execMgath h
  | mma => exact .execMma h
  | mmap => exact .execMmap h
  | guide => exact .execGuide h
  | mzero => exact .execMzero h
  | mst => exact .execMst h
  | mld => exact .execMld h
  | mspsel => exact .execMspsel h
  | spst => exact .execSpst h
  | mclaim => exact .execMclaim h
  | mpass => exact .execMpass h
  | recruit => exact .execRecruit h
  | hread => exact .execHread h
  | hret => exact .execHret h
  | hend => exact .execHend h
  | join => exact .execJoin h
  | dismiss => exact .execDismiss h
  | bar => exact .execBar h
  | barl => exact .execBarl h
  | arrive => exact .execArrive h
  | mon => exact .execMon h
  | waitmon => exact .execWaitmon h
  | qpush => exact .execQpush h
  | qpop => exact .execQpop h
  | qlen => exact .execQlen h
  | gets => exact .execGets h
  | sets => exact .execSets h
  | role => exact .execRole h
  | grow => exact .execGrow h
  | shrink => exact .execShrink h
  | guardedCommandResolution => exact .execGuardedCommandResolution h
  | copyCommandComplete => exact .execCopyCommandComplete h
  | matrixEngineGrant => exact .execMatrixEngineGrant h
  | matrixCommandComplete => exact .execMatrixCommandComplete h
  | pairWaitExpiry => exact .execPairWaitExpiry h
  | cooperativeMatchTimeout => exact .execCooperativeMatchTimeout h
  | growGrant => exact .next (.grantGrows h)
  | growStuckDenial => exact .execGrowStuckDenial h
  | monitorEviction | getCertificate | negotiateAlgorithms | challenge | powerThrottle => exact .next h
  | waitmonTimerExpiry => exact .execWaitmonTimerExpiry h
  | sluiceRelease => exact .execSluiceRelease h
  | watchdogExpiry => exact .execWatchdogExpiry h
  | trigger => exact .execTrigger h
  | triggerBegin => exact .execTriggerBegin h
  | gload => exact .execGload h
  | launchStart => exact .execLaunchStart h
  | unitDispatch => exact .execUnitDispatch h
  | unitDeschedule => exact .ite (.next (.beginSave (.modLaunch h))) (.next h)
  | quantumExpiry | resumeComplete => exact .ite (.next h) (.next h)
  | cancelUnit => exact .execCancelUnit h
  | cancelLaunch => exact .execCancelLaunch h
  | cancelGraph => exact .execCancelGraph h
  | cancelPhase => exact .execCancelPhase h
  | cancelJob => exact .execCancelJob h
  | ctxcmdPreempt | ctxcmdResume | ctxcmdInval => exact .hostDoes h (.next (.writeCtxcmd h))
  | preemptSaveComplete => exact .execPreemptSaveComplete h
  | invalComplete => exact .ite (.next (.runCmdq h)) (.next h)
  | firmwarePageGrow => exact .execFirmwarePageGrow h
  | fcmdReplay => exact .execFcmdReplay h
  | fcmdCancel => exact .execFcmdCancel h
  | fcmdInvalid => exact .execFcmdInvalid h
  | fqtailWrite => exact .execFqtailWrite h
  | softErrorCorrectable => exact .execSoftErrorCorrectable h
  | softErrorUncorrectable => exact .next (.hardError (.countDie h))
  | moduleLoad => exact .execModuleLoad h
  | accessPerformed => exact .execAccessPerformed h
  | graphLoadComplete => exact .execGraphLoadComplete h
  | carrBlockTransmit => exact .execCarrBlockTransmit h
  | carrctlEn => exact .hostDoes h (.next (.writeEn h))
  | carrctlRetrain => exact .hostDoes h (.next (.retrain h))
  | linkTrainingComplete | linkTrainingTimeout | channelDrain => exact .next (.ite (.noteHealth h) h)
  | laneLoss => exact .next (.ite (.noteHealth (.degrade (.modLink (.countDie h)))) h)
  | dataFlitReceive | idleFlitReceive | nakFlitReceive => exact .next (.receiveFlit h)
  | ackTimeoutResend | cxlCompletionTimeout => exact .next (.ite h h)
  | linkCommandComplete => exact .execLinkCommandComplete h
  | pcieAtomicopReceived => exact .hostDoes h (.next h)
  | boot => exact .execBoot
  | getMeasurements => exact .execGetMeasurements h
  | redfishRequest => exact .execRedfishRequest h
  | healthcmdAck => exact .execHealthcmdAck h
  | coreFence => exact .execCoreFence h
  | mgmtHeartbeatMiss => exact .next (.ite (.ite (.checkDies (.noteHealth h)) (.noteHealth h)) h)
  | thermalTrip | dieToDieLinkFailure | bootSecurityCoreFailure => exact .next (.enterFailed h)
  | registerWrite => exact .execRegisterWrite h

/-! ### The issue of an instruction -/

theorem MemsOk.headFault {iss : Issue} {a : Nat} {f : Flt} (h : MemsOk s) : MemsOk (headFault iss a f s) :=
  .ite (.settledFault (.modThreads h)) (.parkIssue (.modThreads h))

theorem MemsOk.fetchHead {iss : Issue} {a : Nat} (h : MemsOk s) : MemsOk (fetchHead iss a s).2 := by
  unfold Machine.fetchHead
  refine .snd_ite ?_ ?_
  · split <;> next e => exact .of_eq e (.fetchWord h)
  · split
    next e => exact .of_eq e (.fetchWord h)
    next e =>
      have h1 := MemsOk.of_eq e (.fetchWord h)
      split <;> exact .snd_ite h1 h1

theorem MemsOk.popIssue {iss : Issue} (h : MemsOk s) : MemsOk (popIssue iss s) :=
  .ite (.afterExit (.foldl (fun _ _ h' => .popSlice h') h)) (.foldl (fun _ _ h' => .popSlice h') h)

theorem MemsOk.nextInstr {iss : Issue} (h : MemsOk s) : MemsOk (nextInstr iss s).2 := by
  unfold Machine.nextInstr
  split
  · split
    next e => exact .modThreads (.of_eq e (.fetchHead h))
    next e => exact .headFault (.of_eq e (.fetchHead h))
  · split <;> exact h
  · exact .popIssue (.modThreads h)
  · exact h

theorem MemsOk.countIssue {iss : Issue} (h : MemsOk s) : MemsOk (countIssue iss s) := .ite (.countCore (.countCore h)) (.countCore h)

theorem MemsOk.closeIssue {iss : Issue} (h : MemsOk s) : MemsOk (closeIssue iss s) := .newAccess (.updateJoined (.modThreads h))

theorem NextOk.mapNext {f : State → State} {o : Host.Outcome State Fault Refusal} (hf : ∀ t, MemsOk t → MemsOk (f t)) (ho : NextOk o) :
    NextOk (mapNext f o) := by
  cases o with
  | next t => exact .next (hf t ho)
  | fault r => trivial
  | refused r => trivial

theorem NextOk.runIssue {iss : Issue} (h : MemsOk s) : NextOk (runIssue iss s) := by
  unfold Machine.runIssue
  dsimp only
  split
  next e => exact .mapNext (fun _ h' => .closeIssue h') (.exec (.newAccess (.of_eq e (.nextInstr (.countIssue h)))))
  next e => exact .next (.closeIssue (.of_eq e (.nextInstr (.countIssue h))))

theorem MemsOk.timely {ts : List ThreadId} (h : MemsOk s) : MemsOk (timely ts s).2 := by
  induction ts generalizing s with
  | nil => exact h
  | cons t ts ih => exact ih (.takeBit h)

theorem MemsOk.stampWaits (h : MemsOk s) : MemsOk (stampWaits s) := h

theorem MemsOk.choose (h : MemsOk s) : MemsOk (choose s).2 := .timely h

theorem NextOk.issueTurn {t : ThreadId} (h : MemsOk s) : NextOk (issueTurn t s) := .ite (.runIssue h) (.next h)

/-! ### One step of the machine -/

theorem MemsOk.passTime (h : MemsOk s) : MemsOk (passTime s) := .ite h h

theorem MemsOk.aftermath (h : MemsOk s) : MemsOk (aftermath s) :=
  .passTime (.stampWaits (.progressCopies (.startLinks (.finishFences (.finishSaves (.tickEngines h))))))

theorem MemsOk.pick {l : List Instr} (h : MemsOk s) : MemsOk (pick l s).2 := h

theorem NextOk.arbitrate (h : MemsOk s) : NextOk (arbitrate s) := by
  unfold Machine.arbitrate
  have h1 := MemsOk.choose (.takeBit (.takeBit h))
  dsimp -zeta only
  extract_lets es ls event
  have hevent : ∀ {l t}, MemsOk t → NextOk (event l t) := by
    intro l t ht
    dsimp only [event]
    split
    next e => exact .exec (.of_eq e (.pick ht))
    next e => exact .next (.of_eq e (.pick ht))
  refine .ite (hevent h1) ?_
  split
  · exact .ite (hevent h1) (.issueTurn h1)
  · exact .ite (hevent h1) (hevent h1)

theorem NextOk.stepOnce (h : MemsOk s) : NextOk (stepOnce s) := by
  unfold Machine.stepOnce
  refine .ite trivial (.mapNext (fun _ h' => .aftermath h') ?_)
  split
  · exact .exec h
  · exact .issueTurn h
  · exact .arbitrate h

/-- Settles O57: the step function keeps the invariant (`NextOk.stepOnce`), by a preservation lemma for each function that it calls and
one case per instruction and event (`NextOk.exec`). -/
theorem stepKeepsMemories : Obligations.StepKeepsMemories := by
  intro s t hs ht
  have h : NextOk (step s) := .stepOnce hs
  rw [ht] at h
  exact h

end Sys2Proof.Machine
end

section
/-! PROOFS. Every decoded instruction is well-formed (R128, R129). -/

namespace Sys2Proof

/-! ### What a decoder accepts -/

/-- A decoder gives well-formed instructions only. -/
def WfOnly (o : Except Bad Instr) : Prop := ∀ i, o = .ok i → i.wf = true

@[simp] theorem wfOnly_error (e : Bad) : WfOnly (.error e) := fun _ h => nomatch h

@[simp] theorem wfOnly_accept (i : Instr) : WfOnly (accept i) := by
  intro j hj
  unfold accept at hj
  split at hj
  · next hi => cases hj; exact hi
  · cases hj

@[simp] theorem wfOnly_need (b : Bool) (k : Except Bad Instr) : WfOnly (need b k) ↔ (b = true → WfOnly k) := by
  cases b <;> simp [need]

@[simp] theorem wfOnly_opnd (b : Bool) (k : Except Bad Instr) : WfOnly (opnd b k) ↔ (b = true → WfOnly k) := by
  cases b <;> simp [opnd]

@[simp] theorem wfOnly_val {α : Type} (o : Option α) (k : α → Except Bad Instr) : WfOnly (val o k) ↔ ∀ x, o = some x → WfOnly (k x) := by
  cases o <;> simp [val]

@[simp] theorem wfOnly_operand (c : BitVec 8) (k : Opnd → Except Bad Instr) :
    WfOnly (operand c k) ↔ ∀ o, Opnd.of c = some o → WfOnly (k o) := by
  unfold operand; cases Opnd.of c <;> simp

@[simp] theorem wfOnly_ite {c : Prop} [Decidable c] {a b : Except Bad Instr} (ha : WfOnly a) (hb : WfOnly b) : WfOnly (if c then a else b) := by
  split <;> assumption

/-! ### The rows of the opcode map: each decoder's checks end in `accept` -/

theorem wfOnly_decodeRow0 (lo : Nat) (w : DWord) : WfOnly (decodeRow0 lo w) := by
  unfold decodeRow0
  split <;> simp [decNop, decTrace, decStg, decWbind, decGuard, decSettle, decTend, decTendi, decCall, decCalli, decRet, decMerge,
    decRegang, decExit, decYield, decTrap]

theorem wfOnly_decodeRow1 (lo : Nat) (w : DWord) : WfOnly (decodeRow1 lo w) := by
  unfold decodeRow1
  split <;> simp [decBkpt]

theorem wfOnly_decodeRow2 (lo : Nat) (w : DWord) : WfOnly (decodeRow2 lo w) := by
  unfold decodeRow2
  split <;> simp [decIaddI, decIadd, decIsubI, decIsub, decIaddc, decIsubb, decIadd64I, decIadd64, decIsub64I, decIsub64, decImulI, decImul,
    decImulhI, decImulh, decImulhuI, decImulhu, decImad, decImad64, decDivsI, decDivs, decDivuI, decDivu, decRemsI, decRems, decRemuI,
    decRemu, decIabs]

theorem wfOnly_decodeRow3 (lo : Nat) (w : DWord) : WfOnly (decodeRow3 lo w) := by
  unfold decodeRow3
  split <;> simp [decIneg, decIminI, decImin, decImaxI, decImax, decIminuI, decIminu, decImaxuI, decImaxu, decIsatI, decIsat, decIcmpI,
    decIcmp, decSel, decAndI, decAnd, decOrI, decOr, decXorI, decXor, decAndnI, decAndn, decNot, decShlI, decShl, decShrI, decShr, decSarI,
    decSar]

theorem wfOnly_decodeRow4 (lo : Nat) (w : DWord) : WfOnly (decodeRow4 lo w) := by
  unfold decodeRow4
  split <;> simp [decShf, decBfx, decBfxu, decBfi, decPopc, decClz, decCtz, decBrev, decBysel, decLea, decMovi, decMov]

theorem wfOnly_decodeRow6 (lo : Nat) (w : DWord) : WfOnly (decodeRow6 lo w) := by
  unfold decodeRow6
  split <;> simp [decFaddI, decFadd, decFsubI, decFsub, decFmulI, decFmul, decFfma, decFminI, decFmin, decFmaxI, decFmax, decFcmpI, decFcmp,
    decFrcp, decFrsq, decFsqrt, decFexp2, decFlog2, decFsin, decFcos, decFrnd, decFclass]

theorem wfOnly_decodeRow7 (lo : Nat) (w : DWord) : WfOnly (decodeRow7 lo w) := by
  unfold decodeRow7
  split <;> simp [decPkaddI, decPkadd, decPkmulI, decPkmul, decPkfma]

theorem wfOnly_decodeRow8 (lo : Nat) (w : DWord) : WfOnly (decodeRow8 lo w) := by
  unfold decodeRow8
  split <;> simp [decDaddI, decDadd, decDsubI, decDsub, decDmulI, decDmul, decDfma, decDminI, decDmin, decDmaxI, decDmax, decDcmpI, decDcmp,
    decDrcp, decDrsq]

theorem wfOnly_decodeRow9 (lo : Nat) (w : DWord) : WfOnly (decodeRow9 lo w) := by
  unfold decodeRow9
  split <;> simp [decCvtif, decCvtfi, decCvtff, decCvtii, decPackh, decUnpkh, decXlane, decVote, decGredux, decScan]

theorem wfOnly_decodeRowA (lo : Nat) (w : DWord) : WfOnly (decodeRowA lo w) := by
  unfold decodeRowA
  split <;> simp [decLd, decSt, decGather, decScatter, decAtom, decScatterAdd, decRed, decAcq, decRel, decAcqld, decRelst, decFence,
    decXfence, decBind, decUnbind, decPref, decSpill]

theorem wfOnly_decodeRowB (lo : Nat) (w : DWord) : WfOnly (decodeRowB lo w) := by
  unfold decodeRowB
  split <;> simp [decFill, decCpy, decCpy2d, decCseal, decCdec, decFopen, decFnext, decFtest, decFclose]

theorem wfOnly_decodeRowC (lo : Nat) (w : DWord) : WfOnly (decodeRowC lo w) := by
  unfold decodeRowC
  split <;> simp [decOrsv, decOrls, decMgath, decMma, decMmap, decGuide, decMzero, decMst, decMld, decMspsel, decSpst, decMclaim, decMpass]

theorem wfOnly_decodeRowD (lo : Nat) (w : DWord) : WfOnly (decodeRowD lo w) := by
  unfold decodeRowD
  split <;> simp [decRecruit, decHread, decHret, decHend, decJoin, decDismiss, decBar, decBarl, decArrive, decMon, decWaitmon, decQpush,
    decQpop, decQlen]

theorem wfOnly_decodeRowE (lo : Nat) (w : DWord) : WfOnly (decodeRowE lo w) := by
  unfold decodeRowE
  split <;> simp [decGets, decSets, decRole, decGrow, decShrink]

theorem wfOnly_decodeWord (w : DWord) : WfOnly (decodeWord w) := by
  unfold decodeWord
  dsimp only
  split
  · exact wfOnly_decodeRow0 _ w
  · exact wfOnly_decodeRow1 _ w
  · exact wfOnly_decodeRow2 _ w
  · exact wfOnly_decodeRow3 _ w
  · exact wfOnly_decodeRow4 _ w
  · exact wfOnly_decodeRow6 _ w
  · exact wfOnly_decodeRow7 _ w
  · exact wfOnly_decodeRow8 _ w
  · exact wfOnly_decodeRow9 _ w
  · exact wfOnly_decodeRowA _ w
  · exact wfOnly_decodeRowB _ w
  · exact wfOnly_decodeRowC _ w
  · exact wfOnly_decodeRowD _ w
  · exact wfOnly_decodeRowE _ w
  · exact wfOnly_error _

theorem decodeWord_wf {w : DWord} {i : Instr} (h : decodeWord w = .ok i) : i.wf = true := wfOnly_decodeWord w i h

end Sys2Proof
end

section
/-! PROOFS. Special registers (R161 to R163): what each reads as, also after a memory commit, and what GETS, SETS and ROLE leave. -/

namespace Sys2Proof.Machine

/-! ### Launches through a memory commit -/

/-- Launches hold the same descriptions. -/
def SameDescs (s t : State) : Prop := ∀ k, (t.launches.find? k).map (·.desc) = (s.launches.find? k).map (·.desc)

theorem SameDescs.refl (s : State) : SameDescs s s := fun _ => rfl
theorem SameDescs.trans {s t r : State} (h : SameDescs s t) (h' : SameDescs t r) : SameDescs s r := fun k => (h' k).trans (h k)
theorem SameDescs.of_eq {s t : State} (h : t.launches = s.launches) : SameDescs s t := fun k => by rw [h]

theorem sameDescs_foldl {β : Type} {step : State → β → State} (h : ∀ s b, SameDescs s (step s b)) (l : List β) (s : State) :
    SameDescs s (l.foldl step s) :=
  List.foldlRecOn l step (.refl s) fun _ ht b _ => ht.trans (h _ b)

theorem countDie_launches (d e c n : Nat) (s : State) : (countDie d e c n s).launches = s.launches := by
  unfold countDie; simp only; split <;> rfl

theorem stageEntry_launches (r : LaneRef) (e : Staged) (s : State) : (stageEntry r e s).launches = s.launches := by
  unfold stageEntry
  simp only
  split
  · split <;> exact countDie_launches ..
  · exact countDie_launches ..

/-- The owners of lines are all that a touch changes in a launch (R91). -/
theorem sameDescs_touchLines (u : Nat) (pas : List Nat) (s : State) : SameDescs s (touchLines u pas s) := by
  unfold touchLines
  split
  · exact .refl s
  · next l hl =>
    intro k
    by_cases hk : k = (unitOf s u).launch
    · subst hk; simp [hl]
    · simp [Map.find?_set_ne _ _ hk]

theorem sameDescs_enqueue (e : WEntry) (s : State) : SameDescs s (enqueue e s) := by
  unfold enqueue
  split
  · exact .refl s
  · exact .of_eq rfl

theorem sameDescs_commitLane (r : LaneRef) (s : State) : SameDescs s (commitLane r s) := by
  unfold commitLane
  extract_lets bufs un s1 s2 gl det s3 goes cells staged s4 loc
  have h2 : SameDescs s s2 := by
    refine SameDescs.trans (t := s1) (.of_eq rfl) (sameDescs_foldl (fun s b => ?_) _ _)
    split <;> exact .of_eq rfl
  have h3 : SameDescs s s3 := by
    dsimp only [s3]
    split
    · exact h2.trans (sameDescs_foldl (fun s b => sameDescs_touchLines _ _ s) _ _)
    · exact h2
  have h4 : SameDescs s s4 := by
    dsimp only [s4]
    split
    · exact h3
    · exact h3.trans (.of_eq (stageEntry_launches ..))
  exact (h4.trans (sameDescs_enqueue _ _)).trans (sameDescs_enqueue _ _)

/-- A commit leaves every launch its description. -/
theorem sameDescs_commit (iss : Issue) (s : State) : SameDescs s (commit iss s) := by
  unfold commit
  split
  · exact .refl s
  · rw [modThreads_rest]
    exact (sameDescs_foldl (fun s r => sameDescs_commitLane r s) _ s).trans (.of_eq rfl)

/-! ### Values of special registers -/

/-- A special register reads the same after the gang's memory commit. -/
theorem sregOf_commit (iss : Issue) (s : State) (r : LaneRef) (x : SReg) : sregOf (commit iss s) r x = sregOf s r x := by
  have hgangs : gangOf (commit iss s) ⟨r.u, r.g⟩ = gangOf s ⟨r.u, r.g⟩ :=
    commit_keeps (gangOf · ⟨r.u, r.g⟩) (fun _ _ _ _ _ _ _ _ _ _ _ _ _ _ => rfl) iss s
  have hclock : (commit iss s).clock = s.clock := commit_keeps (·.clock) (fun _ _ _ _ _ _ _ _ _ _ _ _ _ _ => rfl) iss s
  have hserve : (commit iss s).serve = s.serve := commit_keeps (·.serve) (fun _ _ _ _ _ _ _ _ _ _ _ _ _ _ => rfl) iss s
  have hdesc := sameDescs_commit iss s
  unfold sregOf
  rw [hgangs, hclock, hserve, bindOf_commit, unitOf_commit iss s r.u]
  simp only [hdesc _]

theorem sregOf_uniformStart (s : State) (iss : Issue) (d : Opnd) (r : LaneRef) (x : SReg) :
    sregOf (uniformStart s iss d) r x = sregOf s r x := by
  unfold uniformStart
  split
  · exact sregOf_commit iss s r x
  · rfl

theorem sregSize_regs (x : SReg) : (sregSize x).regs = if x = .clock then 2 else 1 := by
  unfold sregSize; split <;> rfl

/-- What GETS delivers of a value: CLOCK in 64 bits, every other special register in 32 (R161). -/
theorem resW_sregSize (x : SReg) (n : Nat) : resW (sregSize x) (BitVec.ofNat 64 n) = if x = .clock then low64 n else low32 n := by
  have hlo : loW (BitVec.ofNat 64 n) = BitVec.ofInt 32 n := by
    rw [BitVec.ofInt_natCast]; exact BitVec.eq_of_toNat_eq (by simp [loW])
  have hhi : hiW (BitVec.ofNat 64 n) = BitVec.ofInt 32 (n / 2 ^ 32) := by
    have hdiv : ((n : Int) / 2 ^ 32) = ((n / 2 ^ 32 : Nat) : Int) := by norm_cast
    rw [hdiv, BitVec.ofInt_natCast]
    refine BitVec.eq_of_toNat_eq ?_
    simp only [hiW, BitVec.toNat_setWidth, BitVec.toNat_ushiftRight, BitVec.toNat_ofNat, Nat.shiftRight_eq_div_pow]
    omega
  unfold sregSize
  split
  · simp only [resW, res64, low64, hlo, hhi]
  · simp only [resW, res32, low32, hlo]

/-! ### The instructions -/

theorem gangRegs_of_lane {d : Opnd} (hd : d.isGang = false) (n : Nat) : gangRegs [(d, n)] = [] := by
  cases d with
  | gang => cases hd
  | _ => rfl

theorem Clear.none (s : State) (g : GangId) : Clear s g [] [] := ⟨by simp, by simp⟩

theorem gets_givesLanes {s : State} {iss : Issue} (h : Runs s iss) (x : SReg) {d : Opnd} (hd : d.isGang = false) {f : LaneRef → Res}
    (hf : ∀ r ∈ issueLanes s iss, resW (sregSize x) (sregOf s r x) = f r) : GivesLanes (.gets false x d) s s iss d f := by
  refine givesLanes_of (n := (sregSize x).regs) h.nodup hd (fun r hr => ?_) ?_
  · rw [← hf r hr]; unfold sregSize; split <;> rfl
  · have hlanes : ((issueLanes s iss).map fun r => (r, resW (sregSize x) (sregOf s r x))) = (issueLanes s iss).map fun r => (r, f r) :=
      List.map_congr_left fun r hr => by rw [hf r hr]
    rw [exec_gets, execGets, gangRegs_of_lane hd, withIssue_clear h (.none ..), ← hlanes]
    rfl

theorem gets_givesUniform {s : State} {iss : Issue} (h : Runs s iss) (x : SReg) (d : Opnd)
    (hc : Clear s iss.gang [] (gangRegs [(d, (sregSize x).regs)])) :
    GivesUniform (.gets true x d) s (uniformStart s iss d) iss d (resW (sregSize x) (sregOf s (uniRef iss) x)) := by
  refine givesUniform_of h.nodup ?_
  rw [exec_gets, execGets, withIssue_clear h hc, ← sregOf_uniformStart s iss d]
  rfl

theorem goesOn_advance {i : Instr} {s m : State} {iss : Issue} (hj : iss.js.Nodup) (h : exec i s = .next (advance iss m)) : GoesOn i s m iss :=
  ⟨_, h, wentOn_advance hj m⟩

theorem sets_mark_goesOn {s : State} {iss : Issue} (h : Runs s iss) {r0 : LaneRef} (hr : (issueLanes s iss).head? = some r0) {a : Opnd}
    (hc : Clear s iss.gang (gangRegs [(a, 1)]) []) :
    GoesOn (.sets .mark a) s (modGang iss.gang (fun g => { g with mark := src32 s r0 .int a }) (commit iss s)) iss := by
  refine goesOn_advance h.nodup ?_
  rw [exec_sets, execSets, withIssue_clear h hc, hr]
  rfl

theorem sets_evtag_goesOn {s : State} {iss : Issue} (h : Runs s iss) {r0 : LaneRef} (hr : (issueLanes s iss).head? = some r0) {a : Opnd}
    (hc : Clear s iss.gang (gangRegs [(a, 1)]) []) :
    GoesOn (.sets .evtag a) s (modGang iss.gang (fun g => { g with evtag := src32 s r0 .int a &&& 0xF }) (commit iss s)) iss := by
  refine goesOn_advance h.nodup ?_
  rw [exec_sets, execSets, withIssue_clear h hc, hr]
  rfl

theorem role_goesOn {s : State} {iss : Issue} (h : Runs s iss) (role : Role) :
    GoesOn (.role role) s (modGang iss.gang (fun g => { g with role := role }) (commit iss s)) iss := by
  refine goesOn_advance h.nodup ?_
  rw [exec_role, execRole, withIssue_clear h (.none ..)]

/-- Settles O30: GETS delivers `sregOf`, register by register the value that the statement gives (`hvalue`), and a commit before a uniform
write does not change it (`sregOf_commit`); SETS and ROLE commit and change their one field of the gang. -/
theorem specialRegisterResults : Obligations.SpecialRegisterResults := by
  intro d a role s iss r0 h hr un launch extent value result c0
  have hvalue : ∀ x r, r.u = iss.u → r.g = iss.g → r.h = iss.h → sregOf s r x = BitVec.ofNat 64 (value x r) := by
    rintro x ⟨u, g, l, b⟩ rfl rfl rfl
    cases x with
    | helpidx =>
      cases hsv : s.serve.find? ⟨iss.u, iss.g, l / 4⟩ <;> simp [sregOf, value, hsv]
    | _ => rfl
  have hres : ∀ x r, r.u = iss.u → r.g = iss.g → r.h = iss.h → resW (sregSize x) (sregOf s r x) = result x r := by
    intro x r hu hg hh
    rw [hvalue x r hu hg hh, resW_sregSize]
  refine ⟨fun x hd => ?_, fun x _ hc => ?_, fun hc => ⟨sets_mark_goesOn h hr hc, sets_evtag_goesOn h hr hc⟩, role_goesOn h role⟩
  · refine gets_givesLanes h x hd fun r hr => ?_
    obtain ⟨hu, hg, hh⟩ := issueLanes_unit hr
    exact hres x r hu hg hh
  · rw [← sregSize_regs] at hc
    rw [← hres x (uniRef iss) rfl rfl rfl]
    exact gets_givesUniform h x d hc

end Sys2Proof.Machine
end

section
/-! PROOFS. What a step at the head of the agenda runs (R11, R47, R126, R129, R380). -/

namespace Sys2Proof.Machine

/-! ### The head of the agenda -/

theorem step_off {s : State} (h : s.off = true) : step s = .fault .poweredOff := by simp [step, stepOnce, h]

theorem step_event {s : State} {i : Instr} {rest : List Turn} (h : s.off = false) (ha : s.agenda = .event i :: rest) :
    step s = mapNext aftermath (exec i { s with cur := none, agenda := rest }) := by simp [step, stepOnce, h, ha]

theorem step_issue {s : State} {x : ThreadId} {rest : List Turn} (h : s.off = false) (ha : s.agenda = .issue x :: rest) :
    step s = mapNext aftermath (issueTurn x { s with cur := none, agenda := rest }) := by simp [step, stepOnce, h, ha]

/-! ### One issue -/

/-- Once the machine has an instruction for an issue, the issue runs it and closes. -/
theorem runIssue_of_nextInstr {s s1 : State} {iss : Issue} {i : Instr}
    (h : nextInstr iss (countIssue iss { s with cur := some iss }) = (some i, s1)) :
    runIssue iss s = mapNext (closeIssue iss) (exec i (newAccess s1)) := by simp [runIssue, h]

theorem issueTurn_of_nextInstr {s s1 : State} {x : ThreadId} {i : Instr} (hx : canIssue s x = true)
    (h : nextInstr (issueOf s x) (countIssue (issueOf s x) { s with cur := some (issueOf s x) }) = (some i, s1)) :
    issueTurn x s = mapNext (closeIssue (issueOf s x)) (exec i (newAccess s1)) := by
  rw [issueTurn, if_pos hx, runIssue_of_nextInstr h]

theorem looks_countIssue (iss : Issue) (s : State) : Looks s (countIssue iss s) := by
  unfold countIssue
  dsimp only
  split
  · exact (looks_countCore ..).trans (looks_countCore ..)
  · exact looks_countCore ..

theorem tlbsAgree_countIssue {s : State} (h : TlbsAgree s) (iss : Issue) : TlbsAgree (countIssue iss s) := by
  unfold countIssue
  dsimp only
  split
  · exact tlbsAgree_countCore (tlbsAgree_countCore h ..) ..
  · exact tlbsAgree_countCore h ..

theorem headThread_looks {s t : State} (h : Looks s t) (iss : Issue) : headThread t iss = headThread s iss :=
  h.keeps (headThread · iss) fun _ _ _ _ _ _ _ _ _ => rfl

theorem inDirectory_looks {s t : State} (h : Looks s t) (ctx a : Nat) : inDirectory t ctx a = inDirectory s ctx a :=
  h.keeps (inDirectory · ctx a) fun _ _ _ _ _ _ _ _ _ => rfl

theorem codeWord_looks {s t : State} (h : Looks s t) {u va : Nat} {w : DWord} (hw : CodeWord s u va w) : CodeWord t u va w := by
  have hmem : t.mem = s.mem := h.keeps (·.mem) fun _ _ _ _ _ _ _ _ _ => rfl
  unfold CodeWord
  rw [looks_unitOf h, h.walk, looks_narrowedAt h, hmem]
  exact hw

/-- The instruction in hand and the agenda have no part in what TLBs and tables say. -/
theorem tlbsAgree_cur_agenda {s : State} (h : TlbsAgree s) (c : Option Issue) (ag : List Turn) : TlbsAgree { s with cur := c, agenda := ag } :=
  ⟨fun e he va h1 h2 => (walk_congr rfl rfl _ _).trans (h.entries e he va h1 h2), fun p hp => (walk_congr rfl rfl _ _).trans (h.made p hp)⟩

theorem codeWord_cur_agenda {s : State} {u va : Nat} {w : DWord} (h : CodeWord s u va w) (c : Option Issue) (ag : List Turn) :
    CodeWord { s with cur := c, agenda := ag } u va w := by
  obtain ⟨hva, b, l, hw, hrest⟩ := h
  exact ⟨hva, b, l, (walk_congr rfl rfl _ _).trans hw, hrest⟩

/-! ### Fetching at a head -/

/-- A word that may be fetched is fetched, where TLBs agree with the tables (R129, R333, R337). -/
theorem fetchWord_codeWord {s : State} (ha : TlbsAgree s) {u va : Nat} {w : DWord} (hw : CodeWord s u va w) :
    ∃ s1, fetchWord u va s = (.ok w, s1) ∧ Looks s s1 := by
  obtain ⟨hva, b, l, hwalk, hx, hn, rfl⟩ := hw
  have hl := lookup_spec ha (unitOf s u).core (unitOf s u).ctx va
  unfold fetchWord
  rw [if_neg (by omega)]
  generalize lookup (unitOf s u).core (unitOf s u).ctx va s = q at hl ⊢
  obtain ⟨r, s1⟩ := q
  obtain rfl : r = .leaf b l := hl.walk.trans hwalk
  have hlook : Looks s s1 := hl.looks
  have hnarrow : (narrowedAt s u va && ! l.w) = false := by
    cases h : narrowedAt s u va
    · rfl
    · simp [hn h]
  have htr : trOf (.leaf b l) va .fetch (leasedAt s1 u va) (Walk.present (.leaf b l) || openAt s1 u va) (narrowedAt s1 u va)
      = .ok (l.pa + (va - b)) l := by
    simp [trOf, Walk.present, looks_narrowedAt hlook, hnarrow, hx]
  have hmem : s1.mem = s.mem := hlook.keeps (·.mem) fun _ _ _ _ _ _ _ _ _ => rfl
  exact ⟨s1, by simp only [htr, hmem], hlook⟩

/-- The instruction of a word that may be fetched and stands in a directory is the one at the head, where it may stand there (R126, R129). -/
theorem fetchHead_of_codeWord {s : State} (ha : TlbsAgree s) {iss : Issue} {a : Nat} {w : DWord} {i : Instr}
    (hdir : inDirectory s (unitOf s iss.u).ctx a = true) (hw : CodeWord s iss.u a w) (hi : decodeWord w = .ok i)
    (hok : headOk (headThread s iss).need i = true) : ∃ s1, fetchHead iss a s = (.ok i, s1) ∧ Looks s s1 := by
  obtain ⟨s1, hf, hl⟩ := fetchWord_codeWord ha hw
  exact ⟨s1, by simp [fetchHead, hdir, hf, hi, hok], hl⟩

theorem nextInstr_body {s : State} {iss : Issue} {k : Nat} {i : Instr} (hp : (headThread s iss).pos = .body k)
    (hi : decodeWord ((headThread s iss).words.getD k 0) = .ok i) : nextInstr iss s = (some i, s) := by
  simp only [nextInstr, hp, hi]

theorem nextInstr_head {s s1 : State} {iss : Issue} {a : Nat} {i : Instr} (hp : (headThread s iss).pos = .head a)
    (hf : fetchHead iss a s = (.ok i, s1)) : nextInstr iss s = (some i, modThreads iss (fun th => { th with parkedWith := [] }) s1) := by
  simp only [nextInstr, hp, hf]

/-- The three kinds of head, where each may stand (R129). -/
theorem headOk_of {need : Nat} {i : Instr}
    (h : (∃ st gd, i = .trace st gd) ∨ (∃ k, i = .merge k ∧ need = 0) ∨ (i = .regang ∧ need ≤ 1)) : headOk need i = true := by
  obtain ⟨st, gd, rfl⟩ | ⟨k, rfl, hn⟩ | ⟨rfl, hn⟩ := h
  · rfl
  · exact beq_iff_eq.mpr hn
  · exact decide_eq_true hn

/-- Settles O59: the head of the agenda decides the case (`step_off`, `step_event`, `step_issue`); in a turn, the instruction is that of the
word in the trace (`nextInstr_body`) or of the word fetched at the head (`fetchHead_of_codeWord`), and it is well-formed since it is decoded. -/
theorem stepRunsDecodedInstruction : Obligations.StepRunsDecodedInstruction := by
  intro s
  refine ⟨step_off, fun i rest => step_event, ?_⟩
  intro x rest hoff hag s0 iss ready after
  have hstep : step s = mapNext aftermath (issueTurn x s0) := step_issue hoff hag
  have hready : Looks { s0 with cur := some iss } ready := looks_countIssue ..
  have hthread : headThread ready iss = headThread s0 iss := headThread_looks hready iss
  refine ⟨fun hx => ?_, fun hx k i hp hi => ?_, fun hx ha a w i hp hdir hw hi hhead => ?_⟩
  · rw [hstep, issueTurn, hx]; rfl
  · rw [← hthread] at hp hi
    exact ⟨decodeWord_wf hi, by rw [hstep, issueTurn_of_nextInstr hx (nextInstr_body hp hi)]⟩
  · have hok : headOk (headThread ready iss).need i = true := by rw [hthread]; exact headOk_of hhead
    have htlbs : TlbsAgree ready := tlbsAgree_countIssue (tlbsAgree_cur_agenda ha ..) iss
    have hdir' : inDirectory ready (unitOf ready iss.u).ctx a = true := by
      rw [inDirectory_looks hready, looks_unitOf hready]; exact hdir
    have hw' : CodeWord ready iss.u a w := codeWord_looks hready (codeWord_cur_agenda hw ..)
    obtain ⟨s1, hf, hl⟩ := fetchHead_of_codeWord htlbs hdir' hw' hi hok
    rw [← hthread] at hp
    exact ⟨decodeWord_wf hi, s1, hl, by rw [hstep, issueTurn_of_nextInstr hx (nextInstr_head hp hf)]⟩

end Sys2Proof.Machine
end
